-- ==== Sys2Proof/Word.lean ====
section
/-!
DEFINITION. The word types of the SX-40 and their plainest arithmetic (spec 00_scope.md R4, R5, R14).
-/
namespace Sys2Proof

/-- A 32-bit word: a v register of one item, an s register, an instruction word (R21). -/
abbrev Word := BitVec 32
/-- A byte of memory (R5). -/
abbrev Byte := BitVec 8
/-- A 64-bit quantity: a register pair, a virtual address, a page-table entry (R22). -/
abbrev DWord := BitVec 64
/-- The 7-bit operand field of an instruction word (R73). -/
abbrev Field7 := BitVec 7

end Sys2Proof
end

