-- ==== Sys2Proof/Machine/Bits.lean ====
section
/-!
DEFINITION. Bit fields, sign extension, byte order and the small list helpers the machine uses (R4, R5).
-/
namespace Sys2Proof.Machine

/-- Bits `hi` down to `lo` of a number (R4). -/
def bits (n hi lo : Nat) : Nat := (n >>> lo) % 2 ^ (hi + 1 - lo)

/-- Bit `i` of a number. -/
def bit (n i : Nat) : Bool := (n >>> i) % 2 = 1

/-- The number a Boolean stands for. -/
def ofBool (b : Bool) : Nat := if b then 1 else 0

/-- The signed reading of the low `w` bits of a number. -/
def signed (w n : Nat) : Int :=
  let m := n % 2 ^ w
  if m < 2 ^ (w - 1) then (m : Int) else (m : Int) - 2 ^ w

/-- An exact value narrowed to 32 bits (`wrap32`, R12). -/
def wrap32 (i : Int) : Word := BitVec.ofInt 32 i

/-- An exact value narrowed to 64 bits (`wrap64`, R12). -/
def wrap64 (i : Int) : DWord := BitVec.ofInt 64 i

/-- `a :: b` of two words: `hi` in the more significant half (R4, R22). -/
def pair (hi lo : Word) : DWord := hi ++ lo

/-- Bits 31:0 of a 64-bit value (R22). -/
def lowWord (d : DWord) : Word := d.setWidth 32

/-- Bits 63:32 of a 64-bit value (R22). -/
def highWord (d : DWord) : Word := (d >>> 32).setWidth 32

/-- The word whose bytes, lowest address first, are given (R5). -/
def ofBytes (l : List Byte) : Nat :=
  match l with
  | [] => 0
  | b :: r => b.toNat + 256 * ofBytes r

/-- The `n` bytes of a number, lowest address first (R5). -/
def toBytes (n v : Nat) : List Byte :=
  match n with
  | 0 => []
  | n + 1 => BitVec.ofNat 8 v :: toBytes n (v / 256)

/-- The bytes of a 32-bit word (R5). -/
def wordBytes (w : Word) : List Byte := toBytes 4 w.toNat

/-- The word at the head of a byte list, missing bytes read as zero. -/
def headWord (l : List Byte) : Word := BitVec.ofNat 32 (ofBytes (l.take 4))

/-- Element `i` of a list, or the default given. -/
def nth {α : Type} (l : List α) (i : Nat) (d : α) : α :=
  match l, i with
  | [], _ => d
  | x :: _, 0 => x
  | _ :: r, i + 1 => nth r i d

/-- The list with element `i` replaced; a list too short is filled with the default given. -/
def setNth {α : Type} (l : List α) (i : Nat) (d x : α) : List α :=
  match l, i with
  | [], 0 => [x]
  | [], i + 1 => d :: setNth [] i d x
  | _ :: r, 0 => x :: r
  | y :: r, i + 1 => y :: setNth r i d x

/-- The numbers from `a` up to, not including, `a + n`. -/
def upTo (a n : Nat) : List Nat :=
  match n with
  | 0 => []
  | n + 1 => a :: upTo (a + 1) n

/-- `x` put into a list that rises under `key`, after equal keys. -/
def insertBy {α : Type} (key : α → Nat) (x : α) : List α → List α
  | [] => [x]
  | y :: r => if key x < key y then x :: y :: r else y :: insertBy key x r

/-- The list in rising order of `key`, equal keys in their order. -/
def sortBy {α : Type} (key : α → Nat) : List α → List α
  | [] => []
  | x :: r =>
    -- inserted before equal keys of the rest, which came later
    let rec put (l : List α) : List α :=
      match l with
      | [] => [x]
      | y :: t => if key y < key x then y :: put t else x :: y :: t
    put (sortBy key r)

/-- The element with the least key, the first among equals. -/
def leastBy {α : Type} (key : α → Nat) : List α → Option α
  | [] => none
  | x :: r =>
    match leastBy key r with
    | none => some x
    | some y => if key y < key x then some y else some x

/-- The list without repeats, first places kept. -/
def nodup {α : Type} [DecidableEq α] : List α → List α
  | [] => []
  | x :: r => x :: (nodup r).filter (fun y => y ≠ x)

/-- The quotient rounded up. -/
def ceilDiv (a b : Nat) : Nat := (a + b - 1) / b

/-- Position of the highest one bit plus one; 0 for 0. -/
def bitLen (n : Nat) : Nat := if n = 0 then 0 else Nat.log2 n + 1

end Sys2Proof.Machine
end

