-- ==== Sys2Proof/Syntax.lean ====
section
/-!
DEFINITION. The instruction set as data: one constructor of `Instr` per row of spec/opcode_table.json
(instructions of spec 03_instruction_encoding.md R72, R85, R86, and the machine's own steps, the events).
-/
namespace Sys2Proof

/-- F-Reg with two sources (R72): chain bit, uniform bit, suppress bit, extension bit, D, A, B and the extension word. -/
structure RegOp where
  c : Bool
  y : Bool
  k : Bool
  x : Bool
  d : Field7
  a : Field7
  b : Field7
  ext : Word
  deriving DecidableEq, Repr

/-- F-Reg with one source: the B field is reserved and zero (R72). -/
structure UnOp where
  c : Bool
  y : Bool
  k : Bool
  x : Bool
  d : Field7
  a : Field7
  ext : Word
  deriving DecidableEq, Repr

/-- F-Imm (R72): no extension word. -/
structure ImmOp where
  c : Bool
  y : Bool
  k : Bool
  d : Field7
  a : Field7
  imm : BitVec 8
  deriving DecidableEq, Repr

/-- `movi`: F-Imm whose A field is reserved and zero (R99). -/
structure MoviOp where
  c : Bool
  y : Bool
  k : Bool
  d : Field7
  imm : BitVec 8
  deriving DecidableEq, Repr

/-- F-Cmp as `icmp` uses it (R79, R100). -/
structure CmpOp where
  c : Bool
  y : Bool
  cond : BitVec 3
  cd : BitVec 3
  w : Bool
  a : Field7
  b : Field7
  ac : Bool
  x : Bool
  ext : Word
  deriving DecidableEq, Repr

/-- F-Cmp as `fcmp` uses it: W is reserved and zero (R101). -/
structure FcmpOp where
  c : Bool
  y : Bool
  cond : BitVec 3
  cd : BitVec 3
  a : Field7
  b : Field7
  ac : Bool
  x : Bool
  ext : Word
  deriving DecidableEq, Repr

/-- `cop` (R102): two condition registers with their negations. -/
structure CopOp where
  c : Bool
  y : Bool
  cond : BitVec 3
  cd : BitVec 3
  na : Bool
  ca : BitVec 3
  nb : Bool
  cb : BitVec 3
  ac : Bool
  deriving DecidableEq, Repr

/-- `cset` (R103). -/
structure CsetOp where
  c : Bool
  y : Bool
  cd : BitVec 3
  a : Field7
  b : Field7
  x : Bool
  ext : Word
  deriving DecidableEq, Repr

/-- F-Br (R72): condition register, its negation, the signed packet offset. -/
structure BrOp where
  c : Bool
  y : Bool
  cs : BitVec 3
  neg : Bool
  off : BitVec 19
  deriving DecidableEq, Repr

/-- `brl`: F-Br whose 19-bit offset is reserved and whose second word is the packet offset (R67, R107). -/
structure BrlOp where
  c : Bool
  y : Bool
  cs : BitVec 3
  neg : Bool
  off : Word
  deriving DecidableEq, Repr

/-- `ret` and `exit`: F-Br without an offset. -/
structure CondOp where
  c : Bool
  y : Bool
  cs : BitVec 3
  neg : Bool
  deriving DecidableEq, Repr

/-- `calli` and `jmpi`: F-Reg with the one source A. -/
structure JumpOp where
  c : Bool
  y : Bool
  a : Field7
  x : Bool
  ext : Word
  deriving DecidableEq, Repr

/-- An instruction with no field but the chain bit. -/
structure NullOp where
  c : Bool
  deriving DecidableEq, Repr

/-- `trap` (R117). -/
structure TrapOp where
  c : Bool
  imm : BitVec 8
  deriving DecidableEq, Repr

/-- `repq` (R180). -/
structure RepqOp where
  c : Bool
  kind : BitVec 3
  cd : BitVec 3
  w : Bool
  a : Field7
  ac : Bool
  deriving DecidableEq, Repr

/-- F-Mem with a size and a suppress bit: loads, `fill` and atomics (R72, R207). -/
structure MemOp where
  c : Bool
  d : Field7
  a : Field7
  off : BitVec 5
  sz : BitVec 2
  k : Bool
  x : Bool
  ext : Word
  deriving DecidableEq, Repr

/-- F-Mem with a size: stores and `spill` (K is reserved). -/
structure StoreOp where
  c : Bool
  d : Field7
  a : Field7
  off : BitVec 5
  sz : BitVec 2
  x : Bool
  ext : Word
  deriving DecidableEq, Repr

/-- `ldf`: F-Mem with SZ = 00 (R219). -/
structure LdfOp where
  c : Bool
  d : Field7
  a : Field7
  off : BitVec 5
  k : Bool
  x : Bool
  ext : Word
  deriving DecidableEq, Repr

/-- `stf` and `cpy`: F-Mem with a fixed size and no suppress bit (R220, R229). -/
structure WideOp where
  c : Bool
  d : Field7
  a : Field7
  off : BitVec 5
  x : Bool
  ext : Word
  deriving DecidableEq, Repr

/-- `fence`: the modifier word is mandatory (R226). -/
structure FenceOp where
  c : Bool
  ext : Word
  deriving DecidableEq, Repr

/-- `cwait qN` (R233). -/
structure CwaitOp where
  c : Bool
  q : BitVec 4
  deriving DecidableEq, Repr

/-- `xq` (R186): broadcast flag and mask or position. -/
structure XqOp where
  c : Bool
  d : Field7
  a : Field7
  bc : Bool
  m : BitVec 2
  k : Bool
  x : Bool
  ext : Word
  deriving DecidableEq, Repr

/-- `xg` (R187): F-Reg with Y zero. -/
structure XgOp where
  c : Bool
  d : Field7
  a : Field7
  b : Field7
  k : Bool
  x : Bool
  ext : Word
  deriving DecidableEq, Repr

/-- `perm` (R189): the modifier word is mandatory. -/
structure PermOp where
  c : Bool
  d : Field7
  a : Field7
  b : Field7
  k : Bool
  ext : Word
  deriving DecidableEq, Repr

/-- `vote` (R193). -/
structure VoteOp where
  c : Bool
  d : Field7
  na : Bool
  cn : BitVec 3
  mode : Field7
  k : Bool
  deriving DecidableEq, Repr

/-- `gred` (R194). -/
structure GredOp where
  c : Bool
  d : Field7
  a : Field7
  scan : Bool
  op : BitVec 4
  k : Bool
  x : Bool
  ext : Word
  deriving DecidableEq, Repr

/-- `barr`, `barr.drop` and the F-Sys selectors with a result and a source (R196, R275). -/
structure DaOp where
  c : Bool
  d : Field7
  a : Field7
  x : Bool
  ext : Word
  deriving DecidableEq, Repr

/-- `barw` (R197). -/
structure BarwOp where
  c : Bool
  a : Field7
  b : Field7
  x : Bool
  ext : Word
  deriving DecidableEq, Repr

/-- `xacq.s` and `xrel.s` (R201, R202). -/
structure BlkOp where
  c : Bool
  k : Field7
  deriving DecidableEq, Repr

/-- `msign` and `mma` (R241). -/
structure EngOp where
  c : Bool
  cv : BitVec 4
  arr : BitVec 2
  areg : Field7
  dsc : Field7
  h : Bool
  sp : Bool
  deriving DecidableEq, Repr

/-- `mwait` (R246). -/
structure CvOp where
  c : Bool
  cv : BitVec 4
  deriving DecidableEq, Repr

/-- `xform` (R258). -/
structure XformOp where
  c : Bool
  cv : BitVec 4
  dsc : Field7
  deriving DecidableEq, Repr

/-- `macc.zero` (R256). -/
structure AccOp where
  c : Bool
  arr : BitVec 2
  deriving DecidableEq, Repr

/-- `macc.rd` (R256). -/
structure AccRdOp where
  c : Bool
  d : Field7
  a : Field7
  arr : BitVec 2
  k : Bool
  x : Bool
  ext : Word
  deriving DecidableEq, Repr

/-- `macc.st` and `macc.ld` (R256). -/
structure AccMemOp where
  c : Bool
  a : Field7
  arr : BitVec 2
  x : Bool
  ext : Word
  deriving DecidableEq, Repr

/-- `macc.stat` (R257). -/
structure AccStatOp where
  c : Bool
  d : Field7
  arr : BitVec 2
  k : Bool
  deriving DecidableEq, Repr

/-- `sys getst` (R276). -/
structure DOp where
  c : Bool
  d : Field7
  deriving DecidableEq, Repr

/-- An F-Sys selector with one source and no result (R275). -/
structure AOp where
  c : Bool
  a : Field7
  x : Bool
  ext : Word
  deriving DecidableEq, Repr

/-- `sys inject`: the modifier word is mandatory (R281). -/
structure InjectOp where
  c : Bool
  a : Field7
  ext : Word
  deriving DecidableEq, Repr

/-- `reord`: the modifier word is mandatory (R360). -/
structure ReordOp where
  c : Bool
  d : Field7
  a : Field7
  ext : Word
  deriving DecidableEq, Repr

/-- F-Reg, two sources, with a mandatory modifier word: `sel`, `pkn`, `unpk` (R97, R135, R136). -/
structure ModOp where
  c : Bool
  y : Bool
  k : Bool
  d : Field7
  a : Field7
  b : Field7
  ext : Word
  deriving DecidableEq, Repr

/-- `cvt`: one source, with a mandatory modifier word (R131). -/
structure ModUnOp where
  c : Bool
  y : Bool
  k : Bool
  d : Field7
  a : Field7
  ext : Word
  deriving DecidableEq, Repr

/-- A fabric packet (R431): header fields, whether a reserved field is non-zero, and the payload. -/
structure Packet where
  addr : DWord
  tag : BitVec 16
  asid : BitVec 12
  pkey : BitVec 16
  op : BitVec 6
  cls : BitVec 2
  src : BitVec 14
  dest : BitVec 14
  hop : BitVec 8
  aux : DWord
  resv : Bool
  payload : List Byte
  deriving DecidableEq, Repr

/-- A received flit (R425, R426): its header fields, its message area, whether the CRC held after FEC
correction, and how many symbols FEC corrected on each lane that showed any (R429). -/
structure Flit where
  seq : BitVec 12
  ackseq : BitVec 12
  av : Bool
  nak : Bool
  kind : BitVec 2
  cls : BitVec 2
  sop : Bool
  eop : Bool
  cro : BitVec 8
  crb : BitVec 8
  crm : BitVec 8
  lw : BitVec 4
  resv : BitVec 4
  area : List Byte
  crcOk : Bool
  deriving DecidableEq, Repr

/-- What secure boot finds (R369, R422, R455): the verdict of the first failing stage (0: none), the stage
measurements, and the signed boot configuration. -/
structure BootInput where
  failStage : Nat
  failCode : Nat
  measures : List (BitVec 512)
  fixsz : Nat
  lcap : Nat
  astOff : Nat
  rootOff : Nat
  retOff : Nat
  fencedDies : BitVec 4
  fencedCores : List DWord
  deriving DecidableEq, Repr

/-- The word that a soft error strikes (R272, R345, R368, R370). -/
inductive ErrTarget where
  | vreg (gang g gpos reg : Nat)
  | repEntry (gang g reg : Nat)
  | scalar (gang g n : Nat)
  | latch (gang g gpos idx : Nat)
  | spanReg (gang span reg : Nat)
  | gmem (gang off : Nat)
  | acc (core arr idx : Nat)
  | hold (core arr word : Nat)
  | residue (core arr col : Nat)
  | dataLine (die idx : Nat)
  | spad (die launch off : Nat)
  | spadTag (die launch line : Nat)
  | transEntry (die idx : Nat)
  | walkEntry (die idx : Nat)
  | writerLeaf (wid idx : Nat)
  | nodeEntry (die idx : Nat)
  | indexEntry (die idx : Nat)
  | reverseEntry (die idx : Nat)
  | ownership (die asid lpn : Nat) (both : Bool)
  | tailEntry (wid idx : Nat)
  | pendingRec (wid idx : Nat) (both : Bool)
  | atomicWord (die idx : Nat)
  | sector (stack seg off : Nat)
  | remap (stack layer bank : Nat) (both : Bool)
  deriving DecidableEq, Repr

/-- One instruction or machine event: one constructor per row of spec/opcode_table.json. -/
inductive Instr where
  /-- ADD (R95). -/
  | add (o : RegOp)
  /-- SUB (R95). -/
  | sub (o : RegOp)
  /-- MUL (R95). -/
  | mul (o : RegOp)
  /-- MULHI_I (R95). -/
  | mulhiI (o : RegOp)
  /-- MULHI_N (R95). -/
  | mulhiN (o : RegOp)
  /-- MAD (R95). -/
  | mad (o : RegOp)
  /-- MIN_I (R95). -/
  | minI (o : RegOp)
  /-- MAX_I (R95). -/
  | maxI (o : RegOp)
  /-- MIN_N (R95). -/
  | minN (o : RegOp)
  /-- MAX_N (R95). -/
  | maxN (o : RegOp)
  /-- AND (R95). -/
  | and (o : RegOp)
  /-- OR (R95). -/
  | or (o : RegOp)
  /-- XOR (R95). -/
  | xor (o : RegOp)
  /-- ANDN (R95). -/
  | andn (o : RegOp)
  /-- SHL (R95). -/
  | shl (o : RegOp)
  /-- SHR (R95). -/
  | shr (o : RegOp)
  /-- SAR (R95). -/
  | sar (o : RegOp)
  /-- ROL (R95). -/
  | rol (o : RegOp)
  /-- CLZ (R95). -/
  | clz (o : UnOp)
  /-- POPC (R95). -/
  | popc (o : UnOp)
  /-- BREV (R95). -/
  | brev (o : UnOp)
  /-- BFX (R96). -/
  | bfx (o : RegOp)
  /-- BFI (R96). -/
  | bfi (o : RegOp)
  /-- FSH (R95). -/
  | fsh (o : RegOp)
  /-- SEL (R97). -/
  | sel (o : ModOp)
  /-- ABS (R95). -/
  | abs (o : UnOp)
  /-- NEG (R95). -/
  | neg (o : UnOp)
  /-- DIV_N (R95). -/
  | divN (o : RegOp)
  /-- REM_N (R95). -/
  | remN (o : RegOp)
  /-- DIV_I (R95). -/
  | divI (o : RegOp)
  /-- REM_I (R95). -/
  | remI (o : RegOp)
  /-- MOV (R95). -/
  | mov (o : UnOp)
  /-- ADDI (R99). -/
  | addi (o : ImmOp)
  /-- ANDI (R99). -/
  | andi (o : ImmOp)
  /-- ORI (R99). -/
  | ori (o : ImmOp)
  /-- XORI (R99). -/
  | xori (o : ImmOp)
  /-- SHLI (R99). -/
  | shli (o : ImmOp)
  /-- SHRI (R99). -/
  | shri (o : ImmOp)
  /-- SARI (R99). -/
  | sari (o : ImmOp)
  /-- MOVI (R99). -/
  | movi (o : MoviOp)
  /-- ICMP (R100). -/
  | icmp (o : CmpOp)
  /-- FCMP (R101). -/
  | fcmp (o : FcmpOp)
  /-- COP (R102). -/
  | cop (o : CopOp)
  /-- CSET (R103). -/
  | cset (o : CsetOp)
  /-- ADD64 (R104). -/
  | add64 (o : RegOp)
  /-- SUB64 (R104). -/
  | sub64 (o : RegOp)
  /-- LEA (R104). -/
  | lea (o : RegOp)
  /-- CVT64 (R104). -/
  | cvt64 (o : RegOp)
  /-- FADD (R123). -/
  | fadd (o : RegOp)
  /-- FSUB (R123). -/
  | fsub (o : RegOp)
  /-- FMUL (R123). -/
  | fmul (o : RegOp)
  /-- FFMA (R123). -/
  | ffma (o : RegOp)
  /-- FMIN (R124). -/
  | fmin (o : RegOp)
  /-- FMAX (R124). -/
  | fmax (o : RegOp)
  /-- FABS (R125). -/
  | fabs (o : UnOp)
  /-- FNEG (R125). -/
  | fneg (o : UnOp)
  /-- FCLASS (R125). -/
  | fclass (o : UnOp)
  /-- FSCALE (R123). -/
  | fscale (o : RegOp)
  /-- FRCP (R126). -/
  | frcp (o : UnOp)
  /-- FRSQ (R126). -/
  | frsq (o : UnOp)
  /-- FSQRT (R126). -/
  | fsqrt (o : UnOp)
  /-- FEX2 (R126). -/
  | fex2 (o : UnOp)
  /-- FLG2 (R126). -/
  | flg2 (o : UnOp)
  /-- FSIN (R126). -/
  | fsin (o : UnOp)
  /-- FCOS (R126). -/
  | fcos (o : UnOp)
  /-- FTANH (R126). -/
  | ftanh (o : UnOp)
  /-- HADD2 (R128). -/
  | hadd2 (o : RegOp)
  /-- HMUL2 (R128). -/
  | hmul2 (o : RegOp)
  /-- HFMA2 (R128). -/
  | hfma2 (o : RegOp)
  /-- HMIN2 (R128). -/
  | hmin2 (o : RegOp)
  /-- HMAX2 (R128). -/
  | hmax2 (o : RegOp)
  /-- HDOT2 (R129). -/
  | hdot2 (o : RegOp)
  /-- CMUL (R130). -/
  | cmul (o : RegOp)
  /-- CFMA (R130). -/
  | cfma (o : RegOp)
  /-- CVT (R131). -/
  | cvt (o : ModUnOp)
  /-- PKN (R135). -/
  | pkn (o : ModOp)
  /-- UNPK (R136). -/
  | unpk (o : ModOp)
  /-- FRND (R134). -/
  | frnd (o : UnOp)
  /-- F2I (R132). -/
  | f2i (o : UnOp)
  /-- I2F (R133). -/
  | i2f (o : UnOp)
  /-- BRA (R107). -/
  | bra (o : BrOp)
  /-- BRL (R107). -/
  | brl (o : BrlOp)
  /-- CALL (R110). -/
  | call (o : BrOp)
  /-- CALLI (R110). -/
  | calli (o : JumpOp)
  /-- RET (R112). -/
  | ret (o : CondOp)
  /-- JMPI (R114). -/
  | jmpi (o : JumpOp)
  /-- JOIN (R115). -/
  | join (o : NullOp)
  /-- EXIT (R116). -/
  | exit (o : CondOp)
  /-- YIELD (R115). -/
  | yield (o : NullOp)
  /-- NOP (R115). -/
  | nop (o : NullOp)
  /-- TRAP (R117). -/
  | trap (o : TrapOp)
  /-- POUR (R179). -/
  | pour (o : NullOp)
  /-- REPQ (R180). -/
  | repq (o : RepqOp)
  /-- REORD (R361). -/
  | reord (o : ReordOp)
  /-- LDV (R210). -/
  | ldv (o : MemOp)
  /-- STV (R210). -/
  | stv (o : StoreOp)
  /-- LDK (R214). -/
  | ldk (o : MemOp)
  /-- STK (R214). -/
  | stk (o : StoreOp)
  /-- LDD (R215). -/
  | ldd (o : MemOp)
  /-- STD (R215). -/
  | std (o : StoreOp)
  /-- LDF (R219). -/
  | ldf (o : LdfOp)
  /-- STF (R220). -/
  | stf (o : WideOp)
  /-- ATV (R223). -/
  | atv (o : MemOp)
  /-- ATK (R223). -/
  | atk (o : MemOp)
  /-- ATD (R223). -/
  | atd (o : MemOp)
  /-- FENCE (R226). -/
  | fence (o : FenceOp)
  /-- CPY (R230). -/
  | cpy (o : WideOp)
  /-- CWAIT (R233). -/
  | cwait (o : CwaitOp)
  /-- SPILL (R235). -/
  | spill (o : StoreOp)
  /-- FILL (R235). -/
  | fill (o : MemOp)
  /-- XQ (R186). -/
  | xq (o : XqOp)
  /-- XG (R187). -/
  | xg (o : XgOp)
  /-- PERM (R189). -/
  | perm (o : PermOp)
  /-- VOTE (R193). -/
  | vote (o : VoteOp)
  /-- GRED (R194). -/
  | gred (o : GredOp)
  /-- BARR (R196). -/
  | barr (o : DaOp)
  /-- BARR_DROP (R196). -/
  | barrDrop (o : DaOp)
  /-- BARW (R197). -/
  | barw (o : BarwOp)
  /-- XACQ_V (R201). -/
  | xacqV (o : NullOp)
  /-- XACQ_S (R201). -/
  | xacqS (o : BlkOp)
  /-- XREL_V (R202). -/
  | xrelV (o : NullOp)
  /-- XREL_S (R202). -/
  | xrelS (o : BlkOp)
  /-- MSIGN (R245). -/
  | msign (o : EngOp)
  /-- MMA (R244). -/
  | mma (o : EngOp)
  /-- MWAIT (R246). -/
  | mwait (o : CvOp)
  /-- MACC_ZERO (R256). -/
  | maccZero (o : AccOp)
  /-- MACC_RD (R256). -/
  | maccRd (o : AccRdOp)
  /-- MACC_ST (R256). -/
  | maccSt (o : AccMemOp)
  /-- MACC_LD (R256). -/
  | maccLd (o : AccMemOp)
  /-- MACC_STAT (R257). -/
  | maccStat (o : AccStatOp)
  /-- XFORM (R258). -/
  | xform (o : XformOp)
  /-- GETST (R276). -/
  | getst (o : DOp)
  /-- SETST (R276). -/
  | setst (o : DaOp)
  /-- FMTLD (R277). -/
  | fmtld (o : DaOp)
  /-- FMTST (R277). -/
  | fmtst (o : DaOp)
  /-- PATLD (R277). -/
  | patld (o : DaOp)
  /-- EVSIG (R408). -/
  | evsig (o : DaOp)
  /-- EVWAIT (R409). -/
  | evwait (o : DaOp)
  /-- LAUNCH (R410). -/
  | launch (o : DaOp)
  /-- TRIG (R411). -/
  | trig (o : AOp)
  /-- SNAP (R380). -/
  | snap (o : DaOp)
  /-- SNAPREL (R382). -/
  | snaprel (o : DaOp)
  /-- ROLLBACK (R383). -/
  | rollback (o : DaOp)
  /-- RETT (R270). -/
  | rett (o : NullOp)
  /-- CTXSV (R278). -/
  | ctxsv (o : AOp)
  /-- CTXLD (R278). -/
  | ctxld (o : AOp)
  /-- HALT (R282). -/
  | halt (o : AOp)
  /-- PERFRD (R279). -/
  | perfrd (o : DaOp)
  /-- ERRLOG (R280). -/
  | errlog (o : DaOp)
  /-- INJECT (R281). -/
  | inject (o : InjectOp)
  /-- POUR_SETUP_DONE (R174), an event. -/
  | pourSetupDone (core lane : Nat)
  /-- WORKING_SET_FETCH_DONE (R142), an event. -/
  | workingSetFetchDone (core lane : Nat)
  /-- BANK_FETCH_DONE (R143), an event. -/
  | bankFetchDone (core lane : Nat)
  /-- LOAD_DATA_RETURN (R210), an event. -/
  | loadDataReturn (core lane : Nat)
  /-- EXCHANGE_RELEASE (R184), an event. -/
  | exchangeRelease (gang g quad : Nat) (xg : Bool)
  /-- COHORT_WATCHDOG (R341), an event. -/
  | cohortWatchdog (gang g gpos : Nat)
  /-- MATRIX_OP_COMPLETE (R249), an event. -/
  | matrixOpComplete (core arr : Nat)
  /-- XFORM_COMPLETE (R260), an event. -/
  | xformComplete (core : Nat)
  /-- COPY_LINE_WRITTEN (R232), an event. -/
  | copyLineWritten (copy unit : Nat)
  /-- COPY_COMPLETE (R231), an event. -/
  | copyComplete (copy : Nat)
  /-- COPY_TRANSFER_FAULT (R234), an event. -/
  | copyTransferFault (copy unit : Nat)
  /-- TRAP_DELIVERY (R266), an event. -/
  | trapDelivery (gang g gpos : Nat)
  /-- PREEMPT_REQUEST (R151), an event. -/
  | preemptRequest (gang : Nat)
  /-- GANG_SAVE (R359), an event. -/
  | gangSave (gang : Nat)
  /-- GANG_RESTORE (R359), an event. -/
  | gangRestore (gang : Nat)
  /-- CORE_REPORT (R350), an event. -/
  | coreReport (core : Nat)
  /-- GANG_PLACE (R352), an event. -/
  | gangPlace (die : Nat)
  /-- PLACEMENT_AGE_HOLD (R353), an event. -/
  | placementAgeHold (gang : Nat)
  /-- QOS_VICTIM_SEEK (R355), an event. -/
  | qosVictimSeek (gang : Nat)
  /-- REORD_BIN_TIMEOUT (R362), an event. -/
  | reordBinTimeout (die : Nat)
  /-- TAIL_AGE_APPEND (R291), an event. -/
  | tailAgeAppend (wid : Nat)
  /-- OWNERSHIP_REQUEST (R305), an event. -/
  | ownershipRequest (wid asid lpn sub : Nat)
  /-- OWNERSHIP_HANDOVER (R305), an event. -/
  | ownershipHandover (asid lpn sub : Nat)
  /-- PENDING_AGE_PUBLISH (R311), an event. -/
  | pendingAgePublish (wid asid : Nat)
  /-- COMMIT_REQUEST (R312), an event. -/
  | commitRequest (die asid : Nat)
  /-- INVALIDATION_MESSAGE (R316), an event. -/
  | invalidationMessage (die asid : Nat)
  /-- INVALIDATION_ACK (R316), an event. -/
  | invalidationAck (wid asid : Nat)
  /-- WALK_START (R329), an event. -/
  | walkStart (die : Nat)
  /-- WALK_COMPLETE (R329), an event. -/
  | walkComplete (die walker : Nat)
  /-- SHOOTDOWN_COMPLETE (R334), an event. -/
  | shootdownComplete (fn : Nat)
  /-- ATOMIC_PERFORM (R338), an event. -/
  | atomicPerform (die : Nat)
  /-- ATOMIC_UNIT_PUBLISH (R339), an event. -/
  | atomicUnitPublish (die asid : Nat)
  /-- STACK_READ (R365), an event. -/
  | stackRead (stack : Nat)
  /-- STACK_APPEND (R365), an event. -/
  | stackAppend (stack : Nat)
  /-- STACK_FREAD (R365), an event. -/
  | stackFread (stack : Nat)
  /-- STACK_FWRITE (R365), an event. -/
  | stackFwrite (stack : Nat)
  /-- STACK_SEGOPEN (R372), an event. -/
  | stackSegopen (stack : Nat)
  /-- STACK_SEGSEAL (R365), an event. -/
  | stackSegseal (stack : Nat)
  /-- STACK_COMPLETION (R365), an event. -/
  | stackCompletion (stack : Nat)
  /-- STACK_SCRUB (R368), an event. -/
  | stackScrub (stack : Nat)
  /-- LOG_FULL_TIMEOUT (R372), an event. -/
  | logFullTimeout (stack : Nat)
  /-- FETTLER_SCAN (R374), an event. -/
  | fettlerScan (stack : Nat)
  /-- SEGMENT_FREE (R376), an event. -/
  | segmentFree (stack seg : Nat)
  /-- MIGRATION_COMPLETE (R387), an event. -/
  | migrationComplete (hostOk : Bool)
  /-- MIGRATION_TIMEOUT (R390), an event. -/
  | migrationTimeout
  /-- LAUNCH_START (R399), an event. -/
  | launchStart (fn queue : Nat)
  /-- LAUNCH_COMPLETE (R402), an event. -/
  | launchComplete (launch : Nat)
  /-- EVWAIT_TIMEOUT (R409), an event. -/
  | evwaitTimeout (core lane : Nat)
  /-- FUNCTION_RESET_COMPLETE (R416), an event. -/
  | functionResetComplete (fn : Nat)
  /-- CAPCTL_ARM (R411), an event. -/
  | capctlArm
  /-- CAPCTL_FIRE (R411), an event. -/
  | capctlFire
  /-- CAPTURE_LATCH (R411), an event. -/
  | captureLatch
  /-- CLOCK_RECOVER_STEP (R420), an event. -/
  | clockRecoverStep (die : Nat)
  /-- SPDM_GET_CERTIFICATE (R423), an event. -/
  | spdmGetCertificate
  /-- SPDM_GET_MEASUREMENTS (R423), an event. -/
  | spdmGetMeasurements
  /-- IDLE_FLIT_TIMER (R427), an event. -/
  | idleFlitTimer (port : Nat)
  /-- TRAIN_TIMEOUT (R429), an event. -/
  | trainTimeout (port : Nat)
  /-- PACKET_ROUTE (R435), an event. -/
  | packetRoute (port : Nat)
  /-- BULK_CREDIT_TIMEOUT (R435), an event. -/
  | bulkCreditTimeout (idx : Nat)
  /-- RESEND_TIMEOUT (R433), an event. -/
  | resendTimeout (idx : Nat)
  /-- WRITE (R438), an event. -/
  | pktWrite (p : Packet)
  /-- RDREQ (R438), an event. -/
  | rdreq (p : Packet)
  /-- RDDATA (R438), an event. -/
  | rddata (p : Packet)
  /-- SPWR (R438), an event. -/
  | spwr (p : Packet)
  /-- DACK (R433), an event. -/
  | dack (p : Packet)
  /-- CDONE (R438), an event. -/
  | cdone (p : Packet)
  /-- SEGSHIP (R448), an event. -/
  | segship (p : Packet)
  /-- SEGPART (R448), an event. -/
  | segpart (p : Packet)
  /-- FIXWR (R448), an event. -/
  | fixwr (p : Packet)
  /-- CSHIP (R448), an event. -/
  | cship (p : Packet)
  /-- REPACK (R448), an event. -/
  | repack (p : Packet)
  /-- LAUNCH_PACKET (R444), an event. -/
  | launchPacket (p : Packet)
  /-- STARTBAR (R445), an event. -/
  | startbar (p : Packet)
  /-- LDONE (R446), an event. -/
  | ldone (p : Packet)
  /-- TRIG_PACKET (R451), an event. -/
  | trigPacket (p : Packet)
  /-- NOTICE (R437), an event. -/
  | notice (p : Packet)
  /-- MWR (R451), an event. -/
  | mwr (p : Packet)
  /-- MRD (R451), an event. -/
  | mrd (p : Packet)
  /-- MRSP (R432), an event. -/
  | mrsp (p : Packet)
  /-- RETIRE (R449), an event. -/
  | retire (p : Packet)
  /-- GENMARK (R449), an event. -/
  | genmark (p : Packet)
  /-- GENMARK_TIMER (R449), an event. -/
  | genmarkTimer (group : Nat)
  /-- COPY_SET_TIMEOUT (R439), an event. -/
  | copySetTimeout (die idx : Nat)
  /-- REPLICA_ACK_TIMEOUT (R450), an event. -/
  | replicaAckTimeout (group member : Nat)
  /-- RTSWAP (R436), an event. -/
  | rtswap
  /-- SPARE_FILL_COMPLETE (R450), an event. -/
  | spareFillComplete (group : Nat)
  /-- FILL_PACKET (R440), an event. -/
  | fillPacket (p : Packet)
  /-- PERFORMED_TAG_EXPIRY (R433), an event. -/
  | performedTagExpiry (idx : Nat)
  /-- SPDM_SESSION_ESTABLISH (R423), an event. -/
  | spdmSessionEstablish
  /-- MIGRATE_TO_HOST_COMMAND (R388), an event. -/
  | migrateToHostCommand (fn : Nat) (ctl : DWord)
  /-- MIGRATE_TO_DEVICE_COMMAND (R387), an event. -/
  | migrateToDeviceCommand (fn : Nat) (ctl : DWord)
  /-- PAGE_REQUEST_ANSWER (R387), an event. -/
  | pageRequestAnswer (granted : Bool) (page : List Byte)
  /-- QSLOT_WRITE (R396), an event. -/
  | qslotWrite (fn off : Nat) (data : List Byte)
  /-- EVADD (R407), an event. -/
  | evadd (fn : Nat) (val : Word)
  /-- EVENT_SLOT_WRITE (R407), an event. -/
  | eventSlotWrite (fn slot : Nat) (val : Word)
  /-- CTRL_RST (R416), an event. -/
  | ctrlRst (fn : Nat) (val : DWord)
  /-- FLR (R416), an event. -/
  | flr (fn : Nat)
  /-- HGPTR_WRITE (R412), an event. -/
  | hgptrWrite (fn : Nat) (val : DWord)
  /-- MTIME_WRITE (R421), an event. -/
  | mtimeWrite (val : DWord)
  /-- SUPPLY_SAG (R420), an event. -/
  | supplySag (die : Nat)
  /-- MODULE_RESET (R422), an event. -/
  | moduleReset (boot : BootInput)
  /-- REGISTER_WRITE (R405), an event. -/
  | registerWrite (fn off : Nat) (val : DWord)
  /-- FLIT_RECEIVE (R427), an event. -/
  | flitReceive (port : Nat) (flit : Flit)
  /-- LANE_FAULT (R429), an event. -/
  | laneFault (port lane : Nat) (far : Bool)
  /-- TRAIN_COMPLETE (R429), an event. -/
  | trainComplete (port : Nat) (peer : BitVec 16)
  /-- PCTL_UP (R429), an event. -/
  | pctlUp (port : Nat)
  /-- PCTL_DIS (R429), an event. -/
  | pctlDis (port : Nat)
  /-- RGT_WRITE (R447), an event. -/
  | rgtWrite (group : Nat) (val : BitVec 512)
  /-- GCMD_FAIL (R450), an event. -/
  | gcmdFail (group member : Nat)
  /-- GCMD_SPARE (R450), an event. -/
  | gcmdSpare (group member ep : Nat)
  /-- GCMD_CLEAR (R450), an event. -/
  | gcmdClear (group : Nat)
  /-- LANE_RECOVERY (R429), an event. -/
  | laneRecovery (port lane : Nat) (far : Bool)
  /-- SOFT_ERROR (R272), an event. -/
  | softError (target : ErrTarget) (uncorrectable : Bool)
  /-- IDE_KEY_MANAGEMENT (R423), an event. -/
  | ideKeyManagement (key : BitVec 256)
  /-- SHOOTDOWN_COMMAND (R333), an event. -/
  | shootdownCommand (fn : Nat) (ctl : DWord)
  deriving DecidableEq, Repr

end Sys2Proof
end

