-- ==== Sys2Proof/Machine/Legal.lean ====
section
/-!
DEFINITION. Which field values of an instruction are legal: operands and destinations (R73, R74), the one role of the
extension word (R75), modifier words (R76 and each opcode's entry). A value outside these raises ILLEGAL_WORD (R82).
-/
namespace Sys2Proof.Machine

/-- The field names a v register (R73). -/
def isV (f : Field7) : Bool := f.toNat < 112
/-- The field names a latch entry (R73). -/
def isLatch (f : Field7) : Bool := decide (112 ≤ f.toNat) && decide (f.toNat < 120)
/-- The field takes the operand word (R73, R75). -/
def takesExt (f : Field7) : Bool := f = 124 || f = 125
/-- A source operand of 32 bits (R73). -/
def srcOk (f : Field7) : Bool := f ≠ 127
/-- A source that cannot be an s register or an immediate (R77, R99, R180, R196). -/
def srcPlain (f : Field7) : Bool := f ≠ 124 && f ≠ 125 && f ≠ 127
/-- A destination of 32 bits (R74). -/
def dstOk (f : Field7) : Bool := isV f || f = 120 || f = 124
/-- A destination that cannot be an s register (R99). -/
def dstPlain (f : Field7) : Bool := isV f || f = 120
/-- An even v register (R22). -/
def evenV (f : Field7) : Bool := isV f && f.toNat % 2 = 0
/-- A v register that is a multiple of four (R74). -/
def quadV (f : Field7) : Bool := isV f && f.toNat % 4 = 0
/-- A 64-bit address operand of a memory opcode (R77). -/
def addrOk (f : Field7) : Bool := evenV f || f = 120
/-- An even v register or an even s register (R104, R274, R407). -/
def evenVS (f : Field7) (ext : Word) : Bool := evenV f || (f = 124 && ext.toNat % 2 = 0)
/-- A 64-bit source operand (R104). -/
def wideOk (f : Field7) (ext : Word) : Bool := evenVS f ext || f = 120 || f = 125

/-- What an opcode makes of an extension word that is no operand word (R75). -/
inductive ModRule where
  | none
  | optional
  | mandatory
  deriving DecidableEq, Repr

/-- The operand word rule (R75): at most one source takes it, a destination of 124 shares it only with a source of
124, and an s-register number leaves bits 31:10 zero. -/
def extRole (d : Option Field7) (srcs : List Field7) (x : Bool) (ext : Word) (rule : ModRule)
    (modOk : Word → Bool) : Bool :=
  let taking := srcs.filter takesExt
  let dTakes := d = some 124
  if taking.isEmpty && !dTakes then
    match rule with
    | .none => !x && ext = 0
    | .optional => if x then modOk ext else ext = 0
    | .mandatory => x && modOk ext
  else
    rule ≠ .mandatory && x && decide (taking.length ≤ 1) && (!dTakes || taking.all (· = 124)) &&
      (if dTakes || taking.any (· = 124) then ext.toNat < 1024 else true)

/-- No modifier word is accepted. -/
def noMod (_ : Word) : Bool := false

/-- K = 1 requires the discard destination (R92, R99, R118). -/
def keepOk (k : Bool) (d : Field7) : Bool := !k || d = 120

/-- A binary operation of 0x00 to 0x2F (R92, R95). -/
def legalBin (o : RegOp) : Bool :=
  dstOk o.d && srcOk o.a && srcOk o.b && keepOk o.k o.d && extRole (some o.d) [o.a, o.b] o.x o.ext .none noMod

/-- A unary operation of 0x00 to 0x2F (R92, R95). -/
def legalUn (o : UnOp) : Bool :=
  dstOk o.d && srcOk o.a && keepOk o.k o.d && extRole (some o.d) [o.a] o.x o.ext .none noMod

/-- A binary operation with an optional modifier (R128, R129, R130). -/
def legalBinMod (o : RegOp) (modOk : Word → Bool) : Bool :=
  dstOk o.d && srcOk o.a && srcOk o.b && keepOk o.k o.d && extRole (some o.d) [o.a, o.b] o.x o.ext .optional modOk

/-- A unary operation with an optional modifier (R132, R133, R134). -/
def legalUnMod (o : UnOp) (modOk : Word → Bool) : Bool :=
  dstOk o.d && srcOk o.a && keepOk o.k o.d && extRole (some o.d) [o.a] o.x o.ext .optional modOk

/-- The modifier word an opcode with an optional modifier acts under: zero when the word is absent or is an
operand word (R75, R76). -/
def modOf (d : Option Field7) (srcs : List Field7) (x : Bool) (ext : Word) : Nat :=
  if x && !(srcs.any takesExt) && d ≠ some 124 then ext.toNat else 0

/-- An immediate operation (R99). -/
def legalImm (o : ImmOp) : Bool := dstPlain o.d && srcPlain o.a && keepOk o.k o.d

/-- An immediate shift: amounts 32 to 255 are refused (R99). -/
def legalShiftImm (o : ImmOp) : Bool := legalImm o && o.imm.toNat < 32

/-- `icmp` (R79, R100). -/
def legalCmp (o : CmpOp) : Bool :=
  o.cond.toNat ≤ 5 && (if o.w then evenV o.a && evenV o.b else srcOk o.a && srcOk o.b) &&
    extRole none [o.a, o.b] o.x o.ext .none noMod

/-- `fcmp` (R79, R101). -/
def legalFcmp (o : FcmpOp) : Bool :=
  o.cond.toNat ≤ 5 && srcOk o.a && srcOk o.b && extRole none [o.a, o.b] o.x o.ext .none noMod

/-- `cset` (R103). -/
def legalCset (o : CsetOp) : Bool :=
  srcOk o.a && srcOk o.b && extRole none [o.a, o.b] o.x o.ext .none noMod

/-- `add64` and `sub64` (R104). -/
def legalWide (o : RegOp) : Bool :=
  evenV o.d && wideOk o.a o.ext && wideOk o.b o.ext && keepOk o.k o.d &&
    extRole (some o.d) [o.a, o.b] o.x o.ext .none noMod

/-- `lea` (R104). -/
def legalLea (o : RegOp) : Bool :=
  evenV o.d && wideOk o.a o.ext && srcOk o.b && keepOk o.k o.d &&
    extRole (some o.d) [o.a, o.b] o.x o.ext .none noMod

/-- `cvt64`: the B field is the kind code (R104). -/
def legalCvt64 (o : RegOp) : Bool :=
  o.b.toNat ≤ 3 && keepOk o.k o.d &&
    (if o.b.toNat ≤ 1 then evenV o.d && srcOk o.a else dstOk o.d && wideOk o.a o.ext) &&
    extRole (some o.d) [o.a] o.x o.ext .none noMod

/-- `sel`: the modifier is mandatory (R97). -/
def legalSel (o : ModOp) : Bool :=
  dstOk o.d && srcOk o.a && srcOk o.b && keepOk o.k o.d &&
    extRole (some o.d) [o.a, o.b] true o.ext .mandatory (fun m => m.toNat < 16)

/-- `cvt` (R131). -/
def legalCvt (o : ModUnOp) : Bool :=
  dstOk o.d && srcOk o.a && keepOk o.k o.d &&
    extRole (some o.d) [o.a] true o.ext .mandatory (fun m =>
      let n := m.toNat
      let st := bits n 1 0
      let dt := bits n 3 2
      n < 128 && st ≠ 3 && dt ≠ 3 && !(bit n 4 && st = 0) && !(bit n 5 && dt = 0) &&
        (!bit n 6 || (st ≠ 0 && dt ≠ 0 && !bit n 4 && !bit n 5)))

/-- `pkn` (R135). -/
def legalPkn (o : ModOp) : Bool :=
  dstOk o.d && srcOk o.a && srcOk o.b && keepOk o.k o.d &&
    extRole (some o.d) [o.a, o.b] true o.ext .mandatory (fun m =>
      let n := m.toNat
      let sm := bits n 12 11
      n < 8192 && sm ≠ 3 && (sm = 1 || o.b = 120) && (sm ≠ 2 || bits n 10 5 = 0))

/-- `unpk` (R136). -/
def legalUnpk (o : ModOp) : Bool :=
  dstOk o.d && srcOk o.a && srcOk o.b && keepOk o.k o.d &&
    extRole (some o.d) [o.a, o.b] true o.ext .mandatory (fun m =>
      let n := m.toNat
      n < 8192 && !bit n 10 && bits n 12 11 ≠ 3)

/-- `f2i`: a 64-bit destination is an even v register (R132). -/
def legalF2i (o : UnOp) : Bool :=
  legalUnMod o (fun m => m.toNat < 16) &&
    (modOf (some o.d) [o.a] o.x o.ext % 4 < 2 || evenV o.d)

/-- `i2f`: a 64-bit source is an even pair (R133). -/
def legalI2f (o : UnOp) : Bool :=
  legalUnMod o (fun m => m.toNat < 16 && bits m.toNat 3 2 ≠ 3) &&
    (modOf (some o.d) [o.a] o.x o.ext % 4 < 2 || evenVS o.a o.ext)

/-- `calli` and `jmpi` (R110, R114). -/
def legalJump (o : JumpOp) : Bool :=
  evenVS o.a o.ext && extRole none [o.a] o.x o.ext .none noMod

/-- `repq` (R180). -/
def legalRepq (o : RepqOp) : Bool :=
  o.kind.toNat ≤ 4 && (if o.w then evenV o.a else srcPlain o.a) && (o.kind.toNat ≠ 3 || (o.a = 120 && !o.w))

/-- `reord` (R360). -/
def legalReord (o : ReordOp) : Bool :=
  let m := o.ext.toNat
  let n := bits m 3 0
  srcPlain o.a && m < 16384 && n ≤ 8 && !bit m 4 &&
    (if n = 0 then o.d = 0 else decide (o.d.toNat + n ≤ 112))

/-- Field values of the memory modifier word (R76). -/
structure MemMod where
  xoff : Int
  aop : Nat
  ipf : Bool
  fov : Nat
  cp : Nat
  scope : Nat
  ord : Nat
  deriving DecidableEq, Repr

/-- The fields of a memory modifier word (R76). -/
def memMod (m : Nat) : MemMod :=
  { xoff := signed 10 (bits m 31 22), aop := bits m 21 16, ipf := bit m 15, fov := bits m 14 10
    cp := bits m 9 7, scope := bits m 6 4, ord := bits m 3 0 }

/-- Values of the modifier that no opcode accepts, and the rules common to all (R76, R207). -/
def memCommon (m : MemMod) (isLdf cpOk : Bool) : Bool :=
  decide (m.ord ≤ 3) && decide (m.cp ≤ 3) && decide (m.scope ≤ 5) && (m.ipf || m.fov = 0) &&
    (isLdf || m.ord ≠ 0 || m.scope = 0) && (cpOk || m.cp = 0)

/-- The data registers of an access by its size (R74, R207). -/
def dataOk (d : Field7) (sz : BitVec 2) : Bool :=
  match sz.toNat with
  | 1 => evenV d
  | 2 => quadV d
  | _ => dstOk d

/-- The destination of a load: any data register, or 120 with K (R74, R207). -/
def loadDst (k : Bool) (d : Field7) (sz : BitVec 2) : Bool := if k then d = 120 else dataOk d sz

/-- A load or store to log memory (R207). `ordOk` is the order value beside 0 that it accepts. -/
def legalLog (d a : Field7) (sz : BitVec 2) (x : Bool) (ext : Word) (dOk : Bool) (ordOk : Nat) : Bool :=
  dOk && addrOk a && extRole (some d) [a] x ext .optional (fun _ => true) &&
    (let m := memMod (modOf (some d) [a] x ext)
     memCommon m false true && m.aop = 0 && (m.ord = 0 || m.ord = ordOk) && (!m.ipf || sz = 3))

/-- A load or store to gang memory or scratchpad (R207). -/
def legalOff (d a : Field7) (sz : BitVec 2) (x : Bool) (ext : Word) (dOk : Bool) (ordOk : Nat) : Bool :=
  dOk && srcPlain a && extRole (some d) [a] x ext .optional (fun _ => true) &&
    (let m := memMod (modOf (some d) [a] x ext)
     memCommon m false false && m.aop = 0 && (m.ord = 0 || m.ord = ordOk) &&
       (if sz = 3 then m.ipf else m.fov = 0))

/-- `ldf` (R219). -/
def legalLdf (o : LdfOp) : Bool :=
  loadDst o.k o.d 0 && srcPlain o.a && extRole (some o.d) [o.a] o.x o.ext .optional (fun _ => true) &&
    (let m := memMod (modOf (some o.d) [o.a] o.x o.ext)
     memCommon m true false && m.ord = 0 && !m.ipf && decide (m.aop ≤ 1) &&
       (m.scope = 0 || m.scope = 1 || m.scope = 3))

/-- `stf` (R207, R220). -/
def legalStf (o : WideOp) : Bool :=
  dstOk o.d && addrOk o.a && extRole (some o.d) [o.a] o.x o.ext .optional (fun _ => true) &&
    (let m := memMod (modOf (some o.d) [o.a] o.x o.ext)
     memCommon m false false && m.ord = 0 && !m.ipf && m.aop = 0)

/-- The atomic operations (R223). -/
def aopOk (aop : Nat) (wide : Bool) : Bool :=
  decide (aop ≤ 9) || (!wide && (aop = 0x10 || aop = 0x11 || aop = 0x12))

/-- `atv`, `atk` and `atd` (R207, R223). -/
def legalAtomic (o : MemOp) (log : Bool) : Bool :=
  let m := memMod (modOf (some o.d) [o.a] o.x o.ext)
  let wide := o.sz = 1
  (o.sz = 0 || wide) && (if log then addrOk o.a else srcPlain o.a) &&
    (if m.aop = 9 then (if wide then quadV o.d else evenV o.d)
     else (if wide then evenV o.d else dstOk o.d)) &&
    extRole (some o.d) [o.a] o.x o.ext .optional (fun _ => true) &&
    memCommon m false log && !m.ipf && aopOk m.aop wide

/-- `fence`: order 1 to 3, every other modifier field but SCOPE zero (R207, R226). -/
def legalFence (o : FenceOp) : Bool :=
  let m := memMod o.ext.toNat
  memCommon m false false && m.ord ≠ 0 && !m.ipf && m.aop = 0 && m.xoff = 0

/-- `cpy` (R207, R229). -/
def legalCpy (o : WideOp) : Bool :=
  quadV o.d && addrOk o.a && extRole none [o.a] o.x o.ext .optional (fun _ => true) &&
    (let m := memMod (modOf none [o.a] o.x o.ext)
     memCommon m false true && m.aop = 0 && (m.ord = 0 || m.ord = 2))

/-- `spill` and `fill`: the modifier may carry only XOFF and CP (R235). -/
def legalSpill (d a : Field7) (sz : BitVec 2) (x : Bool) (ext : Word) (dOk : Bool) : Bool :=
  sz ≠ 3 && dOk && addrOk a && extRole (some d) [a] x ext .optional (fun _ => true) &&
    (let m := memMod (modOf (some d) [a] x ext)
     memCommon m false true && m.aop = 0 && m.ord = 0 && !m.ipf)

/-- The suppress bit of 0x70 to 0x78: only with the discard destination (R181). `xq` takes an extension word only for its
source A (R186). -/
def legalXq (o : XqOp) : Bool :=
  dstOk o.d && keepOk o.k o.d && srcOk o.a && (o.bc || o.m ≠ 0) && (!o.x || takesExt o.a) &&
    extRole (some o.d) [o.a] o.x o.ext .none noMod

/-- `xg` (R187). -/
def legalXg (o : XgOp) : Bool :=
  dstOk o.d && keepOk o.k o.d && srcOk o.a && srcOk o.b &&
    extRole (some o.d) [o.a, o.b] o.x o.ext .optional (fun m => m.toNat < 256 && m.toNat % 8 ≤ 4)

/-- `perm` (R188, R189). -/
def legalPerm (o : PermOp) : Bool :=
  (isV o.d || o.d = 120) && keepOk o.k o.d && (isV o.a || o.a = 120) && (isV o.b || o.b = 120) && o.ext.toNat < 16

/-- `vote` (R193). -/
def legalVote (o : VoteOp) : Bool := dstPlain o.d && keepOk o.k o.d && o.mode.toNat ≤ 4

/-- `gred` (R194). -/
def legalGred (o : GredOp) : Bool :=
  dstOk o.d && keepOk o.k o.d && srcOk o.a && o.op.toNat ≤ 11 && extRole (some o.d) [o.a] o.x o.ext .none noMod

/-- `barr` (R196): the token goes to D. -/
def legalBarr (o : DaOp) : Bool :=
  dstOk o.d && srcPlain o.a && extRole (some o.d) [o.a] o.x o.ext .none noMod

/-- `barw` (R197). -/
def legalBarw (o : BarwOp) : Bool :=
  srcPlain o.a && srcOk o.b && extRole none [o.a, o.b] o.x o.ext .none noMod

/-- `macc.st` and `macc.ld` (R256). -/
def legalAccMem (o : AccMemOp) : Bool :=
  srcOk o.a && extRole none [o.a] o.x o.ext .optional (fun m => m.toNat < 2 ^ 19)

/-- `macc.rd` (R256). -/
def legalAccRd (o : AccRdOp) : Bool :=
  dstOk o.d && keepOk o.k o.d && srcOk o.a && extRole (some o.d) [o.a] o.x o.ext .none noMod

/-- A system selector with a 32-bit result and a 32-bit source (R275, R407). -/
def legalSysRes (o : DaOp) : Bool :=
  dstOk o.d && srcOk o.a && extRole (some o.d) [o.a] o.x o.ext .none noMod

/-- A system selector whose source is an even pair (R274, R275, R407). -/
def legalSysPair (d : Option Field7) (dOk : Bool) (a : Field7) (x : Bool) (ext : Word) : Bool :=
  dOk && evenVS a ext && extRole d [a] x ext .none noMod

/-- Whether an instruction's field values are legal; an event has no fields of an encoding. -/
def legal : Instr → Bool
  | .add o | .sub o | .mul o | .mulhiI o | .mulhiN o | .mad o | .minI o | .maxI o | .minN o | .maxN o
  | .and o | .or o | .xor o | .andn o | .shl o | .shr o | .sar o | .rol o | .bfx o | .bfi o | .fsh o
  | .divN o | .remN o | .divI o | .remI o | .fadd o | .fsub o | .fmul o | .ffma o | .fmin o | .fmax o
  | .fscale o => legalBin o
  | .clz o | .popc o | .brev o | .abs o | .neg o | .mov o | .fabs o | .fneg o | .fclass o | .frcp o | .frsq o
  | .fsqrt o | .fex2 o | .flg2 o | .fsin o | .fcos o | .ftanh o => legalUn o
  | .sel o => legalSel o
  | .addi o | .andi o | .ori o | .xori o => legalImm o
  | .shli o | .shri o | .sari o => legalShiftImm o
  | .movi o => dstPlain o.d && keepOk o.k o.d
  | .icmp o => legalCmp o
  | .fcmp o => legalFcmp o
  | .cop o => decide (o.cond.toNat ≤ 2)
  | .cset o => legalCset o
  | .add64 o | .sub64 o => legalWide o
  | .lea o => legalLea o
  | .cvt64 o => legalCvt64 o
  | .hadd2 o | .hmul2 o | .hfma2 o | .hmin2 o | .hmax2 o | .hdot2 o => legalBinMod o (fun m => m.toNat < 2)
  | .cmul o | .cfma o => legalBinMod o (fun m => m.toNat < 8)
  | .cvt o => legalCvt o
  | .pkn o => legalPkn o
  | .unpk o => legalUnpk o
  | .frnd o => legalUnMod o (fun m => m.toNat % 4 = 0 && m.toNat < 16)
  | .f2i o => legalF2i o
  | .i2f o => legalI2f o
  | .bra _ | .brl _ | .call _ | .ret _ | .exit _ | .join _ | .yield _ | .nop _ | .trap _ | .pour _ => true
  | .calli o | .jmpi o => legalJump o
  | .repq o => legalRepq o
  | .reord o => legalReord o
  | .ldv o => legalLog o.d o.a o.sz o.x o.ext (loadDst o.k o.d o.sz) 1
  | .stv o => legalLog o.d o.a o.sz o.x o.ext (dataOk o.d o.sz) 2
  | .ldk o | .ldd o => legalOff o.d o.a o.sz o.x o.ext (loadDst o.k o.d o.sz) 1
  | .stk o | .std o => legalOff o.d o.a o.sz o.x o.ext (dataOk o.d o.sz) 2
  | .ldf o => legalLdf o
  | .stf o => legalStf o
  | .atv o => legalAtomic o true
  | .atk o | .atd o => legalAtomic o false
  | .fence o => legalFence o
  | .cpy o => legalCpy o
  | .cwait _ => true
  | .spill o => legalSpill o.d o.a o.sz o.x o.ext (dataOk o.d o.sz)
  | .fill o => legalSpill o.d o.a o.sz o.x o.ext (loadDst o.k o.d o.sz)
  | .xq o => legalXq o
  | .xg o => legalXg o
  | .perm o => legalPerm o
  | .vote o => legalVote o
  | .gred o => legalGred o
  | .barr o | .barrDrop o => legalBarr o
  | .barw o => legalBarw o
  | .xacqV _ | .xrelV _ => true
  | .xacqS o => decide (1 ≤ o.k.toNat) && decide (o.k.toNat ≤ 15)
  | .xrelS o => decide (o.k.toNat ≤ 14)
  | .msign o | .mma o => isV o.areg
  | .mwait _ | .xform _ | .maccZero _ => true
  | .maccRd o => legalAccRd o
  | .maccSt o | .maccLd o => legalAccMem o
  | .maccStat o => dstPlain o.d && keepOk o.k o.d
  | .getst o => dstPlain o.d
  | .setst o =>
    dstOk o.d && srcOk o.a && extRole (some o.d) [o.a] o.x o.ext .optional (fun m => m.toNat < 64)
  | .fmtld o | .fmtst o => legalSysPair none (o.d.toNat < 32) o.a o.x o.ext
  | .patld o => legalSysPair none (o.d.toNat < 16) o.a o.x o.ext
  | .evsig o => legalSysRes o
  | .evwait o | .launch o => legalSysPair (some o.d) (dstOk o.d) o.a o.x o.ext
  | .trig o => srcOk o.a && extRole none [o.a] o.x o.ext .none noMod
  | .snap o => evenV o.d && srcOk o.a && extRole (some o.d) [o.a] o.x o.ext .none noMod
  | .snaprel o | .rollback o => legalSysPair (some o.d) (dstPlain o.d) o.a o.x o.ext
  | .rett _ => true
  | .ctxsv o | .ctxld o => legalSysPair none true o.a o.x o.ext
  | .halt o => srcOk o.a && extRole none [o.a] o.x o.ext .none noMod
  | .perfrd o | .errlog o => evenV o.d && srcOk o.a && extRole (some o.d) [o.a] o.x o.ext .none noMod
  | .inject o =>
    let m := o.ext.toNat
    let t := m % 16
    m < 128 && decide (t ≤ 4) && (if t = 2 then evenV o.a else srcPlain o.a)
  | _ => true

end Sys2Proof.Machine
end

