-- ==== Sys2Proof/WellFormed.lean ====
section
/-!
DEFINITION. Well-formed instructions: every field value legal (R73 to R82). The checks themselves stand in
Machine/Legal.lean; the smoke test of each is in Tests/Slice0.lean.
-/
namespace Sys2Proof

/-- The instruction's field values are legal; an ill-formed instruction raises ILLEGAL_WORD when it issues (R82). -/
def Instr.wf (i : Instr) : Bool := Machine.legal i

end Sys2Proof
end

