-- ==== Sys2Proof/Decode.lean ====
section
/-!
DEFINITION. The decoder, total on any bytes, and the encoder (spec 03_instruction_encoding.md R67, R70 to R76, R85, R86).
A word that fits no row of the opcode map, or that sets a reserved field of its row, decodes to nothing: it raises
ILLEGAL_WORD when it issues (R82). Field values that are legal or not by value are `Instr.wf`'s concern.
-/
namespace Sys2Proof
namespace Machine

/-- C, bit 31 (R72). -/
def fC (w : Word) : Bool := w.getLsbD 31
/-- Y, bit 30 (R72). -/
def fY (w : Word) : Bool := w.getLsbD 30
/-- OP, bits 29:23 (R72). -/
def fOp (w : Word) : Field7 := w.extractLsb' 23 7
/-- D, bits 22:16 (R72). -/
def fD (w : Word) : Field7 := w.extractLsb' 16 7
/-- A, bits 15:9 (R72). -/
def fA (w : Word) : Field7 := w.extractLsb' 9 7
/-- B, bits 8:2 (R72). -/
def fB (w : Word) : Field7 := w.extractLsb' 2 7
/-- K of F-Reg, bit 1 (R72). -/
def fK (w : Word) : Bool := w.getLsbD 1
/-- X, bit 0; in F-Imm this bit is K (R72). -/
def fX (w : Word) : Bool := w.getLsbD 0
/-- imm8, bits 8:1 (R72). -/
def fImm (w : Word) : BitVec 8 := w.extractLsb' 1 8
/-- OFF19, bits 18:0 (R72). -/
def fOff (w : Word) : BitVec 19 := w.setWidth 19
/-- OFF5, bits 8:4 (R72). -/
def fOff5 (w : Word) : BitVec 5 := w.extractLsb' 4 5
/-- SZ, bits 3:2 (R72). -/
def fSz (w : Word) : BitVec 2 := w.extractLsb' 2 2

/-- Parts of a 7-bit field. -/
def hi3 (f : Field7) : BitVec 3 := f.extractLsb' 4 3
/-- Bits 3:1 of a field. -/
def mid3 (f : Field7) : BitVec 3 := f.extractLsb' 1 3
/-- Bit 0 of a field. -/
def low1 (f : Field7) : Bool := f.getLsbD 0
/-- Bits 1:0 of a field. -/
def low2 (f : Field7) : BitVec 2 := f.setWidth 2
/-- Bits 2:0 of a field. -/
def low3 (f : Field7) : BitVec 3 := f.setWidth 3
/-- Bits 3:0 of a field. -/
def low4 (f : Field7) : BitVec 4 := f.setWidth 4
/-- Bit 2 of a field. -/
def bit2 (f : Field7) : Bool := f.getLsbD 2
/-- Bit 3 of a field. -/
def bit3 (f : Field7) : Bool := f.getLsbD 3
/-- Bit 6 of a field. -/
def top1 (f : Field7) : Bool := f.getLsbD 6
/-- Bits 6:4 of a field. -/
def top3 (f : Field7) : BitVec 3 := f.extractLsb' 4 3
/-- Bits 6:3 of a field. -/
def top4 (f : Field7) : BitVec 4 := f.extractLsb' 3 4
/-- Bits 6:3 of a field, CV of F-Eng (R72). -/
def high4 (f : Field7) : BitVec 4 := f.extractLsb' 3 4
/-- Bits 6:1 of a field. -/
def high6 (f : Field7) : BitVec 6 := f.extractLsb' 1 6
/-- Bits 5:4 of a field. -/
def mid2 (f : Field7) : BitVec 2 := f.extractLsb' 4 2
/-- Bits 3:2 of a field. -/
def mid2' (f : Field7) : BitVec 2 := f.extractLsb' 2 2
/-- DSC of F-Eng: bit 9 of the word, then bits 8:3 (R72). -/
def dscOf (a b : Field7) : Field7 := a.setWidth 1 ++ b.extractLsb' 1 6
/-- AREG of F-Eng: bit 16 of the word, then bits 15:10 (R72). -/
def aregOf (d a : Field7) : Field7 := d.setWidth 1 ++ a.extractLsb' 1 6

/-- F-Reg fields of a word. -/
def regOp (w e : Word) : RegOp := ⟨fC w, fY w, fK w, fX w, fD w, fA w, fB w, e⟩
/-- F-Reg fields of a word with one source. -/
def unOp (w e : Word) : UnOp := ⟨fC w, fY w, fK w, fX w, fD w, fA w, e⟩
/-- F-Imm fields of a word. -/
def immOp (w : Word) : ImmOp := ⟨fC w, fY w, fX w, fD w, fA w, fImm w⟩
/-- F-Reg fields of a word whose modifier is mandatory. -/
def modOp (w e : Word) : ModOp := ⟨fC w, fY w, fK w, fD w, fA w, fB w, e⟩
/-- F-Br fields of a word. -/
def brOp (w : Word) : BrOp := ⟨fC w, fY w, hi3 (fD w), bit3 (fD w), fOff w⟩
/-- F-Mem fields of a word. -/
def memOp (w e : Word) : MemOp := ⟨fC w, fD w, fA w, fOff5 w, fSz w, fK w, fX w, e⟩
/-- F-Mem fields of a store word. -/
def storeOp (w e : Word) : StoreOp := ⟨fC w, fD w, fA w, fOff5 w, fSz w, fX w, e⟩
/-- F-Eng fields of a word. -/
def engOp (w : Word) : EngOp :=
  ⟨fC w, high4 (fD w), (fD w).extractLsb' 1 2, aregOf (fD w) (fA w), dscOf (fA w) (fB w), low1 (fB w), fK w⟩

/-- How many words an instruction takes, from its first word (R67). -/
def wordCount (w : Word) : Nat :=
  let op := (fOp w).toNat
  if op = 0x51 then 2
  else if (0x20 ≤ op ∧ op ≤ 0x27) ∨ op = 0x50 ∨ op = 0x52 ∨ op = 0x54 ∨ op = 0x57 ∨ op = 0x5A ∨
      op = 0x5E ∨ op = 0x5F ∨ op = 0x7F then 1
  else if fX w then 2 else 1

/-- The instruction that a word and the word after it encode, or none (R72, R82, R85, R86). -/
def decodeWord (w next : Word) : Option Instr :=
  let e : Word := if fX w then next else 0
  match (fOp w).toNat with
  | 0x00 =>
      some (.add (regOp w e))
  | 0x01 =>
      some (.sub (regOp w e))
  | 0x02 =>
      some (.mul (regOp w e))
  | 0x03 =>
      some (.mulhiI (regOp w e))
  | 0x04 =>
      some (.mulhiN (regOp w e))
  | 0x05 =>
      some (.mad (regOp w e))
  | 0x06 =>
      some (.minI (regOp w e))
  | 0x07 =>
      some (.maxI (regOp w e))
  | 0x08 =>
      some (.minN (regOp w e))
  | 0x09 =>
      some (.maxN (regOp w e))
  | 0x0a =>
      some (.and (regOp w e))
  | 0x0b =>
      some (.or (regOp w e))
  | 0x0c =>
      some (.xor (regOp w e))
  | 0x0d =>
      some (.andn (regOp w e))
  | 0x0e =>
      some (.shl (regOp w e))
  | 0x0f =>
      some (.shr (regOp w e))
  | 0x10 =>
      some (.sar (regOp w e))
  | 0x11 =>
      some (.rol (regOp w e))
  | 0x12 =>
      if fB w = 0 then some (.clz (unOp w e)) else none
  | 0x13 =>
      if fB w = 0 then some (.popc (unOp w e)) else none
  | 0x14 =>
      if fB w = 0 then some (.brev (unOp w e)) else none
  | 0x15 =>
      some (.bfx (regOp w e))
  | 0x16 =>
      some (.bfi (regOp w e))
  | 0x17 =>
      some (.fsh (regOp w e))
  | 0x18 =>
      if fX w then some (.sel (modOp w e)) else none
  | 0x19 =>
      if fB w = 0 then some (.abs (unOp w e)) else none
  | 0x1a =>
      if fB w = 0 then some (.neg (unOp w e)) else none
  | 0x1b =>
      some (.divN (regOp w e))
  | 0x1c =>
      some (.remN (regOp w e))
  | 0x1d =>
      some (.divI (regOp w e))
  | 0x1e =>
      some (.remI (regOp w e))
  | 0x1f =>
      if fB w = 0 then some (.mov (unOp w e)) else none
  | 0x20 =>
      some (.addi (immOp w))
  | 0x21 =>
      some (.andi (immOp w))
  | 0x22 =>
      some (.ori (immOp w))
  | 0x23 =>
      some (.xori (immOp w))
  | 0x24 =>
      some (.shli (immOp w))
  | 0x25 =>
      some (.shri (immOp w))
  | 0x26 =>
      some (.sari (immOp w))
  | 0x27 =>
      if fA w = 0 then some (.movi ⟨fC w, fY w, fX w, fD w, fImm w⟩) else none
  | 0x28 =>
      some (.icmp ⟨fC w, fY w, hi3 (fD w), mid3 (fD w), low1 (fD w), fA w, fB w, fK w, fX w, e⟩)
  | 0x29 =>
      if low1 (fD w) then none else some (.fcmp ⟨fC w, fY w, hi3 (fD w), mid3 (fD w), fA w, fB w, fK w, fX w, e⟩)
  | 0x2a =>
      if low1 (fD w) || top3 (fA w) ≠ 0 || top3 (fB w) ≠ 0 || fX w then none
      else some (.cop ⟨fC w, fY w, hi3 (fD w), mid3 (fD w), bit3 (fA w), low3 (fA w), bit3 (fB w), low3 (fB w), fK w⟩)
  | 0x2b =>
      if top4 (fD w) ≠ 0 || fK w then none
      else some (.cset ⟨fC w, fY w, low3 (fD w), fA w, fB w, fX w, e⟩)
  | 0x2c =>
      some (.add64 (regOp w e))
  | 0x2d =>
      some (.sub64 (regOp w e))
  | 0x2e =>
      some (.lea (regOp w e))
  | 0x2f =>
      some (.cvt64 (regOp w e))
  | 0x30 =>
      some (.fadd (regOp w e))
  | 0x31 =>
      some (.fsub (regOp w e))
  | 0x32 =>
      some (.fmul (regOp w e))
  | 0x33 =>
      some (.ffma (regOp w e))
  | 0x34 =>
      some (.fmin (regOp w e))
  | 0x35 =>
      some (.fmax (regOp w e))
  | 0x36 =>
      if fB w = 0 then some (.fabs (unOp w e)) else none
  | 0x37 =>
      if fB w = 0 then some (.fneg (unOp w e)) else none
  | 0x38 =>
      if fB w = 0 then some (.fclass (unOp w e)) else none
  | 0x39 =>
      some (.fscale (regOp w e))
  | 0x3a =>
      if fB w = 0 then some (.frcp (unOp w e)) else none
  | 0x3b =>
      if fB w = 0 then some (.frsq (unOp w e)) else none
  | 0x3c =>
      if fB w = 0 then some (.fsqrt (unOp w e)) else none
  | 0x3d =>
      if fB w = 0 then some (.fex2 (unOp w e)) else none
  | 0x3e =>
      if fB w = 0 then some (.flg2 (unOp w e)) else none
  | 0x3f =>
      if fB w = 0 then some (.fsin (unOp w e)) else none
  | 0x40 =>
      if fB w = 0 then some (.fcos (unOp w e)) else none
  | 0x41 =>
      if fB w = 0 then some (.ftanh (unOp w e)) else none
  | 0x42 =>
      some (.hadd2 (regOp w e))
  | 0x43 =>
      some (.hmul2 (regOp w e))
  | 0x44 =>
      some (.hfma2 (regOp w e))
  | 0x45 =>
      some (.hmin2 (regOp w e))
  | 0x46 =>
      some (.hmax2 (regOp w e))
  | 0x47 =>
      some (.hdot2 (regOp w e))
  | 0x48 =>
      some (.cmul (regOp w e))
  | 0x49 =>
      some (.cfma (regOp w e))
  | 0x4a =>
      if fX w && fB w = 0 then some (.cvt ⟨fC w, fY w, fK w, fD w, fA w, e⟩) else none
  | 0x4b =>
      if fX w then some (.pkn (modOp w e)) else none
  | 0x4c =>
      if fX w then some (.unpk (modOp w e)) else none
  | 0x4d =>
      if fB w = 0 then some (.frnd (unOp w e)) else none
  | 0x4e =>
      if fB w = 0 then some (.f2i (unOp w e)) else none
  | 0x4f =>
      if fB w = 0 then some (.i2f (unOp w e)) else none
  | 0x50 =>
      some (.bra (brOp w))
  | 0x51 =>
      if fOff w = 0 then some (.brl ⟨fC w, fY w, hi3 (fD w), bit3 (fD w), next⟩) else none
  | 0x52 =>
      some (.call (brOp w))
  | 0x53 =>
      if fD w = 0 && fB w = 0 && !fK w then some (.calli ⟨fC w, fY w, fA w, fX w, e⟩) else none
  | 0x54 =>
      if fOff w = 0 then some (.ret ⟨fC w, fY w, hi3 (fD w), bit3 (fD w)⟩) else none
  | 0x55 =>
      if fD w = 0 && fB w = 0 && !fK w then some (.jmpi ⟨fC w, fY w, fA w, fX w, e⟩) else none
  | 0x56 =>
      if w.setWidth 23 = 0 && !fY w then some (.join ⟨fC w⟩) else none
  | 0x57 =>
      if fOff w = 0 then some (.exit ⟨fC w, fY w, hi3 (fD w), bit3 (fD w)⟩) else none
  | 0x58 =>
      if w.setWidth 23 = 0 && !fY w then some (.yield ⟨fC w⟩) else none
  | 0x59 =>
      if w.setWidth 23 = 0 && !fY w then some (.nop ⟨fC w⟩) else none
  | 0x5a =>
      if fD w = 0 && fA w = 0 && !fX w && !fY w then some (.trap ⟨fC w, fImm w⟩) else none
  | 0x5b =>
      if w.setWidth 23 = 0 && !fY w then some (.pour ⟨fC w⟩) else none
  | 0x5c =>
      if fB w = 0 && !fX w && !fY w then
        some (.repq ⟨fC w, hi3 (fD w), mid3 (fD w), low1 (fD w), fA w, fK w⟩) else none
  | 0x5d =>
      if fB w = 0 && fX w && !fY w && !fK w then some (.reord ⟨fC w, fD w, fA w, e⟩) else none
  | 0x60 =>
      if fY w then none else some (.ldv (memOp w e))
  | 0x61 =>
      if fY w || fK w then none else some (.stv (storeOp w e))
  | 0x62 =>
      if fY w then none else some (.ldk (memOp w e))
  | 0x63 =>
      if fY w || fK w then none else some (.stk (storeOp w e))
  | 0x64 =>
      if fY w then none else some (.ldd (memOp w e))
  | 0x65 =>
      if fY w || fK w then none else some (.std (storeOp w e))
  | 0x66 =>
      if fY w || fSz w ≠ 0 then none else some (.ldf ⟨fC w, fD w, fA w, fOff5 w, fK w, fX w, e⟩)
  | 0x67 =>
      if fY w || fSz w ≠ 0 || fK w then none else some (.stf ⟨fC w, fD w, fA w, fOff5 w, fX w, e⟩)
  | 0x68 =>
      if fY w then none else some (.atv (memOp w e))
  | 0x69 =>
      if fY w then none else some (.atk (memOp w e))
  | 0x6a =>
      if fY w then none else some (.atd (memOp w e))
  | 0x6b =>
      if fY w || fD w ≠ 0 || fA w ≠ 0 || fB w ≠ 0 || fK w || !fX w then none else some (.fence ⟨fC w, e⟩)
  | 0x6c =>
      if fY w || fSz w ≠ 2 || fK w then none else some (.cpy ⟨fC w, fD w, fA w, fOff5 w, fX w, e⟩)
  | 0x6d =>
      if fY w || top3 (fD w) ≠ 0 || fA w ≠ 0 || fB w ≠ 0 || fK w || fX w then none
      else some (.cwait ⟨fC w, low4 (fD w)⟩)
  | 0x6e =>
      if fY w || fK w then none else some (.spill (storeOp w e))
  | 0x6f =>
      if fY w then none else some (.fill (memOp w e))
  | 0x70 =>
      if fY w || top4 (fB w) ≠ 0 then none
      else some (.xq ⟨fC w, fD w, fA w, bit2 (fB w), low2 (fB w), fK w, fX w, e⟩)
  | 0x71 =>
      if fY w then none else some (.xg ⟨fC w, fD w, fA w, fB w, fK w, fX w, e⟩)
  | 0x72 =>
      if fY w || !fX w then none else some (.perm ⟨fC w, fD w, fA w, fB w, fK w, e⟩)
  | 0x73 =>
      if fY w || fX w || top3 (fA w) ≠ 0 then none
      else some (.vote ⟨fC w, fD w, bit3 (fA w), low3 (fA w), fB w, fK w⟩)
  | 0x74 =>
      if fY w || mid2 (fB w) ≠ 0 then none
      else some (.gred ⟨fC w, fD w, fA w, top1 (fB w), low4 (fB w), fK w, fX w, e⟩)
  | 0x75 =>
      if fY w || fK w then none
      else if fB w = 0 then some (.barr ⟨fC w, fD w, fA w, fX w, e⟩)
      else if fB w = 1 then some (.barrDrop ⟨fC w, fD w, fA w, fX w, e⟩) else none
  | 0x76 =>
      if fY w || fD w ≠ 0 || fK w then none else some (.barw ⟨fC w, fA w, fB w, fX w, e⟩)
  | 0x77 =>
      if fY w || fD w ≠ 0 || fK w || fX w then none
      else if fA w = 0 && fB w = 0 then some (.xacqV ⟨fC w⟩)
      else if fA w = 1 then some (.xacqS ⟨fC w, fB w⟩) else none
  | 0x78 =>
      if fY w || fD w ≠ 0 || fK w || fX w then none
      else if fA w = 0 && fB w = 0 then some (.xrelV ⟨fC w⟩)
      else if fA w = 1 then some (.xrelS ⟨fC w, fB w⟩) else none
  | 0x79 =>
      if fY w || fX w then none else some (.msign (engOp w))
  | 0x7a =>
      if fY w || fX w then none else some (.mma (engOp w))
  | 0x7b =>
      if fY w || fX w || fK w || low3 (fD w) ≠ 0 || fA w ≠ 0 || fB w ≠ 0 then none
      else some (.mwait ⟨fC w, high4 (fD w)⟩)
  | 0x7c =>
      if fY w || mid2' (fB w) ≠ 0 then none
      else match (top3 (fB w)).toNat with
        | 0 => if fD w = 0 && fA w = 0 && !fK w && !fX w then some (.maccZero ⟨fC w, low2 (fB w)⟩) else none
        | 1 => some (.maccRd ⟨fC w, fD w, fA w, low2 (fB w), fK w, fX w, e⟩)
        | 2 => if fD w = 0 && !fK w then some (.maccSt ⟨fC w, fA w, low2 (fB w), fX w, e⟩) else none
        | 3 => if fD w = 0 && !fK w then some (.maccLd ⟨fC w, fA w, low2 (fB w), fX w, e⟩) else none
        | 4 => if fA w = 0 && !fX w then some (.maccStat ⟨fC w, fD w, low2 (fB w), fK w⟩) else none
        | _ => none
  | 0x7d =>
      if fY w || fX w || fK w || low3 (fD w) ≠ 0 || high6 (fA w) ≠ 0 || low1 (fB w) then none
      else some (.xform ⟨fC w, high4 (fD w), dscOf (fA w) (fB w)⟩)
  | 0x7e =>
      if fY w || fK w then none
      else match (fB w).toNat with
        | 0x00 => if fA w = 0 && !fX w then some (.getst ⟨fC w, fD w⟩) else none
        | 0x01 => some (.setst ⟨fC w, fD w, fA w, fX w, e⟩)
        | 0x02 => some (.fmtld ⟨fC w, fD w, fA w, fX w, e⟩)
        | 0x03 => some (.fmtst ⟨fC w, fD w, fA w, fX w, e⟩)
        | 0x04 => some (.patld ⟨fC w, fD w, fA w, fX w, e⟩)
        | 0x08 => some (.evsig ⟨fC w, fD w, fA w, fX w, e⟩)
        | 0x09 => some (.evwait ⟨fC w, fD w, fA w, fX w, e⟩)
        | 0x0a => some (.launch ⟨fC w, fD w, fA w, fX w, e⟩)
        | 0x10 => some (.snap ⟨fC w, fD w, fA w, fX w, e⟩)
        | 0x11 => some (.snaprel ⟨fC w, fD w, fA w, fX w, e⟩)
        | 0x12 => some (.rollback ⟨fC w, fD w, fA w, fX w, e⟩)
        | 0x20 => some (.perfrd ⟨fC w, fD w, fA w, fX w, e⟩)
        | 0x21 => some (.errlog ⟨fC w, fD w, fA w, fX w, e⟩)
        | 0x0b => if fD w = 0 then some (.trig ⟨fC w, fA w, fX w, e⟩) else none
        | 0x19 => if fD w = 0 then some (.ctxsv ⟨fC w, fA w, fX w, e⟩) else none
        | 0x1a => if fD w = 0 then some (.ctxld ⟨fC w, fA w, fX w, e⟩) else none
        | 0x1b => if fD w = 0 then some (.halt ⟨fC w, fA w, fX w, e⟩) else none
        | 0x18 => if fD w = 0 && fA w = 0 && !fX w then some (.rett ⟨fC w⟩) else none
        | 0x22 => if fD w = 0 && fX w then some (.inject ⟨fC w, fA w, e⟩) else none
        | _ => none
  | _ => none

/-- The instruction at the head of a list of words, and the words after it. -/
def decodeWords : List Word → Option (Instr × List Word)
  | [] => none
  | w :: r =>
    if wordCount w = 2 then
      match r with
      | [] => none
      | n :: t => (decodeWord w n).map (fun i => (i, t))
    else (decodeWord w 0).map (fun i => (i, r))

/-- The words of a list of bytes, little-endian (R5); bytes left over make no word. -/
def wordsOf : List Byte → List Word
  | b0 :: b1 :: b2 :: b3 :: r => (b3 ++ b2 ++ b1 ++ b0) :: wordsOf r
  | _ => []

/-- The instruction at the head of a list of bytes, and the words after it. -/
def decodeBytes (l : List Byte) : Option (Instr × List Word) := decodeWords (wordsOf l)

/-- An instruction word from its fields (R72). -/
def pack (c y : Bool) (op d a b : Field7) (k x : Bool) : Word :=
  BitVec.ofBool c ++ BitVec.ofBool y ++ op ++ d ++ a ++ b ++ BitVec.ofBool k ++ BitVec.ofBool x

/-- An F-Imm word from its fields (R72). -/
def packImm (c y : Bool) (op d a : Field7) (imm : BitVec 8) (k : Bool) : Word :=
  BitVec.ofBool c ++ BitVec.ofBool y ++ op ++ d ++ a ++ imm ++ BitVec.ofBool k

/-- An F-Br word from its fields (R72). -/
def packBr (c y : Bool) (op : Field7) (cs : BitVec 3) (neg : Bool) (off : BitVec 19) : Word :=
  BitVec.ofBool c ++ BitVec.ofBool y ++ op ++ cs ++ BitVec.ofBool neg ++ off

/-- COND, cD and W as one field (R72). -/
def join3 (a b : BitVec 3) (w : Bool) : Field7 := a ++ b ++ BitVec.ofBool w

/-- A negation bit and a condition register as one field (R102). -/
def nib (n : Bool) (c : BitVec 3) : Field7 := 0#3 ++ BitVec.ofBool n ++ c

/-- A word, followed by its extension word when X is set (R75). -/
def withExt (w : Word) (x : Bool) (ext : Word) : List Word := if x then [w, ext] else [w]

/-- F-Reg with two sources. -/
def encReg (op : Field7) (o : RegOp) : List Word := withExt (pack o.c o.y op o.d o.a o.b o.k o.x) o.x o.ext
/-- F-Reg with one source. -/
def encUn (op : Field7) (o : UnOp) : List Word := withExt (pack o.c o.y op o.d o.a 0 o.k o.x) o.x o.ext
/-- F-Imm. -/
def encImm (op : Field7) (o : ImmOp) : List Word := [packImm o.c o.y op o.d o.a o.imm o.k]
/-- F-Reg with a mandatory modifier. -/
def encMod (op : Field7) (o : ModOp) : List Word := [pack o.c o.y op o.d o.a o.b o.k true, o.ext]
/-- F-Mem. -/
def encMem (op : Field7) (o : MemOp) : List Word :=
  withExt (pack o.c false op o.d o.a (o.off ++ o.sz) o.k o.x) o.x o.ext
/-- F-Mem, a store. -/
def encStore (op : Field7) (o : StoreOp) : List Word :=
  withExt (pack o.c false op o.d o.a (o.off ++ o.sz) false o.x) o.x o.ext
/-- F-Eng. -/
def encEng (op : Field7) (o : EngOp) : List Word :=
  [pack o.c false op (o.cv ++ o.arr ++ o.areg.extractLsb' 6 1) (o.areg.setWidth 6 ++ o.dsc.extractLsb' 6 1)
    (o.dsc.setWidth 6 ++ BitVec.ofBool o.h) o.sp false]

/-- The words of an instruction; an event has none (R72, R85, R86). -/
def encode : Instr → List Word
  | .add o => encReg 0x0 o
  | .sub o => encReg 0x1 o
  | .mul o => encReg 0x2 o
  | .mulhiI o => encReg 0x3 o
  | .mulhiN o => encReg 0x4 o
  | .mad o => encReg 0x5 o
  | .minI o => encReg 0x6 o
  | .maxI o => encReg 0x7 o
  | .minN o => encReg 0x8 o
  | .maxN o => encReg 0x9 o
  | .and o => encReg 0xa o
  | .or o => encReg 0xb o
  | .xor o => encReg 0xc o
  | .andn o => encReg 0xd o
  | .shl o => encReg 0xe o
  | .shr o => encReg 0xf o
  | .sar o => encReg 0x10 o
  | .rol o => encReg 0x11 o
  | .bfx o => encReg 0x15 o
  | .bfi o => encReg 0x16 o
  | .fsh o => encReg 0x17 o
  | .divN o => encReg 0x1b o
  | .remN o => encReg 0x1c o
  | .divI o => encReg 0x1d o
  | .remI o => encReg 0x1e o
  | .add64 o => encReg 0x2c o
  | .sub64 o => encReg 0x2d o
  | .lea o => encReg 0x2e o
  | .cvt64 o => encReg 0x2f o
  | .fadd o => encReg 0x30 o
  | .fsub o => encReg 0x31 o
  | .fmul o => encReg 0x32 o
  | .ffma o => encReg 0x33 o
  | .fmin o => encReg 0x34 o
  | .fmax o => encReg 0x35 o
  | .fscale o => encReg 0x39 o
  | .hadd2 o => encReg 0x42 o
  | .hmul2 o => encReg 0x43 o
  | .hfma2 o => encReg 0x44 o
  | .hmin2 o => encReg 0x45 o
  | .hmax2 o => encReg 0x46 o
  | .hdot2 o => encReg 0x47 o
  | .cmul o => encReg 0x48 o
  | .cfma o => encReg 0x49 o
  | .clz o => encUn 0x12 o
  | .popc o => encUn 0x13 o
  | .brev o => encUn 0x14 o
  | .abs o => encUn 0x19 o
  | .neg o => encUn 0x1a o
  | .mov o => encUn 0x1f o
  | .fabs o => encUn 0x36 o
  | .fneg o => encUn 0x37 o
  | .fclass o => encUn 0x38 o
  | .frcp o => encUn 0x3a o
  | .frsq o => encUn 0x3b o
  | .fsqrt o => encUn 0x3c o
  | .fex2 o => encUn 0x3d o
  | .flg2 o => encUn 0x3e o
  | .fsin o => encUn 0x3f o
  | .fcos o => encUn 0x40 o
  | .ftanh o => encUn 0x41 o
  | .frnd o => encUn 0x4d o
  | .f2i o => encUn 0x4e o
  | .i2f o => encUn 0x4f o
  | .addi o => encImm 0x20 o
  | .andi o => encImm 0x21 o
  | .ori o => encImm 0x22 o
  | .xori o => encImm 0x23 o
  | .shli o => encImm 0x24 o
  | .shri o => encImm 0x25 o
  | .sari o => encImm 0x26 o
  | .sel o => encMod 0x18 o
  | .pkn o => encMod 0x4b o
  | .unpk o => encMod 0x4c o
  | .movi o => [packImm o.c o.y 0x27 o.d 0 o.imm o.k]
  | .cvt o => [pack o.c o.y 0x4A o.d o.a 0 o.k true, o.ext]
  | .icmp o => withExt (pack o.c o.y 0x28 (join3 o.cond o.cd o.w) o.a o.b o.ac o.x) o.x o.ext
  | .fcmp o => withExt (pack o.c o.y 0x29 (join3 o.cond o.cd false) o.a o.b o.ac o.x) o.x o.ext
  | .cop o => [pack o.c o.y 0x2A (join3 o.cond o.cd false) (nib o.na o.ca) (nib o.nb o.cb) o.ac false]
  | .cset o => withExt (pack o.c o.y 0x2B (0#4 ++ o.cd) o.a o.b false o.x) o.x o.ext
  | .bra o => [packBr o.c o.y 0x50 o.cs o.neg o.off]
  | .brl o => [packBr o.c o.y 0x51 o.cs o.neg 0, o.off]
  | .call o => [packBr o.c o.y 0x52 o.cs o.neg o.off]
  | .calli o => withExt (pack o.c o.y 0x53 0 o.a 0 false o.x) o.x o.ext
  | .jmpi o => withExt (pack o.c o.y 0x55 0 o.a 0 false o.x) o.x o.ext
  | .ret o => [packBr o.c o.y 0x54 o.cs o.neg 0]
  | .exit o => [packBr o.c o.y 0x57 o.cs o.neg 0]
  | .join o => [pack o.c false 0x56 0 0 0 false false]
  | .yield o => [pack o.c false 0x58 0 0 0 false false]
  | .nop o => [pack o.c false 0x59 0 0 0 false false]
  | .pour o => [pack o.c false 0x5b 0 0 0 false false]
  | .trap o => [packImm o.c false 0x5A 0 0 o.imm false]
  | .repq o => [pack o.c false 0x5C (join3 o.kind o.cd o.w) o.a 0 o.ac false]
  | .reord o => [pack o.c false 0x5D o.d o.a 0 false true, o.ext]
  | .ldv o => encMem 0x60 o
  | .ldk o => encMem 0x62 o
  | .ldd o => encMem 0x64 o
  | .atv o => encMem 0x68 o
  | .atk o => encMem 0x69 o
  | .atd o => encMem 0x6a o
  | .fill o => encMem 0x6f o
  | .stv o => encStore 0x61 o
  | .stk o => encStore 0x63 o
  | .std o => encStore 0x65 o
  | .spill o => encStore 0x6e o
  | .ldf o => withExt (pack o.c false 0x66 o.d o.a (o.off ++ 0#2) o.k o.x) o.x o.ext
  | .stf o => withExt (pack o.c false 0x67 o.d o.a (o.off ++ 0#2) false o.x) o.x o.ext
  | .cpy o => withExt (pack o.c false 0x6C o.d o.a (o.off ++ 2#2) false o.x) o.x o.ext
  | .fence o => [pack o.c false 0x6B 0 0 0 false true, o.ext]
  | .cwait o => [pack o.c false 0x6D (0#3 ++ o.q) 0 0 false false]
  | .xq o => withExt (pack o.c false 0x70 o.d o.a (0#4 ++ BitVec.ofBool o.bc ++ o.m) o.k o.x) o.x o.ext
  | .xg o => withExt (pack o.c false 0x71 o.d o.a o.b o.k o.x) o.x o.ext
  | .perm o => [pack o.c false 0x72 o.d o.a o.b o.k true, o.ext]
  | .vote o => [pack o.c false 0x73 o.d (nib o.na o.cn) o.mode o.k false]
  | .gred o => withExt (pack o.c false 0x74 o.d o.a (BitVec.ofBool o.scan ++ 0#2 ++ o.op) o.k o.x) o.x o.ext
  | .barr o => withExt (pack o.c false 0x75 o.d o.a 0 false o.x) o.x o.ext
  | .barrDrop o => withExt (pack o.c false 0x75 o.d o.a 1 false o.x) o.x o.ext
  | .barw o => withExt (pack o.c false 0x76 0 o.a o.b false o.x) o.x o.ext
  | .xacqV o => [pack o.c false 0x77 0 0 0 false false]
  | .xacqS o => [pack o.c false 0x77 0 1 o.k false false]
  | .xrelV o => [pack o.c false 0x78 0 0 0 false false]
  | .xrelS o => [pack o.c false 0x78 0 1 o.k false false]
  | .msign o => encEng 0x79 o
  | .mma o => encEng 0x7a o
  | .mwait o => [pack o.c false 0x7B (o.cv ++ 0#3) 0 0 false false]
  | .xform o => [pack o.c false 0x7D (o.cv ++ 0#3) (0#6 ++ o.dsc.extractLsb' 6 1) (o.dsc.setWidth 6 ++ 0#1) false false]
  | .maccZero o => [pack o.c false 0x7C 0 0 (0#3 ++ 0#2 ++ o.arr) false false]
  | .maccRd o => withExt (pack o.c false 0x7C o.d o.a (1#3 ++ 0#2 ++ o.arr) o.k o.x) o.x o.ext
  | .maccSt o => withExt (pack o.c false 0x7C 0 o.a (2#3 ++ 0#2 ++ o.arr) false o.x) o.x o.ext
  | .maccLd o => withExt (pack o.c false 0x7C 0 o.a (3#3 ++ 0#2 ++ o.arr) false o.x) o.x o.ext
  | .maccStat o => [pack o.c false 0x7C o.d 0 (4#3 ++ 0#2 ++ o.arr) o.k false]
  | .getst o => [pack o.c false 0x7E o.d 0 0 false false]
  | .setst o => withExt (pack o.c false 0x7E o.d o.a 0x01 false o.x) o.x o.ext
  | .fmtld o => withExt (pack o.c false 0x7E o.d o.a 0x02 false o.x) o.x o.ext
  | .fmtst o => withExt (pack o.c false 0x7E o.d o.a 0x03 false o.x) o.x o.ext
  | .patld o => withExt (pack o.c false 0x7E o.d o.a 0x04 false o.x) o.x o.ext
  | .evsig o => withExt (pack o.c false 0x7E o.d o.a 0x08 false o.x) o.x o.ext
  | .evwait o => withExt (pack o.c false 0x7E o.d o.a 0x09 false o.x) o.x o.ext
  | .launch o => withExt (pack o.c false 0x7E o.d o.a 0x0a false o.x) o.x o.ext
  | .snap o => withExt (pack o.c false 0x7E o.d o.a 0x10 false o.x) o.x o.ext
  | .snaprel o => withExt (pack o.c false 0x7E o.d o.a 0x11 false o.x) o.x o.ext
  | .rollback o => withExt (pack o.c false 0x7E o.d o.a 0x12 false o.x) o.x o.ext
  | .perfrd o => withExt (pack o.c false 0x7E o.d o.a 0x20 false o.x) o.x o.ext
  | .errlog o => withExt (pack o.c false 0x7E o.d o.a 0x21 false o.x) o.x o.ext
  | .trig o => withExt (pack o.c false 0x7E 0 o.a 0x0b false o.x) o.x o.ext
  | .ctxsv o => withExt (pack o.c false 0x7E 0 o.a 0x19 false o.x) o.x o.ext
  | .ctxld o => withExt (pack o.c false 0x7E 0 o.a 0x1a false o.x) o.x o.ext
  | .halt o => withExt (pack o.c false 0x7E 0 o.a 0x1b false o.x) o.x o.ext
  | .rett o => [pack o.c false 0x7E 0 0 0x18 false false]
  | .inject o => [pack o.c false 0x7E 0 o.a 0x22 false true, o.ext]
  | .pourSetupDone _ _ => []
  | .workingSetFetchDone _ _ => []
  | .bankFetchDone _ _ => []
  | .loadDataReturn _ _ => []
  | .exchangeRelease _ _ _ _ => []
  | .cohortWatchdog _ _ _ => []
  | .matrixOpComplete _ _ => []
  | .xformComplete _ => []
  | .copyLineWritten _ _ => []
  | .copyComplete _ => []
  | .copyTransferFault _ _ => []
  | .trapDelivery _ _ _ => []
  | .preemptRequest _ => []
  | .gangSave _ => []
  | .gangRestore _ => []
  | .coreReport _ => []
  | .gangPlace _ => []
  | .placementAgeHold _ => []
  | .qosVictimSeek _ => []
  | .reordBinTimeout _ => []
  | .tailAgeAppend _ => []
  | .ownershipRequest _ _ _ _ => []
  | .ownershipHandover _ _ _ => []
  | .pendingAgePublish _ _ => []
  | .commitRequest _ _ => []
  | .invalidationMessage _ _ => []
  | .invalidationAck _ _ => []
  | .walkStart _ => []
  | .walkComplete _ _ => []
  | .shootdownCommand _ _ => []
  | .shootdownComplete _ => []
  | .atomicPerform _ => []
  | .atomicUnitPublish _ _ => []
  | .stackRead _ => []
  | .stackAppend _ => []
  | .stackFread _ => []
  | .stackFwrite _ => []
  | .stackSegopen _ => []
  | .stackSegseal _ => []
  | .stackCompletion _ => []
  | .stackScrub _ => []
  | .logFullTimeout _ => []
  | .fettlerScan _ => []
  | .segmentFree _ _ => []
  | .migrateToHostCommand _ _ => []
  | .migrateToDeviceCommand _ _ => []
  | .pageRequestAnswer _ _ => []
  | .migrationComplete _ => []
  | .migrationTimeout => []
  | .qslotWrite _ _ _ => []
  | .launchStart _ _ => []
  | .launchComplete _ => []
  | .evadd _ _ => []
  | .eventSlotWrite _ _ _ => []
  | .evwaitTimeout _ _ => []
  | .ctrlRst _ _ => []
  | .flr _ => []
  | .functionResetComplete _ => []
  | .hgptrWrite _ _ => []
  | .capctlArm => []
  | .capctlFire => []
  | .captureLatch => []
  | .mtimeWrite _ => []
  | .supplySag _ => []
  | .clockRecoverStep _ => []
  | .moduleReset _ => []
  | .spdmGetCertificate => []
  | .spdmGetMeasurements => []
  | .registerWrite _ _ _ => []
  | .flitReceive _ _ => []
  | .idleFlitTimer _ => []
  | .laneFault _ _ _ => []
  | .trainComplete _ _ => []
  | .trainTimeout _ => []
  | .pctlUp _ => []
  | .pctlDis _ => []
  | .packetRoute _ => []
  | .bulkCreditTimeout _ => []
  | .resendTimeout _ => []
  | .pktWrite _ => []
  | .rdreq _ => []
  | .rddata _ => []
  | .spwr _ => []
  | .dack _ => []
  | .cdone _ => []
  | .segship _ => []
  | .segpart _ => []
  | .fixwr _ => []
  | .cship _ => []
  | .repack _ => []
  | .launchPacket _ => []
  | .startbar _ => []
  | .ldone _ => []
  | .trigPacket _ => []
  | .notice _ => []
  | .mwr _ => []
  | .mrd _ => []
  | .mrsp _ => []
  | .retire _ => []
  | .genmark _ => []
  | .genmarkTimer _ => []
  | .copySetTimeout _ _ => []
  | .replicaAckTimeout _ _ => []
  | .rtswap => []
  | .rgtWrite _ _ => []
  | .gcmdFail _ _ => []
  | .gcmdSpare _ _ _ => []
  | .gcmdClear _ => []
  | .spareFillComplete _ => []
  | .fillPacket _ => []
  | .laneRecovery _ _ _ => []
  | .softError _ _ => []
  | .performedTagExpiry _ => []
  | .spdmSessionEstablish => []
  | .ideKeyManagement _ => []

/-- Whether a row of the opcode table is an instruction (it has words) or an event. -/
def isInstruction (i : Instr) : Bool := !(encode i).isEmpty

/-- How many words an instruction occupies (R67). -/
def lengthOf (i : Instr) : Nat := (encode i).length

end Machine

/-- The instruction whose bits, numbered as spec/opcode_table.json numbers them, are `w`: its words are laid out in
memory order (R5) and given to the decoder. -/
def decodeTableWord (_nbits w : Nat) : Option Instr :=
  (Machine.decodeBytes (Machine.toBytes 8 w)).map Prod.fst

end Sys2Proof
end

