-- ==== Sys2Proof/Config.lean ====
section
/-!
DEFINITION. What the spec leaves open: free values as constants without a body, so that nothing can evaluate them.
-/
namespace Sys2Proof.Config

/-- An undefined 32-bit value, by the number of times one was drawn (R7). -/
opaque freeWord : Nat → Word
/-- The candidate that the hardware delivers for an approximating function of opcode `op` at `a` (R126). -/
opaque approx : Nat → Word → Word
/-- Which way of a full set a cache gives up, by the number of times it was asked (R322, R330, R331). -/
opaque victim : Nat → Nat
/-- Whether the fast layer holds a dirty block of a segment in a bank, by the model's count of such questions, bank and segment
number: the spec leaves the DRAM cache's contents to its replacement (R367, R370). -/
opaque dirtyBlock : Nat → Nat → Nat → Bool
/-- Receive buffer of a port in flits, by class: the spec names no size (R428). -/
opaque portBuffer : Nat → Nat
/-- The module's certificate chain (R423). -/
opaque certificate : List (BitVec 512)
/-- The signature of measurement registers under the alias key (R423). -/
opaque signature : List (BitVec 512) → BitVec 512
/-- What a block's capture registers hold, by block and module instant: the spec names no contents (R411, R424). -/
opaque captured : Nat → DWord → DWord

end Sys2Proof.Config
end

