-- ==== Sys2Proof/Machine/State.lean ====
section
/-!
DEFINITION. The state of one SX-40 module as plain data, the reasons a step can stop, and the state after reset.
Tables are lists of (key, value) pairs; a key that a table does not list has the reset value its accessor in
Machine/Ops.lean names. Memories are lists of (address, byte) in canonical form.
-/
namespace Sys2Proof.Machine

/-- A table keyed by numbers, keys strictly rising. -/
abbrev Tbl (α : Type) := List (Nat × α)

/-- Bytes by address, addresses strictly rising, no zero byte listed: an unlisted byte reads zero. -/
abbrev Memory := List Host.Cell

/-- Why a step stops the machine. -/
inductive Fault where
  /-- Raised by `step` when secure boot failed and the module stays in reset (R422). Safe: the spec says that
  nothing runs until the next reset. -/
  | heldInReset
  deriving DecidableEq, Repr

/-- Why a step has no meaning. -/
inductive Refusal where
  /-- An instruction whose meaning is not written yet. Safe. -/
  | notModelled (mnemonic : String)
  deriving DecidableEq, Repr

/-- The privilege level of an item (R262). -/
inductive Level where
  | user
  | supervisor
  deriving DecidableEq, Repr

/-- Coefficients of an AFFINE representation (R28). -/
structure Aff where
  c : Word
  dx : Word
  dy : Word
  dz : Word
  deriving DecidableEq, Repr

/-- Coefficients of an AFFINE64 representation (R28). -/
structure Aff64 where
  c : DWord
  dx : DWord
  dy : DWord
  dz : DWord
  deriving DecidableEq, Repr

/-- A register representation (R28); `β` is what a BODY register holds. The two halves of an AFFINE64 pair
each carry the pair's form. -/
inductive Rep (β : Type) where
  | const (k : Word)
  | affine (f : Aff)
  | lo64 (f : Aff64)
  | hi64 (f : Aff64)
  | body (b : β)
  deriving DecidableEq, Repr

/-- A v register of a home group: a BODY register holds one word per home position (R28, R138). -/
abbrev VRep := Rep (List Word)
/-- A latch entry of one item: the value with the representation of the word it records (R25). -/
abbrev LRep := Rep Word

/-- A predicate record: the affine form, the condition, the CONST bound and whether the form stood on the left
(R33, R157). -/
structure Pred where
  form : Aff
  cond : BitVec 3
  bound : Word
  left : Bool
  deriving DecidableEq, Repr

/-- A condition register's representation (R33). -/
inductive CRep where
  | const (b : Bool)
  | pred (p : Pred)
  | body (b : List Bool)
  deriving DecidableEq, Repr

/-- A cause as the fault record carries it (R265, R267). -/
structure Trap where
  code : Nat
  sub : Nat := 0
  addr : DWord := 0
  wr : Bool := false
  sym : Bool := false
  async : Bool := false
  cidx : Nat := 0
  cv : Nat := 0
  arr : Nat := 0
  cq : Nat := 0
  epc : DWord := 0
  prog : DWord := 0
  desc : BitVec 256 := 0
  pc : DWord := 0
  deriving DecidableEq, Repr

/-- What an item waits for at the instruction it stands at (R148, R150). -/
inductive Wait where
  | ready
  /-- arrived at an exchange (R183) -/
  | exchange (xg : Bool)
  /-- released from an exchange with the others of its release set (R184) -/
  | released (set : Nat)
  /-- waits for the next completion of a barrier object (R197) -/
  | barrier (off : Nat)
  /-- the barrier's completion released it (R197) -/
  | barrierDone
  /-- waits for a full word (R219) -/
  | full (spad : Bool) (off : Nat) (take : Bool) (since : Nat)
  /-- a fill handed it the word (R219) -/
  | granted (w : Word)
  /-- `mwait` (R246) -/
  | engine (cv : Nat)
  /-- `cwait` for the copies listed (R233) -/
  | copies (queue : Nat) (ids : List Nat)
  /-- `xacq` in a first-in first-out queue (R153, R154) -/
  | block
  /-- waits for an absent scratchpad line (R215) -/
  | line (off since : Nat)
  /-- parked with a cause that is not delivered yet, among the items of a set that trapped together (0 for one alone), and
  whether its record is written (R268, R271) -/
  | parked (t : Trap) (set : Nat) (written : Bool)
  /-- parked until the copy of its call stack is written (R177) -/
  | stackCopy
  deriving DecidableEq, Repr

/-- One live item or helper item (R15 to R25, R35 to R40). Coordinates follow from the group and the position. -/
structure Item where
  helper : Bool := false
  pc : DWord := 0
  ring : List (Option LRep) := []
  depth : Nat := 0
  held : List DWord := []
  ext : Bool := false
  /-- bytes of its region that it has written with `spill`, by offset: the others are undefined (R36, R235) -/
  spilled : List Nat := []
  level : Level := .user
  prior : Level := .user
  frame : Bool := false
  wait : Wait := .ready
  readyAt : Nat := 0
  pass : Nat := 0
  /-- resumed inside a chain: members issue one by one (R81) -/
  unchained : Bool := false
  /-- created by a pour that the cause of the chain it stands at provoked (R267 SYM) -/
  sym : Bool := false
  /-- a fill was discarded at its peer, so later system releases complete ABORTED (R440) -/
  aborted : Bool := false
  /-- SB for cv0 to cv15 (R243) -/
  sb : BitVec 16 := 0
  deriving DecidableEq, Repr

/-- A load or atomic whose data has not returned (R210). -/
structure Outstanding where
  gpos : Nat
  reg : Nat
  tag : Nat
  deriving DecidableEq, Repr

/-- A fragment word that an item supplied to a convergence register at its sign: whether the item has written the register
since (R248). -/
structure Watch where
  cv : Nat
  reg : Nat
  pos : Nat
  written : Bool := false
  deriving DecidableEq, Repr

/-- A home group on its core (R17, R21, R26 to R31). `used` marks positions that ever held a real item (R20). -/
structure Group where
  ox : Nat := 0
  oy : Nat := 0
  oz : Nat := 0
  lane : Nat := 0
  res : Nat := 0
  v : Tbl VRep := []
  c : Tbl CRep := []
  s : Tbl Word := []
  status : Word := 0
  blocks : Nat := 0
  items : Tbl Item := []
  used : BitVec 32 := 0
  board : List Outstanding := []
  /-- struck words of v registers: (register, position, error), position 32 standing for the representation-table
  entry; an error is 0 correctable, 1 uncorrectable and not met yet, 2 poison (R272, R281) -/
  badV : List (Nat × Nat × Nat) := []
  /-- struck s registers with their error (R272) -/
  badS : List (Nat × Nat) := []
  /-- poisoned latch entries: (position, index) (R272) -/
  badL : List (Nat × Nat) := []
  /-- base granules of its reservation returned by ended items (R139, R161) -/
  back : Nat := 0
  /-- fragment words that an engine may still read (R248) -/
  watch : List Watch := []
  deriving DecidableEq, Repr

/-- A box of the index space: origin and extent (R157). -/
structure Box where
  ox : Nat := 0
  oy : Nat := 0
  oz : Nat := 0
  ex : Nat := 1
  ey : Nat := 1
  ez : Nat := 1
  deriving DecidableEq, Repr

/-- A span record (R157). `gang` is none for a die span. -/
structure Span where
  launch : Nat := 0
  gang : Option Nat := none
  die : Nat := 0
  core : Nat := 0
  lane : Nat := 0
  box : Box := {}
  pc : DWord := 0
  v : Tbl VRep := []
  c : Tbl CRep := []
  s : Tbl Word := []
  status : Word := 0
  ring : List (Option LRep) := []
  stack : List DWord := []
  readyAt : Nat := 0
  held : Bool := false
  level : Level := .user
  bad : List Nat := []
  /-- standing at a switch point, where a rejoin is tested (R169) -/
  atSwitch : Bool := true
  /-- it has arrived at a placed gang whose core has no free span record, and waits for one (R157, R161) -/
  noRec : Bool := false
  deriving DecidableEq, Repr

/-- The state of a convergence register (R243). -/
inductive CvState where
  | free
  | collecting
  | issued
  | done
  deriving DecidableEq, Repr

/-- A convergence register with what it captured (R242, R243, R261). -/
structure Cv where
  st : CvState := .free
  mask : Word := 0
  desc : BitVec 192 := 0
  arr : Nat := 0
  h : Bool := false
  sp : Bool := false
  xform : Bool := false
  pc : DWord := 0
  groups : List Nat := []
  fmts : Tbl (BitVec 256) := []
  /-- AREG and the fragment words that each signer held as it signed, by 32·group + gpos (R238, R245) -/
  frag : Tbl (Nat × List Word) := []
  /-- poisoned fragment words: (32·group + gpos, place) (R272) -/
  bad : List (Nat × Nat) := []
  /-- the two headers as issue read them, B or source first; none outside gang memory (R248) -/
  hdrs : List (Option Nat) := []
  /-- 2:4 metadata as issue read it (R248, R253) -/
  nibbles : List Byte := []
  /-- poisoned words of the metadata as issue found them, from MOFF (R285) -/
  badMeta : List Nat := []
  fault : Option Trap := none
  /-- a `mwait` has reported the fault (R246) -/
  told : Bool := false
  deriving DecidableEq, Repr

/-- Where a gang stands (R352, R356, R359, R269). -/
inductive GangPhase where
  | waiting
  | resident
  | stopping
  | saved
  | contained
  /-- ended, kept only while a copy still names its memory -/
  | ended
  deriving DecidableEq, Repr

/-- What a relaunched group starts with (R362). -/
structure Relaunch where
  cont : DWord
  key : Word
  n : Nat
  q : Nat
  recs : List (List Word)
  deriving DecidableEq, Repr

/-- An operation queued on an array, or the turn of a `macc` form among them (`cv` 16) (R249). -/
structure MatOp where
  id : Nat
  gang : Nat
  cv : Nat
  due : Nat
  deriving DecidableEq, Repr

/-- A matrix array of a core (R237, R250, R254, R257). -/
structure MArray where
  owner : Option Nat := none
  acc : Tbl Word := []
  aexp : Int := 0
  /-- MERR, SPMETA, RESID, INV, OVF from bit 4 down to bit 0 -/
  status : BitVec 5 := 0
  latch : Option (List Word) := none
  queue : List MatOp := []
  badAcc : List (Nat × Nat) := []
  badLatch : List Nat := []
  badCol : List Nat := []
  /-- convergence registers whose operations' values still stand in the array, with those operations' columns (R248) -/
  last : List (Nat × List Nat) := []
  deriving DecidableEq, Repr

/-- What a release waits for (R226, R320). `mark` is the writer's tick when the release was made. -/
structure Release where
  scope : Nat
  asid : Nat
  wid : Nat
  mark : Nat
  atomics : List (Nat × Nat)
  gang : Nat
  /-- remote copies that the gang had under way, for system scope (R226) -/
  copies : List Nat := []
  deriving DecidableEq, Repr

/-- A gang (R160, R204, R238, R348, R357). -/
structure Gang where
  launch : Nat := 0
  asid : Nat := 0
  fn : Nat := 0
  queue : Nat := 0
  die : Nat := 0
  core : Nat := 0
  index : Nat := 0
  box : Box := {}
  oneD : Bool := true
  phase : GangPhase := .waiting
  since : Nat := 0
  placedAt : Nat := 0
  restored : Bool := false
  /-- the placement-age hold of R353 is in force -/
  holding : Bool := false
  slot : Option Nat := none
  spbase : Nat := 0
  ssz : Nat := 0
  vext : Bool := false
  mat : Bool := false
  sblk : Nat := 0
  gmemSize : Nat := 0
  groups : Tbl Group := []
  gmem : Memory := []
  full : List Nat := []
  dom : List Nat := []
  /-- struck words of gang memory with their error, by word number (R272) -/
  badGmem : List (Nat × Nat) := []
  cv : Tbl Cv := []
  fmt : Tbl (BitVec 256) := []
  pat : Tbl (BitVec 2048) := []
  arrays : List Nat := []
  /-- residence and lane reserved for each group (R161, R351) -/
  places : List (Nat × Nat × Nat) := []
  /-- the next load of the gang follows an acquire of device scope (R383) -/
  acquire : Bool := false
  /-- a fence of the gang completed ABORTED (R321, R413, R440) -/
  fabrt : Bool := false
  relaunch : Option Relaunch := none
  /-- saved arrays by number (R261) -/
  savedArr : Tbl MArray := []
  /-- an acquire made as it was placed: what its first instruction waits for (R359, R362, R401) -/
  marks : List (Nat × Nat) := []
  /-- a save in progress: its release (R359) -/
  saving : Option Release := none
  /-- when the transfer of its save slot ends (R359) -/
  due : Nat := 0
  deriving DecidableEq, Repr

/-- An answer that a walk gave to a queued miss (R329). -/
inductive WalkAnswer where
  | leaf (l : DWord)
  | cause (code : Nat) (addr : DWord)
  deriving DecidableEq, Repr

/-- What stalls the issuing bundle without being a switch point (R143). -/
inductive Stall where
  | bank (till : Nat) (miss : List (Nat × Nat × Nat))
  | loads
  | walk (pages : List (Nat × Nat))
  | tailFull
  | release (r : Release)
  | acquire (marks : List (Nat × Nat))
  /-- until every counter has reached its value: (slot, value) (R409) -/
  | evwait (since fn : Nat) (marks : List (Nat × Word))
  /-- until a place of an array, or of the transform unit (4), frees (R249) -/
  | place (u : Nat)
  /-- until the turn of a `macc` form in an array's queue, by its entry's name (R249, R256) -/
  | ops (arr : Nat) (ids : List Nat)
  | atomic (id : Nat)
  /-- until the reorder unit has room for so many records (R361) -/
  | reorder (n : Nat)
  | retained (id : Nat)
  /-- until a line of a codebook table in scratchpad is present (R146) -/
  | tableLine (off since : Nat)
  deriving DecidableEq, Repr

/-- What a bundle has done towards the instruction it stalls at. -/
structure Progress where
  /-- the release of this instruction has been met -/
  released : Bool := false
  acquired : Bool := false
  answers : List (Nat × Nat × WalkAnswer) := []
  /-- results that an engine or unit returned: (group, position, words) -/
  results : List (Nat × Nat × List Word) := []
  done : Bool := false
  /-- the instruction that stalls is a fence, which a containment of its gang ends (R321) -/
  fence : Bool := false
  /-- the operations that it waited for have completed (R256) -/
  waited : Bool := false
  /-- when the wait of this instruction began (R409) -/
  began : Option Nat := none
  /-- the first instruction of an I = 1 line has begun its interval (R149) -/
  opened : Bool := false
  /-- the instruction stands in the last word of a line with L = 1: where issue would run on to (R69) -/
  past : Option DWord := none
  deriving DecidableEq, Repr

/-- The issuing bundle of a lane (R147, R148), or the span that issues (R158). -/
structure Bundle where
  gang : Nat := 0
  span : Option Nat := none
  members : List (Nat × Nat) := []
  line : Option DWord := none
  cidx : Nat := 0
  occ : Nat := 1
  symOnly : Bool := true
  /-- items that issued the chain's first member, once it has issued (R145) -/
  issued : List (Nat × Nat) := []
  stall : Option Stall := none
  prog : Progress := {}
  /-- a member of the chain makes a switch point after the chain: 1, or 2 for `yield` (R146) -/
  pend : Nat := 0
  /-- the line that is issuing has L = 1 (R64) -/
  lbit : Bool := false
  /-- at a switch point: rings are invalid and the lane can form another bundle -/
  fresh : Bool := true
  deriving DecidableEq, Repr

/-- A fast-file slot: the group it serves and the banks present, most recent first (R141). -/
structure Slot where
  group : Option (Nat × Nat) := none
  banks : List Nat := []
  last : Nat := 0
  deriving DecidableEq, Repr

/-- A request for extended blocks (R153) or scalar blocks (R154). -/
structure BlockReq where
  gang : Nat
  g : Nat
  gposs : List Nat
  upto : Nat
  deriving DecidableEq, Repr

/-- A lane (R138 to R153). `gran` counts free granules that no gang has reserved. -/
structure Lane where
  bundle : Option Bundle := none
  slots : List Slot := [{}, {}]
  fetch : Option (Nat × List (Nat × Nat × Nat)) := none
  busy : Nat := 0
  gran : Nat := 256
  resv : Tbl Nat := []
  res : Tbl (Nat × Nat) := []
  queue : List BlockReq := []
  /-- groups whose set-up after a pour ends at the clk given (R174) -/
  setup : List (Nat × Nat × Nat) := []
  /-- release sets resumed by `rett`, in address order (R270) -/
  resumes : List (Nat × List (Nat × Nat)) := []
  /-- the gang and members of the bundle that issued last, or a span's number with no members (R156 SWITCH) -/
  prev : Option (Nat × List (Nat × Nat)) := none
  /-- spans poured or dealt here so far, and whether a cause provoked the last of them (R164, R267) -/
  pours : Nat := 0
  pourSym : Bool := false
  deriving DecidableEq, Repr

/-- A four-entry error log with its overflow flag (R255, R273, R280). -/
structure ErrLog where
  entries : Tbl DWord := []
  ovf : Bool := false
  deriving DecidableEq, Repr

/-- A returned atomic that the core has not seen published (R225, R339): its ASID, home die, the unit's tick, the item
and the sector. -/
structure AtomicMark where
  asid : Nat
  die : Nat
  mark : Nat
  gang : Nat
  g : Nat
  gpos : Nat
  key : Nat
  deriving DecidableEq, Repr

/-- A line of an L1 data cache (R330). -/
structure L1Line where
  asid : Nat
  va : Nat
  leaf : DWord
  data : List Byte
  gen : Nat
  deriving DecidableEq, Repr

/-- What a core has free, as it reports it (R350). -/
structure CoreView where
  lanes : Tbl (Nat × Nat) := []
  gmem : Nat := 524288
  blocks : Nat := 1024
  spans : Nat := 64
  mat : Bool := false
  load : Nat := 0
  deriving DecidableEq, Repr

/-- What saved victims returned and a core keeps for the gang of a search (R356): residences and granules by lane, gang memory,
scalar blocks, span records, the arrays. -/
structure Kept where
  lanes : Tbl (Nat × Nat) := []
  gmem : Nat := 0
  blocks : Nat := 0
  spans : Nat := 0
  mat : Bool := false
  deriving DecidableEq, Repr

/-- A core (R138, R140, R156, R237, R317, R330). -/
structure Core where
  lanes : Tbl Lane := []
  arrays : Tbl MArray := []
  xforms : List MatOp := []
  gmemFree : Nat := 524288
  spansFree : Nat := 64
  pool : Nat := 1024
  queueS : List BlockReq := []
  matGang : Option Nat := none
  l1 : List L1Line := []
  seen : Tbl Nat := []
  /-- returned atomics not yet seen published (R339) -/
  atomics : List AtomicMark := []
  perf : Tbl Nat := []
  matLog : ErrLog := {}
  storLog : ErrLog := {}
  engLog : ErrLog := {}
  dirty : Bool := false
  kept : Kept := {}
  deriving DecidableEq, Repr

/-- A cached leaf (R322, R328, R329). -/
structure TcEntry where
  asid : Nat
  vpn : Nat
  leaf : DWord
  deriving DecidableEq, Repr

/-- Who waits for a walk (R329). -/
inductive Misser where
  | lane (core lane : Nat)
  | copy (id : Nat)
  /-- the delivery of an item's cause, or the copy of its call stack: tried again by itself -/
  | item (gang g gpos : Nat)
  /-- a save or restore of a gang -/
  | gang (gang : Nat)
  /-- the entry of a launch -/
  | launch (id : Nat)
  deriving DecidableEq, Repr

/-- A walker with its replay queue (R329). -/
structure Walker where
  asid : Nat
  vpn : Nat
  start : Nat
  queue : List Misser
  /-- ended at check 5: waits for migration -/
  parked : Bool := false
  /-- a shootdown accepted after its start: its result is not installed (R334) -/
  stale : Bool := false
  deriving DecidableEq, Repr

/-- An index-cache entry for a sub-page map (R322, R335). -/
structure MapEntry where
  asid : Nat
  lpn : Nat
  sub : Nat
  pos : Nat
  gen : Nat
  poisoned : Bool
  deriving DecidableEq, Repr

/-- An index-cache entry for a path node (R322, R335). -/
structure NodeEntry where
  asid : Nat
  level : Nat
  pre : Nat
  pos : Nat
  /-- the index slice that holds it -/
  slice : Nat
  deriving DecidableEq, Repr

/-- A data line of an L2 slice (R322, R335): the position whose sectors it holds, an aligned group of four or an expanded
block, and the address space and logical key for which it was fetched. Positions are never written twice, so a line is its
position's contents. -/
structure DataLine where
  pos : Nat
  expanded : Bool
  asid : Nat
  key : Nat
  deriving DecidableEq, Repr

/-- A page's length sidecar (R300, R335). -/
structure Sidecar where
  asid : Nat
  lpn : Nat
  lens : BitVec 1024
  deriving DecidableEq, Repr

/-- A reverse-map entry (R331). -/
structure RmEntry where
  asid : Nat
  lpn : Nat
  line : Nat
  va : Nat
  cores : DWord
  deriving DecidableEq, Repr

/-- An ownership entry at a page's home slice (R303). -/
structure OwnEntry where
  asid : Nat
  lpn : Nat
  owned : BitVec 16
  sown : List Nat
  deriving DecidableEq, Repr

/-- A request for a sub-page at its home slice (R305). -/
structure OwnReq where
  asid : Nat
  lpn : Nat
  sub : Nat
  wid : Nat
  /-- the owner's publication begun since, which must complete first -/
  pub : Option Nat := none
  deriving DecidableEq, Repr

/-- A scratchpad allocation of a cohort (R340, R341). -/
structure Spad where
  launch : Nat
  fn : Nat
  base : Nat
  lines : Nat
  mem : Memory := []
  full : List Nat := []
  dom : List Nat := []
  absent : List Nat := []
  bad : List (Nat × Nat) := []
  deriving DecidableEq, Repr

/-- Where a fill goes (R220): a gang's memory, a scratchpad of this chip, or a scratchpad of a peer. -/
inductive FillTarget where
  | gang (gang : Nat)
  | spad (die launch : Nat)
  | remote (chip die launch : Nat)
  deriving DecidableEq, Repr

/-- A fill that is not performed yet (R221, R440): its item and core here, or the packet that brought it. -/
structure FillReq where
  item : Option (Nat × Nat × Nat) := none
  core : Option Nat := none
  target : FillTarget
  off : Nat
  word : Word
  pkt : Option Packet := none
  deriving DecidableEq, Repr

/-- A reorder bin (R362): each record carries its payload and its time of deposit. -/
structure Bin where
  launch : Nat
  cont : DWord
  key : Nat
  recs : List (Nat × List Word)
  deriving DecidableEq, Repr

/-- What a commit unit is asked for (R312, R314, R375, R380, R382, R383). -/
inductive CommitKind where
  | publication (pub : Nat)
  | relocation (pub : Nat)
  | retain (op : Nat)
  | forget (op : Nat)
  | reinstate (op : Nat)
  deriving DecidableEq, Repr

/-- A request in a commit unit's queue, in arrival order (R314). -/
structure CommitReq where
  asid : Nat
  wid : Nat
  kind : CommitKind
  deriving DecidableEq, Repr

/-- An invalidation message (R316). -/
structure InvMsg where
  asid : Nat
  seq : Nat
  keys : List (Nat × Nat)
  deriving DecidableEq, Repr

/-- An atomic at the home slice (R338): the operation, its address and each item's operands. -/
structure AtomicReq where
  id : Nat
  asid : Nat
  core : Nat
  lane : Nat
  aop : Nat
  wide : Bool
  ops : List (Nat × Nat × Nat × DWord × DWord)
  ck : Nat
  deriving DecidableEq, Repr

/-- A die (R322 to R362). -/
structure Die where
  tcache : List TcEntry := []
  walkers : Tbl Walker := []
  missq : List (Nat × Nat × Misser) := []
  /-- shared walk cache of table pointers: (asid, level, prefix of the page number, entry) (R329) -/
  walkCache : List (Nat × Nat × Nat × DWord) := []
  maps : List MapEntry := []
  nodes : List NodeEntry := []
  /-- length sidecars of pages with compression that have been read (R335) -/
  sides : List Sidecar := []
  /-- data lines of the L2 slices, latest fetched first (R322, R340) -/
  lines : List DataLine := []
  applied : Tbl Nat := []
  inbox : List InvMsg := []
  rmap : List RmEntry := []
  own : List OwnEntry := []
  ownq : List OwnReq := []
  commits : List CommitReq := []
  atomq : List AtomicReq := []
  spads : List Spad := []
  bins : List Bin := []
  /-- flushes so far of a launch's continuation (R362) -/
  flushes : List (Nat × DWord × Nat) := []
  views : Tbl CoreView := []
  /-- launches whose scratchpad allocation failed, until some allocation of the die is released (R352) -/
  spadFail : List Nat := []
  /-- the waiting gang that it pre-empts for, the core, and the victims (R356) -/
  seek : Option (Nat × Nat × List Nat) := none
  log : ErrLog := {}
  /-- clock period in sixteenths of nominal (R420) -/
  period : Nat := 16
  sagAt : Nat := 0
  stretch : Nat := 0
  deriving DecidableEq, Repr

/-- The state of a tail entry (R289). -/
inductive TailState where
  | open
  | wait
  | appending
  deriving DecidableEq, Repr

/-- A tail-buffer entry (R289): `key` is LPN::SUB::sector as one number. -/
structure TailEntry where
  asid : Nat
  key : Nat
  data : BitVec 256
  mask : BitVec 32
  st : TailState
  born : Nat
  tick : Nat
  ck : Nat
  poison : Bool := false
  /-- bits of masked bytes that element stores have not written: those of the base stand (R213) -/
  thin : BitVec 256 := 0
  deriving DecidableEq, Repr

/-- A pending record (R309): the newest position of each changed sector of a sub-page. -/
structure PendRec where
  asid : Nat
  sub : Nat
  pos : Tbl Nat
  born : Nat
  tick : Nat
  ck : Nat
  deriving DecidableEq, Repr

/-- How far a publication has gone (R312, R316). -/
inductive PubStage where
  | requested
  | committed (seq : Nat)
  deriving DecidableEq, Repr

/-- A publication in flight (R312): sub-page keys with the old and new position of each changed sector. -/
structure Pub where
  id : Nat
  asid : Nat
  recs : List (Nat × Nat × List (Nat × Nat × Nat))
  /-- pending records it covers, which count against the set until it completes (R310) -/
  held : Nat := 0
  rel : Bool := false
  /-- its intent: number, position of the first part, and each part's position and sectors (R313) -/
  iseq : Nat := 0
  intent : Nat := 0
  parts : List (Nat × Nat) := []
  stage : PubStage := .requested
  tick : Nat := 0
  acked : List Nat := []
  /-- the remote copy whose copy set this publication carries (R439) -/
  copy : Option (Nat × Nat) := none
  deriving DecidableEq, Repr

/-- The segment a writer has open in a stack (R295). -/
structure OpenSeg where
  seg : Nat
  off : Nat
  count : Nat
  chain : Nat
  deriving DecidableEq, Repr

/-- A copy set of an ingress writer (R439). -/
structure CopySet where
  src : Nat
  cid : Nat
  asid : Nat
  recs : List PendRec
  last : Nat
  deriving DecidableEq, Repr

/-- A writer of log space (R287, R288). -/
structure Writer where
  tail : List TailEntry := []
  pend : List PendRec := []
  pubs : List Pub := []
  segs : Tbl OpenSeg := []
  prev : Tbl Nat := []
  chain : Nat := 0
  iseq : Nat := 0
  tick : Nat := 1
  leaves : List TcEntry := []
  sets : List CopySet := []
  /-- ASIDs whose sub-page another writer has requested, with the time (R305) -/
  wanted : List (Nat × Nat) := []
  deriving DecidableEq, Repr

/-- A segment's state in the fettler metadata (R372). -/
inductive SegState where
  | free
  | open
  | sealed
  | cleaning
  | held
  | lost
  deriving DecidableEq, Repr

/-- Fettler metadata of one segment (R372). -/
structure SegMeta where
  st : SegState := .free
  sup : Nat := 0
  data : Nat := 0
  sealedAt : Nat := 0
  wid : Nat := 0
  asids : List Nat := []
  /-- relocation publications that must complete before it is free (R376) -/
  moves : List (Nat × Nat) := []
  /-- shipments to replicas outstanding (R374), and whether it was shipped since it was opened (R449) -/
  ships : Nat := 0
  shipped : Bool := false
  deriving DecidableEq, Repr

/-- A request to a base die (R365). -/
inductive StackReq where
  | read (die tag pos count : Nat)
  | append (die tag pos : Nat) (data : List Byte)
  | fread (die tag off len : Nat)
  | fwrite (die tag off : Nat) (data : List Byte)
  | segopen (die tag wid : Nat)
  | segseal (die tag seg wid count : Nat)
  deriving DecidableEq, Repr

/-- A completion of a base die (R365). -/
structure StackDone where
  die : Nat
  tag : Nat
  data : List Byte
  /-- bit i: sector i is poisoned -/
  poison : Nat
  seg : Option Nat
  deriving DecidableEq, Repr

/-- A memory stack with its base die (R365 to R376). -/
structure Stack where
  reqs : List StackReq := []
  done : List StackDone := []
  segs : Tbl SegMeta := []
  /-- remap entries of which one copy is uncorrectable: (layer, bank) (R370) -/
  badRemap : List (Nat × Nat) := []
  fenced : List (Nat × Nat) := []
  scrubbed : Nat := 0
  corrected : Nat := 0
  /-- writers that were answered NONE, with the time of the first (R372) -/
  starved : List Nat := []
  starvedAt : Nat := 0
  lastFree : Nat := 0
  fullRaised : Bool := false
  lastScan : Nat := 0
  deriving DecidableEq, Repr

/-- A function's window and queues (R405 to R416, R332, R386). -/
structure Fn where
  acc : Tbl Word := []
  done : Tbl Word := []
  spstat : DWord := 0
  codebase : DWord := 0
  evirq : BitVec 256 := 0
  head : Nat := 0
  tail : Nat := 0
  hovf : Bool := false
  hg : Tbl (BitVec 256) := []
  savebase : DWord := 0
  nslot : Nat := 0
  qosw : Nat := 1
  spmax : Nat := 0
  uinjen : Bool := false
  utrig : Bool := false
  ev : Tbl Word := []
  sdaddr : DWord := 0
  sdctl : DWord := 0
  sdovf : Bool := false
  sddone : BitVec 16 := 0
  sdacc : BitVec 16 := 0
  sdq : List (DWord × DWord × List (Nat × Nat)) := []
  mgaddr : DWord := 0
  mgctl : DWord := 0
  mgerr : Bool := false
  mgdone : BitVec 16 := 0
  mgacc : BitVec 16 := 0
  /-- vectors raised and not sent to the host yet (R415) -/
  msix : List Nat := []
  /-- launches started so far: the model's own, for the turns of R399 -/
  starts : Nat := 0
  slots : List Nat := []
  deriving DecidableEq, Repr

/-- How far a launch has gone (R399, R402). -/
inductive LaunchPhase where
  | queued
  | barrier
  | running
  | releasing
  | finished
  deriving DecidableEq, Repr

/-- A launch (R392 to R404, R444 to R446). -/
structure Launch where
  fn : Nat
  queue : Nat
  lseq : Word
  pkt : BitVec 512
  phase : LaunchPhase := .queued
  sat0 : Bool := false
  sat1 : Bool := false
  chips : Nat := 1
  chip : Nat := 0
  taker : Option Nat := none
  refused : Option Nat := none
  dones : List Nat := []
  clusters : List Nat := []
  release : List Release := []
  arrival : Nat := 0
  /-- an acquire made as it started: what its die spans wait for (R401) -/
  marks : List (Nat × Nat) := []
  /-- gangs that its dies placed, whose fills its completion waits for (R402) -/
  gangs : List Nat := []
  deriving DecidableEq, Repr

/-- A migration command (R386), or a device access that began one (R385). -/
structure MigJob where
  id : Nat
  fn : Option Nat
  asid : Nat
  vpn : Nat
  lpn : Nat
  toDevice : Bool
  stage : Nat := 0
  attempt : Nat := 0
  since : Nat := 0
  dirty : List Nat := []
  /-- the shootdown that it waits for names what came later by this -/
  shot : Nat := 0
  /-- the page on its way: from the host, or to it -/
  page : List Byte := []
  /-- publications that it waits for: (writer, tick) -/
  pubs : List (Nat × Nat) := []
  deriving DecidableEq, Repr

/-- A side of a copy (R229, R342): log memory, gang memory, scratchpad, a tile port, or a peer's log memory or
scratchpad. -/
inductive Side where
  | log (va : Nat)
  | gang (off : Nat)
  | spad (off : Nat)
  | tile (off : Nat)
  | peerLog (va : Nat)
  | peerSpad (off : Nat)
  deriving DecidableEq, Repr

/-- A copy in the copy engine (R229 to R234, R342 to R344, R438). -/
structure Copy where
  gang : Nat
  launch : Nat
  core : Nat
  die : Nat
  asid : Nat
  level : Level
  queue : Nat
  pc : DWord
  desc : BitVec 128
  logAddr : DWord
  src : Side
  dst : Side
  /-- LEN, and the bytes read and written -/
  len : Nat
  slen : Nat
  dlen : Nat
  mode : Nat
  fmt : BitVec 256
  /-- the gang's format registers at issue, for the tiles at its ports (R342) -/
  fmts : Tbl (BitVec 256) := []
  /-- units that wait for a line's presence, and since when (R344) -/
  stuck : List (Nat × Nat) := []
  chip : Nat := 0
  peerDie : Nat := 0
  relScope : Option Nat := none
  since : Nat := 0
  /-- units already moved -/
  wrote : List Nat := []
  /-- destination lines whose presence it cleared and has not set (R232) -/
  cleared : List Nat := []
  /-- transfer fault: SUB and the byte offset reached (R234) -/
  fault : Option (Nat × Nat) := none
  /-- every byte is moved, or a fault stopped it -/
  stopped : Bool := false
  finished : Bool := false
  reported : Bool := false
  /-- the second release of `cpy.rel` (R231) -/
  release : Option Release := none
  /-- a remote copy's packets not yet answered, (TAG, unit), and how far its CDONE has come: 1 sent, 2 acknowledged -/
  tags : List (Nat × Nat) := []
  closing : Nat := 0
  image : List Byte := []
  cid : Nat := 0
  deriving DecidableEq, Repr

/-- An operation on retained roots in progress (R380 to R383): `kind` is 0 for `snap`, 1 for `snaprel`, 2 for
`rollback`. -/
structure RootOp where
  core : Nat
  lane : Nat
  gang : Nat
  asid : Nat
  kind : Nat
  seq : Nat := 0
  stage : Nat := 0
  /-- gangs that it stopped -/
  stopped : List Nat := []
  pubs : List Release := []
  /-- halted-gang record of the issuing gang, kept until the handle is known (R380) -/
  report : Option (BitVec 256) := none
  deriving DecidableEq, Repr

/-- The capture logic (R411): when it fired, the instant named, and the instant at which the capture registers stand frozen;
`block` selects what the read window shows (R424). -/
structure Capture where
  fired : Bool := false
  src : Nat := 0
  tag : BitVec 16 := 0
  instant : DWord := 0
  latched : Bool := false
  frozen : DWord := 0
  block : DWord := 0
  deriving DecidableEq, Repr

/-- A runner port's state (R429). -/
inductive PortState where
  | x16
  | x8
  | x4
  | train
  | down
  deriving DecidableEq, Repr

/-- A bank of routing state (R434): keys are numbered port·64 + slot. -/
structure RouteBank where
  dest : Tbl Word := []
  keys : Tbl Word := []
  deriving DecidableEq, Repr

/-- A runner port (R425 to R430). -/
structure Port where
  st : PortState := .down
  lanes : BitVec 16 := 0xFFFF
  peer : BitVec 16 := 0xFFFF
  first : Nat := 0
  since : Nat := 0
  txSeq : Nat := 0
  replay : List Flit := []
  ackSeq : BitVec 12 := 0xFFF
  nak : Bool := false
  credO : Nat := 0
  credB : Nat := 0
  credM : Nat := 0
  retO : Nat := 0
  retB : Nat := 0
  retM : Nat := 0
  /-- message bytes of the packet that is arriving, and the bank that its header found when a swap has followed (R436) -/
  assembling : List Byte := []
  bank : Option RouteBank := none
  /-- whole packets not routed yet, with such a bank -/
  rx : List (Packet × Option RouteBank) := []
  /-- flits sent, oldest first -/
  out : List Flit := []
  lastSent : Nat := 0
  bad : BitVec 16 := 0
  replays : BitVec 16 := 0
  deriving DecidableEq, Repr

/-- What sent a packet that awaits its DACK (R433). -/
inductive Sender where
  | copy (id : Nat)
  | fill (gang g gpos : Nat)
  | launch (id : Nat)
  | replica (group member : Nat)
  | other
  deriving DecidableEq, Repr

/-- A packet that awaits its end-to-end acknowledgement (R433). -/
structure SentPkt where
  pkt : Packet
  sentAt : Nat
  tries : Nat
  who : Sender
  deriving DecidableEq, Repr

/-- A routed packet that waits for credits at its port (R435). -/
structure Waiting where
  pkt : Packet
  port : Nat
  ports : List Nat
  since : Nat
  deriving DecidableEq, Repr

/-- A commit that a data chip has still to see acknowledged by its holders (R448, R449, R452): what it references, as
positions and sectors, and the (group, member) pairs whose REPACK is outstanding. -/
structure ShipJob where
  wid : Nat
  pub : Nat
  tick : Nat
  asid : Nat
  seq : Nat
  crec : Nat
  ranges : List (Nat × Nat)
  /-- a relocation: a cleaned segment waits for it -/
  urgent : Bool := false
  /-- the extents in open segments are shipped; the commit record is shipped -/
  parts : Bool := false
  sent : Bool := false
  waits : List (Nat × Nat)
  deriving DecidableEq, Repr

/-- A replica group's running state beside its table entry (R447 to R450). -/
structure RepState where
  /-- when a member last acknowledged something, by member -/
  lastAck : Tbl Nat := []
  /-- the newest generation each data chip has answered, at a holder -/
  answered : Tbl Nat := []
  /-- root tables kept at generations, at a data chip -/
  kept : List (Nat × Memory) := []
  lastMark : Nat := 0
  /-- a generation mark not answered yet, with the tags of the earlier shipments still open -/
  mark : Option (Nat × List Nat) := none
  /-- commit records received and not applied: (member, position, record), at a holder -/
  records : List (Nat × Nat × BitVec 512) := []
  /-- fixed regions of the data chips of a parity group, by member, at a holder -/
  images : Tbl Memory := []
  /-- pieces whose terms a parity holder's image includes: (member, first sector) -/
  terms : List (Nat × Nat) := []
  spare : Option (Nat × Nat) := none
  deriving DecidableEq, Repr

/-- The fabric block (R425 to R451). -/
structure Fabric where
  ports : Tbl Port := []
  active : RouteBank := {}
  shadow : RouteBank := {}
  rtaddr : DWord := 0
  swapping : Bool := false
  fabid : DWord := 0
  badpkt : BitVec 16 := 0
  dropkey : BitVec 16 := 0
  droproute : BitVec 16 := 0
  drophop : BitVec 16 := 0
  filldrop : BitVec 16 := 0
  nlost : BitVec 16 := 0
  gref : Bool := false
  ldtaddr : Nat := 0
  ldt : Tbl (BitVec 1024) := []
  rgt : Tbl (BitVec 512) := []
  reps : Tbl RepState := []
  ships : List ShipJob := []
  nextTag : Nat := 0
  nextCid : Nat := 0
  sent : List SentPkt := []
  /-- ordered packets performed: (SRC, TAG, time, the status of its DACK) (R433) -/
  performed : List (Nat × Nat × Nat × Nat) := []
  inq : List Packet := []
  waiting : List Waiting := []
  /-- last start-barrier generation of each (group, member) (R445) -/
  barriers : List (Nat × Nat × Nat) := []
  /-- notices and management responses that reached this chip (R437, R451) -/
  notices : List Packet := []
  responses : List Packet := []
  /-- packets accepted and not performed yet: a WRITE that waits for ownership, a CDONE for its publication, a read of absent lines -/
  pending : List Packet := []
  deriving DecidableEq, Repr

/-- Boot, identity and module registers (R369, R421 to R424, R455). -/
structure Boot where
  held : Bool := false
  stage : Nat := 0
  code : Nat := 0
  measures : List (BitVec 512) := []
  fixsz : Nat := 8
  lcap : Nat := 0
  astOff : Nat := 0
  rootOff : Nat := 0
  retOff : Nat := 0
  fencedDies : BitVec 4 := 0
  fencedCores : List DWord := [0, 0, 0, 0]
  epoch : Nat := 0
  spdm : Bool := false
  ide : Option (BitVec 256) := none
  doe : List (BitVec 512) := []
  deriving DecidableEq, Repr

/-- Which part of the module acts next: one entry of the schedule, which may come from outside (R414). -/
inductive Turn where
  | event (i : Instr)
  | lane (core lane : Nat)
  | tick (clks : Nat)
  deriving DecidableEq, Repr

/-- The whole module. `now` counts clk (R2), `mtime` is the module time in ns when `now` was `mtimeAt` (R421). -/
structure State where
  agenda : List Turn := []
  /-- the lane that issues while an instruction is executed -/
  cursor : Option (Nat × Nat) := none
  now : Nat := 0
  mtime : DWord := 0
  mtimeAt : Nat := 0
  boot : Boot := {}
  /-- the bytes of log space, by position (R294) -/
  log : Memory := []
  /-- poisoned sectors of log space: (sector number, uncorrectable) (R368) -/
  badLog : List (Nat × Bool) := []
  /-- the fixed region (R369) -/
  fixed : Memory := []
  /-- segments of the lost-segment list (R371) -/
  lost : List Nat := []
  /-- context descriptors by ASID (R263) -/
  ctx : Tbl (BitVec 128) := []
  cores : Tbl Core := []
  dies : Tbl Die := []
  writers : Tbl Writer := []
  stks : Tbl Stack := []
  fns : Tbl Fn := []
  launches : Tbl Launch := []
  gangs : Tbl Gang := []
  spans : Tbl Span := []
  copies : Tbl Copy := []
  /-- fills not performed yet, oldest first (R221) -/
  fillq : List FillReq := []
  rootOps : Tbl RootOp := []
  migs : List MigJob := []
  capture : Capture := {}
  fabric : Fabric := {}
  /-- the next name for a launch, gang, span, copy, publication, release set or request of the model -/
  nextId : Nat := 1
  /-- the model's own counter from which free values are drawn (R7) -/
  free : Nat := 0
  deriving DecidableEq, Repr

/-- The module right after reset, with secure boot passed under the boot configuration of log entry 1: every
unit empty, every register zero where the spec gives no other value (R23, R156, R188, R273, R302, R405, R421, R434). -/
def State.reset : State :=
  { boot := { fixsz := 8, lcap := 352 * 2 ^ 30, astOff := 0, rootOff := 0x10000, retOff := 0x20000 } }

end Sys2Proof.Machine
end

