-- ==== Sys2Proof/Machine/Tables.lean ====
section
/-!
DEFINITION. Tables and memories: the one place where a table entry or a byte is read or written.
-/
namespace Sys2Proof.Machine

/-- The entry of a table at a key. -/
def tfind {α : Type} : Tbl α → Nat → Option α
  | [], _ => none
  | (k, x) :: r, i => if k = i then some x else if i < k then none else tfind r i

/-- The entry of a table at a key, or what an unlisted key stands for. -/
def tget {α : Type} (t : Tbl α) (i : Nat) (d : α) : α := (tfind t i).getD d

/-- The table with an entry written, keys kept rising. -/
def tput {α : Type} : Tbl α → Nat → α → Tbl α
  | [], i, x => [(i, x)]
  | (k, y) :: r, i, x =>
    if k = i then (i, x) :: r else if i < k then (i, x) :: (k, y) :: r else (k, y) :: tput r i x

/-- The table without an entry. -/
def tdel {α : Type} (t : Tbl α) (i : Nat) : Tbl α := t.filter (fun p => p.1 ≠ i)

/-- The table with every entry changed. -/
def tmap {α : Type} (f : Nat → α → α) (t : Tbl α) : Tbl α := t.map (fun p => (p.1, f p.1 p.2))

/-- The byte of a memory at an address: zero where the memory lists none. -/
def mget (m : Memory) (a : Nat) : Byte :=
  match m with
  | [] => 0
  | (k, b) :: r => if k = a then b else if a < k then 0 else mget r a

/-- The memory with one byte written, in canonical form. -/
def mput (m : Memory) (a : Nat) (b : Byte) : Memory :=
  match m with
  | [] => if b = 0 then [] else [(a, b)]
  | (k, c) :: r =>
    if k = a then (if b = 0 then r else (a, b) :: r)
    else if a < k then (if b = 0 then (k, c) :: r else (a, b) :: (k, c) :: r)
    else (k, c) :: mput r a b

/-- `n` bytes of a memory from an address on. -/
def mread (m : Memory) (a n : Nat) : List Byte :=
  match n with
  | 0 => []
  | n + 1 => mget m a :: mread m (a + 1) n

/-- The memory with bytes written from an address on. -/
def mwrite (m : Memory) (a : Nat) (l : List Byte) : Memory :=
  match l with
  | [] => m
  | b :: r => mwrite (mput m a b) (a + 1) r

/-- Canonical form: addresses strictly rising, no entry equal to what an unlisted address reads as. -/
def Memory.wf (m : Memory) : Bool :=
  match m with
  | [] => true
  | [(_, b)] => b ≠ 0
  | (k, b) :: (k', b') :: r => b ≠ 0 && decide (k < k') && Memory.wf ((k', b') :: r)

/-- The state of a core; an unlisted core is as at reset. -/
def coreAt (s : State) (c : Nat) : Core := tget s.cores c {}
/-- The state with a core changed. -/
def setCore (s : State) (c : Nat) (x : Core) : State := { s with cores := tput s.cores c x }
/-- A lane of a core; an unlisted lane is as at reset. -/
def laneAt (s : State) (c l : Nat) : Lane := tget (coreAt s c).lanes l {}
/-- The state with a lane changed. -/
def setLane (s : State) (c l : Nat) (x : Lane) : State :=
  let k := coreAt s c
  setCore s c { k with lanes := tput k.lanes l x }
/-- A die; an unlisted die is as at reset. -/
def dieAt (s : State) (d : Nat) : Die := tget s.dies d {}
/-- The state with a die changed. -/
def setDie (s : State) (d : Nat) (x : Die) : State := { s with dies := tput s.dies d x }
/-- A writer of log space (R287). -/
def writerAt (s : State) (w : Nat) : Writer := tget s.writers w {}
/-- The state with a writer changed. -/
def setWriter (s : State) (w : Nat) (x : Writer) : State := { s with writers := tput s.writers w x }
/-- A memory stack (R365). -/
def stackAt (s : State) (k : Nat) : Stack := tget s.stks k {}
/-- The state with a stack changed. -/
def setStack (s : State) (k : Nat) (x : Stack) : State := { s with stks := tput s.stks k x }
/-- A function's window (R405). -/
def fnAt (s : State) (f : Nat) : Fn := tget s.fns f {}
/-- The state with a function's window changed. -/
def setFn (s : State) (f : Nat) (x : Fn) : State := { s with fns := tput s.fns f x }
/-- A gang by its name in the model. -/
def gangAt (s : State) (g : Nat) : Gang := tget s.gangs g {}
/-- The state with a gang changed. -/
def setGang (s : State) (g : Nat) (x : Gang) : State := { s with gangs := tput s.gangs g x }
/-- A group of a gang, by gang group index (R238). -/
def groupAt (s : State) (g i : Nat) : Group := tget (gangAt s g).groups i {}
/-- The state with a group changed. -/
def setGroup (s : State) (g i : Nat) (x : Group) : State :=
  let k := gangAt s g
  setGang s g { k with groups := tput k.groups i x }
/-- The item at a home position of a group, if a live item or helper stands there. -/
def itemIn (x : Group) (p : Nat) : Option Item := tfind x.items p
/-- The item at a home position. -/
def itemAt (s : State) (g i p : Nat) : Item := tget (groupAt s g i).items p {}
/-- The group with an item changed. -/
def groupSetItem (x : Group) (p : Nat) (t : Item) : Group := { x with items := tput x.items p t }
/-- The state with an item changed. -/
def setItem (s : State) (g i p : Nat) (t : Item) : State := setGroup s g i (groupSetItem (groupAt s g i) p t)
/-- A span by its name in the model. -/
def spanAt (s : State) (i : Nat) : Span := tget s.spans i {}
/-- The state with a span changed. -/
def setSpan (s : State) (i : Nat) (x : Span) : State := { s with spans := tput s.spans i x }

/-- A name not used before, and the state that has used it. -/
def newName (s : State) : Nat × State := (s.nextId, { s with nextId := s.nextId + 1 })

/-- The die a core belongs to: 64 cores per die (R1). -/
def dieOf (core : Nat) : Nat := core / 64
/-- The cluster of a core, which is its writer's WID: 8·die + cluster (R1, R287). -/
def clusterOf (core : Nat) : Nat := core / 8

/-- Whether a compute die works: boot configuration fences it or not (R455). -/
def dieWorks (s : State) (d : Nat) : Bool := decide (d < 4) && !s.boot.fencedDies.getLsbD d
/-- The working dies, lowest first (R455). -/
def workingDies (s : State) : List Nat := (upTo 0 4).filter (dieWorks s)
/-- Whether a core works (R455). -/
def coreWorks (s : State) (c : Nat) : Bool :=
  dieWorks s (dieOf c) && !(nth s.boot.fencedCores (dieOf c) 0).getLsbD (c % 64)
/-- The lead core of a die: its lowest-numbered core that is not fenced (R158). -/
def leadCore (s : State) (d : Nat) : Nat :=
  match (upTo (64 * d) 64).filter (coreWorks s) with
  | c :: _ => c
  | [] => 64 * d

/-- Module time in ns as it stands: 1/0.7 ns a clk at the nominal clock (R2, R421). -/
def moduleTime (s : State) : DWord := s.mtime + BitVec.ofNat 64 ((s.now - s.mtimeAt) * 10 / 7)

/-- One microsecond in clk at the nominal clock (R2, R3). -/
def usec (n : Nat) : Nat := 700 * n

/-- One event counted in a core's counts, 48 bits (R156, R279). -/
def count (s : State) (core code n : Nat) : State :=
  let k := coreAt s core
  setCore s core { k with perf := tput k.perf code ((tget k.perf code 0 + n) % 2 ^ 48) }

/-- A four-entry log with an entry added at the lowest free place, or its overflow flag set (R255). -/
def logAdd (l : ErrLog) (places : Nat) (e : DWord) : ErrLog :=
  match (upTo 0 places).filter (fun i => !(tget l.entries i 0).getLsbD 63) with
  | i :: _ => { l with entries := tput l.entries i (e ||| (1#64 <<< 63)) }
  | [] => { l with ovf := true }

/-- A free value of the given width, and the state that has used it (R7). -/
def fresh (f : Nat → Word) (s : State) : Word × State := (f s.free, { s with free := s.free + 1 })

/-- A vector raised for a function: two raises before it is sent are one (R415). -/
def raiseMsix (s : State) (f v : Nat) : State :=
  let x := fnAt s f
  if x.msix.contains v then s else setFn s f { x with msix := x.msix ++ [v] }

end Sys2Proof.Machine
end

