-- ==== Sys2Proof/Machine/Records.lean ====
section
/-!
DEFINITION. The records of log space (spec 14_cluster_logs_and_publication.md): positions, segment headers, summaries,
maps, nodes, root entries, intents and commit records as bytes, CRC-32C, and the block encodings of R293.
-/
namespace Sys2Proof.Machine

/-- One bit step of the reflected CRC-32C. -/
def crcBit (c : BitVec 32) : BitVec 32 :=
  if c.getLsbD 0 then (c >>> 1) ^^^ 0x82F63B78#32 else c >>> 1

/-- One byte of CRC-32C. -/
def crcByte (c : BitVec 32) (b : Byte) : BitVec 32 :=
  let c := c ^^^ b.setWidth 32
  crcBit (crcBit (crcBit (crcBit (crcBit (crcBit (crcBit (crcBit c)))))))

/-- CRC-32C of a list of bytes: reflected, initial value and final exclusive-or all ones (PRESUMED, the
standard's parameters: log entry 24). -/
def crc32c (l : List Byte) : BitVec 32 := (l.foldl crcByte 0xFFFFFFFF#32) ^^^ 0xFFFFFFFF#32

/-- A log position from its fields (R294). -/
def mkPos (stk six off len : Nat) : Nat := stk * 2 ^ 37 + six * 2 ^ 20 + off * 8 + len
/-- STK of a position (R294). -/
def posStk (p : Nat) : Nat := bits p 39 37
/-- SIX of a position (R294). -/
def posSix (p : Nat) : Nat := bits p 33 20
/-- OFF of a position (R294). -/
def posOff (p : Nat) : Nat := bits p 19 3
/-- LEN of a position (R294). -/
def posLen (p : Nat) : Nat := bits p 2 0

/-- Sectors of a segment (R295). -/
def segSectors : Nat := 131072
/-- First data sector of a segment (R295). -/
def segData : Nat := 16385
/-- The segment's place among all segments of the module, stack by stack (R369). -/
def segIndex (stk six : Nat) : Nat := stk * 16384 + six
/-- The segment number of 20 bits (R294). -/
def segNumber (stk six : Nat) : Nat := stk * 2 ^ 17 + six
/-- The number of a sector in log space. -/
def sectorNo (stk six off : Nat) : Nat := segIndex stk six * segSectors + off
/-- The sector a position names. -/
def posSector (p : Nat) : Nat := sectorNo (posStk p) (posSix p) (posOff p)

/-- The bytes that a queued APPEND of a stack holds for a sector, if one does (R365). -/
def queuedSector (reqs : List StackReq) (sec : Nat) : Option (List Byte) :=
  match reqs with
  | [] => none
  | .append _ _ pos data :: r =>
    if posSector pos ≤ sec ∧ sec < posSector pos + data.length / 32 then
      some ((data.drop ((sec - posSector pos) * 32)).take 32)
    else queuedSector r sec
  | _ :: r => queuedSector r sec

/-- One sector of log space as its base die answers it (R366). -/
def sectorBytes (s : State) (sec : Nat) : List Byte :=
  match queuedSector (stackAt s (sec / (16384 * segSectors))).reqs sec with
  | some b => b
  | none => mread s.log (sec * 32) 32

/-- `n` sectors of log space. -/
def sectorsBytes (s : State) (sec n : Nat) : List Byte :=
  match n with
  | 0 => []
  | n + 1 => sectorBytes s sec ++ sectorsBytes s (sec + 1) n

/-- A sector is poisoned: uncorrectable, or in a lost segment (R368, R371). -/
def sectorBad (s : State) (sec : Nat) : Bool :=
  s.badLog.any (fun p => p.1 = sec && p.2) || s.lost.contains (sec / segSectors)

/-- Some sector of a range is poisoned. -/
def sectorsBad (s : State) (sec n : Nat) : Bool := (upTo sec n).any (sectorBad s)

/-- A five-byte position field (R294). -/
def posBytes (p : Nat) : List Byte := toBytes 5 p

/-- The segment header (R296). -/
def segHeader (epoch chain prev seg wid ty chip : Nat) : List Byte :=
  let low := toBytes 28 (0x474C5853 * 2 ^ 192 + (epoch % 2 ^ 32) * 2 ^ 160 + (chain % 2 ^ 32) * 2 ^ 128 +
    prev * 2 ^ 108 + seg * 2 ^ 88 + wid * 2 ^ 82 + ty * 2 ^ 78 + (chip % 2 ^ 14) * 2 ^ 64 + 1 * 2 ^ 56)
  low ++ wordBytes (crc32c low)

/-- The log type of a writer (R287). -/
def writerType (wid : Nat) : Nat :=
  if wid < 32 then 0 else if wid < 36 then 1 else if wid < 40 then 2 else if wid < 44 then 3 else 4

/-- A summary entry (R297). -/
def summaryEntry (kind asid scnt off key start : Nat) (cmp : Bool) (crc : Word) : List Byte :=
  toBytes 16 (kind * 2 ^ 125 + asid * 2 ^ 113 + scnt * 2 ^ 101 + off * 2 ^ 84 + key * 2 ^ 36 + start * 2 ^ 33 +
    ofBool cmp * 2 ^ 32 + crc.toNat)

/-- The root-table entry of an ASID (R302). -/
structure RootEntry where
  root : Nat
  crec : Nat
  seq : Nat
  deriving DecidableEq, Repr

/-- The root-table entry of an ASID as the fixed region holds it (R302). -/
def rootEntry (s : State) (asid : Nat) : RootEntry :=
  let v := ofBytes (mread s.fixed (s.boot.rootOff + 16 * asid) 16)
  { root := bits v 39 0, crec := bits v 79 40, seq := bits v 127 80 }

/-- The bytes of a root-table entry (R302). -/
def rootBytes (e : RootEntry) : List Byte := toBytes 16 (e.seq * 2 ^ 80 + e.crec * 2 ^ 40 + e.root)

/-- A slot of the retained-root table (R377): valid, sequence, root. -/
def retained (s : State) (asid slot : Nat) : Bool × Nat × Nat :=
  let v := ofBytes (mread s.fixed (s.boot.retOff + 16 * (8 * asid + slot)) 16)
  (bit v 127, bits v 87 40, bits v 39 0)

/-- The fixed region with a retained-root slot written (R377). -/
def setRetained (s : State) (asid slot : Nat) (valid : Bool) (seq root : Nat) : State :=
  let rec16 := toBytes 16 (ofBool valid * 2 ^ 127 + seq * 2 ^ 40 + root)
  { s with fixed := mwrite s.fixed (s.boot.retOff + 16 * (8 * asid + slot)) rec16 }

/-- The bytes of a sub-page map (R300). -/
def mapBytes (gen lpn sub asid ck : Nat) (blens : Nat) (pos : List Nat) : List Byte :=
  let h := toBytes 60 (gen * 2 ^ 432 + lpn * 2 ^ 396 + sub * 2 ^ 392 + asid * 2 ^ 380 + ck * 2 ^ 377 + blens * 2 ^ 256)
  let b := pos.flatMap posBytes
  h ++ wordBytes (crc32c (h ++ b)) ++ b

/-- The bytes of a path node (R301). -/
def nodeBytes (gen asid level pre : Nat) (kids : List Nat) : List Byte :=
  let h := toBytes 60 (gen * 2 ^ 432 + asid * 2 ^ 420 + level * 2 ^ 417 + pre * 2 ^ 385)
  let b := kids.flatMap posBytes
  h ++ wordBytes (crc32c (h ++ b)) ++ b

/-- The 64-byte header of a map or node, as a number, when its CRC holds and no sector of it is poisoned
(R300, R301, R302). -/
def indexRecord (s : State) (pos sectors : Nat) : Option (Nat × List Byte) :=
  let l := sectorsBytes s (posSector pos) sectors
  let h := ofBytes (l.take 64)
  if sectorsBad s (posSector pos) sectors then none
  else if BitVec.ofNat 32 (bits h 511 480) ≠ crc32c (l.take 60 ++ l.drop 64) then none
  else some (h, l.drop 64)

/-- The fields of a sub-page map (R300). -/
structure MapRec where
  gen : Nat
  ck : Nat
  pos : List Nat
  deriving DecidableEq, Repr

/-- Five-byte positions of a byte list. -/
def positions (n : Nat) (l : List Byte) : List Nat :=
  match n with
  | 0 => []
  | n + 1 => ofBytes (l.take 5) :: positions n (l.drop 5)

/-- The sub-page map at a position; none when it is uncorrectable (R300, R302). -/
def readMap (s : State) (pos : Nat) : Option MapRec :=
  match indexRecord s pos 22 with
  | none => none
  | some (h, b) =>
    if bits h 376 320 ≠ 0 ∨ bits h 255 0 ≠ 0 then none
    else some { gen := bits h 479 432, ck := bits h 379 377, pos := positions 128 b }

/-- The fields of a path node (R301). -/
structure NodeRec where
  gen : Nat
  kids : List Nat
  deriving DecidableEq, Repr

/-- The path node at a position; none when it is uncorrectable (R301, R302). -/
def readNode (s : State) (pos : Nat) : Option NodeRec :=
  match indexRecord s pos 42 with
  | none => none
  | some (h, b) =>
    if bits h 384 0 ≠ 0 ∨ bits h 419 417 > 4 then none
    else some { gen := bits h 479 432, kids := positions 256 b }

/-- The child index of a 40-bit key at a level (R299). -/
def kidIndex (key level : Nat) : Nat := bits key (39 - 8 * level) (32 - 8 * level)
/-- The key bits above a node's level, right-aligned (R301). -/
def kidPrefix (key level : Nat) : Nat := if level = 0 then 0 else key / 2 ^ (40 - 8 * level)

/-- What the index answers for a sub-page. -/
inductive Found where
  /-- null child: every sector reads zero; the GEN of the deepest node read (R299, R335) -/
  | null (gen : Nat)
  /-- the map's position and the map -/
  | map (pos : Nat) (m : MapRec)
  /-- a node or the map is uncorrectable (R302) -/
  | poison
  deriving DecidableEq, Repr

/-- Walk from a node position down to the map of a key; `n` levels remain (R299). -/
def walkIndex (s : State) (key n pos gen : Nat) : Found :=
  if pos = 0 then .null gen
  else match n with
    | 0 =>
      match readMap s pos with
      | some m => .map pos m
      | none => .poison
    | n + 1 =>
      match readNode s pos with
      | some r => walkIndex s key n (nth r.kids (kidIndex key (4 - n)) 0) r.gen
      | none => .poison

/-- The map of a sub-page key under a root (R299). -/
def underRoot (s : State) (root key : Nat) : Found := walkIndex s key 5 root 0

/-- Bits packed low first into bytes (R51, R293): a value with its width. -/
def packBits (l : List (Nat × Nat)) : Nat :=
  match l with
  | [] => 0
  | (w, v) :: r => v % 2 ^ w + 2 ^ w * packBits r

/-- The words of a 256-byte block. -/
def blockWords (b : List Byte) : List Nat :=
  (upTo 0 64).map (fun i => ofBytes ((b.drop (4 * i)).take 4))

/-- The smallest two's-complement width that holds every delta of a plane: 0 when all are zero (R293). -/
def planeWidth (ds : List Int) : Nat :=
  let fits (w : Nat) : Bool := ds.all (fun d => decide (-(2 ^ (w - 1) : Int) ≤ d ∧ d ≤ 2 ^ (w - 1) - 1))
  if ds.all (· = 0) then 0 else ((upTo 1 8).filter fits).headD 8

/-- Differences of neighbours modulo 256, read as signed bytes (R293). -/
def deltas : List Nat → List Int
  | a :: b :: r => signed 8 (b + 256 - a) :: deltas (b :: r)
  | _ => []

/-- Two's complement of a delta in a width. -/
def twos (w : Nat) (d : Int) : Nat := (BitVec.ofInt w d).toNat

/-- The image of a block as whole sectors, or none when it needs eight (R293). -/
def imageOf (nbits v : Nat) : Option (List Byte) :=
  let n := ceilDiv nbits 256
  if n ≥ 8 then none else some (toBytes (32 * n) v)

/-- The encoded image of a 256-byte block under a compression kind: raw when no encoding is used (R293). -/
def encodeBlock (ck : Nat) (b : List Byte) : List Byte :=
  let ws := blockWords b
  let w0 := nth ws 0 0
  match ck with
  | 1 => if ws.all (· = w0) then toBytes 32 w0 else b
  | 2 =>
    let plane (j : Nat) := deltas (ws.map (fun w => bits w (8 * j + 7) (8 * j)))
    let ds := (upTo 0 4).map plane
    let widths := ds.map planeWidth
    let head := [(16, packBits (widths.map (fun w => (4, w)))), (16, 0), (32, w0)]
    let body := (upTo 0 4).flatMap (fun j =>
      (nth ds j []).map (fun d => (nth widths j 0, twos (nth widths j 0) d)))
    let l := head ++ body
    (imageOf ((l.map Prod.fst).foldl (· + ·) 0) (packBits l)).getD b
  | 3 =>
    let hs := ws.flatMap (fun w => [bits w 15 0, bits w 31 16])
    let es := hs.map (fun h => bits h 14 7)
    let qs := hs.map (fun h => ofBool (bit h 15) * 128 + bits h 6 0)
    let ds := deltas es
    let w := planeWidth ds
    let body := 127 * w
    let pad := (32 - body % 32) % 32
    let l := [(4, w), (28, 0), (8, nth es 0 0), (24, 0)] ++ ds.map (fun d => (w, twos w d)) ++ [(pad, 0)] ++
      qs.map (fun q => (8, q))
    (imageOf ((l.map Prod.fst).foldl (· + ·) 0) (packBits l)).getD b
  | _ => b

/-- Running sums modulo 256 of deltas read from a bit string. -/
def unDelta (start w : Nat) (v n : Nat) : List Nat :=
  match n with
  | 0 => [start]
  | n + 1 =>
    let d := if w = 0 then 0 else signed w v
    start :: unDelta (((start : Int) + d) % 256).toNat w (v / 2 ^ w) n

/-- The 256-byte block of an image: raw when the image has eight sectors (R293). -/
def decodeBlock (ck : Nat) (img : List Byte) : List Byte :=
  if img.length ≥ 256 then img.take 256
  else
    let v := ofBytes img
    match ck with
    | 1 => (upTo 0 64).flatMap (fun _ => img.take 4)
    | 2 =>
      let widths := (upTo 0 4).map (fun j => min (bits v (4 * j + 3) (4 * j)) 8)
      let starts := (upTo 0 4).map (fun j => 64 + 63 * ((widths.take j).foldl (· + ·) 0))
      let w0 := bits v 63 32
      let planes := (upTo 0 4).map (fun j =>
        unDelta (bits w0 (8 * j + 7) (8 * j)) (nth widths j 0) (v / 2 ^ nth starts j 0) 63)
      (upTo 0 64).flatMap (fun n => (upTo 0 4).map (fun j => BitVec.ofNat 8 (nth (nth planes j []) n 0)))
    | 3 =>
      let w := min (bits v 3 0) 8
      let es := unDelta (bits v 39 32) w (v / 2 ^ 64) 127
      let body := 127 * w
      let q0 := 64 + body + (32 - body % 32) % 32
      (upTo 0 128).flatMap (fun n =>
        let q := bits v (q0 + 8 * n + 7) (q0 + 8 * n)
        toBytes 2 (ofBool (bit q 7) * 2 ^ 15 + nth es n 0 * 128 + bits q 6 0))
    | _ => img ++ (upTo 0 (256 - img.length)).map (fun _ => 0)

end Sys2Proof.Machine
end

