-- ==== Sys2Proof/Machine/Log.lean ====
section
/-!
DEFINITION. Log memory (spec 14_cluster_logs_and_publication.md): ownership, tail buffers, appends, publications and commits.
A sector key is LPN::SUB::sector as one number; a sub-page key is LPN::SUB.
-/
namespace Sys2Proof.Machine

/-- Home die of a page (R322). -/
def homeDie (asid lpn : Nat) : Nat := (lpn % 4) ^^^ (asid % 4)
/-- Home slice of a page (R322). -/
def homeSlice (asid lpn : Nat) : Nat := bits lpn 6 2 ^^^ bits asid 6 2
/-- Commit die of an ASID: die a[1:0], or the next working die (R314). -/
def commitDie (s : State) (asid : Nat) : Nat :=
  (((upTo 0 4).map (fun i => (asid + i) % 4)).filter (dieWorks s)).headD (asid % 4)
/-- The die whose index and translation serve a writer (R287). -/
def writerDie (wid : Nat) : Nat :=
  if wid < 32 then wid / 8 else if wid < 44 then wid % 4 else (wid - 48) / 2

/-- The ownership entry of a page, all clear when the home slice holds none (R303). -/
def ownEntry (s : State) (asid lpn : Nat) : OwnEntry :=
  ((dieAt s (homeDie asid lpn)).own.find? (fun e => e.asid = asid && e.lpn = lpn)).getD
    { asid, lpn, owned := 0, sown := List.replicate 16 0 }

/-- The state with a page's ownership entry written (R303). -/
def setOwn (s : State) (e : OwnEntry) : State :=
  let h := homeDie e.asid e.lpn
  let d := dieAt s h
  setDie s h { d with own := e :: d.own.filter (fun x => !(x.asid = e.asid && x.lpn = e.lpn)) }

/-- The owner of a sub-page (R303). -/
def ownerOf (s : State) (asid sub : Nat) : Option Nat :=
  let e := ownEntry s asid (sub / 16)
  if e.owned.getLsbD (sub % 16) then some (nth e.sown (sub % 16) 0) else none

/-- The state with a sub-page given to a writer. -/
def giveSub (s : State) (asid sub wid : Nat) : State :=
  let e := ownEntry s asid (sub / 16)
  setOwn s { e with owned := e.owned ||| (1#16 <<< (sub % 16)), sown := setNth e.sown (sub % 16) 0 wid }

/-- A writer that takes no request: fettlers and commit units hold no ownership (R287, R308). -/
def ownerless (wid : Nat) : Bool := decide (40 ≤ wid)

/-- A writer of an atomic unit (R287). -/
def atomicWriter (wid : Nat) : Bool := decide (32 ≤ wid) && decide (wid < 36)

/-- A writer is to publish an ASID within 5 µs: a request waits for it (R305). -/
def wantFrom (s : State) (wid asid : Nat) : State :=
  let w := writerAt s wid
  if w.wanted.any (fun x => x.1 = asid) then s else setWriter s wid { w with wanted := w.wanted ++ [(asid, s.now)] }

/-- The queued requests for a sub-page wait for its new owner's next publication (R305, R307). -/
def reopenRequests (s : State) (asid sub wid : Nat) : State :=
  let h := homeDie asid (sub / 16)
  let d := dieAt s h
  let here (q : OwnReq) : Bool := q.asid = asid && q.lpn = sub / 16 && q.sub = sub % 16
  if d.ownq.any here then
    wantFrom (setDie s h { d with ownq := d.ownq.map (fun q => if here q then { q with pub := none } else q) }) wid asid
  else s

/-- A writer's request for a sub-page is queued. -/
def requested (s : State) (wid asid sub : Nat) : Bool :=
  (dieAt s (homeDie asid (sub / 16))).ownq.any (fun r => r.asid = asid && r.lpn * 16 + r.sub = sub && r.wid = wid)

/-- A writer's request for a sub-page that it does not own: queued at the home slice, once, and the owner is to publish (R305). -/
def requestSub (s : State) (wid asid sub : Nat) : State :=
  if requested s wid asid sub then s
  else
    let h := homeDie asid (sub / 16)
    let d := dieAt s h
    let s := setDie s h { d with ownq := d.ownq ++ [{ asid, lpn := sub / 16, sub := sub % 16, wid }] }
    match ownerOf s asid sub with
    | none => s
    | some o => wantFrom s o asid

/-- The sub-page asked for by a write: the whole page when nobody owns it (R304), at once by an atomic unit (R307);
the answer says whether the writer now owns it. -/
def claim (s : State) (wid asid sub : Nat) : Bool × State :=
  let e := ownEntry s asid (sub / 16)
  if ownerless wid then (true, s)
  else if e.owned = 0 then (true, setOwn s { e with owned := 0xFFFF, sown := List.replicate 16 wid })
  else match ownerOf s asid sub with
    | none => (true, giveSub s asid sub wid)
    | some o =>
      if o = wid then (true, s)
      else if atomicWriter wid then
        -- the previous owner keeps what it holds, and must ask again before it can publish it
        let w := writerAt s o
        let s := setWriter s o { w with
          tail := w.tail.map (fun t => if t.asid = asid && t.key / 128 = sub then { t with st := .wait } else t) }
        (true, reopenRequests (giveSub s asid sub wid) asid sub wid)
      else (false, s)

/-- The bytes of a 256-bit sector. -/
def sectorList (d : BitVec 256) : List Byte := toBytes 32 d.toNat

/-- A tail entry's data with bytes laid in from an offset on, and its mask (R289). -/
def layBytes (d : BitVec 256) (m : BitVec 32) (off : Nat) (l : List Byte) : BitVec 256 × BitVec 32 :=
  match l with
  | [] => (d, m)
  | b :: r =>
    let d' := (d &&& ~~~(0xFF#256 <<< (8 * off))) ||| (b.setWidth 256 <<< (8 * off))
    layBytes d' (m ||| (1#32 <<< off)) (off + 1) r

/-- The bits that no store has written in the bytes under a mask, after a write of bytes from an offset on of which only the
bits of `bm` count, or all where `bm` is empty (R213). -/
def thinAfter (m : BitVec 32) (thin : BitVec 256) (off : Nat) (bm : List Byte) : Nat → BitVec 256
  | 0 => thin
  | n + 1 =>
    let j := off + n
    let b : Byte := if bm.isEmpty then 0xFF else nth bm n 0
    let old : Byte := if m.getLsbD j then (thin >>> (8 * j)).setWidth 8 else 0xFF
    (thinAfter m thin off bm n &&& ~~~(0xFF#256 <<< (8 * j))) ||| ((old &&& ~~~b).setWidth 256 <<< (8 * j))

/-- The tail entry that a writer would merge a write into: none while it is being appended. -/
def openTail (w : Writer) (asid key : Nat) : Option TailEntry :=
  w.tail.find? (fun t => t.asid = asid && t.key = key && t.st ≠ .appending)

/-- A write into a writer's tail buffer (R289): merged into its sector's entry or put into a new one; none when all
65,536 entries are in use. An entry that waits for its sub-page has asked for it (R289, R305); an atomic unit takes the sub-page
at once (R307). `tick` stays that of the entry's first write. Of the bytes only the bits of `bm` are written, or all where it is
empty (R213). The dirty filters of migrations see it (R389). -/
def tailWrite (s : State) (wid asid key off ck : Nat) (l : List Byte) (bm : List Byte := []) : Option State :=
  let s := { s with migs := s.migs.map (fun j =>
    if j.asid = asid && j.lpn = key / 2048 then { j with dirty := nodup (key % 2048 :: j.dirty) } else j) }
  match openTail (writerAt s wid) asid key with
  | some t =>
    let (mine, s) := if t.st = .wait && atomicWriter wid then claim s wid asid (key / 128) else (false, s)
    let w := writerAt s wid
    let (d, m) := layBytes t.data t.mask off l
    some (setWriter s wid { w with
      tick := w.tick + 1
      tail := w.tail.map (fun x => if x = t then
        { t with data := d, mask := m, st := if mine then .open else t.st, poison := t.poison && l.length ≠ 32
                 thin := thinAfter t.mask t.thin off bm l.length } else x) })
  | none =>
    if (writerAt s wid).tail.length ≥ 65536 then none
    else
      let (mine, s) := claim s wid asid (key / 128)
      let s := if mine then s else requestSub s wid asid (key / 128)
      let w := writerAt s wid
      let (d, m) := layBytes 0 0 off l
      some (setWriter s wid { w with
        tick := w.tick + 1
        tail := w.tail ++ [{ asid, key, data := d, mask := m, st := if mine then .open else .wait
                             born := s.now, tick := w.tick, ck, thin := thinAfter 0 0 off bm l.length }] })

/-- The position of a sector that a pending record or an intent in flight holds, newest first, with the compression
kind of its page (R290). -/
def heldPos (w : Writer) (asid key : Nat) : Option (Nat × Nat) :=
  let j := key % 128
  let sub := key / 128
  let ofPend := w.pend.findSome? (fun p =>
    if p.asid = asid && p.sub = sub then (tfind p.pos j).map (fun x => (x, p.ck)) else none)
  let ofPubs := w.pubs.reverse.findSome? (fun p =>
    if p.asid = asid && !p.rel then
      p.recs.findSome? (fun (b, ck, l) => if b = sub then
        (l.find? (fun (i, _, _) => i = j)).map (fun (_, _, n) => (n, ck)) else none)
    else none)
  match ofPend with
  | some x => some x
  | none => ofPubs

/-- The bytes of a sector stored at a position, and whether they are poisoned (R292, R293). -/
def storedSector (s : State) (ck pos key : Nat) : List Byte × Bool :=
  if pos = 0 then (List.replicate 32 0, false)
  else if ck = 0 then (sectorBytes s (posSector pos), sectorBad s (posSector pos))
  else
    let n := posLen pos + 1
    (((decodeBlock ck (sectorsBytes s (posSector pos) n)).drop (32 * (key % 8))).take 32,
      sectorsBad s (posSector pos) n)

/-- Stored lengths of a map's blocks as nibbles (R300). -/
def blensOf (ck : Nat) (pos : List Nat) : Nat :=
  packBits ((upTo 0 16).map (fun b => (4, if ck = 0 then 7 else
    let p := nth pos (8 * b) 0
    if p = 0 then 7 else posLen p)))

/-- The index slice of a sub-page (R322). -/
def mapSlice (lpn sub : Nat) : Nat := lpn % 32 ^^^ sub

/-- The deepest path node on the way to a sub-page that the sub-page's index slice holds (R322, R335). -/
def nodeAt (d : Die) (asid key : Nat) : Option NodeEntry :=
  (upTo 0 5).reverse.findSome? (fun l => d.nodes.find? (fun n =>
    n.asid = asid && n.level = l && n.pre = kidPrefix key l && n.slice = mapSlice (key / 16) (key % 16)))

/-- Where a refill starts: the deepest cached node, else the root entry's; as the levels left and a position (R335). -/
def refillStart (s : State) (die asid key : Nat) : Nat × Nat :=
  match nodeAt (dieAt s die) asid key with
  | some n => (5 - n.level, n.pos)
  | none => (5, (rootEntry s asid).root)

/-- What a die's index answers for a sub-page: its cached map, or a walk from cached path nodes or the root entry (R335). -/
def indexFind (s : State) (die asid sub : Nat) : Found :=
  match (dieAt s die).maps.find? (fun e => e.asid = asid && e.lpn * 16 + e.sub = sub) with
  | some e =>
    match readMap s e.pos with
    | some m => .map e.pos m
    | none => .poison
  | none => walkIndex s sub (refillStart s die asid sub).1 (refillStart s die asid sub).2 0

/-- Path nodes that a refill reads: levels with positions. -/
def pathRead (s : State) (key : Nat) : Nat → Nat → List (Nat × Nat)
  | 0, _ => []
  | n + 1, pos =>
    if pos = 0 then []
    else match readNode s pos with
      | some r => (4 - n, pos) :: pathRead s key n (nth r.kids (kidIndex key (4 - n)) 0)
      | none => []

/-- BLENS of the map of a sub-page under an address space's root, 0x7777_7777_7777_7777 for a missing one (R300). -/
def mapLens (s : State) (asid key : Nat) : Nat :=
  match walkIndex s key 5 (rootEntry s asid).root 0 with
  | .map _ m => blensOf m.ck m.pos
  | _ => 0x7777777777777777

/-- The length sidecar of a page (R300). -/
def sidecarOf (s : State) (asid lpn : Nat) : Sidecar :=
  { asid, lpn, lens := BitVec.ofNat 1024 (packBits ((upTo 0 16).map (fun i => (64, mapLens s asid (16 * lpn + i))))) }

/-- A full list gives up one element of the cache's choosing (R322, R330, R331). -/
def giveUp {α : Type} (seed cap : Nat) (l : List α) : List α :=
  if l.length < cap then l else l.eraseIdx (Config.victim seed % l.length)

/-- An element joins the front of a cache of a capacity among those of its place. -/
def cacheIn {α : Type} (seed cap : Nat) (here : α → Bool) (x : α) (l : List α) : List α :=
  x :: (giveUp seed cap (l.filter here) ++ l.filter (fun e => !here e))

/-- The state in which a die's index cache holds what a lookup found: the map, the path nodes read, and for a page with
compression its length sidecar (R322, R335, R336). -/
def indexFill (s : State) (die asid sub : Nat) (f : Found) : State :=
  let d := dieAt s die
  let slice := mapSlice (sub / 16) (sub % 16)
  if d.maps.any (fun e => e.asid = asid && e.lpn * 16 + e.sub = sub) then s
  else
    let start := refillStart s die asid sub
    let new := ((pathRead s sub start.1 start.2).map (fun (l, pos) =>
      ({ asid, level := l, pre := kidPrefix sub l, pos, slice } : NodeEntry))).filter (fun n => !d.nodes.contains n)
    let nodes := new.foldl (fun l n => cacheIn s.free 128 (fun e => e.slice = slice) n l) d.nodes
    match f with
    | .map pos m =>
      let map : MapEntry := { asid, lpn := sub / 16, sub := sub % 16, pos, gen := m.gen, poisoned := false }
      let sides := if m.ck = 0 || d.sides.any (fun x => x.asid = asid && x.lpn = sub / 16) then d.sides
        else sidecarOf s asid (sub / 16) :: d.sides
      setDie s die { d with maps := cacheIn s.free 512 (fun e => mapSlice e.lpn e.sub = slice) map d.maps, nodes, sides }
    | .null _ => setDie s die { d with nodes }
    | .poison => s

/-- The data slice of a line's position (R322). -/
def lineSlice (pos : Nat) : Nat := posOff pos / 4 % 32 ^^^ posSix pos % 32

/-- Lines of a die's slice that hold ordinary data when every other place is free: 16 ways of 2,048 sets less the pinned lines
(R340). -/
def sliceRoom (d : Die) : Nat := 32768 - (d.spads.map (fun p => p.lines / 32)).foldl (· + ·) 0

/-- The line that holds a stored position: four aligned sectors of an extent, or an expanded block (R322, R335). -/
def lineOfPos (ck pos asid key : Nat) : DataLine :=
  if ck = 0 then { pos := mkPos (posStk pos) (posSix pos) (posOff pos / 4 * 4) 0, expanded := false, asid, key }
  else { pos, expanded := true, asid, key }

/-- A data slice of a die fetches the line of a position that it does not hold (R322, R335, R340). -/
def fetchLine (s : State) (die ck pos asid key : Nat) : State :=
  let d := dieAt s die
  let x := lineOfPos ck pos asid key
  if pos = 0 || d.lines.any (fun e => e.pos = x.pos && e.expanded = x.expanded) then s
  else setDie s die { d with lines := cacheIn s.free (sliceRoom d) (fun e => lineSlice e.pos = lineSlice x.pos) x d.lines }

/-- Pinning evicts ordinary lines at once (R340): what no longer fits a slice goes. -/
def trimLines (d : Die) : Die :=
  { d with lines := (upTo 0 32).flatMap (fun i => (d.lines.filter (fun e => lineSlice e.pos = i)).take (sliceRoom d)) }

/-- A sector as something read it: bytes, poison, and the GEN of the map that located it (R317). -/
structure SectorRead where
  data : List Byte
  bad : Bool
  gen : Nat
  /-- bytes of a poisoned sector that a store has covered since (R217) -/
  cover : BitVec 32 := 0
  deriving DecidableEq, Repr

/-- The published version of a sector that an index answer locates (R335). -/
def foundSector (s : State) (f : Found) (key : Nat) : SectorRead :=
  match f with
  | .null g => { data := List.replicate 32 0, bad := false, gen := g }
  | .poison => { data := List.replicate 32 0, bad := true, gen := 0 }
  | .map _ m =>
    let r := storedSector s m.ck (nth m.pos (key % 128) 0) key
    { data := r.1, bad := r.2, gen := m.gen }

/-- The base version of a sector for a writer: the newest position it holds, or the published version (R290). -/
def baseSector (s : State) (wid die asid key : Nat) : SectorRead :=
  let w := writerAt s wid
  match heldPos { w with pubs := w.pubs.filter (fun p => !p.acked.contains (writerDie wid)) } asid key with
  | some (p, ck) =>
    let r := storedSector s ck p key
    { data := r.1, bad := r.2, gen := 0 }
  | none => foundSector s (indexFind s die asid (key / 128)) key

/-- Bytes laid over a base under a byte mask (R290), but for the bits that no store has written (R213). -/
def overlay (base : List Byte) (d : BitVec 256) (m : BitVec 32) (thin : BitVec 256) : List Byte :=
  (upTo 0 32).map (fun i =>
    let t : Byte := (thin >>> (8 * i)).setWidth 8
    let b : Byte := (d >>> (8 * i)).setWidth 8
    if m.getLsbD i then (b &&& ~~~t) ||| (nth base i 0 &&& t) else nth base i 0)

/-- Bytes that a tail entry holds whole. -/
def wholeBytes (m : BitVec 32) (thin : BitVec 256) : BitVec 32 :=
  (upTo 0 32).foldl (fun a i => if m.getLsbD i && (thin >>> (8 * i)).setWidth 8 = (0 : Byte) then a ||| (1#32 <<< i) else a) 0

/-- A tail entry replaces its sector: every byte is written whole and none is poisoned (R217, R290). -/
def TailEntry.whole (t : TailEntry) : Bool := t.mask = 0xFFFFFFFF#32 && !t.poison && t.thin = 0

/-- A tail entry over a base sector: whole coverage replaces the base and its poison (R217, R290). -/
def overTail (t : TailEntry) (base : SectorRead) : SectorRead :=
  { data := overlay base.data t.data t.mask t.thin, bad := base.bad || t.poison, gen := base.gen
    cover := if t.poison then 0 else base.cover ||| wholeBytes t.mask t.thin }

/-- The sector that a load by a core of a writer's cluster sees (R290). -/
def readSector (s : State) (wid die asid key : Nat) : SectorRead :=
  match (writerAt s wid).tail.filter (fun t => t.asid = asid && t.key = key) with
  | [] => baseSector s wid die asid key
  | ts =>
    match ts.reverse with
    | [] => baseSector s wid die asid key
    | t :: older =>
      if t.whole then { data := sectorList t.data, bad := false, gen := 0 }
      else overTail t (older.foldr overTail (baseSector s wid die asid key))

/-- The published version of a sector under the current root, as a peer or the migration unit reads it (R388, R438). -/
def publishedSector (s : State) (asid key : Nat) : SectorRead :=
  foundSector s (underRoot s (rootEntry s asid).root (key / 128)) key

/-- Log segments of a stack: all but the fixed region's (R369). -/
def logSegs (s : State) : Nat := 16384 - 32 * s.boot.fixsz

/-- Fettler metadata of a segment (R372). -/
def segAt (s : State) (stk six : Nat) : SegMeta := tget (stackAt s stk).segs six {}
/-- The state with a segment's metadata written. -/
def setSeg (s : State) (stk six : Nat) (m : SegMeta) : State :=
  let k := stackAt s stk
  setStack s stk { k with segs := tput k.segs six m }

/-- A segment can be handed out: FREE, in the log area, not lost, and not segment 0 of stack 0 (R294, R369, R371). -/
def segFree (s : State) (stk six : Nat) : Bool :=
  (segAt s stk six).st = .free && !(stk = 0 && six = 0) && !s.lost.contains (segIndex stk six)

/-- How many segments of a stack are FREE. -/
def freeSegs (s : State) (stk : Nat) : Nat :=
  let used := ((stackAt s stk).segs.filter (fun p => p.1 < logSegs s && p.2.st ≠ .free)).length
  let gone := (s.lost.filter (fun i => i / 16384 = stk && (segAt s stk (i % 16384)).st = .free)).length
  logSegs s - used - gone - (if stk = 0 then 1 else 0)

/-- The lowest FREE segment at or above a number. -/
def lowestFree (s : State) (stk : Nat) : Nat → Nat → Option Nat
  | _, 0 => none
  | six, n + 1 => if six < logSegs s && segFree s stk six then some six else lowestFree s stk (six + 1) n

/-- SEGOPEN (R365, R372): a free segment for a writer, or NONE: with 64 or fewer FREE only the stack's fettler and the
commit units are served. -/
def segOpen (s : State) (stk wid : Nat) : Option Nat :=
  let f := freeSegs s stk
  if f = 0 then none
  else if f ≤ 64 && !(wid = 48 + stk) && !(40 ≤ wid && wid < 44) then none
  else lowestFree s stk 0 ((stackAt s stk).segs.length + s.lost.length + 2)

/-- A writer's open segment in a stack sealed: the base die is asked to write the seal entry (R295, R297, R365). -/
def sealSegment (s : State) (wid stk : Nat) : State :=
  let w := writerAt s wid
  match tfind w.segs stk with
  | none => s
  | some o =>
    let s := setWriter s wid { w with segs := tdel w.segs stk, prev := tput w.prev stk (segNumber stk o.seg) }
    let (tag, s) := newName s
    let k := stackAt s stk
    setStack s stk { k with reqs := k.reqs ++ [.segseal (writerDie wid) tag o.seg wid o.count] }

/-- A writer that a stack answered NONE, or whose append found no segment, waits for a freeing (R372); a segment in which the
append did not fit is sealed all the same (R295). -/
def starve (s : State) (stk wid : Nat) : State :=
  let s := sealSegment s wid stk
  let k := stackAt s stk
  setStack s stk { k with starved := nodup (k.starved ++ [wid]), starvedAt := if k.starved.isEmpty then s.now else k.starvedAt }

/-- A new open segment for a writer in a stack, with its header written (R295, R296); none when the base die
answers NONE, and the writer is remembered as waiting (R372). -/
def openSegment (s : State) (wid stk : Nat) : Option State :=
  match segOpen s stk wid with
  | none => none
  | some six =>
    let w := writerAt s wid
    let h := segHeader s.boot.epoch w.chain (tget w.prev stk 0) (segNumber stk six) wid (writerType wid)
      (s.fabric.fabid.toNat % 16384)
    let s := { s with log := mwrite s.log (segIndex stk six * segSectors * 32) h }
    let s := setWriter s wid { w with
      chain := w.chain + 1
      segs := tput w.segs stk { seg := six, off := segData, count := 0, chain := w.chain } }
    some (setSeg s stk six { st := .open, wid })

/-- The writer's segment in a stack with room for `n` sectors: sealed and replaced when the extent does not fit or one
summary entry is left (R295). -/
def roomFor (s : State) (wid stk n : Nat) : Option State :=
  match tfind (writerAt s wid).segs stk with
  | none => openSegment s wid stk
  | some o =>
    if o.off + n > segSectors || o.count ≥ 32767 then openSegment (sealSegment s wid stk) wid stk else some s

/-- An extent appended to a writer's log in the stack its key names (R297, R298): the position of its first sector,
with length field 0, or none while the stack has no segment for the writer. -/
def appendExtent (s : State) (wid kind asid key start : Nat) (cmp : Bool) (data : List Byte) :
    Option (Nat × State) :=
  let stk := key % 8
  let n := data.length / 32
  match roomFor s wid stk n with
  | none => none
  | some s =>
    let w := writerAt s wid
    match tfind w.segs stk with
    | none => none
    | some o =>
      let pos := mkPos stk o.seg o.off 0
      let e := summaryEntry kind asid (n - 1) o.off key start cmp (crc32c data)
      let s := { s with log := mwrite s.log (segIndex stk o.seg * segSectors * 32 + 32 + 16 * o.count) e }
      let s := setWriter s wid { w with segs := tput w.segs stk { o with off := o.off + n, count := o.count + 1 } }
      let m := segAt s stk o.seg
      let s := setSeg s stk o.seg { m with data := m.data + n, asids := nodup (asid :: m.asids) }
      let s := { s with badLog := s.badLog.filter (fun b => !(posSector pos ≤ b.1 && b.1 < posSector pos + n)) }
      let (tag, s) := newName s
      let k := stackAt s stk
      some (pos, setStack s stk { k with reqs := k.reqs ++ [.append (writerDie wid) tag pos data] })

/-- A run of consecutive sectors of one block appended as one extent, CK = 0: each sector its own position (R292). -/
def appendRun (s : State) (wid asid : Nat) (run : List (Nat × SectorRead)) : Option (List (Nat × Nat) × State) :=
  match run with
  | [] => some ([], s)
  | (k0, _) :: _ =>
    match appendExtent s wid 1 asid (k0 / 8) (k0 % 8) false (run.flatMap (fun r => r.2.data)) with
    | none => none
    | some (p, s) =>
      let placed := (upTo 0 run.length).map (fun i => ((nth (run.map Prod.fst) i 0), p + 8 * i))
      let bad := (run.zip placed).filterMap (fun (r, q) => if r.2.bad then some (posSector q.2, true) else none)
      some (placed, { s with badLog := bad ++ s.badLog })

/-- Sectors of a block cut into runs of consecutive keys. -/
def runsOf : List (Nat × SectorRead) → List (List (Nat × SectorRead))
  | [] => []
  | x :: r =>
    match runsOf r with
    | (y :: t) :: u => if y.1 = x.1 + 1 then (x :: y :: t) :: u else [x] :: (y :: t) :: u
    | u => [x] :: u

/-- The runs of a block appended one after another. -/
def appendRuns (s : State) (wid asid : Nat) : List (List (Nat × SectorRead)) → Option (List (Nat × Nat) × State)
  | [] => some ([], s)
  | r :: rs =>
    match appendRun s wid asid r with
    | none => none
    | some (p, s) =>
      match appendRuns s wid asid rs with
      | none => none
      | some (q, s) => some (p ++ q, s)

/-- A block's sectors appended by a writer: raw sectors for CK = 0, the rebuilt and encoded block otherwise (R292).
`secs` are the sectors that are new, by key. -/
def appendBlock (s : State) (wid asid ck : Nat) (secs : List (Nat × SectorRead)) : Option (List (Nat × Nat) × State) :=
  match secs with
  | [] => some ([], s)
  | (k0, _) :: _ =>
    if ck = 0 then appendRuns s wid asid (runsOf (sortBy Prod.fst secs))
    else
      let b0 := k0 / 8 * 8
      let whole := (upTo b0 8).map (fun k =>
        match secs.find? (fun x => x.1 = k) with
        | some x => x.2
        | none => baseSector s wid (writerDie wid) asid k)
      let img := encodeBlock ck (whole.flatMap SectorRead.data)
      let n := img.length / 32
      match appendExtent s wid 1 asid (k0 / 8) 0 true img with
      | none => none
      | some (p, s) =>
        let bad := if whole.any SectorRead.bad then (upTo (posSector p) n).map (fun x => (x, true)) else []
        some ((upTo b0 8).map (fun k => (k, p + (n - 1))), { s with badLog := bad ++ s.badLog })

/-- Tail entries of one block with the bases they lie over, as the sectors an append writes. -/
def tailSectors (s : State) (wid asid : Nat) (es : List TailEntry) : List (Nat × SectorRead) :=
  es.map (fun t => (t.key, if t.whole then { data := sectorList t.data, bad := false, gen := 0 }
    else overTail t (baseSector s wid (writerDie wid) asid t.key)))

/-- Blocks among tail entries, in the order of their first entries. -/
def blocksOf (es : List TailEntry) : List (List TailEntry) :=
  (nodup (es.map (fun t => t.key / 8))).map (fun b => es.filter (fun t => t.key / 8 = b))

/-- The earliest write among tail entries. -/
def firstTick (es : List TailEntry) : Nat := (es.map TailEntry.tick).foldl min ((es.head?.map TailEntry.tick).getD 0)

/-- A pending set with new positions of one ASID's sectors laid in (R309); a record keeps the tick of its first write. -/
def pendAdd (l : List PendRec) (asid ck now tick : Nat) : List (Nat × Nat) → List PendRec
  | [] => l
  | (k, p) :: r =>
    let sub := k / 128
    let l := match l.find? (fun x => x.asid = asid && x.sub = sub) with
      | some x => l.map (fun y => if y = x then { x with pos := tput x.pos (k % 128) p, tick := min x.tick tick } else y)
      | none => l ++ [{ asid, sub, pos := [(k % 128, p)], born := now, tick, ck }]
    pendAdd l asid ck now tick r

/-- Publications of a writer whose records still stand in its pending set: its die has not applied their commits (R312). -/
def heldPubs (w : Writer) (wid : Nat) : List Pub := w.pubs.filter (fun p => p.held ≠ 0 && !p.acked.contains (writerDie wid))

/-- Records of a writer's pending set, those that publications in flight cover among them (R288, R312). -/
def pendCount (w : Writer) (wid : Nat) : Nat := w.pend.length + ((heldPubs w wid).map Pub.held).foldl (· + ·) 0

/-- ASIDs of a writer's pending set. -/
def pendAsids (w : Writer) (wid : Nat) : List Nat := nodup (w.pend.map PendRec.asid ++ (heldPubs w wid).map Pub.asid)

/-- Room for a pending record of a sub-page: 512 records and 64 ASIDs (R288, R310). -/
def pendRoom (w : Writer) (wid asid sub : Nat) : Bool :=
  w.pend.any (fun p => p.asid = asid && p.sub = sub) ||
    (pendCount w wid < 512 && ((pendAsids w wid).length < 64 || (pendAsids w wid).contains asid))

/-- A block of tail entries appended outside a publication (R291, R310): the entries freed, the positions pending. -/
def appendTail (s : State) (wid asid : Nat) (es : List TailEntry) : State :=
  match es with
  | [] => s
  | t :: _ =>
    let w := writerAt s wid
    if !pendRoom w wid asid (t.key / 128) then s
    else if !(ownerless wid) && ownerOf s asid (t.key / 128) ≠ some wid then s
    else match appendBlock s wid asid t.ck (tailSectors s wid asid es) with
      | none => starve s ((t.key / 8) % 8) wid
      | some (ps, s) =>
        let w := writerAt s wid
        setWriter s wid { w with
          tail := w.tail.filter (fun x => !es.contains x)
          pend := pendAdd w.pend asid t.ck s.now (firstTick es) ps }

/-- Bytes of the delta entries of an intent, one entry per sub-page (R313). -/
def deltaEntry (rel : Bool) (r : Nat × Nat × List (Nat × Nat × Nat)) : List Byte :=
  let l := sortBy Prod.fst r.2.2
  let mask := l.foldl (fun m x => m ||| 2 ^ x.1) 0
  let body := toBytes 8 r.1 ++ toBytes 16 mask ++
    l.flatMap (fun (_, o, n) => (if rel then posBytes o else []) ++ posBytes n)
  body ++ List.replicate ((8 - body.length % 8) % 8) 0

/-- Delta entries gathered into parts of at most 64 sectors, 32 header bytes counted (R313). -/
def intentParts (es : List (List Byte)) : List (List (List Byte)) :=
  match es with
  | [] => []
  | e :: r =>
    match intentParts r with
    | p :: ps =>
      if 32 + e.length + (p.map List.length).foldl (· + ·) 0 ≤ 2048 then (e :: p) :: ps else [e] :: p :: ps
    | [] => [[e]]

/-- One intent part padded to whole sectors (R313). -/
def intentPart (iseq asid wid parts part : Nat) (rel : Bool) (es : List (List Byte)) : List Byte :=
  let h := toBytes 28 (iseq * 2 ^ 176 + asid * 2 ^ 164 + wid * 2 ^ 158 + ofBool rel * 2 ^ 157 + parts * 2 ^ 141 +
    part * 2 ^ 133 + es.length * 2 ^ 121)
  let b := es.flatten
  let pad := List.replicate ((32 - b.length % 32) % 32) 0
  h ++ wordBytes (crc32c (h ++ [0, 0, 0, 0] ++ b ++ pad)) ++ b ++ pad

/-- The parts of an intent appended in order: their positions and sectors (R313). -/
def appendIntent (s : State) (wid asid iseq : Nat) (rel : Bool) (n : Nat) :
    Nat → List (List (List Byte)) → Option (List (Nat × Nat) × State)
  | _, [] => some ([], s)
  | i, p :: ps =>
    let img := intentPart iseq asid wid n i rel p
    match appendExtent s wid 5 asid iseq 0 false img with
    | none => none
    | some (pos, s) =>
      match appendIntent s wid asid iseq rel n (i + 1) ps with
      | none => none
      | some (l, s) => some ((pos, img.length / 32) :: l, s)

/-- Records of a publication with positions laid over them: later positions replace earlier ones. -/
def recsAdd (l : List (Nat × Nat × List (Nat × Nat × Nat))) (ck : Nat) :
    List (Nat × Nat) → List (Nat × Nat × List (Nat × Nat × Nat))
  | [] => l
  | (k, p) :: r =>
    let sub := k / 128
    let j := k % 128
    let l := if l.any (fun x => x.1 = sub) then
        l.map (fun x => if x.1 = sub then (sub, ck, (x.2.2.filter (fun y => y.1 ≠ j)) ++ [(j, 0, p)]) else x)
      else l ++ [(sub, ck, [(j, 0, p)])]
    recsAdd l ck r

/-- A publication's cut appended block by block, every block or none: the stack that has no segment for it is answered
instead (R292, R312). -/
def appendCut (s : State) (wid asid : Nat) :
    List (List TailEntry) → List (Nat × Nat × List (Nat × Nat × Nat)) →
      Except Nat (List (Nat × Nat × List (Nat × Nat × Nat)) × State)
  | [], recs => .ok (recs, s)
  | es :: rest, recs =>
    let ck := (es.head?.map TailEntry.ck).getD 0
    match appendBlock s wid asid ck (tailSectors s wid asid es) with
    | none => .error ((((es.head?.map TailEntry.key).getD 0) / 8) % 8)
    | some (ps, s) =>
      let w := writerAt s wid
      appendCut (setWriter s wid { w with tail := w.tail.filter (fun x => !es.contains x) }) wid asid rest
        (recsAdd recs ck ps)

/-- A writer may publish a sub-page: it owns it now (R306), or holds none by its nature. -/
def mayPublish (s : State) (wid asid sub : Nat) : Bool := ownerless wid || ownerOf s asid sub = some wid

/-- A request entered at an ASID's commit unit (R312, R314). -/
def sendCommit (s : State) (r : CommitReq) : State :=
  let h := commitDie s r.asid
  let d := dieAt s h
  setDie s h { d with commits := d.commits ++ [r] }

/-- An intent of the given records appended and its commit request sent (R312 phase 1, R313); `tick` is that of the first write
it covers. -/
def publishRecs (s : State) (wid asid : Nat) (recs : List (Nat × Nat × List (Nat × Nat × Nat))) (held : Nat) (rel : Bool)
    (copy : Option (Nat × Nat)) (tick : Nat) : Option (Nat × State) :=
  let w := writerAt s wid
  let parts := match intentParts (recs.map (deltaEntry rel)) with
    | [] => [[]]
    | l => l
  match appendIntent s wid asid w.iseq rel parts.length 0 parts with
  | none => none
  | some (l, s) =>
    let (id, s) := newName s
    let w := writerAt s wid
    let p : Pub := { id, asid, recs, held, rel, iseq := w.iseq, intent := (l.head?.map Prod.fst).getD 0, parts := l
                     tick, copy }
    let s := setWriter s wid { w with iseq := w.iseq + 1, tick := w.tick + 1, pubs := w.pubs ++ [p] }
    some (id, sendCommit s { asid, wid, kind := if rel then .relocation id else .publication id })

/-- Requests for sub-pages of a writer wait for its next publication: the one that begins now (R305). -/
def bindRequests (s : State) (wid asid pub : Nat) : State :=
  { s with dies := tmap (fun _ d => { d with ownq := d.ownq.map (fun r =>
      if r.asid = asid && r.pub.isNone && ownerOf s asid (r.lpn * 16 + r.sub) = some wid then { r with pub := some pub } else r) }) s.dies }

/-- The sub-pages, each with its sectors, that one intent can list: at most 4,095 (R315 NSUB), with no more entry bytes than surely
fit 255 parts (R313 PARTS), an entry of `e` bytes a sector leaving at most its own length of a part unused. -/
def intentFit (e : Nat) : List (Nat × Nat) → Nat → Nat → List Nat
  | [], _, _ => []
  | (k, n) :: r, room, subs =>
    let b := 31 + e * n
    if subs = 0 || room < b then [] else k :: intentFit e r (room - b) (subs - 1)

/-- Entry bytes that surely fit 255 parts of 2,048 bytes when an entry has at most `most` (R313). -/
def intentRoom (most : Nat) : Nat := 255 * (2016 - most)

/-- Sub-pages of a publication in order, the pending set's first, with the sectors that its intent can list for each (R312). -/
def cutSizes (mine : List PendRec) (cut : List TailEntry) : List (Nat × Nat) :=
  (nodup (mine.map PendRec.sub ++ cut.map (fun t => t.key / 128))).map (fun k =>
    let es := cut.filter (fun t => t.key / 128 = k)
    (k, if es.any (fun t => t.ck ≠ 0) then 128
      else min 128 (es.length + ((mine.filter (fun p => p.sub = k)).map (fun p => p.pos.length)).foldl (· + ·) 0)))

/-- Pending records of an ASID that a publication covers (R309, R311). -/
def pendOf (s : State) (wid asid : Nat) : List PendRec :=
  (writerAt s wid).pend.filter (fun p => p.asid = asid && mayPublish s wid asid p.sub)

/-- The cut of a publication: every open entry of an owned sub-page (R306, R312), as far as one intent can list the sub-pages; what
is left is published next (DESIGN CHOICE, log entry 70). -/
def cutOf (s : State) (wid asid : Nat) : List TailEntry :=
  let cut := (writerAt s wid).tail.filter (fun t => t.asid = asid && t.st = .open && mayPublish s wid asid (t.key / 128))
  let subs := intentFit 5 (cutSizes (pendOf s wid asid) cut) (intentRoom 671) 4095
  cut.filter (fun t => subs.contains (t.key / 128))

/-- The records of a pending set as an intent lists them. -/
def pendList (l : List PendRec) : List (Nat × Nat × List (Nat × Nat × Nat)) :=
  l.map (fun p => (p.sub, p.ck, p.pos.map (fun (j, x) => (j, 0, x))))

/-- The first write that a publication covers. -/
def cutTick (cut : List TailEntry) (mine : List PendRec) : Nat :=
  let l := cut.map TailEntry.tick ++ mine.map PendRec.tick
  l.foldl min (l.headD 0)

/-- PUBLICATION_BEGIN (R312): the cut taken and appended, the pending set covered, the intent sent. With an empty cut
and nothing pending no request is sent. While a stack has no segment for an append nothing is done: the writer waits for a
freeing, and begins again (R372). -/
def beginPublication (s : State) (wid asid : Nat) : State :=
  let cut := cutOf s wid asid
  let mine := pendOf s wid asid
  match appendCut s wid asid (blocksOf cut) (pendList mine) with
  | .error stk => starve s stk wid
  | .ok (recs, s1) =>
    if recs.isEmpty then s1
    else
      let w1 := writerAt s1 wid
      let s2 := setWriter s1 wid { w1 with
        pend := w1.pend.filter (fun p => !mine.contains p), wanted := w1.wanted.filter (fun x => x.1 ≠ asid) }
      match publishRecs s2 wid asid recs mine.length false none (cutTick cut mine) with
      | some (id, s3) => bindRequests s3 wid asid id
      | none => starve s ((writerAt s wid).iseq % 8) wid

/-- Whether a publication has completed for a scope: 3 die, 4 device and, but for its holders, 5 system (R316). -/
def pubDone (s : State) (wid : Nat) (p : Pub) (scope : Nat) : Bool :=
  match p.stage with
  | .requested => false
  | .committed _ =>
    if scope ≤ 3 then p.acked.contains (writerDie wid)
    else (workingDies s).all (p.acked.contains ·)

/-- A commit of a writer that a release of system scope waits to see acknowledged by every surviving holder (R316, R448, R449). -/
def unshipped (s : State) (wid asid mark : Nat) : Bool :=
  s.fabric.ships.any (fun j => j.wid = wid && j.asid = asid && decide (j.tick < mark) && !j.waits.isEmpty)

/-- What a writer still has to publish of an ASID's stores made before a mark (R320). -/
def unpublished (s : State) (wid asid mark scope : Nat) : Bool :=
  let w := writerAt s wid
  w.tail.any (fun t => t.asid = asid && decide (t.tick < mark)) ||
    w.pend.any (fun p => p.asid = asid && decide (p.tick < mark)) ||
    w.pubs.any (fun p => p.asid = asid && decide (p.tick < mark) && !pubDone s wid p scope) ||
    (decide (5 ≤ scope) && unshipped s wid asid mark)

/-- A writer holds stores of an ASID made before a mark that a publication would cover (R306, R312, R320). -/
def hasCut (s : State) (wid asid mark : Nat) : Bool :=
  let w := writerAt s wid
  w.tail.any (fun t => t.asid = asid && t.tick < mark && t.st = .open && mayPublish s wid asid (t.key / 128)) ||
    w.pend.any (fun p => p.asid = asid && p.tick < mark && mayPublish s wid asid p.sub)

/-- A release begins the publications it needs, and begins more while a cut left stores behind (R311, R320). -/
def pushRelease (s : State) (wid asid mark : Nat) : State :=
  if hasCut s wid asid mark then beginPublication s wid asid else s

/-- The segment of a position gains superseded sectors (R372). -/
def supersede (s : State) (pos n : Nat) : State :=
  if pos = 0 then s
  else
    let m := segAt s (posStk pos) (posSix pos)
    setSeg s (posStk pos) (posSix pos) { m with sup := m.sup + n }

/-- New positions laid over a map: a relocation only where the old position still stands (R308, R312). -/
def layMap (rel : Bool) (old : List Nat) : List (Nat × Nat × Nat) → List Nat
  | [] => old
  | (j, o, n) :: r => layMap rel (if rel && nth old j 0 ≠ o then old else setNth old j 0 n) r

/-- The maps that a commit writes: (sub-page key, new map position) (R312, R372). A relocation record without positions writes the
map of its sub-page again where there is one (R375). Under an uncorrectable map or node every sector goes on reading as poison (R302):
the commit leaves it as it stands (DEDUCED, log entry 71). -/
def commitMaps (s : State) (cw asid gen root : Nat) (rel : Bool) :
    List (Nat × Nat × List (Nat × Nat × Nat)) → Option (List (Nat × Nat) × State)
  | [] => some ([], s)
  | (sub, ck, l) :: rest =>
    let old := underRoot s root sub
    let pos0 := match old with
      | .map _ m => m.pos
      | _ => List.replicate 128 0
    let ck := match rel, old with
      | true, .map _ m => m.ck
      | _, _ => ck
    let g := match rel, old with
      | true, .map _ m => if gen = 0 then m.gen else gen
      | _, _ => gen
    let pos1 := layMap rel pos0 l
    let rewrite := rel && l.isEmpty && (match old with
      | .map _ _ => true
      | _ => false)
    if old = .poison || (pos1 = pos0 && !rewrite) then commitMaps s cw asid gen root rel rest
    else
      match appendExtent s cw 2 asid (sub * 16) 0 false (mapBytes g (sub / 16) (sub % 16) asid ck (blensOf ck pos1) pos1) with
      | none => none
      | some (p, s) =>
        let gone := (upTo 0 128).filter (fun j => nth pos0 j 0 ≠ nth pos1 j 0 && (ck = 0 || j % 8 = 0))
        let s := gone.foldl (fun s j => supersede s (nth pos0 j 0) (if ck = 0 then 1 else posLen (nth pos0 j 0) + 1)) s
        match commitMaps s cw asid gen root rel rest with
        | none => none
        | some (r, s) => some ((sub, p) :: r, s)

/-- The path rebuilt above changed maps: `n` levels below this node, which is new (R299, R312). -/
def rebuild (cw asid gen : Nat) : Nat → Nat → Nat → List (Nat × Nat) → State → Option (Nat × State)
  | 0, _, _, changes, s => some ((changes.head?.map Prod.snd).getD 0, s)
  | n + 1, pos, pre, changes, s =>
    let level := 4 - n
    let old := if pos = 0 then { gen, kids := List.replicate 256 0 : NodeRec }
      else (readNode s pos).getD { gen, kids := List.replicate 256 0 }
    let g := if gen = 0 then old.gen else gen
    let touched := nodup (changes.map (fun c => kidIndex c.1 level))
    let step := fun (acc : Option (List Nat × State)) i =>
      match acc with
      | none => none
      | some (kids, s) =>
        match rebuild cw asid gen n (nth old.kids i 0) (pre * 256 + i) (changes.filter (fun c => kidIndex c.1 level = i)) s with
        | none => none
        | some (p, s) => some (setNth kids i 0 p, s)
    match touched.foldl step (some (old.kids, s)) with
    | none => none
    | some (kids, s) => appendExtent s cw 3 asid (level * 2 ^ 41 + pre * 2 ^ (40 - 8 * level)) 0 false
        (nodeBytes g asid level pre kids)

/-- The bytes of a commit record (R315). -/
def commitBytes (seq root prev asid wid kind intent oldroot nsub time : Nat) : List Byte :=
  let h := toBytes 60 (seq * 2 ^ 432 + root * 2 ^ 392 + prev * 2 ^ 352 + asid * 2 ^ 340 + wid * 2 ^ 334 +
    kind * 2 ^ 330 + intent * 2 ^ 290 + oldroot * 2 ^ 250 + nsub * 2 ^ 238 + time * 2 ^ 206)
  h ++ wordBytes (crc32c h)

/-- The commit point (R312, R315, R316): commit record appended, root table written with SEQ + 1, the invalidation
message sent to every working die. -/
def commitPoint (s : State) (cw asid wid kind intent newRoot nsub : Nat) (keys : List (Nat × Nat)) : Option (Nat × State) :=
  let e := rootEntry s asid
  let seq := e.seq + 1
  let time := (moduleTime s).toNat / 1000 % 2 ^ 32
  match appendExtent s cw 4 asid (seq % 2 ^ 44) 0 false
      (commitBytes seq newRoot e.crec asid wid kind intent e.root nsub time) with
  | none => none
  | some (cpos, s) =>
    let s := supersede s e.crec 2
    let s := { s with fixed := mwrite s.fixed (s.boot.rootOff + 16 * asid) (rootBytes { root := newRoot, crec := cpos, seq }) }
    some (seq, (workingDies s).foldl (fun s d =>
      let x := dieAt s d
      setDie s d { x with inbox := x.inbox ++ [{ asid, seq, keys }] }) s)

/-- Relocated positions laid under one retained root: new maps and nodes keep their GEN (R375). -/
def moveRetained (s : State) (cw asid : Nat) (recs : List (Nat × Nat × List (Nat × Nat × Nat))) (slot : Nat) : State :=
  let (v, seq, root) := retained s asid slot
  if !v then s
  else match commitMaps s cw asid 0 root true recs with
    | some (c :: cs, s1) =>
      match rebuild cw asid 0 5 root 0 (c :: cs) s1 with
      | some (r, s2) => setRetained s2 asid slot true seq r
      | none => s
    | _ => s

/-- A publication or relocation committed (R312 phase 2, R314, R375); none while the commit log has no segment. -/
def commitPub (s : State) (wid id : Nat) : Option State :=
  let w := writerAt s wid
  match w.pubs.find? (fun p => p.id = id) with
  | none => some s
  | some p =>
    let cw := 40 + commitDie s p.asid
    let e := rootEntry s p.asid
    match commitMaps s cw p.asid (e.seq + 1) e.root p.rel p.recs with
    | none => none
    | some (maps, s) =>
      let path := if maps.isEmpty then some (e.root, s) else rebuild cw p.asid (e.seq + 1) 5 e.root 0 maps s
      match path with
      | none => none
      | some (root, s) =>
        let s := if p.rel then (upTo 0 8).foldl (fun s k => moveRetained s cw p.asid p.recs k) s else s
        match commitPoint s cw p.asid wid (ofBool p.rel) p.intent root p.recs.length
            (maps.map (fun m => (m.1 / 16, m.1 % 16))) with
        | none => none
        | some (seq, s) =>
          let w := writerAt s wid
          some (setWriter s wid { w with
            pubs := w.pubs.map (fun q => if q.id = id then { q with stage := .committed seq } else q) })

/-- Every tail entry, pending record and uncommitted publication of an ASID discarded, and its ownership released
(R321, R383, R416). -/
def discardAsid (s : State) (asid : Nat) : State :=
  let s := { s with writers := tmap (fun _ w => { w with
    tail := w.tail.filter (fun t => t.asid ≠ asid), pend := w.pend.filter (fun p => p.asid ≠ asid)
    sets := w.sets.filter (fun c => c.asid ≠ asid) }) s.writers }
  { s with dies := tmap (fun _ d => { d with
      own := d.own.filter (fun e => e.asid ≠ asid), ownq := d.ownq.filter (fun r => r.asid ≠ asid)
      atomq := d.atomq }) s.dies }

end Sys2Proof.Machine
end

