-- ==== Sys2Proof/Machine/Translate.lean ====
section
/-!
DEFINITION. Translation (spec 15_die_translation_caches_and_scratchpad.md R323 to R331) and the cores' reads and writes
of log memory by virtual address (R216, R289, R290, R317, R330, R331).
-/
namespace Sys2Proof.Machine

/-- What an access asks of a leaf (R326, R327). -/
structure Access where
  asid : Nat
  level : Level
  write : Bool := false
  exec : Bool := false
  /-- `spill`, `fill`, call-stack pushes and pops reach private pages -/
  priv : Bool := false
  deriving DecidableEq, Repr

/-- The virtual page of an address (R322). -/
def vpnOf (va : Nat) : Nat := bits va 56 16

/-- An entry of the address-space table (R324). -/
structure AstEntry where
  en : Bool
  fn : Nat
  top : Nat
  lpnmax : Nat
  deriving DecidableEq, Repr

/-- The entry of an ASID as the fixed region holds it (R324). -/
def astEntry (s : State) (asid : Nat) : AstEntry :=
  let v := ofBytes (mread s.fixed (s.boot.astOff + 16 * asid) 16)
  { en := bit v 0, fn := bits v 6 1, top := bits v 32 8 * 256, lpnmax := bits v 75 40 }

/-- A word of eight bytes of the fixed region. -/
def fixedWord (s : State) (off : Nat) : Nat := ofBytes (mread s.fixed off 8)

/-- Index of a level's table that an address selects (R323). -/
def tableIndex (va level : Nat) : Nat := if level = 0 then bits va 56 52 else bits va (60 - 9 * level) (52 - 9 * level)

/-- Bytes of the fixed region (R369). -/
def fixedSize (s : State) : Nat := s.boot.fixsz * 2 ^ 30

/-- A walk from a table on, `n` pointer levels remain (R325, R326, R327 checks 2 and 3). -/
def walkFrom (s : State) (lpnmax va tbl : Nat) : Nat → WalkAnswer
  | 0 =>
    let e := fixedWord s (tbl + 8 * tableIndex va 4)
    if !bit e 0 then .cause 0x0B va
    else if bit e 15 || 4 ≤ bits e 8 6 || lpnmax < bits e 51 16 then .cause 0x0D va
    else .leaf (BitVec.ofNat 64 e)
  | n + 1 =>
    let e := fixedWord s (tbl + 8 * tableIndex va (3 - n))
    if !bit e 0 then .cause 0x0B va
    else if bits e 51 33 ≠ 0 || bits e 11 1 ≠ 0 || fixedSize s ≤ bits e 32 12 * 4096 then .cause 0x0D va
    else walkFrom s lpnmax va (bits e 32 12 * 4096) n

/-- The walk of a page: its leaf, or the cause of checks 1 to 3 (R327). -/
def walkPage (s : State) (asid va : Nat) : WalkAnswer :=
  let e := astEntry s asid
  if !e.en then .cause 0x0B va else walkFrom s e.lpnmax va e.top 4

/-- LPN of a leaf (R326). -/
def leafLpn (l : DWord) : Nat := bits l.toNat 51 16
/-- FSLOT of a leaf (R326). -/
def leafFslot (l : DWord) : Nat := bits l.toNat 13 9
/-- CK of a leaf (R326). -/
def leafCk (l : DWord) : Nat := bits l.toNat 8 6
/-- H of a leaf (R326). -/
def leafHost (l : DWord) : Bool := bit l.toNat 4
/-- L of a leaf (R326). -/
def leafLatency (l : DWord) : Bool := bit l.toNat 14

/-- Check 4 of R327: the leaf forbids the access. -/
def leafDenies (l : DWord) (a : Access) : Bool :=
  let n := l.toNat
  (bit n 3 && a.level = .user) || (a.write && !bit n 1) || (a.exec && !bit n 2) ||
    (bit n 5 && a.level = .user && !a.priv)

/-- What translating one page gives. -/
inductive PageRes where
  | ok (l : DWord)
  | miss
  | fault (code : Nat)
  deriving DecidableEq, Repr

/-- The leaf that a core finds cached for a page: a store finds it in the log writer's cache first (R329). -/
def cachedLeaf (s : State) (core : Nat) (write : Bool) (asid vpn : Nat) : Option DWord :=
  let ofDie := (dieAt s (dieOf core)).tcache.find? (fun e => e.asid = asid && e.vpn = vpn)
  let e := if write then
      ((writerAt s (clusterOf core)).leaves.find? (fun e => e.asid = asid && e.vpn = vpn)).or ofDie
    else ofDie
  e.map TcEntry.leaf

/-- One page of an access: the answer of a walk made for it, or a cached leaf; a check 4 failure of a cached leaf walks
once more (R327, R328). -/
def transPage (s : State) (core : Nat) (ans : List (Nat × Nat × WalkAnswer)) (a : Access) (va : Nat) : PageRes :=
  match ans.find? (fun x => x.1 = a.asid && x.2.1 = vpnOf va) with
  | some (_, _, .cause c _) => .fault c
  | some (_, _, .leaf l) => if leafDenies l a then .fault 0x0C else if leafHost l then .miss else .ok l
  | none =>
    match cachedLeaf s core a.write a.asid (vpnOf va) with
    | some l => if leafDenies l a || leafHost l then .miss else .ok l
    | none => .miss

/-- The leaf of a page, whatever its access bits: an answer of a walk, or the cached leaf (R211, R327). -/
def anyLeaf (s : State) (core : Nat) (ans : List (Nat × Nat × WalkAnswer)) (write : Bool) (asid vpn : Nat) : PageRes :=
  match ans.find? (fun x => x.1 = asid && x.2.1 = vpn) with
  | some (_, _, .cause c _) => .fault c
  | some (_, _, .leaf l) => if leafHost l then .miss else .ok l
  | none =>
    match cachedLeaf s core write asid vpn with
    | some l => if leafHost l then .miss else .ok l
    | none => .miss

/-- What translating a range of bytes gives: the leaves by virtual page, the page that misses, or the cause with the
first faulting byte. -/
inductive Xlate where
  | ok (leaves : List (Nat × DWord))
  | miss (vpn : Nat)
  | fault (code addr : Nat)
  deriving DecidableEq, Repr

/-- First byte of each page that a range of `n` bytes reaches. -/
def pagesOf (va n : Nat) : List Nat :=
  let first := va / 65536
  let last := (va + (n - 1)) / 65536
  va :: (upTo (first + 1) (last - first)).map (· * 65536)

/-- Page by page under a rule for one page; the first faulting byte is reported (R327). -/
def transPages (page : Nat → PageRes) : List Nat → Xlate
  | [] => .ok []
  | va :: r =>
    match page va with
    | .fault c => .fault c va
    | .miss => .miss (vpnOf va)
    | .ok l =>
      match transPages page r with
      | .ok ls => .ok ((vpnOf va, l) :: ls)
      | x => x

/-- An access of `n` bytes at a virtual address, checked and translated (R205, R327). -/
def translate (s : State) (core : Nat) (ans : List (Nat × Nat × WalkAnswer)) (a : Access) (va n : Nat) : Xlate :=
  if 2 ^ 57 ≤ va then .fault 0x0C va
  else if 2 ^ 57 < va + n then .fault 0x0C (2 ^ 57)
  else transPages (transPage s core ans a) (pagesOf va n)

/-- The same with every walk made on the spot: delivery and return, which wait for their own walks (R264, R266, R270).
A page that the host owns is answered as a miss. -/
def translateNow (s : State) (a : Access) (va n : Nat) : Xlate :=
  let page (v : Nat) : PageRes :=
    match walkPage s a.asid v with
    | .cause c _ => .fault c
    | .leaf l => if leafDenies l a then .fault 0x0C else if leafHost l then .miss else .ok l
  if 2 ^ 57 ≤ va then .fault 0x0C va
  else if 2 ^ 57 < va + n then .fault 0x0C (2 ^ 57)
  else transPages page (pagesOf va n)

/-- The translation slice of a page (R322). -/
def transSlice (asid vpn : Nat) : Nat := vpn % 32 ^^^ asid % 32

/-- A leaf installed in a die's translation cache (R328). -/
def installLeaf (s : State) (die asid vpn : Nat) (l : DWord) : State :=
  let d := dieAt s die
  let others := d.tcache.filter (fun e => !(e.asid = asid && e.vpn = vpn))
  let slice := transSlice asid vpn
  let here := others.filter (fun e => transSlice e.asid e.vpn = slice)
  let rest := others.filter (fun e => transSlice e.asid e.vpn ≠ slice)
  setDie s die { d with tcache := { asid, vpn, leaf := l } :: (giveUp s.free 1024 here ++ rest) }

/-- The leaf of a store kept in the log writer's cache (R329). -/
def keepLeaf (s : State) (wid asid vpn : Nat) (l : DWord) : State :=
  let w := writerAt s wid
  if w.leaves.any (fun e => e.asid = asid && e.vpn = vpn && e.leaf = l) then s
  else
    let others := w.leaves.filter (fun e => !(e.asid = asid && e.vpn = vpn))
    setWriter s wid { w with leaves := { asid, vpn, leaf := l } :: giveUp s.free 1024 others }

/-- A miss that waits for a walk: it joins the walk of its page, or waits at its slice behind those that wait for the page
already; a cached leaf that failed check 4 is discarded (R328, R329). -/
def addMiss (s : State) (die wid asid vpn : Nat) (m : Misser) : State :=
  let d := dieAt s die
  let w := writerAt s wid
  let keep (e : TcEntry) : Bool := !(e.asid = asid && e.vpn = vpn)
  let s := setWriter s wid { w with leaves := w.leaves.filter keep }
  let d := { d with tcache := d.tcache.filter keep }
  let behind := d.missq.any (fun q => q.1 = asid && q.2.1 = vpn)
  match d.walkers.find? (fun p => p.2.asid = asid && p.2.vpn = vpn && p.2.queue.length < 64 && !behind) with
  | some (i, k) =>
    setDie s die { d with walkers := tput d.walkers i { k with queue := k.queue ++ [m] } }
  | none => setDie s die { d with missq := d.missq ++ [(asid, vpn, m)] }

/-- The sector key of a virtual address under its leaf: LPN::SUB::sector (R297, R323). -/
def keyOf (l : DWord) (va : Nat) : Nat := leafLpn l * 2048 + va % 65536 / 32

/-- The logical line of a virtual address under its leaf: LPN and line index (R331). -/
def lineOf (l : DWord) (va : Nat) : Nat × Nat := (leafLpn l, va % 65536 / 128)

/-- Leaf bits that tag an L1 line: S, P and FSLOT (R330). -/
def l1Tag (l : DWord) : Nat × Bool × Bool := (leafFslot l, bit l.toNat 3, bit l.toNat 5)

/-- A core's L1 line for a virtual address (R330). -/
def l1Find (k : Core) (asid : Nat) (l : DWord) (va : Nat) : Option L1Line :=
  k.l1.find? (fun e => e.asid = asid && e.va = va / 128 * 128 && l1Tag e.leaf = l1Tag l)

/-- Every copy of the lines that a test picks leaves the L1s of a die's cores. -/
def l1Purge (s : State) (die : Nat) (p : L1Line → Bool) : State :=
  { s with cores := tmap (fun c k => if c / 64 = die then { k with l1 := k.l1.filter (fun e => !p e) } else k) s.cores }

/-- The logical lines' synonyms under another address leave the die's L1s, and the reverse map forgets them (R331). -/
def dropSynonyms (s : State) (die asid : Nat) (l : DWord) (va : Nat) : State :=
  let (lpn, line) := lineOf l va
  let v := va / 128 * 128
  let d := dieAt s die
  match d.rmap.find? (fun e => e.asid = asid && e.lpn = lpn && e.line = line) with
  | some e =>
    if e.va = v then s
    else
      let s := l1Purge s die (fun x => x.asid = asid && x.va = e.va && lineOf x.leaf x.va = (lpn, line))
      let d := dieAt s die
      setDie s die { d with rmap := d.rmap.filter (fun x => x ≠ e) }
  | none => s

/-- A line of an L1 that holds a sector of an address space. -/
def lineHas (e : L1Line) (asid key : Nat) : Bool :=
  let l := lineOf e.leaf e.va
  e.asid = asid && l.1 * 512 + l.2 = key / 4

/-- The slice of a reverse-map entry (R322). -/
def rmSlice (e : RmEntry) : Nat := e.lpn % 32 ^^^ e.line % 32

/-- A core recorded as holder of a logical line; an entry given up first invalidates its copies (R331). -/
def recordLine (s : State) (core asid : Nat) (l : DWord) (va : Nat) : State :=
  let die := dieOf core
  let s := dropSynonyms s die asid l va
  let d := dieAt s die
  let (lpn, line) := lineOf l va
  let me : DWord := 1#64 <<< (core % 64)
  if d.rmap.any (fun e => e.asid = asid && e.lpn = lpn && e.line = line) then
    setDie s die { d with rmap := d.rmap.map (fun e =>
      if e.asid = asid && e.lpn = lpn && e.line = line then { e with cores := e.cores ||| me } else e) }
  else
    let new : RmEntry := { asid, lpn, line, va := va / 128 * 128, cores := me }
    let here := d.rmap.filter (fun e => rmSlice e = rmSlice new)
    let s := if here.length < 8192 then s else
      match here[Config.victim s.free % here.length]? with
      | some v =>
        let s := l1Purge s die (fun x => x.asid = v.asid && x.va = v.va && lineOf x.leaf x.va = (v.lpn, v.line))
        let d := dieAt s die
        setDie s die { d with rmap := d.rmap.filter (fun e => e ≠ v) }
      | none => s
    let d := dieAt s die
    setDie s die { d with rmap := new :: d.rmap }

/-- The four sectors of a line as a load that misses L1 finds them (R290, R330). -/
def readLine (s : State) (core asid : Nat) (l : DWord) (va : Nat) : List SectorRead :=
  let base := va / 128 * 128
  (upTo 0 4).map (fun i => readSector s (clusterOf core) (dieOf core) asid (keyOf l (base + 32 * i)))

/-- One sector as a core's load of it returns, from its L1 or below (R290, R330). -/
def loadSector (s : State) (core asid : Nat) (l : DWord) (va : Nat) : SectorRead :=
  match l1Find (coreAt s core) asid l va with
  | some e => { data := (e.data.drop (va % 128 / 32 * 32)).take 32, bad := false, gen := e.gen }
  | none => readSector s (clusterOf core) (dieOf core) asid (keyOf l va)

/-- The position of a sector's base version and its compression kind (R290), `f` being what the index answers for its sub-page. -/
def basePos (s : State) (wid asid key : Nat) (f : Found) : Option (Nat × Nat) :=
  let w := writerAt s wid
  match heldPos { w with pubs := w.pubs.filter (fun p => !p.acked.contains (writerDie wid)) } asid key with
  | some x => some x
  | none =>
    match f with
    | .map _ m => some (nth m.pos (key % 128) 0, m.ck)
    | _ => none

/-- Sectors of log space that hold the stored base version of a sector, the first and how many (R290, R293): none when no
position holds it. -/
def baseStored (s : State) (wid die asid key : Nat) : Option (Nat × Nat) :=
  match basePos s wid asid key (indexFind s die asid (key / 128)) with
  | some (p, ck) => if p = 0 then none else some (posSector p, if ck = 0 then 1 else posLen p + 1)
  | none => none

/-- The data slices fetch what a line of an L1 miss reads (R322, R335). -/
def fetchLines (s : State) (wid die asid line : Nat) (f : Found) : State :=
  (upTo (4 * line) 4).foldl (fun s key => match basePos s wid asid key f with
    | some (p, ck) => fetchLine s die ck p asid key
    | none => s) s

/-- Correctable errors that a core's read of a sector's base version meets: corrected, written back and counted (R281, R368). -/
def correctBase (s : State) (core asid key : Nat) : State :=
  if s.badLog.isEmpty then s
  else match baseStored s (clusterOf core) (dieOf core) asid key with
    | none => s
    | some (sec, n) =>
      let hit := s.badLog.filter (fun b => !b.2 && decide (sec ≤ b.1) && decide (b.1 < sec + n))
      let stk := sec / (16384 * segSectors)
      let k := stackAt s stk
      if hit.isEmpty then s
      else count (setStack { s with badLog := s.badLog.filter (fun b => !hit.contains b) } stk
        { k with corrected := k.corrected + hit.length }) core 0x12 hit.length

/-- The state after a core's load of a sector: the line enters its L1 unless it is poisoned or the policy forbids it,
and the index cache keeps what located it (R330, R335). -/
def fillSector (s : State) (core asid : Nat) (l : DWord) (va cp : Nat) : State :=
  let s := correctBase s core asid (keyOf l va)
  let k := coreAt s core
  match l1Find k asid l va with
  | some _ => s
  | none =>
    let die := dieOf core
    let sub := keyOf l va / 128
    let f := indexFind s die asid sub
    let s := fetchLines (indexFill s die asid sub f) (clusterOf core) die asid (keyOf l va / 4) f
    let rs := readLine s core asid l va
    if cp = 2 || rs.any SectorRead.bad then s
    else
      let s := recordLine s core asid l va
      let k := coreAt s core
      let base := va / 128 * 128
      let set (e : L1Line) : Nat := e.va / 128 % 256
      let others := k.l1.filter (fun e => !(e.asid = asid && e.va = base))
      let here := others.filter (fun e => set e = base / 128 % 256)
      let rest := others.filter (fun e => set e ≠ base / 128 % 256)
      let new : L1Line := { asid, va := base, leaf := l, data := rs.flatMap SectorRead.data
                            gen := (rs.map SectorRead.gen).foldl max 0 }
      setCore s core { k with l1 := new :: (giveUp s.free 8 here ++ rest) }

/-- First byte of each sector that a range of `n` bytes reaches. -/
def sectorsOf (va n : Nat) : List Nat :=
  (upTo (va / 32) ((va + (n - 1)) / 32 - va / 32 + 1)).map (· * 32)

/-- The leaf of a page among translated leaves. -/
def leafIn (ls : List (Nat × DWord)) (va : Nat) : DWord :=
  ((ls.find? (fun p => p.1 = vpnOf va)).map Prod.snd).getD 0

/-- Bytes as a load reads them. -/
structure BytesRead where
  data : List Byte
  bad : Bool
  gen : Nat
  deriving DecidableEq, Repr

/-- `n` bytes at a virtual address as a load of a core returns them (R216, R217, R290). -/
def loadBytes (s : State) (core asid : Nat) (ls : List (Nat × DWord)) (va n : Nat) : BytesRead :=
  let rs := (sectorsOf va n).map (fun a => loadSector s core asid (leafIn ls a) a)
  { data := ((rs.flatMap SectorRead.data).drop (va % 32)).take n
    bad := ((sectorsOf va n).zip rs).any (fun (a, r) => r.bad &&
      (upTo 0 32).any (fun i => decide (va ≤ a + i) && decide (a + i < va + n) && !r.cover.getLsbD i))
    gen := (rs.map SectorRead.gen).foldl max 0 }

/-- The state after a core's load of a range. -/
def fillBytes (s : State) (core asid : Nat) (ls : List (Nat × DWord)) (va n cp : Nat) : State :=
  (sectorsOf va n).foldl (fun s a => fillSector s core asid (leafIn ls a) a cp) s

/-- SEEN of a core for an ASID (R317). -/
def seenOf (s : State) (core asid : Nat) : Nat := tget (coreAt s core).seen asid 0
/-- APPLIED of a die for an ASID (R316). -/
def appliedOf (s : State) (die asid : Nat) : Nat := tget (dieAt s die).applied asid 0

/-- A load returned a GEN above SEEN: the core's L1 lines of the ASID go, and SEEN rises (R317). -/
def raiseSeen (s : State) (core asid g : Nat) : State :=
  if g ≤ seenOf s core asid then s
  else
    let k := coreAt s core
    setCore s core { k with l1 := k.l1.filter (fun e => e.asid ≠ asid), seen := tput k.seen asid g }

/-- The log-memory lines of a core's L1 invalidated (R226, R320). -/
def flushL1 (s : State) (core : Nat) : State :=
  let k := coreAt s core
  setCore s core { k with l1 := [] }

/-- The bytes of a list that fall in one sector, with their offset in it. -/
def sectorPart (va : Nat) (l : List Byte) (a : Nat) : Nat × List Byte :=
  if a ≤ va then (va - a, l.take (32 - (va - a))) else (0, (l.drop (a - va)).take 32)

/-- A line of a core's own L1 updated by its store under the same address (R330). -/
def updateL1 (s : State) (core asid va : Nat) (l : List Byte) : State :=
  let k := coreAt s core
  if k.l1.any (fun e => e.asid = asid && e.va < va + l.length && va < e.va + 128) then
    setCore s core { k with l1 := k.l1.map (fun e =>
      if e.asid = asid && e.va < va + l.length && va < e.va + 128 then
        { e with data := (upTo 0 128).map (fun i =>
            let a := e.va + i
            if va ≤ a ∧ a < va + l.length then nth l (a - va) 0 else nth e.data i 0) }
      else e) }
  else s

/-- A store of bytes at a virtual address through the cluster's tail buffer (R216, R289, R330, R331); none when the
tail buffer is full. Of the bytes only the bits of `bm` are written, or all where it is empty (R213). -/
def storeBytes (s : State) (core wid asid : Nat) (ls : List (Nat × DWord)) (va : Nat) (l : List Byte)
    (bm : List Byte := []) : Option State :=
  (sectorsOf va l.length).foldl (fun acc a =>
    match acc with
    | none => none
    | some s =>
      let leaf := leafIn ls a
      let s := keepLeaf s wid asid (vpnOf a) leaf
      let (off, part) := sectorPart va l a
      match tailWrite s wid asid (keyOf leaf a) off (leafCk leaf) part (sectorPart va bm a).2 with
      | none => none
      | some s =>
        let s := dropSynonyms s (dieOf core) asid leaf a
        some (updateL1 s core asid (a + off) part)) (some s)

end Sys2Proof.Machine
end

