-- ==== Sys2Proof/Machine/Ops.lean ====
section
/-!
DEFINITION. The named operations of an issuing lane: item coordinates, register representations, latches, program
counters, switch points, and taking an exception (R266 to R270) with containment (R269).
-/
namespace Sys2Proof.Machine

/-- Where an instruction issues: core, lane and the issuing bundle or span. -/
structure Where where
  core : Nat
  lane : Nat
  b : Bundle
  deriving DecidableEq, Repr

/-- The lane and bundle at the cursor, if one issues. -/
def issuing (s : State) : Option Where :=
  match s.cursor with
  | none => none
  | some (c, l) => (laneAt s c l).bundle.map (fun b => { core := c, lane := l, b })

/-- Coordinates of a home position (R17, R20): x wraps modulo 2^32. -/
def coordOf (oneD : Bool) (x : Group) (p : Nat) : Nat × Nat × Nat :=
  if oneD then ((x.ox + p) % 2 ^ 32, x.oy, x.oz)
  else
    let q := p / 4
    ((x.ox + 2 * (q % 4) + p % 2) % 2 ^ 32, (x.oy + 2 * (q / 4) + p / 2 % 2) % 2 ^ 32, x.oz)

/-- Home position of a point in its group (R17). -/
def gposOf (oneD : Bool) (gx gy : Nat) : Nat :=
  if oneD then gx else 4 * (gx / 2 + 4 * (gy / 2)) + 2 * (gy % 2) + gx % 2

/-- A 32-bit affine form at a point (R28). -/
def affAt (f : Aff) (c : Nat × Nat × Nat) : Word :=
  f.c + f.dx * BitVec.ofNat 32 c.1 + f.dy * BitVec.ofNat 32 c.2.1 + f.dz * BitVec.ofNat 32 c.2.2

/-- A 64-bit affine form at a point (R28). -/
def aff64At (f : Aff64) (c : Nat × Nat × Nat) : DWord :=
  f.c + f.dx * BitVec.ofNat 64 c.1 + f.dy * BitVec.ofNat 64 c.2.1 + f.dz * BitVec.ofNat 64 c.2.2

/-- The word of a register at a point, `body` reading a BODY register (R28). -/
def repAt {β : Type} (body : β → Word) (r : Rep β) (c : Nat × Nat × Nat) : Word :=
  match r with
  | .const k => k
  | .affine f => affAt f c
  | .lo64 f => lowWord (aff64At f c)
  | .hi64 f => highWord (aff64At f c)
  | .body b => body b

/-- The tag as fault records and save areas code it (R267). -/
def repTag {β : Type} : Rep β → Nat
  | .const _ => 0
  | .affine _ => 1
  | .lo64 _ => 2
  | .hi64 _ => 2
  | .body _ => 3

/-- An AFFINE register, CONST when nothing varies (R29). -/
def mkAffine {β : Type} (f : Aff) : Rep β :=
  if f.dx = 0 ∧ f.dy = 0 ∧ f.dz = 0 then .const f.c else .affine f

/-- The two halves of an AFFINE64 pair, CONST when nothing varies (R29). -/
def mkAffine64 {β : Type} (f : Aff64) : Rep β × Rep β :=
  if f.dx = 0 ∧ f.dy = 0 ∧ f.dz = 0 then (.const (lowWord f.c), .const (highWord f.c)) else (.lo64 f, .hi64 f)

/-- The low words of the coefficients of an AFFINE64 form (R29). -/
def lowAff (f : Aff64) : Aff := { c := lowWord f.c, dx := lowWord f.dx, dy := lowWord f.dy, dz := lowWord f.dz }

/-- The representation of a v register in its group (R28). -/
def vRep (x : Group) (r : Nat) : VRep := tget x.v r (.const 0)

/-- The word of a v register at a home position (R28). -/
def vAt (oneD : Bool) (x : Group) (r p : Nat) : Word :=
  repAt (fun b => nth b p 0) (vRep x r) (coordOf oneD x p)

/-- A v register as one word per home position. -/
def vWords (oneD : Bool) (x : Group) (r : Nat) : List Word := (upTo 0 32).map (vAt oneD x r)

/-- What becomes of the other half when one half of an AFFINE64 pair is written (R29). -/
def breakPair (oneD : Bool) (x : Group) (r : Nat) : Group :=
  match vRep x r with
  | .lo64 _ => { x with v := tput x.v (r + 1) (.body (vWords oneD x (r + 1))) }
  | .hi64 f => if vRep x (r - 1) = Rep.lo64 f then { x with v := tput x.v (r - 1) (mkAffine (lowAff f)) } else x
  | _ => x

/-- Fragment words watched after a sign, with those of a register at some positions marked as written (R248). -/
def markWritten (l : List Watch) (r : Nat) (at' : Nat → Bool) : List Watch :=
  l.map (fun e => if e.reg = r && at' e.pos then { e with written := true } else e)

/-- A v register of a whole group written, its poison cleared (R28, R272). -/
def putV (oneD : Bool) (x : Group) (r : Nat) (rep : VRep) : Group :=
  let x := breakPair oneD x r
  { x with v := tput x.v r rep, badV := x.badV.filter (fun e => e.1 ≠ r), watch := markWritten x.watch r (fun _ => true) }

/-- A pair of a whole group written with the two halves of one form (R28, R29). -/
def putPair (oneD : Bool) (x : Group) (r : Nat) (lo hi : VRep) : Group :=
  let x := putV oneD (putV oneD x r lo) (r + 1) hi
  { x with v := tput x.v r lo }

/-- Words written for some home positions: the register becomes BODY and the others keep their values (R31). -/
def putWords (oneD : Bool) (x : Group) (r : Nat) (ws : List (Nat × Word)) : Group :=
  let l := ws.foldl (fun l (p, w) => setNth l p 0 w) (vWords oneD x r)
  let x := breakPair oneD x r
  { x with v := tput x.v r (.body l), badV := x.badV.filter (fun e => !(e.1 = r && ws.any (fun w => w.1 = e.2.1)))
           watch := markWritten x.watch r (fun p => ws.any (fun w => w.1 = p)) }

/-- An s register written; its poison is cleared (R27, R272). -/
def putS (x : Group) (n : Nat) (w : Word) : Group :=
  { x with s := tput x.s n w, badS := x.badS.filter (fun e => e.1 ≠ n) }

/-- Comparison under the integer conditions of R79. -/
def icond (cond : Nat) (w : Nat) (a b : Nat) : Bool :=
  match cond with
  | 0 => a % 2 ^ w = b % 2 ^ w
  | 1 => a % 2 ^ w ≠ b % 2 ^ w
  | 2 => decide (signed w a < signed w b)
  | 3 => decide (signed w a ≤ signed w b)
  | 4 => decide (a % 2 ^ w < b % 2 ^ w)
  | _ => decide (a % 2 ^ w ≤ b % 2 ^ w)

/-- A predicate record at a point (R33, R157). -/
def predAt (p : Pred) (c : Nat × Nat × Nat) : Bool :=
  let a := (affAt p.form c).toNat
  let b := p.bound.toNat
  if p.left then icond p.cond.toNat 32 a b else icond p.cond.toNat 32 b a

/-- The representation of a condition register; c0 reads 1 (R23, R24). -/
def cRep (t : Tbl CRep) (n : Nat) : CRep := if n = 0 then .const true else tget t n (.const false)

/-- A condition register at a home position (R21, R33). -/
def cAt (oneD : Bool) (x : Group) (n p : Nat) : Bool :=
  match cRep x.c n with
  | .const b => b
  | .pred f => predAt f (coordOf oneD x p)
  | .body l => nth l p false

/-- A condition register of a whole group written; a write of c0 is discarded (R24). -/
def putC (x : Group) (n : Nat) (r : CRep) : Group := if n = 0 then x else { x with c := tput x.c n r }

/-- Bits written for some home positions: the condition register becomes BODY (R31, R33). -/
def putBits (oneD : Bool) (x : Group) (n : Nat) (bs : List (Nat × Bool)) : Group :=
  if n = 0 then x
  else
    let l := bs.foldl (fun l (p, b) => setNth l p false b) ((upTo 0 32).map (cAt oneD x n))
    { x with c := tput x.c n (.body l) }

/-- A latch entry's word at a point (R25). -/
def latchAt (e : LRep) (c : Nat × Nat × Nat) : Word := repAt (fun w => w) e c

/-- A latch ring after a push (R25). -/
def pushRing (ring : List (Option LRep)) (e : LRep) : List (Option LRep) := (some e :: ring).take 8

/-- A latch pushed for one item of a group; poison of older entries moves with them (R25, R272). -/
def pushLatch (x : Group) (p : Nat) (e : LRep) : Group :=
  match itemIn x p with
  | none => x
  | some t =>
    let moved := x.badL.filterMap (fun (q, i) =>
      if q = p then (if i < 7 then some (q, i + 1) else none) else some (q, i))
    { groupSetItem x p { t with ring := pushRing t.ring e } with badL := moved }

/-- The latch ring of an item made invalid (R25, R146). -/
def dropRing (x : Group) (p : Nat) : Group :=
  match itemIn x p with
  | none => x
  | some t => { groupSetItem x p { t with ring := [] } with badL := x.badL.filter (fun e => e.1 ≠ p) }

/-- Home positions of a group that hold a live item or helper. -/
def livePos (x : Group) : List Nat := x.items.map Prod.fst
/-- Home positions of a group that hold a real item. -/
def realPos (x : Group) : List Nat := (x.items.filter (fun t => !t.2.helper)).map Prod.fst
/-- Every live item and helper of the group is among the positions (R31, R145). -/
def wholeGroup (x : Group) (ps : List Nat) : Bool := (livePos x).all (ps.contains ·)

/-- Members of a bundle in one group. -/
def inGroup (ms : List (Nat × Nat)) (g : Nat) : List Nat := (ms.filter (fun m => m.1 = g)).map Prod.snd
/-- Members in ascending gpos, the order in which a step's accesses are performed (R12, R209, R224). -/
def byGpos (ms : List (Nat × Nat)) : List (Nat × Nat) := sortBy Prod.snd ms
/-- Groups that a bundle's members belong to, in issue order. -/
def groupsOf (ms : List (Nat × Nat)) : List Nat := nodup (ms.map Prod.fst)

/-- A group changed, if its gang has it. -/
def updGroup (s : State) (gang g : Nat) (f : Group → Group) : State :=
  match tfind s.gangs gang with
  | none => s
  | some k =>
    match tfind k.groups g with
    | none => s
    | some x => setGang s gang { k with groups := tput k.groups g (f x) }
/-- One item changed, if it is live. -/
def updItem (s : State) (gang g p : Nat) (f : Item → Item) : State :=
  updGroup s gang g (fun x => match itemIn x p with
    | some t => groupSetItem x p (f t)
    | none => x)
/-- Every listed item changed. -/
def updItems (s : State) (gang : Nat) (ms : List (Nat × Nat)) (f : Item → Item) : State :=
  ms.foldl (fun s (g, p) => updItem s gang g p f) s

/-- The word after `len` words: a line's last word is followed by the next line's first payload word (R64, R66). -/
def nextWord (pc : DWord) (len : Nat) : DWord :=
  let n := pc + BitVec.ofNat 64 (4 * len)
  if n.toNat % 128 = 0 then n + 8 else n

/-- Word address of a linear packet index (R66). -/
def packetAddr (p : Nat) : DWord := BitVec.ofNat 64 (p / 10 * 128 + 8 + p % 10 * 12)
/-- Linear packet index of the packet that holds a word (R66). -/
def packetOf (pc : Nat) : Nat := pc / 128 * 10 + (pc % 128 - 8) / 12

/-- The state with the issuing lane's bundle changed. -/
def updBundle (s : State) (w : Where) (f : Bundle → Bundle) : State :=
  let l := laneAt s w.core w.lane
  setLane s w.core w.lane { l with bundle := l.bundle.map f }

/-- The lane gives up its issuing bundle (R146, R147). -/
def dropBundle (s : State) (w : Where) : State :=
  let l := laneAt s w.core w.lane
  setLane s w.core w.lane { l with bundle := none }

/-- The rings of the bundle's items made invalid: a switch point (R146). -/
def dropRings (s : State) (gang : Nat) (ms : List (Nat × Nat)) : State :=
  ms.foldl (fun s (g, p) => updGroup s gang g (fun x => dropRing x p)) s

/-- The bundle stalls without a switch point (R143, R210, R227). -/
def stallOn (s : State) (w : Where) (st : Stall) : State := updBundle s w (fun b => { b with stall := some st })

/-- The lane is busy for more clk; the clk of the step are counted (R145, R156). -/
def spend (s : State) (w : Where) (clk : Nat) (sym : Bool) : State :=
  let s := count s w.core 0x00 clk
  let s := if sym then count s w.core 0x01 1 else s
  let l := laneAt s w.core w.lane
  setLane s w.core w.lane { l with busy := max l.busy s.now + clk }

/-- The lane is busy for more clk in which no step issues: a pour, a rejoin (R156, R169, R174). -/
def occupy (s : State) (w : Where) (clk : Nat) : State :=
  let l := laneAt s w.core w.lane
  setLane s w.core w.lane { l with busy := max l.busy s.now + clk }

/-- What a chain's member leaves behind for the chain it belongs to (R71, R145): its occupancy, whether it was symbolic,
and whether another member follows. -/
structure Link where
  chained : Bool
  occ : Nat := 1
  sym : Bool := false
  deriving DecidableEq, Repr

/-- The slots' record of which groups issued last (R142). -/
def touchSlots (l : Lane) (gang : Nat) (gs : List Nat) (now : Nat) : Lane :=
  { l with slots := l.slots.map (fun sl => match sl.group with
      | some (k, g) => if k = gang && gs.contains g then { sl with last := now } else sl
      | none => sl) }

/-- The end of a member for the items that go on: the next member follows, or the chain's time is spent (R71, R145).
`all` are the items that issued the member; the chain's time is that of the items that issued its first. -/
def endMember (s : State) (w : Where) (all rest : List (Nat × Nat)) (k : Link) (switch : Bool) : State :=
  let all := if w.b.issued.isEmpty then all else w.b.issued
  let occ := max w.b.occ k.occ
  let sym := w.b.symOnly && k.sym
  let alone := rest.all (fun (g, p) => (itemAt s w.b.gang g p).unchained)
  if k.chained && !alone && !rest.isEmpty then
    updBundle s w (fun b => { b with
      members := rest, cidx := b.cidx + 1, occ, symOnly := sym, issued := all, stall := none, prog := {}, fresh := false })
  else
    let s := spend s w (if sym then (groupsOf all).length else all.length * occ) sym
    let s := updItems s w.b.gang rest (fun t => { t with sym := false, unchained := t.unchained && k.chained })
    let s := if w.b.pend = 2 then
        updItems s w.b.gang rest (fun t => { t with readyAt := (laneAt s w.core w.lane).busy })
      else s
    if rest.isEmpty then dropBundle s w
    else if switch || w.b.pend ≠ 0 then dropBundle (dropRings s w.b.gang rest) w
    else updBundle s w (fun b => { b with
      members := rest, cidx := 0, occ := 1, symOnly := true, issued := [], stall := none, prog := {}, fresh := false })

/-- The items that go on stand at the next word (R66). -/
def advance (s : State) (gang : Nat) (ms : List (Nat × Nat)) (len : Nat) : State :=
  updItems s gang ms (fun t => { t with pc := nextWord t.pc len })

/-- Fault record base of a gang: the record section of its save slot (R357). -/
def saveBase (s : State) (g : Gang) : Nat := (fnAt s g.fn).savebase.toNat / 2 ^ 21 * 2 ^ 21 + g.slot.getD 0 * 2 ^ 21
/-- The slot of an item's fault record (R266). -/
def recordAddr (s : State) (g : Gang) (i p : Nat) : Nat := saveBase s g + 0x1000 + 256 * (32 * i + p)

/-- Numbers packed as fields at bit offsets. -/
def fields (l : List (Nat × Nat)) : Nat := l.foldl (fun n (at', v) => n + v * 2 ^ at') 0

/-- The tag of a condition register in a record (R267). -/
def cTag : CRep → Nat
  | .const _ => 0
  | .pred _ => 1
  | .body _ => 3

/-- Bits 1215:0 of a fault record (R267); an invalid latch has no value, and a free value stands for it. -/
def recordBits (s : State) (oneD : Bool) (x : Group) (p : Nat) (t : Item) (c : Trap) : Nat :=
  let at' := coordOf oneD x p
  let lat := (upTo 0 8).map (fun j => match nth t.ring j none with
    | some e => (true, repTag e, (latchAt e at').toNat)
    | none => (false, (Config.freeWord (s.free + 8 + j)).toNat % 4, (Config.freeWord (s.free + j)).toNat))
  fields ([(0, c.code), (8, c.sub % 256), (16, c.cidx), (18, ofBool c.sym), (19, ofBool c.async), (20, ofBool c.wr),
      (21, ofBool (t.level = .supervisor)), (24, c.cv), (28, c.arr), (30, c.cq),
      (64, c.pc.toNat % 2 ^ 57 / 4 * 4), (128, c.epc.toNat), (192, c.addr.toNat), (256, c.prog.toNat),
      (896, c.desc.toNat),
      (1152, (vAt oneD x 0 p).toNat), (1184, (vAt oneD x 1 p).toNat)] ++
    (upTo 0 8).map (fun j => (320 + 32 * j, (nth lat j (false, 0, 0)).2.2)) ++
    (upTo 0 8).map (fun j => (576 + j, ofBool (nth lat j (false, 0, 0)).1)) ++
    (upTo 0 8).map (fun j => (584 + 2 * j, (nth lat j (false, 0, 0)).2.1)) ++
    (upTo 0 112).map (fun j => (640 + 2 * j, if 32 ≤ j && !t.ext then 3 else repTag (vRep x j))) ++
    (upTo 1 7).map (fun j => (864 + 2 * (j - 1), cTag (cRep x.c j))))

/-- A descriptor field of a core's error log entry for a containment (R280). -/
def engEntry (c : Trap) (asid cvq : Nat) (epc : DWord) : DWord :=
  BitVec.ofNat 64 (c.code * 2 ^ 58 + c.sub % 256 * 2 ^ 50 + asid * 2 ^ 38 + cvq * 2 ^ 34 + bits epc.toNat 33 2)

/-- A record added to a function's halted-gang ring (R412). -/
def addHalted (s : State) (fn : Nat) (r : BitVec 256) : State :=
  let x := fnAt s fn
  let x := if (x.tail + 128 - x.head) % 128 ≥ 64 then { x with hovf := true }
    else { x with hg := tput x.hg (x.tail % 64) r, tail := (x.tail + 1) % 128 }
  raiseMsix (setFn s fn x) fn 2

/-- Containment (R269): the gang stops at its items' next switch points, an engine-fault log entry is made and the
halted-gang record is added. `kind` is that of R413. -/
def contain (s : State) (gang : Nat) (pc : DWord) (c : Trap) (kind ocause hcode : Nat) : State :=
  let g := gangAt s gang
  if g.phase = .contained then s
  else
    let k := coreAt s g.core
    let fence := g.fabrt ||
      k.lanes.any (fun (_, l) => l.bundle.any (fun b => b.gang = gang && b.span.isNone && b.stall.isSome && b.prog.fence))
    let snap := s.rootOps.find? (fun o => o.2.gang = gang && o.2.kind = 0 && o.2.report.isNone)
    let ln := tget s.launches g.launch { fn := g.fn, queue := g.queue, lseq := 0, pkt := 0 }
    let rec256 := fields [(0, kind), (8, if kind = 2 then 0 else c.code), (16, if kind = 2 then 0 else c.sub % 256),
      (32, ofBool fence), (34, ocause), (60, g.asid), (72, ln.lseq.toNat), (104, g.queue),
      (107, g.index % 2 ^ 21), (128, pc.toNat), (192, hcode)]
    let entry := engEntry c g.asid (if c.code = 0x13 then c.cq else c.cv) (if c.async then c.epc else pc)
    let k := { k with engLog := logAdd k.engLog 4 entry }
    let s := count (setCore s g.core k) g.core 0x14 1
    let s := setGang s gang { g with phase := .contained, since := s.now }
    -- a `snap` in progress completes first, and its handle goes into the record (R380)
    match snap with
    | some (i, o) => { s with rootOps := tput s.rootOps i { o with report := some (BitVec.ofNat 256 rec256) } }
    | none => addHalted s g.fn (BitVec.ofNat 256 rec256)

/-- Words written at the supervisor's virtual address by a delivery, as stores of the gang's cluster (R266). -/
def storeNow (s : State) (core asid : Nat) (va : Nat) (l : List Byte) : Except Trap (Option State) :=
  match translateNow s { asid, level := .supervisor, write := true } va l.length with
  | .fault code addr => .error { code, addr := BitVec.ofNat 64 addr, wr := true }
  | .miss _ => .ok none
  | .ok ls => .ok (storeBytes s core (clusterOf core) asid ls va l)

/-- Bytes read at supervisor level by a delivery or a return (R264, R270): none while the page is host-owned. -/
def loadNow (s : State) (core asid : Nat) (a : Access) (va n : Nat) : Except Trap (Option (List Byte)) :=
  match translateNow s a va n with
  | .fault code addr => .error { code, addr := BitVec.ofNat 64 addr }
  | .miss _ => .ok none
  | .ok ls =>
    let r := loadBytes s core asid ls va n
    if r.bad then .error { code := 0x0E, sub := 5, addr := BitVec.ofNat 64 va } else .ok (some r.data)

/-- Header of a fetch line (R64). -/
def headerOf (l : List Byte) : Nat := ofBytes (l.take 8)
/-- E of a header (R64). -/
def hdrE (h : Nat) : Bool := bit h 57
/-- I of a header (R64). -/
def hdrI (h : Nat) : Bool := bit h 56
/-- L of a header (R64). -/
def hdrL (h : Nat) : Bool := bit h 58
/-- WS of a header (R64). -/
def hdrWS (h : Nat) : Nat := bits h 55 42
/-- TGT of a header (R64). -/
def hdrTgt (h p : Nat) : Bool := bit h (32 + p)
/-- START of a header (R64). -/
def hdrStart (h j : Nat) : Bool := bit h j

/-- An item parked with a cause (R205, R268). -/
def parkItem (s : State) (gang i p : Nat) (c : Trap) (set : Nat) (written : Bool) : State :=
  updItem s gang i p (fun t => { t with wait := .parked c set written })

/-- The first half of taking an exception (R266): the item's record is written. Otherwise the gang is contained (R269), or the
item stays parked while the host owns a page of the record or the tail buffer is full (R205). -/
def writeRecord (s : State) (gang i p : Nat) (c : Trap) (set : Nat) : Except State State :=
  let g := gangAt s gang
  let t := itemAt s gang i p
  let park (s : State) : State := parkItem s gang i p c set false
  if t.frame then .error (contain (park s) gang t.pc c 1 0 0)
  else
    match storeNow s g.core g.asid (recordAddr s g i p) (toBytes 192 (recordBits s g.oneD (groupAt s gang i) p t c)) with
    | .error f => .error (contain (park s) gang t.pc f 1 c.code 0)
    | .ok none => .error (park s)
    | .ok (some s) => .ok { s with free := s.free + 16 }

/-- The second half (R266): the vector is read and checked, and the item stands at its handler at supervisor level; or the gang is
contained (R269), or the item stays parked while the host owns a page. -/
def enterHandler (s : State) (gang i p : Nat) (c : Trap) (set : Nat) : State :=
  let g := gangAt s gang
  let t := itemAt s gang i p
  let park (s : State) : State := parkItem s gang i p c set true
  let slot := recordAddr s g i p
  let d := (tget s.ctx g.asid 0).toNat
  if !bit d 64 then contain (park s) gang t.pc c 0 0 0
  else
    match loadNow s g.core g.asid { asid := g.asid, level := .supervisor } (bits d 56 8 * 256 + 8 * c.code) 8 with
    | .error f => contain (park s) gang t.pc f 1 c.code 0
    | .ok none => park s
    | .ok (some v) =>
      let e := ofBytes v
      if e = 0 then contain (park s) gang t.pc c 0 0 0
      else if e % 128 ≠ 8 || 2 ^ 57 ≤ e then
        contain (park s) gang t.pc { code := 0x08, addr := BitVec.ofNat 64 e } 1 c.code 0
      else
        match loadNow s g.core g.asid { asid := g.asid, level := .supervisor, exec := true } (e / 128 * 128) 128 with
        | .error f => contain (park s) gang t.pc { f with addr := BitVec.ofNat 64 e } 1 c.code 0
        | .ok none => park s
        | .ok (some h) =>
          if !hdrE (headerOf h) then
            contain (park s) gang t.pc { code := 0x08, addr := BitVec.ofNat 64 e } 1 c.code 0
          else
            let s := count s g.core 0x11 1
            let s := updGroup s gang i (fun x =>
              dropRing (putWords g.oneD (putWords g.oneD x 0 [(p, BitVec.ofNat 32 slot)]) 1
                [(p, BitVec.ofNat 32 (slot / 2 ^ 32))]) p)
            updItem s gang i p (fun t => { t with
              prior := t.level, level := .supervisor, frame := true, pc := BitVec.ofNat 64 e, wait := .ready
              readyAt := s.now, pass := 0, unchained := false, sym := false })

/-- Taking an exception (R266): the record is written, and then the handler entered. `p` is the item's home position, `i` its
group. -/
def deliver (s : State) (gang i p : Nat) (c : Trap) : State :=
  match writeRecord s gang i p c 0 with
  | .error s => s
  | .ok s => enterHandler s gang i p c 0

/-- Items of a gang parked in a set, in ascending gpos: group, position, cause, whether the record is written. -/
def parkedSet (s : State) (gang set : Nat) : List (Nat × Nat × Trap × Bool) :=
  sortBy (fun m => m.2.1) ((gangAt s gang).groups.flatMap (fun (i, x) => x.items.filterMap (fun (p, t) => match t.wait with
    | .parked c n w => if n = set then some (i, p, c, w) else none
    | _ => none)))

/-- Records of a set written in order until one cannot be (R268). -/
def writeRecords (s : State) (gang set : Nat) : List (Nat × Nat × Trap × Bool) → State
  | [] => s
  | (i, p, c, w) :: r =>
    if w then writeRecords s gang set r
    else match writeRecord s gang i p c set with
      | .error s => s
      | .ok s => writeRecords (parkItem s gang i p c set true) gang set r

/-- The items of a set go on: their records are written in ascending gpos, and they enter their handlers when the last of them is
written (R268). -/
def deliverSet (s : State) (gang set : Nat) : State :=
  let s := writeRecords s gang set (parkedSet s gang set)
  if (gangAt s gang).phase = .contained || (parkedSet s gang set).any (fun m => !m.2.2.2) then s
  else (parkedSet s gang set).foldl (fun s (i, p, c, _) =>
    if (gangAt s gang).phase = .contained then s else enterHandler s gang i p c set) s

/-- A cause completed with where it arose: the position in the chain, the resume point and the SYM mark (R267). -/
def causeAt (w : Where) (t : Item) (c : Trap) : Trap :=
  { c with cidx := w.b.cidx, sym := c.sym || t.sym, pc := if c.pc = 0 then t.pc else c.pc }

/-- An item is parked with a cause. -/
def isParked (t : Item) : Bool := match t.wait with
  | .parked _ _ _ => true
  | _ => false

/-- The items that trap in a step are delivered in ascending gpos; where one delivery must wait, they park as a set whose members
become ready when the last of their records is written (R268). -/
def deliverAll (s : State) (w : Where) (l : List (Nat × Nat × Trap)) : State :=
  let gang := w.b.gang
  let l := sortBy (fun t => t.2.1) l
  let cause (s : State) (g p : Nat) (c : Trap) : Trap := causeAt w (itemAt s gang g p) c
  let done := l.foldl (fun s (g, p, c) =>
    if (gangAt s gang).phase = .contained then s else deliver s gang g p (cause s g p c)) s
  if l.length < 2 || (gangAt done gang).phase = .contained || !l.any (fun (g, p, _) => isParked (itemAt done gang g p)) then done
  else
    let (n, s) := newName s
    deliverSet (l.foldl (fun s (g, p, c) => parkItem s gang g p (cause s g p c) n false) s) gang n

end Sys2Proof.Machine
end

