-- ==== Sys2Proof/Machine/Operands.lean ====
section
/-!
DEFINITION. Every operand form (R73 to R75, R104): what a field names, its value for an item, its closed form for a home
group or a span (R28 to R30), the checks of R83 on it, and the poison it carries (R272).
-/
namespace Sys2Proof.Machine

/-- A closed form of a source or result: CONST with its value, AFFINE, or AFFINE64 (R28). BODY has none. -/
inductive Form where
  | const (v : DWord)
  | aff (f : Aff)
  | wide (f : Aff64)
  deriving DecidableEq, Repr

/-- An operand of an instruction: its field, the words it names, and whether it is a 64-bit operand. -/
structure Src where
  f : Field7
  wide : Bool := false
  deriving DecidableEq, Repr

/-- The words a source names: a pair when it is 64 bits wide (R22, R104). -/
def Src.words (x : Src) : Nat := if x.wide then 2 else 1

/-- The s register an operand word names (R73). -/
def extS (ext : Word) : Nat := bits ext.toNat 9 0

/-- The closed form of one 32-bit register or latch: the low half of an AFFINE64 pair counts as AFFINE, the high half as
BODY (R29). -/
def repForm {β : Type} : Rep β → Option Form
  | .const k => some (.const (k.setWidth 64))
  | .affine f => some (.aff f)
  | .lo64 f =>
    let g := lowAff f
    if g.dx = 0 ∧ g.dy = 0 ∧ g.dz = 0 then some (.const (g.c.setWidth 64)) else some (.aff g)
  | .hi64 _ => none
  | .body _ => none

/-- The closed form of a v pair as a 64-bit source (R30, R104, R105). -/
def pairForm {β : Type} (lo hi : Rep β) : Option Form :=
  match lo, hi with
  | .lo64 f, .hi64 g => if f = g then some (.wide f) else none
  | .const a, .const b => some (.const (pair b a))
  | .affine f, .const b => if b = 0 then some (.aff f) else none
  | _, _ => none

/-- Sources that read no register: zero, the coordinates and the immediate (R30, R73). -/
def plainForm (x : Src) (ext : Word) (gpos : Option Form) : Option Form :=
  match x.f.toNat with
  | 120 => some (.const 0)
  | 121 => some (.aff { c := 0, dx := 1, dy := 0, dz := 0 })
  | 122 => some (.aff { c := 0, dx := 0, dy := 1, dz := 0 })
  | 123 => some (.aff { c := 0, dx := 0, dy := 0, dz := 1 })
  | 125 => some (.const (if x.wide then ext.signExtend 64 else ext.setWidth 64))
  | 126 => gpos
  | _ => none

/-- The form of `gpos`: AFFINE in a 1-D home group, BODY elsewhere (R30). -/
def gposForm (oneD : Bool) (x : Group) : Option Form :=
  if oneD then some (.aff { c := 0 - BitVec.ofNat 32 x.ox, dx := 1, dy := 0, dz := 0 }) else none

/-- A source's closed form over registers, scalars and a ring that are given (R30, R73). -/
def formOf {β : Type} (v : Tbl (Rep β)) (sc : Tbl Word) (ring : List (Option LRep)) (gpos : Option Form) (x : Src)
    (ext : Word) : Option Form :=
  let n := x.f.toNat
  if n < 112 then
    if x.wide then pairForm (tget v n (.const 0)) (tget v (n + 1) (.const 0)) else repForm (tget v n (.const 0))
  else if n < 120 then
    match nth ring (n - 112) none with
    | some e => repForm e
    | none => none
  else if n = 124 then
    let k := extS ext
    some (.const (if x.wide then pair (tget sc (k + 1) 0) (tget sc k 0) else (tget sc k 0).setWidth 64))
  else plainForm x ext gpos

/-- A source's closed form in a home group, for the items that issue: their rings must agree (R30). -/
def groupForm (oneD : Bool) (x : Group) (ps : List Nat) (ext : Word) (src : Src) : Option Form :=
  let rings := ps.map (fun p => ((itemIn x p).map Item.ring).getD [])
  match rings with
  | [] => none
  | r :: rest =>
    if isLatch src.f && !rest.all (fun q => nth q (src.f.toNat - 112) none = nth r (src.f.toNat - 112) none) then none
    else formOf x.v x.s r (gposForm oneD x) src ext

/-- A source's value for an item (R73, R104). -/
def srcAt (oneD : Bool) (x : Group) (p : Nat) (ext : Word) (src : Src) : DWord :=
  let n := src.f.toNat
  if n < 112 then
    if src.wide then pair (vAt oneD x (n + 1) p) (vAt oneD x n p) else (vAt oneD x n p).setWidth 64
  else if n < 120 then
    match nth (((itemIn x p).map Item.ring).getD []) (n - 112) none with
    | some e => (latchAt e (coordOf oneD x p)).setWidth 64
    | none => 0
  else if n = 124 then
    let k := extS ext
    if src.wide then pair (tget x.s (k + 1) 0) (tget x.s k 0) else (tget x.s k 0).setWidth 64
  else
    let (cx, cy, cz) := coordOf oneD x p
    match n with
    | 121 => BitVec.ofNat 64 (cx % 2 ^ 32)
    | 122 => BitVec.ofNat 64 (cy % 2 ^ 32)
    | 123 => BitVec.ofNat 64 (cz % 2 ^ 32)
    | 125 => if src.wide then ext.signExtend 64 else ext.setWidth 64
    | 126 => BitVec.ofNat 64 p
    | _ => 0

/-- The value of a form at a point. -/
def formAt (f : Form) (c : Nat × Nat × Nat) : DWord :=
  match f with
  | .const v => v
  | .aff f => (affAt f c).setWidth 64
  | .wide f => aff64At f c

/-- A registers' use by an instruction: the fields named with their words, whichever of them are read. -/
structure Uses where
  named : List (Field7 × Nat)
  read : List (Field7 × Nat)
  ext : Word
  deriving DecidableEq, Repr

/-- REGBLOCK (R21): a register outside the blocks held. -/
def blockTrap (x : Group) (t : Item) (ext : Word) (f : Field7 × Nat) : Option Trap :=
  let n := f.1.toNat
  if n < 112 then
    if 32 < n + f.2 && !t.ext then some { code := 0x06, sub := 0, addr := BitVec.ofNat 64 (max n 32) } else none
  else if n = 124 then
    if x.blocks < (extS ext + f.2 - 1) / 64 then some { code := 0x06, sub := 1, addr := BitVec.ofNat 64 (extS ext) }
    else none
  else none

/-- LATCH_LOST (R25): an invalid latch is read. -/
def latchTrap (t : Item) (f : Field7 × Nat) : Option Trap :=
  if isLatch f.1 && (nth t.ring (f.1.toNat - 112) none).isNone then
    some { code := 0x04, sub := f.1.toNat - 112 }
  else none

/-- The first that an option-valued test gives over a list. -/
def firstOf {α β : Type} (f : α → Option β) : List α → Option β
  | [] => none
  | x :: r => match f x with
    | some y => some y
    | none => firstOf f r

/-- DATA_LOST for a poisoned register word that is read (R272). -/
def poisonTrap (x : Group) (p : Nat) (ext : Word) (f : Field7 × Nat) : Option Trap :=
  let n := f.1.toNat
  if n < 112 then
    match x.badV.find? (fun e => n ≤ e.1 && e.1 < n + f.2 && e.2.2 ≠ 0 && (e.2.1 = p || e.2.1 = 32)) with
    | some e => some { code := 0x0E, sub := if e.2.1 = 32 then 2 else 1, addr := BitVec.ofNat 64 e.1 }
    | none => none
  else if n < 120 then
    if x.badL.contains (p, n - 112) then some { code := 0x0E, sub := 1, addr := BitVec.ofNat 64 n } else none
  else if n = 124 then
    match x.badS.find? (fun e => extS ext ≤ e.1 && e.1 < extS ext + f.2 && e.2 ≠ 0) with
    | some e => some { code := 0x0E, sub := 2, addr := BitVec.ofNat 64 e.1 }
    | none => none
  else none

/-- The causes of R83 that an item's operands meet, then DATA_LOST (R83, R272). -/
def useTrap (x : Group) (p : Nat) (u : Uses) : Option Trap :=
  match itemIn x p with
  | none => none
  | some t =>
    (firstOf (blockTrap x t u.ext) u.named).or ((firstOf (latchTrap t) u.read).or
      (firstOf (poisonTrap x p u.ext) u.read))

/-- The causes that stand before UNIFORM_ASSERT (R83). -/
def earlyTrap (x : Group) (p : Nat) (u : Uses) : Option Trap :=
  match itemIn x p with
  | none => none
  | some t => (firstOf (blockTrap x t u.ext) u.named).or (firstOf (latchTrap t) u.read)

/-- A source is uniform over the bundle: CONST with one value in every home group (R32). -/
def uniformSrc (oneD : Bool) (groups : List (Group × List Nat)) (ext : Word) (src : Src) : Bool :=
  let fs : List (Option Form) := groups.map (fun (x, ps) => groupForm oneD x ps ext src)
  match fs with
  | some (.const v) :: r => r.all (fun f => f = some (.const v))
  | _ => false

/-- A condition register is uniform over the bundle (R32). -/
def uniformC (groups : List (Group × List Nat)) (n : Nat) : Bool :=
  let fs : List CRep := groups.map (fun g => cRep g.1.c n)
  match fs with
  | .const v :: r => r.all (fun f => f = .const v)
  | _ => false

/-- An issuing item reads a register whose load has not returned (R210). -/
def awaitsLoad (s : State) (gang : Nat) (ms : List (Nat × Nat)) (u : Uses) : Bool :=
  ms.any (fun (g, p) => (groupAt s gang g).board.any (fun o => o.gpos = p &&
    u.read.any (fun f => f.1.toNat ≤ o.reg && o.reg < f.1.toNat + f.2)))

/-- The fast-file slot of a group, with its number (R141). -/
def slotOf (l : Lane) (gang g : Nat) : Option (Nat × Slot) :=
  match l.slots with
  | a :: b :: _ =>
    if a.group = some (gang, g) then some (0, a) else if b.group = some (gang, g) then some (1, b) else none
  | _ => none

/-- Banks with BODY words that a step touches and that are not present in their group's slot (R143). -/
def missingBanks (s : State) (w : Where) (touch : List (Nat × Nat)) : List (Nat × Nat × Nat) :=
  let l := laneAt s w.core w.lane
  (nodup (touch.map (fun (g, r) => (g, r / 8)))).filterMap (fun (g, b) =>
    match slotOf l w.b.gang g with
    | some (_, sl) => if sl.banks.contains b then none else some (w.b.gang, g, b)
    | none => some (w.b.gang, g, b))

/-- Registers of a group that are BODY among those named (R28, R143). -/
def bodyRegs (x : Group) (l : List (Field7 × Nat)) : List Nat :=
  (l.flatMap (fun (f, n) => if isV f then upTo f.toNat n else [])).filter (fun r =>
    match vRep x r with
    | .body _ => true
    | _ => false)

/-- The slots after the banks of registers touched have been used: the most recently used of each slot stands first
(R143). -/
def useBanks (l : Lane) (gang : Nat) (touch : List (Nat × Nat)) : Lane :=
  { l with slots := l.slots.map (fun sl => match sl.group with
      | some (k, g) =>
        let used := nodup ((touch.filter (fun t => t.1 = g)).map (fun t => t.2 / 8))
        if k = gang then { sl with banks := (sl.banks.filter (used.contains ·)) ++ sl.banks.filter (!used.contains ·) } else sl
      | none => sl) }

/-- The high half of an AFFINE64 pair that becomes BODY when its low half, the last of the registers written, is written
alone (R29, R143). -/
def brokenHigh (x : Group) (r n : Nat) : List Nat :=
  match vRep x (r + (n - 1)) with
  | .lo64 _ => [r + n]
  | _ => []

/-- The bundle stalls while the banks come in: 40 clk each (R143). -/
def stallBanks (s : State) (w : Where) (miss : List (Nat × Nat × Nat)) : State :=
  let s := count s w.core 0x04 1
  let s := count s w.core 0x05 (40 * miss.length)
  stallOn s w (.bank (s.now + 40 * miss.length) miss)

/-- The state after a step has used the banks of the registers touched, pairs of group and number (R143). -/
def usedBanks (s : State) (w : Where) (touch : List (Nat × Nat)) : State :=
  setLane s w.core w.lane (useBanks (laneAt s w.core w.lane) w.b.gang touch)

/-- A core storage log entry for a word of a register file (R273). -/
def storEntry (kind asid lane res index : Nat) : DWord :=
  BitVec.ofNat 64 (kind * 2 ^ 60 + asid * 2 ^ 48 + lane * 2 ^ 40 + res * 2 ^ 38 + index * 2 ^ 20)

/-- Kind and index of a struck register word in the core storage log (R273): its place in the fast file while its bank stands
there, its table entry, or its word in a granule of the narrow file; which granule an item's slice occupies is not
architectural, and a free value stands for it. -/
def wordIndex (free : Nat) (l : Lane) (gang g : Nat) (x : Group) (r p : Nat) : Nat × Nat :=
  let narrow := (0, (Config.freeWord (free + r)).toNat % 256 * 16 + r % 16)
  if p = 32 then (3, x.res * 112 + r)
  else match slotOf l gang g with
    | some (k, sl) =>
      if sl.banks.contains (r / 8) then (1, k * 1024 + (sl.banks.idxOf (r / 8)) * 256 + (r % 8) * 32 + p) else narrow
    | none => narrow

/-- Index of a struck word of the scalar file (R273): by the group's residence in the core for s0 to s63; which pool block holds
the others is not architectural, and a free value stands for it. -/
def scalarIndex (free lane res n : Nat) : Nat :=
  if n < 64 then (lane * 4 + res) * 64 + n else 65536 + (Config.freeWord (free + n / 64)).toNat % 1024 * 64 + n % 64

/-- Storage errors that the reads of a step meet: a correctable word is corrected and counted; an uncorrectable one is
counted, entered in the log and poisoned (R272, R273, R281). -/
def meetErrors (s : State) (w : Where) (ms : List (Nat × Nat)) (u : Uses) : State :=
  (groupsOf ms).foldl (fun s g =>
    let x := groupAt s w.b.gang g
    if x.badV.isEmpty && x.badS.isEmpty then s
    else
      let ps := inGroup ms g
      let readsV (r p : Nat) : Bool := (p = 32 || ps.contains p) &&
        u.read.any (fun f => f.1.toNat ≤ r && r < f.1.toNat + f.2 && isV f.1)
      let readsS (n : Nat) : Bool := u.read.any (fun f => f.1 = 124 && extS u.ext ≤ n && n < extS u.ext + f.2)
      let l := laneAt s w.core w.lane
      let asid := (gangAt s w.b.gang).asid
      let metV := x.badV.filter (fun e => e.2.2 ≠ 2 && readsV e.1 e.2.1)
      let metS := x.badS.filter (fun e => e.2 ≠ 2 && readsS e.1)
      let fixed := (metV.filter (fun e => e.2.2 = 0)).length + (metS.filter (fun e => e.2 = 0)).length
      let lost := (metV.length + metS.length) - fixed
      let entries := (metV.filter (fun e => e.2.2 = 1)).map (fun e =>
          let (k, i) := wordIndex s.free l w.b.gang g x e.1 e.2.1
          storEntry k asid w.lane x.res i) ++
        (metS.filter (fun e => e.2 = 1)).map (fun e => storEntry 2 asid w.lane x.res (scalarIndex s.free w.lane x.res e.1))
      let x := { x with
        badV := x.badV.filterMap (fun e => if metV.contains e then (if e.2.2 = 0 then none else some (e.1, e.2.1, 2)) else some e)
        badS := x.badS.filterMap (fun e => if metS.contains e then (if e.2 = 0 then none else some (e.1, 2)) else some e) }
      let s := setGroup s w.b.gang g x
      let s := count (count s w.core 0x12 fixed) w.core 0x13 lost
      let k := coreAt s w.core
      setCore s w.core { k with storLog := entries.foldl (fun l e => logAdd l 4 e) k.storLog }) s

/-- The members of a bundle after the checks of an instruction: those that act, the real items that trap, the helpers
that would trap (R20, R83). -/
structure Sifted where
  go : List (Nat × Nat)
  traps : List (Nat × Nat × Trap)
  zero : List (Nat × Nat)
  deriving DecidableEq, Repr

/-- Members sorted by what a check says of each (R20, R81). -/
def sift (s : State) (gang : Nat) (check : Nat → Nat → Option Trap) : List (Nat × Nat) → Sifted
  | [] => { go := [], traps := [], zero := [] }
  | (g, p) :: r =>
    let k := sift s gang check r
    match check g p with
    | none => { k with go := (g, p) :: k.go }
    | some c =>
      if (itemAt s gang g p).helper then { k with zero := (g, p) :: k.zero }
      else { k with traps := (g, p, c) :: k.traps }

/-- A result's words for one item put into its destination: v register, s register (through `sWrite`) or the ring alone,
each word pushed (R25, R74). -/
def giveWords (oneD : Bool) (x : Group) (p : Nat) (d : Field7) (ws : List Word) : Group :=
  let x := if isV d then (ws.zip (upTo d.toNat ws.length)).foldl (fun x (v, r) => putWords oneD x r [(p, v)]) x else x
  ws.foldl (fun x v => pushLatch x p (.body v)) x

/-- A helper that would trap receives zero in every destination word (R20). -/
def zeroWords (s : State) (gang : Nat) (d : Field7) (n : Nat) (ms : List (Nat × Nat)) : State :=
  ms.foldl (fun s (g, p) => updGroup s gang g (fun x =>
    giveWords (gangAt s gang).oneD x p d (List.replicate n 0))) s

/-- The lowest real item among positions: the writer of an s register (R27). -/
def sWriter (x : Group) (ps : List Nat) : Option Nat :=
  leastBy id (ps.filter (fun p => ((itemIn x p).map (fun t => !t.helper)).getD false))

/-- The end of an instruction whose acting items have had their effect: helpers that would trap get zero, all but the
trapping items stand at the next word, the traps are delivered, the chain goes on (R20, R66, R71, R268). -/
def conclude (s : State) (w : Where) (k : Sifted) (d : Field7) (n len : Nat) (link : Link) (switch : Bool) : State :=
  let s := zeroWords s w.b.gang d n k.zero
  let rest := w.b.members.filter (fun m => !k.traps.any (fun t => (t.1, t.2.1) = m))
  let s := advance s w.b.gang rest len
  let s := deliverAll s w k.traps
  endMember s w w.b.members rest link switch

end Sys2Proof.Machine
end

