-- ==== Sys2Proof/Machine/Flags.lean ====
section
/-!
DEFINITION. The float status word (R26, R121) and the flag bits that operations raise.
-/
namespace Sys2Proof.Machine

/-- NV: invalid operation (R26). -/
def flagNV : Nat := 1
/-- OF: overflow (R26). -/
def flagOF : Nat := 2
/-- UF: underflow (R26). -/
def flagUF : Nat := 4
/-- NX: inexact (R26). -/
def flagNX : Nat := 8
/-- NS: narrow-saturate (R26). -/
def flagNS : Nat := 16
/-- NL: NaN-lost (R26). -/
def flagNL : Nat := 32

/-- Flags ORed into a home group's status word: sticky (R26, R121). -/
def groupFlags (x : Group) (fl : Nat) : Group := { x with status := x.status ||| BitVec.ofNat 32 (fl % 64) }

/-- The flag word with `keep` bits kept and the others taken from a value (R276). -/
def setFlags (old a : Word) (keep : Nat) : Word :=
  (old &&& BitVec.ofNat 32 keep) ||| (a &&& 63 &&& ~~~(BitVec.ofNat 32 keep))

/-- A flag bit if a condition holds. -/
def flagIf (c : Bool) (f : Nat) : Nat := if c then f else 0

end Sys2Proof.Machine
end

