-- ==== Sys2Proof/Machine/Numbers.lean ====
section
/-!
DEFINITION. Float values and their rounding (spec 02_number_formats.md R42 to R47): exact values, the three IEEE formats,
and exact sums of products.
-/
namespace Sys2Proof.Machine

/-- An IEEE format by exponent width, fraction width and bias (R42). -/
structure Ieee where
  ew : Nat
  mw : Nat
  bias : Nat
  deriving DecidableEq, Repr

/-- f32 (R42). -/
def f32 : Ieee := { ew := 8, mw := 23, bias := 127 }
/-- f16 (R42). -/
def f16 : Ieee := { ew := 5, mw := 10, bias := 15 }
/-- bf16 (R42). -/
def bf16 : Ieee := { ew := 8, mw := 7, bias := 127 }

/-- An exact value: `fin neg n d e` is (−1)^neg · n/d · 2^e with d ≥ 1; `sig` marks a signalling NaN. -/
inductive Val where
  | nan (sig : Bool)
  | inf (neg : Bool)
  | fin (neg : Bool) (n d : Nat) (e : Int)
  deriving DecidableEq, Repr

/-- Exponent field of a format all ones. -/
def Ieee.top (f : Ieee) : Nat := 2 ^ f.ew - 1
/-- The format's infinity without its sign. -/
def Ieee.infBits (f : Ieee) : Nat := f.top * 2 ^ f.mw
/-- The format's canonical NaN (R42, R44). -/
def Ieee.canon (f : Ieee) : Nat := f.infBits + 2 ^ (f.mw - 1)
/-- The format's sign bit. -/
def Ieee.signBit (f : Ieee) (neg : Bool) : Nat := if neg then 2 ^ (f.ew + f.mw) else 0
/-- Least exponent of a normal value (R42). -/
def Ieee.emin (f : Ieee) : Int := 1 - (f.bias : Int)

/-- The exact value of a code (R42, R43). -/
def unpack (f : Ieee) (w : Nat) : Val :=
  let m := w % 2 ^ f.mw
  let e := (w >>> f.mw) % 2 ^ f.ew
  let neg := bit w (f.ew + f.mw)
  if e = f.top then (if m = 0 then .inf neg else .nan (decide (m < 2 ^ (f.mw - 1))))
  else if e = 0 then .fin neg m 1 (f.emin - f.mw)
  else .fin neg (m + 2 ^ f.mw) 1 ((e : Int) - f.bias - f.mw)

/-- The quotient and remainder of n/d · 2^k: the floor, the remainder and the divisor it is over. -/
def scaled (n d : Nat) (k : Int) : Nat × Nat × Nat :=
  let a := if 0 ≤ k then n * 2 ^ k.toNat else n
  let b := if 0 ≤ k then d else d * 2 ^ (-k).toNat
  (a / b, a % b, b)

/-- ⌊log2 (n/d)⌋ for n, d ≥ 1. -/
def floorLog2 (n d : Nat) : Int :=
  let k : Int := (Nat.log2 n : Int) - Nat.log2 d
  if (scaled n d (-k)).1 = 0 then k - 1 else k

/-- n/d · 2^k rounded to an integer: to nearest, ties to even or away; and whether it was inexact (R45). -/
def roundInt (away : Bool) (n d : Nat) (k : Int) : Nat × Bool :=
  let (q, r, b) := scaled n d k
  (if b < 2 * r || (2 * r = b && (away || q % 2 = 1)) then q + 1 else q, decide (r ≠ 0))

/-- A finite magnitude n/d · 2^e rounded into a format by `round_rne` (R45, R46): the code and the flags OF, UF, NX
(R47). -/
def roundFin (f : Ieee) (neg : Bool) (n d : Nat) (e : Int) : Nat × Nat :=
  if n = 0 then (f.signBit neg, 0)
  else
    let top := floorLog2 n d + e
    if top < f.emin - f.mw - 1 then (f.signBit neg, flagUF ||| flagNX)
    else
      let u := max top f.emin - f.mw
      let (q, inexact) := roundInt false n d (e - u)
      let code := (u + f.mw + f.bias - 1).toNat * 2 ^ f.mw + q
      if f.infBits ≤ code then (f.signBit neg + f.infBits, flagOF ||| flagNX)
      else
        -- tiny after rounding: rounded to the precision with an unbounded exponent it stays below the least normal
        let tiny := top < f.emin && !(top = f.emin - 1 && (roundInt false n d (e - (top - f.mw))).1 = 2 ^ (f.mw + 1))
        (f.signBit neg + code, flagIf inexact flagNX ||| flagIf (inexact && tiny) flagUF)

/-- A value rounded into a format; a NaN becomes the canonical NaN (R44 to R47). -/
def roundVal (f : Ieee) : Val → Nat × Nat
  | .nan _ => (f.canon, 0)
  | .inf neg => (f.signBit neg + f.infBits, 0)
  | .fin neg n d e => roundFin f neg n d e

/-- A value is a NaN. -/
def Val.isNan : Val → Bool
  | .nan _ => true
  | _ => false
/-- A value is a signalling NaN. -/
def Val.isSig : Val → Bool
  | .nan s => s
  | _ => false
/-- A value is an infinity. -/
def Val.isInf : Val → Bool
  | .inf _ => true
  | _ => false
/-- A value is a zero. -/
def Val.isZero : Val → Bool
  | .fin _ n _ _ => n = 0
  | _ => false
/-- The sign of a value. -/
def Val.neg : Val → Bool
  | .nan _ => false
  | .inf s => s
  | .fin s _ _ _ => s
/-- A value with its sign replaced. -/
def Val.withSign (s : Bool) : Val → Val
  | .nan q => .nan q
  | .inf _ => .inf s
  | .fin _ n d e => .fin s n d e
/-- A value negated. -/
def Val.negate (v : Val) : Val := v.withSign (!v.neg)

/-- The exact product; 0 · ∞ is a NaN that is not signalling. -/
def Val.mul (a b : Val) : Val :=
  match a, b with
  | .nan s, _ => .nan s
  | _, .nan s => .nan s
  | .inf s, .inf t => .inf (s != t)
  | .inf s, .fin t n _ _ => if n = 0 then .nan false else .inf (s != t)
  | .fin s n _ _, .inf t => if n = 0 then .nan false else .inf (s != t)
  | .fin s n d e, .fin t m c g => .fin (s != t) (n * m) (d * c) (e + g)

/-- A finite signed magnitude as a numerator over a power of two: dyadic values only. -/
def signedAt (neg : Bool) (n : Nat) (e lo : Int) : Int :=
  let m : Int := n * 2 ^ (e - lo).toNat
  if neg then -m else m

/-- The exact sum of two dyadic values; an exact zero is −0 only for two negative zeros (R123). -/
def Val.add (a b : Val) : Val :=
  match a, b with
  | .nan s, _ => .nan s
  | _, .nan s => .nan s
  | .inf s, .inf t => if s = t then .inf s else .nan false
  | .inf s, _ => .inf s
  | _, .inf t => .inf t
  | .fin s n d e, .fin t m c g =>
    if n = 0 && m = 0 then .fin (s && t) 0 1 0
    else
      let lo := min e g
      let x := signedAt s (n * c) e lo + signedAt t (m * d) g lo
      .fin (decide (x < 0)) x.natAbs (d * c) lo

/-- The exact sum of exact products rounded once, with its flags (R123, R129, R130). Every list entry is a product; an
addend is a product with one. A quiet NaN operand gives the NaN without NV, opposite infinities beside it or not (DEDUCED, log
entry 18). -/
def sumProducts (f : Ieee) (l : List (Val × Val)) : Nat × Nat :=
  let sig := l.any (fun p => p.1.isSig || p.2.isSig)
  let zeroInf := l.any (fun p => (p.1.isZero && p.2.isInf) || (p.1.isInf && p.2.isZero))
  let anyNan := l.any (fun p => p.1.isNan || p.2.isNan) || zeroInf
  if anyNan then (f.canon, flagIf (sig || zeroInf) flagNV)
  else
    let s := match l with
      | [] => .fin false 0 1 0
      | p :: r => r.foldl (fun s q => s.add (q.1.mul q.2)) (p.1.mul p.2)
    if s.isNan then (f.canon, flagNV) else roundVal f s

/-- The value one. -/
def Val.one : Val := .fin false 1 1 0

/-- a + b (R123). -/
def floatAdd (f : Ieee) (a b : Nat) : Nat × Nat := sumProducts f [(unpack f a, .one), (unpack f b, .one)]
/-- a − b (R123). -/
def floatSub (f : Ieee) (a b : Nat) : Nat × Nat := sumProducts f [(unpack f a, .one), ((unpack f b).negate, .one)]
/-- a · b (R123). -/
def floatMul (f : Ieee) (a b : Nat) : Nat × Nat := sumProducts f [(unpack f a, unpack f b)]
/-- a · b + d (R123). -/
def floatFma (f : Ieee) (a b d : Nat) : Nat × Nat := sumProducts f [(unpack f a, unpack f b), (unpack f d, .one)]

/-- Whether one value stands below another, −0 below +0 (R124); neither is a NaN. -/
def Val.below (a b : Val) : Bool :=
  match a, b with
  | .inf s, .inf t => s && !t
  | .inf s, _ => s
  | _, .inf t => !t
  | .fin s n d e, .fin t m c g =>
    if n = 0 && m = 0 then s && !t
    else
      let lo := min e g
      decide (signedAt s (n * c) e lo < signedAt t (m * d) g lo)
  | _, _ => false

/-- `fmin` and `fmax` (R124). -/
def floatPick (f : Ieee) (greater : Bool) (a b : Nat) : Nat × Nat :=
  let x := unpack f a
  let y := unpack f b
  let fl := flagIf (x.isSig || y.isSig) flagNV
  if x.isNan && y.isNan then (f.canon, fl)
  else if x.isNan then (b, fl)
  else if y.isNan then (a, fl)
  else if greater then (if x.below y then b else a, fl) else (if y.below x then b else a, fl)

/-- `fscale` (R123): ±0, ±∞ and NaN keep their class. -/
def floatScale (a : Nat) (k : Int) : Nat × Nat :=
  match unpack f32 a with
  | .nan s => (f32.canon, flagIf s flagNV)
  | .inf _ => (a, 0)
  | .fin neg n d e => if n = 0 then (a, 0) else roundFin f32 neg n d (e + k)

/-- The class mask of R125. -/
def floatClass (a : Nat) : Nat :=
  match unpack f32 a with
  | .nan true => 1
  | .nan false => 2
  | .inf true => 4
  | .inf false => 512
  | .fin neg n _ _ =>
    if n = 0 then (if neg then 32 else 64)
    else if n < 2 ^ 23 then (if neg then 16 else 128)
    else (if neg then 8 else 256)

/-- The integral value of n/d · 2^e of a sign under RF (R132): to nearest with ties to even, floor, ceiling, toward
zero. -/
def integral (rf : Nat) (neg : Bool) (n d : Nat) (e : Int) : Int :=
  if n = 0 then 0
  else
    let top := floorLog2 n d + e
    -- far below one half, only the direction counts
    let (q, inexact) : Nat × Bool := if top < -2 then (0, true) else
      let (q, r, _) := scaled n d e
      (q, decide (r ≠ 0))
    let near : Nat := if top < -2 then 0 else (roundInt false n d e).1
    let mag : Nat := match rf with
      | 0 => near
      | 1 => if neg && inexact then q + 1 else q
      | 2 => if !neg && inexact then q + 1 else q
      | _ => q
    if neg then -(mag : Int) else mag

/-- Least and greatest value of an integer type (R132). -/
def intRange (it : Nat) : Int × Int :=
  match it with
  | 0 => (-2 ^ 31, 2 ^ 31 - 1)
  | 1 => (0, 2 ^ 32 - 1)
  | 2 => (-2 ^ 63, 2 ^ 63 - 1)
  | _ => (0, 2 ^ 64 - 1)

/-- `f2i` (R132): the 64-bit result and its flags. -/
def floatToInt (it rf : Nat) (a : Nat) : DWord × Nat :=
  let (lo, hi) := intRange it
  match unpack f32 a with
  | .nan _ => (0, flagNV ||| flagNL)
  | .inf neg => (wrap64 (if neg then lo else hi), flagNV ||| flagNX)
  | .fin neg n d e =>
    let t := integral rf neg n d e
    let r := max lo (min hi t)
    let exact := (roundInt false n d e).2 = false && decide (t = r)
    (wrap64 r, flagIf (decide (t ≠ r)) flagNV ||| flagIf (!exact) flagNX)

/-- `frnd` (R134). -/
def floatRound (rf : Nat) (a : Nat) : Nat × Nat :=
  match unpack f32 a with
  | .nan s => (f32.canon, flagIf s flagNV)
  | .inf _ => (a, 0)
  | .fin neg n d e => if n = 0 then (a, 0) else ((roundFin f32 neg (integral rf neg n d e).natAbs 1 0).1, 0)

/-- An exact integer rounded into a format (R133). -/
def intToFloat (f : Ieee) (i : Int) : Nat × Nat := roundFin f (decide (i < 0)) i.natAbs 1 0

/-- An IEEE code converted to another format (R131). -/
def floatCvt (st dt : Ieee) (a : Nat) : Nat × Nat :=
  let v := unpack st a
  let r := roundVal dt v
  (r.1, r.2 ||| flagIf v.isSig flagNV)

end Sys2Proof.Machine
end

