-- ==== Sys2Proof/Machine/Narrow.lean ====
section
/-!
DEFINITION. The narrow family (spec 02_number_formats.md R48 to R57): format-register images, their checks, the value of a code,
encoding with and without a codebook, and block scales.
-/
namespace Sys2Proof.Machine

/-- A field of a format image (R48). -/
def fmtField (f : BitVec 256) (hi lo : Nat) : Nat := bits f.toNat hi lo
/-- S of a format. -/
def fmtS (f : BitVec 256) : Nat := fmtField f 0 0
/-- EW of a format. -/
def fmtEw (f : BitVec 256) : Nat := fmtField f 3 1
/-- MW of a format. -/
def fmtMw (f : BitVec 256) : Nat := fmtField f 6 4
/-- NAN of a format. -/
def fmtNan (f : BitVec 256) : Bool := bit f.toNat 7
/-- BIAS of a format. -/
def fmtBias (f : BitVec 256) : Nat := fmtField f 15 8
/-- Block length L of a format, 0 for none (R48). -/
def fmtL (f : BitVec 256) : Nat := match fmtField f 34 32 with
  | 0 => 0
  | k => 8 * 2 ^ k
/-- SCK of a format. -/
def fmtSck (f : BitVec 256) : Nat := fmtField f 36 35
/-- SCP of a format. -/
def fmtScp (f : BitVec 256) : Bool := bit f.toNat 37
/-- Index bits of a codebook format, 0 without a codebook (R48). -/
def fmtK (f : BitVec 256) : Nat := match fmtField f 39 38 with
  | 0 => 0
  | k => k + 1
/-- CBS: the table lies in the die scratchpad. -/
def fmtCbs (f : BitVec 256) : Bool := bit f.toNat 40
/-- DBASE of a format. -/
def fmtDbase (f : BitVec 256) : Nat := fmtField f 120 64
/-- SBASE of a format. -/
def fmtSbase (f : BitVec 256) : Nat := fmtField f 184 128
/-- TBASE of a format. -/
def fmtTbase (f : BitVec 256) : Nat := fmtField f 248 192
/-- Bytes of a block scale: z of R55. -/
def scaleSize (f : BitVec 256) : Nat := match fmtSck f with
  | 0 => 0
  | 1 => 1
  | _ => 2
/-- Bits of an element (R50, R54). -/
def elemBits (f : BitVec 256) : Nat := if fmtK f ≠ 0 then fmtK f else fmtS f + fmtEw f + fmtMw f

/-- The checks of R49: an all-zero image passes. -/
def fmtOk (f : BitVec 256) : Bool :=
  let w := fmtS f + fmtEw f + fmtMw f
  f = 0 || (
    fmtField f 255 249 = 0 && fmtField f 191 185 = 0 && fmtField f 127 121 = 0 && fmtField f 63 41 = 0 &&
    fmtField f 31 16 = 0 &&
    (if fmtK f = 0 then decide (1 ≤ w) && decide (w ≤ 8) else fmtField f 15 0 = 0) &&
    (!fmtNan f || decide (2 ≤ fmtEw f + fmtMw f)) &&
    decide (fmtField f 34 32 ≤ 5) &&
    (if fmtSck f ≠ 0 then fmtField f 34 32 ≠ 0 else !fmtScp f) &&
    fmtDbase f % 32 = 0 && (!fmtScp f || fmtSck f ≤ 1 || fmtSbase f % 2 = 0) &&
    (fmtK f = 0 || fmtTbase f % 2 ^ (fmtK f + 1) = 0))

/-- Exponent of a narrow format's least normal value. -/
def narEmin (f : BitVec 256) : Int := 1 - (fmtBias f : Int)

/-- The value of a code without a codebook (R50). -/
def narVal (f : BitVec 256) (c : Nat) : Val :=
  let m := c % 2 ^ fmtMw f
  let e := (c >>> fmtMw f) % 2 ^ fmtEw f
  let neg := fmtS f = 1 && bit c (fmtEw f + fmtMw f)
  if fmtNan f && c % 2 ^ (fmtEw f + fmtMw f) = 2 ^ (fmtEw f + fmtMw f) - 1 then .nan false
  else if e = 0 then .fin neg m 1 (narEmin f - fmtMw f)
  else .fin neg (m + 2 ^ fmtMw f) 1 ((e : Int) - fmtBias f - fmtMw f)

/-- The code of the largest finite value (R50). -/
def maxfinCode (f : BitVec 256) : Nat := 2 ^ (fmtEw f + fmtMw f) - 1 - ofBool (fmtNan f)
/-- maxfin (R50). -/
def maxfin (f : BitVec 256) : Val := narVal f (maxfinCode f)

/-- |a| > |b| for finite values given as n/d · 2^e. -/
def magLess (n d : Nat) (e : Int) (m c : Nat) (g : Int) : Bool :=
  let lo := min e g
  decide (n * c * 2 ^ (e - lo).toNat < m * d * 2 ^ (g - lo).toNat)

/-- The encoding of R53: the code and its flags. -/
def encodeNar (f : BitVec 256) (v : Val) : Nat × Nat :=
  let sbit (s : Bool) : Nat := if s && fmtS f = 1 then 2 ^ (fmtEw f + fmtMw f) else 0
  match v with
  | .nan _ => if fmtNan f then (2 ^ (fmtEw f + fmtMw f) - 1, 0) else (0, flagNL)
  | .inf neg =>
    if neg && fmtS f = 0 then (0, flagNS ||| flagNX) else (sbit neg + maxfinCode f, flagNS ||| flagNX)
  | .fin neg n d e =>
    if neg && n ≠ 0 && fmtS f = 0 then (0, flagNS ||| flagNX)
    else if n = 0 then (sbit neg, 0)
    else
      match maxfin f with
      | .fin _ m _ g =>
        if magLess m 1 g n d e then (sbit neg + maxfinCode f, flagNS ||| flagNX)
        else
          let top := floorLog2 n d + e
          let ex := if fmtEw f = 0 then narEmin f else max top (narEmin f)
          let u := ex - fmtMw f
          if top < narEmin f - fmtMw f - 1 then (sbit neg, flagNX)
          else
            let (q, inexact) := roundInt true n d (e - u)
            let code := (ex - narEmin f).toNat * 2 ^ fmtMw f + q
            let uf := inexact && q ≠ 0 && fmtEw f ≠ 0 && code < 2 ^ fmtMw f
            (sbit neg + code, flagIf inexact flagNX ||| flagIf uf flagUF)
      | _ => (0, 0)

/-- The meaning of a block scale's code (R55). -/
def scaleVal (f : BitVec 256) (c : Nat) : Val :=
  match fmtSck f with
  | 1 => if c % 256 = 255 then .nan false else .fin false 1 1 ((c % 256 : Nat) - 127)
  | 2 => unpack bf16 (c % 65536)
  | 3 => unpack f16 (c % 65536)
  | _ => Val.one

/-- A stored scale that R56 rejects: zero, infinite or NaN. -/
def badScale (v : Val) : Bool := v.isZero || v.isInf || v.isNan

/-- A value divided exactly by a finite non-zero scale (R56). -/
def Val.divBy (v s : Val) : Val :=
  match v, s with
  | .nan q, _ => .nan q
  | .inf a, _ => .inf (a != s.neg)
  | .fin a n d e, .fin b m c g => .fin (a != b) (n * c) (d * m) (e - g)
  | v, _ => v

/-- The scale code for a largest magnitude `amax` and a largest element magnitude `top` (R56). -/
def chooseScale (f : BitVec 256) (amax top : Val) : Nat :=
  let unit := match fmtSck f with
    | 1 => 127
    | 2 => 0x3F80
    | _ => 0x3C00
  match amax, top with
  | .fin _ n d e, .fin _ m c g =>
    if n = 0 || m = 0 then unit
    else if fmtSck f = 1 then
      (max 0 (min 254 (floorLog2 n d + e - (floorLog2 m c + g) + 127))).toNat
    else
      let fm := if fmtSck f = 2 then bf16 else f16
      let r := (roundFin fm false (n * c) (d * m) (e - g)).1
      if r = 0 then 1 else if r = fm.infBits then fm.infBits - 1 else r
  | _, _ => unit

/-- The larger magnitude of two values; a value that is not finite does not count (R56). -/
def largerMag (a b : Val) : Val :=
  match a, b with
  | .fin _ n d e, .fin _ m c g => if magLess n d e m c g then b.withSign false else a.withSign false
  | .fin _ _ _ _, _ => a.withSign false
  | _, .fin _ _ _ _ => b.withSign false
  | _, _ => .nan false

/-- amax of a block: the largest magnitude among its finite values (R56); a NaN stands for none. -/
def amaxOf (l : List Val) : Val := l.foldl largerMag (.nan false)

/-- The value of a decoded element times its block's scale (R52). -/
def scaledVal (v s : Val) : Val := if v.isNan || s.isNan then .nan false else v.mul s

/-- Distance between two finite values as a fraction over 2^−(least exponent). -/
def distance (a b : Val) : Nat × Nat :=
  match a, b with
  | .fin s n d e, .fin t m c g =>
    let lo := min (min e g) 0
    ((signedAt s (n * c) e lo - signedAt t (m * d) g lo).natAbs, d * c * 2 ^ (-lo).toNat)
  | _, _ => (0, 1)

/-- The least element of a list by a strict order, the first among equals, with its index. -/
def leastIdx {α : Type} (lt : α → α → Bool) : List (Nat × α) → Option (Nat × α)
  | [] => none
  | x :: r =>
    match leastIdx lt r with
    | none => some x
    | some y => if lt y.2 x.2 then some y else some x

/-- The encoding of R54 into a codebook whose entries are given as values. -/
def encodeBook (table : List Val) (v : Val) : Nat × Nat :=
  let es := (upTo 0 table.length).zip table
  let usable := es.filter (fun t => !t.2.isNan)
  match v with
  | .nan _ => (0, flagNL)
  | .inf neg =>
    if usable.isEmpty then (0, flagNV ||| flagNX)
    else
      match usable.find? (fun t => t.2 = .inf neg) with
      | some (i, _) => (i, 0)
      | none =>
        let best := leastIdx (fun a b => if neg then
            (a.below b && !(a.isZero && b.isZero)) else (b.below a && !(a.isZero && b.isZero))) usable
        ((best.map Prod.fst).getD 0, flagNS ||| flagNX)
  | .fin neg n d e =>
    if usable.isEmpty then (0, flagNV ||| flagNX)
    else
      let fins := usable.filter (fun t => !t.2.isInf)
      match leastIdx (fun a b =>
          let p := distance a (.fin neg n d e)
          let q := distance b (.fin neg n d e)
          decide (p.1 * q.2 < q.1 * p.2)) fins with
      | some (i, x) => (i, flagIf ((distance x (.fin neg n d e)).1 ≠ 0) flagNX)
      | none =>
        match usable.find? (fun t => t.2.neg = neg) with
        | some (i, _) => (i, flagNX)
        | none => ((usable.head?.map Prod.fst).getD 0, flagNX)

/-- A narrow value rounded into an IEEE format with its flags: a NaN has no flag (R52). -/
def narDecode (t : Ieee) (v : Val) : Nat × Nat := roundVal t v

/-- `pkn` on its operands (R135): modifier, a, b, d. A signalling NaN a sets NV whatever SM (R44, R47; DEDUCED, log entry
19). -/
def packNar (f : BitVec 256) (m : Word) (a b d : Word) : Word × Nat :=
  let md := m.toNat
  let p := bits md 9 5
  let v := unpack f32 a.toNat
  let sig := flagIf v.isSig flagNV
  if bits md 12 11 = 2 then (BitVec.ofNat 32 (chooseScale f (amaxOf [v]) (maxfin f)), sig)
  else
    let sc := scaleVal f b.toNat
    let (c, fl) :=
      if bits md 12 11 = 1 then (if badScale sc then (0, flagNV) else encodeNar f (v.divBy sc)) else encodeNar f v
    let ones := 2 ^ elemBits f - 1
    let (msk, t) := if bit md 10 then (ones / 2 ^ (32 - p), c / 2 ^ (32 - p)) else (ones * 2 ^ p, c * 2 ^ p)
    ((d &&& ~~~(BitVec.ofNat 32 msk)) ||| BitVec.ofNat 32 t, fl ||| sig)

/-- `unpk` on its operands (R136). -/
def unpackNar (f : BitVec 256) (m : Word) (a b : Word) : Word × Nat :=
  let md := m.toNat
  let t := match bits md 12 11 with
    | 0 => f32
    | 1 => f16
    | _ => bf16
  let r := narDecode t (narVal f (((pair b a).toNat >>> bits md 9 5) % 2 ^ elemBits f))
  (BitVec.ofNat 32 r.1, r.2)

end Sys2Proof.Machine
end

