-- ==== Sys2Proof/Machine/Packet.lean ====
section
/-!
DEFINITION. The launch packet (R392) and boxes of the index space: gang-box grids and home groups (R15 to R18, R160).
-/
namespace Sys2Proof.Machine

/-- A field of a launch packet (R392). -/
def pkt (p : BitVec 512) (hi lo : Nat) : Nat := bits p.toNat hi lo
/-- ASID of a packet. -/
def pktAsid (p : BitVec 512) : Nat := pkt p 155 144
/-- Launch box of a packet: empty when ZERO is set (R392, R403). -/
def pktBox (p : BitVec 512) : Box := { ox := 0, oy := 0, oz := 0, ex := pkt p 31 0 + 1, ey := pkt p 63 32 + 1, ez := pkt p 95 64 + 1 }
/-- ZERO of a packet. -/
def pktZero (p : BitVec 512) : Bool := bit p.toNat 157
/-- Gang-box extents of a packet. -/
def pktGang (p : BitVec 512) : Nat × Nat × Nat := (pkt p 111 96, pkt p 127 112, pkt p 143 128)
/-- The launch is 1-D (R15). -/
def pktOneD (p : BitVec 512) : Bool := pkt p 63 32 = 0 && pkt p 95 64 = 0
/-- LVL of a packet as a level (R262, R392). -/
def pktLevel (p : BitVec 512) : Level := if bit p.toNat 156 then .supervisor else .user
/-- REP of a packet. -/
def pktRep (p : BitVec 512) : Bool := bit p.toNat 206
/-- An inline argument (R23, R392). -/
def pktArg (p : BitVec 512) (i : Nat) : Word := BitVec.ofNat 32 (pkt p (32 * (8 + i) + 31) (32 * (8 + i)))
/-- s0 to s7 of a group or span at creation (R23). -/
def pktArgs (p : BitVec 512) : Tbl Word := (upTo 0 8).map (fun i => (i, pktArg p i))
/-- The watchdog interval in µs, none when disabled (R341). -/
def pktWatchdog (p : BitVec 512) : Option Nat := if pkt p 190 187 = 0 then none else some (2 ^ pkt p 190 187)
/-- The XOR of the packet's nibbles is zero (R392 CHECK). -/
def pktCheck (p : BitVec 512) : Bool :=
  (upTo 0 128).foldl (fun x i => x ^^^ bits p.toNat (4 * i + 3) (4 * i)) 0 = 0

/-- The launch of a name, an empty one if the name is not in use. -/
def launchAt (s : State) (i : Nat) : Launch := tget s.launches i { fn := 0, queue := 0, lseq := 0, pkt := 0 }
/-- The state with a launch changed. -/
def setLaunch (s : State) (i : Nat) (x : Launch) : State := { s with launches := tput s.launches i x }
/-- A launch's priority: queue bits 2:1 (R393). -/
def priorityOf (queue : Nat) : Nat := bits queue 2 1

/-- A point lies in a box. -/
def boxHas (b : Box) (x y z : Nat) : Bool :=
  decide (b.ox ≤ x) && decide (x < b.ox + b.ex) && decide (b.oy ≤ y) && decide (y < b.oy + b.ey) &&
    decide (b.oz ≤ z) && decide (z < b.oz + b.ez)

/-- The common part of two boxes, if it holds a point. -/
def boxMeet (a b : Box) : Option Box :=
  let lo (p q : Nat) := max p q
  let hi (p pe q qe : Nat) := min (p + pe) (q + qe)
  let x0 := lo a.ox b.ox
  let y0 := lo a.oy b.oy
  let z0 := lo a.oz b.oz
  let x1 := hi a.ox a.ex b.ox b.ex
  let y1 := hi a.oy a.ey b.oy b.ey
  let z1 := hi a.oz a.ez b.oz b.ez
  if x0 < x1 ∧ y0 < y1 ∧ z0 < z1 then
    some { ox := x0, oy := y0, oz := z0, ex := x1 - x0, ey := y1 - y0, ez := z1 - z0 }
  else none

/-- The union of two boxes when it is a box (R169). -/
def boxUnion (a b : Box) : Option Box :=
  let join (o1 e1 o2 e2 : Nat) : Option (Nat × Nat) :=
    if o1 + e1 = o2 then some (o1, e1 + e2) else if o2 + e2 = o1 then some (o2, e1 + e2) else none
  if a.oy = b.oy ∧ a.ey = b.ey ∧ a.oz = b.oz ∧ a.ez = b.ez then
    (join a.ox a.ex b.ox b.ex).map (fun r => { a with ox := r.1, ex := r.2 })
  else if a.ox = b.ox ∧ a.ex = b.ex ∧ a.oz = b.oz ∧ a.ez = b.ez then
    (join a.oy a.ey b.oy b.ey).map (fun r => { a with oy := r.1, ey := r.2 })
  else if a.ox = b.ox ∧ a.ex = b.ex ∧ a.oy = b.oy ∧ a.ey = b.ey then
    (join a.oz a.ez b.oz b.ez).map (fun r => { a with oz := r.1, ez := r.2 })
  else none

/-- Multiples of `n` whose cell of size `n` meets `[o, o+e)`. -/
def cells (n o e : Nat) : List Nat := (upTo (o / n) ((o + e - 1) / n - o / n + 1)).map (· * n)

/-- Origins of the home groups of a box in gang group order: by z, then y, then x (R17, R238). -/
def homeGroups (oneD : Bool) (b : Box) : List (Nat × Nat × Nat) :=
  if oneD then (cells 32 b.ox b.ex).map (fun x => (x, b.oy, b.oz))
  else (upTo b.oz b.ez).flatMap (fun z => (cells 4 b.oy b.ey).flatMap (fun y =>
    (cells 8 b.ox b.ex).map (fun x => (x, y, z))))

/-- The home box of a group (R17). -/
def homeBox (oneD : Bool) (o : Nat × Nat × Nat) : Box :=
  if oneD then { ox := o.1, oy := o.2.1, oz := o.2.2, ex := 32, ey := 1, ez := 1 }
  else { ox := o.1, oy := o.2.1, oz := o.2.2, ex := 8, ey := 4, ez := 1 }

/-- Gang boxes that a box meets, in grid order with their gang-box index: x fastest, then y, then z (R160, R220). -/
def gangBoxes (p : BitVec 512) (b : Box) : List (Nat × Box) :=
  let (gx, gy, gz) := pktGang p
  let l := pktBox p
  let nx := ceilDiv l.ex gx
  let ny := ceilDiv l.ey gy
  (cells gz b.oz b.ez).flatMap (fun z => (cells gy b.oy b.ey).flatMap (fun y => (cells gx b.ox b.ex).map (fun x =>
    ((x / gx + nx * (y / gy + ny * (z / gz))) % 2 ^ 21,
      { ox := x, oy := y, oz := z, ex := gx, ey := gy, ez := gz : Box }))))

end Sys2Proof.Machine
end

