-- ==== Sys2Proof/Machine/Engines.lean ====
section
/-!
DEFINITION. The queues of the matrix arrays and the transform unit, and the convergence registers up to the issue of an operation
(R237, R243, R248 to R250, R255).
-/
namespace Sys2Proof.Machine

/-- An array of a core. -/
def arrayAt (s : State) (core n : Nat) : MArray := tget (coreAt s core).arrays n {}
/-- The state with an array changed. -/
def setArray (s : State) (core n : Nat) (a : MArray) : State :=
  let k := coreAt s core
  setCore s core { k with arrays := tput k.arrays n a }

/-- A convergence register of a gang. -/
def cvAt (s : State) (gang k : Nat) : Cv := tget (gangAt s gang).cv k {}
/-- The state with a convergence register changed. -/
def setCv (s : State) (gang k : Nat) (v : Cv) : State :=
  let g := gangAt s gang
  setGang s gang { g with cv := tput g.cv k v }

/-- Another gang holds the array (R237). -/
def arrayTaken (s : State) (core n gang : Nat) : Bool :=
  match (arrayAt s core n).owner with
  | some g => g ≠ gang
  | none => false

/-- A gang comes to hold an array at the first instruction that names it: all zero, the latch empty (R237). -/
def bindArray (s : State) (gang n : Nat) : State :=
  let g := gangAt s gang
  let a := arrayAt s g.core n
  if a.owner = some gang then s
  else
    let s := setArray s g.core n { owner := some gang, queue := a.queue, badCol := a.badCol }
    setGang s gang { g with arrays := g.arrays ++ [n] }

/-- An entry of the matrix error log (R255). -/
def matEntry (kind arr row col kix : Nat) (pc : DWord) : DWord :=
  BitVec.ofNat 64 (fields [(60, kind), (58, arr), (52, row % 64), (43, col % 512), (33, kix % 1024), (0, bits pc.toNat 33 2)])

/-- Entries added to a core's matrix error log (R255). -/
def matLogAll (s : State) (core : Nat) (l : List DWord) : State :=
  let k := coreAt s core
  setCore s core { k with matLog := l.foldl (fun x e => logAdd x 4 e) k.matLog }

/-- Operations of a gang that have issued and not completed. -/
def openOps (s : State) (gang : Nat) : Bool :=
  let k := coreAt s (gangAt s gang).core
  k.xforms.any (fun o => o.gang = gang) || k.arrays.any (fun a => a.2.queue.any (fun o => o.gang = gang))

/-- A number put into a rising list without repeats. -/
def putNum (n : Nat) (l : List Nat) : List Nat := if l.contains n then l else insertBy id n l

/-- Numbers of the units of a size that a range of `n` bytes reaches. -/
def unitsOf (u a n : Nat) : List Nat := if n = 0 then [] else upTo (a / u) ((a + (n - 1)) / u - a / u + 1)

/-- The struck words of a memory after a read of some ranges, and those that the read meets: a correctable word is
corrected, an uncorrectable one becomes poisoned (R272). -/
def metWords (bad : List (Nat × Nat)) (ranges : List (Nat × Nat)) : List (Nat × Nat) × List (Nat × Nat) :=
  if bad.all (fun e => e.2 = 2) then (bad, [])
  else
    let ws := nodup (ranges.flatMap (fun r => unitsOf 4 r.1 r.2))
    let met := bad.filter (fun e => e.2 ≠ 2 && ws.contains e.1)
    (bad.filterMap (fun e => if met.contains e then (if e.2 = 0 then none else some (e.1, 2)) else some e), met)

/-- Storage errors that reads of gang memory meet, counted and entered in the core's storage log (R272, R273, R279). -/
def meetGang (s : State) (core gang : Nat) (ranges : List (Nat × Nat)) : State :=
  let g := gangAt s gang
  let (bad, met) := metWords g.badGmem ranges
  if met.isEmpty then s
  else
    let lost := met.filter (fun e => e.2 = 1)
    let s := setGang s gang { g with badGmem := bad }
    let s := count (count s core 0x12 (met.length - lost.length)) core 0x13 lost.length
    let k := coreAt s core
    setCore s core { k with storLog := lost.foldl (fun x e => logAdd x 4 (storEntry 4 g.asid 0 0 e.1)) k.storLog }

/-- The range that a running copy writes in its gang's memory, as offsets (R231). -/
def copyGangDest (c : Copy) : Option (Nat × Nat) :=
  match c.dst with
  | .gang a => if c.finished then none else some (a, c.dlen)
  | _ => none

/-- Bytes that an issued transform writes: its tile and its header (R248, R258). -/
def xfDest (v : Cv) : List (Nat × Nat) :=
  match v.hdrs with
  | [some hs, some hd] =>
    let ty := bits hd 66 64
    let n := bits hs 47 32 * bits hs 63 48
    let width := match ty with
      | 0 => 32
      | 1 => 16
      | 2 => 16
      | 3 => 16
      | 4 => 16
      | 6 => 8
      | _ => if elemBits (tget v.fmts (bits hd 71 67) 0) ≤ 4 then 4 else 8
    [(bits hd 31 0, ceilDiv (n * width) 8), (bits v.desc.toNat 63 32, 16)]
  | _ => []

/-- Ranges of a gang's memory that are undefined for a reader: those that a running copy writes, and those of a transform
that has not completed or that the reader has signed and not awaited (R231, R248). -/
def openRuns (s : State) (gang : Nat) (sb : BitVec 16) : List (Nat × Nat) :=
  s.copies.filterMap (fun c => if c.2.gang = gang then copyGangDest c.2 else none) ++
    (gangAt s gang).cv.flatMap (fun (n, v) =>
      if v.xform && v.fault.isNone && (v.st = .issued || (v.st = .done && sb.getLsbD n)) then xfDest v else [])

/-- Bytes read while copies run: those that a running copy writes are undefined, and free values stand for them (R7,
R231). -/
def openBytes (s : State) (ranges : List (Nat × Nat)) (a : Nat) (l : List Byte) : List Byte :=
  if ranges.isEmpty then l
  else (upTo 0 l.length).map (fun i =>
    if ranges.any (fun r => r.1 ≤ a + i && a + i < r.1 + r.2) then (Config.freeWord (s.free + a + i)).setWidth 8
    else nth l i 0)

/-- The header of 16 bytes at an offset of a gang's gang memory: none when misaligned or outside (R239, R242). A poisoned
word of it reads as a free value, and so does a byte that a running copy or an open transform writes (R231, R248). -/
def headerNow (s : State) (gang off : Nat) : Option Nat :=
  let g := gangAt s gang
  if off % 16 ≠ 0 || g.gmemSize < off + 16 then none
  else some (ofBytes ((upTo 0 4).flatMap (fun i =>
    if g.badGmem.any (fun e => e.1 = off / 4 + i && e.2 ≠ 0) then wordBytes (Config.freeWord (s.free + i))
    else openBytes s (openRuns s gang 0) (off + 4 * i) (mread g.gmem (off + 4 * i) 4))))

/-- A field of an operation descriptor (R242, R258). -/
def descField (d : BitVec 192) (hi lo : Nat) : Nat := bits d.toNat hi lo

/-- Bytes of metadata that an operation can need: 64 rows of 96 bytes, less what lies outside; poisoned words read zero
(R253, R255). -/
def metaNow (s : State) (gang off : Nat) : List Byte :=
  let g := gangAt s gang
  (upTo 0 1536).flatMap (fun i =>
    if g.gmemSize < off + 4 * i + 4 || g.badGmem.any (fun e => e.1 = off / 4 + i && e.2 ≠ 0) then List.replicate 4 0
    else openBytes s (openRuns s gang 0) (off + 4 * i) (mread g.gmem (off + 4 * i) 4))

/-- Poisoned words of the metadata that an operation reads, numbered from MOFF (R255, R285). -/
def metaBad (s : State) (gang off : Nat) : List Nat :=
  ((gangAt s gang).badGmem.filter (fun e => e.2 ≠ 0 && off / 4 ≤ e.1 && e.1 < off / 4 + 1536)).map (fun e => e.1 - off / 4)

/-- Length of an operation's run at its start (R249, R260). -/
def opTime (v : Cv) (held : Bool) : Nat :=
  if v.xform then
    match v.hdrs with
    | some h :: _ => ceilDiv (bits h 47 32 * bits h 63 48) 128 + 8 * ceilDiv (bits h 80 77) 2 + 16
    | _ => 16
  else (if held then 0 else 48) + descField v.desc 72 64 + 24

/-- Operations that wait in an array's or the transform unit's queue behind the one that runs. -/
def unitQueue (s : State) (core u : Nat) : List MatOp :=
  if u = 4 then (coreAt s core).xforms else (arrayAt s core u).queue

/-- An entry of a queue is the turn of a `macc` form, and no operation. -/
def maccTurn (o : MatOp) : Bool := o.cv = 16

/-- A unit takes four operations behind the one that runs; a fifth waits (R249). -/
def unitFull (s : State) (core u : Nat) : Bool := 5 ≤ ((unitQueue s core u).filter (fun o => !maccTurn o)).length

/-- The state with a unit's queue changed. -/
def setQueue (s : State) (core u : Nat) (q : List MatOp) : State :=
  if u = 4 then
    let k := coreAt s core
    setCore s core { k with xforms := q }
  else setArray s core u { arrayAt s core u with queue := q }

/-- The first operation of a queue starts now (R249, R250). -/
def startFirst (s : State) (core u : Nat) (q : List MatOp) : List MatOp :=
  match q with
  | [] => []
  | o :: r => { o with due := s.now + opTime (cvAt s o.gang o.cv) (u ≠ 4 && (arrayAt s core u).latch.isSome) } :: r

/-- The unit of a convergence register's operation. -/
def cvUnit (v : Cv) : Nat := if v.xform then 4 else v.arr

/-- Bytes of metadata that an operation reads under its A header (R253). -/
def metaBytes (desc : BitVec 192) (hdrs : List (Option Nat)) : Nat :=
  match hdrs with
  | [_, some ha] =>
    let k := if bit desc.toNat 73 then bits ha 63 48 / 2 ^ bits ha 80 77 else bits ha 63 48
    min 1536 (bits ha 47 32 * ceilDiv (ceilDiv k 8) 4) * 4
  | _ => 0

/-- An operation issues (R243, R248, R249): its headers and metadata are read, and it joins its unit's queue. -/
def issueCv (s : State) (gang k : Nat) : State :=
  let g := gangAt s gang
  let v := cvAt s gang k
  let offs := [descField v.desc 31 0, descField v.desc 63 32]
  let moff := descField v.desc 191 160
  let s := meetGang s g.core gang (offs.map (fun a => (a, 16)))
  let s := if v.sp then meetGang s g.core gang [(moff, metaBytes v.desc (offs.map (headerNow s gang)))] else s
  let v := { v with st := .issued, hdrs := offs.map (headerNow s gang)
                    nibbles := if v.sp then metaNow s gang moff else []
                    badMeta := if v.sp then metaBad s gang moff else [] }
  let (n, s) := newName (setCv { s with free := s.free + 4 } gang k v)
  let u := cvUnit v
  let q := unitQueue s g.core u
  let o : MatOp := { id := n, gang, cv := k, due := 0 }
  setQueue s g.core u (if q.isEmpty then startFirst s g.core u [o] else q ++ [o])

/-- SB of an item for a convergence register (R243). -/
def signedOn (t : Item) (k : Nat) : Bool := t.sb.getLsbD k

/-- Some live item of the gang holds SB for a convergence register (R243). -/
def cvHeld (g : Gang) (k : Nat) : Bool := g.groups.any (fun x => x.2.items.any (fun t => signedOn t.2 k))

/-- The gang groups that a mask names (R242). -/
def maskGroups (m : Word) : List Nat := (upTo 0 32).filter (fun i => m.getLsbD i)

/-- The signing test (R243): every mask group has all its live real items signed, and no span of the gang covers a point of
it. -/
def cvReady (s : State) (gang k : Nat) : Bool :=
  let g := gangAt s gang
  let os := homeGroups g.oneD g.box
  (cvAt s gang k).st = .collecting && (maskGroups (cvAt s gang k).mask).all (fun i =>
    (tget g.groups i {}).items.all (fun t => t.2.helper || signedOn t.2 k) &&
    match os[i]? with
    | none => true
    | some o => !s.spans.any (fun p => p.2.gang = some gang && (boxMeet p.2.box (homeBox g.oneD o)).isSome))

/-- Core error log entry for a fault that nobody claimed (R246, R280). -/
def unclaimed (s : State) (gang k : Nat) (v : Cv) : State :=
  let g := gangAt s gang
  match v.fault with
  | some c =>
    if v.told then s
    else
      let x := coreAt s g.core
      setCore s g.core { x with engLog := logAdd x.engLog 4 (engEntry c g.asid k v.pc) }
  | none => s

/-- A convergence register tested: a collection that is complete issues while its array has room; one that is DONE and that
nobody holds becomes FREE (R243). -/
def cvTest (s : State) (gang k : Nat) : State :=
  let g := gangAt s gang
  let v := cvAt s gang k
  match v.st with
  | .collecting => if cvReady s gang k && !unitFull s g.core v.arr then issueCv s gang k else s
  | .done => if cvHeld g k then s else setCv (unclaimed s gang k v) gang k {}
  | _ => s

/-- Convergence registers whose collection is complete and whose unit has no place (R249). -/
def blockedCvs (s : State) (gang : Nat) : List Nat :=
  ((gangAt s gang).cv.filter (fun e => cvReady s gang e.1 && unitFull s (gangAt s gang).core e.2.arr)).map Prod.fst

/-- A step whose effect would complete a collection that finds no place stalls until one frees (R143, R249): `s'` is the state
after the step. -/
def stallFull (s s' : State) (gang : Nat) : Option Nat :=
  ((blockedCvs s' gang).find? (fun k => !(blockedCvs s gang).contains k)).map (fun k => (cvAt s' gang k).arr)

/-- Every convergence register of a gang tested: an item ended or a span retired (R243). -/
def engineCheck (s : State) (gang : Nat) : State :=
  if (tfind s.gangs gang).isNone then s else (gangAt s gang).cv.foldl (fun s e => cvTest s gang e.1) s

end Sys2Proof.Machine
end

