-- ==== Sys2Proof/Machine/Gangs.lean ====
section
/-!
DEFINITION. What lanes and cores hold for a gang: granules, scalar blocks and their queues (R139, R152 to R155), the end
of items, groups and gangs (R40, R168, R222, R354).
-/
namespace Sys2Proof.Machine

/-- Home positions of a group that its gang box covers, by quad: base granules are 8 for each such quad (R348). -/
def quadsOf (oneD : Bool) (box : Box) (o : Nat × Nat × Nat) : List Nat :=
  let pts (q : Nat) : Bool := (upTo (4 * q) 4).any (fun p =>
    let c := coordOf oneD { ox := o.1, oy := o.2.1, oz := o.2.2 } p
    boxHas box c.1 c.2.1 c.2.2)
  (upTo 0 8).filter pts

/-- Base granules that placement reserves for a group (R348). -/
def baseGranules (oneD : Bool) (box : Box) (o : Nat × Nat × Nat) : Nat := 8 * (quadsOf oneD box o).length

/-- The home groups of a gang in gang group order (R238). -/
def gangGroups (g : Gang) : List (Nat × Nat × Nat) := homeGroups g.oneD g.box

/-- Granules returned to a lane: a gang's reservation is refilled to 160 first (R153). -/
def giveGranules (s : State) (core lane gang n : Nat) : State :=
  let l := laneAt s core lane
  let l := match tfind l.resv gang with
    | some u =>
      let up := min n (160 - u)
      { l with resv := tput l.resv gang (u + up), gran := l.gran + (n - up) }
    | none => { l with gran := l.gran + n }
  let s := setLane s core lane l
  let k := coreAt s core
  setCore s core { k with dirty := true }

/-- Extended blocks given to items of a group: v32 to v111 take the value 0 (R201). -/
def grantV (s : State) (gang g : Nat) (ps : List Nat) : State :=
  let oneD := (gangAt s gang).oneD
  updGroup s gang g (fun x =>
    let all := wholeGroup x ps
    let x := (upTo 32 80).foldl (fun x r =>
      if all then putV oneD x r (.const 0) else putWords oneD x r (ps.map (fun p => (p, 0)))) x
    ps.foldl (fun x p => match itemIn x p with
      | some t => groupSetItem x p { t with ext := true, wait := .ready, readyAt := if t.wait = .ready then t.readyAt else s.now }
      | none => x) x)

/-- Granules available to a gang's request in a lane (R153). -/
def availGranules (l : Lane) (gang : Nat) : Nat := l.gran + tget l.resv gang 0

/-- Granules taken for a request, the reservation first (R153). -/
def takeGranules (l : Lane) (gang n : Nat) : Lane :=
  match tfind l.resv gang with
  | some u => if n ≤ u then { l with resv := tput l.resv gang (u - n) }
    else { l with resv := tput l.resv gang 0, gran := l.gran - (n - u) }
  | none => { l with gran := l.gran - n }

/-- The head of a lane's `xacq` queue is granted while it fits (R153). -/
def serveLane (s : State) (core lane : Nat) : Nat → State
  | 0 => s
  | n + 1 =>
    let l := laneAt s core lane
    match l.queue with
    | [] => s
    | r :: rest =>
      if availGranules l r.gang < 5 * r.gposs.length then s
      else
        let l := { takeGranules l r.gang (5 * r.gposs.length) with queue := rest }
        let s := setLane s core lane l
        -- positions are numbered 32·group + gpos
        let s := (nodup (r.gposs.map (· / 32))).foldl (fun s g =>
          grantV s r.gang g ((r.gposs.filter (fun q => q / 32 = g)).map (· % 32))) s
        let k := coreAt s core
        serveLane (setCore s core { k with dirty := true }) core lane n

/-- Scalar blocks that a group holds beyond its gang's declared count (R154). -/
def beyond (sblk h : Nat) : Nat := h - sblk

/-- Scalar blocks given to a group, which keeps those it holds: the new registers are CONST 0 (R201). -/
def grantS (s : State) (gang g k : Nat) (ps : List Nat) : State :=
  updGroup s gang g (fun x =>
    let k := max k x.blocks
    let x := { x with s := x.s.filter (fun e => e.1 < 64 * (x.blocks + 1) || 64 * (k + 1) ≤ e.1), blocks := k }
    { x with items := x.items.map (fun (p, t) =>
        (p, if t.wait = .block && ps.contains p then { t with wait := .ready, readyAt := s.now } else t)) })

/-- The head of a core's `xacq.s` queue is granted while it fits (R154). -/
def serveCore (s : State) (core : Nat) : Nat → State
  | 0 => s
  | n + 1 =>
    let k := coreAt s core
    match k.queueS with
    | [] => s
    | r :: rest =>
      let sblk := (gangAt s r.gang).sblk
      let need := beyond sblk r.upto - beyond sblk (groupAt s r.gang r.g).blocks
      if k.pool < need then s
      else
        let s := setCore s core { k with queueS := rest, pool := k.pool - need, dirty := true }
        serveCore (grantS s r.gang r.g r.upto r.gposs) core n

/-- The heads of the queues tested after a return of space (R153, R154). -/
def serveQueues (s : State) (core lane : Nat) : State :=
  serveCore (serveLane s core lane (laneAt s core lane).queue.length) core (coreAt s core).queueS.length

/-- A group's scalar blocks above a prefix returned (R154, R202). -/
def returnS (s : State) (gang g k : Nat) : State :=
  let gg := gangAt s gang
  let x := groupAt s gang g
  let back := beyond gg.sblk x.blocks - beyond gg.sblk k
  let c := coreAt s gg.core
  let s := setCore s gg.core { c with pool := c.pool + back, dirty := true }
  setGroup s gang g { x with blocks := min x.blocks k, s := x.s.filter (fun e => e.1 < 64 * (k + 1)) }

/-- The extended slice of an item returned (R139, R202). -/
def returnV (s : State) (gang g p : Nat) : State :=
  let x := groupAt s gang g
  let t := itemAt s gang g p
  if !t.ext then s
  else
    let s := setItem s gang g p { t with ext := false }
    giveGranules s (gangAt s gang).core x.lane gang 5

/-- A free span record of a core goes to the span that has waited longest for one, or stays free (R157, R161). -/
def giveRecord (s : State) (core : Nat) : State :=
  match s.spans.find? (fun p => p.2.core = core && p.2.noRec) with
  | some (i, sp) => setSpan s i { sp with noRec := false, readyAt := s.now }
  | none =>
    let k := coreAt s core
    setCore s core { k with spansFree := k.spansFree + 1, dirty := true }

/-- Several span records of a core returned. -/
def giveRecords (s : State) (core : Nat) : Nat → State
  | 0 => s
  | n + 1 => giveRecords (giveRecord s core) core n

/-- The pool of scratchpad lines of a cohort on a die released with its last gang (R341, R354). -/
def releaseSpad (s : State) (die launch : Nat) : State :=
  if s.gangs.any (fun g => g.2.launch = launch && g.2.die = die && g.2.phase ≠ .ended) ||
      s.spans.any (fun p => p.2.launch = launch && p.2.die = die) || (dieAt s die).bins.any (fun b => b.launch = launch) then s
  else
    let d := dieAt s die
    if d.spads.any (fun p => p.launch = launch) then
      setDie s die { d with spads := d.spads.filter (fun p => p.launch ≠ launch), spadFail := [] }
    else s

/-- The places of a gang on its core returned (R354): residences, granules, blocks, gang memory and arrays. -/
def releasePlaces (s : State) (gang : Nat) : State :=
  let g := gangAt s gang
  let os := gangGroups g
  let s := g.places.foldl (fun s (i, lane, res) =>
    let l := laneAt s g.core lane
    let back := (tget g.groups i {}).back
    let ext := ((tget g.groups i {}).items.filter (fun t => t.2.ext)).length
    let l := { l with
      res := tdel l.res res
      gran := l.gran + (baseGranules g.oneD g.box (nth os i (0, 0, 0)) - back) + 5 * ext + tget l.resv gang 0
      resv := tdel l.resv gang
      setup := l.setup.filter (fun x => x.1 ≠ gang)
      slots := l.slots.map (fun sl => if sl.group = some (gang, i) then {} else sl) }
    setLane s g.core lane l) s
  let k := coreAt s g.core
  let extra := (g.groups.map (fun x => beyond g.sblk x.2.blocks)).foldl (· + ·) 0
  setCore s g.core { k with
    gmemFree := k.gmemFree + g.gmemSize
    pool := k.pool + g.sblk * os.length + extra
    queueS := k.queueS.filter (fun r => r.gang ≠ gang)
    matGang := if k.matGang = some gang then none else k.matGang
    lanes := tmap (fun _ l => { l with queue := l.queue.filter (fun r => r.gang ≠ gang) }) k.lanes
    arrays := tmap (fun _ a => if a.owner = some gang then { queue := a.queue, badCol := a.badCol } else a) k.arrays
    dirty := true }

/-- Queues of every lane the gang stood in, and of its core, tested again. -/
def serveAfter (s : State) (core : Nat) (lanes : List Nat) : State :=
  (nodup lanes).foldl (fun s l => serveQueues s core l) s

/-- Faults of copies that nobody claimed enter the engine-fault log (R234, R280). -/
def logUnclaimed (s : State) (gang : Nat) : State :=
  let g := gangAt s gang
  let k := coreAt s g.core
  let mine := s.copies.filter (fun c => c.2.gang = gang && c.2.finished && c.2.fault.isSome && !c.2.reported)
  let log := mine.foldl (fun l (_, c) =>
    logAdd l 4 (engEntry { code := 0x13, sub := (c.fault.map Prod.fst).getD 0 } g.asid c.queue c.pc)) k.engLog
  setCore s g.core { k with engLog := log }

/-- A gang whose spans have all retired and which has no home group left ends (R168, R354). -/
def endGang (s : State) (gang : Nat) : State :=
  let g := gangAt s gang
  let done := (tfind s.gangs gang).isSome && g.phase ≠ .ended && g.phase ≠ .saved &&
    g.groups.all (fun x => x.2.items.isEmpty) && !s.spans.any (fun p => p.2.gang = some gang)
  if !done then s
  else
    let s := logUnclaimed s gang
    let s := if g.phase = .waiting then s else releasePlaces s gang
    let x := fnAt s g.fn
    let s := match g.slot with
      | some k => setFn s g.fn { x with slots := x.slots.filter (· ≠ k) }
      | none => s
    let live := openOps s gang || s.copies.any (fun c => c.2.gang = gang && !c.2.finished)
    let s := { s with copies := s.copies.filter (fun c => !(c.2.gang = gang && c.2.finished)) }
    let s := if live then setGang s gang { g with phase := .ended, slot := none } else { s with gangs := tdel s.gangs gang }
    serveAfter (releaseSpad s g.die g.launch) g.core (g.places.map (fun p => p.2.1))

/-- A gang that has ended goes with its last copy or engine operation; faults of copies that nobody claimed enter the engine-fault log (R234, R354). -/
def dropEnded (s : State) (gang : Nat) : State :=
  let g := gangAt s gang
  if (tfind s.gangs gang).isSome && g.phase = .ended && !openOps s gang && s.copies.all (fun c => c.2.gang ≠ gang || c.2.finished) then
    let s := logUnclaimed s gang
    { s with copies := s.copies.filter (fun c => c.2.gang ≠ gang), gangs := tdel s.gangs gang }
  else s

/-- The instruction an item stands at, as its code line holds it. -/
def instrAt (s : State) (gang g p : Nat) : Option Instr :=
  let k := gangAt s gang
  let t := itemAt s gang g p
  let pc := t.pc.toNat
  match translateNow s { asid := k.asid, level := t.level, exec := true } (pc / 128 * 128) 128 with
  | .ok ls =>
    let line := (sectorsOf (pc / 128 * 128) 128).flatMap (fun a =>
      (readSector s (clusterOf k.core) (dieOf k.core) k.asid (keyOf (leafIn ls a) a)).data)
    (decodeWords (wordsOf (line.drop (pc % 128)))).map Prod.fst
  | _ => none

/-- Destination field and words of an instruction with a register result (R74, R92, R104, R130, R207, R210). -/
def destOf : Instr → Field7 × Nat
  | .add o | .sub o | .mul o | .mulhiI o | .mulhiN o | .mad o | .minI o | .maxI o | .minN o | .maxN o
  | .and o | .or o | .xor o | .andn o | .shl o | .shr o | .sar o | .rol o | .bfx o | .bfi o | .fsh o
  | .divN o | .remN o | .divI o | .remI o | .fadd o | .fsub o | .fmul o | .ffma o | .fmin o | .fmax o
  | .fscale o | .hadd2 o | .hmul2 o | .hfma2 o | .hmin2 o | .hmax2 o | .hdot2 o | .cmul o | .cfma o => (o.d, 1)
  | .clz o | .popc o | .brev o | .abs o | .neg o | .mov o | .fabs o | .fneg o | .fclass o | .frcp o | .frsq o
  | .fsqrt o | .fex2 o | .flg2 o | .fsin o | .fcos o | .ftanh o | .frnd o | .i2f o => (o.d, 1)
  | .f2i o => (o.d, if modOf (some o.d) [o.a] o.x o.ext % 4 < 2 then 1 else 2)
  | .sel o | .pkn o | .unpk o => (o.d, 1)
  | .cvt o => (o.d, 1)
  | .addi o | .andi o | .ori o | .xori o | .shli o | .shri o | .sari o => (o.d, 1)
  | .movi o => (o.d, 1)
  | .add64 o | .sub64 o | .lea o => (o.d, 2)
  | .cvt64 o => (o.d, if o.b.toNat ≤ 1 then 2 else 1)
  | .ldv o | .ldk o | .ldd o | .fill o => (o.d, if o.sz = 3 then 1 else 2 ^ o.sz.toNat)
  | .ldf o => (o.d, 1)
  | .atv o | .atk o | .atd o => (if o.k then 120 else o.d, 2 ^ o.sz.toNat)
  | .xq o => (o.d, 1)
  | .xg o => (o.d, 1)
  | .perm o => (o.d, 1)
  | .vote o => (o.d, 1)
  | .gred o => (o.d, 1)
  | .barr o | .barrDrop o => (o.d, 1)
  | .maccRd o => (o.d, 1)
  | .maccStat o => (o.d, 1)
  | .getst o => (o.d, 1)
  | .setst o | .evsig o | .evwait o | .launch o | .snaprel o | .rollback o => (o.d, 1)
  | .snap o | .perfrd o | .errlog o => (o.d, 2)
  | _ => (120, 0)

/-- The condition register that an instruction writes; c0 for none, whose writes are discarded (R24, R100 to R102, R180). -/
def condOf : Instr → Nat
  | .icmp o => o.cd.toNat
  | .fcmp o => o.cd.toNat
  | .cop o => o.cd.toNat
  | .repq o => o.cd.toNat
  | _ => 0

/-- Every destination of an instruction receives zero for helpers (R20). -/
def zeroDests (s : State) (gang : Nat) (i : Instr) (ms : List (Nat × Nat)) : State :=
  let s := ms.foldl (fun s (g, p) => updGroup s gang g (fun x => putBits (gangAt s gang).oneD x (condOf i) [(p, false)])) s
  zeroWords s gang (destOf i).1 (destOf i).2 ms

/-- A wait ended by a cause: a real item takes it, a helper receives zero and goes on (R20, R222, R341). -/
def endWait (s : State) (gang g p : Nat) (c : Trap) : State :=
  let t := itemAt s gang g p
  let s := updItem s gang g p (fun t => { t with wait := .ready, readyAt := s.now })
  if t.helper then
    match instrAt s gang g p with
    | some i => advance (zeroDests s gang i [(g, p)]) gang [(g, p)] (lengthOf i)
    | none => s
  else deliver s gang g p { c with pc := t.pc, sym := t.sym }

/-- ORPHAN_WAIT (R222): with no span and no other real item left, every item that waits in `ldf` on the gang's own memory
takes it. -/
def orphanCheck (s : State) (gang : Nat) : State :=
  let g := gangAt s gang
  let real := g.groups.flatMap (fun (i, x) => x.items.filterMap (fun (p, t) => if t.helper then none else some (i, p, t)))
  let waits (t : Item) : Option Nat := match t.wait with
    | .full false off _ _ => some off
    | _ => none
  if real.isEmpty || s.spans.any (fun p => p.2.gang = some gang) || real.any (fun r => (waits r.2.2).isNone) then s
  else (g.groups.flatMap (fun (i, x) => x.items.filterMap (fun (p, t) => (waits t).map (fun off => (i, p, off))))).foldl
    (fun s (i, p, off) => endWait s gang i p { code := 0x14, addr := BitVec.ofNat 64 off }) s

/-- An item that ends waits for no block any more: a request that covers no item goes (R153, R154). -/
def dropWaiter (s : State) (gang g p : Nat) : State :=
  let core := (gangAt s gang).core
  let lane := (groupAt s gang g).lane
  let l := laneAt s core lane
  let k := coreAt s core
  let without (q : Nat) (r : BlockReq) : BlockReq := { r with gposs := r.gposs.filter (· ≠ q) }
  if !(l.queue.any (fun r => r.gang = gang) || k.queueS.any (fun r => r.gang = gang)) then s
  else
    let s := setLane s core lane { l with queue :=
      (l.queue.map (fun r => if r.gang = gang then without (32 * g + p) r else r)).filter (fun r => !r.gposs.isEmpty) }
    let k := coreAt s core
    setCore s core { k with queueS :=
      (k.queueS.map (fun r => if r.gang = gang && r.g = g then without p r else r)).filter (fun r => !r.gposs.isEmpty) }

/-- One item taken out of its group, its slices returned (R40, R139). -/
def removeItem (s : State) (gang g p : Nat) : State :=
  let gg := gangAt s gang
  let x := groupAt s gang g
  match itemIn x p with
  | none => s
  | some t =>
    let s := dropWaiter s gang g p
    let s := setGroup s gang g { x with
      items := tdel x.items p, board := x.board.filter (fun o => o.gpos ≠ p), back := x.back + 2
      badV := x.badV.filter (fun e => e.2.1 ≠ p), badL := x.badL.filter (fun e => e.1 ≠ p) }
    giveGranules s gg.core x.lane gang (if t.ext then 7 else 2)

/-- Helpers retire with the last real item of their quad (R20). -/
def retireHelpers (s : State) (gang g p : Nat) : State :=
  let x := groupAt s gang g
  let quad := (x.items.filter (fun t => t.1 / 4 = p / 4))
  if quad.all (fun t => t.2.helper) then quad.foldl (fun s (q, _) => removeItem s gang g q) s else s

/-- An item or helper ends: its slices return, helpers of its quad retire with the last real item, an empty group gives
back its scalar blocks, waiters may be orphaned, a collection may be complete, and the gang may end (R20, R40, R116, R168, R222, R243). -/
def endItem (s : State) (gang g p : Nat) : State :=
  let gg := gangAt s gang
  let lane := (groupAt s gang g).lane
  let s := retireHelpers (removeItem s gang g p) gang g p
  let s := if (groupAt s gang g).items.isEmpty then
      let s := returnS s gang g 0
      updGroup s gang g (fun x => { x with status := 0, v := [], c := [], s := [], badV := [], badS := [] })
    else s
  let s := serveQueues s gg.core lane
  endGang (orphanCheck (engineCheck s gang) gang) gang

/-- A cause of every item of a bundle that leaves helpers with no next instruction: real items take their causes, helpers
retire (R20, R65, R69). -/
def runOff (s : State) (w : Where) (k : Sifted) : State :=
  let s := deliverAll s w k.traps
  let s := k.zero.foldl (fun s (g, p) => endItem s w.b.gang g p) s
  endMember s w w.b.members [] { chained := false } false

/-- TARGET of an instruction in the last word of a line with L = 1, which stands after the causes of R83 (R69, R83). -/
def pastTrap (w : Where) : Option Trap := w.b.prog.past.map (fun a => { code := 0x08, addr := a })

end Sys2Proof.Machine
end

