-- ==== Sys2Proof/Machine/Fetch.lean ====
section
/-!
DEFINITION. Fetch lines: reading code, the header checks of R65, the chain check of R70, and the checks of a transfer's
target (R69).
-/
namespace Sys2Proof.Machine

/-- What a fetch gives: bytes, a page that must be walked first, or a cause. -/
inductive Fetched where
  | ok (l : List Byte)
  | miss (vpn : Nat)
  | fault (t : Trap)
  deriving DecidableEq, Repr

/-- Code bytes at a virtual address as a core fetches them: translated for execution, not through L1 (R69, R327, R330). -/
def fetchAt (s : State) (core : Nat) (ans : List (Nat × Nat × WalkAnswer)) (asid : Nat) (level : Level) (va n : Nat) :
    Fetched :=
  match translate s core ans { asid, level, exec := true } va n with
  | .fault c a => .fault { code := c, addr := BitVec.ofNat 64 a }
  | .miss v => .miss v
  | .ok ls =>
    let rs := (sectorsOf va n).map (fun a => readSector s (clusterOf core) (dieOf core) asid (keyOf (leafIn ls a) a))
    if rs.any SectorRead.bad then .fault { code := 0x0E, sub := 5, addr := BitVec.ofNat 64 va }
    else .ok (((rs.flatMap SectorRead.data).drop (va % 32)).take n)

/-- The words of a line's payload (R64). -/
def payload (line : List Byte) : List Word := wordsOf (line.drop 8)

/-- START masks agree with the lengths of R67 inside one packet: `k` words remain of it (R65 Lengths, Coverage). -/
def packetOk (h : Nat) (ws : List Word) (j : Nat) : Nat → Bool
  | 0 => true
  | 1 => hdrStart h j && wordCount (nth ws j 0) = 1
  | k + 2 =>
    if !hdrStart h j then false
    else if wordCount (nth ws j 0) = 2 then !hdrStart h (j + 1) && packetOk h ws (j + 2) k
    else hdrStart h (j + 1) && packetOk h ws (j + 1) (k + 1)

/-- Number of one bits in the low `n` bits. -/
def onesIn (v n : Nat) : Nat := ((upTo 0 n).filter (bit v ·)).length

/-- The nearest header at a lower address with I = 1, among the seven lines below, nearest first (R65): none when no such
line has it. R65 does not say what a line whose header cannot be fetched counts as; it is passed over (DESIGN CHOICE, log
entry 25). -/
def intervalHead (below : List (Option Nat)) : Option Nat :=
  match below with
  | [] => none
  | some h :: r => if hdrI h then some h else intervalHead r
  | none :: r => intervalHead r

/-- The checks of R65 on a line, given the headers of the seven lines below it, nearest first. -/
def lineOk (line : List Byte) (below : List (Option Nat)) : Bool :=
  let h := headerOf line
  let ws := payload line
  bits h 63 59 = 0 && bits h 31 30 = 0 && (upTo 0 10).all (fun p => packetOk h ws (3 * p) 3) &&
    onesIn (hdrWS h) 14 ≤ 4 && (!hdrE h || hdrI h) &&
    (hdrI h || (match intervalHead below with
      | some b => hdrWS h &&& hdrWS b = hdrWS h
      | none => false))

/-- Which pipe an opcode issues to (R85). -/
inductive Pipe where
  | i
  | f
  | m
  deriving DecidableEq, Repr

/-- The pipe of a word, none for a reserved opcode (R70, R85). -/
def pipeOf (w : Word) : Option Pipe :=
  let op := (fOp w).toNat
  if op = 0x5E || op = 0x5F || op = 0x7F then none
  else if op < 0x30 then some .i
  else if op < 0x50 then some .f
  else if op < 0x5D then some .i
  else some .m

/-- Wait class, and the scratchpad accesses, which stand first in a chain (R70). -/
def standsFirst (w : Word) : Bool :=
  [0x66, 0x76, 0x7B, 0x6D, 0x77, 0x58, 0x70, 0x71, 0x64, 0x65, 0x6A].contains (fOp w).toNat

/-- A control transfer (R70): opcodes 0x50 to 0x57. -/
def isTransfer (w : Word) : Bool := 0x50 ≤ (fOp w).toNat && (fOp w).toNat ≤ 0x57

/-- The first words of the chain that begins with the head of a packet's remaining words, and whether the packet ended
with C = 1 (R70). -/
def chainWords : Nat → List Word → List Word × Bool
  | 0, _ => ([], true)
  | _ + 1, [] => ([], true)
  | k + 1, w :: r =>
    if !fC w then ([w], false)
    else
      let (c, e) := chainWords k (if wordCount w = 2 then r.drop 1 else r)
      (w :: c, e)

/-- The chain of first words obeys R70. -/
def chainOk (ws : List Word) : Bool :=
  let pipes := ws.filterMap pipeOf
  decide ((nodup pipes).length = pipes.length) && (ws.drop 1).all (fun w => !standsFirst w) &&
    (ws.dropLast).all (fun w => !isTransfer w)

/-- What a check of a transfer's target gives. -/
inductive Tgt where
  | ok
  | miss (vpn : Nat)
  | trap (t : Trap)
  deriving DecidableEq, Repr

/-- TARGET with its address (R69). -/
def targetTrap (a : DWord) : Trap := { code := 0x08, addr := a }

/-- A word address is the first word of a packet (R66). -/
def packetStart (a : Nat) : Bool := 8 ≤ a % 128 && (a % 128 - 8) % 12 = 0

/-- The check of a transfer's target (R69): a packet with its TGT bit, or for `call` packet 0 of a line with E = 1. A
line that cannot be fetched, or holds a poisoned byte, gives its own cause with the target's address. -/
def checkTarget (s : State) (core : Nat) (ans : List (Nat × Nat × WalkAnswer)) (asid : Nat) (level : Level) (call : Bool)
    (a : DWord) : Tgt :=
  let n := a.toNat
  if 2 ^ 57 ≤ n || n % 4 ≠ 0 || !packetStart n || (call && n % 128 ≠ 8) then .trap (targetTrap a)
  else
    match fetchAt s core ans asid level (n / 128 * 128) 128 with
    | .fault t => .trap { t with addr := a }
    | .miss v => .miss v
    | .ok l =>
      let h := headerOf l
      if call then (if hdrE h then .ok else .trap (targetTrap a))
      else if hdrTgt h ((n % 128 - 8) / 12) then .ok else .trap (targetTrap a)

/-- The word address of the packet at an exact index, wrapped to 64 bits (R66, R107). -/
def packetWord (t : Int) : DWord := BitVec.ofInt 64 (t / 10 * 128 + 8 + t % 10 * 12)

/-- The target packet of a branch at a word (R107). -/
def branchTarget (pc : DWord) (off : Int) : Int := (packetOf pc.toNat : Int) + off

/-- Return word address: the packet after the one that holds the call (R66, R107). -/
def returnWord (pc : DWord) : DWord := packetAddr (packetOf pc.toNat + 1)

/-- The bundle stalls until a page is walked: its lane joins the replay queue (R329). -/
def stallWalk (s : State) (w : Where) (asid vpn : Nat) : State :=
  let st := match w.b.stall with
    | some (.walk l) => l
    | _ => []
  if st.contains (asid, vpn) then s
  else addMiss (stallOn s w (.walk ((asid, vpn) :: st))) (dieOf w.core) (clusterOf w.core) asid vpn (.lane w.core w.lane)

end Sys2Proof.Machine
end

