-- ==== Sys2Proof/Machine/Spans.lean ====
section
/-!
DEFINITION. Spans (spec 07_core_spans.md): equality of representations (R34), dealing (R160), splitting (R166, R167),
retiring (R168), rejoining (R169, R170), pouring (R171 to R177) and the item regions of spill stks (R36, R37).
-/
namespace Sys2Proof.Machine

/-- A 32-bit form with the terms of degenerate axes folded into its constant (R34). -/
def foldAff (b : Box) (f : Aff) : Aff :=
  let t (e o : Nat) (d : Word) : Word × Word := if e = 1 then (d * BitVec.ofNat 32 o, 0) else (0, d)
  let x := t b.ex b.ox f.dx
  let y := t b.ey b.oy f.dy
  let z := t b.ez b.oz f.dz
  { c := f.c + x.1 + y.1 + z.1, dx := x.2, dy := y.2, dz := z.2 }

/-- A 64-bit form with the terms of degenerate axes folded into its constant (R34). -/
def foldAff64 (b : Box) (f : Aff64) : Aff64 :=
  let t (e o : Nat) (d : DWord) : DWord × DWord := if e = 1 then (d * BitVec.ofNat 64 o, 0) else (0, d)
  let x := t b.ex b.ox f.dx
  let y := t b.ey b.oy f.dy
  let z := t b.ez b.oz f.dz
  { c := f.c + x.1 + y.1 + z.1, dx := x.2, dy := y.2, dz := z.2 }

/-- A representation folded over a box and normalised (R29, R34). -/
def foldRep (b : Box) (r : VRep) : VRep :=
  match r with
  | .affine f => mkAffine (foldAff b f)
  | .lo64 f => (mkAffine64 (foldAff64 b f)).1
  | .hi64 f => (mkAffine64 (foldAff64 b f)).2
  | _ => r

/-- Two registers equal as functions over a box (R34): BODY equals nothing. -/
def repEqual (b : Box) (p q : VRep) : Bool :=
  match p, q with
  | .body _, _ => false
  | _, .body _ => false
  | _, _ => foldRep b p = foldRep b q

/-- Two condition registers equal as functions over a box (R34). -/
def condEqual (b : Box) (p q : CRep) : Bool :=
  match p, q with
  | .const x, .const y => x = y
  | .pred x, .pred y => x.cond = y.cond && x.bound = y.bound && x.left = y.left && foldAff b x.form = foldAff b y.form
  | _, _ => false

/-- Bytes of a group spill stack (R37). -/
def spillSize (g : Gang) : Nat := 65536 * 2 ^ g.ssz
/-- First byte of an item's region in its group's spill stack (R36, R37). -/
def regionBase (g : Gang) (i p : Nat) : Nat :=
  g.spbase + (32 * g.slot.getD 0 + i) * spillSize g + p * (spillSize g / 32)
/-- Byte after an item's region (R36, R37). -/
def regionTop (g : Gang) (i p : Nat) : Nat := regionBase g i p + spillSize g / 32

/-- The write of an item's call-stack copy (R177): the state with the copy written, a cause, or none while a page it
needs is host-owned or the tail buffer is full. The bottom entry stands highest (R36). -/
def copyStack (s : State) (gang i p : Nat) (stack : List DWord) : Except Trap (Option State) :=
  let g := gangAt s gang
  let n := 8 * stack.length
  if stack.isEmpty then .ok (some s)
  else if spillSize g / 32 < n then .error { code := 0x0A, addr := BitVec.ofNat 64 (regionTop g i p - spillSize g / 32 - 8) }
  else
    let va := regionTop g i p - n
    let img := stack.reverse.flatMap (fun e => toBytes 8 e.toNat)
    let a : Access := { asid := g.asid, level := (itemAt s gang i p).level, write := true, priv := true }
    match translateNow s a va n with
    | .fault c f => .error { code := c, addr := BitVec.ofNat 64 f, wr := true }
    | .miss _ => .ok none
    | .ok ls => .ok (storeBytes s g.core (clusterOf g.core) g.asid ls va img)

/-- A created item receives its call stack (R38, R177): a fault parks a real item and leaves a helper an empty stack. -/
def giveStack (s : State) (gang i p : Nat) (stack : List DWord) : State :=
  if stack.isEmpty then s
  else
    let helper := (itemAt s gang i p).helper
    let s := updItem s gang i p (fun t => { t with depth := stack.length, held := stack })
    match copyStack s gang i p stack with
    | .ok (some s) => updItem s gang i p (fun t => { t with held := [] })
    | .ok none => updItem s gang i p (fun t => { t with wait := .stackCopy })
    | .error c =>
      if helper then updItem s gang i p (fun t => { t with depth := 0, held := [] })
      else deliver s gang i p { c with sym := true, pc := (itemAt s gang i p).pc }

/-- Real positions that a pour creates in a home group (R171). -/
def pourReal (oneD : Bool) (b : Box) (o : Nat × Nat × Nat) : List Nat :=
  (upTo 0 32).filter (fun p =>
    let c := coordOf oneD { ox := o.1, oy := o.2.1, oz := o.2.2 } p
    boxHas b c.1 c.2.1 c.2.2)

/-- The registers of a group that receives new items at `ps`: those of the span in a new group; in an existing one a
register that differs over the group's box becomes BODY (R171, R172). -/
def mergeRegs (oneD : Bool) (x : Group) (sp : Span) (isNew : Bool) (ps : List Nat) : Group :=
  if isNew then
    { x with v := sp.v, c := sp.c, s := sp.s, status := x.status ||| sp.status
             badV := sp.bad.map (fun r => (r, 32, 2)) }
  else
    let b := homeBox oneD (x.ox, x.oy, x.oz)
    let spv (r : Nat) : VRep := tget sp.v r (.const 0)
    let val (r p : Nat) : Word := repAt (fun _ => 0) (spv r) (coordOf oneD x p)
    let differ := (upTo 0 32).filter (fun r => !repEqual b (vRep x r) (spv r))
    let y := differ.foldl (fun y r => putWords oneD y r (ps.map (fun p => (p, val r p)))) x
    let cdiff := (upTo 1 7).filter (fun n => !condEqual b (cRep x.c n) (cRep sp.c n))
    let cval (n p : Nat) : Bool := match cRep sp.c n with
      | .const v => v
      | .pred q => predAt q (coordOf oneD x p)
      | .body _ => false
    let y := cdiff.foldl (fun y n => putBits oneD y n (ps.map (fun p => (p, cval n p)))) y
    { y with status := y.status ||| sp.status
             badV := sp.bad.flatMap (fun r => ps.map (fun p => (r, p, 2))) ++ y.badV }

/-- A helper ends where a real item is created: its extended block returns, and its base slice stays for the real item
(R139, R173). -/
def yieldPlace (s : State) (gang g p : Nat) : State :=
  let x := groupAt s gang g
  let t := itemAt s gang g p
  let s := dropWaiter s gang g p
  let s := setGroup s gang g { x with
    items := tdel x.items p, board := x.board.filter (fun o => o.gpos ≠ p)
    badV := x.badV.filter (fun e => e.2.1 ≠ p), badL := x.badL.filter (fun e => e.1 ≠ p) }
  let core := (gangAt s gang).core
  if t.ext then serveQueues (giveGranules s core x.lane gang 5) core x.lane else s

/-- A span's items created in one home group (R20, R171 to R173). Answers the created positions. -/
def pourGroup (s : State) (sp : Span) (gang i : Nat) (o : Nat × Nat × Nat) (sym : Bool) (ready : Nat) :
    List Nat × State :=
  let g := gangAt s gang
  let real := pourReal g.oneD sp.box o
  if real.isEmpty then ([], s)
  else
    let s := real.foldl (fun s p => if (itemIn (groupAt s gang i) p).isSome then yieldPlace s gang i p else s) s
    let g := gangAt s gang
    let old := tfind g.groups i
    let isNew := (old.map (fun x => x.items.isEmpty)).getD true
    let place := (g.places.find? (fun q => q.1 = i)).getD (i, 0, 0)
    let x0 : Group := { ox := o.1, oy := o.2.1, oz := o.2.2, lane := place.2.1, res := place.2.2
                        used := (old.map Group.used).getD 0, back := (old.map Group.back).getD 0 }
    let x := if isNew then x0 else old.getD x0
    let used := real.foldl (fun m p => m ||| (1#32 <<< p)) x.used
    let quads := nodup (real.map (· / 4))
    let helpers := (quads.flatMap (fun q => upTo (4 * q) 4)).filter (fun p =>
      !used.getLsbD p && (itemIn x p).isNone)
    let fresh := real ++ helpers
    let x := mergeRegs g.oneD x sp isNew fresh
    let mk (h : Bool) : Item := { helper := h, pc := sp.pc, level := sp.level, prior := sp.level, sym, readyAt := ready }
    let items := helpers.foldl (fun t p => tput t p (mk true)) (real.foldl (fun t p => tput t p (mk false)) x.items)
    -- slices of helpers that were returned are taken again
    let extra := (2 * items.length + x.back) - baseGranules g.oneD g.box o
    let x := { x with items, used, back := x.back - extra }
    let l := laneAt s g.core x.lane
    let s := setLane s g.core x.lane { l with gran := l.gran - extra }
    let s := setGroup s gang i x
    (fresh, fresh.foldl (fun s p => giveStack s gang i p sp.stack) s)

/-- A span gone, and its record freed on its core (R157). -/
def freeSpan (s : State) (i : Nat) : State :=
  let sp := spanAt s i
  let s := { s with spans := tdel s.spans i }
  if sp.noRec then s else giveRecord s sp.core

/-- Groups numbered from an index on. -/
def numbered {α : Type} (n : Nat) : List α → List (Nat × α)
  | [] => []
  | x :: r => (n, x) :: numbered (n + 1) r

/-- Order of boxes by origin: z, then y, then x (R148). -/
def originKey (b : Box) : Nat := (b.oz * 2 ^ 33 + b.oy) * 2 ^ 33 + b.ox

/-- Two spans meet the conditions of R169 at one program counter. -/
def canRejoin (a b : Span) : Option Box :=
  if a.launch = b.launch && a.gang = b.gang && a.die = b.die && a.pc = b.pc && a.atSwitch && b.atSwitch && a.stack = b.stack then
    match boxUnion a.box b.box with
    | none => none
    | some u =>
      if (upTo 0 32).all (fun r => repEqual u (tget a.v r (.const 0)) (tget b.v r (.const 0))) &&
          (upTo 1 7).all (fun n => condEqual u (cRep a.c n) (cRep b.c n)) &&
          (upTo 0 64).all (fun n => tget a.s n 0 = tget b.s n 0)
      then some u else none
  else none

/-- Every pair of a list, earlier first. -/
def pairsOf {α : Type} : List α → List (α × α)
  | [] => []
  | x :: r => r.map (fun y => (x, y)) ++ pairsOf r

/-- Rejoins among the spans given until no pair qualifies, the lowest union origin first (R169); each costs 2 clk. -/
def rejoinAll (s : State) (w : Where) : Nat → List Nat → State
  | 0, _ => s
  | n + 1, ids =>
    let ok := (pairsOf ids).filterMap (fun (i, j) => (canRejoin (spanAt s i) (spanAt s j)).map (fun u => (i, j, u)))
    match leastBy (fun (t : Nat × Nat × Box) => originKey t.2.2) ok with
    | none => s
    | some (i, j, u) =>
      let a := spanAt s i
      let b := spanAt s j
      let s := freeSpan s j
      let s := setSpan s i { a with
        box := u, status := a.status ||| b.status, ring := [], readyAt := min a.readyAt b.readyAt, bad := nodup (a.bad ++ b.bad) }
      rejoinAll (occupy s w 2) w n (ids.filter (· ≠ j))

/-- Spans of the same gang, or die spans of the same die and launch, in one lane. -/
def peerSpans (s : State) (sp : Span) : List Nat :=
  (s.spans.filter (fun p => p.2.gang = sp.gang && p.2.die = sp.die && p.2.launch = sp.launch && p.2.core = sp.core &&
    p.2.lane = sp.lane)).map Prod.fst

/-- Held spans released when no span of the gang in the lane is ready and not held (R170): tested when a span reaches a
`join`, and when one retires, pours or is dealt. -/
def releaseHeld (s : State) (w : Where) (sp : Span) : State :=
  let ids := peerSpans s sp
  if ids.any (fun j => !(spanAt s j).held) || ids.isEmpty then s
  else
    let pcs := sortBy id (nodup (ids.map (fun j => (spanAt s j).pc.toNat)))
    let s := pcs.foldl (fun s a =>
      let here := ids.filter (fun j => (spanAt s j).pc.toNat = a)
      rejoinAll s w here.length here) s
    let order := sortBy (fun j => (spanAt s j).pc.toNat * 2 ^ 100 + originKey (spanAt s j).box) (peerSpans s sp)
    (numbered 0 order).foldl (fun s (k, j) =>
      let x := spanAt s j
      setSpan s j { x with held := false, readyAt := s.now + k }) s

/-- A gang span poured into items (R171 to R174): `sym` says that a cause provoked the pour (R267). -/
def pourSpan (s : State) (w : Where) (i gang : Nat) (sym : Bool) : State :=
  let sp := spanAt s i
  let g := gangAt s gang
  let gs := (numbered 0 (gangGroups g)).filter (fun o => !(pourReal g.oneD sp.box o.2).isEmpty)
  let laneOf (k : Nat) : Nat := ((g.places.find? (fun q => q.1 = k)).getD (k, 0, 0)).2.1
  let start := max s.now (laneAt s w.core w.lane).busy + 24
  let made := gs.filter (fun o => ((tfind g.groups o.1).map (fun x => x.items.isEmpty)).getD true)
  let due (lane : Nat) : Nat := start + 2 * (made.filter (fun o => laneOf o.1 = lane)).length
  let s := dropBundle (occupy (freeSpan s i) w 24) w
  let s := gs.foldl (fun s o => (pourGroup s sp gang o.1 o.2 sym (due (laneOf o.1))).2) s
  let s := gs.foldl (fun s o =>
    let l := laneAt s g.core (laneOf o.1)
    setLane s g.core (laneOf o.1) { l with setup := l.setup ++ [(gang, o.1, due (laneOf o.1))] }) s
  releaseHeld s w sp

/-- The lane in which a gang span issues: that of the gang's first home group (R158). -/
def spanLane (g : Gang) : Nat := ((g.places.head?).getD (0, 0, 0)).2.1

/-- A span of a gang box that a deal made: it joins its gang, which is created if no gang of the box is there (R160,
R161). At a placed gang it takes a record of the gang's core; R161 does not say what happens where none is free: it waits
for one (DESIGN CHOICE, log entry 33). -/
def dealBox (s : State) (sp : Span) (index : Nat) (gbox part : Box) : State :=
  let ln := launchAt s sp.launch
  let full := (boxMeet gbox (pktBox ln.pkt)).getD gbox
  match s.gangs.find? (fun p => p.2.launch = sp.launch && p.2.die = sp.die && p.2.index = index && p.2.box = full &&
      p.2.phase ≠ .ended) with
  | some (gid, g) =>
    let (n, s) := newName s
    let placed := g.phase ≠ .waiting && g.phase ≠ .saved
    let k := coreAt s g.core
    let none' := placed && k.spansFree = 0
    let new := { sp with
      gang := some gid, box := part, core := g.core, lane := spanLane g, readyAt := s.now, atSwitch := false, held := false
      noRec := none' }
    let s := setSpan s n new
    if !placed || none' then s else setCore s g.core { k with spansFree := k.spansFree - 1, dirty := true }
  | none =>
    let (gid, s) := newName s
    let p := ln.pkt
    let g : Gang := {
      launch := sp.launch, asid := pktAsid p, fn := ln.fn, queue := ln.queue, die := sp.die, index
      box := full, oneD := pktOneD p, since := s.now
      vext := bit p.toNat 158, mat := bit p.toNat 159, sblk := pkt p 178 175, gmemSize := pkt p 186 179 * 4096 }
    let (n, s) := newName (setGang s gid g)
    setSpan s n { sp with gang := some gid, box := part, readyAt := s.now, atSwitch := false, held := false }

/-- A die span dealt at a deal point (R160). -/
def dealSpan (s : State) (w : Where) (i : Nat) : State :=
  let sp := spanAt s i
  let p := (launchAt s sp.launch).pkt
  let s := dropBundle (freeSpan s i) w
  let s := (gangBoxes p sp.box).foldl (fun s (index, gb) =>
    match boxMeet gb sp.box with
    | some part => dealBox s sp index gb part
    | none => s) s
  releaseHeld s w sp

/-- A span pours: a die span is dealt first, and its gang spans come to the chain again (R160, R171, R179). -/
def pourOrDeal (s : State) (w : Where) (i : Nat) (sym : Bool) : State :=
  let l := laneAt s w.core w.lane
  let s := setLane s w.core w.lane { l with pours := l.pours + 1, pourSym := sym }
  match (spanAt s i).gang with
  | none => dealSpan s w i
  | some gang => pourSpan s w i gang sym

/-- The least `t` of `[lo, lo + n]`, at most `n` above `lo`, at which a rising test holds; `fuel` halvings. -/
def firstTrue (f : Nat → Bool) : Nat → Nat → Nat → Nat
  | 0, lo, _ => lo
  | k + 1, lo, hi =>
    if hi ≤ lo then lo
    else
      let mid := (lo + hi) / 2
      if f mid then firstTrue f k lo mid else firstTrue f k (mid + 1) hi

/-- The pieces of a box along one axis: (offset, length, transfers). -/
def piecesOf (lo hi : Nat) (p : Nat → Bool) (cond : Nat) (c d bound : Int) : List (Nat × Nat × Bool) :=
  if cond ≤ 1 then
    -- eq and ne: at most one point differs
    let t := if d = 0 then none else
      let q := (bound - c) / d
      if q * d = bound - c && decide ((lo : Int) ≤ q) && decide (q ≤ (hi : Int)) then some q.toNat else none
    match t with
    | none => [(lo, hi - lo + 1, p lo)]
    | some t =>
      (if lo < t then [(lo, t - lo, p lo)] else []) ++ [(t, 1, p t)] ++
        (if t < hi then [(t + 1, hi - t, p hi)] else [])
  else if p lo = p hi then [(lo, hi - lo + 1, p lo)]
  else
    let m := firstTrue (fun t => p t = p hi) 40 lo hi
    [(lo, m - lo, p lo), (m, hi - m + 1, p hi)]

/-- The test of a predicate record against a box (R166): none when the span must pour; otherwise the pieces, with whether
each transfers. -/
def splitBox (p : Pred) (neg : Bool) (b : Box) : Option (List (Box × Bool)) :=
  let axes := [(0, b.ox, b.ex, p.form.dx), (1, b.oy, b.ey, p.form.dy), (2, b.oz, b.ez, p.form.dz)]
  let vary := axes.filter (fun a => 1 < a.2.2.1 && a.2.2.2 ≠ 0)
  match vary with
  | [] => some [(b, predAt p (b.ox, b.oy, b.oz) != neg)]
  | [(a, lo, e, d)] =>
    let rest := (axes.filter (fun q => q.1 ≠ a)).foldl (fun acc q => acc + q.2.2.2 * BitVec.ofNat 32 q.2.1) p.form.c
    let sgn := p.cond = 2 || p.cond = 3
    let c : Int := if sgn then rest.toInt else rest.toNat
    let k : Int := if sgn then p.bound.toInt else p.bound.toNat
    let hi := lo + e - 1
    let v (t : Nat) : Int := c + d.toInt * t
    let inside (i : Int) : Bool :=
      if sgn then decide (-2 ^ 31 ≤ i) && decide (i ≤ 2 ^ 31 - 1) else decide (0 ≤ i) && decide (i ≤ 2 ^ 32 - 1)
    if !inside (v lo) || !inside (v hi) then none
    else
      let test (t : Nat) : Bool :=
        let (x, y) := if p.left then (v t, k) else (k, v t)
        (match p.cond.toNat with
          | 0 => decide (x = y)
          | 1 => decide (x ≠ y)
          | 2 => decide (x < y)
          | 3 => decide (x ≤ y)
          | 4 => decide (x < y)
          | _ => decide (x ≤ y)) != neg
      let cut (q : Nat × Nat × Bool) : Box × Bool :=
        (match a with
          | 0 => { b with ox := q.1, ex := q.2.1 }
          | 1 => { b with oy := q.1, ey := q.2.1 }
          | _ => { b with oz := q.1, ez := q.2.1 }, q.2.2)
      some ((piecesOf lo hi test p.cond.toNat c d.toInt k).map cut)
  | _ => none

/-- A gang or launch that lost a span may have ended (R168). -/
def afterSpan (s : State) (sp : Span) : State :=
  match sp.gang with
  | some g => endGang (orphanCheck (engineCheck s g) g) g
  | none => s

/-- A span retires (R168). -/
def retireSpan (s : State) (w : Where) (i : Nat) : State :=
  let sp := spanAt s i
  afterSpan (releaseHeld (dropBundle (freeSpan s i) w) w sp) sp

/-- A span stopped at a switch point: rejoin is tested against the ready spans of its gang at its program counter
(R170). -/
def testRejoin (s : State) (w : Where) (i : Nat) : State :=
  let sp := spanAt s i
  let ids := (peerSpans s sp).filter (fun j => (spanAt s j).pc = sp.pc && !(spanAt s j).held)
  rejoinAll s w ids.length ids

/-- The end of a member in a span (R145, R146, R163): the chain goes on, or a step of 1 clk is spent; at a switch point
the ring goes and rejoin is tested. -/
def spanEnd (s : State) (w : Where) (i : Nat) (chained switch : Bool) : State :=
  if chained && !switch then updBundle s w (fun b => { b with cidx := b.cidx + 1, stall := none, prog := {}, fresh := false })
  else
    let s := spend s w 1 true
    if switch then
      let x := spanAt s i
      let s := dropBundle (setSpan s i { x with ring := [], atSwitch := true }) w
      testRejoin s w i
    else
      let x := spanAt s i
      updBundle (setSpan s i { x with atSwitch := false }) w (fun b => { b with
        cidx := 0, occ := 1, symOnly := true, stall := none, prog := {}, fresh := false })

/-- The span stands at the next word. -/
def spanAdvance (s : State) (i len : Nat) : State :=
  let x := spanAt s i
  setSpan s i { x with pc := nextWord x.pc len }

/-- What becomes of a piece of a split (R167, R168). -/
inductive Piece where
  /-- it goes on as a sub-span -/
  | span (sp : Span)
  /-- it retires (R168) -/
  | ends
  /-- its transfer or its fall would trap, so it pours where it stands (R167) -/
  | pours

/-- A span cut into pieces with what becomes of each (R167); the caller has checked that the core has the records.
Falling-through pieces take the earlier ready times; the split costs 2 clk beyond its step. -/
def splitSpan (s : State) (w : Where) (i : Nat) (pieces : List (Box × Bool)) (fall go : Span → Piece) : State :=
  let sp := spanAt s i
  let s := dropBundle (occupy (spend s w 1 true) w 2) w
  let s := freeSpan s i
  let falls := sortBy (fun q => originKey q.1) (pieces.filter (fun q => !q.2))
  let goes := sortBy (fun q => originKey q.1) (pieces.filter (fun q => q.2))
  let put (s : State) (x : Span) : Nat × State :=
    let (n, s) := newName s
    let c := coreAt s sp.core
    (n, setSpan (setCore s sp.core { c with spansFree := c.spansFree - 1, dirty := true }) n x)
  let (s, on, off) := (numbered 0 (falls ++ goes)).foldl (fun (s, on, off) (k, b, t) =>
    let base := { sp with box := b, ring := [], readyAt := s.now + k, atSwitch := true }
    match (if t then go base else fall base) with
    | .span x =>
      let (n, s) := put s { x with ring := [], readyAt := base.readyAt, atSwitch := true, box := b }
      (s, on ++ [n], off)
    | .ends => (s, on, off)
    | .pours =>
      let (n, s) := put s { base with atSwitch := false }
      (s, on, off ++ [n])) (s, ([] : List Nat), ([] : List Nat))
  let s := on.foldl (fun s j => if (tfind s.spans j).isSome then testRejoin s w j else s) s
  let s := off.foldl (fun s j => match sp.gang with
    | some gang => pourSpan s w j gang true
    | none => dealSpan s w j) s
  afterSpan (releaseHeld s w sp) sp

end Sys2Proof.Machine
end

