-- ==== Sys2Proof/Machine/Register.lean ====
section
/-!
DEFINITION. The shared operation of the register instructions 0x00 to 0x4F (R92, R118): a value function over operand
values, a closed form over operand forms (R30), and what issuing it does in items (R20, R25 to R32, R83) and in a span
(R163 to R165).
-/
namespace Sys2Proof.Machine

/-- A register instruction as data. `f` gives the result (a pair in 64 bits when `wide`) and the flags from the operand
values: the sources in order, then d when `dIn`, then c[N] as 0 or 1 when `cIn` is given. `form` gives the closed form
of a result whose sources are not all CONST (R30). -/
structure OpSpec where
  y : Bool
  d : Field7
  ext : Word := 0
  wide : Bool := false
  srcs : List Src
  dIn : Bool := false
  cIn : Option Nat := none
  occ : Nat := 1
  len : Nat := 1
  chained : Bool
  fault : Option Trap := none
  f : List DWord → DWord × Nat
  form : Box → List Form → Option Form := fun _ _ => none

/-- Words of the result. -/
def OpSpec.words (o : OpSpec) : Nat := if o.wide then 2 else 1
/-- Every source, d included: d reads zero when D is 120 (R95, R118). -/
def OpSpec.sources (o : OpSpec) : List Src := if o.dIn then o.srcs ++ [{ f := o.d }] else o.srcs
/-- What the instruction names and reads. -/
def OpSpec.uses (o : OpSpec) : Uses :=
  { named := (o.d, o.words) :: o.srcs.map (fun x => (x.f, x.words))
    read := o.sources.map (fun x => (x.f, x.words)), ext := o.ext }

/-- All forms of a list, none if one source is BODY. -/
def allForms : List (Option Form) → Option (List Form)
  | [] => some []
  | none :: _ => none
  | some f :: r => (allForms r).map (f :: ·)

/-- Values of forms that are all CONST. -/
def constVals : List Form → Option (List DWord)
  | [] => some []
  | .const v :: r => (constVals r).map (v :: ·)
  | _ :: _ => none

/-- The value of a condition register as an operand. -/
def bitVal (b : Bool) : DWord := if b then 1 else 0

/-- The closed form of a result with the flags it raises (R30, R98, R122): CONST from CONST sources, else by the
operation's own rule. `cond` is the form of the condition operand. -/
def OpSpec.closed (o : OpSpec) (box : Box) (forms : List (Option Form)) (cond : Option CRep) : Option (Form × Nat) :=
  match allForms forms with
  | none => none
  | some fs =>
    let cv : Option (List DWord) := match o.cIn, cond with
      | none, _ => some []
      | some _, some (.const b) => some [bitVal b]
      | some _, _ => none
    match constVals fs, cv with
    | some vs, some c =>
      let r := o.f (vs ++ c)
      some (.const r.1, r.2)
    | none, some [] => (o.form box fs).map (fun f => (f, 0))
    | _, _ => none

/-- Words of a form as representations, low word first (R22, R28). -/
def formReps {β : Type} (wide : Bool) : Form → List (Rep β)
  | .const v => if wide then [.const (lowWord v), .const (highWord v)] else [.const (lowWord v)]
  | .aff f => if wide then [mkAffine f, .const 0] else [mkAffine f]
  | .wide f => if wide then [(mkAffine64 f).1, (mkAffine64 f).2] else [(mkAffine64 f).1]

/-- The box of a group's live real items (R30). -/
def liveBox (oneD : Bool) (x : Group) : Box :=
  let cs := (realPos x).map (coordOf oneD x)
  match cs with
  | [] => { ox := x.ox, oy := x.oy, oz := x.oz }
  | c :: r =>
    let lo := r.foldl (fun a b => (min a.1 b.1, min a.2.1 b.2.1, min a.2.2 b.2.2)) c
    let hi := r.foldl (fun a b => (max a.1 b.1, max a.2.1 b.2.1, max a.2.2 b.2.2)) c
    { ox := lo.1, oy := lo.2.1, oz := lo.2.2, ex := hi.1 - lo.1 + 1, ey := hi.2.1 - lo.2.1 + 1, ez := hi.2.2 - lo.2.2 + 1 }

/-- The closed form of the result in a home group for the items that issue (R30). -/
def OpSpec.inGroup (o : OpSpec) (oneD : Bool) (x : Group) (ps : List Nat) : Option (Form × Nat) :=
  o.closed (liveBox oneD x) (o.sources.map (groupForm oneD x ps o.ext)) (o.cIn.map (fun n => cRep x.c n))

/-- The operand values of an item, in the order of `f`. -/
def OpSpec.vals (o : OpSpec) (oneD : Bool) (x : Group) (p : Nat) : List DWord :=
  o.sources.map (srcAt oneD x p o.ext) ++ (match o.cIn with
    | some n => [bitVal (cAt oneD x n p)]
    | none => [])

/-- The words of a 64-bit result, low word first. -/
def OpSpec.split (o : OpSpec) (v : DWord) : List Word := if o.wide then [lowWord v, highWord v] else [lowWord v]

/-- Words written to v registers of one item. -/
def putItemWords (oneD : Bool) (x : Group) (r : Nat) (pws : List (Nat × List Word)) : Group :=
  let n := ((pws.head?).map (fun q => q.2.length)).getD 0
  (upTo 0 n).foldl (fun x k => putWords oneD x (r + k) (pws.map (fun q => (q.1, nth q.2 k 0)))) x

/-- Closed-form registers of a whole group written. -/
def putForm (oneD : Bool) (x : Group) (r : Nat) (reps : List VRep) : Group :=
  match reps with
  | [lo, hi] => putPair oneD x r lo hi
  | [v] => putV oneD x r v
  | _ => x

/-- Latch entries pushed for positions, low word first (R25). -/
def pushAll (x : Group) (ps : List Nat) (es : Nat → List LRep) : Group :=
  ps.foldl (fun x p => (es p).foldl (fun x e => pushLatch x p e) x) x

/-- The effect of a register instruction on one home group for the items that act (R25 to R31, R121). -/
def OpSpec.apply (o : OpSpec) (oneD : Bool) (x : Group) (ps : List Nat) : Group :=
  let hasReal := ps.any (fun p => ((itemIn x p).map (fun t => !t.helper)).getD false)
  let vals := ps.map (fun p => (p, o.f (o.vals oneD x p)))
  let pws := vals.map (fun q => (q.1, o.split q.2.1))
  let sVal : Option Word := (sWriter x ps).bind (fun p => (vals.find? (fun q => q.1 = p)).map (fun q => lowWord q.2.1))
  let writeS (x : Group) : Group := if o.d = 124 then (match sVal with
    | some v => putS x (extS o.ext) v
    | none => x) else x
  match o.inGroup oneD x ps with
  | some (fm, fl) =>
    let y := if isV o.d then
        (if wholeGroup x ps then putForm oneD x o.d.toNat (formReps o.wide fm) else putItemWords oneD x o.d.toNat pws)
      else writeS x
    let y := pushAll y ps (fun _ => formReps o.wide fm)
    if hasReal then groupFlags y fl else y
  | none =>
    let y := if isV o.d then putItemWords oneD x o.d.toNat pws else writeS x
    let y := pushAll y ps (fun p => (((pws.find? (fun q => q.1 = p)).map Prod.snd).getD []).map Rep.body)
    let fl := (vals.filter (fun q => ((itemIn x q.1).map (fun t => !t.helper)).getD false)).foldl (fun a q => a ||| q.2.2) 0
    groupFlags y fl

/-- BODY registers that a register instruction reads or leaves in a group: its BODY sources, and a destination that is or
becomes BODY (R143, R145). -/
def OpSpec.bodies (o : OpSpec) (oneD : Bool) (x : Group) (ps : List Nat) : List Nat :=
  bodyRegs x o.uses.read ++
    (if isV o.d && ((o.inGroup oneD x ps).isNone || !wholeGroup x ps) then upTo o.d.toNat o.words else [])
/-- Registers that a register instruction touches in a group: those, and the high half of a pair that its write breaks
(R29, R143). -/
def OpSpec.touches (o : OpSpec) (oneD : Bool) (x : Group) (ps : List Nat) : List Nat :=
  o.bodies oneD x ps ++ (if isV o.d then brokenHigh x o.d.toNat o.words else [])

/-- The step is symbolic in every home group of the bundle (R145). -/
def OpSpec.symbolic (o : OpSpec) (oneD : Bool) (gs : List (Group × List Nat)) : Bool :=
  gs.all (fun (x, ps) => wholeGroup x ps && (o.inGroup oneD x ps).isSome && (o.bodies oneD x ps).isEmpty)

/-- A register instruction issued for a bundle (R81, R83, R143, R145, R210). -/
def itemOp (o : OpSpec) (s : State) (w : Where) : State :=
  let gang := w.b.gang
  let oneD := (gangAt s gang).oneD
  let ms := w.b.members
  if awaitsLoad s gang ms o.uses then stallOn s w .loads
  else
    let s := meetErrors s w ms o.uses
    let gs := (groupsOf ms).map (fun g => (groupAt s gang g, inGroup ms g))
    let uni := o.sources.all (fun x => uniformSrc oneD gs o.ext x) && (o.cIn.map (uniformC gs)).getD true
    let k := sift s gang (fun g p =>
      let x := groupAt s gang g
      (earlyTrap x p o.uses).or (if o.y && !uni then some { code := 0x05 } else
        (pastTrap w).or ((useTrap x p o.uses).or o.fault))) ms
    let touch := (groupsOf k.go).flatMap (fun g =>
      (o.touches oneD (groupAt s gang g) (inGroup k.go g)).map (fun r => (g, r)))
    let miss := missingBanks s w touch
    if w.b.prog.past.isSome then runOff s w k
    else if !miss.isEmpty then stallBanks (usedBanks s w touch) w miss
    else
      let sym := k.traps.isEmpty && k.zero.isEmpty && o.symbolic oneD gs
      let s := (groupsOf k.go).foldl (fun s g => updGroup s gang g (fun x => o.apply oneD x (inGroup k.go g))) s
      usedBanks (conclude s w k o.d o.words o.len { chained := o.chained, occ := o.occ, sym } false) w touch

/-- What an instruction does to a span before any chain bookkeeping: it acts, or the span pours, because of a cause or
because of a BODY result (R84, R163). -/
inductive SpanAct where
  | act (s : State)
  | pour (sym : Bool)

/-- A field names something a span does not hold, or an invalid latch (R84, R157). -/
def spanTrap (sp : Span) (u : Uses) : Bool :=
  u.named.any (fun f => (isV f.1 && 32 < f.1.toNat + f.2) || (f.1 = 124 && 64 ≤ extS u.ext + f.2 - 1)) ||
    u.read.any (fun f => isLatch f.1 && (nth sp.ring (f.1.toNat - 112) none).isNone)

/-- A span reads a poisoned register (R272). -/
def spanPoison (sp : Span) (u : Uses) : Bool :=
  u.read.any (fun f => isV f.1 && (upTo f.1.toNat f.2).any (sp.bad.contains ·))

/-- A span may write an s register symbolically (R165): it is the only span of its gang and the gang has no home group, or
the only die span of its die. -/
def spanOwnsS (s : State) (i : Nat) : Bool :=
  let sp := spanAt s i
  match sp.gang with
  | some g => !s.spans.any (fun p => p.1 ≠ i && p.2.gang = some g) && (gangAt s g).groups.all (fun x => x.2.items.isEmpty)
  | none => !s.spans.any (fun p => p.1 ≠ i && p.2.gang = none && p.2.die = sp.die)

/-- A span register with its partner's half adjusted (R29). -/
def putSpanV (sp : Span) (r : Nat) (rep : VRep) : Span :=
  let sp := match tget sp.v r (.const 0) with
    | .hi64 f => if tget sp.v (r - 1) (.const 0) = Rep.lo64 f then { sp with v := tput sp.v (r - 1) (mkAffine (lowAff f)) } else sp
    | _ => sp
  { sp with v := tput sp.v r rep, bad := sp.bad.filter (· ≠ r) }

/-- The low half of a span's AFFINE64 pair is written alone: the high half would become BODY, so the span pours (R29,
R157). -/
def breaksHigh (sp : Span) (d : Field7) (words : Nat) : Bool :=
  isV d && words = 1 && (match tget sp.v d.toNat (.const 0) with
    | .lo64 _ => true
    | _ => false)

/-- A register instruction in a span (R163 to R165). -/
def spanOp (o : OpSpec) (s : State) (i : Nat) : SpanAct :=
  let sp := spanAt s i
  if spanTrap sp o.uses || o.fault.isSome then .pour true
  else if spanPoison sp o.uses then .pour false
  else
    let forms := o.sources.map (formOf sp.v sp.s sp.ring none · o.ext)
    let cond := o.cIn.map (fun n => cRep sp.c n)
    -- Y asserts that every source is CONST (R32, R84)
    if o.y && (o.closed sp.box (forms.map (fun f => match f with
        | some (.const v) => some (.const v)
        | _ => none)) cond).isNone then .pour true
    else
      match o.closed sp.box forms cond with
      | none => .pour false
      | some (fm, fl) =>
        let reps : List VRep := formReps o.wide fm
        if breaksHigh sp o.d o.words then .pour false
        else if o.d = 124 && (!(spanOwnsS s i) || (match fm with
            | .const _ => false
            | _ => true)) then .pour false
        else
          let sp1 := if isV o.d then (numbered o.d.toNat reps).foldl (fun sp (r, rep) => putSpanV sp r rep) sp else sp
          let sp2 := if isV o.d && o.wide then { sp1 with v := tput sp1.v o.d.toNat (reps.headD (.const 0)) } else sp1
          let sp3 := match o.d.toNat, fm with
            | 124, .const v => { sp2 with s := tput sp2.s (extS o.ext) (lowWord v) }
            | _, _ => sp2
          let ring := (formReps (β := Word) o.wide fm).foldl pushRing sp3.ring
          .act (setSpan s i { sp3 with ring, status := sp3.status ||| BitVec.ofNat 32 (fl % 64) })

/-- A register instruction issued where the cursor stands. -/
def runOp (o : OpSpec) (s : State) : State :=
  match issuing s with
  | none => s
  | some w =>
    match w.b.span with
    | none => itemOp o s w
    | some i =>
      match spanOp o s i with
      | .pour sym => pourOrDeal s w i sym
      | .act s' => spanEnd (spanAdvance s' i o.len) w i o.chained false

end Sys2Proof.Machine
end

