-- ==== Sys2Proof/Machine/Integer.lean ====
section
/-!
DEFINITION. Integer, immediate and 64-bit address instructions, opcodes 0x00 to 0x27 and 0x2C to 0x2F (R92 to R99, R104,
R105).
-/
namespace Sys2Proof.Machine

/-- The answer of a meaning. -/
abbrev Out := Host.Outcome State Fault Refusal

/-- A form's value function on two 32-bit operands. -/
def on2 (f : Word → Word → Word) (vs : List DWord) : DWord × Nat :=
  match vs with
  | [a, b] => ((f (lowWord a) (lowWord b)).setWidth 64, 0)
  | _ => (0, 0)

/-- A value function on one 32-bit operand. -/
def on1 (f : Word → Word) (vs : List DWord) : DWord × Nat :=
  match vs with
  | [a] => ((f (lowWord a)).setWidth 64, 0)
  | _ => (0, 0)

/-- A value function on a, b and d. -/
def on3 (f : Word → Word → Word → Word) (vs : List DWord) : DWord × Nat :=
  match vs with
  | [a, b, d] => ((f (lowWord a) (lowWord b) (lowWord d)).setWidth 64, 0)
  | _ => (0, 0)

/-- Length in words of an instruction with an X bit (R67). -/
def lenX (x : Bool) : Nat := if x then 2 else 1

/-- A binary register operation (R95). -/
def binSpec (o : RegOp) (f : Word → Word → Word) : OpSpec :=
  { y := o.y, d := o.d, ext := o.ext, srcs := [{ f := o.a }, { f := o.b }], len := lenX o.x, chained := o.c, f := on2 f }

/-- A unary register operation (R95). -/
def unSpec (o : UnOp) (f : Word → Word) : OpSpec :=
  { y := o.y, d := o.d, ext := o.ext, srcs := [{ f := o.a }], len := lenX o.x, chained := o.c, f := on1 f }

/-- A register operation that also reads d (R95). -/
def triSpec (o : RegOp) (f : Word → Word → Word → Word) : OpSpec :=
  { y := o.y, d := o.d, ext := o.ext, srcs := [{ f := o.a }, { f := o.b }], dIn := true, len := lenX o.x, chained := o.c
    f := on3 f }

/-- An immediate operation (R99). -/
def immSpec (o : ImmOp) (f : Word → Word) : OpSpec :=
  { y := o.y, d := o.d, srcs := [{ f := o.a }], chained := o.c, f := on1 f }

/-- A 32-bit form of a closed source: CONST as a form without steps (R30). -/
def asAff : Form → Option Aff
  | .const v => some { c := lowWord v, dx := 0, dy := 0, dz := 0 }
  | .aff f => some f
  | .wide _ => none

/-- Coefficients combined one by one. -/
def zipAff (f : Word → Word → Word) (a b : Aff) : Aff :=
  { c := f a.c b.c, dx := f a.dx b.dx, dy := f a.dy b.dy, dz := f a.dz b.dz }

/-- Every coefficient changed alike. -/
def mapAff (f : Word → Word) (a : Aff) : Aff := { c := f a.c, dx := f a.dx, dy := f a.dy, dz := f a.dz }

/-- The closed form of `add`, `sub` and `addi`: coefficients combined with wrap32 (R30). -/
def sumForm (f : Word → Word → Word) (_ : Box) : List Form → Option Form
  | [a, b] =>
    match asAff a, asAff b with
    | some x, some y => some (.aff (zipAff f x y))
    | _, _ => none
  | _ => none

/-- The closed form of `mul`: each coefficient times the constant (R30). -/
def mulForm (_ : Box) : List Form → Option Form
  | [.aff a, .const k] => some (.aff (mapAff (· * lowWord k) a))
  | [.const k, .aff a] => some (.aff (mapAff (· * lowWord k) a))
  | _ => none

/-- The closed form of `shl` and `shli`: each coefficient times 2^(k mod 32) (R30). -/
def shlForm (_ : Box) : List Form → Option Form
  | [.aff a, .const k] => some (.aff (mapAff (· <<< (k.toNat % 32)) a))
  | _ => none

/-- The closed form of `mov`: that of its source (R30). -/
def sameForm (_ : Box) : List Form → Option Form
  | [a] => some a
  | _ => none

/-- Exact least and greatest value of c + Σ d·t over a box, with the coefficients read by `rd` (R30). -/
def affRange (rd : Word → Int) (b : Box) (f : Aff) : Int × Int :=
  let ax (d : Word) (o e : Nat) : Int × Int :=
    let p := rd d * o
    let q := rd d * ((o + e - 1 : Nat) : Int)
    (min p q, max p q)
  let x := ax f.dx b.ox b.ex
  let y := ax f.dy b.oy b.ey
  let z := ax f.dz b.oz b.ez
  (rd f.c + x.1 + y.1 + z.1, rd f.c + x.2 + y.2 + z.2)

/-- The AFFINE64 reading of a closed source: a 32-bit AFFINE is zero-extended when its exact value fits (R30, R105). -/
def zextForm (b : Box) : Form → Option Aff64
  | .const v => some { c := v, dx := 0, dy := 0, dz := 0 }
  | .wide f => some f
  | .aff f =>
    let r := affRange (fun w => (w.toNat : Int)) b f
    if 0 ≤ r.1 ∧ r.2 ≤ 2 ^ 32 - 1 then
      some { c := f.c.setWidth 64, dx := f.dx.setWidth 64, dy := f.dy.setWidth 64, dz := f.dz.setWidth 64 }
    else none

/-- The sign-extended AFFINE64 reading of a 32-bit AFFINE whose exact value fits (R30). -/
def sextForm (b : Box) : Form → Option Aff64
  | .aff f =>
    let r := affRange (fun w => w.toInt) b f
    if -2 ^ 31 ≤ r.1 ∧ r.2 ≤ 2 ^ 31 - 1 then
      some { c := f.c.signExtend 64, dx := f.dx.signExtend 64, dy := f.dy.signExtend 64, dz := f.dz.signExtend 64 }
    else none
  | _ => none

/-- The closed form of `add64`, `sub64` and `lea` (R30). -/
def wideSum (f : DWord → DWord → DWord) (b : Box) : List Form → Option Form
  | [x, y] =>
    match zextForm b x, zextForm b y with
    | some p, some q => some (.wide { c := f p.c q.c, dx := f p.dx q.dx, dy := f p.dy q.dy, dz := f p.dz q.dz })
    | _, _ => none
  | _ => none

/-- `bfx` (R96). -/
def bitExtract (a b : Word) : Word :=
  let p := bits b.toNat 4 0
  let w := min (bits b.toNat 13 8) 32
  let f := (a.toNat >>> p) % 2 ^ w
  let v : Int := if bit b.toNat 16 && 1 ≤ w && 2 ^ (w - 1) ≤ f then (f : Int) - 2 ^ w else f
  wrap32 v

/-- `bfi` (R96). -/
def bitInsert (a b d : Word) : Word :=
  let p := bits b.toNat 4 0
  let w := min (bits b.toNat 13 8) 32
  let m := BitVec.ofNat 32 ((2 ^ w - 1) * 2 ^ p)
  (d &&& ~~~m) ||| (BitVec.ofNat 32 (a.toNat * 2 ^ p) &&& m)

/-- Leading zero bits (R95). -/
def leadingZeros (a : Word) : Word := BitVec.ofNat 32 (32 - bitLen a.toNat)
/-- One bits (R95). -/
def popCount (a : Word) : Word := BitVec.ofNat 32 (onesIn a.toNat 32)
/-- The word with its bits in reverse order (R95). -/
def bitReverse (a : Word) : Word := BitVec.ofNat 32 ((upTo 0 32).foldl (fun n j => 2 * n + ofBool (bit a.toNat j)) 0)
/-- Quotient toward zero (R95): all ones for b = 0, the overflow case wraps. -/
def divSigned (a b : Word) : Word := if b = 0 then 0xFFFFFFFF#32 else wrap32 (Int.tdiv a.toInt b.toInt)
/-- Remainder of `div.i` (R95): a for b = 0. -/
def remSigned (a b : Word) : Word := if b = 0 then a else wrap32 (a.toInt - b.toInt * Int.tdiv a.toInt b.toInt)

def specAdd (o : RegOp) : OpSpec := { binSpec o (· + ·) with form := sumForm (· + ·) }
def specSub (o : RegOp) : OpSpec := { binSpec o (· - ·) with form := sumForm (· - ·) }
def specMul (o : RegOp) : OpSpec := { binSpec o (· * ·) with form := mulForm }
def specMulhiI (o : RegOp) : OpSpec := binSpec o (fun a b => highWord (wrap64 (a.toInt * b.toInt)))
def specMulhiN (o : RegOp) : OpSpec := binSpec o (fun a b => highWord (BitVec.ofNat 64 (a.toNat * b.toNat)))
def specMad (o : RegOp) : OpSpec := triSpec o (fun a b d => a * b + d)
def specMinI (o : RegOp) : OpSpec := binSpec o (fun a b => if a.toInt ≤ b.toInt then a else b)
def specMaxI (o : RegOp) : OpSpec := binSpec o (fun a b => if a.toInt ≤ b.toInt then b else a)
def specMinN (o : RegOp) : OpSpec := binSpec o (fun a b => if a.toNat ≤ b.toNat then a else b)
def specMaxN (o : RegOp) : OpSpec := binSpec o (fun a b => if a.toNat ≤ b.toNat then b else a)
def specAnd (o : RegOp) : OpSpec := binSpec o (· &&& ·)
def specOr (o : RegOp) : OpSpec := binSpec o (· ||| ·)
def specXor (o : RegOp) : OpSpec := binSpec o (· ^^^ ·)
def specAndn (o : RegOp) : OpSpec := binSpec o (fun a b => a &&& ~~~b)
def specShl (o : RegOp) : OpSpec := { binSpec o (fun a b => a <<< (b.toNat % 32)) with form := shlForm }
def specShr (o : RegOp) : OpSpec := binSpec o (fun a b => a >>> (b.toNat % 32))
def specSar (o : RegOp) : OpSpec := binSpec o (fun a b => a.sshiftRight (b.toNat % 32))
def specRol (o : RegOp) : OpSpec := binSpec o (fun a b => a.rotateLeft (b.toNat % 32))
def specClz (o : UnOp) : OpSpec := unSpec o leadingZeros
def specPopc (o : UnOp) : OpSpec := unSpec o popCount
def specBrev (o : UnOp) : OpSpec := unSpec o bitReverse
def specBfx (o : RegOp) : OpSpec := binSpec o bitExtract
def specBfi (o : RegOp) : OpSpec := triSpec o bitInsert
def specFsh (o : RegOp) : OpSpec := triSpec o (fun a b d => lowWord (pair b a >>> (d.toNat % 64)))
def specAbs (o : UnOp) : OpSpec := unSpec o (fun a => if a.toInt < 0 then 0 - a else a)
def specNeg (o : UnOp) : OpSpec := unSpec o (fun a => 0 - a)
def specDivN (o : RegOp) : OpSpec := { binSpec o (fun a b => if b = 0 then 0xFFFFFFFF#32 else a / b) with occ := 4 }
def specRemN (o : RegOp) : OpSpec := { binSpec o (fun a b => if b = 0 then a else a % b) with occ := 4 }
def specDivI (o : RegOp) : OpSpec := { binSpec o divSigned with occ := 4 }
def specRemI (o : RegOp) : OpSpec := { binSpec o remSigned with occ := 4 }
def specMov (o : UnOp) : OpSpec := { unSpec o id with form := sameForm }

/-- `sel` (R97): c[N] counts as a source. -/
def specSel (o : ModOp) : OpSpec :=
  { y := o.y, d := o.d, ext := 0, srcs := [{ f := o.a }, { f := o.b }], cIn := some (bits o.ext.toNat 2 0), len := 2
    chained := o.c
    f := fun vs => match vs with
      | [a, b, c] => (if (c = 1) != bit o.ext.toNat 3 then a else b, 0)
      | _ => (0, 0) }

/-- The immediate's signed reading as a word. -/
def sx8 (i : BitVec 8) : Word := i.signExtend 32
/-- The immediate's unsigned reading as a word. -/
def zx8 (i : BitVec 8) : Word := i.setWidth 32

def specAddi (o : ImmOp) : OpSpec :=
  { immSpec o (· + sx8 o.imm) with
    form := fun b fs => sumForm (· + ·) b (fs ++ [.const ((sx8 o.imm).setWidth 64)]) }
def specAndi (o : ImmOp) : OpSpec := immSpec o (· &&& sx8 o.imm)
def specOri (o : ImmOp) : OpSpec := immSpec o (· ||| zx8 o.imm)
def specXori (o : ImmOp) : OpSpec := immSpec o (· ^^^ zx8 o.imm)
def specShli (o : ImmOp) : OpSpec :=
  { immSpec o (· <<< o.imm.toNat) with form := fun b fs => shlForm b (fs ++ [.const (o.imm.setWidth 64)]) }
def specShri (o : ImmOp) : OpSpec := immSpec o (· >>> o.imm.toNat)
def specSari (o : ImmOp) : OpSpec := immSpec o (fun a => a.sshiftRight o.imm.toNat)
def specMovi (o : MoviOp) : OpSpec :=
  { y := o.y, d := o.d, srcs := [], chained := o.c, f := fun _ => ((sx8 o.imm).setWidth 64, 0) }

/-- A 64-bit sum of two 64-bit operands (R104). -/
def wideSpec (o : RegOp) (f : DWord → DWord → DWord) : OpSpec :=
  { y := o.y, d := o.d, ext := o.ext, wide := true, srcs := [{ f := o.a, wide := true }, { f := o.b, wide := true }]
    len := lenX o.x, chained := o.c, form := wideSum f
    f := fun vs => match vs with
      | [a, b] => (f a b, 0)
      | _ => (0, 0) }

def specAdd64 (o : RegOp) : OpSpec := wideSpec o (· + ·)
def specSub64 (o : RegOp) : OpSpec := wideSpec o (· - ·)

/-- `lea` (R104): B is a 32-bit operand, zero-extended. -/
def specLea (o : RegOp) : OpSpec := { wideSpec o (· + ·) with srcs := [{ f := o.a, wide := true }, { f := o.b }] }

/-- `cvt64` by its kind (R104, R105). -/
def specCvt64 (o : RegOp) : OpSpec :=
  let k := o.b.toNat
  { y := o.y, d := o.d, ext := o.ext, wide := k ≤ 1, srcs := [{ f := o.a, wide := 2 ≤ k }], len := lenX o.x, chained := o.c
    form := fun b fs => match k, fs with
      | 0, [x] => (zextForm b x).map Form.wide
      | 1, [x] => (sextForm b x).map Form.wide
      | _, _ => none
    f := fun vs => match vs with
      | [a] =>
        (match k with
          | 0 => a
          | 1 => (lowWord a).signExtend 64
          | 2 => (wrap32 (max (-2 ^ 31) (min a.toInt (2 ^ 31 - 1)))).setWidth 64
          | _ => BitVec.ofNat 64 (min a.toNat (2 ^ 32 - 1)), 0)
      | _ => (0, 0) }

/-- ADD (R95). -/
def execAdd (o : RegOp) (s : State) : Out := .next (runOp (specAdd o) s)
/-- SUB (R95). -/
def execSub (o : RegOp) (s : State) : Out := .next (runOp (specSub o) s)
/-- MUL (R95). -/
def execMul (o : RegOp) (s : State) : Out := .next (runOp (specMul o) s)
/-- MULHI_I (R95). -/
def execMulhiI (o : RegOp) (s : State) : Out := .next (runOp (specMulhiI o) s)
/-- MULHI_N (R95). -/
def execMulhiN (o : RegOp) (s : State) : Out := .next (runOp (specMulhiN o) s)
/-- MAD (R95). -/
def execMad (o : RegOp) (s : State) : Out := .next (runOp (specMad o) s)
/-- MIN_I (R95). -/
def execMinI (o : RegOp) (s : State) : Out := .next (runOp (specMinI o) s)
/-- MAX_I (R95). -/
def execMaxI (o : RegOp) (s : State) : Out := .next (runOp (specMaxI o) s)
/-- MIN_N (R95). -/
def execMinN (o : RegOp) (s : State) : Out := .next (runOp (specMinN o) s)
/-- MAX_N (R95). -/
def execMaxN (o : RegOp) (s : State) : Out := .next (runOp (specMaxN o) s)
/-- AND (R95). -/
def execAnd (o : RegOp) (s : State) : Out := .next (runOp (specAnd o) s)
/-- OR (R95). -/
def execOr (o : RegOp) (s : State) : Out := .next (runOp (specOr o) s)
/-- XOR (R95). -/
def execXor (o : RegOp) (s : State) : Out := .next (runOp (specXor o) s)
/-- ANDN (R95). -/
def execAndn (o : RegOp) (s : State) : Out := .next (runOp (specAndn o) s)
/-- SHL (R95). -/
def execShl (o : RegOp) (s : State) : Out := .next (runOp (specShl o) s)
/-- SHR (R95). -/
def execShr (o : RegOp) (s : State) : Out := .next (runOp (specShr o) s)
/-- SAR (R95). -/
def execSar (o : RegOp) (s : State) : Out := .next (runOp (specSar o) s)
/-- ROL (R95). -/
def execRol (o : RegOp) (s : State) : Out := .next (runOp (specRol o) s)
/-- CLZ (R95). -/
def execClz (o : UnOp) (s : State) : Out := .next (runOp (specClz o) s)
/-- POPC (R95). -/
def execPopc (o : UnOp) (s : State) : Out := .next (runOp (specPopc o) s)
/-- BREV (R95). -/
def execBrev (o : UnOp) (s : State) : Out := .next (runOp (specBrev o) s)
/-- BFX (R96). -/
def execBfx (o : RegOp) (s : State) : Out := .next (runOp (specBfx o) s)
/-- BFI (R96). -/
def execBfi (o : RegOp) (s : State) : Out := .next (runOp (specBfi o) s)
/-- FSH (R95). -/
def execFsh (o : RegOp) (s : State) : Out := .next (runOp (specFsh o) s)
/-- SEL (R97). -/
def execSel (o : ModOp) (s : State) : Out := .next (runOp (specSel o) s)
/-- ABS (R95). -/
def execAbs (o : UnOp) (s : State) : Out := .next (runOp (specAbs o) s)
/-- NEG (R95). -/
def execNeg (o : UnOp) (s : State) : Out := .next (runOp (specNeg o) s)
/-- DIV_N (R94, R95). -/
def execDivN (o : RegOp) (s : State) : Out := .next (runOp (specDivN o) s)
/-- REM_N (R94, R95). -/
def execRemN (o : RegOp) (s : State) : Out := .next (runOp (specRemN o) s)
/-- DIV_I (R94, R95). -/
def execDivI (o : RegOp) (s : State) : Out := .next (runOp (specDivI o) s)
/-- REM_I (R94, R95). -/
def execRemI (o : RegOp) (s : State) : Out := .next (runOp (specRemI o) s)
/-- MOV (R95). -/
def execMov (o : UnOp) (s : State) : Out := .next (runOp (specMov o) s)
/-- ADDI (R99). -/
def execAddi (o : ImmOp) (s : State) : Out := .next (runOp (specAddi o) s)
/-- ANDI (R99). -/
def execAndi (o : ImmOp) (s : State) : Out := .next (runOp (specAndi o) s)
/-- ORI (R99). -/
def execOri (o : ImmOp) (s : State) : Out := .next (runOp (specOri o) s)
/-- XORI (R99). -/
def execXori (o : ImmOp) (s : State) : Out := .next (runOp (specXori o) s)
/-- SHLI (R99). -/
def execShli (o : ImmOp) (s : State) : Out := .next (runOp (specShli o) s)
/-- SHRI (R99). -/
def execShri (o : ImmOp) (s : State) : Out := .next (runOp (specShri o) s)
/-- SARI (R99). -/
def execSari (o : ImmOp) (s : State) : Out := .next (runOp (specSari o) s)
/-- MOVI (R99). -/
def execMovi (o : MoviOp) (s : State) : Out := .next (runOp (specMovi o) s)
/-- ADD64 (R104). -/
def execAdd64 (o : RegOp) (s : State) : Out := .next (runOp (specAdd64 o) s)
/-- SUB64 (R104). -/
def execSub64 (o : RegOp) (s : State) : Out := .next (runOp (specSub64 o) s)
/-- LEA (R104). -/
def execLea (o : RegOp) (s : State) : Out := .next (runOp (specLea o) s)
/-- CVT64 (R104). -/
def execCvt64 (o : RegOp) (s : State) : Out := .next (runOp (specCvt64 o) s)

end Sys2Proof.Machine
end

