-- ==== Sys2Proof/Machine/Compare.lean ====
section
/-!
DEFINITION. Compares and condition logic, opcodes 0x28 to 0x2B (R100 to R103), and `repq` (R180).
-/
namespace Sys2Proof.Machine

/-- An instruction with a condition-register destination as data. `f` reads the source values, then the condition
registers `cregs` as bits; with `ac` the result is ANDed into c[cD] (R100). `form` gives a predicate record. -/
structure CondSpec where
  y : Bool
  cd : Nat
  ac : Bool := false
  ext : Word := 0
  srcs : List Src := []
  cregs : List Nat := []
  len : Nat := 1
  chained : Bool
  f : List DWord → List Bool → Bool × Nat
  form : List Form → Option Pred := fun _ => none

/-- What a condition instruction names and reads. -/
def CondSpec.uses (o : CondSpec) : Uses :=
  { named := o.srcs.map (fun x => (x.f, x.words)), read := o.srcs.map (fun x => (x.f, x.words)), ext := o.ext }

/-- Bits of condition registers that are all CONST. -/
def constBits : List CRep → Option (List Bool)
  | [] => some []
  | .const b :: r => (constBits r).map (b :: ·)
  | _ :: _ => none

/-- The closed form of a condition result with its flags (R33): CONST, a predicate record, or none for BODY. -/
def CondSpec.closed (o : CondSpec) (forms : List (Option Form)) (cs : List CRep) (cd : CRep) : Option (CRep × Nat) :=
  match allForms forms, constBits cs with
  | some fs, some bs =>
    match constVals fs with
    | some vs =>
      let r := o.f vs bs
      if !o.ac then some (.const r.1, r.2)
      else match cd with
        | .const b => some (.const (r.1 && b), r.2)
        | _ => none
    | none => if o.ac then none else (o.form fs).map (fun p => (.pred p, 0))
  | _, _ => none

/-- The closed form of the result in a home group. -/
def CondSpec.inGroup (o : CondSpec) (oneD : Bool) (x : Group) (ps : List Nat) : Option (CRep × Nat) :=
  o.closed (o.srcs.map (groupForm oneD x ps o.ext)) (o.cregs.map (cRep x.c)) (cRep x.c o.cd)

/-- The result for one item, with its flags. -/
def CondSpec.item (o : CondSpec) (oneD : Bool) (x : Group) (p : Nat) : Bool × Nat :=
  let r := o.f (o.srcs.map (srcAt oneD x p o.ext)) (o.cregs.map (fun n => cAt oneD x n p))
  (if o.ac then r.1 && cAt oneD x o.cd p else r.1, r.2)

/-- The effect on one home group (R24, R31, R33, R121). -/
def CondSpec.apply (o : CondSpec) (oneD : Bool) (x : Group) (ps : List Nat) : Group :=
  let res := ps.map (fun p => (p, o.item oneD x p))
  let fl := (res.filter (fun q => ((itemIn x q.1).map (fun t => !t.helper)).getD false)).foldl (fun a q => a ||| q.2.2) 0
  let y := match o.inGroup oneD x ps with
    | some (r, _) => if wholeGroup x ps then putC x o.cd r else putBits oneD x o.cd (res.map (fun q => (q.1, q.2.1)))
    | none => putBits oneD x o.cd (res.map (fun q => (q.1, q.2.1)))
  groupFlags y fl

/-- Helpers that would trap receive zero in the condition register (R20). -/
def zeroCond (s : State) (gang cd : Nat) (ms : List (Nat × Nat)) : State :=
  ms.foldl (fun s (g, p) => updGroup s gang g (fun x => putBits (gangAt s gang).oneD x cd [(p, false)])) s

/-- A condition instruction issued for a bundle. -/
def itemCond (o : CondSpec) (s : State) (w : Where) : State :=
  let gang := w.b.gang
  let oneD := (gangAt s gang).oneD
  let ms := w.b.members
  if awaitsLoad s gang ms o.uses then stallOn s w .loads
  else
    let s := meetErrors s w ms o.uses
    let gs := (groupsOf ms).map (fun g => (groupAt s gang g, inGroup ms g))
    let uni := o.srcs.all (fun x => uniformSrc oneD gs o.ext x) && o.cregs.all (uniformC gs) && (!o.ac || uniformC gs o.cd)
    let k := sift s gang (fun g p =>
      let x := groupAt s gang g
      (earlyTrap x p o.uses).or (if o.y && !uni then some { code := 0x05 } else (pastTrap w).or (useTrap x p o.uses))) ms
    let touch := (groupsOf k.go).flatMap (fun g => (bodyRegs (groupAt s gang g) o.uses.read).map (fun r => (g, r)))
    let miss := missingBanks s w touch
    if w.b.prog.past.isSome then runOff s w k
    else if !miss.isEmpty then stallBanks (usedBanks s w touch) w miss
    else
      let sym := k.traps.isEmpty && k.zero.isEmpty && gs.all (fun (x, ps) => wholeGroup x ps && (o.inGroup oneD x ps).isSome)
      let s := (groupsOf k.go).foldl (fun s g => updGroup s gang g (fun x => o.apply oneD x (inGroup k.go g))) s
      let s := zeroCond s gang o.cd k.zero
      usedBanks (conclude s w { k with zero := [] } 120 0 o.len { chained := o.chained, sym } false) w touch

/-- A condition instruction in a span (R163). -/
def spanCond (o : CondSpec) (s : State) (i : Nat) : SpanAct :=
  let sp := spanAt s i
  if spanTrap sp o.uses then .pour true
  else if spanPoison sp o.uses then .pour false
  else
    let forms := o.srcs.map (formOf sp.v sp.s sp.ring none · o.ext)
    let cs := o.cregs.map (cRep sp.c)
    let isConst (f : Option Form) : Bool := match f with
      | some (.const _) => true
      | _ => false
    let cConst (c : CRep) : Bool := match c with
      | .const _ => true
      | _ => false
    if o.y && !(forms.all isConst && cs.all cConst && (!o.ac || cConst (cRep sp.c o.cd))) then .pour true
    else
      match o.closed forms cs (cRep sp.c o.cd) with
      | none => .pour false
      | some (r, fl) =>
        .act (setSpan s i { sp with
          c := if o.cd = 0 then sp.c else tput sp.c o.cd r, status := sp.status ||| BitVec.ofNat 32 (fl % 64) })

/-- A condition instruction issued where the cursor stands. -/
def runCond (o : CondSpec) (s : State) : State :=
  match issuing s with
  | none => s
  | some w =>
    match w.b.span with
    | none => itemCond o s w
    | some i =>
      match spanCond o s i with
      | .pour sym => pourOrDeal s w i sym
      | .act s' => spanEnd (spanAdvance s' i o.len) w i o.chained false

/-- The predicate record of an `icmp` on one AFFINE and one CONST source (R33). -/
def predOf (cond : BitVec 3) : List Form → Option Pred
  | [.aff f, .const k] => some { form := f, cond, bound := lowWord k, left := true }
  | [.const k, .aff f] => some { form := f, cond, bound := lowWord k, left := false }
  | _ => none

/-- `icmp` (R100). -/
def specIcmp (o : CmpOp) : CondSpec :=
  { y := o.y, cd := o.cd.toNat, ac := o.ac, ext := o.ext, srcs := [{ f := o.a, wide := o.w }, { f := o.b, wide := o.w }]
    len := lenX o.x, chained := o.c
    form := fun fs => if o.w then none else predOf o.cond fs
    f := fun vs _ => match vs with
      | [a, b] => (icond o.cond.toNat (if o.w then 64 else 32) a.toNat b.toNat, 0)
      | _ => (false, 0) }

/-- An f32 is a NaN (R41). -/
def isNaN32 (a : Word) : Bool := bits a.toNat 30 23 = 255 && bits a.toNat 22 0 ≠ 0
/-- An f32 is a signalling NaN. -/
def isSNaN32 (a : Word) : Bool := isNaN32 a && !bit a.toNat 22
/-- The order of f32 values that are not NaN: −0 equals +0, subnormals at their exact values (R101). -/
def ord32 (a : Word) : Int := if bit a.toNat 31 then -(bits a.toNat 30 0 : Int) else bits a.toNat 30 0

/-- `fcmp`'s comparison with its flags (R79, R101). -/
def fcond (cond : Nat) (a b : Word) : Bool × Nat :=
  let un := isNaN32 a || isNaN32 b
  let t := match cond with
    | 0 => !un && ord32 a = ord32 b
    | 1 => un || ord32 a ≠ ord32 b
    | 2 => !un && decide (ord32 a < ord32 b)
    | 3 => !un && decide (ord32 a ≤ ord32 b)
    | 4 => un
    | _ => !un
  (t, flagIf (isSNaN32 a || isSNaN32 b || ((cond = 2 || cond = 3) && un)) flagNV)

/-- `fcmp` (R101): BODY unless both sources are CONST. -/
def specFcmp (o : FcmpOp) : CondSpec :=
  { y := o.y, cd := o.cd.toNat, ac := o.ac, ext := o.ext, srcs := [{ f := o.a }, { f := o.b }], len := lenX o.x, chained := o.c
    f := fun vs _ => match vs with
      | [a, b] => fcond o.cond.toNat (lowWord a) (lowWord b)
      | _ => (false, 0) }

/-- `cop` (R102). -/
def specCop (o : CopOp) : CondSpec :=
  { y := o.y, cd := o.cd.toNat, ac := o.ac, cregs := [o.ca.toNat, o.cb.toNat], chained := o.c
    f := fun _ bs => match bs with
      | [a, b] =>
        let p := a != o.na
        let q := b != o.nb
        (match o.cond.toNat with
          | 0 => p && q
          | 1 => p || q
          | _ => p != q, 0)
      | _ => (false, 0) }

/-- `cset` (R103). -/
def specCset (o : CsetOp) : CondSpec :=
  { y := o.y, cd := o.cd.toNat, ext := o.ext, srcs := [{ f := o.a }, { f := o.b }], len := lenX o.x, chained := o.c
    f := fun vs _ => match vs with
      | [a, b] => (lowWord a &&& lowWord b ≠ 0, 0)
      | _ => (false, 0) }

/-- ICMP (R100). -/
def execIcmp (o : CmpOp) (s : State) : Out := .next (runCond (specIcmp o) s)
/-- FCMP (R101). -/
def execFcmp (o : FcmpOp) (s : State) : Out := .next (runCond (specFcmp o) s)
/-- COP (R102). -/
def execCop (o : CopOp) (s : State) : Out := .next (runCond (specCop o) s)
/-- CSET (R103). -/
def execCset (o : CsetOp) (s : State) : Out := .next (runCond (specCset o) s)

/-- The tag that `repq` sees: 0 CONST, 1 AFFINE or AFFINE64, 2 BODY (R180). -/
def queryTag {β : Type} (v : Tbl (Rep β)) (ring : List (Option LRep)) (gpos : Option Form) (a : Field7) (wide : Bool) : Nat :=
  let n := a.toNat
  if n < 112 && wide then
    match tget v n (.const 0), tget v (n + 1) (.const 0) with
    | .const _, .const _ => 0
    | .lo64 _, .hi64 _ => 1
    | _, _ => 2
  else
    match formOf v [] ring gpos { f := a } 0 with
    | some (.const _) => 0
    | some _ => 1
    | none => 2

/-- What `repq` names: its operand is not read as a value (R180). -/
def repqUses (o : RepqOp) : Uses :=
  let n := if o.w then 2 else 1
  { named := [(o.a, n)], read := [(o.a, n)], ext := 0 }

/-- What `repq` writes for an item (R180). `uni` says whether A is uniform over the bundle. -/
def repqItem (o : RepqOp) (oneD : Bool) (x : Group) (p : Nat) (uni : Bool) : Bool :=
  match o.kind.toNat with
  | 3 => false
  | 4 => uni
  | k => queryTag x.v (((itemIn x p).map Item.ring).getD []) (gposForm oneD x) o.a o.w = k

/-- `repq` issued for a bundle (R180). -/
def itemRepq (o : RepqOp) (s : State) (w : Where) : State :=
  let gang := w.b.gang
  let oneD := (gangAt s gang).oneD
  let ms := w.b.members
  let gs := (groupsOf ms).map (fun g => (groupAt s gang g, inGroup ms g))
  let uni := if o.w then
      uniformSrc oneD gs 0 { f := o.a, wide := true } else uniformSrc oneD gs 0 { f := o.a }
  let cd := o.cd.toNat
  let k := sift s gang (fun g p => (earlyTrap (groupAt s gang g) p (repqUses o)).or (pastTrap w)) ms
  let res (x : Group) (ps : List Nat) : List (Nat × Bool) := ps.map (fun p =>
    let t := repqItem o oneD x p uni
    (p, if o.ac then t && cAt oneD x cd p else t))
  let closed (x : Group) (ps : List Nat) : Option Bool :=
    let l := (res x ps).map Prod.snd
    let cdOk := !o.ac || (match cRep x.c cd with
      | .const _ => true
      | _ => false)
    match l with
    | b :: r => if cdOk && r.all (· = b) then some b else none
    | [] => none
  let sym := k.traps.isEmpty && k.zero.isEmpty && gs.all (fun (x, ps) => wholeGroup x ps && (closed x ps).isSome)
  if w.b.prog.past.isSome then runOff s w k
  else
    let s := (groupsOf k.go).foldl (fun s g => updGroup s gang g (fun x =>
      let ps := inGroup k.go g
      match closed x ps with
      | some b => if wholeGroup x ps then putC x cd (.const b) else putBits oneD x cd (res x ps)
      | none => putBits oneD x cd (res x ps))) s
    let s := zeroCond s gang cd k.zero
    conclude s w { k with zero := [] } 120 0 1 { chained := o.c, sym } false

/-- `repq` in a span (R180): CONST, and BODY only with AC on a predicate record. -/
def spanRepq (o : RepqOp) (s : State) (i : Nat) : SpanAct :=
  let sp := spanAt s i
  if spanTrap sp (repqUses o) then .pour true
  else
    let tag := queryTag sp.v sp.ring none o.a o.w
    let t := match o.kind.toNat with
      | 3 => true
      | 4 => tag = 0
      | k => tag = k
    let cd := o.cd.toNat
    if !o.ac then .act (setSpan s i { sp with c := if cd = 0 then sp.c else tput sp.c cd (.const t) })
    else match cRep sp.c cd with
      | .const b => .act (setSpan s i { sp with c := if cd = 0 then sp.c else tput sp.c cd (.const (t && b)) })
      | _ => .pour false

/-- REPQ (R180). -/
def execRepq (o : RepqOp) (s : State) : Out :=
  match issuing s with
  | none => .next s
  | some w =>
    match w.b.span with
    | none => .next (itemRepq o s w)
    | some i =>
      match spanRepq o s i with
      | .pour sym => .next (pourOrDeal s w i sym)
      | .act s' => .next (spanEnd (spanAdvance s' i 1) w i o.c false)

end Sys2Proof.Machine
end

