-- ==== Sys2Proof/Machine/Control.lean ====
section
/-!
DEFINITION. Control transfers, `join`, `exit`, `yield`, `nop`, `trap` and `pour`, opcodes 0x50 to 0x5B (R106 to R117, R179),
in items and in spans (R109, R163, R166 to R170, R176).
-/
namespace Sys2Proof.Machine

/-- Issue would run past packet 9 of a line with L = 1 (R69). -/
def fallTrap (w : Where) (pc : DWord) (len : Nat) : Option Trap :=
  if w.b.lbit && (pc.toNat + 4 * len) % 128 = 0 then some (targetTrap (nextWord pc len)) else none

/-- What one item of a transfer does. -/
inductive Goto where
  | fall
  | to (pc : DWord)
  /-- transfers and pushes a return word (R107) -/
  | push (pc ret : DWord)
  /-- transfers and pops (R112) -/
  | pop (pc : DWord)
  | leave
  | trap (t : Trap)
  | wait (asid vpn : Nat)
  deriving DecidableEq, Repr

/-- The leaves under which an item reaches its own region (R36, R111). -/
def regionXlate (s : State) (w : Where) (t : Item) (write : Bool) (va n : Nat) : Xlate :=
  let asid := (gangAt s w.b.gang).asid
  translate s w.core w.b.prog.answers { asid, level := t.level, write, priv := true } va n

/-- The check of an item's call push (R110, R36): STACK, then the translation causes. -/
def pushCheck (s : State) (w : Where) (g p : Nat) (target ret : DWord) : Goto :=
  let gg := gangAt s w.b.gang
  let t := itemAt s w.b.gang g p
  let va := regionTop gg g p - 8 * (t.depth + 1)
  if spillSize gg / 32 < 8 * (t.depth + 1) then .trap { code := 0x0A, addr := BitVec.ofNat 64 va, wr := true }
  else match regionXlate s w t true va 8 with
    | .fault c a => .trap { code := c, addr := BitVec.ofNat 64 a, wr := true }
    | .miss v => .wait gg.asid v
    | .ok _ => .push target ret

/-- An item's pop (R112): STACK on an empty stack, the read of its entry, and the checks of the entry. -/
def popCheck (s : State) (w : Where) (g p : Nat) : Goto :=
  let gg := gangAt s w.b.gang
  let t := itemAt s w.b.gang g p
  let va := regionTop gg g p - 8 * t.depth
  if t.depth = 0 then .trap { code := 0x0A, addr := BitVec.ofNat 64 (regionTop gg g p) }
  else match regionXlate s w t false va 8 with
    | .fault c a => .trap { code := c, addr := BitVec.ofNat 64 a }
    | .miss v => .wait gg.asid v
    | .ok ls =>
      let r := loadBytes s w.core gg.asid ls va 8
      if r.bad then .trap { code := 0x0E, sub := 5, addr := BitVec.ofNat 64 va }
      else
        let e := ofBytes r.data
        if 2 ^ 57 ≤ e || e % 4 ≠ 0 || !packetStart e then .trap (targetTrap (BitVec.ofNat 64 e))
        else .pop (BitVec.ofNat 64 e)

/-- A transfer's target for one item: checked, then pushed for a call (R69, R107, R110). -/
def gotoTarget (s : State) (w : Where) (g p : Nat) (call : Bool) (a : DWord) : Goto :=
  let asid := (gangAt s w.b.gang).asid
  let t := itemAt s w.b.gang g p
  match checkTarget s w.core w.b.prog.answers asid t.level call a with
  | .trap c => .trap c
  | .miss v => .wait asid v
  | .ok => if call then pushCheck s w g p a (returnWord t.pc) else .to a

/-- The push of a call entry performed (R36, R111), under the leaf found in `s0`: none when the tail buffer is full. -/
def doPush (s0 s : State) (w : Where) (g p : Nat) (ret : DWord) : Option State :=
  let gg := gangAt s w.b.gang
  let t := itemAt s w.b.gang g p
  let va := regionTop gg g p - 8 * (t.depth + 1)
  match regionXlate s0 w t true va 8 with
  | .ok ls =>
    (storeBytes s w.core (clusterOf w.core) gg.asid ls va (toBytes 8 ret.toNat)).map (fun s =>
      updItem s w.b.gang g p (fun t => { t with depth := t.depth + 1 }))
  | _ => some s

/-- Items of a transfer moved; `fall` items stand at the word after the chain. -/
def doGotos (s0 : State) (w : Where) (len : Nat) (s : State) : List ((Nat × Nat) × Goto) → Option State
  | [] => some s
  | ((g, p), k) :: r =>
    let gang := w.b.gang
    let s' : Option State := match k with
      | .fall => some (advance s gang [(g, p)] len)
      | .to a => some (updItem s gang g p (fun t => { t with pc := a }))
      | .push a ret => (doPush s0 s w g p ret).map (fun s => updItem s gang g p (fun t => { t with pc := a }))
      | .pop a => some (updItem s gang g p (fun t => { t with pc := a, depth := t.depth - 1 }))
      | .leave => some (endItem s gang g p)
      | .trap _ => some s
      | .wait _ _ => some s
    match s' with
    | none => none
    | some s => doGotos s0 w len s r

/-- The step of a transfer for a bundle (R106 to R114): waits for walks, pushes, moves, traps, and the switch point that
R108 makes of it. `always` says that a transfer is a switch point whatever its target; helpers that would trap, or that
have no next instruction, go on or retire (R20). -/
def transferStep (s : State) (w : Where) (len : Nat) (always : Bool) (k : Sifted) (plan : Nat → Nat → Goto) : State :=
  let gang := w.b.gang
  let plans := k.go.map (fun (g, p) => ((g, p), plan g p))
  let waits := nodup (plans.filterMap (fun q => match q.2 with
    | .wait a v => some (a, v)
    | _ => none))
  if !waits.isEmpty then
    waits.foldl (fun s (a, v) => match issuing s with
      | some w' => stallWalk s w' a v
      | none => s) s
  else
    let fix (q : (Nat × Nat) × Goto) : (Nat × Nat) × Goto :=
      let helper := (itemAt s gang q.1.1 q.1.2).helper
      let off := fallTrap w (itemAt s gang q.1.1 q.1.2).pc len
      match q.2 with
      | .fall => match off with
        | some t => (q.1, if helper then .leave else .trap t)
        | none => q
      | .trap t => if helper then (q.1, if off.isSome then .leave else .fall) else (q.1, .trap t)
      | _ => q
    let plans := plans.map fix ++ k.zero.map (fun m => fix (m, .fall))
    let traps := k.traps ++ plans.filterMap (fun q => match q.2 with
      | .trap t => some (q.1.1, q.1.2, t)
      | _ => none)
    let moving := (plans.filter (fun q => match q.2 with
      | .trap _ => false
      | .leave => false
      | _ => true)).map Prod.fst
    let took := plans.any (fun q => match q.2 with
      | .to _ => true
      | .push _ _ => true
      | .pop _ => true
      | _ => false)
    let left := plans.any (fun q => q.2 = .leave)
    let pc0 := ((w.b.members.head?).map (fun m => (itemAt s gang m.1 m.2).pc)).getD 0
    match doGotos s w len s plans with
    | none => stallOn s w .tailFull
    | some s' =>
      let rest := w.b.members.filter (fun m => moving.contains m && (itemIn (groupAt s' gang m.1) m.2).isSome)
      let pcs := nodup (rest.map (fun m => (itemAt s' gang m.1 m.2).pc))
      let back := pcs.any (fun a => packetOf a.toNat ≤ packetOf pc0.toNat)
      let diverge := 1 < pcs.length || (left && !rest.isEmpty)
      let fell := (plans.filter (fun q => q.2 = .fall)).map Prod.fst
      let stay := rest.filter (fun m => fell.contains m)
      let s' := deliverAll s' w traps
      if !diverge && took && always && !stay.isEmpty then
        -- all continue at one word: a switch point for the items that transferred, and the others run on (R108)
        let gone := rest.filter (fun m => !fell.contains m)
        let s' := updItems (dropRings s' gang gone) gang gone (fun t => { t with sym := false, unchained := false })
        endMember s' w w.b.members stay { chained := false } false
      else endMember s' w w.b.members rest { chained := false } (diverge || (took && (always || back)))

/-- The condition of a transfer for an item (R106, R107). -/
def transfers (s : State) (w : Where) (g p : Nat) (cs : Nat) (neg : Bool) : Bool :=
  cAt (gangAt s w.b.gang).oneD (groupAt s w.b.gang g) cs p != neg

/-- Members after the UNIFORM_ASSERT check of a conditional transfer (R106). -/
def condSift (s : State) (w : Where) (y : Bool) (cs : Nat) : Sifted :=
  let gs := (groupsOf w.b.members).map (fun g => (groupAt s w.b.gang g, inGroup w.b.members g))
  let bad := y && !uniformC gs cs
  sift s w.b.gang (fun _ _ => if bad then some { code := 0x05 } else none) w.b.members

/-- How a span's box goes on after a transfer, or why it pours. -/
inductive SpanGo where
  | at (sp : Span) (switch : Bool)
  | retire
  /-- the whole span pours before the transfer issues (R176) -/
  | pour (sym : Bool)
  /-- the target fails: the transferring box pours, and its items trap (R69, R167) -/
  | fail
  | wait (asid vpn : Nat)

/-- ASID of a span's launch. -/
def spanAsid (s : State) (sp : Span) : Nat := pktAsid (launchAt s sp.launch).pkt

/-- The transfer of a whole span to a code address (R69, R110, R163, R176). -/
def spanTo (s : State) (w : Where) (sp : Span) (call : Bool) (always : Bool) (a : DWord) : SpanGo :=
  let asid := spanAsid s sp
  if call && 16 ≤ sp.stack.length then .pour false
  else match checkTarget s w.core w.b.prog.answers asid sp.level call a with
  | .trap _ => .fail
  | .miss v => .wait asid v
  | .ok =>
    if call then .at { sp with pc := a, stack := sp.stack ++ [returnWord sp.pc] } true
    else .at { sp with pc := a } (always || packetOf a.toNat ≤ packetOf sp.pc.toNat)

/-- The pop of a span's symbolic stack (R112, R176). -/
def spanRet (sp : Span) : SpanGo :=
  match sp.stack.getLast? with
  | none => .pour true
  | some a => if packetStart a.toNat then .at { sp with pc := a, stack := sp.stack.dropLast } true else .fail

/-- A conditional transfer in a span (R109, R163, R166, R167). -/
def spanTransfer (s : State) (w : Where) (i : Nat) (y : Bool) (cs : Nat) (neg : Bool) (len : Nat)
    (go : Span → SpanGo) : State :=
  let sp := spanAt s i
  let fallPc := nextWord sp.pc len
  let off := (fallTrap w sp.pc len).isSome
  let act (g : SpanGo) : State := match g with
    | .at sp' switch => spanEnd (setSpan s i sp') w i false switch
    | .retire => retireSpan (spend s w 1 true) w i
    | .pour sym => pourOrDeal s w i sym
    | .fail => pourOrDeal s w i true
    | .wait a v => stallWalk s w a v
  let fall : State := if off then pourOrDeal s w i true else spanEnd (spanAdvance s i len) w i false false
  match cRep sp.c cs with
  | .const b => if b != neg then act (go sp) else fall
  | .body _ => pourOrDeal s w i y
  | .pred p =>
    if y then pourOrDeal s w i true
    else
      match splitBox p neg sp.box with
      | none => pourOrDeal s w i false
      | some pieces =>
        if pieces.all (fun q => q.2) then act (go sp)
        else if pieces.all (fun q => !q.2) then fall
        else if (coreAt s sp.core).spansFree < pieces.length - 1 then pourOrDeal s w i false
        else match go sp, off with
          | .wait a v, _ => stallWalk s w a v
          | .pour sym, _ => pourOrDeal s w i sym
          | .fail, true => pourOrDeal s w i true
          | _, _ => splitSpan s w i pieces (fun q => if off then .pours else .span { q with pc := fallPc }) (fun q =>
              match go q with
              | .at q' _ => .span q'
              | .retire => .ends
              | _ => .pours)

/-- `bra` and `brl` (R107, R108). -/
def branch (s : State) (y : Bool) (cs : Nat) (neg : Bool) (off : Int) (len : Nat) (call : Bool) : State :=
  match issuing s with
  | none => s
  | some w =>
    match w.b.span with
    | some i =>
      spanTransfer s w i y cs neg len (fun sp => spanTo s w sp call call (packetWord (branchTarget sp.pc off)))
    | none =>
      transferStep s w len call (condSift s w y cs) (fun g p =>
        if transfers s w g p cs neg then
          gotoTarget s w g p call (packetWord (branchTarget (itemAt s w.b.gang g p).pc off))
        else .fall)

/-- The operand of `calli` and `jmpi` (R110, R114). -/
def jumpUses (o : JumpOp) : Uses := { named := [(o.a, 2)], read := [(o.a, 2)], ext := o.ext }

/-- `calli` and `jmpi` (R110, R114). -/
def jump (o : JumpOp) (call : Bool) (s : State) : State :=
  match issuing s with
  | none => s
  | some w =>
    let src : Src := { f := o.a, wide := true }
    match w.b.span with
    | some i =>
      let sp := spanAt s i
      if spanTrap sp (jumpUses o) then pourOrDeal s w i true
      else if spanPoison sp (jumpUses o) then pourOrDeal s w i false
      else
        match formOf sp.v sp.s sp.ring none src o.ext with
        | some (.const a) =>
          (match spanTo s w sp call true a with
            | .at sp' switch => spanEnd (setSpan s i sp') w i false switch
            | .retire => s
            | .pour sym => pourOrDeal s w i sym
            | .fail => pourOrDeal s w i true
            | .wait a v => stallWalk s w a v)
        | _ => pourOrDeal s w i o.y
    | none =>
      let gang := w.b.gang
      let oneD := (gangAt s gang).oneD
      let ms := w.b.members
      if awaitsLoad s gang ms (jumpUses o) then stallOn s w .loads
      else
        let s := meetErrors s w ms (jumpUses o)
        let gs := (groupsOf ms).map (fun g => (groupAt s gang g, inGroup ms g))
        let uni := uniformSrc oneD gs o.ext src
        let k := sift s gang (fun g p =>
          let x := groupAt s gang g
          (earlyTrap x p (jumpUses o)).or (if o.y && !uni then some { code := 0x05 } else useTrap x p (jumpUses o))) ms
        let touch := (groupsOf k.go).flatMap (fun g =>
          (bodyRegs (groupAt s gang g) (jumpUses o).read).map (fun r => (g, r)))
        let miss := missingBanks s w touch
        if !miss.isEmpty then stallBanks (usedBanks s w touch) w miss
        else transferStep (usedBanks s w touch) w (lenX o.x) true k (fun g p =>
          gotoTarget s w g p call (srcAt oneD (groupAt s gang g) p o.ext src))

/-- `ret` (R112, R113). -/
def retStep (o : CondOp) (s : State) : State :=
  match issuing s with
  | none => s
  | some w =>
    match w.b.span with
    | some i => spanTransfer s w i o.y o.cs.toNat o.neg 1 spanRet
    | none => transferStep s w 1 true (condSift s w o.y o.cs.toNat) (fun g p =>
        if transfers s w g p o.cs.toNat o.neg then popCheck s w g p else .fall)

/-- `exit` (R116). A step that would issue a matrix operation for which there is no place stalls (R243, R249). -/
def exitStep (o : CondOp) (s : State) : State :=
  match issuing s with
  | none => s
  | some w =>
    let (s', gang) : State × Option Nat := match w.b.span with
      | some i => (spanTransfer s w i o.y o.cs.toNat o.neg 1 (fun _ => .retire), (spanAt s i).gang)
      | none => (transferStep s w 1 false (condSift s w o.y o.cs.toNat) (fun g p =>
          if transfers s w g p o.cs.toNat o.neg then .leave else .fall), some w.b.gang)
    match gang.bind (stallFull s s') with
    | some u => stallOn s w (.place u)
    | none => s'

/-- Every member of the bundle acts. -/
def allGo (w : Where) : Sifted := { go := w.b.members, traps := [], zero := [] }

/-- `join` (R115, R170). -/
def joinStep (s : State) : State :=
  match issuing s with
  | none => s
  | some w =>
    match w.b.span with
    | none => conclude s w (allGo w) 120 0 1 { chained := false } true
    | some i =>
      let s := spanAdvance s i 1
      let sp := spanAt s i
      let s := setSpan s i { sp with held := true, ring := [], atSwitch := true }
      let s := dropBundle (spend s w 1 true) w
      releaseHeld s w (spanAt s i)

/-- `yield` (R115, R146, R148): the ring goes first, and its items become the youngest of their lane. -/
def yieldStep (o : NullOp) (s : State) : State :=
  match issuing s with
  | none => s
  | some w =>
    match w.b.span with
    | none =>
      let s := dropRings s w.b.gang w.b.members
      let s := updBundle s w (fun b => { b with pend := 2 })
      conclude s { w with b := { w.b with pend := 2 } } (allGo w) 120 0 1 { chained := o.c } true
    | some i =>
      let s := spanEnd (spanAdvance s i 1) w i false true
      let sp := spanAt s i
      if (tfind s.spans i).isSome then setSpan s i { sp with readyAt := (laneAt s w.core w.lane).busy } else s

/-- `nop` (R115, R145): it costs nothing. -/
def nopStep (o : NullOp) (s : State) : State :=
  match issuing s with
  | none => s
  | some w =>
    match w.b.span with
    | some i =>
      let s := spanAdvance s i 1
      if o.c || w.b.cidx ≠ 0 then spanEnd s w i o.c false
      else updBundle s w (fun b => { b with stall := none, prog := {}, fresh := false })
    | none =>
      let s := advance s w.b.gang w.b.members 1
      if o.c || w.b.cidx ≠ 0 then endMember s w w.b.members w.b.members { chained := o.c, sym := true } false
      else updBundle s w (fun b => { b with stall := none, prog := {}, fresh := false })

/-- `trap` (R117): SW_TRAP for each real item, its resume point the word that follows; helpers skip it. In the last word of
a line with L = 1 R117's resume point and R69's TARGET both apply: SW_TRAP alone is raised, with the next line's first
payload word as resume point (DESIGN CHOICE, log entry 27). -/
def trapStep (o : TrapOp) (s : State) : State :=
  match issuing s with
  | none => s
  | some w =>
    match w.b.span with
    | some i => pourOrDeal s w i true
    | none =>
      let k := sift s w.b.gang (fun g p =>
        some { code := 0x16, sub := o.imm.toNat, pc := nextWord (itemAt s w.b.gang g p).pc 1 }) w.b.members
      -- a helper that skips the last word of a line with L = 1 has no next instruction (R20)
      if w.b.members.any (fun (g, p) => (fallTrap w (itemAt s w.b.gang g p).pc 1).isSome) then runOff s w k
      else conclude s w k 120 0 1 { chained := o.c } false

/-- `pour` (R179): no effect for items. -/
def pourStep (o : NullOp) (s : State) : State :=
  match issuing s with
  | none => s
  | some w =>
    match w.b.span with
    | some i => pourOrDeal s w i false
    | none => conclude s w (allGo w) 120 0 1 { chained := o.c } false

/-- BRA (R107). -/
def execBra (o : BrOp) (s : State) : Out := .next (branch s o.y o.cs.toNat o.neg o.off.toInt 1 false)
/-- BRL (R107). -/
def execBrl (o : BrlOp) (s : State) : Out := .next (branch s o.y o.cs.toNat o.neg o.off.toInt 2 false)
/-- CALL (R110). -/
def execCall (o : BrOp) (s : State) : Out := .next (branch s o.y o.cs.toNat o.neg o.off.toInt 1 true)
/-- CALLI (R110). -/
def execCalli (o : JumpOp) (s : State) : Out := .next (jump o true s)
/-- RET (R112). -/
def execRet (o : CondOp) (s : State) : Out := .next (retStep o s)
/-- JMPI (R114). -/
def execJmpi (o : JumpOp) (s : State) : Out := .next (jump o false s)
/-- JOIN (R115). -/
def execJoin (_ : NullOp) (s : State) : Out := .next (joinStep s)
/-- EXIT (R116). -/
def execExit (o : CondOp) (s : State) : Out := .next (exitStep o s)
/-- YIELD (R115). -/
def execYield (o : NullOp) (s : State) : Out := .next (yieldStep o s)
/-- NOP (R115). -/
def execNop (o : NullOp) (s : State) : Out := .next (nopStep o s)
/-- TRAP (R117). -/
def execTrap (o : TrapOp) (s : State) : Out := .next (trapStep o s)
/-- POUR (R179). -/
def execPour (o : NullOp) (s : State) : Out := .next (pourStep o s)

end Sys2Proof.Machine
end

