-- ==== Sys2Proof/Machine/Order.lean ====
section
/-!
DEFINITION. Releases and acquires (R226 to R228, R320, R339): what a release waits for, what an acquire waits for, and what
ends a stall of an issuing bundle.
-/
namespace Sys2Proof.Machine

/-- Dies whose unpublished atomic results a release of a core for an ASID must wait for, with the unit's tick (R339). -/
def atomicMarks (s : State) (core asid : Nat) : List (Nat × Nat) :=
  ((coreAt s core).atomics.filter (fun a => a.asid = asid)).map (fun a => (a.die, a.mark))

/-- Remote copies of a gang that still have packets to send or to be answered (R226 system scope). -/
def remoteCopies (s : State) (gang : Nat) : List Nat :=
  (s.copies.filter (fun c => c.2.gang = gang && !c.2.stopped && (match c.2.src, c.2.dst with
    | .peerLog _, _ => true
    | .peerSpad _, _ => true
    | _, .peerLog _ => true
    | _, .peerSpad _ => true
    | _, _ => false))).map Prod.fst

/-- A release of a scope made now by items of a gang on a core (R226, R320). -/
def makeRelease (s : State) (core gang asid scope : Nat) : Release :=
  let wid := clusterOf core
  { scope, asid, wid, mark := (writerAt s wid).tick, gang
    copies := if 5 ≤ scope then remoteCopies s gang else []
    atomics := if 3 ≤ scope then atomicMarks s core asid else [] }

/-- A remote store, fill or copy of a gang that its peer has not acknowledged (R226 system scope). -/
def remoteOpen (s : State) (gang : Nat) : Bool :=
  s.fabric.sent.any (fun p => match p.who with
    | .fill g _ _ => g = gang
    | .copy c => (tfind s.copies c).any (fun k => k.gang = gang)
    | _ => false)

/-- A fill of a gang's items that a release of a scope waits for is not performed yet (R221, R226). -/
def fillsOpen (s : State) (gang scope : Nat) : Bool :=
  s.fillq.any (fun f => f.item.any (fun i => i.1 = gang) && (match f.target with
    | .gang _ => true
    | .spad _ _ => 2 ≤ scope
    | .remote _ _ _ => 5 ≤ scope))

/-- The conditions of a release hold (R226, R320, R339). -/
def released (s : State) (r : Release) : Bool :=
  !fillsOpen s r.gang r.scope && (r.scope ≤ 2 || (!unpublished s r.wid r.asid r.mark r.scope &&
    r.atomics.all (fun (d, m) => !unpublished s (32 + d) r.asid m r.scope) &&
    (r.scope < 5 || (!remoteOpen s r.gang && !(remoteCopies s r.gang).any (r.copies.contains ·)))))

/-- A release begins, or joins, the publications it needs (R311, R320, R339). -/
def pushAllRelease (s : State) (r : Release) : State :=
  if r.scope ≤ 2 then s
  else r.atomics.foldl (fun s (d, m) => pushRelease s (32 + d) r.asid m) (pushRelease s r.wid r.asid r.mark)

/-- An acquire of a scope by a core (R226, R320): the L1 lines go, and what to wait for is answered: for each
ASID the core's SEEN on its own die, and every message that has reached its die or every working die. A mark names 4·ASID + die and a sequence number. -/
def makeAcquire (s : State) (core scope : Nat) : State × List (Nat × Nat) :=
  if scope ≤ 1 then (s, [])
  else
    let die := dieOf core
    let s1 := flushL1 s core
    let arrived (d : Nat) : List (Nat × Nat) :=
      let inbox := (dieAt s d).inbox
      (nodup (inbox.map (fun m => m.asid))).map (fun a =>
        (4 * a + d, (inbox.filter (fun m => m.asid = a)).foldl (fun n m => max n m.seq) 0))
    let own := (coreAt s core).seen.map (fun e => (4 * e.1 + die, e.2))
    let marks := if scope = 2 then own else if scope = 3 then own ++ arrived die
      else own ++ (workingDies s).flatMap arrived
    (s1, marks.filter (fun m => appliedOf s (m.1 % 4) (m.1 / 4) < m.2))

/-- The sequences an acquire waits for have been applied (R226, R317, R320). -/
def acquired (s : State) (marks : List (Nat × Nat)) : Bool :=
  marks.all (fun m => decide (m.2 ≤ appliedOf s (m.1 % 4) (m.1 / 4)))

/-- Records that a die's reorder unit holds (R361): those of its bins, and those of flushed gangs that wait for placement. -/
def reorderCount (s : State) (die : Nat) : Nat :=
  ((dieAt s die).bins.map (fun b => b.recs.length)).foldl (· + ·) 0 +
    (s.gangs.map (fun g => match g.2.relaunch with
      | some r => if g.2.die = die && g.2.phase = .waiting then r.n else 0
      | none => 0)).foldl (· + ·) 0

/-- The scratchpad allocation of a launch's cohort on a die (R340). -/
def spadOf (s : State) (die launch : Nat) : Option Spad := (dieAt s die).spads.find? (fun p => p.launch = launch)

/-- A scratchpad line is present (R341). -/
def linePresent (p : Spad) (off : Nat) : Bool := !p.absent.contains (off / 128)

/-- A stall that the lane itself finds ended; the others are ended by their events (R143, R227, R289, R361). -/
def stallOver (s : State) (gang : Nat) (st : Stall) : Bool :=
  match st with
  | .tailFull => decide ((writerAt s (clusterOf (gangAt s gang).core)).tail.length < 65536)
  | .release r => released s r
  | .acquire marks => acquired s marks
  | .reorder n => reorderCount s (gangAt s gang).die + n ≤ 131072
  | .tableLine off _ =>
    match spadOf s (gangAt s gang).die (gangAt s gang).launch with
    | some p => linePresent p off
    | none => true
  | .evwait _ fn marks => marks.all (fun m => decide ((tget (fnAt s fn).ev m.1 0 - m.2).toNat < 2 ^ 31))
  | .place u => !unitFull s (gangAt s gang).core u
  | .ops u ids => match unitQueue s (gangAt s gang).core u with
    | o :: r => ids.contains o.id || !r.any (fun o => ids.contains o.id)
    | [] => true
  | _ => false

/-- The publication can begin: no stack lacks a segment for the writer (R320, R372). -/
def canPush (s : State) (wid asid mark : Nat) : Bool :=
  !s.stks.any (fun k => k.2.starved.contains wid) && hasCut s wid asid mark

/-- A stalled release begins another publication when it can (R320). -/
def stallPush (s : State) (st : Stall) : Option State :=
  match st with
  | .release r =>
    if 3 ≤ r.scope && (canPush s r.wid r.asid r.mark || r.atomics.any (fun (d, m) => canPush s (32 + d) r.asid m))
    then some (pushAllRelease s r) else none
  | _ => none

end Sys2Proof.Machine
end

