-- ==== Sys2Proof/Machine/Issue.lean ====
section
/-!
DEFINITION. A lane's turn: working sets (R141, R142), forming and choosing bundles (R147 to R149), fetching, the checks at a
line and at a chain's head (R65, R70, R83), and the decoded instruction that issues.
-/
namespace Sys2Proof.Machine

/-- What a lane's turn comes to. -/
inductive LaneAct where
  /-- nothing can issue -/
  | idle
  /-- the turn is spent without an instruction: a trap, a stall, a switch point -/
  | state (s : State)
  /-- an instruction issues at the cursor -/
  | run (i : Instr) (s : State)

/-- An item that may be chosen: gang, group, position, with its group's residence. -/
structure Cand where
  gang : Nat
  g : Nat
  p : Nat
  res : Nat
  t : Item
  deriving DecidableEq, Repr

/-- Order of candidates: ready time, items before spans, residence, position (R148). -/
def candKey (c : Cand) : Nat := (c.t.readyAt * 2) * 2 ^ 200 + c.res * 32 + c.p
/-- Order of span candidates (R148). -/
def spanKey (sp : Span) : Nat := (sp.readyAt * 2 + 1) * 2 ^ 200 + originKey sp.box
/-- Issue order inside a bundle (R145). -/
def issueKey (c : Cand) : Nat := c.res * 32 + c.p

/-- An item that does not wait, or whose wait has ended (R148). -/
def canIssue : Wait → Bool
  | .ready => true
  | .released _ => true
  | .barrierDone => true
  | .granted _ => true
  | _ => false

/-- Ready items of a lane (R148, R174). -/
def readyItems (s : State) (core lane : Nat) : List Cand :=
  let l := laneAt s core lane
  l.res.flatMap (fun (r, gang, g) =>
    match tfind s.gangs gang with
    | none => []
    | some k =>
      if k.phase ≠ .resident || !acquired s k.marks then [] else
      match tfind k.groups g with
      | none => []
      | some x => x.items.filterMap (fun (p, t) =>
          if canIssue t.wait && t.readyAt ≤ s.now && !l.setup.any (fun q => q.1 = gang && q.2.1 = g && q.2.2 ≤ t.readyAt)
          then some { gang, g, p, res := r, t } else none))

/-- Ready spans of a lane (R158, R161, R170). -/
def readySpans (s : State) (core lane : Nat) : List (Nat × Span) :=
  s.spans.filter (fun (_, sp) => sp.core = core && sp.lane = lane && !sp.held && !sp.noRec && sp.readyAt ≤ s.now &&
    (match sp.gang with
      | none => acquired s (launchAt s sp.launch).marks
      | some g => (gangAt s g).phase = .resident && acquired s (gangAt s g).marks))

/-- Banks of a working set that a group needs and its slot lacks (R68, R142). -/
def lackingOf (s : State) (core lane ws : Nat) (c : Cand) : List Nat :=
  if ws = 0 then [] else
  let x := groupAt s c.gang c.g
  let here := ((slotOf (laneAt s core lane) c.gang c.g).map (fun q => q.2.banks)).getD []
  (upTo 0 14).filter (fun j => bit ws j && (j < 4 || c.t.ext) && !here.contains j &&
    (upTo (8 * j) 8).any (fun r => match vRep x r with
      | .body _ => true
      | _ => false))

/-- Banks of the working set of the line at a candidate's program counter that its group lacks (R68, R142). Where the line's
page must be walked first, the bundle waits for the walk and is judged when it enters the line. -/
def lacking (s : State) (core lane : Nat) (c : Cand) : List Nat :=
  match fetchAt s core [] (gangAt s c.gang).asid c.t.level (c.t.pc.toNat / 128 * 128) 8 with
  | .ok l => lackingOf s core lane (hdrWS (headerOf l)) c
  | _ => []

/-- Candidates split by whether their working sets are present; a release set is late as a whole when one member's is not
(R142, R184). -/
def byPresence (s : State) (core lane : Nat) (cs : List Cand) : List Cand × List Cand :=
  let lacks := cs.filter (fun c => !(lacking s core lane c).isEmpty)
  let late (c : Cand) : Bool := lacks.any (fun d =>
    d.gang = c.gang && ((d.g, d.p) = (c.g, c.p) || (d.t.wait = c.t.wait && match c.t.wait with
      | .released _ => true
      | _ => false)))
  cs.partition (fun c => !late c)

/-- Candidates that the members of a bundle are. -/
def candsOf (s : State) (gang : Nat) (ms : List (Nat × Nat)) : List Cand :=
  ms.map (fun (g, p) => { gang, g, p, res := (groupAt s gang g).res, t := itemAt s gang g p })

/-- A lane whose slot for a group exists: its own, a free one, or the one whose group issued least recently (R141, R142). -/
def withSlot (l : Lane) (gang g now : Nat) : Lane :=
  match slotOf l gang g with
  | some _ => l
  | none =>
    match l.slots with
    | [a, b] =>
      let new : Slot := { group := some (gang, g), banks := [], last := now }
      if a.group.isNone then { l with slots := [new, b] }
      else if b.group.isNone then { l with slots := [a, new] }
      else if a.last ≤ b.last then { l with slots := [new, b] } else { l with slots := [a, new] }
    | _ => l

/-- A bank brought into a group's slot: the least recently used of four is given up (R141, R143). -/
def bringBank (l : Lane) (gang g bank now : Nat) : Lane :=
  let l := withSlot l gang g now
  { l with slots := l.slots.map (fun sl =>
      if sl.group = some (gang, g) then { sl with banks := (bank :: sl.banks.filter (· ≠ bank)).take 4 } else sl) }

/-- The bundle that a seed makes: items of its gang at its program counter in order, at most 32 and of two groups
(R144, R148); a release set is taken whole or passed over whole (R184). `fuel` bounds the candidates. -/
def takeBundle : Nat → Nat → List Nat → List Cand → List Cand
  | 0, _, _, _ => []
  | _, _, _, [] => []
  | fuel + 1, n, gs, c :: r =>
    match c.t.wait with
    | .released k =>
      let set := c :: r.filter (fun d => d.t.wait = .released k)
      let rest := r.filter (fun d => d.t.wait ≠ .released k)
      let gs' := nodup (set.map Cand.g ++ gs)
      if n < set.length || 2 < gs'.length then takeBundle fuel n gs rest
      else set ++ takeBundle fuel (n - set.length) gs' rest
    | _ =>
      if n = 0 then []
      else if gs.contains c.g then c :: takeBundle fuel (n - 1) gs r
      else if gs.length < 2 then c :: takeBundle fuel (n - 1) (c.g :: gs) r
      else []

/-- The bundle of a seed among candidates. -/
def bundleOf (seed : Cand) (cs : List Cand) : List Cand :=
  let here := sortBy candKey (cs.filter (fun c => c.gang = seed.gang && c.t.pc = seed.t.pc))
  takeBundle here.length 32 [] here

/-- The seed that R148 takes among candidates: the oldest with a pass count of four, or the oldest. -/
def seedOf (cs : List Cand) : Option Cand :=
  let passed := cs.filter (fun c => 4 ≤ c.t.pass)
  leastBy candKey (if passed.isEmpty then cs else passed)

/-- A fetch of banks begun, if there are any and the lane fetches none: 32 + 8·n clk (R142). -/
def fetchBanks (s : State) (core lane : Nat) (need : List (Nat × Nat × Nat)) : State :=
  let l := laneAt s core lane
  if l.fetch.isSome || need.isEmpty then s
  else setLane s core lane { l with fetch := some (s.now + (32 + 8 * need.length), need) }

/-- The banks that a bundle's groups lack, given what each member lacks. -/
def needOf (b : List Cand) (lack : Cand → List Nat) : List (Nat × Nat × Nat) :=
  nodup (b.flatMap (fun c => (lack c).map (fun j => (c.gang, c.g, j))))

/-- The fetch of the working set of the bundle that would be selected among candidates whose sets are not present (R142). -/
def beginFetch (s : State) (core lane : Nat) (late : List Cand) : State :=
  match seedOf late with
  | none => s
  | some seed => fetchBanks s core lane (needOf (bundleOf seed late) (lacking s core lane))

/-- While a bundle issues, the lane begins to fetch for the one it will select next (R142): none when it has nothing to
fetch, or fetches already. -/
def prefetch (s : State) (core lane : Nat) : Option State :=
  let l := laneAt s core lane
  match l.bundle with
  | none => none
  | some b =>
    if l.fetch.isSome || !l.resumes.isEmpty then none
    else
      let late := (byPresence s core lane ((readyItems s core lane).filter (fun c =>
        !(b.span.isNone && c.gang = b.gang && b.members.contains (c.g, c.p))))).2
      if late.isEmpty then none else some (beginFetch s core lane late)

/-- Items with their pass counts reset (R148, R149). -/
def resetPass (s : State) (cs : List Cand) : State :=
  cs.foldl (fun s c => updItem s c.gang c.g c.p (fun t => { t with pass := 0 })) s

/-- What issues next is another bundle or span than what issued last (R156 SWITCH). -/
def changes (l : Lane) (gang : Nat) (ms : List (Nat × Nat)) : Bool :=
  match l.prev with
  | some (k, old) => !(k = gang && ((ms.isEmpty && old.isEmpty) || ms.any (old.contains ·)))
  | none => false

/-- The lane forms its next bundle (R148): none when nothing can issue. Bundles that `rett` resumed come first, each with its
working set present (R81, R270). -/
def formBundle (s : State) (core lane : Nat) : Option State :=
  let l := laneAt s core lane
  match l.resumes with
  | (gang, ms) :: rest =>
    let live := ms.filter (fun m => canIssue (itemAt s gang m.1 m.2).wait && (itemIn (groupAt s gang m.1) m.2).isSome)
    let l := { l with resumes := rest }
    let cs := candsOf s gang live
    let need := needOf cs (lacking s core lane)
    if live.isEmpty then some (setLane s core lane l)
    else if !need.isEmpty then (if l.fetch.isSome then none else some (fetchBanks s core lane need))
    else some (setLane s core lane { l with bundle := some { gang, members := live, fresh := false } })
  | [] =>
    let items := readyItems s core lane
    let spans := readySpans s core lane
    let (cs, late) := byPresence s core lane items
    let passed := cs.filter (fun c => 4 ≤ c.t.pass)
    let seed := seedOf cs
    let span := leastBy (fun (q : Nat × Span) => spanKey q.2) spans
    let useSpan := match seed, span with
      | none, some _ => true
      | some c, some q => passed.isEmpty && decide (spanKey q.2 < candKey c)
      | _, none => false
    let chosen : Option State :=
      if useSpan then span.map (fun (i, sp) =>
        let s := if changes l i [] then count s core 0x03 1 else s
        setLane s core lane { l with
          bundle := some { gang := sp.gang.getD 0, span := some i, members := [] }, prev := some (i, []) })
      else seed.map (fun c =>
        let b := bundleOf c cs
        let ms := (sortBy issueKey b).map (fun c => (c.g, c.p))
        let s := if changes l c.gang ms then count s core 0x03 1 else s
        let s := if passed.isEmpty then s else count s core 0x07 1
        let s := resetPass s b
        let l := touchSlots (laneAt s core lane) c.gang (b.map Cand.g) s.now
        setLane s core lane { l with bundle := some { gang := c.gang, members := ms }, prev := some (c.gang, ms) })
    match chosen with
    | some s => some (if late.isEmpty then s else beginFetch s core lane late)
    | none => if late.isEmpty || l.fetch.isSome then none else some (beginFetch s core lane late)

/-- Where a cause of a whole bundle arises: at a line, which no instruction of it then issues (R65, R69); at a chain's head,
none of whose members issues (R70); or at the instruction itself (R82). -/
inductive Stage where
  | line
  | head
  | word (chained : Bool)
  deriving DecidableEq, Repr

/-- A cause for every item of the bundle: real items take it; helpers retire where no instruction stands, and otherwise
receive zero in the destinations of `i` and go on `len` words further (R20). Only a word that issues costs a step (R145). -/
def trapAll (s : State) (w : Where) (t : Trap) (at' : Stage) (i : Option Instr) (len : Nat) : State :=
  let gang := w.b.gang
  let k := sift s gang (fun _ _ => some t) w.b.members
  match at' with
  | .line => dropBundle (k.zero.foldl (fun s (g, p) => endItem s gang g p) (deliverAll s w k.traps)) w
  | .head =>
    let s := match i with
      | some i => zeroDests s gang i k.zero
      | none => s
    let s := deliverAll (advance s gang k.zero len) w k.traps
    let s := updItems s gang k.zero (fun t => { t with sym := false, unchained := false })
    if k.zero.isEmpty then dropBundle s w
    else updBundle s w (fun b => { b with members := k.zero, stall := none, prog := {}, fresh := false })
  | .word chained =>
    let s := match i with
      | some i => zeroDests s gang i k.zero
      | none => s
    conclude s w k 120 0 len { chained } false

/-- A cause for whatever issues: a span pours, the items take it (R83, R84). -/
def trapIssue (s : State) (w : Where) (t : Trap) (at' : Stage) (i : Option Instr) (len : Nat) : State :=
  match w.b.span with
  | some n => pourOrDeal s w n true
  | none => trapAll s w t at' i len

/-- Program counter, address space and level of what issues. -/
def issuePoint (s : State) (w : Where) : DWord × Nat × Level :=
  match w.b.span with
  | some i =>
    let sp := spanAt s i
    (sp.pc, spanAsid s sp, sp.level)
  | none =>
    match w.b.members with
    | (g, p) :: _ =>
      let t := itemAt s w.b.gang g p
      (t.pc, (gangAt s w.b.gang).asid, t.level)
    | [] => (0, 0, .user)

/-- Headers of the seven lines below a line, nearest first; a page to walk if one must be translated (R65). -/
def headersBelow (s : State) (core : Nat) (ans : List (Nat × Nat × WalkAnswer)) (asid : Nat) (level : Level) (line : Nat) :
    List Nat → Except Nat (List (Option Nat))
  | [] => .ok []
  | k :: r =>
    if line < 128 * k then .ok []
    else
      match fetchAt s core ans asid level (line - 128 * k) 8 with
      | .miss v => .error v
      | f =>
        let h : Option Nat := match f with
          | .ok l => some (headerOf l)
          | _ => none
        match headersBelow s core ans asid level line r with
        | .error v => .error v
        | .ok hs => .ok (h :: hs)

/-- The pass counts of the other ready items of the bundle's gang rise when the lane begins an interval (R149, R158). -/
def beginInterval (s : State) (w : Where) : State :=
  (readyItems s w.core w.lane).foldl (fun s c =>
    if c.gang = w.b.gang && !w.b.members.contains (c.g, c.p) then
      updItem s c.gang c.g c.p (fun t => { t with pass := t.pass + 1 })
    else s) s

/-- Instructions that go past their own word by themselves, or never do (R69, R117). -/
def leavesWord : Instr → Bool
  | .bra _ | .brl _ | .call _ | .calli _ | .ret _ | .jmpi _ | .exit _ | .trap _ | .reord _ | .rett _ => true
  | _ => false

/-- What a span decides at a chain's head (R164): it issues, it pours, or a page must be walked first. -/
inductive ChainFate where
  | go
  | pour (sym : Bool)
  | walk (pages : List (Nat × Nat))

/-- Instructions that read no operand before they issue: issue past a last line is their only cause (R69, R83). -/
def plainWord : Instr → Bool
  | .join _ | .yield _ | .nop _ | .pour _ | .fence _ | .cwait _ => true
  | _ => false

/-- Where issue past a last line would go, for an instruction that does not leave its word by itself (R69). -/
def runsOn (w : Where) (pc : DWord) (i : Instr) (len : Nat) : Option DWord :=
  if leavesWord i then none else (fallTrap w pc len).map Trap.addr

/-- Whether a chain of `n` members pours a span at its head (R84, R160, R163, R164): the members are tried in turn on copies of
the state, with the walk answers at hand, one that would wait taken as done; the answer says whether a cause provokes the
pour. `pours` counts those before. -/
def chainPours (exec : Instr → State → Host.Outcome State Fault Refusal) (w : Where) (span pours : Nat) :
    Nat → DWord → List Word → State → ChainFate
  | 0, _, _, _ => .go
  | n + 1, pc, ws, s =>
    match decodeWords ws with
    | none => .pour true
    | some (i, r) =>
      let len := wordCount (nth ws 0 0)
      if !Machine.legal i || (runsOn w pc i len).isSome then .pour true
      else
        let prog : Progress := { answers := w.b.prog.answers }
        match exec i (updBundle s w (fun b => { b with prog })) with
        | .next s =>
          let l := laneAt s w.core w.lane
          if l.pours ≠ pours then .pour l.pourSym
          else
            match l.bundle with
            | none => .go
            | some b =>
              match b.stall with
              | some (.walk pages) => .walk pages
              | some _ =>
                chainPours exec w span pours n (nextWord pc len) r
                  (updBundle (spanAdvance s span len) w (fun b => { b with stall := none, cidx := b.cidx + 1 }))
              | none => chainPours exec w span pours n (nextWord pc len) r s
        | _ => .go

/-- The instruction at the issue point decoded and checked: ILLEGAL_WORD, a span's decision at the chain's head, the beginning
of an interval, then the instruction, which raises TARGET for issue past a last line after its own checks (R69, R82, R83,
R149, R164). -/
def issueWord (exec : Instr → State → Host.Outcome State Fault Refusal) (s : State) (w : Where) (pc : DWord)
    (words : List Word) (head first : Bool) : LaneAct :=
  let word := nth words 0 0
  let len := wordCount word
  match decodeWords words with
  | none => .state (trapIssue s w { code := 0x01 } (.word (fC word)) none len)
  | some (i, _) =>
    if !Machine.legal i then .state (trapIssue s w { code := 0x01 } (.word (fC word)) (some i) len)
    else
      let past := runsOn w pc i len
      let begins (s : State) : State :=
        let s := if first && !w.b.prog.opened then beginInterval s w else s
        { updBundle s w (fun b => { b with prog := { b.prog with opened := first, past } }) with cursor := some (w.core, w.lane) }
      match w.b.span, past with
      | some k, some _ => .state (pourOrDeal s w k true)
      | some k, none =>
        let chain := chainWords 3 (words.take ((30 - (pc.toNat % 128 - 8) / 4 - 1) % 3 + 1))
        (match (if head then chainPours exec w k (laneAt s w.core w.lane).pours chain.1.length pc words
            { s with cursor := some (w.core, w.lane) } else .go) with
          | .pour sym => .state (pourOrDeal s w k sym)
          | .walk pages => .state (pages.foldl (fun s (a, v) => match issuing s with
              | some w => stallWalk s w a v
              | none => s) { s with cursor := some (w.core, w.lane) })
          | .go => .run i (begins s))
      | none, some a =>
        if plainWord i then .state (runOff s w (sift s w.b.gang (fun _ _ => some (targetTrap a)) w.b.members)) else .run i (begins s)
      | none, none => .run i (begins s)

/-- A bundle that enters its first line and lacks a bank of the line's working set gives way: it is formed again when the bank
is there (R81, R142). A resumed bundle stays the lane's next. -/
def awaitSet (s : State) (w : Where) : State :=
  let s := dropBundle s w
  if w.b.fresh then s
  else
    let l := laneAt s w.core w.lane
    setLane s w.core w.lane { l with resumes := (w.b.gang, w.b.members) :: l.resumes }

/-- The line and chain checks at the issue point, then its instruction (R65, R68, R70, R83). -/
def issueLine (exec : Instr → State → Host.Outcome State Fault Refusal) (s : State) (w : Where) : LaneAct :=
  let (pc, asid, level) := issuePoint s w
  let ans := w.b.prog.answers
  let n := pc.toNat
  let base := n / 128 * 128
  match fetchAt s w.core ans asid level base 128 with
  | .miss v => .state (stallWalk s w asid v)
  | .fault t => .state (trapIssue s w t .line none 0)
  | .ok line =>
    let h := headerOf line
    let new := w.b.line ≠ some (BitVec.ofNat 64 base)
    let need := if w.b.line.isNone && w.b.span.isNone then
        needOf (candsOf s w.b.gang w.b.members) (lackingOf s w.core w.lane (hdrWS h)) else []
    if !need.isEmpty then .state (fetchBanks (awaitSet s w) w.core w.lane need)
    else match (if new && !hdrI h then headersBelow s w.core ans asid level base (upTo 1 7) else .ok []) with
    | .error v => .state (stallWalk s w asid v)
    | .ok below =>
      if new && !lineOk line below then
        .state (trapIssue s w { code := 0x02, addr := BitVec.ofNat 64 base } .line none 0)
      else
        let first := hdrI h && n % 128 = 8 && w.b.cidx = 0
        if first && !w.b.fresh && !w.b.prog.opened then
          -- a switch point before the instruction issues (R68, R146)
          match w.b.span with
          | some i =>
            let sp := spanAt s i
            .state (testRejoin (dropBundle (setSpan s i { sp with ring := [], atSwitch := true }) w) w i)
          | none => .state (dropBundle (dropRings s w.b.gang w.b.members) w)
        else
          let s := if first && !w.b.prog.opened then dropRings s w.b.gang w.b.members else s
          let b := { w.b with line := some (BitVec.ofNat 64 base), lbit := hdrL h }
          let w := { w with b }
          let s := updBundle s w (fun _ => b)
          let words := (payload line).drop ((n % 128 - 8) / 4)
          let left := (30 - (n % 128 - 8) / 4 - 1) % 3 + 1
          let alone := w.b.members.any (fun (g, p) => (itemAt s w.b.gang g p).unchained)
          let head := w.b.cidx = 0 || alone
          let chain := chainWords 3 (words.take left)
          if head && (chain.2 || !chainOk chain.1) then
            .state (trapIssue s w { code := 0x03 } .head ((decodeWords words).map Prod.fst) (wordCount (nth words 0 0)))
          else issueWord exec s w pc words head first

/-- A lane's turn. -/
def laneAct (exec : Instr → State → Host.Outcome State Fault Refusal) (s : State) (core lane : Nat) : LaneAct :=
  let go (s : State) : LaneAct :=
    match (laneAt s core lane).bundle with
    | none => .state s
    | some b => issueLine exec s { core, lane, b }
  let l := laneAt s core lane
  let rests : LaneAct := match prefetch s core lane with
    | some s => .state s
    | none => .idle
  if s.now < l.busy then rests
  else
    match l.bundle with
    | none =>
      match formBundle s core lane with
      | none => .idle
      | some s => go s
    | some b =>
      let w : Where := { core, lane, b }
      let stopped := b.span.isNone && (gangAt s b.gang).phase ≠ .resident
      if b.span.isNone && b.members.isEmpty then .state (dropBundle s w)
      else if stopped && b.fresh && b.stall.isNone then .state (dropBundle s w)
      else
        match b.stall with
        | none => go s
        | some st =>
          -- a fence of a contained gang completes ABORTED (R321)
          let aborts := b.span.isNone && b.prog.fence && decide ((gangAt s b.gang).phase = .contained)
          if stallOver s b.gang st || aborts then
            let p := match st with
              | .release _ => { b.prog with released := true, acquired := b.prog.acquired || aborts }
              | .acquire _ => { b.prog with acquired := true }
              | .ops _ _ => { b.prog with waited := true }
              | _ => b.prog
            go (updBundle s w (fun b => { b with stall := none, prog := p }))
          else
            match stallPush s st with
            | some s => .state s
            | none => rests

end Sys2Proof.Machine
end

