-- ==== Sys2Proof/Machine/Approx.lean ====
section
/-!
DEFINITION. The approximation functions (spec 05_float_instructions.md R126, R127). The spec bounds each result and leaves it open
inside the bound: the value is a candidate without a body, kept when it lies within the bound of an enclosure computed
here, else the enclosure's own rounding.
-/
namespace Sys2Proof.Machine

/-- π · 2^200. -/
def piFix : Nat := 5048344754617993871973410141242436836214643421488662971535368
/-- ln 2 · 2^200. -/
def ln2Fix : Nat := 1113844574712631719546256151097547306333272293549090750737802
/-- log2 e · 2^200. -/
def log2eFix : Nat := 2318321547468254865173387471183990171487108758923299108729110
/-- The unit of the fixed-point values here. -/
def oneFix : Nat := 2 ^ 200

/-- An enclosure: the exact value lies within `err` of `x`, both over 2^`sc`. -/
structure Enclosure where
  x : Int
  sc : Nat
  err : Nat
  deriving DecidableEq, Repr

/-- Integer square root by bits: `k + 1` bits of result remain. -/
def isqrtFrom (n : Nat) : Nat → Nat → Nat
  | 0, r => if (r + 1) * (r + 1) ≤ n then r + 1 else r
  | k + 1, r =>
    let t := r + 2 ^ (k + 1)
    isqrtFrom n k (if t * t ≤ n then t else r)

/-- ⌊√n⌋. -/
def isqrt (n : Nat) : Nat := isqrtFrom n (bitLen n / 2 + 1) 0

/-- Σ x^k/k! at the unit of `oneFix`, from the term given on. -/
def expSum (x : Nat) : Nat → Nat → Nat → Nat
  | 0, _, _ => 0
  | n + 1, k, t => t + expSum x n (k + 1) (t * x / oneFix / k)

/-- 2^f for a fraction f, 0 ≤ f < 1. -/
def exp2Fix (f : Nat) : Nat := expSum (f * ln2Fix / oneFix) 60 1 oneFix

/-- Fraction bits of log2 of a mantissa 1 ≤ m < 2, by squaring. -/
def log2Bits : Nat → Nat → Nat → Nat
  | 0, _, acc => acc
  | n + 1, m, acc =>
    let q := m * m / oneFix
    if 2 * oneFix ≤ q then log2Bits n (q / 2) (2 * acc + 1) else log2Bits n q (2 * acc)

/-- Σ (−1)^k x^(2k+1)/(2k+1)!. -/
def sinSum (x : Nat) : Nat → Nat → Int → Int
  | 0, _, _ => 0
  | n + 1, k, t => t + sinSum x n (k + 2) (-(t * x / oneFix * x / oneFix) / ((k + 1) * (k + 2)))

/-- sin(π·r) for 0 ≤ r < 2 at the unit. -/
def sinPiFix (r : Nat) : Int :=
  let half (q : Nat) : Int :=
    let q := if oneFix < 2 * q then oneFix - q else q
    let x := piFix * q / oneFix
    sinSum x 35 1 x
  if oneFix ≤ r then -half (r - oneFix) else half r

/-- A finite magnitude n · 2^e at a scale that holds it exactly. -/
def atScale (n : Nat) (e : Int) (sc : Nat) : Nat := n * 2 ^ (e + sc).toNat

/-- Enclosure of a function at a finite non-zero operand n · 2^e of a sign. -/
def enclose (op : Nat) (neg : Bool) (n : Nat) (e : Int) : Enclosure :=
  match op with
  | 0x3A =>
    let x : Int := ((2 ^ 700 / atScale n e 350 : Nat) : Int)
    { x := if neg then -x else x, sc := 350, err := 1 }
  | 0x3B => { x := ((isqrt (2 ^ 1200 / atScale n e 400) : Nat) : Int), sc := 400, err := 1 }
  | 0x3D =>
    let y : Int := if neg then -(atScale n e 200 : Int) else atScale n e 200
    let k : Int := y / oneFix
    let m := exp2Fix (y - k * oneFix).toNat
    { x := m * 2 ^ (k + 150).toNat, sc := 350, err := 2 ^ (k + 170).toNat }
  | 0x3E =>
    let k := floorLog2 n 1
    let m := atScale n (-k) 200
    { x := (k + e) * 2 ^ 60 + ((log2Bits 60 m 0 : Nat) : Int), sc := 60, err := 2 }
  | 0x3F =>
    let s := sinPiFix (atScale n e 200 % (2 * oneFix))
    { x := if neg then -s else s, sc := 200, err := 2 ^ 20 }
  | 0x40 => { x := sinPiFix ((atScale n e 200 + oneFix / 2) % (2 * oneFix)), sc := 200, err := 2 ^ 20 }
  | _ =>
    if atScale n e 200 * 1024 < oneFix then
      let a := atScale n e 600
      let cube := a * a / 2 ^ 600 * a / 2 ^ 600
      let x : Int := ((a - cube / 3 : Nat) : Int)
      { x := if neg then -x else x, sc := 600, err := cube * a / 2 ^ 600 * a / 2 ^ 600 + 2 }
    else
      let y := 2 * atScale n e 200 * log2eFix / oneFix
      let big := exp2Fix (y % oneFix) * 2 ^ (y / oneFix)
      let x : Int := (((big - oneFix) * oneFix / (big + oneFix) : Nat) : Int)
      { x := if neg then -x else x, sc := 200, err := 2 ^ 60 }

/-- The bound of R126 at an enclosure, over its scale; an ulp is that of the least magnitude enclosed. -/
def boundOf (op : Nat) (c : Enclosure) (inner : Bool) : Nat :=
  let ulp : Nat := 2 ^ (max (floorLog2 (max (c.x.natAbs - c.err) 1) 1 - c.sc) (-126) - 23 + c.sc).toNat
  let absolute : Nat := 2 ^ (c.sc - 22)
  match op with
  | 0x3A => ulp
  | 0x3B => ulp
  | 0x3E => if inner then absolute else 2 * ulp
  | 0x3F => absolute
  | 0x40 => absolute
  | _ => 2 * ulp

/-- A candidate code lies within the bound of every value that the enclosure holds, the exact one among them. -/
def within (op : Nat) (c : Enclosure) (inner : Bool) (w : Word) : Bool :=
  match unpack f32 w.toNat with
  | .fin neg n _ e =>
    -- a scale that holds the candidate exactly
    let up : Nat := 160
    let v : Int := n * 2 ^ (e + c.sc + up).toNat
    let v := if neg then -v else v
    decide ((v - c.x * 2 ^ up).natAbs + c.err * 2 ^ up ≤ boundOf op c inner * 2 ^ up)
  | _ => false

/-- The exact result where R126 lists the operand as exact. -/
def exactAt (op : Nat) (neg : Bool) (n : Nat) (e : Int) : Option (Nat × Nat) :=
  let k := floorLog2 n 1
  let pow2 := n = 2 ^ k.toNat
  let p := k + e
  match op with
  | 0x3A => if pow2 && decide (-127 ≤ p) && decide (p ≤ 126) then some (roundFin f32 neg 1 1 (-p)) else none
  | 0x3B => if pow2 && p % 2 = 0 then some (roundFin f32 false 1 1 (-(p / 2))) else none
  | 0x3D =>
    let y := atScale n e 200
    let i : Int := if neg then -((y / oneFix : Nat) : Int) else (y / oneFix : Nat)
    if y % oneFix = 0 && decide (-149 ≤ i) && decide (i ≤ 127) then some (roundFin f32 false 1 1 i) else none
  | 0x3E => if pow2 then some (intToFloat f32 p) else none
  | 0x3F =>
    let y := atScale n e 200 % (2 * oneFix)
    if y % oneFix = 0 then some (0, 0)
    else if 2 * y = oneFix then some (roundFin f32 neg 1 1 0)
    else if 2 * y = 3 * oneFix then some (roundFin f32 (!neg) 1 1 0) else none
  | 0x40 =>
    let y := atScale n e 200 % (2 * oneFix)
    if y = 0 then some (roundFin f32 false 1 1 0)
    else if y = oneFix then some (roundFin f32 true 1 1 0)
    else if y % oneFix = oneFix / 2 then some (0, 0) else none
  | 0x41 => if 19 * oneFix ≤ 2 * atScale n e 200 then some (roundFin f32 neg 1 1 0) else none
  | _ => none

/-- The correctly rounded square root (R126 `fsqrt`). -/
def floatSqrt (n : Nat) (e : Int) : Nat × Nat :=
  let m := if e % 2 = 0 then n else 2 * n
  let h := e / 2
  let q := m * 2 ^ 64
  let r := isqrt q
  roundFin f32 false (2 * r + ofBool (decide (r * r ≠ q))) 1 (h - 33)

/-- Results at zeros and infinities (R126): the code, or none for NaN with NV. -/
def specialAt (op : Nat) (zero neg : Bool) (a : Nat) : Option Nat :=
  let one := 0x3F800000
  let sg := f32.signBit neg
  match op with
  | 0x3A => some (if zero then sg + f32.infBits else sg)
  | 0x3B => if zero then some (sg + f32.infBits) else if neg then none else some 0
  | 0x3C => if zero then some a else if neg then none else some f32.infBits
  | 0x3D => some (if zero then one else if neg then 0 else f32.infBits)
  | 0x3E => if zero then some (2 ^ 31 + f32.infBits) else if neg then none else some f32.infBits
  | 0x3F => if zero then some a else none
  | 0x40 => if zero then some one else none
  | _ => some (if zero then a else sg + one)

/-- An approximation function with its flags (R126, R127). A negative finite operand of `frsq` or `flg2` sets NV alone, as R126's
table has it; R127's NX is read as that of a numeric result (DESIGN CHOICE, log entry 17). -/
def floatApprox (op : Nat) (a : Word) : Nat × Nat :=
  match unpack f32 a.toNat with
  | .nan s => (f32.canon, flagIf s flagNV)
  | .inf neg => match specialAt op false neg a.toNat with
    | some r => (r, 0)
    | none => (f32.canon, flagNV)
  | .fin neg n _ e =>
    if n = 0 then
      match specialAt op true neg a.toNat with
      | some r => (r, 0)
      | none => (f32.canon, flagNV)
    else if neg && (op = 0x3B || op = 0x3C || op = 0x3E) then (f32.canon, flagNV)
    else if op = 0x3C then floatSqrt n e
    else if op = 0x3D && !neg && 128 * oneFix ≤ atScale n e 200 then (f32.infBits, flagOF ||| flagNX)
    else if op = 0x3D && neg && 150 * oneFix ≤ atScale n e 200 then (0, flagUF ||| flagNX)
    else match exactAt op neg n e with
      | some (r, _) => (r, 0)
      | none =>
        let c := enclose op neg n e
        let own := roundFin f32 (decide (c.x < 0)) c.x.natAbs 1 (-(c.sc : Int))
        -- a reciprocal beyond the largest finite value overflows (R46)
        if own.1 % 2 ^ 31 = f32.infBits then (own.1, flagOF ||| flagNX)
        else
          let inner := oneFix ≤ 2 * atScale n e 200 && atScale n e 200 ≤ 2 * oneFix
          let w := Config.approx op a
          let r := if within op c inner w then w.toNat else own.1
          (r, flagNX ||| flagIf (decide (r % 2 ^ 31 < 2 ^ 23)) flagUF)

end Sys2Proof.Machine
end

