-- ==== Sys2Proof/Machine/Float.lean ====
section
/-!
DEFINITION. Float, packed, complex and conversion instructions, opcodes 0x30 to 0x4F (R118 to R137).
-/
namespace Sys2Proof.Machine

/-- A 32-bit result with its flags. -/
def flagged (r : Nat × Nat) : DWord × Nat := (BitVec.ofNat 64 (r.1 % 2 ^ 32), r.2)

/-- A binary float operation on codes (R123, R124). -/
def fl2Spec (o : RegOp) (f : Nat → Nat → Nat × Nat) : OpSpec :=
  { y := o.y, d := o.d, ext := o.ext, srcs := [{ f := o.a }, { f := o.b }], len := lenX o.x, chained := o.c
    f := fun vs => match vs with
      | [a, b] => flagged (f a.toNat b.toNat)
      | _ => (0, 0) }

/-- A float operation that also reads d (R118, R123). -/
def fl3Spec (o : RegOp) (f : Nat → Nat → Nat → Nat × Nat) : OpSpec :=
  { y := o.y, d := o.d, ext := o.ext, srcs := [{ f := o.a }, { f := o.b }], dIn := true, len := lenX o.x, chained := o.c
    f := fun vs => match vs with
      | [a, b, d] => flagged (f a.toNat b.toNat d.toNat)
      | _ => (0, 0) }

/-- A unary float operation. -/
def fl1Spec (o : UnOp) (f : Nat → Nat × Nat) : OpSpec :=
  { y := o.y, d := o.d, ext := o.ext, srcs := [{ f := o.a }], len := lenX o.x, chained := o.c
    f := fun vs => match vs with
      | [a] => flagged (f a.toNat)
      | _ => (0, 0) }

/-- An approximation function: 2 clk per active item (R120, R126). -/
def approxSpec (o : UnOp) (op : Nat) : OpSpec :=
  { fl1Spec o (fun a => floatApprox op (BitVec.ofNat 32 a)) with occ := 2 }

/-- The modifier of a two-source instruction (R119). -/
def modBin (o : RegOp) : Nat := modOf (some o.d) [o.a, o.b] o.x o.ext
/-- The modifier of a one-source instruction (R119). -/
def modUn (o : UnOp) : Nat := modOf (some o.d) [o.a] o.x o.ext

/-- The 16-bit format that bit 0 of a modifier names (R128, R130). -/
def halfFmt (m : Nat) : Ieee := if bit m 0 then f16 else bf16

/-- Two 16-bit results in one word, lane 0 low, with the flags of both (R58). -/
def halves (lo hi : Nat × Nat) : Nat × Nat := (lo.1 % 65536 + 65536 * (hi.1 % 65536), lo.2 ||| hi.2)

/-- A lane-wise binary operation (R128). -/
def packed2 (f : Nat → Nat → Nat × Nat) (a b : Nat) : Nat × Nat :=
  halves (f (a % 65536) (b % 65536)) (f (a / 65536) (b / 65536))

/-- A lane-wise operation on three operands (R128). -/
def packed3 (f : Nat → Nat → Nat → Nat × Nat) (a b d : Nat) : Nat × Nat :=
  halves (f (a % 65536) (b % 65536) (d % 65536)) (f (a / 65536) (b / 65536) (d / 65536))

/-- `hdot2` (R129). -/
def packedDot (t : Ieee) (a b d : Nat) : Nat × Nat :=
  sumProducts f32 [(unpack t (a % 65536), unpack t (b % 65536)), (unpack t (a / 65536), unpack t (b / 65536)),
    (unpack f32 d, .one)]

/-- `cmul`, and `cfma` with an addend (R130): CJ is bit 1 of the modifier, DR bit 2. -/
def complexMul (m : Nat) (d : Option Nat) (a b : Nat) : Nat × Nat :=
  let t := halfFmt m
  let ar := unpack t (a % 65536)
  let ai := unpack t (a / 65536)
  let br := unpack t (b % 65536)
  let bi := if bit m 1 then (unpack t (b / 65536)).negate else unpack t (b / 65536)
  let re := if bit m 2 then [(ar, br)] else [(ar, br), (ai, bi.negate)]
  let im := if bit m 2 then [(ai, bi)] else [(ar, bi), (ai, br)]
  let add (h : Nat) : List (Val × Val) := match d with
    | none => []
    | some w => [(unpack t (if h = 0 then w % 65536 else w / 65536), Val.one)]
  halves (sumProducts t (re ++ add 0)) (sumProducts t (im ++ add 1))

/-- The format that a two-bit type field names: f32, f16, bf16 (R131, R133). -/
def typeFmt (k : Nat) : Ieee := match k with
  | 0 => f32
  | 1 => f16
  | _ => bf16

/-- `cvt` on a and d (R131). -/
def convert (m : Nat) (a d : Nat) : Nat × Nat :=
  let st := typeFmt (bits m 1 0)
  let dt := typeFmt (bits m 3 2)
  if bit m 6 then halves (floatCvt st dt (a % 65536)) (floatCvt st dt (a / 65536))
  else
    let src := if bits m 1 0 = 0 then a else if bit m 4 then a / 65536 else a % 65536
    let (r, fl) := floatCvt st dt src
    if bits m 3 2 = 0 then (r, fl)
    else if bit m 5 then (r * 65536 + d % 65536, fl) else (d / 65536 * 65536 + r, fl)

/-- `cvt` reads d when it replaces one half of it (R131). -/
def cvtReadsD (m : Nat) : Bool := bits m 3 2 ≠ 0 && !bit m 6

def specFadd (o : RegOp) : OpSpec := fl2Spec o (floatAdd f32)
def specFsub (o : RegOp) : OpSpec := fl2Spec o (floatSub f32)
def specFmul (o : RegOp) : OpSpec := fl2Spec o (floatMul f32)
def specFfma (o : RegOp) : OpSpec := fl3Spec o (floatFma f32)
def specFmin (o : RegOp) : OpSpec := fl2Spec o (floatPick f32 false)
def specFmax (o : RegOp) : OpSpec := fl2Spec o (floatPick f32 true)
def specFabs (o : UnOp) : OpSpec := fl1Spec o (fun a => (a % 2 ^ 31, 0))
def specFneg (o : UnOp) : OpSpec := fl1Spec o (fun a => (a ^^^ 2 ^ 31, 0))
def specFclass (o : UnOp) : OpSpec := fl1Spec o (fun a => (floatClass a, 0))
def specFscale (o : RegOp) : OpSpec := fl2Spec o (fun a b => floatScale a (BitVec.ofNat 32 b).toInt)
def specFrcp (o : UnOp) : OpSpec := approxSpec o 0x3A
def specFrsq (o : UnOp) : OpSpec := approxSpec o 0x3B
def specFsqrt (o : UnOp) : OpSpec := approxSpec o 0x3C
def specFex2 (o : UnOp) : OpSpec := approxSpec o 0x3D
def specFlg2 (o : UnOp) : OpSpec := approxSpec o 0x3E
def specFsin (o : UnOp) : OpSpec := approxSpec o 0x3F
def specFcos (o : UnOp) : OpSpec := approxSpec o 0x40
def specFtanh (o : UnOp) : OpSpec := approxSpec o 0x41
def specHadd2 (o : RegOp) : OpSpec := fl2Spec o (packed2 (floatAdd (halfFmt (modBin o))))
def specHmul2 (o : RegOp) : OpSpec := fl2Spec o (packed2 (floatMul (halfFmt (modBin o))))
def specHfma2 (o : RegOp) : OpSpec := fl3Spec o (packed3 (floatFma (halfFmt (modBin o))))
def specHmin2 (o : RegOp) : OpSpec := fl2Spec o (packed2 (floatPick (halfFmt (modBin o)) false))
def specHmax2 (o : RegOp) : OpSpec := fl2Spec o (packed2 (floatPick (halfFmt (modBin o)) true))
def specHdot2 (o : RegOp) : OpSpec := fl3Spec o (packedDot (halfFmt (modBin o)))
def specCmul (o : RegOp) : OpSpec := fl2Spec o (complexMul (modBin o) none)
def specCfma (o : RegOp) : OpSpec := fl3Spec o (fun a b d => complexMul (modBin o) (some d) a b)
def specFrnd (o : UnOp) : OpSpec := fl1Spec o (floatRound (bits (modUn o) 3 2))

/-- `cvt` (R131). -/
def specCvt (o : ModUnOp) : OpSpec :=
  let m := o.ext.toNat
  { y := o.y, d := o.d, ext := o.ext, srcs := [{ f := o.a }], dIn := cvtReadsD m, len := 2, chained := o.c
    f := fun vs => match vs with
      | [a, d] => flagged (convert m a.toNat d.toNat)
      | [a] => flagged (convert m a.toNat 0)
      | _ => (0, 0) }

/-- `f2i` (R132): a pair result for a 64-bit type. -/
def specF2i (o : UnOp) : OpSpec :=
  let m := modUn o
  { y := o.y, d := o.d, ext := o.ext, wide := bit m 1, srcs := [{ f := o.a }], len := lenX o.x, chained := o.c
    f := fun vs => match vs with
      | [a] => floatToInt (bits m 1 0) (bits m 3 2) a.toNat
      | _ => (0, 0) }

/-- `i2f` (R133): a pair source for a 64-bit type. -/
def specI2f (o : UnOp) : OpSpec :=
  let m := modUn o
  { y := o.y, d := o.d, ext := o.ext, srcs := [{ f := o.a, wide := bit m 1 }], len := lenX o.x, chained := o.c
    f := fun vs => match vs with
      | [a] =>
        let i : Int := match bits m 1 0 with
          | 0 => (lowWord a).toInt
          | 1 => (lowWord a).toNat
          | 2 => a.toInt
          | _ => a.toNat
        flagged (intToFloat (typeFmt (bits m 3 2)) i)
      | _ => (0, 0) }

/-- The image of a gang's format register: zero when it is unloaded (R48). -/
def fmtOf (g : Gang) (n : Nat) : BitVec 256 := tget g.fmt n 0

/-- FORMAT_INVALID for `pkn` and `unpk` (R135, R136): unloaded, a codebook format, or a scale asked of a format without
one. -/
def narFault (f : BitVec 256) (scale : Bool) (n : Nat) : Option Trap :=
  if f = 0 || fmtK f ≠ 0 || (scale && fmtSck f = 0) then some { code := 0x10, sub := n } else none

/-- `pkn` under an image (R135). -/
def specPkn (o : ModOp) (f : BitVec 256) : OpSpec :=
  let m := o.ext.toNat
  let sm := bits m 12 11
  { y := o.y, d := o.d, ext := o.ext, len := 2, chained := o.c
    srcs := { f := o.a } :: (if sm = 1 then [{ f := o.b }] else []), dIn := sm ≠ 2
    fault := narFault f (sm ≠ 0) (bits m 4 0)
    f := fun vs =>
      let g (a b d : DWord) : DWord × Nat :=
        let r := packNar f o.ext (lowWord a) (lowWord b) (lowWord d)
        (r.1.setWidth 64, r.2)
      match vs with
      | [a, b, d] => g a b d
      | [a, d] => g a 0 d
      | [a] => g a 0 0
      | _ => (0, 0) }

/-- `unpk` under an image (R136). -/
def specUnpk (o : ModOp) (f : BitVec 256) : OpSpec :=
  { y := o.y, d := o.d, ext := o.ext, srcs := [{ f := o.a }, { f := o.b }], len := 2, chained := o.c
    fault := narFault f false (bits o.ext.toNat 4 0)
    f := fun vs => match vs with
      | [a, b] =>
        let r := unpackNar f o.ext (lowWord a) (lowWord b)
        (r.1.setWidth 64, r.2)
      | _ => (0, 0) }

/-- An operation that names a format register: a die span deals (R160), and the image is read at issue (R137). -/
def runFmt (n : Nat) (mk : BitVec 256 → OpSpec) (s : State) : State :=
  match issuing s with
  | none => s
  | some w =>
    match w.b.span with
    | none => runOp (mk (fmtOf (gangAt s w.b.gang) n)) s
    | some i =>
      match (spanAt s i).gang with
      | none => pourOrDeal s w i false
      | some g => runOp (mk (fmtOf (gangAt s g) n)) s

/-- FADD (R123). -/
def execFadd (o : RegOp) (s : State) : Out := .next (runOp (specFadd o) s)
/-- FSUB (R123). -/
def execFsub (o : RegOp) (s : State) : Out := .next (runOp (specFsub o) s)
/-- FMUL (R123). -/
def execFmul (o : RegOp) (s : State) : Out := .next (runOp (specFmul o) s)
/-- FFMA (R123). -/
def execFfma (o : RegOp) (s : State) : Out := .next (runOp (specFfma o) s)
/-- FMIN (R124). -/
def execFmin (o : RegOp) (s : State) : Out := .next (runOp (specFmin o) s)
/-- FMAX (R124). -/
def execFmax (o : RegOp) (s : State) : Out := .next (runOp (specFmax o) s)
/-- FABS (R125). -/
def execFabs (o : UnOp) (s : State) : Out := .next (runOp (specFabs o) s)
/-- FNEG (R125). -/
def execFneg (o : UnOp) (s : State) : Out := .next (runOp (specFneg o) s)
/-- FCLASS (R125). -/
def execFclass (o : UnOp) (s : State) : Out := .next (runOp (specFclass o) s)
/-- FSCALE (R123). -/
def execFscale (o : RegOp) (s : State) : Out := .next (runOp (specFscale o) s)
/-- FRCP (R126). -/
def execFrcp (o : UnOp) (s : State) : Out := .next (runOp (specFrcp o) s)
/-- FRSQ (R126). -/
def execFrsq (o : UnOp) (s : State) : Out := .next (runOp (specFrsq o) s)
/-- FSQRT (R126). -/
def execFsqrt (o : UnOp) (s : State) : Out := .next (runOp (specFsqrt o) s)
/-- FEX2 (R126). -/
def execFex2 (o : UnOp) (s : State) : Out := .next (runOp (specFex2 o) s)
/-- FLG2 (R126). -/
def execFlg2 (o : UnOp) (s : State) : Out := .next (runOp (specFlg2 o) s)
/-- FSIN (R126). -/
def execFsin (o : UnOp) (s : State) : Out := .next (runOp (specFsin o) s)
/-- FCOS (R126). -/
def execFcos (o : UnOp) (s : State) : Out := .next (runOp (specFcos o) s)
/-- FTANH (R126). -/
def execFtanh (o : UnOp) (s : State) : Out := .next (runOp (specFtanh o) s)
/-- HADD2 (R128). -/
def execHadd2 (o : RegOp) (s : State) : Out := .next (runOp (specHadd2 o) s)
/-- HMUL2 (R128). -/
def execHmul2 (o : RegOp) (s : State) : Out := .next (runOp (specHmul2 o) s)
/-- HFMA2 (R128). -/
def execHfma2 (o : RegOp) (s : State) : Out := .next (runOp (specHfma2 o) s)
/-- HMIN2 (R128). -/
def execHmin2 (o : RegOp) (s : State) : Out := .next (runOp (specHmin2 o) s)
/-- HMAX2 (R128). -/
def execHmax2 (o : RegOp) (s : State) : Out := .next (runOp (specHmax2 o) s)
/-- HDOT2 (R129). -/
def execHdot2 (o : RegOp) (s : State) : Out := .next (runOp (specHdot2 o) s)
/-- CMUL (R130). -/
def execCmul (o : RegOp) (s : State) : Out := .next (runOp (specCmul o) s)
/-- CFMA (R130). -/
def execCfma (o : RegOp) (s : State) : Out := .next (runOp (specCfma o) s)
/-- FRND (R134). -/
def execFrnd (o : UnOp) (s : State) : Out := .next (runOp (specFrnd o) s)
/-- F2I (R132). -/
def execF2i (o : UnOp) (s : State) : Out := .next (runOp (specF2i o) s)
/-- I2F (R133). -/
def execI2f (o : UnOp) (s : State) : Out := .next (runOp (specI2f o) s)
/-- CVT (R131). -/
def execCvt (o : ModUnOp) (s : State) : Out := .next (runOp (specCvt o) s)
/-- PKN (R135). -/
def execPkn (o : ModOp) (s : State) : Out := .next (runFmt (bits o.ext.toNat 4 0) (specPkn o) s)
/-- UNPK (R136). -/
def execUnpk (o : ModOp) (s : State) : Out := .next (runFmt (bits o.ext.toNat 4 0) (specUnpk o) s)

end Sys2Proof.Machine
end

