-- ==== Sys2Proof/Machine/Spaces.lean ====
section
/-!
DEFINITION. The memory spaces as an access reaches them (R204 to R206): gang memory and scratchpad with their full, domain,
presence and poison state, log memory through translation, and the checks in the order of R209.
-/
namespace Sys2Proof.Machine

/-- The space of an access (R204). -/
inductive Space where
  | log
  | gang
  | spad
  | spill
  deriving DecidableEq, Repr

/-- Gang memory or a scratchpad allocation with its state beyond data; `unit` is the size of a domain unit (R204). -/
structure Local where
  size : Nat := 0
  unit : Nat := 256
  mem : Memory := []
  full : List Nat := []
  dom : List Nat := []
  bad : List (Nat × Nat) := []
  absent : List Nat := []
  deriving DecidableEq, Repr

/-- A gang's own gang memory. -/
def gangLocal (s : State) (gang : Nat) : Local :=
  let g := gangAt s gang
  { size := g.gmemSize, unit := 256, mem := g.gmem, full := g.full, dom := g.dom, bad := g.badGmem }
/-- The scratchpad of a launch's cohort on a die; empty while there is none (R340). -/
def dieLocal (s : State) (die launch : Nat) : Local :=
  match spadOf s die launch with
  | some p => { size := 128 * p.lines, unit := 128, mem := p.mem, full := p.full, dom := p.dom, bad := p.bad, absent := p.absent }
  | none => { unit := 128 }
/-- The state with a gang's gang memory changed. -/
def setGangLocal (s : State) (gang : Nat) (l : Local) : State :=
  let g := gangAt s gang
  setGang s gang { g with gmem := l.mem, full := l.full, dom := l.dom, badGmem := l.bad }
/-- The state with a scratchpad changed. -/
def setDieLocal (s : State) (die launch : Nat) (l : Local) : State :=
  let d := dieAt s die
  setDie s die { d with spads := d.spads.map (fun p => if p.launch = launch then
    { p with mem := l.mem, full := l.full, dom := l.dom, bad := l.bad, absent := l.absent } else p) }

/-- The local memory that a gang's instruction reaches: its scratchpad or its gang memory (R204). -/
def localOf (s : State) (gang : Nat) (spad : Bool) : Local :=
  if spad then dieLocal s (gangAt s gang).die (gangAt s gang).launch else gangLocal s gang
/-- The state with that local memory changed. -/
def setLocal (s : State) (gang : Nat) (spad : Bool) (l : Local) : State :=
  if spad then setDieLocal s (gangAt s gang).die (gangAt s gang).launch l else setGangLocal s gang l

/-- The domain bits of a range cleared (R206). -/
def clearDom (l : Local) (a n : Nat) : Local := { l with dom := l.dom.filter (fun u => !(unitsOf l.unit a n).contains u) }
/-- The domain bits of a range set (R206). -/
def setDom (l : Local) (a n : Nat) : Local := { l with dom := (unitsOf l.unit a n).foldl (fun d u => putNum u d) l.dom }
/-- A range holds frequency data (R206). -/
def domHit (l : Local) (a n : Nat) : Bool := (unitsOf l.unit a n).any (l.dom.contains ·)
/-- A word of a range is poisoned (R272, R345). -/
def badHit (l : Local) (a n : Nat) : Bool := (unitsOf 4 a n).any (fun w => l.bad.any (fun e => e.1 = w && e.2 = 2))
/-- The first absent line of a range, as an offset (R215). -/
def absentIn (l : Local) (a n : Nat) : Option Nat := ((unitsOf 128 a n).find? (l.absent.contains ·)).map (· * 128)

/-- Bytes written: the data, the poison of words written whole, and the domain bits unless the write is `.raw`
(R206, R217, R272). -/
def writeLocal (l : Local) (a : Nat) (bs : List Byte) (raw : Bool) : Local :=
  let whole (w : Nat) : Bool := decide (a ≤ 4 * w) && decide (4 * w + 4 ≤ a + bs.length)
  let l := { l with mem := mwrite l.mem a bs, bad := l.bad.filter (fun e => !whole e.1) }
  if raw then l else clearDom l a bs.length

/-- The bits of a code laid over bytes from a bit on. -/
def layBits (bs : List Byte) (at' w code : Nat) : List Byte :=
  let n := ofBytes bs
  toBytes bs.length (n - (n / 2 ^ at' % 2 ^ w) * 2 ^ at' + code % 2 ^ w * 2 ^ at')

/-- Storage errors that reads of local memory meet (R272, R273, R345, R346). -/
def meetLocal (s : State) (core gang : Nat) (spad : Bool) (ranges : List (Nat × Nat)) : State :=
  if !spad then meetGang s core gang ranges
  else
    let l := localOf s gang spad
    let (bad, met) := metWords l.bad ranges
    if met.isEmpty then s
    else
      let g := gangAt s gang
      let s := setLocal s gang spad { l with bad }
      let d := dieAt s g.die
      let entry (w : Nat) : DWord :=
        BitVec.ofNat 64 (1 * 2 ^ 59 + w / 32 % 32 * 2 ^ 54 + g.asid * 2 ^ 42 + w)
      let log := (met.filter (fun e => e.2 = 1)).foldl (fun x e => logAdd x 8 (entry e.1)) d.log
      let s := setDie s g.die { d with log }
      if log.entries = d.log.entries then s else raiseMsix s 0 7

/-- What reading or checking a range comes to: bytes with the highest GEN, a cause, a page to walk, an absent line. -/
inductive Got where
  | ok (l : List Byte) (gen : Nat)
  | trap (t : Trap)
  | walk (vpn : Nat)
  | absent (off : Nat)
  deriving DecidableEq, Repr

/-- Who accesses memory: core, gang, address space, level, and the walk answers at hand. -/
structure Who where
  core : Nat
  gang : Nat
  asid : Nat
  level : Level
  ans : List (Nat × Nat × WalkAnswer)
  /-- SB bits of the item (R243) -/
  sb : BitVec 16 := 0
  deriving DecidableEq, Repr

/-- An item as it accesses memory. -/
def whoOf (s : State) (w : Where) (g p : Nat) : Who :=
  { core := w.core, gang := w.b.gang, asid := (gangAt s w.b.gang).asid, level := (itemAt s w.b.gang g p).level
    ans := w.b.prog.answers, sb := (itemAt s w.b.gang g p).sb }

/-- The translation of an item's range (R205, R327). -/
def whoXlate (s : State) (k : Who) (write priv : Bool) (va n : Nat) : Xlate :=
  translate s k.core k.ans { asid := k.asid, level := k.level, write, priv } va n

/-- A range of log memory or of a spill stack checked for an access (R205). -/
def checkLog (s : State) (k : Who) (write priv : Bool) (va n : Nat) : Got :=
  match whoXlate s k write priv va n with
  | .fault c a => .trap { code := c, addr := BitVec.ofNat 64 a, wr := write }
  | .miss v => .walk v
  | .ok _ => .ok [] 0

/-- The range that a running copy writes in log memory, as virtual addresses (R231). -/
def copyLogDest (c : Copy) : Option (Nat × Nat) :=
  match c.dst with
  | .log va => if c.finished then none else some (va, c.dlen)
  | _ => none
/-- A range of log memory or of a spill stack read (R205, R217, R454). -/
def readLog (s : State) (k : Who) (write priv : Bool) (va n : Nat) : Got :=
  match whoXlate s k write priv va n with
  | .fault c a => .trap { code := c, addr := BitVec.ofNat 64 a, wr := write }
  | .miss v => .walk v
  | .ok ls =>
    let r := loadBytes s k.core k.asid ls va n
    if r.bad then .trap { code := 0x0E, sub := 5, addr := BitVec.ofNat 64 va, wr := write }
    else .ok (openBytes s (s.copies.filterMap (fun c => if c.2.asid = k.asid then copyLogDest c.2 else none)) va r.data) r.gen

/-- A range of local memory checked for an access (R205, R215). -/
def checkLocal (s : State) (k : Who) (spad write : Bool) (off n : Nat) : Got :=
  let l := localOf s k.gang spad
  if l.size < off + n then .trap { code := 0x0C, addr := BitVec.ofNat 64 off, wr := write }
  else match absentIn l off n with
    | some a => .absent a
    | none => .ok [] 0

/-- A range of local memory read (R205, R206, R215, R217, R454); `raw` passes over domain bits. -/
def readLocal (s : State) (k : Who) (spad write raw : Bool) (off n : Nat) : Got :=
  match checkLocal s k spad write off n with
  | .ok _ _ =>
    let l := localOf s k.gang spad
    if !raw && domHit l off n then .trap { code := 0x0F, addr := BitVec.ofNat 64 off, wr := write }
    else if badHit l off n then
      .trap { code := 0x0E, sub := if spad then 6 else 4, addr := BitVec.ofNat 64 off, wr := write }
    else
      let runs := if spad then [] else openRuns s k.gang k.sb
      .ok (openBytes s runs off (mread l.mem off n)) 0
  | r => r

/-- A range of a space checked. -/
def checkSpace (s : State) (k : Who) (sp : Space) (write : Bool) (a n : Nat) : Got :=
  match sp with
  | .log => checkLog s k write false a n
  | .spill => checkLog s k write true a n
  | .gang => checkLocal s k false write a n
  | .spad => checkLocal s k true write a n

/-- A range of a space read. -/
def readSpace (s : State) (k : Who) (sp : Space) (write raw : Bool) (a n : Nat) : Got :=
  match sp with
  | .log => readLog s k write false a n
  | .spill => readLog s k write true a n
  | .gang => readLocal s k false write raw a n
  | .spad => readLocal s k true write raw a n

/-- Place of a cause among the execution causes (R209). -/
def causeRank (c : Nat) : Nat :=
  match c with
  | 0x10 => 0
  | 0x09 => 1
  | 0x0A => 2
  | 0x0C => 3
  | 0x0B => 3
  | 0x0D => 3
  | 0x0F => 5
  | 0x0E => 6
  | _ => 7

/-- Place of a result that is no success: walks first, then causes in R209's order, an absent line before DOMAIN. -/
def gotRank : Got → Nat
  | .walk _ => 0
  | .trap t => 1 + causeRank t.code
  | .absent _ => 5
  | .ok _ _ => 100

/-- Several parts of one access: the first that fails in the order of R209, or the bytes of each with the highest GEN. -/
def allGot (l : List Got) : Got :=
  match leastBy gotRank (l.filter (fun g => gotRank g < 100)) with
  | some g => g
  | none => .ok (l.flatMap (fun g => match g with
      | .ok b _ => b
      | _ => [])) ((l.map (fun g => match g with
        | .ok _ n => n
        | _ => 0)).foldl max 0)

/-- The bytes of a result that succeeded. -/
def Got.bytes : Got → List Byte
  | .ok b _ => b
  | _ => []
/-- The GEN of a result that succeeded. -/
def Got.gen : Got → Nat
  | .ok _ g => g
  | _ => 0
/-- The result succeeded. -/
def Got.isOk : Got → Bool
  | .ok _ _ => true
  | _ => false

/-- Block of a narrow element at a bit address and the byte address of the block's scale; none where R212 finds no
element. -/
def elemPlace (f : BitVec 256) (p : Nat) : Option (Nat × Nat) :=
  let w := elemBits f
  let z := scaleSize f
  let l := fmtL f
  if w = 0 || p < 8 * fmtDbase f then none
  else
    let q := p - 8 * fmtDbase f
    if l = 0 || fmtScp f then
      if q % w = 0 then
        let b := if l = 0 then 0 else q / w / l
        some (b, fmtSbase f + b * z)
      else none
    else
      let r := z + l * w / 8
      let m := q % (8 * r)
      if 8 * z ≤ m && (m - 8 * z) % w = 0 then some (q / (8 * r), fmtDbase f + q / (8 * r) * r) else none

/-- The byte address of a block's codebook table (R54). -/
def tableOf (f : BitVec 256) (b : Nat) : Nat := fmtTbase f + (if fmtL f = 0 then 0 else b * 2 ^ (fmtK f + 1))

/-- A range of a codebook's table read: it is no load of tile data (R54, R206). -/
def readTable (s : State) (k : Who) (f : BitVec 256) (a n : Nat) : Got :=
  if fmtCbs f then readLocal s k true false true a n else readLog s k false false a n

/-- Values of a table of bf16 entries. -/
def tableVals : Nat → List Byte → List Val
  | 0, _ => []
  | n + 1, l => unpack bf16 (ofBytes (l.take 2)) :: tableVals n (l.drop 2)

/-- A decoded element times its scale, as f32 with its flags (R44, R47, R52). -/
def elemValue (v sc : Val) (scaled : Bool) : Word × Nat :=
  let x := if scaled then scaledVal v sc else v
  let bad := v.isSig || (scaled && (sc.isSig || (x.isNan && !v.isNan && !sc.isNan)))
  let r := roundVal f32 x
  (BitVec.ofNat 32 r.1, r.2 ||| flagIf bad flagNV)

/-- The decode of the element at a bit address (R213): its f32, flags and highest GEN, or what stands in the way. `rd` reads
the accessed space, `tb` the space of codebook tables. -/
def decodeWith (rd tb : Nat → Nat → Got) (f : BitVec 256) (p : Nat) : Except Got (Word × Nat × Nat) :=
  match elemPlace f p with
  | none => .error (.trap { code := 0x09, addr := BitVec.ofNat 64 p })
  | some (b, sa) =>
    let w := elemBits f
    let data := rd (p / 8) ((p + (w - 1)) / 8 - p / 8 + 1)
    let scaled := fmtSck f ≠ 0
    let scale := if scaled then rd sa (scaleSize f) else .ok [] 0
    let code := (ofBytes data.bytes >>> (p % 8)) % 2 ^ w
    let entry := if fmtK f ≠ 0 && data.isOk then tb (tableOf f b + 2 * code) 2 else .ok [] 0
    match allGot [data, scale, entry] with
    | .ok _ g =>
      let v := if fmtK f = 0 then narVal f code else unpack bf16 (ofBytes entry.bytes)
      let (x, fl) := elemValue v (scaleVal f (ofBytes scale.bytes)) scaled
      .ok (x, fl, g)
    | e => .error e

/-- An f32 encoded against a scale and a table (R53, R54, R56), with its flags. -/
def encodeValue (f : BitVec 256) (scaled : Bool) (sc : Nat) (table : List Byte) (x : Word) : Nat × Nat :=
  let v := unpack f32 x.toNat
  let s := scaleVal f sc
  if scaled && badScale s then (0, flagNV)
  else
    let u := if scaled then v.divBy s else v
    let (c, fl) := if fmtK f = 0 then encodeNar f u else encodeBook (tableVals (2 ^ fmtK f) table) u
    (c, fl ||| flagIf v.isSig flagNV)

/-- The code that a store of an f32 writes at a bit address (R213, R56), with its flags, or what stands in the way. `ck`
checks the bytes written, `rd` reads the stored scale, `tb` the table. -/
def encodeWith (ck rd tb : Nat → Nat → Got) (f : BitVec 256) (p : Nat) (x : Word) : Except Got (Nat × Nat) :=
  match elemPlace f p with
  | none => .error (.trap { code := 0x09, addr := BitVec.ofNat 64 p, wr := true })
  | some (b, sa) =>
    let w := elemBits f
    let data := ck (p / 8) ((p + (w - 1)) / 8 - p / 8 + 1)
    let scaled := fmtSck f ≠ 0
    let scale := if scaled then rd sa (scaleSize f) else .ok [] 0
    let table := if fmtK f ≠ 0 then tb (tableOf f b) (2 ^ (fmtK f + 1)) else .ok [] 0
    match allGot [data, scale, table] with
    | .ok _ _ => .ok (encodeValue f scaled (ofBytes scale.bytes) table.bytes x)
    | e => .error e

/-- The decode of an item's element. -/
def decodeElem (s : State) (k : Who) (sp : Space) (raw : Bool) (f : BitVec 256) (p : Nat) : Except Got (Word × Nat × Nat) :=
  decodeWith (readSpace s k sp false raw) (readTable s k f) f p

/-- The stored scale that a store encodes against: read, and never written (R213); a cause it meets is the store's
(R267). -/
def readScale (s : State) (k : Who) (sp : Space) (a n : Nat) : Got :=
  match readSpace s k sp false true a n with
  | .trap t => .trap { t with wr := true }
  | g => g

/-- The encode of an item's element. -/
def encodeElem (s : State) (k : Who) (sp : Space) (f : BitVec 256) (p : Nat) (x : Word) : Except Got (Nat × Nat) :=
  encodeWith (checkSpace s k sp true) (readScale s k sp) (readTable s k f) f p x

end Sys2Proof.Machine
end

