-- ==== Sys2Proof/Machine/Memory.lean ====
section
/-!
DEFINITION. Loads, stores, `spill`, `fill` and `fence`, opcodes 0x60 to 0x65, 0x6B, 0x6E and 0x6F (R207 to R217, R226 to
R228, R235): one shared operation over the space, the size and the direction.
-/
namespace Sys2Proof.Machine

/-- A load or store as data. -/
structure MemSpec where
  sp : Space
  store : Bool
  d : Field7
  a : Field7
  off : BitVec 5
  sz : Nat
  x : Bool
  ext : Word
  chained : Bool
  deriving DecidableEq, Repr

/-- Words that an access moves (R210). -/
def MemSpec.words (m : MemSpec) : Nat := if m.sz = 3 then 1 else 2 ^ m.sz
/-- Length of the instruction (R67). -/
def MemSpec.len (m : MemSpec) : Nat := if m.x then 2 else 1
/-- The address is 64 bits wide (R77). -/
def MemSpec.wide (m : MemSpec) : Bool := m.sp = .log || m.sp = .spill
/-- The modifier in force (R75, R76). -/
def MemSpec.mod (m : MemSpec) : MemMod := memMod (modOf (some m.d) [m.a] m.x m.ext)
/-- Registers that the access names and reads. -/
def MemSpec.uses (m : MemSpec) : Uses :=
  let a := (m.a, if m.wide then 2 else 1)
  { named := [(m.d, m.words), a], read := if m.store then [a, (m.d, m.words)] else [a], ext := m.ext }

/-- An address operand with offsets of a unit added (R78). -/
def effAddr (wide : Bool) (a : Nat) (off : BitVec 5) (xoff : Int) (unit : Nat) : Nat :=
  ((((a : Int) + (off.toInt + xoff) * unit) % (if wide then 2 ^ 64 else 2 ^ 32 : Int))).toNat

/-- What an access of one item comes to when nothing stands in its way: its address, a bit address for an element of
`bits` bits; the words read or to be written; flags and highest GEN. -/
structure Hit where
  addr : Nat
  ws : List Word := []
  fl : Nat := 0
  gen : Nat := 0
  bits : Nat := 0
  /-- a helper's store: no effect (R20) -/
  idle : Bool := false
  deriving DecidableEq, Repr

/-- The words of a byte list. -/
def wordsIn : Nat → List Byte → List Word
  | 0, _ => []
  | n + 1, l => headWord l :: wordsIn n (l.drop 4)

/-- A result of an access part as a result of the whole. -/
def gotHit (g : Got) (f : List Byte → Nat → Hit) : Except Got Hit :=
  match g with
  | .ok l n => .ok (f l n)
  | e => .error e

/-- The address operand of an item. -/
def MemSpec.base (m : MemSpec) (s : State) (gang g p : Nat) : Nat :=
  (srcAt (gangAt s gang).oneD (groupAt s gang g) p m.ext { f := m.a, wide := m.wide }).toNat

/-- The words that a store of an item writes, lowest address first (R210). D = 120 names no register to read: its words are
zero (DESIGN CHOICE, log entry 22). -/
def dataWords (s : State) (gang g p : Nat) (d : Field7) (ext : Word) (n : Nat) : List Word :=
  let oneD := (gangAt s gang).oneD
  let x := groupAt s gang g
  if isV d then (upTo d.toNat n).map (fun r => vAt oneD x r p)
  else if d = 124 then (upTo (extS ext) n).map (fun r => tget x.s r 0)
  else List.replicate n 0

/-- The format register of an SZ = 11 access: its number, or what stands in the way (R211). With IPF = 0 the leaf names it,
whatever its access bits say: what they deny comes after FORMAT_INVALID and ALIGN (R209). -/
def MemSpec.fmtNo (m : MemSpec) (s : State) (k : Who) (a : Nat) : Except Got Nat :=
  if m.mod.ipf then .ok m.mod.fov
  else if 2 ^ 57 ≤ a / 8 then .error (.trap { code := 0x0C, addr := BitVec.ofNat 64 (a / 8), wr := m.store })
  else match anyLeaf s k.core k.ans m.store k.asid (vpnOf (a / 8)) with
    | .fault c => .error (.trap { code := c, addr := BitVec.ofNat 64 (a / 8), wr := m.store })
    | .miss => .error (.walk (vpnOf (a / 8)))
    | .ok l => .ok (leafFslot l)

/-- A format that an access in this space can use (R48, R211). -/
def fmtUsable (f : BitVec 256) (sp : Space) : Bool :=
  f ≠ 0 && (sp = .log || (fmtDbase f < 2 ^ 32 && fmtSbase f < 2 ^ 32))

/-- An element access of an item (R211 to R213). -/
def MemSpec.planElem (m : MemSpec) (s : State) (k : Who) (g p : Nat) : Except Got Hit :=
  let a := m.base s k.gang g p
  match m.fmtNo s k a with
  | .error e => .error e
  | .ok n =>
    let f := fmtOf (gangAt s k.gang) n
    if !fmtUsable f m.sp then .error (.trap { code := 0x10, sub := n, wr := m.store })
    else
      let ea := effAddr m.wide a m.off m.mod.xoff (elemBits f)
      if (elemPlace f a).isNone || (elemPlace f ea).isNone then
        .error (.trap { code := 0x09, addr := BitVec.ofNat 64 ea, wr := m.store })
      else if m.store then
        match encodeElem s k m.sp f ea ((dataWords s k.gang g p m.d m.ext 1).headD 0) with
        | .error e => .error e
        | .ok (c, fl) => .ok { addr := ea, ws := [BitVec.ofNat 32 c], fl, bits := elemBits f }
      else
        match decodeElem s k m.sp false f ea with
        | .error e => .error e
        | .ok (v, fl, gen) => .ok { addr := ea, ws := [v], fl, gen }

/-- Bytes of an item's region that it never spilled read as free values (R7, R235). -/
def freeBytes (s : State) (t : Item) (g p ea : Nat) (l : List Byte) : List Byte :=
  (upTo 0 l.length).map (fun i =>
    if t.spilled.contains (ea + i) then nth l i 0
    else (Config.freeWord (s.free + 16 * (32 * g + p) + i)).setWidth 8)

/-- A word access of an item (R205, R208, R209). -/
def MemSpec.planWords (m : MemSpec) (s : State) (k : Who) (g p : Nat) : Except Got Hit :=
  let n := 4 * m.words
  let ea := effAddr m.wide (m.base s k.gang g p) m.off m.mod.xoff n
  let ws := if m.store then dataWords s k.gang g p m.d m.ext m.words else []
  let done (l : List Byte) (gen : Nat) : Hit := { addr := ea, ws := if m.store then ws else wordsIn m.words l, gen }
  if ea % n ≠ 0 then .error (.trap { code := 0x09, addr := BitVec.ofNat 64 ea, wr := m.store })
  else match m.sp with
    | .spill =>
      let gg := gangAt s k.gang
      let t := itemAt s k.gang g p
      let va := (regionBase gg g p + ea) % 2 ^ 64
      if 2 ^ 63 ≤ ea || spillSize gg / 32 < ea + n + 8 * t.depth then
        .error (.trap { code := 0x0A, addr := BitVec.ofNat 64 va, wr := m.store })
      else if m.store then gotHit (checkSpace s k .spill true va n) (fun l z => { done l z with addr := va })
      else gotHit (readSpace s k .spill false false va n) (fun l z => { done (freeBytes s t g p ea l) z with addr := va })
    | sp =>
      if m.store then gotHit (checkSpace s k sp true ea n) done
      else gotHit (readSpace s k sp false m.mod.ipf ea n) done

/-- An access of one item: a helper's store has no effect (R20). -/
def MemSpec.plan (m : MemSpec) (s : State) (w : Where) (g p : Nat) : Except Got Hit :=
  if m.store && (itemAt s w.b.gang g p).helper then .ok { addr := 0, idle := true }
  else if m.sz = 3 then m.planElem s (whoOf s w g p) g p else m.planWords s (whoOf s w g p) g p

/-- Ranges of local memory that an access reads: (scratchpad, offset, length). -/
def MemSpec.reads (m : MemSpec) (s : State) (w : Where) (g p : Nat) : List (Bool × Nat × Nat) :=
  let k := whoOf s w g p
  let here (a n : Nat) : List (Bool × Nat × Nat) := match m.sp with
    | .gang => [(false, a, n)]
    | .spad => [(true, a, n)]
    | _ => []
  let a := m.base s w.b.gang g p
  if m.sz ≠ 3 then (if m.store then [] else here (effAddr m.wide a m.off m.mod.xoff (4 * m.words)) (4 * m.words))
  else match m.fmtNo s k a with
    | .error _ => []
    | .ok n =>
      let f := fmtOf (gangAt s w.b.gang) n
      let ea := effAddr m.wide a m.off m.mod.xoff (elemBits f)
      match elemPlace f ea with
      | none => []
      | some (b, sa) =>
        let data := here (ea / 8) ((ea + (elemBits f - 1)) / 8 - ea / 8 + 1)
        let scale := if fmtSck f = 0 then [] else here sa (scaleSize f)
        let table := if fmtK f = 0 || !fmtCbs f then [] else
          let code := (ofBytes ((readSpace s k m.sp false true (ea / 8) 2).bytes) >>> (ea % 8)) % 2 ^ fmtK f
          if m.store then [(true, tableOf f b, 2 ^ (fmtK f + 1))] else [(true, tableOf f b + 2 * code, 2)]
        (if m.store then [] else data) ++ scale ++ table

/-- What the accesses of a bundle come to. -/
structure Plans where
  walks : List Nat := []
  hits : List (Nat × Nat × Hit) := []
  traps : List (Nat × Nat × Trap) := []
  zero : List (Nat × Nat) := []
  absent : List (Nat × Nat × Nat) := []
  deriving DecidableEq, Repr

/-- The accesses of the members that act, sorted by their outcome. -/
def planAll (s : State) (gang : Nat) (plan : Nat → Nat → Except Got Hit) : List (Nat × Nat) → Plans
  | [] => {}
  | (g, p) :: r =>
    let k := planAll s gang plan r
    match plan g p with
    | .ok h => { k with hits := (g, p, h) :: k.hits }
    | .error (.walk v) => { k with walks := v :: k.walks }
    | .error (.absent off) => { k with absent := (g, p, off) :: k.absent }
    | .error (.trap t) =>
      if (itemAt s gang g p).helper then { k with zero := (g, p) :: k.zero }
      else { k with traps := (g, p, t) :: k.traps }
    | .error (.ok _ _) => k

/-- The bundle waits for pages to be walked (R329). -/
def stallWalks (s : State) (asid : Nat) (pages : List Nat) : State :=
  (nodup pages).foldl (fun s v => match issuing s with
    | some w => stallWalk s w asid v
    | none => s) s

/-- Results put into their destinations and rings: an s register takes the word of the lowest real item (R25, R27,
R210). -/
def deliverWords (s : State) (gang : Nat) (d : Field7) (ext : Word) (rs : List (Nat × Nat × List Word)) : State :=
  let oneD := (gangAt s gang).oneD
  let s := rs.foldl (fun s (g, p, ws) => updGroup s gang g (fun x => giveWords oneD x p d ws)) s
  if d ≠ 124 then s
  else (nodup (rs.map Prod.fst)).foldl (fun s g => updGroup s gang g (fun x =>
    match sWriter x ((rs.filter (fun r => r.1 = g)).map (fun r => r.2.1)) with
    | none => x
    | some p => match rs.find? (fun r => r.1 = g && r.2.1 = p) with
      | some (_, _, v :: _) => putS x (extS ext) v
      | _ => x)) s

/-- Flags of real items ORed into their groups' words (R26, R121). -/
def deliverFlags (s : State) (gang : Nat) (hs : List (Nat × Nat × Hit)) : State :=
  hs.foldl (fun s (g, p, h) =>
    if (itemAt s gang g p).helper || h.fl = 0 then s else updGroup s gang g (fun x => groupFlags x h.fl)) s

/-- Atomic results of an item that a load of some sectors must see, as yet unpublished (R225, R339). -/
def atomicWaits (s : State) (core gang g p : Nat) (keys : List Nat) : List (Nat × Nat) :=
  ((coreAt s core).atomics.filter (fun a => a.gang = gang && a.g = g && a.gpos = p && keys.contains a.key &&
    unpublished s (32 + a.die) a.asid a.mark 4)).map (fun a => (a.die, a.mark))

/-- A store performed in log memory or a spill stack, bit for bit for an element (R213, R216), under the leaves that the
access found in `s0`: none when the tail buffer is full. -/
def storeLog (s0 s : State) (k : Who) (priv : Bool) (h : Hit) : Option State :=
  if h.idle then some s
  else
    let wid := clusterOf k.core
    let va := if h.bits = 0 then h.addr else h.addr / 8
    let n := if h.bits = 0 then 4 * h.ws.length else (h.addr + (h.bits - 1)) / 8 - va + 1
    match whoXlate s0 k true priv va n with
    | .ok ls =>
      let bs := if h.bits = 0 then h.ws.flatMap wordBytes else
        let old := (sectorsOf va n).flatMap (fun a =>
          (readSector s wid (dieOf k.core) k.asid (keyOf (leafIn ls a) a)).data)
        layBits ((old.drop (va % 32)).take n) (h.addr % 8) h.bits ((h.ws.headD 0).toNat)
      let bm := if h.bits = 0 then [] else layBits (List.replicate n 0) (h.addr % 8) h.bits (2 ^ h.bits - 1)
      storeBytes s k.core wid k.asid ls va bs bm
    | _ => some s

/-- A store performed in local memory (R206, R213 to R215). -/
def storeLocal (s : State) (gang : Nat) (spad raw : Bool) (h : Hit) : State :=
  if h.idle then s
  else
    let l := localOf s gang spad
    if h.bits = 0 then setLocal s gang spad (writeLocal l h.addr (h.ws.flatMap wordBytes) raw)
    else
      let a := h.addr / 8
      let n := (h.addr + (h.bits - 1)) / 8 - a + 1
      setLocal s gang spad (writeLocal l a (layBits (mread l.mem a n) (h.addr % 8) h.bits (h.ws.headD 0).toNat) false)

/-- Stores performed in order (R209), each under the leaves found in `s0`. -/
def MemSpec.storeAll (m : MemSpec) (w : Where) (s0 : State) : State → List (Nat × Nat × Hit) → Option State
  | s, [] => some s
  | s, (g, p, h) :: r =>
    let k := whoOf s w g p
    match m.sp with
    | .gang => m.storeAll w s0 (storeLocal s w.b.gang false m.mod.ipf h) r
    | .spad => m.storeAll w s0 (storeLocal s w.b.gang true m.mod.ipf h) r
    | sp =>
      match storeLog s0 s k (sp = .spill) h with
      | none => none
      | some s =>
        let gg := gangAt s w.b.gang
        let s := if sp = .spill && !h.idle then updItem s w.b.gang g p (fun t => { t with
            spilled := (upTo (h.addr - regionBase gg g p) (4 * h.ws.length)).foldl (fun l o => putNum o l) t.spilled })
          else s
        m.storeAll w s0 s r

/-- The accesses of real items: those of helpers change no cache (R20). -/
def realHits (s : State) (gang : Nat) (hs : List (Nat × Nat × Hit)) : List (Nat × Nat × Hit) :=
  hs.filter (fun h => !(itemAt s gang h.1 h.2.1).helper)

/-- What a load leaves in the caches (R330, R335). -/
def MemSpec.loadAll (m : MemSpec) (s : State) (w : Where) (hs : List (Nat × Nat × Hit)) : State :=
  if !m.wide then s
  else (realHits s w.b.gang hs).foldl (fun s (g, p, h) =>
    let va := if m.sz = 3 then h.addr / 8 else h.addr
    let n := if m.sz = 3 then 1 else 4 * m.words
    match whoXlate s (whoOf s w g p) false (m.sp = .spill) va n with
    | .ok ls => fillBytes s w.core (gangAt s w.b.gang).asid ls va n m.mod.cp
    | _ => s) s

/-- Registers whose load has not returned (R210): one tag for the loads of an instruction. -/
def boardAll (s : State) (gang : Nat) (d : Field7) (n : Nat) (ms : List (Nat × Nat)) : State :=
  if !isV d then s
  else
    let (tag, s) := newName s
    ms.foldl (fun s (g, p) => updGroup s gang g (fun x => { x with
      board := x.board ++ (upTo d.toNat n).map (fun r => { gpos := p, reg := r, tag := tag }) })) s

/-- A release before an access or fence (R226, R228): none when its conditions hold at once. -/
def beginRelease (s : State) (w : Where) (scope : Nat) : Option State :=
  let r := makeRelease s w.core w.b.gang (gangAt s w.b.gang).asid scope
  if w.b.prog.released || released s r then none else some (stallOn (pushAllRelease s r) w (.release r))

/-- Some member that acts is a real item. -/
def anyReal (s : State) (gang : Nat) (ms : List (Nat × Nat)) : Bool := ms.any (fun (g, p) => !(itemAt s gang g p).helper)

/-- The end of a memory instruction whose accesses are performed: items at absent lines wait (R215), traps are delivered,
and the rest goes on at once or after a stall (R227, R228). -/
def memEnd (s : State) (w : Where) (k : Sifted) (ps : Plans) (d : Field7) (n len : Nat) (chained : Bool)
    (post : Option Stall) : State :=
  let gang := w.b.gang
  let s := ps.absent.foldl (fun s (g, p, off) => updItem s gang g p (fun t => { t with wait := .line off s.now })) s
  let ms := w.b.members.filter (fun m => !ps.absent.any (fun a => (a.1, a.2.1) = m))
  let kk : Sifted := { go := ps.hits.map (fun h => (h.1, h.2.1)), traps := k.traps ++ ps.traps, zero := k.zero ++ ps.zero }
  let rest := ms.filter (fun m => !kk.traps.any (fun t => (t.1, t.2.1) = m))
  match post, rest with
  | some st, _ :: _ =>
    let s := deliverAll (zeroWords s gang d n kk.zero) w kk.traps
    updBundle s w (fun b => { b with members := rest, stall := some st, prog := { b.prog with done := true } })
  | _, _ => conclude s { w with b := { w.b with members := ms } } kk d n len { chained } false

/-- An acquire after an access (R226, R228): what is left to wait for. -/
def afterAcquire (s : State) (w : Where) (scope : Nat) : State × Option Stall :=
  let (s, marks) := makeAcquire s w.core scope
  (s, if marks.isEmpty then none else some (.acquire marks))

/-- A release performed together with the stores it covers (R216, R228). -/
def afterRelease (s : State) (w : Where) (scope : Nat) : State × Option Stall :=
  let r := makeRelease s w.core w.b.gang (gangAt s w.b.gang).asid scope
  let s := pushAllRelease s r
  (s, if released s r then none else some (.release r))

/-- The latch rings go before a switch-point row of R146 issues. -/
def MemSpec.drops (m : MemSpec) (s : State) (w : Where) : Bool :=
  let f := fmtOf (gangAt s w.b.gang) m.mod.fov
  m.sp = .spad || (m.sz = 3 && w.b.cidx = 0 && ((m.sp = .log && !m.mod.ipf) || (m.mod.ipf && fmtK f ≠ 0 && fmtCbs f)))

/-- What a load with a GEN above SEEN, or the first load after a reinstatement, waits for (R317, R383). Such a load returns
nothing before its die has applied the publication: only then do the core's lines of the ASID go and SEEN rise, and the load
is issued again, so no load of the core observes a part of it. -/
def loadGate (s : State) (w : Where) (asid gen : Nat) : Option State :=
  let g := gangAt s w.b.gang
  if g.acquire then
    let (s, marks) := makeAcquire (setGang s w.b.gang { g with acquire := false }) w.core 4
    some (stallOn s w (.acquire marks))
  else if seenOf s w.core asid < gen then
    if gen ≤ appliedOf s (dieOf w.core) asid then some (stallOn (raiseSeen s w.core asid gen) w (.acquire []))
    else some (stallOn s w (.acquire [(4 * asid + dieOf w.core, gen)]))
  else none

/-- A load that must see its item's own atomic results waits until the atomic units have published them (R225). -/
def MemSpec.atomicGate (m : MemSpec) (s : State) (w : Where) (hs : List (Nat × Nat × Hit)) : Option State :=
  let asid := (gangAt s w.b.gang).asid
  let waits := nodup (hs.flatMap (fun (g, p, h) =>
    let va := if m.sz = 3 then h.addr / 8 else h.addr
    let n := if m.sz = 3 then 2 else 4 * m.words
    match whoXlate s (whoOf s w g p) false (m.sp = .spill) va n with
    | .ok ls => atomicWaits s w.core w.b.gang g p ((sectorsOf va n).map (fun a => keyOf (leafIn ls a) a))
    | _ => []))
  if waits.isEmpty then none
  else
    let r : Release := { scope := 4, asid, wid := clusterOf w.core, mark := 0, atomics := waits, gang := w.b.gang }
    some (stallOn (pushAllRelease s r) w (.release r))

/-- The accesses of a load or store performed and the instruction ended (R210, R214 to R217). -/
def MemSpec.finish (m : MemSpec) (s : State) (w : Where) (k : Sifted) (ps : Plans) : State :=
  let gang := w.b.gang
  let asid := (gangAt s gang).asid
  let real := anyReal s gang (ps.hits.map (fun h => (h.1, h.2.1)))
  if m.store then
    match m.storeAll w s s ps.hits with
    | none => stallOn s w .tailFull
    | some s =>
      let s := deliverFlags s gang ps.hits
      let (s, post) := if m.mod.ord = 2 && m.sp = .log && 3 ≤ m.mod.scope && real then afterRelease s w m.mod.scope
        else (s, none)
      memEnd s w k ps 120 0 m.len m.chained post
  else
    let seen := realHits s gang ps.hits
    let top := (seen.map (fun h => h.2.2.gen)).foldl max 0
    match (if m.wide && !seen.isEmpty then (m.atomicGate s w seen).or (loadGate s w asid top) else none) with
    | some s => s
    | none =>
      let s := m.loadAll s w ps.hits
      let s := { s with free := if m.sp = .spill then s.free + 2 ^ 24 else s.free }
      let s := deliverFlags (deliverWords s gang m.d m.ext (ps.hits.map (fun (g, p, h) => (g, p, h.ws)))) gang ps.hits
      let s := if m.sp = .gang then s else boardAll s gang m.d m.words (ps.hits.map (fun h => (h.1, h.2.1)))
      let (s, post) := if m.mod.ord = 1 && real then afterAcquire s w m.mod.scope else (s, none)
      memEnd s w k ps m.d m.words m.len m.chained post

/-- The checks that stand before any access of a bundle (R83, R143, R210), `early` before those of the operands: the bundle
has stalled or trapped, or the members that act. `dsts` are the registers that become BODY. -/
def siftFor (s : State) (w : Where) (u : Uses) (dsts : List Nat) (early : State → Nat → Nat → Option Trap) :
    State × Option Sifted :=
  let gang := w.b.gang
  if awaitsLoad s gang w.b.members u then (stallOn s w .loads, none)
  else
    let s := meetErrors s w w.b.members u
    let k := sift s gang (fun g p =>
      let x := groupAt s gang g
      (early s g p).or ((earlyTrap x p u).or ((pastTrap w).or (useTrap x p u)))) w.b.members
    let touch := (groupsOf k.go).flatMap (fun g =>
      let x := groupAt s gang g
      (bodyRegs x u.read ++ dsts ++ (match dsts.getLast? with
        | some r => brokenHigh x r 1
        | none => [])).map (fun r => (g, r)))
    let miss := missingBanks s w touch
    if w.b.prog.past.isSome then (runOff s w k, none)
    else if miss.isEmpty then (usedBanks s w touch, some k) else (stallBanks (usedBanks s w touch) w miss, none)

/-- The checks of an instruction without a privilege of its own. -/
def memSift (s : State) (w : Where) (u : Uses) (dsts : List Nat) : State × Option Sifted :=
  siftFor s w u dsts (fun _ _ _ => none)

/-- A load or store issued for a bundle or a span (R163, R209). -/
def memStep (m : MemSpec) (s : State) : State :=
  match issuing s with
  | none => s
  | some w =>
    match w.b.span with
    | some i => pourOrDeal s w i (spanTrap (spanAt s i) m.uses)
    | none =>
      if w.b.prog.done then conclude s w (allGo w) 120 0 m.len { chained := m.chained } false
      else
        let s := if m.drops s w then dropRings s w.b.gang w.b.members else s
        match memSift s w m.uses (if !m.store && isV m.d then upTo m.d.toNat m.words else []) with
        | (s, none) => s
        | (s, some k) =>
          let s := k.go.foldl (fun s (g, p) => (m.reads s w g p).foldl (fun s r =>
            meetLocal s w.core w.b.gang r.1 [r.2]) s) s
          let ps := planAll s w.b.gang (fun g p => m.plan s w g p) (byGpos k.go)
          if !ps.walks.isEmpty then stallWalks s (gangAt s w.b.gang).asid ps.walks
          else match (if m.sp = .spad || w.b.cidx = 0 then none else ps.absent.head?) with
            | some (_, _, off) => stallOn (count s w.core 0x04 1) w (.tableLine off s.now)
            | none =>
              let before := m.store && m.mod.ord = 2 && !(m.sp = .log && 3 ≤ m.mod.scope) && anyReal s w.b.gang k.go
              match (if before then beginRelease s w m.mod.scope else none) with
              | some s => s
              | none => m.finish s w k ps

/-- A load as data. -/
def loadSpec (sp : Space) (o : MemOp) : MemSpec :=
  { sp, store := false, d := o.d, a := o.a, off := o.off, sz := o.sz.toNat, x := o.x, ext := o.ext, chained := o.c }
/-- A store as data. -/
def storeSpec (sp : Space) (o : StoreOp) : MemSpec :=
  { sp, store := true, d := o.d, a := o.a, off := o.off, sz := o.sz.toNat, x := o.x, ext := o.ext, chained := o.c }

/-- `fence`: its release, then its acquire (R226, R227). In a span it does the same without a pour (R163). -/
def fenceStep (o : FenceOp) (s : State) : State :=
  match issuing s with
  | none => s
  | some w =>
    let m := memMod o.ext.toNat
    let rel := 2 ≤ m.ord
    let acq := m.ord % 2 = 1
    let real := w.b.span.isSome || anyReal s w.b.gang w.b.members
    let asid := (issuePoint s w).2.1
    -- one of system scope completes ABORTED after a fill that its peer discarded (R440)
    let lost := rel && m.scope = 5 && w.b.members.any (fun x => !(itemAt s w.b.gang x.1 x.2).helper && (itemAt s w.b.gang x.1 x.2).aborted)
    let fin (s : State) : State := match w.b.span with
      | some i => spanEnd (spanAdvance s i 2) w i o.c false
      | none =>
        let s := if lost then setGang s w.b.gang { gangAt s w.b.gang with fabrt := true } else s
        conclude s w (allGo w) 120 0 2 { chained := o.c } false
    let hold (s : State) (st : Stall) : State :=
      stallOn (updBundle s w (fun b => { b with prog := { b.prog with fence := true } })) w st
    if !real then fin s
    else
      let r := makeRelease s w.core w.b.gang asid m.scope
      if rel && !w.b.prog.released && !released s r then hold (pushAllRelease s r) (.release r)
      else if acq && !w.b.prog.acquired then
        let (s, marks) := makeAcquire s w.core m.scope
        if marks.isEmpty then fin s else hold s (.acquire marks)
      else fin s

/-- LDV (R210, R216). -/
def execLdv (o : MemOp) (s : State) : Out := .next (memStep (loadSpec .log o) s)
/-- STV (R210, R216). -/
def execStv (o : StoreOp) (s : State) : Out := .next (memStep (storeSpec .log o) s)
/-- LDK (R210, R214). -/
def execLdk (o : MemOp) (s : State) : Out := .next (memStep (loadSpec .gang o) s)
/-- STK (R210, R214). -/
def execStk (o : StoreOp) (s : State) : Out := .next (memStep (storeSpec .gang o) s)
/-- LDD (R210, R215). -/
def execLdd (o : MemOp) (s : State) : Out := .next (memStep (loadSpec .spad o) s)
/-- STD (R210, R215). -/
def execStd (o : StoreOp) (s : State) : Out := .next (memStep (storeSpec .spad o) s)
/-- FENCE (R226). -/
def execFence (o : FenceOp) (s : State) : Out := .next (fenceStep o s)
/-- SPILL (R235). -/
def execSpill (o : StoreOp) (s : State) : Out := .next (memStep (storeSpec .spill o) s)
/-- FILL (R235). -/
def execFill (o : MemOp) (s : State) : Out := .next (memStep (loadSpec .spill o) s)

end Sys2Proof.Machine
end

