-- ==== Sys2Proof/Machine/Send.lean ====
section
/-!
DEFINITION. Packets that this chip originates (R431 to R433, R443), and fills (R219 to R221, R440): performing one, handing a
full word to those that wait for it, and the queue of fills that cannot be performed yet.
-/
namespace Sys2Proof.Machine

/-- The class that an OP fixes: 0 ordered, 1 bulk, 2 management (R432). -/
def opClass (op : Nat) : Option Nat :=
  if [0x02, 0x04, 0x06, 0x07, 0x0B, 0x0C, 0x0D, 0x0E, 0x0F, 0x16].contains op then some 0
  else if [0x01, 0x03, 0x05, 0x08, 0x09, 0x0A, 0x15].contains op then some 1
  else if 0x10 ≤ op && op ≤ 0x14 then some 2
  else none

/-- An OP that is acknowledged by DACK (R433). -/
def opAcked (op : Nat) : Bool :=
  (opClass op = some 0 || opClass op = some 1) && op ≠ 0x06 && op ≠ 0x0C && op ≠ 0x0F

/-- This chip's endpoint (R451). -/
def ownEp (s : State) : Nat := s.fabric.fabid.toNat % 2 ^ 14
/-- A launch-domain entry (R443). -/
def ldtEntry (s : State) (rgrp : Nat) : Nat := (tget s.fabric.ldt rgrp 0).toNat
/-- The endpoint of a chip index (R443). -/
def memberEp (e j : Nat) : Nat := bits e (141 + 14 * j) (128 + 14 * j)
/-- RGRP of a replicated launch (R392). -/
def pktRgrp (p : BitVec 512) : Nat := pkt p 247 240
/-- SGEN of a replicated launch (R392). -/
def pktSgen (p : BitVec 512) : Nat := pkt p 255 248

/-- A TAG that no unacknowledged packet of this chip carries, from a number on (R431). -/
def freeTag (sent : List SentPkt) : Nat → Nat → Nat
  | 0, t => t % 65536
  | n + 1, t => if sent.any (fun p => p.pkt.tag.toNat = t % 65536) then freeTag sent n (t + 1) else t % 65536

/-- A packet originated by this chip: it waits to be routed, and for its DACK where it has one (R431, R433). The TAG is
answered. -/
def sendPacket (s : State) (op dest pkey asid : Nat) (addr aux : DWord) (payload : List Byte) (who : Sender) :
    Nat × State :=
  let f := s.fabric
  let tag := freeTag f.sent f.sent.length f.nextTag
  let p : Packet := {
    addr, tag := BitVec.ofNat 16 tag, asid := BitVec.ofNat 12 asid, pkey := BitVec.ofNat 16 pkey
    op := BitVec.ofNat 6 op, cls := BitVec.ofNat 2 ((opClass op).getD 3), src := BitVec.ofNat 14 (ownEp s)
    dest := BitVec.ofNat 14 dest, hop := 31, aux, resv := false, payload }
  (tag, { s with fabric := { f with
    nextTag := tag + 1, inq := f.inq ++ [p]
    sent := if opAcked op then f.sent ++ [{ pkt := p, sentAt := s.now, tries := 1, who }] else f.sent } })

/-- The DACK of a packet with a status; an ordered packet is remembered as performed (R433). -/
def sendDack (s : State) (p : Packet) (status : Nat) : State :=
  let known := s.fabric.performed.any (fun x => x.1 = p.src.toNat && x.2.1 = p.tag.toNat)
  let f := if p.cls = 0 && !known then
      { s.fabric with performed := s.fabric.performed ++ [(p.src.toNat, p.tag.toNat, s.now, status)] } else s.fabric
  let q : Packet := {
    addr := p.addr, tag := p.tag, asid := p.asid, pkey := p.pkey, op := 0x06, cls := 0, src := BitVec.ofNat 14 (ownEp s)
    dest := p.src, hop := 31, aux := BitVec.ofNat 64 status, resv := false, payload := [] }
  { s with fabric := { f with inq := f.inq ++ [q] } }

/-- The local memory a fill names on this chip (R220). -/
def targetLocal (s : State) : FillTarget → Local
  | .gang g => gangLocal s g
  | .spad d l => dieLocal s d l
  | .remote _ _ _ => {}
/-- That memory changed. -/
def setTarget (s : State) (t : FillTarget) (l : Local) : State :=
  match t with
  | .gang g => if (tfind s.gangs g).isSome then setGangLocal s g l else s
  | .spad d n => setDieLocal s d n l
  | .remote _ _ _ => s

/-- An item that waits for a full word: gang, group, position, residence (R219). -/
structure Waiter where
  gang : Nat
  g : Nat
  p : Nat
  res : Nat
  take : Bool
  since : Nat
  ready : Nat
  deriving DecidableEq, Repr

/-- The items that wait in `ldf` for a word of a memory (R219). -/
def fullWaiters (s : State) (t : FillTarget) (off : Nat) : List Waiter :=
  let gs : List (Nat × Gang) := match t with
    | .gang g => s.gangs.filter (fun k => k.1 = g)
    | .spad d l => s.gangs.filter (fun k => k.2.die = d && k.2.launch = l)
    | .remote _ _ _ => []
  let spad := match t with
    | .spad _ _ => true
    | _ => false
  gs.flatMap (fun (gi, k) => k.groups.flatMap (fun (i, x) => x.items.filterMap (fun (p, t) =>
    match t.wait with
    | .full sp o take since =>
      if sp = spad && o = off then some { gang := gi, g := i, p, res := x.res, take, since, ready := t.readyAt } else none
    | _ => none)))

/-- Order of the takers of a word: ready time, residence, position, then the time since they wait (R219). -/
def waiterKey (w : Waiter) : Nat := ((w.ready * 2 ^ 20 + w.res) * 32 + w.p) * 2 ^ 80 + w.since

/-- A waiter handed a word: it can issue its `ldf` again and receives it (R219). -/
def grantWord (s : State) (w : Word) (x : Waiter) : State :=
  updItem s x.gang x.g x.p (fun t => { t with wait := .granted w, readyAt := s.now })

/-- A full word of a present line handed to those that wait for it: every peeker, then one taker (R219). Where the word now
holds frequency data or lost data, they issue again and meet the cause (R206, R217). -/
def serveWord (s : State) (t : FillTarget) (off : Nat) : State :=
  let l := targetLocal s t
  if !l.full.contains (off / 4) || (absentIn l off 4).isSome then s
  else
    let w := headWord (mread l.mem off 4)
    let ws := fullWaiters s t off
    if domHit l off 4 || l.bad.any (fun e => e.1 = off / 4 && e.2 ≠ 0) then
      ws.foldl (fun s x => updItem s x.gang x.g x.p (fun t => { t with wait := .ready, readyAt := s.now })) s
    else
    let s := (ws.filter (fun x => !x.take)).foldl (fun s x => grantWord s w x) s
    match leastBy waiterKey (ws.filter Waiter.take) with
    | none => s
    | some x =>
      let s := grantWord s w x
      let l := targetLocal s t
      setTarget s t { l with full := l.full.filter (· ≠ off / 4) }

/-- A fill performed at its target: the word written and full, as one step (R206, R221). -/
def performFill (s : State) (f : FillReq) : State :=
  let l := targetLocal s f.target
  let wasFull := l.full.contains (f.off / 4)
  let l := writeLocal l f.off (wordBytes f.word) false
  let s := setTarget s f.target { l with full := putNum (f.off / 4) l.full }
  let s := match f.core with
    | some c => if wasFull then count s c 0x10 1 else s
    | none => s
  let s := match f.pkt with
    | some p => sendDack s p 0
    | none => s
  serveWord s f.target f.off

/-- The FILL packet of a remote fill (R440): ADDR is the fill address, AUX names the launch as STARTBAR does. -/
def sendFill (s : State) (f : FillReq) (chip die launch : Nat) : State :=
  let p := (launchAt s launch).pkt
  let e := ldtEntry s (pktRgrp p)
  let addr := BitVec.ofNat 64 (2 * 2 ^ 62 + 2 ^ 61 + chip * 2 ^ 55 + die * 2 ^ 53 + f.off)
  let aux := BitVec.ofNat 64 (pktRgrp p * 2 ^ 8 + pktSgen p * 2 ^ 16)
  let who : Sender := match f.item with
    | some (a, b, c) => .fill a b c
    | none => .other
  (sendPacket s 0x04 (memberEp e chip) (bits e 127 112) (pktAsid p) addr aux (wordBytes f.word) who).2

/-- What one queued fill does, or none where it waits: for an absent line, or behind an earlier fill or unacknowledged
remote fill of its item (R221, R440). `held` are items whose earlier fill waits. -/
def tryFill (f : FillReq) (held : List (Nat × Nat × Nat)) (s : State) : Option State :=
  if f.item.any (fun i => held.contains i || s.fabric.sent.any (fun p => p.who = .fill i.1 i.2.1 i.2.2)) then none
  else
    match f.target with
    | .remote chip die launch => some (sendFill s f chip die launch)
    | t =>
      let l := targetLocal s t
      if l.size < f.off + 4 then
        some (match f.pkt with
          | some p => sendDack { s with fabric := { s.fabric with filldrop := s.fabric.filldrop + 1 } } p 1
          | none => s)
      else if (absentIn l f.off 4).isSome then none
      else some (performFill s f)

/-- The queued fills tried in order; one that waits stays queued, and its item is held (R221). -/
def tryFills : List FillReq → List (Nat × Nat × Nat) → State → State
  | [], _, s => s
  | f :: r, held, s =>
    match tryFill f held s with
    | some t => tryFills r held t
    | none => tryFills r (f.item.toList ++ held) { s with fillq := s.fillq ++ [f] }

/-- Every queued fill tried (R221). -/
def pumpFills (s : State) : State := tryFills s.fillq [] { s with fillq := [] }

/-- Lines of a scratchpad have arrived: fills to them are performed, full words are handed on, items that waited for
them go on (R215, R219, R221). -/
def linesArrived (s : State) (die launch : Nat) (lines : List Nat) : State :=
  let s := s.gangs.foldl (fun s (gi, k) =>
    if k.die = die && k.launch = launch then
      k.groups.foldl (fun s (i, x) => x.items.foldl (fun s (p, t) =>
        match t.wait with
        | .line off _ => if lines.contains (off / 128) then
            updItem s gi i p (fun t => { t with wait := .ready, readyAt := s.now }) else s
        | _ => s) s) s
    else s) s
  let s := pumpFills s
  let offs := nodup (s.gangs.flatMap (fun (_, k) =>
    if k.die = die && k.launch = launch then k.groups.flatMap (fun (_, x) => x.items.filterMap (fun (_, t) =>
      match t.wait with
      | .full true off _ _ => if lines.contains (off / 128) then some off else none
      | _ => none)) else []))
  offs.foldl (fun s o => serveWord s (.spad die launch) o) s

end Sys2Proof.Machine
end

