-- ==== Sys2Proof/Machine/Access.lean ====
section
/-!
DEFINITION. Full and empty words and atomics, opcodes 0x66 to 0x6A (R218 to R225).
-/
namespace Sys2Proof.Machine

/-- The plans of a bundle as its end needs them: what is done, what traps, what waits. -/
structure Done where
  hits : List (Nat × Nat × Hit) := []
  traps : List (Nat × Nat × Trap) := []
  zero : List (Nat × Nat) := []
  /-- items that wait at the instruction and leave the bundle -/
  left : List (Nat × Nat) := []
  deriving DecidableEq, Repr

/-- The end of an instruction some of whose items have begun a wait of their own (R146, R219). -/
def waitEnd (s : State) (w : Where) (k : Sifted) (q : Done) (d : Field7) (n len : Nat) (chained : Bool)
    (post : Option Stall) : State :=
  let ms := w.b.members.filter (fun m => !q.left.contains m)
  let ps : Plans := { hits := q.hits, traps := q.traps, zero := q.zero }
  memEnd s { w with b := { w.b with members := ms } } k ps d n len chained post

/-- Offset, space and taking of an `ldf` (R219). -/
def ldfMod (o : LdfOp) : MemMod := memMod (modOf (some o.d) [o.a] o.x o.ext)

/-- One item's `ldf` (R219): the word, a cause, or a wait. -/
def ldfItem (o : LdfOp) (s : State) (w : Where) (g p : Nat) (q : Done) : State × Done :=
  let gang := w.b.gang
  let m := ldfMod o
  let spad := m.scope = 3
  let take := m.aop = 1
  let t := itemAt s gang g p
  let a := (srcAt (gangAt s gang).oneD (groupAt s gang g) p o.ext { f := o.a }).toNat
  let ea := effAddr false a o.off m.xoff 4
  let fail (c : Trap) : State × Done :=
    if t.helper then (s, { q with zero := q.zero ++ [(g, p)] }) else (s, { q with traps := q.traps ++ [(g, p, c)] })
  let got (s : State) (v : Word) : State × Done :=
    (updItem s gang g p (fun t => { t with wait := .ready }), { q with hits := q.hits ++ [(g, p, { addr := ea, ws := [v] })] })
  let wait (s : State) : State × Done :=
    (updItem s gang g p (fun t => { t with wait := .full spad ea take s.now }), { q with left := q.left ++ [(g, p)] })
  match t.wait with
  | .granted v => got s v
  | _ =>
    if ea % 4 ≠ 0 then fail { code := 0x09, addr := BitVec.ofNat 64 ea }
    else
      let s := meetLocal s w.core gang spad [(ea, 4)]
      match readLocal s (whoOf s w g p) spad false false ea 4 with
      | .absent _ => wait s
      | .trap c => fail c
      | .walk _ => (s, q)
      | .ok l _ =>
        let loc := localOf s gang spad
        if !loc.full.contains (ea / 4) then wait s
        else if take then got (setLocal s gang spad { loc with full := loc.full.filter (· ≠ ea / 4) }) (headWord l)
        else got s (headWord l)

/-- `ldf` (R219): it is an acquire at gang or die scope. -/
def ldfStep (o : LdfOp) (s : State) : State :=
  let u : Uses := { named := [(o.d, 1), (o.a, 1)], read := [(o.a, 1)], ext := o.ext }
  let len := if o.x then 2 else 1
  match issuing s with
  | none => s
  | some w =>
    match w.b.span with
    | some i => pourOrDeal s w i (spanTrap (spanAt s i) u)
    | none =>
      if w.b.prog.done then conclude s w (allGo w) 120 0 len { chained := o.c } false
      else
        let gang := w.b.gang
        let s := dropRings s gang w.b.members
        match memSift s w u (if isV o.d then [o.d.toNat] else []) with
        | (s, none) => s
        | (s, some k) =>
          let (s, q) := (byGpos k.go).foldl (fun (s, q) (g, p) => ldfItem o s w g p q) (s, ({} : Done))
          let s := deliverWords s gang o.d o.ext (q.hits.map (fun (g, p, h) => (g, p, h.ws)))
          let (s, post) := if (ldfMod o).scope = 3 && anyReal s gang (q.hits.map (fun h => (h.1, h.2.1)))
            then afterAcquire s w 3 else (s, none)
          waitEnd s w k q o.d 1 len o.c post

/-- The fill that an item's `stf` makes, or its cause (R220). With XC = 0 the field CHIP is not used, and a number in it is
refused (DEDUCED, log entry 45). -/
def fillOf (s : State) (w : Where) (g p : Nat) (a : Nat) (v : Word) : Except Trap FillReq :=
  let gang := w.b.gang
  let gg := gangAt s gang
  let off := bits a 31 0
  let prot : Trap := { code := 0x0C, addr := BitVec.ofNat 64 a, wr := true }
  let xc := bit a 61
  let chip := bits a 60 55
  let die := bits a 54 53
  let idx := bits a 52 32
  let mk (t : FillTarget) : Except Trap FillReq :=
    if (match t with
      | .remote _ _ _ => false
      | t => (targetLocal s t).size < off + 4) then .error prot
    else .ok { item := some (gang, g, p), core := some w.core, target := t, off, word := v }
  if off % 4 ≠ 0 then .error { prot with code := 0x09 }
  else match bits a 63 62 with
    | 0 => if xc || chip ≠ 0 || die ≠ 0 || idx ≠ 0 then .error prot else mk (.gang gang)
    | 1 =>
      if xc || chip ≠ 0 || die ≠ 0 then .error prot
      else match s.gangs.find? (fun k => k.2.launch = gg.launch && k.2.index = idx && k.2.phase = .resident &&
          clusterOf k.2.core = clusterOf w.core) with
        | some (t, _) => mk (.gang t)
        | none => .error prot
    | 2 =>
      if idx ≠ 0 || (!xc && chip ≠ 0) then .error prot
      else
        let ln := launchAt s gg.launch
        if xc && ln.chips ≤ chip then .error prot
        else if xc && pktRep ln.pkt then mk (.remote chip die gg.launch)
        else if (spadOf s die gg.launch).isNone then .error prot
        else mk (.spad die gg.launch)
    | _ => .error prot

/-- `stf` (R220, R221). -/
def stfStep (o : WideOp) (s : State) : State :=
  let u : Uses := { named := [(o.d, 1), (o.a, 2)], read := [(o.a, 2), (o.d, 1)], ext := o.ext }
  let len := if o.x then 2 else 1
  let m := memMod (modOf (some o.d) [o.a] o.x o.ext)
  match issuing s with
  | none => s
  | some w =>
    match w.b.span with
    | some i => pourOrDeal s w i (spanTrap (spanAt s i) u)
    | none =>
      match memSift s w u [] with
      | (s, none) => s
      | (s, some k) =>
        let gang := w.b.gang
        let oneD := (gangAt s gang).oneD
        let q := (byGpos k.go).foldl (fun (q : Done × List FillReq) (g, p) =>
          if (itemAt s gang g p).helper then ({ q.1 with hits := q.1.hits ++ [(g, p, { addr := 0, idle := true })] }, q.2)
          else
            let a := (srcAt oneD (groupAt s gang g) p o.ext { f := o.a, wide := true }).toNat
            match fillOf s w g p (effAddr true a o.off m.xoff 4) ((dataWords s gang g p o.d o.ext 1).headD 0) with
            | .error c => ({ q.1 with traps := q.1.traps ++ [(g, p, c)] }, q.2)
            | .ok f => ({ q.1 with hits := q.1.hits ++ [(g, p, { addr := a })] }, q.2 ++ [f])) (({} : Done), [])
        let s := pumpFills { s with fillq := s.fillq ++ q.2 }
        waitEnd s w k q.1 120 0 len o.c none

/-- The new value of an atomic and its flags: none where a `cas` writes nothing (R223, R224). `v` is the operand or the
compare value, `n` the new value of a `cas`. -/
def atomicOp (aop : Nat) (wide : Bool) (w v n : DWord) : Option DWord × Nat :=
  let bitsN := if wide then 64 else 32
  let fit (x : Nat) : DWord := BitVec.ofNat 64 (x % 2 ^ bitsN)
  let wi := signed bitsN w.toNat
  let vi := signed bitsN v.toNat
  let halves (f : Ieee) : Option DWord × Nat :=
    let lo := floatAdd f (w.toNat % 65536) (v.toNat % 65536)
    let hi := floatAdd f (bits w.toNat 31 16) (bits v.toNat 31 16)
    (some (fit (hi.1 * 65536 + lo.1)), lo.2 ||| hi.2)
  match aop with
  | 0x00 => (some (fit (w.toNat + v.toNat)), 0)
  | 0x01 => (some (if wi ≤ vi then w else v), 0)
  | 0x02 => (some (if wi ≤ vi then v else w), 0)
  | 0x03 => (some (if w.toNat ≤ v.toNat then w else v), 0)
  | 0x04 => (some (if w.toNat ≤ v.toNat then v else w), 0)
  | 0x05 => (some (w &&& v), 0)
  | 0x06 => (some (w ||| v), 0)
  | 0x07 => (some (w ^^^ v), 0)
  | 0x08 => (some v, 0)
  | 0x09 => (if w = v then some n else none, 0)
  | 0x10 =>
    let r := floatAdd f32 w.toNat v.toNat
    (some (fit r.1), r.2)
  | 0x11 => halves bf16
  | _ => halves f16

/-- An atomic instruction's parts. -/
structure AtomSpec where
  sp : Space
  o : MemOp
  deriving DecidableEq, Repr

/-- The modifier in force. -/
def AtomSpec.mod (m : AtomSpec) : MemMod := memMod (modOf (some m.o.d) [m.o.a] m.o.x m.o.ext)
/-- A 64-bit operation. -/
def AtomSpec.wide (m : AtomSpec) : Bool := m.o.sz = 1
/-- Words of the operation's value. -/
def AtomSpec.words (m : AtomSpec) : Nat := if m.wide then 2 else 1
/-- Words that D holds: `cas` reads the compare value and the new one (R223). -/
def AtomSpec.inWords (m : AtomSpec) : Nat := if m.mod.aop = 9 then 2 * m.words else m.words
/-- Registers that the atomic names and reads. -/
def AtomSpec.uses (m : AtomSpec) : Uses :=
  let a := (m.o.a, if m.sp = .log then 2 else 1)
  { named := [(m.o.d, m.inWords), a], read := [a, (m.o.d, m.inWords)], ext := m.o.ext }
/-- Where the old value goes: K suppresses the write-back (R223). -/
def AtomSpec.dest (m : AtomSpec) : Field7 := if m.o.k then 120 else m.o.d

/-- A value of one or two words. -/
def valueOf : List Word → DWord
  | [lo] => lo.setWidth 64
  | lo :: hi :: _ => pair hi lo
  | [] => 0
/-- The words of a value. -/
def AtomSpec.split (m : AtomSpec) (v : DWord) : List Word := if m.wide then [lowWord v, highWord v] else [lowWord v]
/-- Operand and second operand of an item (R223). -/
def AtomSpec.operands (m : AtomSpec) (s : State) (gang g p : Nat) : DWord × DWord :=
  let l := dataWords s gang g p m.o.d m.o.ext m.inWords
  (valueOf (l.take m.words), valueOf (l.drop m.words))
/-- The effective address of an item (R78). -/
def AtomSpec.addr (m : AtomSpec) (s : State) (gang g p : Nat) : Nat :=
  let wide := m.sp = .log
  let a := (srcAt (gangAt s gang).oneD (groupAt s gang g) p m.o.ext { f := m.o.a, wide }).toNat
  effAddr wide a m.o.off m.mod.xoff (4 * m.words)

/-- The checks of an item's atomic (R205, R206, R208, R209): a helper has no effect (R20). -/
def AtomSpec.plan (m : AtomSpec) (s : State) (w : Where) (g p : Nat) : Except Got Hit :=
  let n := 4 * m.words
  let ea := m.addr s w.b.gang g p
  if (itemAt s w.b.gang g p).helper then .error (.trap { code := 0x09 })
  else if ea % n ≠ 0 then .error (.trap { code := 0x09, addr := BitVec.ofNat 64 ea, wr := true })
  else match m.sp with
    | .log => gotHit (checkSpace s (whoOf s w g p) .log true ea n) (fun _ _ => { addr := ea })
    | sp => gotHit (readSpace s (whoOf s w g p) sp true false ea n) (fun _ _ => { addr := ea })

/-- An atomic performed in local memory for one item (R206, R224): the old value with its flags. -/
def AtomSpec.perform (m : AtomSpec) (s : State) (w : Where) (g p : Nat) (h : Hit) : State × Hit :=
  let gang := w.b.gang
  let spad := m.sp = .spad
  let l := localOf s gang spad
  let old := valueOf (wordsIn m.words (readLocal s (whoOf s w g p) spad true true h.addr (4 * m.words)).bytes)
  let (v, n) := m.operands s gang g p
  let (new, fl) := atomicOp m.mod.aop m.wide old v n
  let s := match new with
    | some x => setLocal s gang spad (writeLocal l h.addr ((m.split x).flatMap wordBytes) false)
    | none => s
  (s, { h with ws := m.split old, fl })

/-- The requests of an `atv` at the home slices, one for each page (R225, R338). -/
def AtomSpec.requests (m : AtomSpec) (s : State) (w : Where) (id : Nat) (hs : List (Nat × Nat × Hit)) : List (Nat × AtomicReq) :=
  let gang := w.b.gang
  let asid := (gangAt s gang).asid
  let rows := hs.filterMap (fun (g, p, h) =>
    match whoXlate s (whoOf s w g p) true false h.addr 4 with
    | .ok ls =>
      let leaf := leafIn ls h.addr
      let (v, n) := m.operands s gang g p
      some (leafLpn leaf, leafCk leaf, (g, p, keyOf leaf h.addr * 32 + h.addr % 32, v, n))
    | _ => none)
  (nodup (rows.map (fun r => (r.1, r.2.1)))).map (fun (lpn, ck) => (homeDie asid lpn,
    { id, asid, core := w.core, lane := w.lane, aop := m.mod.aop, wide := m.wide, ck
      ops := (rows.filter (fun r => (r.1, r.2.1) = (lpn, ck))).map (fun r => r.2.2) }))

/-- The returned values of an `atv` delivered: an empty value is lost data (R225, R345). -/
def AtomSpec.results (m : AtomSpec) (s : State) (w : Where) : Done :=
  w.b.prog.results.foldl (fun q (g, p, ws) =>
    match ws with
    | [] => { q with traps := q.traps ++ [(g, p, { code := 0x0E, sub := 5, wr := true
                                                   addr := BitVec.ofNat 64 (m.addr s w.b.gang g p) })] }
    | fl :: ws => { q with hits := q.hits ++ [(g, p, { addr := 0, ws, fl := fl.toNat })] }) {}

/-- The old values delivered and the acquire begun (R224, R228). -/
def AtomSpec.deliver (m : AtomSpec) (s : State) (w : Where) (k : Sifted) (q : Done) : State :=
  let gang := w.b.gang
  let len := if m.o.x then 2 else 1
  let s := deliverFlags (deliverWords s gang m.dest m.o.ext (q.hits.map (fun (g, p, h) => (g, p, h.ws)))) gang q.hits
  let s := if m.sp = .spad then boardAll s gang m.dest m.words (q.hits.map (fun h => (h.1, h.2.1))) else s
  let (s, post) := if m.mod.ord % 2 = 1 && !q.hits.isEmpty then afterAcquire s w m.mod.scope else (s, none)
  waitEnd s w k q m.dest m.words len m.o.c post

/-- An atomic (R223 to R225, R228). -/
def atomStep (m : AtomSpec) (s : State) : State :=
  match issuing s with
  | none => s
  | some w =>
    let len := if m.o.x then 2 else 1
    match w.b.span with
    | some i => pourOrDeal s w i (spanTrap (spanAt s i) m.uses)
    | none =>
      let gang := w.b.gang
      if w.b.prog.done then conclude s w (allGo w) 120 0 len { chained := m.o.c } false
      else if !w.b.prog.results.isEmpty then m.deliver s w { go := [], traps := [], zero := [] } (m.results s w)
      else
        let s := if m.sp = .spad then dropRings s gang w.b.members else s
        match memSift s w m.uses (if isV m.dest then upTo m.dest.toNat m.words else []) with
        | (s, none) => s
        | (s, some k) =>
          let s := if m.sp = .log then s else k.go.foldl (fun s (g, p) =>
            if (itemAt s gang g p).helper then s
            else meetLocal s w.core gang (m.sp = .spad) [(m.addr s gang g p, 4 * m.words)]) s
          let ps := planAll s gang (fun g p => m.plan s w g p) (byGpos k.go)
          if !ps.walks.isEmpty then stallWalks s (gangAt s gang).asid ps.walks
          else match (if 2 ≤ m.mod.ord && anyReal s gang k.go then beginRelease s w m.mod.scope else none) with
            | some s => s
            | none =>
              if m.sp = .log && !ps.hits.isEmpty then
                let (id, s) := newName s
                let s := (m.requests s w id ps.hits).foldl (fun s (die, r) =>
                  let d := dieAt s die
                  setDie s die { d with atomq := d.atomq ++ [r] }) s
                let traps := k.traps ++ ps.traps
                let rest := w.b.members.filter (fun x => !traps.any (fun t => (t.1, t.2.1) = x))
                let s := deliverAll (zeroWords s gang m.dest m.words (k.zero ++ ps.zero)) w traps
                updBundle s w (fun b => { b with members := rest, stall := some (.atomic id) })
              else
                let (s, hs) := ps.hits.foldl (fun (s, l) (g, p, h) =>
                  let (s, h) := m.perform s w g p h
                  (s, l ++ [(g, p, h)])) (s, [])
                let s := ps.absent.foldl (fun s (g, p, off) => updItem s gang g p (fun t => { t with wait := .line off s.now })) s
                m.deliver s w k { hits := hs, traps := ps.traps, zero := ps.zero, left := ps.absent.map (fun a => (a.1, a.2.1)) }

/-- LDF (R219). -/
def execLdf (o : LdfOp) (s : State) : Out := .next (ldfStep o s)
/-- STF (R220). -/
def execStf (o : WideOp) (s : State) : Out := .next (stfStep o s)
/-- ATV (R223). -/
def execAtv (o : MemOp) (s : State) : Out := .next (atomStep { sp := .log, o } s)
/-- ATK (R223). -/
def execAtk (o : MemOp) (s : State) : Out := .next (atomStep { sp := .gang, o } s)
/-- ATD (R223). -/
def execAtd (o : MemOp) (s : State) : Out := .next (atomStep { sp := .spad, o } s)

end Sys2Proof.Machine
end

