-- ==== Sys2Proof/Machine/Tiles.lean ====
section
/-!
DEFINITION. Tile headers (R59, R60), the compressed image of a tile (R342, R343), and runs of narrow elements (R55, R56).
-/
namespace Sys2Proof.Machine

/-- The fields of a tile header (R59). -/
structure Tile where
  base : Nat
  rows : Nat
  cols : Nat
  ty : Nat
  fmti : Nat
  dom : Nat
  layout : Nat
  blen : Nat
  exp : Int
  clen : Nat
  deriving DecidableEq, Repr

/-- The fields of a header's sixteen bytes (R59). -/
def tileOf (h : Nat) : Tile :=
  { base := bits h 31 0, rows := bits h 47 32, cols := bits h 63 48, ty := bits h 66 64, fmti := bits h 71 67
    dom := bits h 73 72, layout := bits h 76 74, blen := bits h 80 77, exp := signed 8 (bits h 88 81), clen := bits h 119 96 }

/-- Block length of a tile, 0 for none (R59). -/
def Tile.block (t : Tile) : Nat := if t.blen = 0 then 0 else 2 ^ t.blen

/-- A header is valid (R60). -/
def tileOk (h : Nat) : Bool :=
  let t := tileOf h
  bits h 127 120 = 0 && bits h 95 89 = 0 && t.ty ≠ 7 && (t.ty = 5 || t.ty = 6 || t.fmti = 0) &&
    t.dom ≤ 1 && t.layout ≤ 2 && (t.blen = 0 || (2 ≤ t.blen && t.blen ≤ 10)) &&
    t.rows ≠ 0 && t.cols ≠ 0 && t.base % 32 = 0 && (t.layout ≠ 2 || t.dom ≠ 0) &&
    (t.dom = 0 || ((t.ty = 3 || t.ty = 4 || t.ty = 6) && t.blen ≠ 0 && t.cols % t.block = 0))

/-- Bits that an element takes in a raw image; a narrow one has the container of R236 (R342). -/
def tileWidth (t : Tile) (f : BitVec 256) : Nat :=
  match t.ty with
  | 0 => 32
  | 1 => 16
  | 2 => 16
  | 3 => 16
  | 4 => 16
  | _ => if 4 < elemBits f then 8 else if t.ty = 6 then 8 else 4

/-- Bytes of a tile's raw image (R342). -/
def rawLength (t : Tile) (f : BitVec 256) : Nat := ceilDiv (t.rows * t.cols * tileWidth t f) 256 * 32
/-- 256-byte blocks of a raw image (R343). -/
def rawBlocks (n : Nat) : Nat := ceilDiv n 256
/-- Sectors of the length array (R343). -/
def lengthSectors (nb : Nat) : Nat := ceilDiv nb 64

/-- Blocks of a list of bytes, the last padded with zero bytes. -/
def cutBlocks : Nat → List Byte → List (List Byte)
  | 0, _ => []
  | n + 1, l =>
    let b := l.take 256
    (b ++ List.replicate (256 - b.length) 0) :: cutBlocks n (l.drop 256)

/-- The compressed image of a raw image (R343). -/
def compressTile (raw : List Byte) : List Byte :=
  let nb := rawBlocks raw.length
  let imgs := (cutBlocks nb raw).map (encodeBlock 2)
  let lens := (imgs.zip (upTo 0 nb)).foldl (fun n (i, k) => n + (i.length / 32 - 1) * 2 ^ (4 * k)) 0
  toBytes (32 * lengthSectors nb) lens ++ imgs.flatten

/-- Stored sectors of each block by a length array (R343). -/
def blockLengths (nb : Nat) (arr : List Byte) : List Nat :=
  let v := ofBytes arr
  (upTo 0 nb).map (fun k => (v >>> (4 * k)) % 16)

/-- The raw image of blocks stored one after another: none where an image is malformed (R343, R344 SUB 0x22). -/
def expandBlocks : List Nat → List Byte → Option (List Byte)
  | [], _ => some []
  | n :: r, l =>
    let img := l.take (32 * (n + 1))
    let w := ofBytes (img.take 2)
    if 7 < n || (n < 7 && (upTo 0 4).any (fun j => decide (8 < bits w (4 * j + 3) (4 * j)))) then none
    else match expandBlocks r (l.drop (32 * (n + 1))) with
      | none => none
      | some t => some (decodeBlock 2 img ++ t)

/-- Index of the element that starts at a byte address: the start of a block, or of an element without blocks (R230). -/
def elemIndex (f : BitVec 256) (a : Nat) : Option Nat :=
  let d := fmtDbase f
  let w := elemBits f
  let l := fmtL f
  if w = 0 || a < d then none
  else if l = 0 then (if (8 * (a - d)) % w = 0 then some (8 * (a - d) / w) else none)
  else
    let r := l * w / 8 + (if fmtScp f then 0 else scaleSize f)
    if (a - d) % r = 0 then some ((a - d) / r * l) else none

/-- Bit address of an element (R55, R212). -/
def elemBit (f : BitVec 256) (e : Nat) : Nat :=
  let w := elemBits f
  let l := fmtL f
  if l = 0 || fmtScp f then 8 * fmtDbase f + e * w
  else 8 * (fmtDbase f + e / l * (scaleSize f + l * w / 8) + scaleSize f) + e % l * w

/-- Bytes of `n` elements from a start address on (R230). -/
def elemExtent (f : BitVec 256) (a n : Nat) : Nat :=
  match elemIndex f a with
  | some e => if n = 0 then 0 else (elemBit f (e + n - 1) + elemBits f + 7) / 8 - a
  | none => 0

/-- Elements of a run decoded (R213, R230). -/
def decodeRun (rd tb : Nat → Nat → Got) (f : BitVec 256) : Nat → Nat → Except Got (List Word)
  | _, 0 => .ok []
  | e, n + 1 =>
    match decodeWith rd tb f (elemBit f e) with
    | .error g => .error g
    | .ok (x, _, _) => match decodeRun rd tb f (e + 1) n with
      | .error g => .error g
      | .ok l => .ok (x :: l)

/-- Fields written by an encode: (bit address, bits, value). -/
abbrev BitFields := List (Nat × Nat × Nat)

/-- Elements of one block encoded (R54 to R56): a whole block with a scale of its own, a part of one with the stored
scale. The flags of a copy's conversions, those of a bad stored scale too, reach no status word (DESIGN CHOICE, log entry
21). -/
def encodeChunk (rd tb : Nat → Nat → Got) (f : BitVec 256) (e : Nat) (xs : List Word) : Except Got BitFields :=
  let l := fmtL f
  let b := if l = 0 then 0 else e / l
  let whole := l ≠ 0 && xs.length = l
  let scaled := fmtSck f ≠ 0
  let sa := match elemPlace f (elemBit f e) with
    | some (_, a) => a
    | none => 0
  let table := if fmtK f ≠ 0 then tb (tableOf f b) (2 ^ (fmtK f + 1)) else .ok [] 0
  let stored := if scaled && !whole then rd sa (scaleSize f) else .ok [] 0
  match allGot [table, stored] with
  | .ok _ _ =>
    let top := if fmtK f = 0 then maxfin f else amaxOf (tableVals (2 ^ fmtK f) table.bytes)
    let sc := if whole then chooseScale f (amaxOf (xs.map (fun x => unpack f32 x.toNat))) top else ofBytes stored.bytes
    let codes := (numbered e xs).map (fun (i, x) =>
      (elemBit f i, elemBits f, (encodeValue f scaled sc table.bytes x).1))
    .ok ((if scaled && whole then [(8 * sa, 8 * scaleSize f, sc)] else []) ++ codes)
  | g => .error g

/-- A run of elements encoded block by block; `fuel` bounds the blocks (R230). -/
def encodeRun (rd tb : Nat → Nat → Got) (f : BitVec 256) : Nat → Nat → List Word → Except Got BitFields
  | 0, _, _ => .ok []
  | fuel + 1, e, xs =>
    if xs.isEmpty then .ok []
    else
      let n := if fmtL f = 0 then 1 else fmtL f
      match encodeChunk rd tb f e (xs.take n) with
      | .error g => .error g
      | .ok l => match encodeRun rd tb f fuel (e + n) (xs.drop n) with
        | .error g => .error g
        | .ok r => .ok (l ++ r)

end Sys2Proof.Machine
end

