-- ==== Sys2Proof/Machine/Copy.lean ====
section
/-!
DEFINITION. `cpy`, `cwait` and the copy engine, opcodes 0x6C and 0x6D (R229 to R234, R342 to R344, R438).
-/
namespace Sys2Proof.Machine

/-- A copy by its name in the model. -/
def setCopy (s : State) (i : Nat) (c : Copy) : State := { s with copies := tput s.copies i c }

/-- The descriptor of an item's `cpy`: words D to D+3 (R229). -/
def copyDesc (s : State) (gang g p : Nat) (d : Field7) : BitVec 128 :=
  BitVec.ofNat 128 (ofBytes ((dataWords s gang g p d 0 4).flatMap wordBytes))

/-- COPY_FAULT raised at the `cpy` (R230, R267). -/
def copyTrap (desc : BitVec 128) (la : Nat) (sub : Nat) : Trap :=
  { code := 0x13, sub, addr := BitVec.ofNat 64 la, cq := bits desc.toNat 109 106, desc := desc.setWidth 256 }

/-- The sides of a copy by its control word: source and destination (R229, R342). -/
def copySides (osp la w0 w1 : Nat) (dir : Bool) : Side × Side :=
  let spadSide (o : Nat) : Side := if bit o 31 then .tile (bits o 30 4 * 16) else .spad o
  let (a, b) : Side × Side := match osp with
    | 0 => (.log la, .gang w0)
    | 1 => (.log la, spadSide w0)
    | 2 => (.log la, .log (w1 * 2 ^ 32 + w0))
    | 3 => (.log la, .peerLog (w1 * 2 ^ 32 + w0))
    | 4 => (.log la, .peerSpad (w1 * 2 ^ 32 + w0))
    | _ => (.gang w0, spadSide w1)
  if dir then (b, a) else (a, b)

/-- A side's first byte in its space. -/
def Side.at : Side → Nat
  | .log a => a
  | .gang a => a
  | .spad a => a
  | .tile a => a
  | .peerLog a => a
  | .peerSpad a => a
/-- A side on a peer chip. -/
def Side.isPeer : Side → Bool
  | .peerLog _ => true
  | .peerSpad _ => true
  | _ => false
/-- A tile port. -/
def Side.isTile : Side → Bool
  | .tile _ => true
  | _ => false
/-- A side in gang memory or scratchpad of this chip. -/
def Side.isLocal : Side → Bool
  | .gang _ => true
  | .spad _ => true
  | _ => false

/-- A tile header as a copy's tile port reads it: free values while its line is absent (R10, R344). -/
def portHeader (s : State) (die launch o : Nat) : Nat :=
  let l := dieLocal s die launch
  if (absentIn l o 16).isSome then
    ofBytes ((upTo 0 4).flatMap (fun i => wordBytes (Config.freeWord (s.free + i))))
  else ofBytes (mread l.mem o 16)

/-- Lines that a write port clears: the header's and the image's largest extent (R344). -/
def portLines (h nb o : Nat) : List Nat :=
  let t := tileOf h
  nodup (unitsOf 128 o 16 ++ unitsOf 128 t.base (256 * nb + 32 * lengthSectors nb))

/-- A side lies inside its allocation (R230). -/
def sideFits (s : State) (gang : Nat) (a : Side) (n : Nat) : Bool :=
  match a with
  | .gang o => decide (o + n ≤ (localOf s gang false).size)
  | .spad o => decide (o + n ≤ (localOf s gang true).size)
  | .tile o => decide (o + 16 ≤ (localOf s gang true).size)
  | _ => true

/-- The format number of a copy's narrow side, or what stands in the way (R230): with IPF = 0 that side is the local log
side, whose page selects it. -/
def copyFmt (s : State) (k : Who) (m : MemMod) (la : Nat) (narrow : Side) (write : Bool) : Except Got (Option Nat) :=
  if m.ipf then .ok (some m.fov)
  else if narrow ≠ .log la then .ok none
  else match whoXlate s k write false la 1 with
    | .fault c _ => .error (.trap { code := c })
    | .miss v => .error (.walk v)
    | .ok ls => .ok (some (leafFslot (leafIn ls la)))

/-- An item's `cpy` checked (R230): the copy it starts, none for LEN = 0. -/
def copyPlan (o : WideOp) (s : State) (w : Where) (g p : Nat) : Except Got (Option Copy) :=
  let gang := w.b.gang
  let gg := gangAt s gang
  let k := whoOf s w g p
  let m := memMod (modOf none [o.a] o.x o.ext)
  let desc := copyDesc s gang g p o.d
  let dw (i : Nat) : Nat := bits desc.toNat (32 * i + 31) (32 * i)
  let a := (srcAt gg.oneD (groupAt s gang g) p o.ext { f := o.a, wide := true }).toNat
  let la := effAddr true a o.off m.xoff 16
  let ctl := dw 3
  let osp := bits ctl 6 4
  let mode := bits ctl 9 8
  let dir := bit ctl 0
  let len := dw 2
  let la' := if osp = 5 then 0 else la
  let bad (sub : Nat) : Except Got (Option Copy) := .error (.trap (copyTrap desc la' sub))
  let (src, dst) := copySides osp la (dw 0) (dw 1) dir
  let ln := launchAt s gg.launch
  if bits ctl 31 22 ≠ 0 || bit ctl 7 || bits ctl 3 1 ≠ 0 || 6 ≤ osp || mode = 3 || len % 4 ≠ 0 ||
      src.at % 4 ≠ 0 || dst.at % 4 ≠ 0 || (osp = 5 && (mode ≠ 0 || o.a ≠ 120)) || (osp < 2 && dw 1 ≠ 0) ||
      (mode = 0 && (m.ipf || m.fov ≠ 0)) || ((osp = 3 || osp = 4) && ln.chips ≤ bits ctl 19 14) then bad 0
  else
    let c : Copy := {
      gang, launch := gg.launch, core := w.core, die := gg.die, asid := gg.asid, level := k.level
      queue := bits ctl 13 10, pc := (itemAt s gang g p).pc, desc, logAddr := BitVec.ofNat 64 la', src, dst, len
      slen := len, dlen := len, mode, fmt := 0, chip := bits ctl 19 14, peerDie := bits ctl 21 20
      relScope := if m.ord = 2 then some m.scope else none, since := s.now, fmts := gg.fmt }
    let fin (c : Copy) : Except Got (Option Copy) :=
      if !sideFits s gang c.src c.slen || !sideFits s gang c.dst c.dlen then bad 0
      else if len = 0 then .ok none else .ok (some c)
    if mode = 0 then fin c
    else
      let narrow := if mode = 1 then src else dst
      match copyFmt s k m la narrow (mode = 2) with
      | .error (.trap t) => bad t.code
      | .error e => .error e
      | .ok none => bad 0
      | .ok (some n) =>
        let f := fmtOf gg n
        let sp : Space := if narrow.isLocal then .gang else .log
        if !fmtUsable f sp then .error (.trap { code := 0x10, sub := n })
        else if (elemIndex f narrow.at).isNone then bad 0
        else
          let ext := elemExtent f narrow.at (len / 4)
          fin (if mode = 1 then { c with fmt := f, slen := ext } else { c with fmt := f, dlen := ext })

/-- Bytes of the raw image of a tile at a copy's port: a narrow tile's width is that of the format its header names
(R342). -/
def portLength (c : Copy) (t : Tile) : Nat := rawLength t (tget c.fmts t.fmti 0)

/-- The range of sidecar scales that an encode writes beside its elements: those of its whole blocks (R55, R56). -/
def sideRange (c : Copy) : Option (Nat × Nat) :=
  let f := c.fmt
  if c.mode = 2 && fmtScp f && fmtSck f ≠ 0 && fmtL f ≠ 0 then
    match elemIndex f c.dst.at with
    | some e =>
      let nb := c.len / 4 / fmtL f
      if nb = 0 then none else some (fmtSbase f + e / fmtL f * scaleSize f, nb * scaleSize f)
    | none => none
  else none

/-- Scratchpad lines that a copy clears at issue (R232, R344). -/
def copyClears (s : State) (c : Copy) : List Nat :=
  match c.dst with
  | .spad a => nodup (unitsOf 128 a c.dlen ++ (match sideRange c with
      | some (sa, n) => unitsOf 128 sa n
      | none => []))
  | .tile o =>
    let h := portHeader s c.die c.launch o
    if tileOk h then portLines h (rawBlocks (portLength c (tileOf h))) o else unitsOf 128 o 16
  | _ => []

/-- A copy that passed its checks starts (R231, R232). -/
def startCopy (s : State) (c : Copy) : State :=
  let l := dieLocal s c.die c.launch
  let lines := (copyClears s c).filter (fun i => decide (128 * i < l.size))
  let s := if lines.isEmpty then s
    else setDieLocal s c.die c.launch { l with absent := lines.foldl (fun a i => putNum i a) l.absent }
  let (i, s) := newName s
  let n := s.fabric.nextCid
  let remote := c.src.isPeer || c.dst.isPeer
  let s := if remote then { s with fabric := { s.fabric with nextCid := (n + 1) % 65536 } } else s
  setCopy s i { c with cleared := lines, cid := n, since := s.now }

/-- `cpy` (R229 to R232). -/
def cpyStep (o : WideOp) (s : State) : State :=
  let u : Uses := { named := [(o.d, 4), (o.a, 2)], read := [(o.a, 2), (o.d, 4)], ext := o.ext }
  let len := if o.x then 2 else 1
  match issuing s with
  | none => s
  | some w =>
    match w.b.span with
    | some i => pourOrDeal s w i (spanTrap (spanAt s i) u)
    | none =>
      match memSift s w u [] with
      | (s, none) => s
      | (s, some k) =>
        let gang := w.b.gang
        let real := k.go.filter (fun m => !(itemAt s gang m.1 m.2).helper)
        let plans := real.map (fun (g, p) => (g, p, copyPlan o s w g p))
        let walks := plans.filterMap (fun q => match q.2.2 with
          | .error (.walk v) => some v
          | _ => none)
        if !walks.isEmpty then stallWalks s (gangAt s gang).asid walks
        else
          let traps := plans.filterMap (fun q => match q.2.2 with
            | .error (.trap t) => some (q.1, q.2.1, t)
            | _ => none)
          let copies := plans.filterMap (fun q => match q.2.2 with
            | .ok c => c
            | _ => none)
          let m := memMod (modOf none [o.a] o.x o.ext)
          match (if m.ord = 2 && !real.isEmpty then beginRelease s w m.scope else none) with
          | some s => s
          | none =>
            let s := copies.foldl startCopy s
            waitEnd s w k { hits := k.go.map (fun x => (x.1, x.2, { addr := 0 })), traps } 120 0 len o.c none

/-- Ranges of a space that are undefined for a copy's reads: what running copies write, and transforms under way (R231,
R248); a copy's own destination too, but for the scales that its encode keeps. -/
def copyRuns (s : State) (c : Copy) (sp : Space) (own : Bool) : List (Nat × Nat) :=
  let run := s.copies.filter (fun x => !(own && x.2 = c))
  match sp with
  | .gang => openRuns { s with copies := run } c.gang 0
  | .spad => []
  | _ => run.filterMap (fun x => if x.2.asid = c.asid then copyLogDest x.2 else none)

/-- A range read by a copy as a whole (R231, R234): a cause, a page the host owns, or an absent line. `own` marks what it
reads at its own destination. -/
def copyRead (s : State) (c : Copy) (sp : Space) (a n : Nat) (own : Bool := false) : Got :=
  let runs := copyRuns s c sp own
  let lost (l : Local) : Got :=
    if l.size < a + n then .trap { code := 0x0C }
    else match absentIn l a n with
      | some o => .absent o
      | none => if badHit l a n then .trap { code := 0x0E } else .ok (openBytes s runs a (mread l.mem a n)) 0
  match sp with
  | .gang => lost (gangLocal s c.gang)
  | .spad => lost (dieLocal s c.die c.launch)
  | _ =>
    match translateNow s { asid := c.asid, level := c.level } a n with
    | .fault k f => .trap { code := k, addr := BitVec.ofNat 64 f }
    | .miss v => .walk v
    | .ok ls =>
      let rs := (sectorsOf a n).map (fun x => readSector s (clusterOf c.core) (dieOf c.core) c.asid (keyOf (leafIn ls x) x))
      if rs.any SectorRead.bad then .trap { code := 0x0E }
      else .ok (openBytes s runs a (((rs.flatMap SectorRead.data).drop (a % 32)).take n)) 0

/-- A copy waits for room in its cluster's tail buffer (R289): an absent line at an offset where none starts. -/
def tailFull : Got := .absent 1

/-- Bytes written to a copy's destination: the state, or a cause, a page the host owns, or a full tail buffer. -/
def copyPut (s : State) (c : Copy) (sp : Space) (a : Nat) (bs : List Byte) : Except Got State :=
  match sp with
  | .gang =>
    if (gangLocal s c.gang).size < a + bs.length then .error (.trap { code := 0x0C })
    else .ok (setGangLocal s c.gang (writeLocal (gangLocal s c.gang) a bs true))
  | .spad =>
    if (dieLocal s c.die c.launch).size < a + bs.length then .error (.trap { code := 0x0C })
    else .ok (setDieLocal s c.die c.launch (writeLocal (dieLocal s c.die c.launch) a bs true))
  | _ =>
    match translateNow s { asid := c.asid, level := c.level, write := true } a bs.length with
    | .fault k f => .error (.trap { code := k, addr := BitVec.ofNat 64 f })
    | .miss v => .error (.walk v)
    | .ok ls =>
      match storeBytes s c.core (clusterOf c.core) c.asid ls a bs with
      | some s => .ok s
      | none => .error tailFull

/-- The space of a side. -/
def Side.space : Side → Space
  | .gang _ => .gang
  | .spad _ => .spad
  | .tile _ => .spad
  | _ => .log

/-- The domain bits of a destination range after a copy of bytes (R206). -/
def copyDomain (s : State) (c : Copy) (from' n to' : Nat) : State :=
  let upd (l : Local) (hit : Bool) : Local := if c.mode = 0 && c.src.isLocal then (if hit then setDom l to' n else l)
    else clearDom l to' n
  let hit := match c.src with
    | .gang _ => domHit (gangLocal s c.gang) from' n
    | .spad _ => domHit (dieLocal s c.die c.launch) from' n
    | _ => false
  match c.dst with
  | .gang _ => setGangLocal s c.gang (upd (gangLocal s c.gang) hit)
  | .spad _ => setDieLocal s c.die c.launch (upd (dieLocal s c.die c.launch) hit)
  | .tile _ => setDieLocal s c.die c.launch (clearDom (dieLocal s c.die c.launch) to' n)
  | _ => s

/-- A copy whose bytes move in one unit: decoded, encoded, or through a tile port. -/
def oneUnit (c : Copy) : Bool := c.mode ≠ 0 || c.src.isTile || c.dst.isTile
/-- The side whose address cuts a copy into units, and their size: 2 KiB of the peer's address for a remote copy (R438),
aligned 32-byte units of the source otherwise (R231). -/
def unitCut (c : Copy) : Nat × Nat × Nat :=
  if c.src.isPeer then (c.src.at, c.slen, 2048)
  else if c.dst.isPeer then (c.dst.at, c.dlen, 2048) else (c.src.at, c.len, 32)
/-- The sidecar scales that a remote copy sends after its elements, as a range at the peer (R55, R438). -/
def sentScales (c : Copy) : Nat × Nat := if c.dst.isPeer then (sideRange c).getD (0, 0) else (0, 0)
/-- How many units a copy has: a remote encode has those of its sidecar scales too. -/
def copyUnits (c : Copy) : Nat :=
  let (a, n, u) := unitCut c
  if oneUnit c && u = 32 then 1 else (unitsOf u a n).length + (unitsOf 2048 (sentScales c).1 (sentScales c).2).length
/-- Unit `i` of a range cut at multiples of a size: offset and length. -/
def cutAt (a n u i : Nat) : Nat × Nat :=
  let lo := if i = 0 then a else (a / u + i) * u
  (lo - a, min (a + n) ((a / u + i + 1) * u) - lo)
/-- Offset and length of a unit in the bytes of the copy; the scales stand after the elements. -/
def unitAt (c : Copy) (i : Nat) : Nat × Nat :=
  let (a, n, u) := unitCut c
  let k := (unitsOf u a n).length
  if c.dst.isPeer && k ≤ i then
    let (sa, m) := sentScales c
    let (o, len) := cutAt sa m 2048 (i - k)
    (n + o, len)
  else cutAt a n u i
/-- Address at the peer of an offset in the bytes of a copy. -/
def peerAt (c : Copy) (o : Nat) : Nat := if o < c.dlen then c.dst.at + o else (sentScales c).1 + (o - c.dlen)

/-- A port's fault by its SUB (R344). -/
def portTrap (sub : Nat) : Got := .trap { code := sub }

/-- A raw image from a tile's read port (R342 to R344). -/
def readPort (s : State) (c : Copy) (o : Nat) : Got :=
  match copyRead s c .spad o 16 with
  | .ok hb _ =>
    let h := ofBytes hb
    let t := tileOf h
    let n := portLength c t
    let nb := rawBlocks n
    let size := (dieLocal s c.die c.launch).size
    if !tileOk h then portTrap 0x20
    else if n ≠ c.len then portTrap 0x21
    else if t.clen = 0 then (if size < t.base + n then portTrap 0x22 else copyRead s c .spad t.base n)
    else if size < t.base + 32 * lengthSectors nb then portTrap 0x22
    else match copyRead s c .spad t.base (32 * lengthSectors nb) with
      | .ok arr _ =>
        let ls := blockLengths nb arr
        let m := 32 * (ls.foldl (fun a x => a + x + 1) 0)
        if size < t.base + 32 * lengthSectors nb + m then portTrap 0x22
        else match copyRead s c .spad (t.base + 32 * lengthSectors nb) m with
          | .ok img _ => match expandBlocks ls img with
            | some r => .ok (r.take n) 0
            | none => portTrap 0x22
          | g => g
      | g => g
  | g => g

/-- A raw image written by a tile's write port, and CLEN in its header (R343, R344); an encode that yields fewer bytes than
the image leaves the rest free. -/
def writePort (s : State) (c : Copy) (o : Nat) (raw : List Byte) : Except Got State :=
  let l := dieLocal s c.die c.launch
  let h := ofBytes (mread l.mem o 16)
  let t := tileOf h
  let n := portLength c t
  let raw := raw ++ (upTo 0 (n - raw.length)).map (fun i => (Config.freeWord (s.free + i)).setWidth 8)
  let img := compressTile raw
  if badHit l o 16 then .error (.trap { code := 0x0E })
  else if !tileOk h then .error (portTrap 0x20)
  else if n ≠ c.len then .error (portTrap 0x21)
  else if l.size < t.base + img.length then .error (portTrap 0x22)
  else
    let l := writeLocal l t.base img false
    let l := writeLocal l (o + 12) (toBytes 3 (img.length / 32)) false
    .ok (setDieLocal s c.die c.launch l)

/-- Readers of a copy's narrow side and of its codebook tables (R54, R211): `img` is the narrow bytes of a peer, or a tile's
raw image (R342). -/
def copyReaders (s : State) (c : Copy) (img : List Byte) : (Nat → Nat → Got) × (Nat → Nat → Got) :=
  let narrow := if c.mode = 1 then c.src else c.dst
  let far := narrow.isPeer || narrow.isTile
  let rd (a n : Nat) : Got :=
    if far && c.mode = 1 && narrow.at ≤ a && a + n ≤ narrow.at + img.length then .ok ((img.drop (a - narrow.at)).take n) 0
    else if far && c.mode = 2 then .ok ((upTo 0 n).map (fun i => (Config.freeWord (s.free + i)).setWidth 8)) 0
    else copyRead s c narrow.space a n (c.mode = 2)
  (rd, fun a n => copyRead s c (if fmtCbs c.fmt then .spad else .log) a n)

/-- The bytes that a copy of one unit delivers (R230, R342): a raw or decoded image, or the fields of an encode. -/
def convertAll (s : State) (c : Copy) : Except Got (List Byte ⊕ BitFields) :=
  let raw : Got := match c.src with
    | .tile o => readPort s c o
    | a => if a.isPeer then .ok c.image 0 else if c.mode = 1 then .ok [] 0 else copyRead s c a.space a.at c.slen
  let (rd, tb) := copyReaders s c raw.bytes
  match c.mode with
  | 1 => if !raw.isOk then .error raw else match decodeRun rd tb c.fmt ((elemIndex c.fmt c.src.at).getD 0) (c.len / 4) with
    | .ok l => .ok (.inl (l.flatMap wordBytes))
    | .error g => .error g
  | 2 => match raw with
    | .ok l _ => match encodeRun rd tb c.fmt (c.len / 4) ((elemIndex c.fmt c.dst.at).getD 0) (wordsIn (c.len / 4) l) with
      | .ok b => .ok (.inr b)
      | .error g => .error g
    | g => .error g
  | _ => match raw with
    | .ok l _ => .ok (.inl l)
    | g => .error g

/-- Where a bit field of an encode lies in the bytes of the copy: among the elements from the destination's address on, or
among the sidecar scales after them. -/
def fieldAt (c : Copy) (p : Nat) : Nat :=
  if 8 * c.dst.at ≤ p && p < 8 * (c.dst.at + c.dlen) then p - 8 * c.dst.at
  else 8 * c.dlen + (p - 8 * ((sideRange c).getD (0, 0)).1)

/-- Bit fields of an encode laid over the bytes of the copy. -/
def layFields (c : Copy) (bs : List Byte) (fs : BitFields) : List Byte :=
  fs.foldl (fun bs (p, n, v) => layBits bs (fieldAt c p) n v) bs

/-- The bytes of a destination as they stand, for an encode that keeps the bits it does not write (R213). -/
def oldBytes (s : State) (c : Copy) (a n : Nat) : Except Got (List Byte) :=
  if c.dst.isPeer || c.dst.isTile then .ok ((upTo 0 n).map (fun i => (Config.freeWord (s.free + i)).setWidth 8))
  else match c.dst.space with
    | .gang => .ok (mread (gangLocal s c.gang).mem a n)
    | .spad => .ok (mread (dieLocal s c.die c.launch).mem a n)
    | _ => match translateNow s { asid := c.asid, level := c.level, write := true } a n with
      | .fault k f => .error (.trap { code := k, addr := BitVec.ofNat 64 f })
      | .miss v => .error (.walk v)
      | .ok ls => .ok ((((sectorsOf a n).flatMap (fun x =>
          (readSector s (clusterOf c.core) (dieOf c.core) c.asid (keyOf (leafIn ls x) x)).data)).drop (a % 32)).take n)

/-- The destination bytes of a copy of one unit; sidecar scales stand after the elements. -/
def wholeImage (s : State) (c : Copy) : Except Got (List Byte) :=
  match convertAll s c with
  | .error g => .error g
  | .ok (.inl l) => .ok l
  | .ok (.inr fs) => match oldBytes s c c.dst.at c.dlen with
    | .error g => .error g
    | .ok old => .ok (layFields c (old ++ List.replicate ((sideRange c).getD (0, 0)).2 0) fs)

/-- The destination bytes of a copy of one unit written, its sidecar scales to their own range (R55, R230). -/
def landImage (s : State) (c : Copy) (img : List Byte) : Except Got State :=
  match c.dst with
  | .tile t => (writePort s c t img).map (fun s => copyDomain s c c.src.at c.slen c.dst.at)
  | d =>
    match copyPut s c d.space d.at (img.take c.dlen) with
    | .error g => .error g
    | .ok s =>
      let s := copyDomain s c c.src.at (if c.mode = 0 then c.slen else c.dlen) c.dst.at
      match sideRange c with
      | none => .ok s
      | some (sa, n) => (copyPut s c d.space sa (img.drop c.dlen)).map (fun s => copyDomain s c 0 n sa)

/-- Destination lines of a copy whose bytes are all written (R232). -/
def linesDone (c : Copy) : List Nat :=
  let left := (upTo 0 (copyUnits c)).filter (fun i => !c.wrote.contains i)
  if oneUnit c then (if left.isEmpty then c.cleared else [])
  else c.cleared.filter (fun ln => left.all (fun i =>
    let (o, n) := unitAt c i
    !(unitsOf 128 (c.dst.at + o) n).contains ln))

/-- Presence bits set for lines of a copy (R232). -/
def setPresent (s : State) (i : Nat) (lines : List Nat) : State :=
  match tfind s.copies i with
  | none => s
  | some c =>
    if lines.isEmpty then s
    else
      let l := dieLocal s c.die c.launch
      let s := setDieLocal s c.die c.launch { l with absent := l.absent.filter (fun x => !lines.contains x) }
      let s := setCopy s i { c with cleared := c.cleared.filter (fun x => !lines.contains x) }
      linesArrived s c.die c.launch lines

/-- AUX of a remote copy's packets: CID, the peer's die, RGRP, a read mark and LEN (R439; the places of RGRP and of the
mark are the model's). -/
def copyAux (s : State) (c : Copy) (read : Bool) (n : Nat) : DWord :=
  BitVec.ofNat 64 (fields [(0, c.cid), (16, c.peerDie), (18, pktRgrp (launchAt s c.launch).pkt), (26, ofBool read), (32, n)])

/-- A packet of a remote copy (R438). -/
def copyPacket (s : State) (i : Nat) (c : Copy) (op addr n : Nat) (read : Bool) (data : List Byte) : Nat × State :=
  let e := ldtEntry s (pktRgrp (launchAt s c.launch).pkt)
  sendPacket s op (memberEp e c.chip) (bits e 127 112) c.asid (BitVec.ofNat 64 addr) (copyAux s c read n) data (.copy i)

/-- One unit of a copy moved (R231, R232, R438): the state, or what stands in the way. -/
def moveUnit (s : State) (i u : Nat) (c : Copy) : Except Got State :=
  let (o, n) := unitAt c u
  let mark (s : State) (c : Copy) : State :=
    let c := { c with wrote := u :: c.wrote }
    setPresent (setCopy s i c) i (linesDone c)
  if c.dst.isPeer then
    let img : Except Got (List Byte) := if c.mode ≠ 0 || c.src.isTile then
        (if c.image.isEmpty then wholeImage s c else .ok c.image) else .ok []
    match img with
    | .error g => .error g
    | .ok img =>
      let data : Got := if c.mode ≠ 0 || c.src.isTile then .ok ((img.drop o).take n) 0
        else copyRead s c c.src.space (c.src.at + o) n
      match data with
      | .ok bs _ =>
        let op := match c.dst with
          | .peerLog _ => 0x01
          | _ => 0x05
        let (tag, s) := copyPacket s i c op (peerAt c o) c.len false bs
        .ok (setCopy s i { c with image := img, wrote := u :: c.wrote, tags := c.tags ++ [(tag, u)] })
      | g => .error g
  else if c.src.isPeer then
    let op := match c.src with
      | .peerLog _ => 0x02
      | _ => 0x05
    let (tag, s) := copyPacket s i c op (c.src.at + o) n true []
    .ok (setCopy s i { c with wrote := u :: c.wrote, tags := c.tags ++ [(tag, u)] })
  else if oneUnit c then
    match wholeImage s c with
    | .error g => .error g
    | .ok img => (landImage s c img).map (fun s => mark s c)
  else
    match copyRead s c c.src.space (c.src.at + o) n with
    | .ok bs _ =>
      match copyPut s c c.dst.space (c.dst.at + o) bs with
      | .error g => .error g
      | .ok s => .ok (mark (copyDomain s c (c.src.at + o) n (c.dst.at + o)) c)
    | g => .error g

/-- A transfer fault (R234): the cause's code, or 0x23 for a wait on presence that has lasted the cohort's interval since a
unit began it (R344). -/
def faultOf (s : State) (c : Copy) (u : Nat) : Got → Option Nat
  | .trap t => some t.code
  | .absent o =>
    match pktWatchdog (launchAt s c.launch).pkt, c.stuck.find? (fun e => e.1 = u) with
    | some t, some (_, since) => if o % 128 = 0 && since + usec t ≤ s.now then some 0x23 else none
    | _, _ => none
  | _ => none

/-- A unit of a copy that cannot move yet: a page the host owns is asked for (R385), a wait for presence begins (R344), and a
full tail buffer is waited for. -/
def copyWaits (s : State) (i u : Nat) (c : Copy) : Got → State
  | .walk v =>
    let d := dieAt s (dieOf c.core)
    if d.missq.any (fun m => m.2.2 = .copy i) || d.walkers.any (fun k => k.2.queue.contains (.copy i)) then s
    else addMiss s (dieOf c.core) (clusterOf c.core) c.asid v (.copy i)
  | .absent o =>
    if o % 128 ≠ 0 || c.stuck.any (fun e => e.1 = u) then s else setCopy s i { c with stuck := (u, s.now) :: c.stuck }
  | _ => s

/-- The cause that a faulted copy reports (R234, R267). -/
def copyCause (c : Copy) : Trap :=
  { copyTrap c.desc c.logAddr.toNat ((c.fault.map Prod.fst).getD 0) with
    async := true, epc := c.pc, prog := BitVec.ofNat 64 ((c.fault.map Prod.snd).getD 0) }

/-- Items of a gang that wait in a `cwait`: group, position, queue, copies (R233). -/
def copyWaiters (s : State) (gang : Nat) : List (Nat × Nat × Nat × List Nat) :=
  (gangAt s gang).groups.flatMap (fun (g, x) => x.items.filterMap (fun (p, t) => match t.wait with
    | .copies q ids => some (g, p, q, ids)
    | _ => none))

/-- A fault reported to every item whose `cwait` covers the copy (R234). -/
def reportFault (s : State) (i : Nat) : State :=
  match tfind s.copies i with
  | none => s
  | some c =>
    let ws := (copyWaiters s c.gang).filter (fun w => w.2.2.2.contains i)
    let s := ws.foldl (fun s (g, p, _, _) =>
      let t := itemAt s c.gang g p
      let s := updItem s c.gang g p (fun t => { t with wait := .ready, readyAt := s.now })
      if t.helper then advance s c.gang [(g, p)] 1
      else deliver s c.gang g p { copyCause c with pc := nextWord t.pc 1 }) s
    if ws.any (fun w => !(itemAt s c.gang w.1 w.2.1).helper) then
      match tfind s.copies i with
      | some c => setCopy s i { c with reported := true }
      | none => s
    else s

/-- Every unwritten byte of a stopped copy's destination is a free value, those of a tile's image in the lines it cleared
included, and its lines are present (R232, R234). -/
def abandonCopy (s : State) (i : Nat) (c : Copy) : State :=
  let left := (upTo 0 (copyUnits c)).filter (fun u => !c.wrote.contains u)
  let free (s : State) (a n : Nat) : State :=
    let bs := (upTo 0 n).map (fun j => (Config.freeWord (s.free + j)).setWidth 8)
    let s := { s with free := s.free + n }
    match copyPut s c c.dst.space a bs with
    | .ok s => s
    | .error _ => s
  let lineBytes (s : State) (ln : Nat) : State :=
    let t := match c.dst with
      | .tile o => tileOf (ofBytes (mread (dieLocal s c.die c.launch).mem o 16))
      | _ => tileOf 0
    let nb := rawBlocks (portLength c t)
    let lo := max (128 * ln) t.base
    free s lo (min (128 * ln + 128) (t.base + 256 * nb + 32 * lengthSectors nb) - lo)
  let s := if c.dst.isPeer then s
    else if c.dst.isTile then c.cleared.foldl lineBytes s
    else if oneUnit c || c.src.isPeer then free s c.dst.at c.dlen
    else left.foldl (fun s u => free s (c.dst.at + (unitAt c u).1) (unitAt c u).2) s
  setPresent s i c.cleared

/-- A copy stopped by a fault (R234). -/
def stopCopy (s : State) (i sub off : Nat) : State :=
  match tfind s.copies i with
  | none => s
  | some c =>
    if c.stopped then s
    else
      let s := setCopy s i { c with stopped := true, fault := some (sub, off), tags := [] }
      reportFault (abandonCopy s i c) i

/-- A copy from a peer whose every unit has been answered writes its bytes: the state, or what stands in the way. -/
def landPeer (s : State) (i : Nat) (c : Copy) : Except Got State :=
  match (if c.mode = 0 then .ok c.image else wholeImage s c) with
  | .error g => .error g
  | .ok img => (landImage s c img).map (fun s => setPresent (setCopy s i { c with stopped := true }) i c.cleared)

/-- Every unit of a copy from a peer has been answered. -/
def gathered (c : Copy) : Bool := c.src.isPeer && c.tags.isEmpty && decide (c.wrote.length = copyUnits c)

/-- What a unit of a copy comes to when it is tried now: none when nothing is left to try. -/
def tryUnit (s : State) (i u : Nat) (c : Copy) : Option (Except Got State) :=
  if c.stopped then none
  else if gathered c then (if u = 0 then some (landPeer s i c) else none)
  else if c.wrote.contains u || copyUnits c ≤ u then none
  else some (moveUnit s i u c)

/-- COPY_LINE_WRITTEN (R231, R232): one unit of a copy is read and written; a page that the host owns is asked for
(R385). -/
def unitEvent (s : State) (i u : Nat) : State :=
  match tfind s.copies i with
  | none => s
  | some c =>
    match tryUnit s i u c with
    | none => s
    | some (.ok s) =>
      match tfind s.copies i with
      | some c => if c.wrote.length = copyUnits c && !c.src.isPeer && !c.dst.isPeer then
          setCopy s i { c with stopped := true } else s
      | none => s
    | some (.error g) => copyWaits s i u c g

/-- COPY_TRANSFER_FAULT (R234): the unit meets a fault, which stops the copy. -/
def faultEvent (s : State) (i u : Nat) : State :=
  match tfind s.copies i with
  | none => s
  | some c =>
    match tryUnit s i u c with
    | some (.error g) => match faultOf s c u g with
      | some sub => stopCopy s i sub (unitAt c u).1
      | none => s
    | _ => s

/-- Bytes that a remote copy's answers have brought, unit by unit (R438); with the last of them the copy writes what it has
gathered, or waits as a unit does. -/
def peerData (s : State) (i u : Nat) (bs : List Byte) : State :=
  match tfind s.copies i with
  | none => s
  | some c =>
    let (o, n) := unitAt c u
    let img := c.image ++ List.replicate (o + n - c.image.length) 0
    let c := { c with image := (img.take o) ++ bs.take n ++ img.drop (o + n), tags := c.tags.filter (fun t => t.2 ≠ u) }
    let s := setCopy s i c
    if gathered c then faultEvent (unitEvent s i 0) i 0 else s

/-- COPY_COMPLETE (R231, R233): in issue order within a queue, after the second release of a `cpy.rel`. -/
def copyDone (s : State) (i : Nat) : State :=
  match tfind s.copies i with
  | none => s
  | some c =>
    let earlier := s.copies.any (fun x => x.1 < i && x.2.gang = c.gang && x.2.queue = c.queue && !x.2.finished)
    if !c.stopped || c.finished || earlier then s
    else match c.relScope, c.release, c.fault with
      | some sc, none, none =>
        let r := makeRelease s c.core c.gang c.asid sc
        pushAllRelease (setCopy s i { c with release := some r }) r
      | _, some r, none =>
        if released s r then finish s i c else (stallPush s (.release r)).getD s
      | _, _, _ => finish s i c
where
  /-- the queue is signalled: waits that name only this copy end -/
  finish (s : State) (i : Nat) (c : Copy) : State :=
    let s := (copyWaiters s c.gang).foldl (fun s (g, p, q, ids) =>
      if ids.contains i then
        let ids := ids.filter (· ≠ i)
        updItem s c.gang g p (fun t => if ids.isEmpty then { t with wait := .barrierDone, readyAt := s.now }
          else { t with wait := .copies q ids })
      else s) s
    let s := if c.fault.isSome && !c.reported then setCopy s i { c with finished := true, image := [] }
      else { s with copies := tdel s.copies i }
    dropEnded s c.gang

/-- One item's `cwait` (R233, R234): it goes on, takes a fault that nobody was told of, or waits. -/
def cwaitItem (q : Nat) (s : State) (w : Where) (g p : Nat) (d : Done × List Nat) : State × (Done × List Nat) :=
  let gang := w.b.gang
  let t := itemAt s gang g p
  let go (s : State) : State × (Done × List Nat) :=
    (updItem s gang g p (fun t => { t with wait := .ready }), ({ d.1 with hits := d.1.hits ++ [(g, p, { addr := 0 })] }, d.2))
  let mine := s.copies.filter (fun c => c.2.gang = gang && c.2.queue = q)
  match t.wait with
  | .barrierDone => go s
  | _ =>
    match (if t.helper then none else mine.find? (fun c => c.2.fault.isSome && !c.2.reported)) with
    | some (i, c) =>
      (s, ({ d.1 with traps := d.1.traps ++ [(g, p, { copyCause c with pc := nextWord t.pc 1 })] }, i :: d.2))
    | none =>
      let ids := (mine.filter (fun c => !c.2.finished)).map Prod.fst
      if ids.isEmpty then go s
      else (updItem s gang g p (fun t => { t with wait := .copies q ids }), ({ d.1 with left := d.1.left ++ [(g, p)] }, d.2))

/-- `cwait` (R233). -/
def cwaitStep (o : CwaitOp) (s : State) : State :=
  match issuing s with
  | none => s
  | some w =>
    match w.b.span with
    | some i => pourOrDeal s w i false
    | none =>
      let gang := w.b.gang
      let s := dropRings s gang w.b.members
      let (s, q, told) := w.b.members.foldl (fun (s, d) (g, p) => cwaitItem o.q.toNat s w g p d) (s, (({} : Done), []))
      let s := told.foldl (fun s i => match tfind s.copies i with
        | some c => if c.finished then { s with copies := tdel s.copies i } else setCopy s i { c with reported := true }
        | none => s) s
      waitEnd s w { go := w.b.members, traps := [], zero := [] } q 120 0 1 o.c none

/-- CPY (R230). -/
def execCpy (o : WideOp) (s : State) : Out := .next (cpyStep o s)
/-- CWAIT (R233). -/
def execCwait (o : CwaitOp) (s : State) : Out := .next (cwaitStep o s)

end Sys2Proof.Machine
end

