-- ==== Sys2Proof/Machine/Group.lean ====
section
/-!
DEFINITION. Exchanges, permutes, votes, reductions, barriers and register blocks, opcodes 0x70 to 0x78 (R181 to R203).
-/
namespace Sys2Proof.Machine

/-- A group instruction in items: the checks that stand first, then its effect; a span pours (R163, R181). `drop` marks the
wait class, whose ring goes first (R146). -/
def groupStep (u : Uses) (dsts : List Nat) (drop : Bool) (body : State → Where → Sifted → State) (s : State) : State :=
  match issuing s with
  | none => s
  | some w =>
    match w.b.span with
    | some i => pourOrDeal s w i (spanTrap (spanAt s i) u)
    | none =>
      if w.b.prog.done then body s w { go := [], traps := [], zero := [] }
      else
        let s := if drop then dropRings s w.b.gang w.b.members else s
        match memSift s w u dsts with
        | (s, none) => s
        | (s, some k) => body s w k

/-- Members written one word each (R181): D with its push. -/
def resultsEnd (s : State) (w : Where) (k : Sifted) (d : Field7) (ext : Word) (len : Nat) (chained : Bool)
    (rs : List (Nat × Nat × Word)) (left : List (Nat × Nat)) : State :=
  let s := deliverWords s w.b.gang d ext (rs.map (fun (g, p, v) => (g, p, [v])))
  waitEnd s w k { hits := rs.map (fun (g, p, v) => (g, p, { addr := 0, ws := [v] })), left } d 1 len chained none

/-- Registers of D that a result writes. -/
def dstRegs (d : Field7) : List Nat := if isV d then [d.toNat] else []

/-- The value of a 32-bit source of an item. -/
def operand (s : State) (gang g p : Nat) (ext : Word) (f : Field7) : Word :=
  lowWord (srcAt (gangAt s gang).oneD (groupAt s gang g) p ext { f })

/-- An exchange (R183 to R187): items that no release covers arrive and wait; a release set exchanges. `pos` gives the
position that an item reads, if one exists; every member of the release set supplies its A, one that traps or that receives
zero too (R185). -/
def exchangeStep (xg : Bool) (u : Uses) (d a : Field7) (ext : Word) (len : Nat) (chained : Bool)
    (pos : State → Nat → Nat → Nat → Option Nat) (s : State) : State :=
  match issuing s with
  | none => s
  | some w =>
    match w.b.span with
    | some i => pourOrDeal s w i (spanTrap (spanAt s i) u)
    | none =>
      let gang := w.b.gang
      let setOf (m : Nat × Nat) : Option Nat := match (itemAt s gang m.1 m.2).wait with
        | .released n => some n
        | _ => none
      let s := dropRings s gang w.b.members
      let come := w.b.members.filter (fun m => (setOf m).isNone)
      let there := w.b.members.filter (fun m => (setOf m).isSome)
      if there.isEmpty then
        let s := updItems s gang come (fun t => { t with wait := .exchange xg })
        waitEnd s w { go := [], traps := [], zero := [] } { left := come } d 0 len chained none
      else
        match memSift s { w with b := { w.b with members := there } } u (dstRegs d) with
        | (s, none) => s
        | (s, some k) =>
          let s := updItems s gang come (fun t => { t with wait := .exchange xg })
          let val (m : Nat × Nat) : Word := operand s gang m.1 m.2 ext a
          let rs := k.go.map (fun (g, p) =>
            let v := match pos s gang g p with
              | some q => if there.any (fun m => m = (g, q) && setOf m = setOf (g, p)) then val (g, q) else val (g, p)
              | none => val (g, p)
            (g, p, v))
          let s := updItems s gang there (fun t => { t with wait := .ready })
          resultsEnd s w k d ext len chained rs come

/-- `xq` (R186). -/
def xqStep (o : XqOp) (s : State) : State :=
  let u : Uses := { named := [(o.d, 1), (o.a, 1)], read := [(o.a, 1)], ext := o.ext }
  let pos (_ : State) (_ _ p : Nat) : Option Nat :=
    if o.bc then some (4 * (p / 4) + o.m.toNat) else some (p ^^^ o.m.toNat)
  exchangeStep false u o.d o.a o.ext (if o.x then 2 else 1) o.c pos s

/-- `xg` (R187). -/
def xgStep (o : XgOp) (s : State) : State :=
  let u : Uses := { named := [(o.d, 1), (o.a, 1), (o.b, 1)], read := [(o.a, 1), (o.b, 1)], ext := o.ext }
  let m := modOf (some o.d) [o.a, o.b] o.x o.ext
  let pos (s : State) (gang g p : Nat) : Option Nat :=
    let k := ((operand s gang g p o.ext o.b).toNat + bits m 7 3) % 32
    match m % 8 with
    | 0 => some k
    | 1 => some (p ^^^ k)
    | 2 => if k ≤ p then some (p - k) else none
    | 3 => if p + k < 32 then some (p + k) else none
    | _ => some ((p + k) % 32)
  exchangeStep true u o.d o.a o.ext (if o.x then 2 else 1) o.c pos s

/-- Positions of an exchange's partner set (R183). -/
def partners (quad : Nat) (xg : Bool) : List Nat := if xg then upTo 0 32 else upTo (4 * quad) 4

/-- Every live member of a partner set stands at an exchange, and some member at this opcode (R183). -/
def exchangeReady (s : State) (gang g quad : Nat) (xg : Bool) : Bool :=
  let live := (groupAt s gang g).items.filter (fun t => (partners quad xg).contains t.1)
  let at' (t : Item) (b : Bool) : Bool := t.wait = .exchange b
  live.all (fun t => at' t.2 true || at' t.2 false) && live.any (fun t => at' t.2 xg)

/-- The members of a partner set that wait at an exchange's opcode. -/
def arrived (x : Group) (quad : Nat) (xg : Bool) : List (Nat × Item) :=
  x.items.filter (fun t => (partners quad xg).contains t.1 && t.2.wait = .exchange xg)

/-- The partner sets of a home group whose condition holds: its quads for `xq`, and the group for `xg` (R183). -/
def readySets (s : State) (gang g : Nat) : List (List (Nat × Item)) :=
  (((upTo 0 8).map (fun q => (q, false))) ++ [(0, true)]).filterMap (fun (q, xg) =>
    if exchangeReady s gang g q xg then some (arrived (groupAt s gang g) q xg) else none)

/-- A partner set released: its members at each word address form a release set (R183, R184). -/
def releaseSet (s : State) (gang g : Nat) (ms : List (Nat × Item)) : State :=
  (nodup (ms.map (fun t => t.2.pc))).foldl (fun s pc =>
    let (n, s) := newName s
    updItems s gang ((ms.filter (fun t => t.2.pc = pc)).map (fun t => (g, t.1))) (fun t =>
      { t with wait := .released n, readyAt := s.now })) s

/-- EXCHANGE_RELEASE (R183, R184): the partner sets of the group whose conditions hold at this moment are released, an `xq`
set and an `xg` set that hold together included. -/
def exchangeEvent (s : State) (gang g quad : Nat) (xg : Bool) : State :=
  if !exchangeReady s gang g quad xg then s
  else (readySets s gang g).foldl (fun s ms => releaseSet s gang g ms) s

/-- A byte of a pattern register's image (R188). -/
def patByte (p : BitVec 2048) (d : Nat) : Nat := (p >>> (8 * d)).toNat % 256

/-- `perm` (R189): positions that are vacant, ended, or without the register supply zero. -/
def permStep (o : PermOp) (s : State) : State :=
  let u : Uses := { named := [(o.d, 1), (o.a, 1), (o.b, 1)], read := [(o.a, 1), (o.b, 1)], ext := 0 }
  groupStep u (dstRegs o.d) false (fun s w k =>
    let gang := w.b.gang
    let gg := gangAt s gang
    let pat := tget gg.pat (o.ext.toNat % 16) 0
    let src (g q : Nat) (f : Field7) : Word :=
      let x := groupAt s gang g
      match itemIn x q with
      | none => 0
      | some t => if isV f && (f.toNat < 32 || t.ext) then vAt gg.oneD x f.toNat q else 0
    let rs := k.go.map (fun (g, p) =>
      let byte (j : Nat) : Nat :=
        let d := 4 * p + j
        let e := patByte pat d
        if pat.getLsbD (1024 + d) then 0
        else bits (src g (e % 128 / 4) (if bit e 7 then o.b else o.a)).toNat (8 * (e % 4) + 7) (8 * (e % 4))
      (g, p, BitVec.ofNat 32 (byte 0 + 256 * byte 1 + 65536 * byte 2 + 16777216 * byte 3)))
    resultsEnd s w k o.d 0 2 o.c rs []) s

/-- A result for each group from its participants, given to participants and helpers (R192). -/
def perGroup (s : State) (gang : Nat) (go : List (Nat × Nat)) (f : Nat → List Nat → Nat → Word) : List (Nat × Nat × Word) :=
  go.map (fun (g, p) =>
    let ps := sortBy id ((inGroup go g).filter (fun q => !(itemAt s gang g q).helper))
    (g, p, f g ps p))

/-- `vote` (R193). -/
def voteStep (o : VoteOp) (s : State) : State :=
  groupStep { named := [(o.d, 1)], read := [], ext := 0 } (dstRegs o.d) false (fun s w k =>
    let gang := w.b.gang
    let oneD := (gangAt s gang).oneD
    let rs := perGroup s gang k.go (fun g ps _ =>
      let x := groupAt s gang g
      let yes := ps.filter (fun q => cAt oneD x o.cn.toNat q != o.na)
      BitVec.ofNat 32 (match o.mode.toNat with
        | 0 => yes.foldl (fun n q => n + 2 ^ q) 0
        | 1 => ofBool (!yes.isEmpty)
        | 2 => ofBool (yes.length = ps.length)
        | 3 => yes.length
        | _ => ofBool (yes.isEmpty || yes.length = ps.length)))
    resultsEnd s w k o.d 0 1 o.c rs []) s

/-- The identity of a reduction (R194). -/
def redIdentity (op : Nat) : Word :=
  match op with
  | 1 => 0x7FFFFFFF
  | 2 => 0x80000000
  | 3 => 0xFFFFFFFF
  | 5 => 0xFFFFFFFF
  | 9 => BitVec.ofNat 32 f32.canon
  | 10 => BitVec.ofNat 32 f32.canon
  | _ => 0

/-- The magnitude of a finite f32, +0 of any other, with NV for a signalling NaN (R194 famax). -/
def finiteMag (a : Word) : Word × Nat :=
  let v := unpack f32 a.toNat
  if v.isNan || v.isInf then (0, flagIf v.isSig flagNV) else (a &&& 0x7FFFFFFF, 0)

/-- One step of a reduction with its flags (R194). -/
def redOp (op : Nat) (r a : Word) : Word × Nat :=
  let fl (x : Nat × Nat) : Word × Nat := (BitVec.ofNat 32 x.1, x.2)
  match op with
  | 0 => (r + a, 0)
  | 1 => (if r.toInt ≤ a.toInt then r else a, 0)
  | 2 => (if r.toInt ≤ a.toInt then a else r, 0)
  | 3 => (if r.toNat ≤ a.toNat then r else a, 0)
  | 4 => (if r.toNat ≤ a.toNat then a else r, 0)
  | 5 => (r &&& a, 0)
  | 6 => (r ||| a, 0)
  | 7 => (r ^^^ a, 0)
  | 8 => fl (floatAdd f32 r.toNat a.toNat)
  | 9 => fl (floatPick f32 false r.toNat a.toNat)
  | 10 => fl (floatPick f32 true r.toNat a.toNat)
  | _ =>
    let (m, f) := finiteMag a
    (if r.toNat ≤ m.toNat then m else r, f)

/-- The first running value of a reduction (R194). -/
def redFirst (op : Nat) (a : Word) : Word × Nat :=
  match op with
  | 8 =>
    let v := unpack f32 a.toNat
    (if v.isNan then BitVec.ofNat 32 f32.canon else a, flagIf v.isSig flagNV)
  | 11 => finiteMag a
  | _ => (a, 0)

/-- Running values of a reduction after each participant, and the flags of every step (R194). -/
def redRun (op : Nat) : List (Nat × Word) → List (Nat × Word) × Nat
  | [] => ([], 0)
  | (p, a) :: r =>
    let (v, f) := redFirst op a
    let rec go (v : Word) (f : Nat) (acc : List (Nat × Word)) : List (Nat × Word) → List (Nat × Word) × Nat
      | [] => (acc, f)
      | (p, a) :: r =>
        let (v', f') := redOp op v a
        go v' (f ||| f') (acc ++ [(p, v')]) r
    go v f [(p, v)] r

/-- `gred` (R194). -/
def gredStep (o : GredOp) (s : State) : State :=
  let u : Uses := { named := [(o.d, 1), (o.a, 1)], read := [(o.a, 1)], ext := o.ext }
  groupStep u (dstRegs o.d) false (fun s w k =>
    let gang := w.b.gang
    let op := o.op.toNat
    let run (g : Nat) (ps : List Nat) : List (Nat × Word) × Nat :=
      redRun op (ps.map (fun q => (q, operand s gang g q o.ext o.a)))
    let rs := perGroup s gang k.go (fun g ps p =>
      let vs := (run g ps).1
      let upto := if o.scan then vs.filter (fun v => v.1 ≤ p) else vs
      ((upto.getLast?).map Prod.snd).getD (redIdentity op))
    let s := (groupsOf k.go).foldl (fun s g =>
      let fl := (run g (sortBy id ((inGroup k.go g).filter (fun q => !(itemAt s gang g q).helper)))).2
      if fl = 0 then s else updGroup s gang g (fun x => groupFlags x fl)) s
    resultsEnd s w k o.d o.ext (if o.x then 2 else 1) o.c rs []) s

/-- A barrier object as an item reads it (R195, R196): its two words, or a cause. -/
def readBarrier (s : State) (w : Where) (g p off : Nat) : Except Trap (Word × Word) :=
  if off % 8 ≠ 0 then .error { code := 0x09, addr := BitVec.ofNat 64 off }
  else match readLocal s (whoOf s w g p) false false true off 8 with
    | .ok l _ => .ok (headWord l, headWord (l.drop 4))
    | .trap t => .error t
    | _ => .ok (0, 0)

/-- Every item that waits on a barrier object is released (R196 wake, R197). -/
def wakeBarrier (s : State) (gang off : Nat) : State :=
  let ms := (gangAt s gang).groups.flatMap (fun (g, x) => x.items.filterMap (fun (p, t) =>
    if t.wait = .barrier off then some (g, p) else none))
  updItems s gang ms (fun t => { t with wait := .barrierDone, readyAt := s.now })

/-- One arrival at a barrier object (R196): its words after it, and whether it completes the phase. -/
def arrive (drop : Bool) (lo hi : Word) : Word × Word × Bool :=
  let pending := lo.toNat % 65536
  let phase := lo.toNat / 65536
  let expect := hi.toNat % 65536
  if pending = 0 then (lo, hi, false)
  else
    let expect := if drop && 0 < expect then expect - 1 else expect
    let hi := BitVec.ofNat 32 (hi.toNat / 65536 * 65536 + expect)
    if pending = 1 then (BitVec.ofNat 32 ((phase + 1) % 65536 * 65536 + expect), hi, true)
    else (BitVec.ofNat 32 (phase * 65536 + (pending - 1)), hi, false)

/-- Tokens put into D; `barr` pushes nothing (R196). -/
def giveTokens (s : State) (gang : Nat) (d : Field7) (ext : Word) (rs : List (Nat × Nat × Word)) : State :=
  let oneD := (gangAt s gang).oneD
  if isV d then rs.foldl (fun s (g, p, v) => updGroup s gang g (fun x => putWords oneD x d.toNat [(p, v)])) s
  else if d = 124 then (nodup (rs.map Prod.fst)).foldl (fun s g => updGroup s gang g (fun x =>
    match sWriter x ((rs.filter (fun r => r.1 = g)).map (fun r => r.2.1)) with
    | none => x
    | some p => match rs.find? (fun r => r.1 = g && r.2.1 = p) with
      | some (_, _, v) => putS x (extS ext) v
      | none => x)) s
  else s

/-- `barr` and `barr.drop` (R196, R199). -/
def barrStep (drop : Bool) (o : DaOp) (s : State) : State :=
  let u : Uses := { named := [(o.d, 1), (o.a, 1)], read := [(o.a, 1)], ext := o.ext }
  groupStep u (dstRegs o.d) false (fun s w k =>
    let gang := w.b.gang
    match (if anyReal s gang k.go then beginRelease s w 1 else none) with
    | some s => s
    | none =>
      let off (g p : Nat) : Nat := (operand s gang g p o.ext o.a).toNat
      let s := k.go.foldl (fun s (g, p) => meetLocal s w.core gang false [(off g p, 8)]) s
      let real := byGpos (k.go.filter (fun m => !(itemAt s gang m.1 m.2).helper))
      let help := k.go.filter (fun m => (itemAt s gang m.1 m.2).helper)
      let (s, rs, ts) := real.foldl (fun (s, rs, ts) (g, p) =>
        match readBarrier s w g p (off g p) with
        | .error t => (s, rs, ts ++ [(g, p, { t with wr := true })])
        | .ok (lo, hi) =>
          let (lo', hi', done) := arrive drop lo hi
          let s := if (lo', hi') = (lo, hi) then s
            else setGangLocal s gang (writeLocal (gangLocal s gang) (off g p) (wordBytes lo' ++ wordBytes hi') true)
          let s := if done then wakeBarrier s gang (off g p) else s
          (s, rs ++ [(g, p, BitVec.ofNat 32 (lo.toNat / 65536))], ts)) (s, [], ([] : List (Nat × Nat × Trap)))
      let (hs, zs) := help.foldl (fun (hs, zs) (g, p) =>
        match readBarrier s w g p (off g p) with
        | .error _ => (hs, zs ++ [(g, p)])
        | .ok (lo, _) => (hs ++ [(g, p, BitVec.ofNat 32 (lo.toNat / 65536))], zs)) (([] : List (Nat × Nat × Word)), [])
      let s := giveTokens s gang o.d o.ext (rs ++ hs ++ (k.zero ++ zs).map (fun (g, p) => (g, p, 0)))
      waitEnd s w { k with zero := [] } { hits := (rs ++ hs).map (fun (g, p, _) => (g, p, { addr := 0 })), traps := ts } 120 0
        (if o.x then 2 else 1) o.c none) s

/-- `barw` (R197, R199). -/
def barwStep (o : BarwOp) (s : State) : State :=
  let u : Uses := { named := [(o.a, 1), (o.b, 1)], read := [(o.a, 1), (o.b, 1)], ext := o.ext }
  groupStep u [] true (fun s w k =>
    let gang := w.b.gang
    let off (g p : Nat) : Nat := (operand s gang g p o.ext o.a).toNat
    let s := k.go.foldl (fun s (g, p) =>
      if (itemAt s gang g p).helper then s else meetLocal s w.core gang false [(off g p, 8)]) s
    let (s, q) := k.go.foldl (fun (s, (q : Done)) (g, p) =>
      let t := itemAt s gang g p
      let go (s : State) : State × Done :=
        (updItem s gang g p (fun t => { t with wait := .ready }), { q with hits := q.hits ++ [(g, p, { addr := 0 })] })
      if t.helper || t.wait = .barrierDone then go s
      else match readBarrier s w g p (off g p) with
        | .error c => (s, { q with traps := q.traps ++ [(g, p, c)] })
        | .ok (lo, _) =>
          if lo.toNat / 65536 ≠ (operand s gang g p o.ext o.b).toNat % 65536 then go s
          else (updItem s gang g p (fun t => { t with wait := .barrier (off g p) }), { q with left := q.left ++ [(g, p)] }))
      (s, {})
    waitEnd s w k q 120 0 (if o.x then 2 else 1) o.c none) s

/-- No register is named. -/
def noUses : Uses := { named := [], read := [], ext := 0 }

/-- `xacq.v` (R153, R201). -/
def xacqVStep (o : NullOp) (s : State) : State :=
  groupStep noUses [] true (fun s w k =>
    let gang := w.b.gang
    let want := k.go.filter (fun m => !(itemAt s gang m.1 m.2).ext)
    let fin (s : State) (left : List (Nat × Nat)) : State :=
      waitEnd s w k { hits := (k.go.filter (fun m => !left.contains m)).map (fun m => (m.1, m.2, { addr := 0 })), left } 120 0 1
        o.c none
    if want.isEmpty then fin s []
    else
      let l := laneAt s w.core w.lane
      let c := coreAt s w.core
      if l.queue.isEmpty && 5 * want.length ≤ availGranules l gang then
        let s := setLane (setCore s w.core { c with dirty := true }) w.core w.lane (takeGranules l gang (5 * want.length))
        fin ((groupsOf want).foldl (fun s g => grantV s gang g (inGroup want g)) s) []
      else
        let r : BlockReq := { gang, g := 0, gposs := want.map (fun (g, p) => 32 * g + p), upto := 0 }
        let s := setLane s w.core w.lane { l with queue := l.queue ++ [r] }
        fin (updItems s gang want (fun t => { t with wait := .block })) want) s

/-- `xacq.s k` (R154, R201). -/
def xacqSStep (o : BlkOp) (s : State) : State :=
  groupStep noUses [] true (fun s w k =>
    let gang := w.b.gang
    let n := o.k.toNat
    let sblk := (gangAt s gang).sblk
    let (s, left) := (groupsOf k.go).foldl (fun (s, left) g =>
      let x := groupAt s gang g
      if n ≤ x.blocks then (s, left)
      else
        let c := coreAt s w.core
        let need := beyond sblk n - beyond sblk x.blocks
        if need = 0 || (c.queueS.isEmpty && need ≤ c.pool) then
          (grantS (setCore s w.core { c with pool := c.pool - need, dirty := true }) gang g n [], left)
        else
          let ps := inGroup k.go g
          let s := setCore s w.core { c with queueS := c.queueS ++ [{ gang, g, gposs := ps, upto := n }] }
          let ms := ps.map (fun p => (g, p))
          (updItems s gang ms (fun t => { t with wait := .block }), left ++ ms)) (s, ([] : List (Nat × Nat)))
    waitEnd s w k { hits := (k.go.filter (fun m => !left.contains m)).map (fun m => (m.1, m.2, { addr := 0 })), left } 120 0 1
      o.c none) s

/-- `xrel.v` (R153, R202). -/
def xrelVStep (o : NullOp) (s : State) : State :=
  groupStep noUses [] false (fun s w k =>
    let s := k.go.foldl (fun s (g, p) => returnV s w.b.gang g p) s
    conclude (serveQueues s w.core w.lane) w k 120 0 1 { chained := o.c } false) s

/-- `xrel.s k` (R154, R202). -/
def xrelSStep (o : BlkOp) (s : State) : State :=
  groupStep noUses [] false (fun s w k =>
    let s := (groupsOf k.go).foldl (fun s g => returnS s w.b.gang g o.k.toNat) s
    conclude (serveQueues s w.core w.lane) w k 120 0 1 { chained := o.c } false) s

/-- XQ (R186). -/
def execXq (o : XqOp) (s : State) : Out := .next (xqStep o s)
/-- XG (R187). -/
def execXg (o : XgOp) (s : State) : Out := .next (xgStep o s)
/-- PERM (R189). -/
def execPerm (o : PermOp) (s : State) : Out := .next (permStep o s)
/-- VOTE (R193). -/
def execVote (o : VoteOp) (s : State) : Out := .next (voteStep o s)
/-- GRED (R194). -/
def execGred (o : GredOp) (s : State) : Out := .next (gredStep o s)
/-- BARR (R196). -/
def execBarr (o : DaOp) (s : State) : Out := .next (barrStep false o s)
/-- BARR_DROP (R196). -/
def execBarrDrop (o : DaOp) (s : State) : Out := .next (barrStep true o s)
/-- BARW (R197). -/
def execBarw (o : BarwOp) (s : State) : Out := .next (barwStep o s)
/-- XACQ_V (R201). -/
def execXacqV (o : NullOp) (s : State) : Out := .next (xacqVStep o s)
/-- XACQ_S (R201). -/
def execXacqS (o : BlkOp) (s : State) : Out := .next (xacqSStep o s)
/-- XREL_V (R202). -/
def execXrelV (o : NullOp) (s : State) : Out := .next (xrelVStep o s)
/-- XREL_S (R202). -/
def execXrelS (o : BlkOp) (s : State) : Out := .next (xrelSStep o s)

end Sys2Proof.Machine
end

