-- ==== Sys2Proof/Machine/Matrix.lean ====
section
/-!
DEFINITION. The matrix arrays (R236 to R257): `msign`, `mma`, `mwait`, `macc`, and the completion of an operation.
-/
namespace Sys2Proof.Machine

/-- The classes of operands (R236). -/
inductive MatClass where
  | c4
  | c8
  | c16
  | cc16
  | cc8
  deriving DecidableEq, Repr

/-- The class of a tile's elements: none for f32 (R236). -/
def tileClass (t : Tile) (f : BitVec 256) : Option MatClass :=
  match t.ty with
  | 1 => some .c16
  | 2 => some .c16
  | 3 => some .cc16
  | 4 => some .cc16
  | 5 => some (if elemBits f ≤ 4 then .c4 else .c8)
  | 6 => some .cc8
  | _ => none

/-- k per column of a dense operation (R236). -/
def MatClass.kMax : MatClass → Nat
  | .c4 => 384
  | .c8 => 192
  | .c16 => 96
  | .cc16 => 24
  | .cc8 => 48
/-- Length L of a run (R236). -/
def MatClass.run : MatClass → Nat
  | .c4 => 64
  | .c8 => 32
  | .c16 => 16
  | .cc16 => 8
  | .cc8 => 16
/-- Bits of a container, of both halves for a complex class (R236). -/
def MatClass.width : MatClass → Nat
  | .c4 => 4
  | .c8 => 8
  | .c16 => 16
  | .cc16 => 32
  | .cc8 => 16
/-- The elements are complex. -/
def MatClass.complex : MatClass → Bool
  | .cc16 => true
  | .cc8 => true
  | _ => false
/-- Words of a fragment's row (R238). -/
def MatClass.rowWords (c : MatClass) : Nat := if c.complex then 24 else 48

/-- The value zero. -/
def Val.zero : Val := .fin false 0 1 0

/-- The parts of an element from its container: real, and imaginary for a complex type (R58, R236, R238). -/
def elemParts (t : Tile) (f : BitVec 256) (code : Nat) : Val × Val :=
  match t.ty with
  | 0 => (unpack f32 code, .zero)
  | 1 => (unpack f16 code, .zero)
  | 2 => (unpack bf16 code, .zero)
  | 3 => (unpack bf16 (code % 65536), unpack bf16 (code / 65536))
  | 4 => (unpack f16 (code % 65536), unpack f16 (code / 65536))
  | 6 => (narVal f (code % 256), narVal f (code / 256))
  | _ => (narVal f code, .zero)

/-- A format that the arrays and the transform unit can use (R240). -/
def fmtPlain (f : BitVec 256) : Bool := f ≠ 0 && fmtL f = 0 && fmtSck f = 0 && fmtK f = 0
/-- The format image of a tile's elements. -/
def tileFmt (fmts : Tbl (BitVec 256)) (t : Tile) : BitVec 256 := if 5 ≤ t.ty then tget fmts t.fmti 0 else 0
/-- A tile's format passes R240. -/
def tileFmtOk (fmts : Tbl (BitVec 256)) (t : Tile) : Bool := t.ty < 5 || fmtPlain (tileFmt fmts t)

/-- A descriptor of an array operation (R242). -/
structure MatDesc where
  bhdr : Nat
  ahdr : Nat
  n : Nat
  mode : Nat
  acc : Bool
  acol : Nat
  bin : Nat
  col0 : Nat
  mask : Word
  moff : Nat
  rsv : Bool
  deriving DecidableEq, Repr

/-- The fields of a descriptor (R242). -/
def matDesc (d : BitVec 192) : MatDesc :=
  { bhdr := descField d 31 0, ahdr := descField d 63 32, n := descField d 72 64, mode := descField d 73 73
    acc := bit d.toNat 74, acol := descField d 83 75, bin := descField d 93 84, col0 := descField d 111 96
    mask := BitVec.ofNat 32 (descField d 159 128), moff := descField d 191 160
    rsv := descField d 95 94 ≠ 0 || descField d 127 112 ≠ 0 }

/-- Columns of the accumulator that an operation writes (R251, R252). -/
def matCols (d : MatDesc) : List Nat := upTo d.acol (if d.mode = 0 then d.n else 2 * d.n)

/-- K of an operation: columns of a dense A, blocks of a spectral one (R239). -/
def matK (d : MatDesc) (a : Tile) : Nat := if d.mode = 0 then a.cols else a.cols / max a.block 1

/-- Bytes of a row of metadata (R253). -/
def metaRow (k : Nat) : Nat := 4 * ceilDiv (ceilDiv k 8) 4

/-- The first check that an operation fails, as cause and subcode, in the order of R247; `aexp` is none when the gang has
lost its array. -/
def matCheck (size : Nat) (v : Cv) (aexp : Option Int) : Option (Nat × Nat) :=
  let d := matDesc v.desc
  let sub (n : Nat) : Option (Nat × Nat) := some (0x12, n)
  match v.hdrs with
  | [hb, ha] =>
    if d.rsv || (v.sp && d.mode = 1) || (d.bin ≠ 0 && d.mode = 0) then sub 0x16
    else match ha, hb with
      | some ha, some hb =>
        if v.sp && (d.moff % 4 ≠ 0 || size ≤ d.moff) then sub 0x13
        else
          let a := tileOf ha
          let b := tileOf hb
          let fa := tileFmt v.fmts a
          let fb := tileFmt v.fmts b
          let k := matK d a
          if !tileOk ha || !tileOk hb || a.clen ≠ 0 || b.clen ≠ 0 || a.layout ≠ 0 then sub 0x10
          else if a.dom ≠ d.mode || b.dom ≠ d.mode then some (0x0F, 0)
          else if !tileFmtOk v.fmts a || !tileFmtOk v.fmts b then sub 0x11
          else match tileClass a fa, tileClass b fb with
            | some ca, some cb =>
              let most := if v.sp then 2 * ca.kMax else ca.kMax
              let shape := ca ≠ cb || d.n % 16 ≠ 0 || d.n < 16 || 64 < a.rows || most < k || (v.sp && (ca.complex || k % 4 ≠ 0)) ||
                (if d.mode = 0 then
                  256 < d.n || 256 < d.acol + d.n || b.layout ≠ 1 || b.rows ≠ k || b.cols < d.col0 + d.n ||
                    b.rows * ca.width % 32 ≠ 0
                else
                  128 < d.n || 256 < d.acol + 2 * d.n || b.layout ≠ 2 || b.cols ≠ a.cols || b.blen ≠ a.blen ||
                    b.rows < d.col0 + d.n || a.block / 2 ≤ d.bin)
              let elems := if d.mode = 0 then b.rows * b.cols else b.rows * (b.cols / 2)
              if shape then sub 0x12
              else if 8 * size < 8 * b.base + elems * ca.width || (v.sp && size < d.moff + a.rows * metaRow k) then sub 0x13
              else if d.acc && aexp.any (fun e => e ≠ a.exp + b.exp) then sub 0x14
              else none
            | _, _ => sub 0x12
      | _, _ => sub 0x13
  | _ => sub 0x13

/-- A list cut into parts of a length; `fuel` bounds the parts. -/
def cutEvery {α : Type} (n : Nat) : Nat → List α → List (List α)
  | 0, _ => []
  | fuel + 1, l => if l.isEmpty then [] else l.take n :: cutEvery n fuel (l.drop n)

/-- The products of a run in one part: `part` 0 real and 1 imaginary; `dual` multiplies halves independently (R251, R252). -/
def runTerms (dual : Bool) (part : Nat) (l : List ((Val × Val) × (Val × Val))) : List (Val × Val) :=
  if dual then l.map (fun (a, b) => if part = 0 then (a.1, b.1) else (a.2, b.2))
  else if part = 0 then l.flatMap (fun (a, b) => [(a.1, b.1), (a.2.negate, b.2)])
  else l.flatMap (fun (a, b) => [(a.1, b.2), (a.2, b.1)])

/-- `run_sum` rounded once (R251): the word, whether INV and whether OVF is set. -/
def runSum (l : List (Val × Val)) : Word × Bool × Bool :=
  let r := sumProducts f32 l
  let isNan := (unpack f32 r.1).isNan
  let fromNan := l.any (fun p => p.1.isNan || p.2.isNan)
  let inf := l.any (fun p => p.1.isInf || p.2.isInf)
  (BitVec.ofNat 32 r.1, isNan && !fromNan, !isNan && !inf && (unpack f32 r.1).isInf)

/-- acc + v rounded (R251): the word, INV and OVF. -/
def accAdd (a b : Word) : Word × Bool × Bool := runSum [(unpack f32 a.toNat, .one), (unpack f32 b.toNat, .one)]

/-- What the runs of one accumulator word come to: the word and the two flags; `cur` is what it starts from (R251). -/
def accRuns : Option Word → List (List (Val × Val)) → Word × Bool × Bool
  | cur, [] => (cur.getD 0, false, false)
  | cur, t :: r =>
    let (v, i1, o1) := runSum t
    let (x, i2, o2) := match cur with
      | none => (v, false, false)
      | some c => accAdd c v
    let (y, i3, o3) := accRuns (some x) r
    (y, i1 || i2 || i3, o1 || o2 || o3)

/-- The containers of a word, the low first (R238). -/
def containers (width : Nat) (w : Word) : List Nat := (upTo 0 (32 / width)).map (fun i => (w.toNat >>> (width * i)) % 2 ^ width)

/-- The place of a fragment word among the signers: item number and register (R238). -/
def fragPlace (groups : List Nat) (w : Nat) : Nat × Nat × Nat :=
  let t := 32 * groups.length
  (nth groups (w % t / 32) 0, w % 32, w / t)

/-- A fragment word as a completing operation reads it: its value, whether a write in the window makes its row undefined, and
whether it is poisoned (R203, R238, R248, R272). -/
def fragWord (s : State) (gang k : Nat) (v : Cv) (w : Nat) : Word × Bool × Bool :=
  let (g, p, j) := fragPlace v.groups w
  match tfind v.frag (32 * g + p) with
  | none => (0, false, false)
  | some (areg, ws) =>
    let x := groupAt s gang g
    match itemIn x p with
    | some t =>
      if !signedOn t k || (32 ≤ areg + j && !t.ext) then (Config.freeWord (s.free + w), false, false)
      else if x.watch.any (fun e => e.cv = k && e.reg = areg + j && e.pos = p && e.written) then
        (Config.freeWord (s.free + w), true, false)
      else if v.bad.contains (32 * g + p, j) then (0, false, true)
      else (nth ws j 0, false, false)
    | none => (Config.freeWord (s.free + w), false, false)

/-- An operation's marks are answered: its undefined rows hold free values from here on (R248). -/
def clearWatch (s : State) (gang k : Nat) : State :=
  let g := gangAt s gang
  setGang s gang { g with groups := tmap (fun _ x =>
    { x with watch := x.watch.map (fun e => if e.cv = k then { e with written := false } else e) }) g.groups }

/-- The A words of an operation, the rows that are undefined, and the poisoned words: from the latch when it is held, else
from the signers' registers (R238, R250, R255). -/
def matA (s : State) (gang k : Nat) (v : Cv) (a : MArray) (words : Nat) : List Word × List Nat × List Nat :=
  match a.latch with
  | some l => ((numbered 0 (l.take words)).map (fun (i, w) => if a.badLatch.contains i then 0 else w), [], a.badLatch)
  | none =>
    let ws := (upTo 0 words).map (fragWord s gang k v)
    let idx (f : Word × Bool × Bool → Bool) : List Nat := ((numbered 0 ws).filter (fun x => f x.2)).map Prod.fst
    (ws.map (fun x => x.1), nodup ((idx (fun x => x.2.1)).map (· / (words / 64))), idx (fun x => x.2.2))

/-- One row's kept elements placed at their logical k by its nibbles; and the groups whose nibble is a reserved code (R253). -/
def spread (nibs : List Nat) (kept : List (Val × Val)) : Nat → Nat → List (Val × Val) × List Nat
  | _, 0 => ([], [])
  | g, n + 1 =>
    let c := nth nibs g 0
    let i0 := c % 4
    let i1 := c / 4
    let z : Val × Val := (.zero, .zero)
    let four := if i1 ≤ i0 then List.replicate 4 z
      else (upTo 0 4).map (fun i => if i = i0 then nth kept (2 * g) z else if i = i1 then nth kept (2 * g + 1) z else z)
    let (r, bad) := spread nibs kept (g + 1) n
    (four ++ r, if i1 ≤ i0 then g :: bad else bad)

/-- The A elements of a row, and its reserved metadata groups (R238, R239, R253). -/
def matRow (t : Tile) (f : BitVec 256) (c : MatClass) (sp : Bool) (k : Nat) (nibs : List Byte) (ws : List Word) (p : Nat) :
    List (Val × Val) × List Nat :=
  if t.rows ≤ p then (List.replicate k (.zero, .zero), [])
  else
    let els := ((ws.drop (p * c.rowWords)).take c.rowWords).flatMap (fun w => (containers c.width w).map (elemParts t f))
    if sp then
      let row := ofBytes ((nibs.drop (p * metaRow k)).take (metaRow k))
      spread ((upTo 0 (k / 4)).map (fun g => (row >>> (4 * g)) % 16)) els 0 (k / 4)
    else (els.take k, [])

/-- Poisoned words among the bytes of gang memory (R255). -/
def badWords (g : Gang) (a n : Nat) : List Nat := (unitsOf 4 a n).filter (fun w => g.badGmem.any (fun e => e.1 = w && e.2 = 2))

/-- Bytes of gang memory as an engine reads them: those that a running copy or transform writes are undefined (R231,
R248). -/
def engineBytes (s : State) (gang a n : Nat) : List Byte :=
  openBytes s (openRuns s gang 0) a (mread (gangAt s gang).gmem a n)

/-- `k` elements of gang memory from a bit address, and each poisoned word with the first element in it; these elements read
zero (R255). -/
def readElems (s : State) (gang : Nat) (t : Tile) (f : BitVec 256) (width p k : Nat) :
    List (Val × Val) × List (Nat × Nat) :=
  let a := p / 8
  let n := (p + k * width + 7) / 8 - a
  let bad := badWords (gangAt s gang) a n
  let v := ofBytes (engineBytes s gang a n)
  let at' (i : Nat) : Nat := (p + i * width) / 32
  let els := (upTo 0 k).map (fun i =>
    if bad.contains (at' i) then (.zero, .zero) else elemParts t f ((v >>> (p % 8 + i * width)) % 2 ^ width))
  (els, bad.filterMap (fun w => ((upTo 0 k).find? (fun i => at' i = w)).map (fun i => (w, i))))

/-- Poisoned words of the columns, each once: the first column that holds it, and its first element there (R285). -/
def firstHits : List (Nat × List (Nat × Nat)) → List Nat → List (Nat × Nat)
  | [], _ => []
  | (j, l) :: r, seen =>
    let new := l.filter (fun e => !seen.contains e.1)
    new.map (fun e => (j, e.2)) ++ firstHits r (seen ++ new.map Prod.fst)

/-- Logical k of an A word's first element: with 2:4 sparsity the place its metadata nibble gives it (R253, R255). -/
def wordK (c : MatClass) (sp : Bool) (k : Nat) (nibs : List Byte) (w : Nat) : Nat :=
  let e := w % c.rowWords * (32 / c.width)
  if !sp then e
  else
    let row := ofBytes ((nibs.drop (w / c.rowWords * metaRow k)).take (metaRow k))
    let n := (row >>> (4 * (e / 2))) % 16
    4 * (e / 2) + (if n / 4 ≤ n % 4 then 0 else n % 4)

/-- An A word holds an element that the operation uses (R238, R253). -/
def wordUsed (t : Tile) (c : MatClass) (sp : Bool) (k w : Nat) : Bool :=
  w / c.rowWords < t.rows && w % c.rowWords * (32 / c.width) < (if sp then k / 2 else k)

/-- Bit address of the first element of B column `c` (R239). -/
def matColumn (d : MatDesc) (b : Tile) (width k c : Nat) : Nat :=
  8 * b.base + (if d.mode = 0 then (d.col0 + c) * b.rows * width else (d.bin * b.rows + (d.col0 + c)) * k * width)

/-- An accumulator word as an accumulate, `macc.rd` or `macc.st` reads it: a correctable error is corrected and counted; an
uncorrectable word becomes the canonical NaN (R255, R281). -/
def readAcc (s : State) (core arr idx : Nat) (pc : DWord) : Word × State :=
  let a := arrayAt s core arr
  match a.badAcc.find? (fun e => e.1 = idx) with
  | none => (tget a.acc idx 0, s)
  | some (_, e) =>
    let bad := a.badAcc.filter (fun e => e.1 ≠ idx)
    if e = 0 then (tget a.acc idx 0, count (setArray s core arr { a with badAcc := bad }) core 0x12 1)
    else
      let c : Word := BitVec.ofNat 32 f32.canon
      let s := setArray s core arr { a with badAcc := bad, acc := tput a.acc idx c, status := a.status ||| 16#5 }
      (c, matLogAll (count s core 0x13 1) core [matEntry 2 arr (idx / 256) (idx % 256) 0 pc])

/-- Accumulator words written; an error in one of them goes (R255). -/
def writeAcc (a : MArray) (l : List (Nat × Word)) : MArray :=
  { a with acc := l.foldl (fun t (i, w) => tput t i w) a.acc
           badAcc := a.badAcc.filter (fun e => !l.any (fun x => x.1 = e.1)) }

/-- Accumulator words of some rows given free values (R7, R248). -/
def freeRows (s : State) (core arr : Nat) (rows cols : List Nat) : State :=
  let cells := rows.flatMap (fun p => cols.map (fun c => 256 * p + c))
  let s := setArray s core arr (writeAcc (arrayAt s core arr) (cells.map (fun i => (i, Config.freeWord (s.free + i)))))
  { s with free := s.free + 16384 }

/-- The operations whose values still stand once `k` has written its operation's columns, and what is left of them (R248). -/
def stillThere (l : List (Nat × List Nat)) (k : Nat) (cols : List Nat) : List (Nat × List Nat) :=
  (l.filter (fun e => e.1 ≠ k)).map (fun e => (e.1, e.2.filter (fun c => !cols.contains c)))

/-- The operation of an array run to its end (R250 to R255). -/
def matRun (s : State) (core arr gang k : Nat) (v : Cv) : State :=
  let d := matDesc v.desc
  let a0 := arrayAt s core arr
  match v.hdrs with
  | [some hb, some ha] =>
    let ta := tileOf ha
    let tb := tileOf hb
    let fa := tileFmt v.fmts ta
    let fb := tileFmt v.fmts tb
    match tileClass ta fa with
    | none => s
    | some c =>
      let kk := matK d ta
      let (ws, undef, badA) := matA s gang k v a0 (64 * c.rowWords)
      let badUse := badA.filter (wordUsed ta c v.sp kk)
      let logA := badUse.map (fun w => matEntry 0 arr (w / c.rowWords) d.acol (wordK c v.sp kk v.nibbles w) v.pc)
      let rows := (upTo 0 64).map (matRow ta fa c v.sp kk v.nibbles ws)
      let rowLen := metaRow kk / 4
      let lostM := v.badMeta.filter (fun i => v.sp && i < ta.rows * rowLen && i % rowLen * 32 < kk)
      let logM := (numbered 0 rows).flatMap (fun (p, r) =>
        ((lostM.filter (fun i => i / rowLen = p)).map (fun i => matEntry 4 arr p d.acol (i % rowLen * 32) v.pc)) ++
        (r.2.filter (fun g => !lostM.contains (p * rowLen + g / 8))).map (fun g => matEntry 4 arr p d.acol (4 * g) v.pc))
      let s := { s with free := s.free + 4096 }
      let s := (upTo 0 d.n).foldl (fun s j => meetLocal s core gang false
        [(matColumn d tb c.width kk j / 8, (matColumn d tb c.width kk j + kk * c.width + 7) / 8 - matColumn d tb c.width kk j / 8)]) s
      let step := if d.mode = 0 then 1 else 2
      let cols := (upTo 0 d.n).map (fun j => readElems s gang tb fb c.width (matColumn d tb c.width kk j) kk)
      let logB := (firstHits ((numbered 0 cols).map (fun (j, q) => (j, q.2))) []).map (fun (j, i) =>
        matEntry 1 arr 0 (d.acol + step * j) i v.pc)
      let s := matLogAll s core (logA ++ logM ++ logB)
      let st : BitVec 5 := (if logA.isEmpty && logB.isEmpty then 0 else 16#5) ||| (if logM.isEmpty then 0 else 8#5)
      let dual := d.mode = 0 || d.bin = 0
      let loose := d.mode = 0 && c.complex
      let cells := (numbered 0 rows).flatMap (fun (p, r) => (numbered 0 cols).flatMap (fun (j, q) =>
        (upTo 0 step).map (fun part => (256 * p + d.acol + step * j + part,
          (cutEvery c.run 64 (r.1.zip q.1)).map (runTerms dual part)))))
      let (s, l, inv, ovf) := cells.foldl (fun (s, l, inv, ovf) (i, runs) =>
        let (cur, s) : Option Word × State := if d.acc then
            let (x, s) := readAcc s core arr i v.pc
            (some x, s)
          else (none, s)
        let (x, i1, o1) := accRuns cur runs
        (s, (i, x) :: l, inv || i1, ovf || o1)) (s, ([] : List (Nat × Word)), false, false)
      let a := arrayAt s core arr
      let hit := a.badCol.filter (fun x => (matCols d).contains x)
      let l := l.map (fun (i, x) => (i, if hit.contains (i % 256) then BitVec.ofNat 32 f32.canon else x))
      let a := { writeAcc a l with
        aexp := ta.exp + tb.exp
        status := a.status ||| st ||| (if hit.isEmpty then 0 else 4#5) |||
          (if loose then (Config.freeWord s.free).setWidth 2 |>.setWidth 5 else (if inv then 2#5 else 0) ||| (if ovf then 1#5 else 0))
        latch := if v.h then some ws else none
        badLatch := if v.h then badA else [], badCol := a.badCol.filter (fun x => !hit.contains x)
        last := stillThere a.last k (if d.acc then [] else matCols d) ++ [(k, matCols d)] }
      let s := matLogAll (setArray { s with free := s.free + 1 } core arr a) core (hit.map (fun x => matEntry 3 arr 0 x 0 v.pc))
      let s := if a0.latch.isSome then setCv s gang k { v with frag := [] } else s
      if loose then freeRows s core arr (upTo 0 64) (matCols d)
      else if undef.isEmpty then s else freeRows (clearWatch s gang k) core arr undef (matCols d)
  | _ => s

/-- An operation of a unit is complete (R243, R246, R249): the next starts, its signers' waits end, collections that had no
place are tested, and an ended gang may go. -/
def unitDone (s : State) (core u : Nat) (fault : Option Trap) : State :=
  match unitQueue s core u with
  | [] => s
  | o :: rest =>
    let v := cvAt s o.gang o.cv
    let s := setQueue s core u (startFirst s core u rest)
    let s := setCv s o.gang o.cv { v with st := .done, fault }
    let ms := (gangAt s o.gang).groups.flatMap (fun (g, x) => x.items.filterMap (fun (p, t) =>
      if t.wait = .engine o.cv then some (g, p) else none))
    let s := updItems s o.gang ms (fun t => { t with wait := .barrierDone, readyAt := s.now })
    dropEnded (engineCheck s o.gang) o.gang

/-- The record that a fault of an operation leaves (R246, R267). -/
def cvTrap (k : Nat) (v : Cv) (c : Nat × Nat) : Trap :=
  { code := c.1, sub := c.2, async := true, cv := k, arr := if v.xform then 0 else v.arr, epc := v.pc, desc := v.desc.setWidth 256 }

/-- MATRIX_OP_COMPLETE (R247, R249, R250): the running operation of an array ends, with its effects or with its fault. -/
def matrixDone (s : State) (core arr : Nat) : State :=
  match (arrayAt s core arr).queue with
  | [] => s
  | o :: _ =>
    if maccTurn o then s else
    let v := cvAt s o.gang o.cv
    let a := arrayAt s core arr
    let mine := a.owner = some o.gang
    match matCheck (gangAt s o.gang).gmemSize v (if mine then some a.aexp else none) with
    | some c =>
      let s := if mine then setArray s core arr { a with latch := none, badLatch := [] } else s
      unitDone s core arr (some (cvTrap o.cv v c))
    | none => unitDone (if mine then matRun s core arr o.gang o.cv v else s) core arr none

/-- A number from s registers, the lowest first (R242, R258). -/
def scalarNumber (x : Group) (n k : Nat) : Nat := ofBytes ((upTo n k).flatMap (fun r => wordBytes (tget x.s r 0)))

/-- Registers that each of `n` groups' items supplies under a descriptor (R238). -/
def fragRegs (s : State) (gang : Nat) (d : BitVec 192) (n : Nat) : Nat :=
  let words := match headerNow s gang (descField d 63 32) with
    | some h => if [3, 4, 6].contains (bits h 66 64) then 1536 else 3072
    | none => 3072
  if n = 0 then 0 else ceilDiv words (32 * n)

/-- Registers that an `msign` or `mma` names; only the descriptor is read by the step (R241). -/
def engUses (o : EngOp) (fr : Nat) : Uses :=
  { named := [(124, 6), (o.areg, fr)], read := [(124, 6)], ext := BitVec.ofNat 32 o.dsc.toNat }

/-- A precise MATRIX_FAULT (R247). -/
def matTrap (sub : Nat) : Trap := { code := 0x12, sub }

/-- The causes of R83 that a signer of `fr` fragment registers meets (R83, R241). -/
def signEarly (s : State) (gang : Nat) (o : EngOp) (g p fr : Nat) : Option Trap :=
  if 112 < o.areg.toNat + fr then some { code := 0x01 } else earlyTrap (groupAt s gang g) p (engUses o fr)

/-- The causes that an item meets at a sign before the convergence register is looked at (R237, R241). -/
def signTrap (s : State) (core gang : Nat) (o : EngOp) (g p fr arr : Nat) : Option Trap :=
  if 112 < o.areg.toNat + fr then some { code := 0x01 }
  else (useTrap (groupAt s gang g) p (engUses o fr)).or (if arrayTaken s core arr gang then some (matTrap 4) else none)

/-- What an item that signs supplies: its fragment words as they stand, and which of them are poisoned; its writes of them
are watched from here on (R238, R245, R248, R272). -/
def captureFrag (s : State) (w : Where) (g p : Nat) (o : EngOp) (fr : Nat) (v : Cv) : Cv × State :=
  let gang := w.b.gang
  let s := meetErrors s w [(g, p)] { named := [], read := [(o.areg, fr)], ext := 0 }
  let x := groupAt s gang g
  let regs := upTo o.areg.toNat fr
  let bad := (numbered 0 regs).filterMap (fun (j, r) =>
    if x.badV.any (fun e => e.1 = r && (e.2.1 = p || e.2.1 = 32) && e.2.2 ≠ 0) then some (32 * g + p, j) else none)
  let k := o.cv.toNat
  ({ v with frag := tput v.frag (32 * g + p) (o.areg.toNat, regs.map (fun r => vAt (gangAt s gang).oneD x r p))
            bad := v.bad ++ bad },
    updGroup s gang g (fun x =>
      { x with watch := x.watch.filter (fun e => !(e.cv = k && e.pos = p)) ++ regs.map (fun r => ⟨k, r, p, false⟩) }))

/-- SB set for an item (R243). -/
def setSb (s : State) (gang g p k : Nat) : State := updItem s gang g p (fun t => { t with sb := t.sb ||| (1#16 <<< k) })

/-- The descriptor that an item's sign is for: the open collection's, else its own group's (R242, R243). -/
def signDesc (s : State) (gang : Nat) (o : EngOp) (g : Nat) : BitVec 192 :=
  let v := cvAt s gang o.cv.toNat
  if v.st = .collecting then v.desc else BitVec.ofNat 192 (scalarNumber (groupAt s gang g) o.dsc.toNat 6)
/-- Fragment registers of an item's sign (R238). -/
def signRegs (s : State) (gang : Nat) (o : EngOp) (g : Nat) : Nat :=
  let d := signDesc s gang o g
  fragRegs s gang d (maskGroups (matDesc d).mask).length

/-- An item signs (R243, R245), or meets a cause. The array that its own `msign` names is bound or taken (R237); the operation
is the first signer's. -/
def signItem (o : EngOp) (s : State) (w : Where) (g p : Nat) : Except Trap State :=
  let gang := w.b.gang
  let k := o.cv.toNat
  let v := cvAt s gang k
  let t := itemAt s gang g p
  let desc := signDesc s gang o g
  let arr := o.arr.toNat
  let mask := (matDesc desc).mask
  let fr := signRegs s gang o g
  match signTrap s w.core gang o g p fr arr with
  | some c => .error c
  | none =>
    let sign (v : Cv) : Except Trap State :=
      let (v, s) := captureFrag (bindArray s gang arr) w g p o fr v
      .ok (cvTest (setSb (setCv s gang k v) gang g p k) gang k)
    match v.st with
    | .free =>
      if !mask.getLsbD g then .error (matTrap 2)
      else sign { st := .collecting, mask, desc, arr, h := o.h, sp := o.sp, pc := t.pc, groups := maskGroups mask
                  fmts := (gangAt s gang).fmt }
    | .collecting =>
      if !v.mask.getLsbD g then .error (matTrap 1) else if signedOn t k then .error (matTrap 3) else sign v
    | _ => .error (matTrap (if signedOn t k then 3 else 1))

/-- Members of an engine instruction: a load outstanding to a fragment register is waited for (R210, R245); in the last word of a
line with L = 1 TARGET stands behind the `early` causes and no item acts (R69, R83). -/
def engStep (u : Uses) (frag : Field7 × Nat) (early : State → Where → Nat → Nat → Option Trap) (body : State → Where → State)
    (s : State) : State :=
  match issuing s with
  | none => s
  | some w =>
    match w.b.span with
    | some i => pourOrDeal s w i (spanTrap (spanAt s i) u)
    | none =>
      if awaitsLoad s w.b.gang w.b.members { u with read := [frag] } then stallOn s w .loads
      else
        let s := meetErrors s w w.b.members u
        if w.b.prog.past.isSome then
          runOff s w (sift s w.b.gang (fun g p => (early s w g p).or (pastTrap w)) w.b.members)
        else body s w

/-- `msign` (R243, R245): each real item signs in turn; the step stalls if its operation would find no place (R249). -/
def msignStep (o : EngOp) (s : State) : State :=
  engStep (engUses o 0) (o.areg, 96) (fun s w g p => signEarly s w.b.gang o g p (signRegs s w.b.gang o g)) (fun s0 w =>
    let gang := w.b.gang
    let real := w.b.members.filter (fun m => !(itemAt s0 gang m.1 m.2).helper)
    let (s, ts) := real.foldl (fun (s, ts) (g, p) => match signItem o s w g p with
      | .ok s => (s, ts)
      | .error c => (s, ts ++ [(g, p, c)])) (s0, ([] : List (Nat × Nat × Trap)))
    if cvReady s gang o.cv.toNat then stallOn s0 w (.place (cvAt s gang o.cv.toNat).arr)
    else conclude s w { go := w.b.members, traps := ts, zero := [] } 120 0 1 { chained := o.c } false) s

/-- A cause of a convergence register that is not free (R243). -/
def cvTrapOf (v : Cv) (t : Item) (k : Nat) : Option Trap :=
  match v.st with
  | .free => none
  | .collecting => some (matTrap 1)
  | _ => some (matTrap (if signedOn t k then 3 else 1))

/-- The descriptor of an `mma`: that of the group of the first item in issue order (R244). -/
def mmaDesc (s : State) (w : Where) (o : EngOp) : BitVec 192 :=
  BitVec.ofNat 192 (scalarNumber (groupAt s w.b.gang ((groupsOf w.b.members).headD 0)) o.dsc.toNat 6)
/-- Fragment registers of an `mma` (R238, R244). -/
def mmaRegs (s : State) (w : Where) (o : EngOp) : Nat := fragRegs s w.b.gang (mmaDesc s w o) (groupsOf w.b.members).length

/-- `mma` (R244). -/
def mmaStep (o : EngOp) (s : State) : State :=
  engStep (engUses o 0) (o.areg, 96) (fun s w g p => signEarly s w.b.gang o g p (mmaRegs s w o)) (fun s w =>
    let gang := w.b.gang
    let ms := w.b.members
    let k := o.cv.toNat
    let arr := o.arr.toNat
    let gs := groupsOf ms
    let real := ms.filter (fun m => !(itemAt s gang m.1 m.2).helper)
    let fin (s : State) (ts : List (Nat × Nat × Trap)) : State :=
      conclude s w { go := ms, traps := ts, zero := [] } 120 0 1 { chained := o.c } false
    let part : Trap := { code := 0x11 }
    if real.isEmpty then fin s []
    else if !gs.all (fun g => wholeGroup (groupAt s gang g) (inGroup ms g)) then fin s (real.map (fun m => (m.1, m.2, part)))
    else
      let desc := mmaDesc s w o
      let fr := mmaRegs s w o
      let causes := real.map (fun (g, p) => (g, p, (signTrap s w.core gang o g p fr arr).or
        (cvTrapOf (cvAt s gang k) (itemAt s gang g p) k)))
      if causes.any (fun c => c.2.2.isSome) then fin s (causes.map (fun c => (c.1, c.2.1, c.2.2.getD part)))
      else if unitFull s w.core arr then stallOn s w (.place arr)
      else
        let pc := ((ms.head?).map (fun m => (itemAt s gang m.1 m.2).pc)).getD 0
        let v : Cv := { st := .collecting, mask := (matDesc desc).mask, desc, arr, h := o.h, sp := o.sp, pc
                        groups := sortBy id gs, fmts := (gangAt s gang).fmt }
        let (v, s) := real.foldl (fun (v, s) (g, p) => captureFrag s w g p o fr v) (v, bindArray s gang arr)
        let s := real.foldl (fun s (g, p) => setSb s gang g p k) (setCv s gang k v)
        fin (issueCv s gang k) []) s

/-- Rows that a signer's writes since it signed have made undefined (R248). -/
def lateRows (s : State) (gang g p k : Nat) (v : Cv) : List Nat :=
  match tfind v.frag (32 * g + p) with
  | none => []
  | some (areg, ws) =>
    let x := groupAt s gang g
    let hit (j : Nat) : Bool := x.watch.any (fun e => e.cv = k && e.reg = areg + j && e.pos = p && e.written)
    let words := match v.hdrs with
      | [_, some ha] => if [3, 4, 6].contains (bits ha 66 64) then 1536 else 3072
      | _ => 3072
    let t := 32 * v.groups.length
    nodup ((upTo 0 ws.length).filterMap (fun j =>
      let n := j * t + 32 * v.groups.idxOf g + p
      if hit j && n < words then some (n / (words / 64)) else none))

/-- One item's `mwait` (R246). -/
def mwaitItem (k : Nat) (s : State) (w : Where) (g p : Nat) (q : Done) : State × Done :=
  let gang := w.b.gang
  let t := itemAt s gang g p
  let v := cvAt s gang k
  let go (s : State) : State × Done :=
    (updItem s gang g p (fun t => { t with wait := .ready }), { q with hits := q.hits ++ [(g, p, { addr := 0 })] })
  if t.helper || !signedOn t k then go s
  else if v.st = .collecting || v.st = .issued then
    (updItem s gang g p (fun t => { t with wait := .engine k }), { q with left := q.left ++ [(g, p)] })
  else
    let late := if v.fault.isSome || v.xform then [] else lateRows s gang g p k v
    let s := match tfind (arrayAt s w.core v.arr).last k with
      | some cols => if late.isEmpty then s else freeRows s w.core v.arr late cols
      | none => s
    let s := updGroup s gang g (fun x => { x with watch := x.watch.filter (fun e => !(e.cv = k && e.pos = p)) })
    let s := updItem s gang g p (fun t => { t with wait := .ready, sb := t.sb &&& ~~~(1#16 <<< k) })
    match v.fault with
    | none => go s
    | some c => (setCv s gang k { v with told := true }, { q with traps := q.traps ++ [(g, p, { c with pc := nextWord t.pc 1 })] })

/-- `mwait` (R246). -/
def mwaitStep (o : CvOp) (s : State) : State :=
  groupStep noUses [] true (fun s w k =>
    let (s, q) := k.go.foldl (fun (s, q) (g, p) => mwaitItem o.cv.toNat s w g p q) (s, ({} : Done))
    waitEnd (cvTest s w.b.gang o.cv.toNat) w k q 120 0 1 o.c none) s

/-- The turn of a `macc` form, at the head of its array's queue, is over (R249). -/
def endTurn (s : State) (core arr : Nat) : State :=
  match (arrayAt s core arr).queue with
  | o :: r => if maccTurn o then setQueue s core arr (startFirst s core arr r) else s
  | [] => s

/-- A `macc` form (R237, R249, R256): the array is bound or another gang holds it; the form takes its turn behind the earlier
operations of its gang, and later ones take theirs behind it. -/
def maccStep (arr : Nat) (u : Uses) (dsts : List Nat) (d : Field7) (len : Nat) (chained : Bool)
    (body : State → Where → Sifted → State) (s : State) : State :=
  groupStep u dsts false (fun s w k =>
    let gang := w.b.gang
    if arrayTaken s w.core arr gang then
      let x := sift s gang (fun _ _ => some (matTrap 4)) k.go
      conclude s w { go := [], traps := k.traps ++ x.traps, zero := k.zero ++ x.zero } d 1 len { chained } false
    else
      let real := anyReal s gang k.go
      let s := if real then bindArray s gang arr else s
      let q := (arrayAt s w.core arr).queue
      if w.b.prog.waited then body (endTurn s w.core arr) w k
      else if real && q.any (fun o => o.gang = gang) then
        let (n, s) := newName s
        stallOn (setQueue s w.core arr (q ++ [{ id := n, gang, cv := 16, due := 0 }])) w (.ops arr [n])
      else body s w k) s

/-- `macc.zero` (R256). -/
def maccZeroStep (o : AccOp) (s : State) : State :=
  let arr := o.arr.toNat
  maccStep arr noUses [] 120 1 o.c (fun s w k =>
    let s := if anyReal s w.b.gang k.go then
        setArray s w.core arr { arrayAt s w.core arr with acc := [], aexp := 0, status := 0, badAcc := [], last := [] }
      else s
    conclude s w k 120 0 1 { chained := o.c } false) s

/-- `macc.rd` (R255, R256). -/
def maccRdStep (o : AccRdOp) (s : State) : State :=
  let arr := o.arr.toNat
  let len := if o.x then 2 else 1
  maccStep arr { named := [(o.d, 1), (o.a, 1)], read := [(o.a, 1)], ext := o.ext } (dstRegs o.d) o.d len o.c (fun s w k =>
    let gang := w.b.gang
    let (s, rs) := k.go.foldl (fun (s, rs) (g, p) =>
      let i := (operand s gang g p o.ext o.a).toNat % 16384
      let (v, s) := readAcc s w.core arr i (itemAt s gang g p).pc
      (s, rs ++ [(g, p, v)])) (s, ([] : List (Nat × Nat × Word)))
    resultsEnd s w k o.d o.ext len o.c rs []) s

/-- The array status word (R257). -/
def arrayStatus (a : MArray) : Word :=
  BitVec.ofNat 32 (fields [(0, (BitVec.ofInt 10 a.aexp).toNat), (10, a.status.toNat), (15, ofBool a.latch.isSome)])

/-- `macc.stat` (R257). -/
def maccStatStep (o : AccStatOp) (s : State) : State :=
  let arr := o.arr.toNat
  maccStep arr { named := [(o.d, 1)], read := [], ext := 0 } (dstRegs o.d) o.d 1 o.c (fun s w k =>
    resultsEnd s w k o.d 0 1 o.c (k.go.map (fun (g, p) => (g, p, arrayStatus (arrayAt s w.core arr)))) []) s

/-- The header checks of `macc.st` and `macc.ld` (R256). -/
def accHeaderOk (fmts : Tbl (BitVec 256)) (h bin : Nat) : Bool :=
  let t := tileOf h
  tileOk h && t.clen = 0 && tileFmtOk fmts t &&
    (if t.dom = 0 then [0, 1, 2, 5].contains t.ty && t.layout ≤ 1 && bin = 0
    else [3, 4, 6].contains t.ty && t.layout = 2 && bin < t.block / 2)

/-- Bits of the container of a tile's element, of both halves for a complex type (R236). -/
def cellWidth (t : Tile) (f : BitVec 256) : Nat :=
  match t.ty with
  | 0 => 32
  | 1 => 16
  | 2 => 16
  | 3 => 32
  | 4 => 32
  | 6 => 16
  | _ => if elemBits f ≤ 4 then 4 else 8

/-- Element places of a tile with the accumulator words they hold, in storage order for a DOM = 0 tile and by block and row
for a DOM = 1 one (R239, R256). -/
def accCells (t : Tile) (acol bin : Nat) : List (Nat × List Nat) :=
  if t.dom = 0 then
    (upTo 0 t.rows).flatMap (fun r => (upTo 0 t.cols).map (fun c =>
      (if t.layout = 0 then r * t.cols + c else c * t.rows + r, [256 * r + acol + c])))
  else
    let q := t.cols / t.block
    (upTo 0 q).flatMap (fun p => (upTo 0 t.rows).map (fun r =>
      ((bin * t.rows + r) * q + p, [256 * p + acol + 2 * r, 256 * p + acol + 2 * r + 1])))

/-- Accumulator columns and rows lie within 64 × 256 (R256). -/
def accFits (t : Tile) (acol : Nat) : Bool :=
  if t.dom = 0 then t.rows ≤ 64 && acol + t.cols ≤ 256 else t.cols / t.block ≤ 64 && acol + 2 * t.rows ≤ 256

/-- Bits of a tile that `macc.st` or `macc.ld` reaches, from BASE (R256). -/
def accExtent (t : Tile) (f : BitVec 256) (bin : Nat) : Nat :=
  (if t.dom = 0 then t.rows * t.cols else (bin + 1) * t.rows * (t.cols / t.block)) * cellWidth t f

/-- An f32 rounded once into one part of an element (R45, R53, R256). -/
def accCode (t : Tile) (f : BitVec 256) (x : Word) : Nat :=
  let v := unpack f32 x.toNat
  match t.ty with
  | 0 => x.toNat
  | 1 => (roundVal f16 v).1
  | 2 => (roundVal bf16 v).1
  | 3 => (roundVal bf16 v).1
  | 4 => (roundVal f16 v).1
  | _ => (encodeNar f v).1

/-- The faults of `macc.st` and `macc.ld` in their order (R256). -/
def accMemTrap (s : State) (gang off acol bin : Nat) (store : Bool) : Option Trap :=
  let g := gangAt s gang
  let a := BitVec.ofNat 64 off
  if off % 16 ≠ 0 then some { code := 0x09, addr := a }
  else match headerNow s gang off with
    | none => some { code := 0x0C, addr := a }
    | some h =>
      let t := tileOf h
      if !accHeaderOk g.fmt h bin then some { code := 0x13, sub := 0x20 }
      else if !accFits t acol then some { code := 0x0C, addr := a }
      else if 8 * g.gmemSize < 8 * t.base + accExtent t (tileFmt g.fmt t) bin then some { code := 0x0C, addr := a, wr := store }
      else none

/-- Bits of a number laid over gang memory by an engine, with the domain bits of a tile (R206). -/
def engineWrite (s : State) (gang a : Nat) (bs : List Byte) (freq : Bool) : State :=
  let l := writeLocal (gangLocal s gang) a bs true
  setGangLocal s gang (if freq then setDom l a bs.length else clearDom l a bs.length)

/-- `macc.st` performed (R254, R256): its elements, then EXP of the header. -/
def accStore (s : State) (core arr gang off acol bin : Nat) (pc : DWord) : State :=
  let g := gangAt s gang
  let h := (headerNow s gang off).getD 0
  let t := tileOf h
  let f := tileFmt g.fmt t
  let a := arrayAt s core arr
  if a.aexp < -128 || 127 < a.aexp then setArray s core arr { a with status := a.status ||| 2#5 }
  else
    let width := cellWidth t f
    let n := ceilDiv (accExtent t f bin) 8
    let (s, fs) := (accCells t acol bin).foldl (fun (s, fs) (i, ws) =>
      let part := width / ws.length
      let (s, code, _) := ws.foldl (fun (s, code, sh) k =>
        let (x, s) := readAcc s core arr k pc
        (s, code + accCode t f x % 2 ^ part * 2 ^ sh, sh + part)) (s, 0, 0)
      (s, (i * width, width, code) :: fs)) (s, ([] : List (Nat × Nat × Nat)))
    let first := if t.dom = 0 then 0 else bin * t.rows * (t.cols / t.block) * width / 8
    let old := mread (gangAt s gang).gmem (t.base + first) (n - first)
    let img := fs.foldl (fun bs (p, w, c) => layBits bs (p - 8 * first) w c) old
    let s := engineWrite s gang (t.base + first) img (t.dom = 1)
    let e := (BitVec.ofInt 8 a.aexp).toNat
    engineWrite s gang off (toBytes 16 (h - bits h 88 81 * 2 ^ 81 + e * 2 ^ 81)) (t.dom = 1)

/-- `macc.ld` performed (R256): its elements converted exactly, and AEXP. A poisoned word of the tile gives free values. -/
def accLoad (s : State) (core arr gang off acol bin : Nat) : State :=
  let g := gangAt s gang
  let t := tileOf ((headerNow s gang off).getD 0)
  let f := tileFmt g.fmt t
  let width := cellWidth t f
  let s := meetLocal s core gang false [(t.base, ceilDiv (accExtent t f bin) 8)]
  let value (i k : Nat) : Word :=
    let p := 8 * t.base + i * width
    if badHit (gangLocal s gang) (p / 8) (width / 8 + 1) then Config.freeWord (s.free + 2 * i + k)
    else
      let code := (ofBytes (engineBytes s gang (p / 8) ((width + 7) / 8)) >>> (p % 8)) % 2 ^ width
      if t.ty = 0 then BitVec.ofNat 32 code
      else
        let v := elemParts t f code
        BitVec.ofNat 32 (roundVal f32 (if k = 0 then v.1 else v.2)).1
  let l := (accCells t acol bin).flatMap (fun (i, ws) => (numbered 0 ws).map (fun (k, c) => (c, value i k)))
  let a := arrayAt s core arr
  setArray { s with free := s.free + 2 ^ 17 } core arr { writeAcc a l with
    aexp := t.exp, last := stillThere a.last 16 (nodup (l.map (fun x => x.1 % 256))) }

/-- `macc.st` and `macc.ld` (R256): once for the first real item in issue order. -/
def maccMemStep (store : Bool) (o : AccMemOp) (s : State) : State :=
  let arr := o.arr.toNat
  let len := if o.x then 2 else 1
  maccStep arr { named := [(o.a, 1)], read := [(o.a, 1)], ext := o.ext } [] 120 len o.c (fun s w k =>
    let gang := w.b.gang
    match k.go.find? (fun m => !(itemAt s gang m.1 m.2).helper) with
    | none => conclude s w k 120 0 len { chained := o.c } false
    | some (g, p) =>
      let m := modOf none [o.a] o.x o.ext
      let off := (operand s gang g p o.ext o.a).toNat
      let acol := bits m 8 0
      let bin := bits m 18 9
      let s := meetLocal s w.core gang false [(off, 16)]
      match accMemTrap s gang off acol bin store with
      | some c =>
        let x := sift s gang (fun _ _ => some c) k.go
        conclude s w { go := [], traps := k.traps ++ x.traps, zero := k.zero ++ x.zero } 120 0 len { chained := o.c } false
      | none =>
        let s := if store then accStore s w.core arr gang off acol bin (itemAt s gang g p).pc
          else accLoad s w.core arr gang off acol bin
        conclude s w k 120 0 len { chained := o.c } false) s

/-- MSIGN (R245). -/
def execMsign (o : EngOp) (s : State) : Out := .next (msignStep o s)
/-- MMA (R244). -/
def execMma (o : EngOp) (s : State) : Out := .next (mmaStep o s)
/-- MWAIT (R246). -/
def execMwait (o : CvOp) (s : State) : Out := .next (mwaitStep o s)
/-- MACC_ZERO (R256). -/
def execMaccZero (o : AccOp) (s : State) : Out := .next (maccZeroStep o s)
/-- MACC_RD (R256). -/
def execMaccRd (o : AccRdOp) (s : State) : Out := .next (maccRdStep o s)
/-- MACC_ST (R256). -/
def execMaccSt (o : AccMemOp) (s : State) : Out := .next (maccMemStep true o s)
/-- MACC_LD (R256). -/
def execMaccLd (o : AccMemOp) (s : State) : Out := .next (maccMemStep false o s)
/-- MACC_STAT (R257). -/
def execMaccStat (o : AccStatOp) (s : State) : Out := .next (maccStatStep o s)
/-- MATRIX_OP_COMPLETE (R249), an event: it can happen while the array has an operation. -/
def execMatrixOpComplete (core arr : Nat) (s : State) : Out := .next (matrixDone s core arr)

end Sys2Proof.Machine
end

