-- ==== Sys2Proof/Machine/System.lean ====
section
/-!
DEFINITION. The `sys` selectors of the core, opcode 0x7E (R270, R274 to R282): one shared operation for the checks, the effect
on each real item in issue order, and the results.
-/
namespace Sys2Proof.Machine

/-- PRIVILEGE of a selector (R262, R265). -/
def privTrap (sel : Nat) : Trap := { code := 0x07, sub := sel }

/-- Bit of the context descriptor of an ASID (R263). -/
def ctxBit (s : State) (asid n : Nat) : Bool := (tget s.ctx asid 0).getLsbD n

/-- A selector of supervisor level (R275). -/
def needSuper (sel : Nat) (_s : State) (_asid : Nat) (l : Level) : Option Trap :=
  if l = .supervisor then none else some (privTrap sel)
/-- A selector of either level. -/
def anyLevel (_s : State) (_asid : Nat) (_l : Level) : Option Trap := none

/-- The checks before a selector acts (R83, R274): PRIVILEGE before the operands; a helper has no effect. -/
def sysSift (s : State) (w : Where) (u : Uses) (dsts : List Nat) (priv : State → Nat → Level → Option Trap) :
    State × Option Sifted :=
  let gang := w.b.gang
  let asid := (gangAt s gang).asid
  match siftFor s w u dsts (fun s g p => priv s asid (itemAt s gang g p).level) with
  | (s, none) => (s, none)
  | (s, some k) =>
    let helps (m : Nat × Nat) : Bool := (itemAt s gang m.1 m.2).helper
    (s, some { k with go := k.go.filter (fun m => !helps m), zero := k.zero ++ k.go.filter helps })

/-- A selector issued for a bundle; a span pours (R163, R274). -/
def sysStep (u : Uses) (dsts : List Nat) (priv : State → Nat → Level → Option Trap)
    (body : State → Where → Sifted → State) (s : State) : State :=
  match issuing s with
  | none => s
  | some w =>
    match w.b.span with
    | some i =>
      let sp := spanAt s i
      pourOrDeal s w i ((priv s (spanAsid s sp) sp.level).isSome || spanTrap sp u)
    | none =>
      match sysSift s w u dsts priv with
      | (s, none) => s
      | (s, some k) => body s w k

/-- The end of a selector with results of `n` words. -/
def wordsEnd (s : State) (w : Where) (k : Sifted) (d : Field7) (ext : Word) (n len : Nat) (chained : Bool)
    (rs : List (Nat × Nat × List Word)) (traps : List (Nat × Nat × Trap)) : State :=
  let s := deliverWords s w.b.gang d ext rs
  waitEnd s w k { hits := rs.map (fun (g, p, ws) => (g, p, { addr := 0, ws })), traps } d n len chained none

/-- The end of a selector without results: `go` are the items that had their effect. -/
def plainEnd (s : State) (w : Where) (k : Sifted) (len : Nat) (chained : Bool) (go : List (Nat × Nat))
    (traps : List (Nat × Nat × Trap)) : State :=
  waitEnd s w k { hits := go.map (fun (g, p) => (g, p, { addr := 0 })), traps } 120 0 len chained none

/-- The 64-bit address operand of an item (R104, R274). -/
def pairOperand (s : State) (gang g p : Nat) (ext : Word) (f : Field7) : Nat :=
  (srcAt (gangAt s gang).oneD (groupAt s gang g) p ext { f, wide := true }).toNat

/-- Length of a selector (R67). -/
def lenOf (x : Bool) : Nat := if x then 2 else 1

/-- A selector's use of D and A. -/
def daUses (o : DaOp) (dn an : Nat) : Uses :=
  { named := (if dn = 0 then [] else [(o.d, dn)]) ++ [(o.a, an)], read := [(o.a, an)], ext := o.ext }
/-- A selector's use of A. -/
def aUses (o : AOp) (an : Nat) : Uses := { named := [(o.a, an)], read := [(o.a, an)], ext := o.ext }

/-- A register result in a span as a symbolic operation on constants (R163, R276). -/
def spanStatus (d a : Field7) (withA : Bool) (ext : Word) (len : Nat) (chained : Bool) (old : Word) : OpSpec :=
  { y := false, d, ext, srcs := if withA then [{ f := a }] else [], len, chained, f := fun _ => (old.setWidth 64, 0) }

/-- `getst` (R276): helpers read their group's word too (R274). -/
def getstStep (o : DOp) (s : State) : State :=
  let u : Uses := { named := [(o.d, 1)], read := [], ext := 0 }
  match issuing s with
  | none => s
  | some w =>
    match w.b.span with
    | some i =>
      (match spanOp (spanStatus o.d 120 false 0 1 o.c (spanAt s i).status) s i with
        | .pour sym => pourOrDeal s w i sym
        | .act s => spanEnd (spanAdvance s i 1) w i o.c false)
    | none =>
      match memSift s w u (dstRegs o.d) with
      | (s, none) => s
      | (s, some k) =>
        wordsEnd s w k o.d 0 1 1 o.c (k.go.map (fun (g, p) => (g, p, [(groupAt s w.b.gang g).status]))) []

/-- KEEP of `setst` (R276). -/
def setstKeep (o : DaOp) : Nat := modOf (some o.d) [o.a] o.x o.ext % 64

/-- `setst` (R276): item by item, each atomic against the flag ORs. -/
def setstStep (o : DaOp) (s : State) : State :=
  let len := lenOf o.x
  match issuing s with
  | none => s
  | some w =>
    match w.b.span with
    | some i =>
      let sp := spanAt s i
      let spec := spanStatus o.d o.a true o.ext len o.c sp.status
      (match spanOp spec s i with
        | .pour sym => pourOrDeal s w i sym
        | .act s' =>
          let a := match formOf sp.v sp.s sp.ring none { f := o.a } o.ext with
            | some (.const v) => lowWord v
            | _ => 0
          let x := spanAt s' i
          spanEnd (spanAdvance (setSpan s' i { x with status := setFlags sp.status a (setstKeep o) }) i len) w i o.c false)
    | none =>
      sysStep (daUses o 1 1) (dstRegs o.d) anyLevel (fun s w k =>
        let gang := w.b.gang
        let (s, rs) := k.go.foldl (fun (s, rs) (g, p) =>
          let a := operand s gang g p o.ext o.a
          let old := (groupAt s gang g).status
          (updGroup s gang g (fun x => { x with status := setFlags old a (setstKeep o) }), rs ++ [(g, p, [old])]))
          (s, ([] : List (Nat × Nat × List Word)))
        wordsEnd s w k o.d o.ext 1 len o.c rs []) s

/-- An aligned image of `n` bytes read from log memory (R209, R277). -/
def imageAt (s : State) (k : Who) (a n : Nat) : Got :=
  if a % n ≠ 0 then .trap { code := 0x09, addr := BitVec.ofNat 64 a } else readLog s k false false a n

/-- An aligned image of `n` bytes to be written to log memory: its checks. -/
def imageTo (s : State) (k : Who) (a n : Nat) : Got :=
  if a % n ≠ 0 then .trap { code := 0x09, addr := BitVec.ofNat 64 a, wr := true } else checkLog s k true false a n

/-- A format register's image is checked under R49, a pattern register's under R188. -/
def imageOk (pattern : Bool) (l : List Byte) : Bool :=
  if pattern then (l.drop 144).all (· = 0) else fmtOk (BitVec.ofNat 256 (ofBytes l))

/-- A checked image put into its register for the whole gang (R277). -/
def loadImage (s : State) (gang : Nat) (pattern : Bool) (n : Nat) (l : List Byte) : State :=
  let g := gangAt s gang
  if pattern then setGang s gang { g with pat := tput g.pat n (BitVec.ofNat 2048 (ofBytes l)) }
  else setGang s gang { g with fmt := tput g.fmt n (BitVec.ofNat 256 (ofBytes l)) }

/-- What the reads of a selector wait for: its items' own atomic results, then a GEN above SEEN (R225, R317). -/
def readGate (s : State) (w : Where) (bytes : Nat) (hs : List (Nat × Nat × Hit)) : Option State :=
  let asid := (gangAt s w.b.gang).asid
  let waits := nodup (hs.flatMap (fun (g, p, h) =>
    match whoXlate s (whoOf s w g p) false false h.addr bytes with
    | .ok ls => atomicWaits s w.core w.b.gang g p ((sectorsOf h.addr bytes).map (fun a => keyOf (leafIn ls a) a))
    | _ => []))
  if waits.isEmpty then
    if hs.isEmpty then none else loadGate s w asid ((hs.map (fun h => h.2.2.gen)).foldl max 0)
  else
    let r : Release := { scope := 4, asid, wid := clusterOf w.core, mark := 0, atomics := waits, gang := w.b.gang }
    some (stallOn (pushAllRelease s r) w (.release r))

/-- The bytes of the words of a hit. -/
def Hit.bytes (h : Hit) : List Byte := h.ws.flatMap wordBytes

/-- `n` bytes read by the items of a selector under a plan: walks, gates, or the plans (R209, R277, R278). -/
def readPlans (s : State) (w : Where) (n : Nat) (k : Sifted) (plan : Nat → Nat → Except Got Hit)
    (fin : State → Plans → State) : State :=
  let gang := w.b.gang
  let ps := planAll s gang plan (byGpos k.go)
  if !ps.walks.isEmpty then stallWalks s (gangAt s gang).asid ps.walks
  else match readGate s w n ps.hits with
    | some s => s
    | none =>
      let s := ps.hits.foldl (fun s (g, p, h) =>
        match whoXlate s (whoOf s w g p) false false h.addr n with
        | .ok ls => fillBytes s w.core (gangAt s gang).asid ls h.addr n 0
        | _ => s) s
      fin s ps

/-- Aligned images of `n` bytes read by the items of a selector, each checked (R277, R278). -/
def readImages (s : State) (w : Where) (n : Nat) (addr : Nat → Nat → Nat) (bad : Nat → Nat → List Byte → Option Trap)
    (k : Sifted) (fin : State → Plans → State) : State :=
  readPlans s w n k (fun g p =>
    match imageAt s (whoOf s w g p) (addr g p) n with
    | .ok l gen =>
      (match bad g p l with
        | some t => .error (.trap t)
        | none => .ok { addr := addr g p, ws := wordsIn (n / 4) l, gen })
    | e => .error e) fin

/-- Aligned images of `n` bytes stored by the items of a selector in ascending gpos (R209, R277, R278). -/
def writeImages (s : State) (w : Where) (n : Nat) (addr : Nat → Nat → Nat) (image : List Byte) (k : Sifted)
    (len : Nat) (chained : Bool) : State :=
  let gang := w.b.gang
  let asid := (gangAt s gang).asid
  let plan (g p : Nat) : Except Got Hit :=
    gotHit (imageTo s (whoOf s w g p) (addr g p) n) (fun _ _ => { addr := addr g p })
  let ps := planAll s gang plan (byGpos k.go)
  if !ps.walks.isEmpty then stallWalks s asid ps.walks
  else
    let r := ps.hits.foldl (fun (acc : Option State) (g, p, h) => acc.bind (fun s' =>
      match whoXlate s (whoOf s w g p) true false h.addr n with
      | .ok ls => storeBytes s' w.core (clusterOf w.core) asid ls h.addr image
      | _ => some s')) (some s)
    match r with
    | none => stallOn s w .tailFull
    | some s => plainEnd s w k len chained (ps.hits.map (fun h => (h.1, h.2.1))) ps.traps

/-- A CONST address operand of a span (R163). -/
def spanAddr (sp : Span) (o : DaOp) : Option Nat :=
  match formOf sp.v sp.s sp.ring none { f := o.a, wide := true } o.ext with
  | some (.const v) => some v.toNat
  | _ => none

/-- A span as it accesses log memory. -/
def spanWho (s : State) (w : Where) (sp : Span) : Who :=
  { core := w.core, gang := sp.gang.getD 0, asid := spanAsid s sp, level := sp.level, ans := w.b.prog.answers }

/-- `fmtld`, `fmtst` and `patld` in a span with a CONST operand: once for the gang, after dealing; a cause or a failed check
pours (R160, R163). -/
def spanImage (o : DaOp) (s : State) (w : Where) (i : Nat) (act : Who → Nat → Nat → State) : State :=
  let sp := spanAt s i
  let u := daUses o 0 2
  match sp.gang with
  | none => pourOrDeal s w i (spanTrap sp u)
  | some gang =>
    if spanTrap sp u then pourOrDeal s w i true
    else if spanPoison sp u then pourOrDeal s w i false
    else match spanAddr sp o with
      | none => pourOrDeal s w i false
      | some a => act (spanWho s w sp) gang a

/-- `fmtld` and `patld` (R277). -/
def imageLoad (pattern : Bool) (o : DaOp) (s : State) : State :=
  let n := o.d.toNat
  let size := if pattern then 256 else 32
  let len := lenOf o.x
  let bad (l : List Byte) : Option Trap := if imageOk pattern l then none else some { code := 0x10, sub := n }
  match issuing s with
  | none => s
  | some w =>
    match w.b.span with
    | some i =>
      spanImage o s w i (fun k gang a =>
        match imageAt s k a size with
        | .walk v => stallWalk s w k.asid v
        | .ok l gen =>
          if (bad l).isSome then pourOrDeal s w i true
          else (match loadGate s w k.asid gen with
            | some s => s
            | none => spanEnd (spanAdvance (loadImage s gang pattern n l) i len) w i o.c false)
        | _ => pourOrDeal s w i true)
    | none =>
      sysStep (daUses o 0 2) [] anyLevel (fun s w k =>
        readImages s w size (fun g p => pairOperand s w.b.gang g p o.ext o.a) (fun _ _ l => bad l) k (fun s ps =>
          let s := ps.hits.foldl (fun s h => loadImage s w.b.gang pattern n h.2.2.bytes) s
          plainEnd s w k len o.c (ps.hits.map (fun h => (h.1, h.2.1))) ps.traps)) s

/-- `fmtst` (R277): the image as a 32-byte store. -/
def fmtstStep (o : DaOp) (s : State) : State :=
  let n := o.d.toNat
  let len := lenOf o.x
  match issuing s with
  | none => s
  | some w =>
    match w.b.span with
    | some i =>
      spanImage o s w i (fun k gang a =>
        let img := toBytes 32 (fmtOf (gangAt s gang) n).toNat
        match imageTo s k a 32 with
        | .walk v => stallWalk s w k.asid v
        | .ok _ _ =>
          (match whoXlate s k true false a 32 with
            | .ok ls =>
              (match storeBytes s w.core (clusterOf w.core) k.asid ls a img with
                | none => stallOn s w .tailFull
                | some s => spanEnd (spanAdvance s i len) w i o.c false)
            | _ => pourOrDeal s w i true)
        | _ => pourOrDeal s w i true)
    | none =>
      sysStep (daUses o 0 2) [] anyLevel (fun s w k =>
        writeImages s w 32 (fun g p => pairOperand s w.b.gang g p o.ext o.a)
          (toBytes 32 (fmtOf (gangAt s w.b.gang) n).toNat) k len o.c) s

/-- Fields of a fault record that `rett` reads (R267, R270). -/
def recField (l : List Byte) (at' n : Nat) : Nat := ofBytes ((l.drop at').take n)

/-- The target check of `rett` (R270, R80): the START bit of the word at the resume point. An address that has no START bit, inside
a word or in a header, fails it (DEDUCED, log entry 28). -/
def rettTarget (s : State) (w : Where) (asid pc : Nat) : Tgt :=
  if 2 ^ 57 ≤ pc || pc % 4 ≠ 0 || pc % 128 < 8 then .trap (targetTrap (BitVec.ofNat 64 pc))
  else match fetchAt s w.core w.b.prog.answers asid .supervisor (pc / 128 * 128) 8 with
    | .fault t => .trap { t with addr := BitVec.ofNat 64 pc }
    | .miss v => .miss v
    | .ok l => if hdrStart (headerOf l) ((pc % 128 - 8) / 4) then .ok else .trap (targetTrap (BitVec.ofNat 64 pc))

/-- What one item's `rett` comes to: its record, checked (R270). -/
def rettPlan (s : State) (w : Where) (g p : Nat) : Except Got Hit :=
  let gang := w.b.gang
  let gg := gangAt s gang
  let t := itemAt s gang g p
  if !t.frame then .error (.trap (privTrap 0xFF))
  else match readLog s { whoOf s w g p with level := .supervisor } false false (recordAddr s gg g p) 192 with
    | .ok l gen =>
      (match rettTarget s w gg.asid (recField l 8 8) with
        | .ok => .ok { addr := recordAddr s gg g p, ws := wordsIn 48 l, gen }
        | .miss v => .error (.walk v)
        | .trap c => .error (.trap c))
    | e => .error e

/-- The item state that a record restores (R270). -/
def rettItem (s : State) (gang g p : Nat) (l : List Byte) : State :=
  let oneD := (gangAt s gang).oneD
  let valid := recField l 72 1
  let ring : List (Option LRep) := (upTo 0 8).map (fun j =>
    if bit valid j then some (.body (BitVec.ofNat 32 (recField l (40 + 4 * j) 4))) else none)
  let s := updGroup s gang g (fun x =>
    let x := putWords oneD (putWords oneD x 0 [(p, BitVec.ofNat 32 (recField l 144 4))]) 1 [(p, BitVec.ofNat 32 (recField l 148 4))]
    { x with badL := x.badL.filter (fun e => e.1 ≠ p) })
  updItem s gang g p (fun t => { t with
    ring, level := if bit (recField l 0 4) 21 then .supervisor else .user, frame := false
    pc := BitVec.ofNat 64 (recField l 8 8), unchained := true })

/-- The call-stack copy of an item that has not been written is made again before the item issues (R177). -/
def retryStack (s : State) (gang g p : Nat) : State :=
  let t := itemAt s gang g p
  if t.held.isEmpty then s else giveStack s gang g p t.held

/-- `rett` (R270): each item with a frame returns; the items issue as one bundle for each resume address, ascending. -/
def rettStep (o : NullOp) (s : State) : State :=
  match issuing s with
  | none => s
  | some w =>
    let gang := w.b.gang
    match w.b.span with
    | some i => pourOrDeal s w i true
    | none =>
      let helpers := w.b.members.filter (fun m => (itemAt s gang m.1 m.2).helper)
      let real := w.b.members.filter (fun m => !(itemAt s gang m.1 m.2).helper)
      let ps := planAll s gang (fun g p => rettPlan s w g p) real
      if !ps.walks.isEmpty then stallWalks s (gangAt s gang).asid ps.walks
      else match (if ps.hits.isEmpty then none else loadGate s w (gangAt s gang).asid ((ps.hits.map (fun h => h.2.2.gen)).foldl max 0)) with
        | some s => s
        | none =>
          -- helpers go on, or retire past a last line (R20, R69)
          let off := helpers.filter (fun m => (fallTrap w (itemAt s gang m.1 m.2).pc 1).isSome)
          let on := helpers.filter (fun m => !off.contains m)
          let s := advance s gang on 1
          let s := off.foldl (fun s m => endItem s gang m.1 m.2) s
          let s := ps.hits.foldl (fun s (g, p, h) => rettItem s gang g p h.bytes) s
          let back := ps.hits.map (fun h => (h.1, h.2.1))
          let s := back.foldl (fun s m => retryStack s gang m.1 m.2) s
          let pcs := sortBy id (nodup (back.map (fun m => (itemAt s gang m.1 m.2).pc.toNat)))
          let sets := pcs.map (fun a => (gang, back.filter (fun m => (itemAt s gang m.1 m.2).pc.toNat = a)))
          let s := deliverAll s w ps.traps
          let s := endMember s w w.b.members on { chained := o.c && back.isEmpty } false
          if back.isEmpty then s
          else
            let l := laneAt s w.core w.lane
            let l := match l.bundle with
              | some b => { l with bundle := none, resumes := sets ++ [(gang, b.members)] ++ l.resumes }
              | none => { l with resumes := sets ++ l.resumes }
            setLane s w.core w.lane l

/-- Reserved bits of a context descriptor (R263). -/
def ctxReserved (v : Nat) : Bool := bits v 127 116 ≠ 0 || bits v 79 69 ≠ 0 || bits v 63 57 ≠ 0 || bits v 7 0 ≠ 0

/-- An image that an ASID's descriptor refuses (R278): a reserved bit, or UINJ for a VF without UINJEN. -/
def ctxRefused (s : State) (asid v : Nat) : Bool :=
  ctxReserved v || (bit v 66 && (astEntry s asid).fn ≠ 0 && !(fnAt s (astEntry s asid).fn).uinjen)

/-- `ctxsv` (R278). -/
def ctxsvStep (o : AOp) (s : State) : State :=
  sysStep (aUses o 2) [] (needSuper 0x19) (fun s w k =>
    writeImages s w 16 (fun g p => pairOperand s w.b.gang g p o.ext o.a)
      (toBytes 16 (tget s.ctx (gangAt s w.b.gang).asid 0).toNat) k (lenOf o.x) o.c) s

/-- `ctxld` (R278). -/
def ctxldStep (o : AOp) (s : State) : State :=
  sysStep (aUses o 2) [] (needSuper 0x1A) (fun s w k =>
    let gang := w.b.gang
    let asid := (gangAt s gang).asid
    readImages s w 16 (fun g p => pairOperand s gang g p o.ext o.a)
      (fun g p l => if ctxRefused s asid (ofBytes l) then
        some { code := 0x0C, addr := BitVec.ofNat 64 (pairOperand s gang g p o.ext o.a) } else none) k (fun s ps =>
      let s := ps.hits.foldl (fun s h => { s with ctx := tput s.ctx asid (BitVec.ofNat 128 (ofBytes h.2.2.bytes)) }) s
      plainEnd s w k (lenOf o.x) o.c (ps.hits.map (fun h => (h.1, h.2.1))) ps.traps)) s

/-- `halt` (R282): the gang is contained with the first item's code, and the items go on to their next switch point. -/
def haltStep (o : AOp) (s : State) : State :=
  sysStep (aUses o 1) [] (needSuper 0x1B) (fun s w k =>
    let gang := w.b.gang
    let s := k.go.foldl (fun s (g, p) =>
      contain s gang (itemAt s gang g p).pc { code := 0 } 2 0 ((operand s gang g p o.ext o.a).toNat % 65536)) s
    plainEnd s w k (lenOf o.x) o.c k.go []) s

/-- A count of a core (R156, R279): code 0x02 is what neither issue nor a stall accounts for in the 256 lanes. -/
def perfCount (s : State) (core code : Nat) : Nat :=
  let c := (coreAt s core).perf
  if code = 2 then (256 * s.now - tget c 0 0 - tget c 5 0 - tget c 0x80 0) % 2 ^ 48
  else if code ≤ 8 || (0x10 ≤ code && code ≤ 0x14) then tget c code 0 % 2 ^ 48
  else 0

/-- `perfrd` (R279). -/
def perfrdStep (o : DaOp) (s : State) : State :=
  sysStep (daUses o 2 1) (upTo o.d.toNat 2) (fun s asid l => if l = .supervisor || ctxBit s asid 65 then none else some (privTrap 0x20))
    (fun s w k =>
      let rs := k.go.map (fun (g, p) =>
        let v := perfCount s w.core (operand s w.b.gang g p o.ext o.a).toNat
        (g, p, [BitVec.ofNat 32 v, BitVec.ofNat 32 (v / 2 ^ 32)]))
      wordsEnd s w k o.d o.ext 2 (lenOf o.x) o.c rs []) s

/-- A word of a log under `errlog`, and the log after the read (R280). -/
def readErrLog (l : ErrLog) (a : Nat) : DWord × ErrLog :=
  let n := bits a 2 0
  let clear := bit a 8
  if n < 4 then
    let e := tget l.entries n 0
    (e, if clear then { l with entries := tput l.entries n (e &&& ~~~(1#64 <<< 63)) } else l)
  else if n = 4 then
    let v := fields ((upTo 0 4).map (fun i => (i, ofBool ((tget l.entries i 0).getLsbD 63))) ++ [(4, ofBool l.ovf)])
    (BitVec.ofNat 64 v, if clear then { l with ovf := false } else l)
  else (0, l)

/-- A core's log read under `errlog` (R280). -/
def coreErrLog (k : Core) (a : Nat) : DWord × Core :=
  match bits a 5 4 with
  | 0 => ((readErrLog k.matLog a).1, { k with matLog := (readErrLog k.matLog a).2 })
  | 1 => ((readErrLog k.storLog a).1, { k with storLog := (readErrLog k.storLog a).2 })
  | 2 => ((readErrLog k.engLog a).1, { k with engLog := (readErrLog k.engLog a).2 })
  | _ => (0, k)

/-- `errlog` (R280): item by item, a read that clears leaves the entry free for the next. -/
def errlogStep (o : DaOp) (s : State) : State :=
  sysStep (daUses o 2 1) (upTo o.d.toNat 2) (needSuper 0x21) (fun s w k =>
    let (s, rs) := k.go.foldl (fun (s, rs) (g, p) =>
      let (v, c) := coreErrLog (coreAt s w.core) (operand s w.b.gang g p o.ext o.a).toNat
      (setCore s w.core c, rs ++ [(g, p, [lowWord v, highWord v])])) (s, ([] : List (Nat × Nat × List Word)))
    wordsEnd s w k o.d o.ext 2 (lenOf o.x) o.c rs []) s

/-- An error put on a word of a list: the worse of two stands (R281). -/
def strike (l : List (Nat × Nat)) (w e : Nat) : List (Nat × Nat) :=
  match l.find? (fun x => x.1 = w) with
  | some x => (w, max x.2 e) :: l.filter (fun y => y.1 ≠ w)
  | none => (w, e) :: l

/-- What one item's `inject` comes to: the state, a cause, or a page to walk (R281). -/
def injectItem (o : InjectOp) (s : State) (w : Where) (g p : Nat) : State × Option Trap × Option Nat :=
  let gang := w.b.gang
  let gg := gangAt s gang
  let m := o.ext.toNat
  let e := if bit m 4 then 0 else 1
  let a := (operand s gang g p 0 o.a).toNat
  let out (x : Nat) : State × Option Trap × Option Nat := (s, some { code := 0x0C, addr := BitVec.ofNat 64 x }, none)
  match m % 16 with
  | 0 => if gg.gmemSize ≤ a then out a else (setGang s gang { gg with badGmem := strike gg.badGmem (a / 4) e }, none, none)
  | 1 =>
    let l := localOf s gang true
    if l.size ≤ a then out a else (setLocal s gang true { l with bad := strike l.bad (a / 4) e }, none, none)
  | 2 =>
    let va := pairOperand s gang g p 0 o.a
    (match whoXlate s (whoOf s w g p) false false va 1 with
      | .fault c f => (s, some { code := c, addr := BitVec.ofNat 64 f }, none)
      | .miss v => (s, none, some v)
      | .ok ls =>
        (match baseStored s (clusterOf w.core) (dieOf w.core) gg.asid (keyOf (leafIn ls va) va) with
          | none => (s, none, none)
          | some (sec, _) =>
            -- every reader of the position meets the error: no L1 keeps its copy of the line
            let line := lineOf (leafIn ls va) va
            let s := (upTo 0 4).foldl (fun s d => l1Purge s d (fun x => x.asid = gg.asid && lineOf x.leaf x.va = line)) s
            let worse := s.badLog.any (fun x => x.1 = sec && x.2)
            ({ s with badLog := if worse then s.badLog else (sec, e = 1) :: s.badLog.filter (fun x => x.1 ≠ sec) }, none, none)))
  | 3 =>
    let arr := bits m 6 5
    if (arrayAt s w.core arr).owner ≠ some gang then out a
    else
      let x := arrayAt s w.core arr
      (setArray s w.core arr { x with badAcc := strike x.badAcc (a % 16384) e }, none, none)
  | _ =>
    if 112 ≤ a || (32 ≤ a && !(itemAt s gang g p).ext) then out a
    else
      let old := ((groupAt s gang g).badV.find? (fun q => q.1 = a && q.2.1 = p)).map (fun q => q.2.2)
      (updGroup s gang g (fun x => { x with
        badV := (a, p, max (old.getD e) e) :: x.badV.filter (fun y => !(y.1 = a && y.2.1 = p)) }), none, none)

/-- `inject` (R281). -/
def injectStep (o : InjectOp) (s : State) : State :=
  let n := if o.ext.toNat % 16 = 2 then 2 else 1
  sysStep { named := [(o.a, n)], read := [(o.a, n)], ext := 0 } []
    (fun s asid _ => if ctxBit s asid 66 then none else some (privTrap 0x22)) (fun s w k =>
      let walks := k.go.filterMap (fun (g, p) => (injectItem o s w g p).2.2)
      if !walks.isEmpty then stallWalks s (gangAt s w.b.gang).asid walks
      else
        let (s, go, ts) := k.go.foldl (fun (s, go, ts) (g, p) =>
          match injectItem o s w g p with
          | (s', none, _) => (s', go ++ [(g, p)], ts)
          | (_, some c, _) => (s, go, ts ++ [(g, p, c)])) (s, ([] : List (Nat × Nat)), ([] : List (Nat × Nat × Trap)))
        plainEnd s w k 2 o.c go ts) s

/-- GETST (R276). -/
def execGetst (o : DOp) (s : State) : Out := .next (getstStep o s)
/-- SETST (R276). -/
def execSetst (o : DaOp) (s : State) : Out := .next (setstStep o s)
/-- FMTLD (R277). -/
def execFmtld (o : DaOp) (s : State) : Out := .next (imageLoad false o s)
/-- FMTST (R277). -/
def execFmtst (o : DaOp) (s : State) : Out := .next (fmtstStep o s)
/-- PATLD (R277). -/
def execPatld (o : DaOp) (s : State) : Out := .next (imageLoad true o s)
/-- RETT (R270). -/
def execRett (o : NullOp) (s : State) : Out := .next (rettStep o s)
/-- CTXSV (R278). -/
def execCtxsv (o : AOp) (s : State) : Out := .next (ctxsvStep o s)
/-- CTXLD (R278). -/
def execCtxld (o : AOp) (s : State) : Out := .next (ctxldStep o s)
/-- HALT (R282). -/
def execHalt (o : AOp) (s : State) : Out := .next (haltStep o s)
/-- PERFRD (R279). -/
def execPerfrd (o : DaOp) (s : State) : Out := .next (perfrdStep o s)
/-- ERRLOG (R280). -/
def execErrlog (o : DaOp) (s : State) : Out := .next (errlogStep o s)
/-- INJECT (R281). -/
def execInject (o : InjectOp) (s : State) : Out := .next (injectStep o s)

end Sys2Proof.Machine
end

