-- ==== Sys2Proof/Machine/Reorder.lean ====
section
/-!
DEFINITION. The reorder unit of a die (R360 to R362): `reord`, the bins, and the gangs that a flush relaunches.
-/
namespace Sys2Proof.Machine

/-- A gang of one home group made of flushed records: it waits for placement with its launch's needs (R362). -/
def relaunch (s : State) (die : Nat) (b : Bin) (recs : List (List Word)) : State :=
  let d := dieAt s die
  let q := ((d.flushes.find? (fun f => f.1 = b.launch && f.2.1 = b.cont)).map (fun f => f.2.2)).getD 0
  let s := setDie s die { d with flushes :=
    (b.launch, b.cont, q + 1) :: d.flushes.filter (fun f => !(f.1 = b.launch && f.2.1 = b.cont)) }
  let ln := launchAt s b.launch
  let p := ln.pkt
  let (id, s) := newName s
  setGang s id {
    launch := b.launch, asid := pktAsid p, fn := ln.fn, queue := ln.queue, die, index := 2 ^ 21 + id
    box := { ox := 32 * q, oy := die, oz := 0, ex := recs.length }, oneD := true, since := s.now
    vext := bit p.toNat 158, mat := bit p.toNat 159, sblk := pkt p 178 175, gmemSize := pkt p 186 179 * 4096
    relaunch := some { cont := b.cont, key := BitVec.ofNat 32 b.key, n := recs.length, q, recs } }

/-- A bin flushed: its records leave in order, 32 to a group (R362). `fuel` bounds the groups. -/
def flushAll (s : State) (die : Nat) (b : Bin) : Nat → List (Nat × List Word) → State
  | 0, _ => s
  | _, [] => s
  | n + 1, l => flushAll (relaunch s die b ((l.take 32).map Prod.snd)) die b n (l.drop 32)

/-- The first `n` records of a bin flushed; an empty bin goes (R362). -/
def flushBin (s : State) (die : Nat) (b : Bin) (n : Nat) : State :=
  let d := dieAt s die
  let same (x : Bin) : Bool := x.launch = b.launch && x.cont = b.cont && x.key = b.key
  let rest := b.recs.drop n
  let s := setDie s die { d with bins := d.bins.filterMap (fun x =>
    if same x then (if rest.isEmpty then none else some { x with recs := rest }) else some x) }
  flushAll s die b n (b.recs.take n)

/-- Order of bins from the largest to the smallest, those of one size in ascending key (R362). -/
def sizeKey (b : Bin) : Nat := (131072 - b.recs.length) * 65536 + b.key

/-- With 98,304 records or more, every bin flushes in full, the largest first (R362). -/
def flushFull (s : State) (die : Nat) : State :=
  let d := dieAt s die
  if reorderCount s die < 98304 then s
  else (sortBy sizeKey d.bins).foldl (fun s b => flushBin s die b b.recs.length) s

/-- A record deposited (R361, R362): a bin of 32 flushes. -/
def deposit (s : State) (die launch : Nat) (cont : DWord) (key : Nat) (ws : List Word) : State :=
  let d := dieAt s die
  let same (x : Bin) : Bool := x.launch = launch && x.cont = cont && x.key = key
  let bins := if d.bins.any same then d.bins.map (fun x => if same x then { x with recs := x.recs ++ [(s.now, ws)] } else x)
    else d.bins ++ [{ launch, cont, key, recs := [(s.now, ws)] }]
  let s := setDie s die { d with bins }
  match bins.find? (fun x => same x && 32 ≤ x.recs.length) with
  | some b => flushFull (flushBin s die b 32) die
  | none => flushFull s die

/-- REORD_BIN_TIMEOUT (R362): bins whose oldest record is 20 µs old flush in full, in ascending key. -/
def binTimeout (s : State) (die : Nat) : State :=
  let due := (dieAt s die).bins.filter (fun b => b.recs.any (fun r => r.1 + usec 20 ≤ s.now))
  (sortBy Bin.key due).foldl (fun s b => flushBin s die b b.recs.length) s

/-- The s registers that hold the continuation. -/
def reordS (o : ReordOp) : Nat := bits o.ext.toNat 13 4
/-- Payload words. -/
def reordN (o : ReordOp) : Nat := bits o.ext.toNat 3 0

/-- Registers that `reord` names and reads (R360). -/
def reordUses (o : ReordOp) : Uses :=
  let l : List (Field7 × Nat) := (if reordN o = 0 then [] else [(o.d, reordN o)]) ++ [(o.a, 1), (124, 2)]
  { named := l, read := l, ext := BitVec.ofNat 32 (reordS o) }

/-- `reord` (R361): one release of die scope, then each real item deposits its record and ends; helpers end. -/
def reordStep (o : ReordOp) (s : State) : State :=
  let u := reordUses o
  match issuing s with
  | none => s
  | some w =>
    match w.b.span with
    | some i => pourOrDeal s w i (spanTrap (spanAt s i) u)
    | none =>
      let gang := w.b.gang
      let gg := gangAt s gang
      match memSift s w u [] with
      | (s, none) => s
      | (s, some k) =>
        let cont (g : Nat) : DWord := pair (tget (groupAt s gang g).s (reordS o + 1) 0) (tget (groupAt s gang g).s (reordS o) 0)
        let helps (m : Nat × Nat) : Bool := (itemAt s gang m.1 m.2).helper
        let plan (g p : Nat) : Goto :=
          if helps (g, p) then .leave
          else match checkTarget s w.core w.b.prog.answers gg.asid (itemAt s gang g p).level true (cont g) with
            | .trap c => .trap c
            | .miss v => .wait gg.asid v
            | .ok => .leave
        let all : Sifted := { go := k.go ++ k.zero, traps := k.traps, zero := [] }
        let goes := k.go.filter (fun m => !helps m && plan m.1 m.2 = .leave)
        let waits := k.go.any (fun m => match plan m.1 m.2 with
          | .wait _ _ => true
          | _ => false)
        if waits then transferStep s w 2 false all plan
        else match (if goes.isEmpty then none else beginRelease s w 3) with
          | some s => s
          | none =>
            if 131072 < reorderCount s gg.die + goes.length then stallOn s w (.reorder goes.length)
            else
              let s1 := (sortBy Prod.snd goes).foldl (fun s (g, p) =>
                let x := groupAt s gang g
                let key := (srcAt gg.oneD x p 0 { f := o.a }).toNat % 65536
                deposit s gg.die gg.launch (cont g) key ((upTo o.d.toNat (reordN o)).map (fun r => vAt gg.oneD x r p))) s
              transferStep s1 w 2 false all plan

/-- REORD (R361). -/
def execReord (o : ReordOp) (s : State) : Out := .next (reordStep o s)
/-- REORD_BIN_TIMEOUT (R362), an event: it can happen when a bin's oldest record is 20 µs old. -/
def execReordBinTimeout (die : Nat) (s : State) : Out := .next (binTimeout s die)

end Sys2Proof.Machine
end

