-- ==== Sys2Proof/Machine/Distribute.lean ====
section
/-!
DEFINITION. The distributor of a die (R340, R347 to R354): reports of cores, the placement of gangs, cohort scratchpads, and the
gangs that a placement-age hold or a pre-emption keeps back.
-/
namespace Sys2Proof.Machine

/-- What a core has free now: what it keeps for the gang of a search counts as taken (R350, R356). -/
def freeView (k : Core) : CoreView :=
  let resv (n : Nat) : Nat := (tget k.kept.lanes n (0, 0)).1
  { lanes := k.lanes.map (fun (n, l) => (n, 4 - l.res.length - resv n, l.gran)), gmem := k.gmemFree, blocks := k.pool
    spans := k.spansFree, mat := k.matGang.isSome || k.kept.mat
    load := (k.lanes.map (fun (n, l) => l.res.length + resv n)).foldl (· + ·) 0 }

/-- A report reaches the distributor (R350). -/
def coreReport (s : State) (core : Nat) : State :=
  let k := coreAt s core
  if !k.dirty then s
  else
    let d := dieAt s (dieOf core)
    setCore (setDie s (dieOf core) { d with views := tput d.views core (freeView k) }) core { k with dirty := false }

/-- What the distributor counts free on a core: what it has seen become free and nothing has taken since (R350). -/
def placeView (s : State) (core : Nat) : CoreView :=
  let a := tget (dieAt s (dieOf core)).views core {}
  let b := freeView (coreAt s core)
  let keys := sortBy id (nodup (a.lanes.map Prod.fst ++ b.lanes.map Prod.fst))
  { lanes := keys.map (fun n =>
      let x := tget a.lanes n (4, 256)
      let y := tget b.lanes n (4, 256)
      (n, min x.1 y.1, min x.2 y.2))
    gmem := min a.gmem b.gmem, blocks := min a.blocks b.blocks, spans := min a.spans b.spans
    mat := a.mat || b.mat, load := max a.load b.load }

/-- Base granules that each home group of a gang needs, and granules of the extended slices its items hold (R348, R358). -/
def gangNeeds (g : Gang) : List (Nat × Nat) :=
  (numbered 0 (gangGroups g)).map (fun (i, o) =>
    (baseGranules g.oneD g.box o, 5 * ((tget g.groups i {}).items.filter (fun t => t.2.ext)).length))

/-- Gang spans of a gang. -/
def spansOf (s : State) (gang : Nat) : List Nat := (s.spans.filter (fun p => p.2.gang = some gang)).map Prod.fst

/-- Scalar blocks that a gang needs: what it declared for each group, and what its groups hold beyond that (R348, R358). -/
def blockNeeds (g : Gang) : Nat :=
  g.sblk * (gangGroups g).length + (g.groups.map (fun x => beyond g.sblk x.2.blocks)).foldl (· + ·) 0

/-- A lane as an assignment sees it: number, free residences, free granules, what is left of this gang's reservation. -/
structure LaneRow where
  lane : Nat
  res : Nat
  gran : Nat
  left : Option Nat := none
  deriving DecidableEq, Repr

/-- Granules that a group takes of a lane, and what is left of the reservation (R348, R351). -/
def rowNeed (vext : Bool) (r : LaneRow) (need : Nat × Nat) : Nat × Option Nat :=
  if !vext then (need.1 + need.2, none)
  else
    let have' := r.left.getD 160
    (need.1 + (if r.left.isNone then 160 else 0) + (need.2 - have'), some (have' - need.2))

/-- Where one group goes: its lane, the granules taken and what is left of the gang's reservation there. -/
structure Spot where
  lane : Nat
  take : Nat
  left : Option Nat
  deriving DecidableEq, Repr

/-- The assignment of R351: each group to the lane with a free residence and the most free granules that can hold it. -/
def assign (vext : Bool) : List (Nat × Nat) → List LaneRow → Option (List Spot)
  | [], _ => some []
  | need :: rest, rows =>
    let ok := rows.filter (fun r => 0 < r.res && decide ((rowNeed vext r need).1 ≤ r.gran))
    match leastBy (fun (r : LaneRow) => (256 - r.gran) * 256 + r.lane) ok with
    | none => none
    | some r =>
      let (n, left) := rowNeed vext r need
      let rows := rows.map (fun x => if x.lane = r.lane then { x with res := x.res - 1, gran := x.gran - n, left } else x)
      (assign vext rest rows).map (fun l => { lane := r.lane, take := n, left } :: l)

/-- Lanes of a view: those it lists, and as many untouched lanes as the gang has groups. -/
def rowsOf (v : CoreView) (n : Nat) : List LaneRow :=
  v.lanes.map (fun (l, r, g) => { lane := l, res := r, gran := g }) ++
    (((upTo 0 256).filter (fun l => (tfind v.lanes l).isNone)).take n).map (fun l => { lane := l, res := 4, gran := 256 })

/-- How a view can place a gang (R351): its core-wide needs are free and the assignment succeeds. -/
def fitsView (s : State) (gang : Nat) (v : CoreView) : Option (List Spot) :=
  let g := gangAt s gang
  if v.gmem < g.gmemSize || v.blocks < blockNeeds g || v.spans < (spansOf s gang).length || (g.mat && v.mat) then none
  else assign g.vext (gangNeeds g) (rowsOf v (gangNeeds g).length)

/-- Arrays that a saved gang holds are free on a core (R261). -/
def arraysFree (s : State) (gang core : Nat) : Bool :=
  (gangAt s gang).arrays.all (fun n => (arrayAt s core n).owner.isNone)

/-- A view after a gang has taken its places. -/
def takeView (s : State) (gang : Nat) (v : CoreView) (l : List Spot) : CoreView :=
  let g := gangAt s gang
  { v with
    lanes := l.foldl (fun t p =>
      let x := tget t p.lane (4, 256)
      tput t p.lane (x.1 - 1, x.2 - p.take)) v.lanes
    gmem := v.gmem - g.gmemSize, blocks := v.blocks - blockNeeds g, spans := v.spans - (spansOf s gang).length
    mat := v.mat || g.mat }

/-- A view after resident gangs have returned their places (R354, R356). -/
def returnView (s : State) (v : CoreView) (gangs : List Nat) : CoreView :=
  gangs.foldl (fun v n =>
    let g := gangAt s n
    let os := gangGroups g
    let lanes := g.places.foldl (fun t (i, lane, _) =>
      let x := tget t lane (4, 256)
      let ext := 5 * ((tget g.groups i {}).items.filter (fun t => t.2.ext)).length
      let base := baseGranules g.oneD g.box (nth os i (0, 0, 0)) - (tget g.groups i {}).back
      tput t lane (x.1 + 1, x.2 + base + ext)) v.lanes
    let lanes := (nodup (g.places.map (fun p => p.2.1))).foldl (fun t lane =>
      let x := tget t lane (4, 256)
      tput t lane (x.1, x.2 + tget (laneAt s g.core lane).resv n 0)) lanes
    { v with lanes, gmem := v.gmem + g.gmemSize, blocks := v.blocks + blockNeeds g, spans := v.spans + (spansOf s n).length
             mat := v.mat && !g.mat }) v

/-- Victims of a die's search that still hold their places (R356). -/
def openVictims (s : State) (l : List Nat) : List Nat :=
  l.filter (fun n => (gangAt s n).phase = .resident || (gangAt s n).phase = .stopping)

/-- A view with what a core keeps added, for the gang that it keeps it for (R356). -/
def keptView (v : CoreView) (k : Kept) : CoreView :=
  { v with
    lanes := k.lanes.foldl (fun t (n, r, g) =>
      let x := tget t n (4, 256)
      tput t n (x.1 + r, x.2 + g)) v.lanes
    gmem := v.gmem + k.gmem, blocks := v.blocks + k.blocks, spans := v.spans + k.spans, mat := v.mat && !k.mat }

/-- A die's search serves a gang on a core (R356). -/
def seeksFor (s : State) (gang core : Nat) : Bool :=
  (dieAt s (dieOf core)).seek.any (fun x => x.1 = gang && x.2.1 = core)

/-- What a gang finds free on a core: its search's own too (R350, R356). -/
def viewFor (s : State) (gang core : Nat) : CoreView :=
  let v := placeView s core
  if seeksFor s gang core then keptView v (coreAt s core).kept else v

/-- What a core keeps becomes free (R356). -/
def openKept (s : State) (core : Nat) : State :=
  let k := coreAt s core
  let lanes := k.kept.lanes.foldl (fun t (n, _, g) =>
    let l := tget t n ({} : Lane)
    tput t n { l with gran := l.gran + g }) k.lanes
  setCore s core { k with
    lanes, gmemFree := k.gmemFree + k.kept.gmem, pool := k.pool + k.kept.blocks, spansFree := k.spansFree + k.kept.spans
    kept := {}, dirty := true }

/-- What a core gained since an earlier state is kept for the gang of a search (R356). -/
def keepGains (s0 s : State) (core : Nat) : State :=
  let k0 := coreAt s0 core
  let k := coreAt s core
  let gains := k.lanes.map (fun (n, l) =>
    let l0 := tget k0.lanes n ({} : Lane)
    (n, l0.res.length - l.res.length, l.gran - l0.gran))
  let lanes := tmap (fun n l => { l with gran := min l.gran (tget k0.lanes n ({} : Lane)).gran }) k.lanes
  setCore s core { k with
    lanes, gmemFree := k0.gmemFree, pool := k0.pool, spansFree := k0.spansFree, dirty := true
    kept := {
      lanes := gains.foldl (fun t (n, r, g) =>
        let x := tget t n (0, 0)
        if r = 0 && g = 0 then t else tput t n (x.1 + r, x.2 + g)) k.kept.lanes
      gmem := k.kept.gmem + (k.gmemFree - k0.gmemFree), blocks := k.kept.blocks + (k.pool - k0.pool)
      spans := k.kept.spans + (k.spansFree - k0.spansFree)
      mat := k.kept.mat || (k0.matGang.isSome && k.matGang.isNone) } }

/-- Span records that stand free go to spans that wait for one (R157, R161). -/
def serveRecords (s : State) (core : Nat) : Nat → State
  | 0 => s
  | n + 1 =>
    let k := coreAt s core
    if 0 < k.spansFree && s.spans.any (fun p => p.2.core = core && p.2.noRec) then
      serveRecords (giveRecord (setCore s core { k with spansFree := k.spansFree - 1 }) core) core n
    else s

/-- Everything that waits for space on a core is tested again (R153 to R155, R161). -/
def serveAll (s : State) (core : Nat) : State :=
  let s := serveRecords s core s.spans.length
  serveAfter s core ((coreAt s core).lanes.map Prod.fst)

/-- Cores of a die that work. -/
def dieCores (s : State) (die : Nat) : List Nat := (upTo (64 * die) 64).filter (coreWorks s)

/-- The core that takes a gang, the least loaded and then the lowest, with the assignment (R351, R352). -/
def coreFor (s : State) (die gang : Nat) : Option (Nat × List Spot) :=
  let ok := (dieCores s die).filterMap (fun c =>
    let v := viewFor s gang c
    if !arraysFree s gang c then none else (fitsView s gang v).map (fun l => (c, v.load, l)))
  (leastBy (fun (x : Nat × Nat × List Spot) => x.2.1 * 2 ^ 20 + x.1) ok).map (fun x => (x.1, x.2.2))

/-- Rows of a scratchpad allocation that fall on a set (R340). -/
def setRows (base rows set' : Nat) : Nat :=
  rows / 2048 + (if (set' + 2048 - base) % 2048 < rows % 2048 then 1 else 0)

/-- Pinned ways of a set, the same in every slice because each allocation takes whole rows of slices (R340). -/
def pinnedWays (d : Die) (set' : Nat) : Nat := (d.spads.map (fun p => setRows p.base (p.lines / 32) set')).foldl (· + ·) 0

/-- The lowest base that fits an allocation of the given rows (R340). -/
def spadBase (d : Die) (rows : Nat) : Option Nat :=
  let used := (upTo 0 2048).map (pinnedWays d)
  (upTo 0 2048).find? (fun b => (numbered 0 used).all (fun (x, n) =>
    setRows b rows x = 0 || decide (n + setRows b rows x ≤ 8)))

/-- A cohort's scratchpad allocated on a die: none when it fails, or passes its function's cap (R340, R418). -/
def allocSpad (s : State) (die launch : Nat) : Option State :=
  if (spadOf s die launch).isSome then some s
  else
    let ln := launchAt s launch
    let d := dieAt s die
    let rows := pkt ln.pkt 205 192
    let mine := ((d.spads.filter (fun p => p.fn = ln.fn)).map (fun p => p.lines / 32)).foldl (· + ·) 0
    let cap := (fnAt s ln.fn).spmax
    if cap ≠ 0 && cap < mine + rows then none
    else (spadBase d rows).map (fun base =>
      setDie s die (trimLines { d with spads := d.spads ++ [{ launch, fn := ln.fn, base, lines := 32 * rows }] }))

/-- Gangs of a die that wait for placement, new and saved ones (R352, R359). -/
def waitingGangs (s : State) (die : Nat) : List (Nat × Gang) :=
  s.gangs.filter (fun g => g.2.die = die && (g.2.phase = .waiting || g.2.phase = .saved))

/-- A gang that a flush made stands outside the grid of its launch (R353, R362). -/
def inGrid (g : Gang) : Bool := decide (g.index < 2 ^ 21)

/-- Order of waiting gangs (R353). -/
def waitKey (e : Nat × Gang) : Nat :=
  ((ofBool (e.2.phase ≠ .saved) * 4 + (3 - priorityOf e.2.queue)) * 2 ^ 100 + e.2.since) * 2 ^ 40 + e.1

/-- The lowest free save slot of a function (R357). -/
def freeSlot (s : State) (fn : Nat) : Option Nat :=
  let x := fnAt s fn
  ((upTo 0 x.nslot).filter (fun k => !x.slots.contains k)).head?

/-- A gang keeps a slot, or can take one (R348, R357). -/
def hasSlot (s : State) (g : Gang) : Bool := g.slot.isSome || (freeSlot s g.fn).isSome

/-- A gang could be placed now, but for the gangs that hold it back. -/
def canPlace (s : State) (die : Nat) (e : Nat × Gang) : Bool :=
  hasSlot s e.2 && !(dieAt s die).spadFail.contains e.2.launch && (coreFor s die e.1).isSome

/-- The oldest gang with a placement-age hold (R353). -/
def oldestHold (s : State) (die : Nat) : Option (Nat × Gang) :=
  leastBy (fun (e : Nat × Gang) => e.2.since * 2 ^ 40 + e.1) ((waitingGangs s die).filter (fun e => e.2.holding))

/-- An aged gang holds back a waiting one (R353): those of its own priority and below, and the oldest every other aged one. -/
def ageHeld (s : State) (die : Nat) (e : Nat × Gang) : Bool :=
  if e.2.holding then (oldestHold s die).any (fun h => h.1 ≠ e.1)
  else (waitingGangs s die).any (fun h => h.2.holding && priorityOf e.2.queue ≤ priorityOf h.2.queue)

/-- Nothing holds a waiting gang back: an aged gang, or an earlier gang box of its launch that cannot be placed (R353). -/
def notHeld (s : State) (die : Nat) (e : Nat × Gang) : Bool :=
  !ageHeld s die e &&
  (waitingGangs s die).all (fun f => !(f.2.launch = e.2.launch && inGrid f.2 && inGrid e.2 && f.2.index < e.2.index) ||
    canPlace s die f)

/-- The next gang that a die places or restores (R353). -/
def nextPlaced (s : State) (die : Nat) : Option (Nat × Gang) :=
  (sortBy waitKey (waitingGangs s die)).find? (fun e => canPlace s die e && notHeld s die e)

/-- The save slot, stack base and stack size taken at the first placement (R37, R357). -/
def takeSlot (s : State) (gang : Nat) : State :=
  let g := gangAt s gang
  if g.slot.isSome then s
  else match freeSlot s g.fn with
    | none => s
    | some k =>
      let x := fnAt s g.fn
      let d := (tget s.ctx g.asid 0).toNat
      setGang (setFn s g.fn { x with slots := x.slots ++ [k] }) gang
        { g with slot := some k, spbase := bits d 115 80 * 2 ^ 21, ssz := bits d 68 67 }

/-- The lowest free residence of a lane (R351). -/
def freeRes (l : Lane) : Nat := ((upTo 0 4).filter (fun r => (tfind l.res r).isNone)).headD 0

/-- The places of an assignment taken on a core (R352, R354): residences, granules, blocks, gang memory, span records and the
matrix flag. -/
def reserve (s : State) (gang core : Nat) (l : List Spot) : State :=
  let needs := (blockNeeds (gangAt s gang), (spansOf s gang).length)
  let s := if seeksFor s gang core then openKept s core else s
  let s := (numbered 0 l).foldl (fun s (i, p) =>
    let ln := laneAt s core p.lane
    let r := freeRes ln
    let s := setLane s core p.lane { ln with
      res := tput ln.res r (gang, i), gran := ln.gran - p.take
      resv := match p.left with
        | some n => tput ln.resv gang n
        | none => ln.resv }
    let g := gangAt s gang
    let g := { g with places := g.places ++ [(i, p.lane, r)] }
    setGang s gang (match tfind g.groups i with
      | some x => { g with groups := tput g.groups i { x with lane := p.lane, res := r, back := 0 } }
      | none => g)) (setGang s gang { gangAt s gang with core, places := [] })
  let g := gangAt s gang
  let k := coreAt s core
  let s := setCore s core { k with
    gmemFree := k.gmemFree - g.gmemSize, pool := k.pool - needs.1, spansFree := k.spansFree - needs.2
    matGang := if g.mat then some gang else k.matGang, dirty := true }
  let lane := spanLane (gangAt s gang)
  let s := (spansOf s gang).foldl (fun s i => setSpan s i { spanAt s i with core, lane, readyAt := s.now, noRec := false }) s
  let ln := launchAt s g.launch
  setLaunch s g.launch { ln with
    clusters := nodup (ln.clusters ++ [clusterOf core]), gangs := nodup (ln.gangs ++ [gang]) }

/-- The group of a relaunched gang with its items (R362): the payload in v0 on, the key and the count in s8 and s9, the items at
the continuation. -/
def relaunchGroup (g : Gang) (pk : BitVec 512) (r : Relaunch) (lane res now : Nat) : Group :=
  let words := ((r.recs.map List.length).headD 0)
  let level := pktLevel pk
  let mk (h : Bool) : Item := { helper := h, pc := r.cont, level, prior := level, readyAt := now }
  { ox := g.box.ox, oy := g.box.oy, oz := g.box.oz, lane, res
    v := (upTo 0 words).map (fun j => (j, .body ((upTo 0 32).map (fun p => nth (nth r.recs p []) j 0))))
    s := pktArgs pk ++ [(8, r.key), (9, BitVec.ofNat 32 r.n)]
    items := (upTo 0 (4 * ceilDiv r.n 4)).map (fun p => (p, mk (decide (r.n ≤ p))))
    used := BitVec.ofNat 32 (2 ^ r.n - 1) }

/-- A new gang placed (R352, R401): its slot, its places, and an acquire of device scope, or of die scope where a flush made it
(R362). -/
def placeNew (s : State) (gang core : Nat) (l : List Spot) : State :=
  let s := reserve (takeSlot s gang) gang core l
  let g := gangAt s gang
  let (s, marks) := makeAcquire s core (if g.relaunch.isSome then 3 else 4)
  let g := { g with phase := .resident, placedAt := s.now, holding := false, marks, relaunch := none }
  match (gangAt s gang).relaunch with
  | none => setGang s gang g
  | some r =>
    let place := (g.places.head?).getD (0, 0, 0)
    setGang s gang { g with
      groups := [(0, relaunchGroup g (launchAt s g.launch).pkt r place.2.1 place.2.2 s.now)] }

/-- A die's search for victims is over when its gang is placed or gone and the victims have left, or when they have left and it
still finds no room; what the core kept for it becomes free (R356). -/
def endSeek (s : State) (die : Nat) : State :=
  let d := dieAt s die
  match d.seek with
  | none => s
  | some (x, core, victims) =>
    let g := gangAt s x
    let waits := (tfind s.gangs x).isSome && (g.phase = .waiting || g.phase = .saved)
    if !(openVictims s victims).isEmpty || (waits && (fitsView s x (keptView (freeView (coreAt s core)) (coreAt s core).kept)).isSome) then s
    else serveAll (openKept (setDie s die { d with seek := none }) core) core

/-- GANG_PLACE (R352, R353): the next new gang is placed, its cohort's scratchpad allocated first. -/
def gangPlace (s : State) (die : Nat) : State :=
  match nextPlaced s die with
  | none => s
  | some (n, g) =>
    if g.phase = .saved then s
    else match allocSpad s die g.launch, coreFor s die n with
      | none, _ =>
        let d := dieAt s die
        setDie s die { d with spadFail := g.launch :: d.spadFail }
      | some s, some (core, l) =>
        serveAll (endSeek (placeNew s n core l) die) core
      | some s, none => s

/-- PLACEMENT_AGE_HOLD (R353): a gang that has waited 100 µs holds back the placements of equal or lower priority. -/
def ageHold (s : State) (gang : Nat) : State :=
  let g := gangAt s gang
  if (tfind s.gangs gang).isSome && (g.phase = .waiting || g.phase = .saved) && !g.holding && g.since + usec 100 ≤ s.now then
    setGang s gang { g with holding := true }
  else s

/-- GANG_PLACE (R352), an event. -/
def execGangPlace (die : Nat) (s : State) : Out := .next (gangPlace s die)
/-- CORE_REPORT (R350), an event: a core whose free places changed reports them. -/
def execCoreReport (core : Nat) (s : State) : Out := .next (coreReport s core)
/-- PLACEMENT_AGE_HOLD (R353), an event. -/
def execPlacementAgeHold (gang : Nat) (s : State) : Out := .next (ageHold s gang)

end Sys2Proof.Machine
end

