-- ==== Sys2Proof/Machine/Retained.lean ====
section
/-!
DEFINITION. Retained roots (R377 to R384): `snap`, `snaprel` and `rollback` as their bundle issues them, and as the ASID's commit
unit performs them one at a time, step by step.
-/
namespace Sys2Proof.Machine

/-- A snapshot handle (R378). -/
def handleOf (status asid seq : Nat) : DWord := BitVec.ofNat 64 (status * 2 ^ 60 + asid * 2 ^ 48 + seq % 2 ^ 48)

/-- Every lane has stopped forming and issuing bundles of a gang (R151), and no item is parked whose record is still to be written
(R271). A bundle that waits for an operation on retained roots counts as stopped. -/
def gangStopped (s : State) (gang : Nat) : Bool :=
  (gangAt s gang).groups.all (fun (_, x) => x.items.all (fun (_, t) => match t.wait with
    | .parked _ _ w => w
    | _ => true)) &&
  (coreAt s (gangAt s gang).core).lanes.all (fun (_, l) =>
    l.resumes.all (fun r => r.1 ≠ gang) && l.bundle.all (fun b => b.gang ≠ gang || (match b.stall with
      | some (.retained _) => true
      | _ => false)))

/-- Gangs of an ASID that stand on a core and are not stopped by an operation yet, for it to stop (R380, R383). A gang of the
issuing bundle alone is not stopped, and a rollback stops none of its issuer's (R383). One that stops to be saved is among them
until its save begins. -/
def gangsToStop (s : State) (o : RootOp) : List Nat :=
  (s.gangs.filter (fun (n, g) => g.asid = o.asid && !o.stopped.contains n &&
    (g.phase = .resident || (g.phase = .stopping && g.saving.isNone)) && (n ≠ o.gang || (o.kind = 0 &&
    (s.spans.any (fun p => p.2.gang = some n) ||
      (let ms := ((laneAt s o.core o.lane).bundle.map Bundle.members).getD []
       g.groups.any (fun (i, x) => x.items.any (fun (p, _) => !ms.contains (i, p))))))))).map Prod.fst

/-- Gangs told to stop at their next switch points. -/
def stopGangs (s : State) (l : List Nat) : State :=
  l.foldl (fun s n => setGang s n { gangAt s n with phase := .stopping }) s
/-- Gangs that an operation stopped go on. -/
def resumeGangs (s : State) (l : List Nat) : State :=
  l.foldl (fun s n => if (tfind s.gangs n).isSome && (gangAt s n).phase = .stopping then
    setGang s n { gangAt s n with phase := .resident } else s) s

/-- First byte of a gang's save slot (R357). -/
def formatImage (g : Gang) : List Byte :=
  (upTo 0 32).flatMap (fun n => toBytes 32 (tget g.fmt n 0).toNat) ++ (upTo 0 16).flatMap (fun n => toBytes 256 (tget g.pat n 0).toNat)

/-- Word address of a gang's first item, or of its first span. -/
def firstPc (s : State) (gang : Nat) : DWord :=
  match (gangAt s gang).groups.flatMap (fun x => x.2.items.map (fun t => t.2.pc)) with
  | pc :: _ => pc
  | [] => (((s.spans.filter (fun p => p.2.gang = some gang)).map (fun p => p.2.pc)).headD 0)

/-- A stopped gang's format and pattern images written into its save slot: a fault contains the gang (R357, R380). -/
def saveFormats (s : State) (gang : Nat) : State :=
  let g := gangAt s gang
  match storeNow s g.core g.asid (saveBase s g + 0x102000) (formatImage g) with
  | .error c => contain s gang (firstPc s gang) c 1 0 0
  | .ok none => contain s gang (firstPc s gang) { code := 0x0B, addr := BitVec.ofNat 64 (saveBase s g + 0x102000), wr := true } 1 0 0
  | .ok (some s) => s

/-- The copy sets of an ingress writer laid into its pending set for an ASID (R380, R439). -/
def foldSets (w : Writer) (asid now : Nat) : Writer :=
  let mine := w.sets.filter (fun c => c.asid = asid)
  { w with
    tick := w.tick + 1
    pend := mine.foldl (fun l c => c.recs.foldl (fun l r => pendAdd l asid r.ck now w.tick (r.pos.map (fun (j, x) => (r.sub * 128 + j, x)))) l) w.pend
    sets := w.sets.map (fun c => if c.asid = asid then { c with recs := [] } else c) }

/-- Releases of device scope for every writer that holds stores of an ASID: clusters, atomic units and ingress writers (R380). -/
def drainAll (s : State) (asid : Nat) : State × List Release :=
  let s := (upTo 36 4).foldl (fun s w => if (writerAt s w).sets.any (fun c => c.asid = asid) then
    setWriter s w (foldSets (writerAt s w) asid s.now) else s) s
  let ws := (s.writers.map Prod.fst).filter (fun w => decide (w < 40))
  let rs := ws.map (fun w => { scope := 4, asid, wid := w, mark := (writerAt s w).tick, atomics := [], gang := 0 : Release })
  (rs.foldl pushAllRelease s, rs)

/-- The result of an operation given to its bundle, and a contained issuer reported (R379, R380). -/
def endRootOp (s : State) (id : Nat) (o : RootOp) (result : DWord) : State :=
  let s := resumeGangs { s with rootOps := tdel s.rootOps id } o.stopped
  let l := laneAt s o.core o.lane
  let give (b : Bundle) : Bundle :=
    if b.stall = some (.retained id) then
      { b with stall := none, prog := { b.prog with results := [(0, 0, [lowWord result, highWord result])] } }
    else b
  let s := setLane s o.core o.lane { l with bundle := l.bundle.map give }
  match o.report with
  | some r =>
    let snapped := o.kind = 0 && bits result.toNat 63 60 = 3
    addHalted s (gangAt s o.gang).fn (if snapped then r ||| BitVec.ofNat 256 (fields [(33, 1), (208, bits result.toNat 47 0)]) else r)
  | none => s

/-- The state with an operation changed. -/
def setRootOp (s : State) (id : Nat) (o : RootOp) : State := { s with rootOps := tput s.rootOps id o }

/-- Slots of an ASID that hold a retained root, lowest first (R377). -/
def validSlots (s : State) (asid : Nat) : List Nat := (upTo 0 8).filter (fun k => (retained s asid k).1)
/-- The lowest valid slot of an ASID with a sequence (R382, R383). -/
def slotOfSeq (s : State) (asid seq : Nat) : Option Nat := (validSlots s asid).find? (fun k => (retained s asid k).2.1 = seq)

/-- HELD segments that hold an extent of an ASID become SEALED again (R374). -/
def unholdSegments (s : State) (asid : Nat) : State :=
  { s with stks := tmap (fun _ k => { k with segs := tmap (fun _ m =>
      if m.st = .held && m.asids.contains asid then { m with st := .sealed } else m) k.segs }) s.stks }

/-- An operation stops the gangs that run (R380, R383): none when it has stopped every one. -/
def stopMore (s : State) (id : Nat) (o : RootOp) : Option State :=
  match gangsToStop s o with
  | [] => none
  | l => some (setRootOp (stopGangs s l) id { o with stage := 1, stopped := o.stopped ++ l })

/-- Every gang that an operation stopped stands at a switch point, or is gone. -/
def allStopped (s : State) (o : RootOp) : Bool := o.stopped.all (fun n => (tfind s.gangs n).isNone || gangStopped s n)

/-- A step of `snap` at the commit unit (R380): none while it waits. -/
def snapAct (s : State) (id : Nat) (o : RootOp) : Option State :=
  match o.stage with
  | 0 =>
    if 8 ≤ (validSlots s o.asid).length then some (endRootOp s id o (handleOf 1 o.asid 0))
    else some ((stopMore s id o).getD (setRootOp s id { o with stage := 1 }))
  | 1 =>
    match stopMore s id o with
    | some s => some s
    | none =>
    if !allStopped s o then none
    else
      let s := (o.stopped.filter (fun n => (tfind s.gangs n).isSome && (gangAt s n).phase = .stopping)).foldl saveFormats s
      let o := tget s.rootOps id o
      let (s, rs) := drainAll s o.asid
      some (setRootOp s id { o with stage := 2, pubs := rs })
  | _ =>
    match o.pubs.find? (fun r => canPush s r.wid r.asid r.mark) with
    | some r => some (pushAllRelease s r)
    | none =>
      if !o.pubs.all (released s) then none
      else
        let e := rootEntry s o.asid
        let slot := ((upTo 0 8).filter (fun k => !(validSlots s o.asid).contains k)).headD 0
        let s := setRetained s o.asid slot true e.seq e.root
        some (endRootOp s id o (handleOf (if o.report.isSome then 3 else 0) o.asid e.seq))

/-- `snaprel` at the commit unit (R382). -/
def forgetAct (s : State) (id : Nat) (o : RootOp) : Option State :=
  match slotOfSeq s o.asid o.seq with
  | none => some (endRootOp s id o 2)
  | some k =>
    let (_, seq, root) := retained s o.asid k
    some (endRootOp (unholdSegments (setRetained s o.asid k false seq root) o.asid) id o 0)

/-- The caches that a rollback clears: index caches of every die and L1 lines (R383). -/
def dropAsidCaches (s : State) (asid : Nat) : State :=
  { s with
    dies := tmap (fun _ d => { d with
      maps := d.maps.filter (fun e => e.asid ≠ asid), nodes := d.nodes.filter (fun e => e.asid ≠ asid)
      sides := d.sides.filter (fun e => e.asid ≠ asid) }) s.dies
    cores := tmap (fun _ k => { k with
      l1 := k.l1.filter (fun e => e.asid ≠ asid), atomics := k.atomics.filter (fun a => a.asid ≠ asid) }) s.cores }

/-- A step of `rollback` at the commit unit (R383): none while it waits. -/
def rollbackAct (s : State) (id : Nat) (o : RootOp) : Option State :=
  match slotOfSeq s o.asid o.seq with
  | none => some (endRootOp s id o 2)
  | some k =>
    match o.stage with
    | 0 => some ((stopMore s id o).getD (setRootOp s id { o with stage := 1 }))
    | 1 =>
      match stopMore s id o with
      | some s => some s
      | none =>
      if !allStopped s o || s.copies.any (fun c => c.2.asid = o.asid && !c.2.finished) then none
      else some (setRootOp (discardAsid s o.asid) id { o with stage := 2 })
    | _ =>
      if s.writers.any (fun w => w.2.pubs.any (fun p => p.asid = o.asid && p.stage = .requested)) then none
      else
        let cw := 40 + commitDie s o.asid
        (commitPoint s cw o.asid cw 2 0 (retained s o.asid k).2.2 0 []).map (fun (_, s) =>
          let s := unholdSegments (dropAsidCaches s o.asid) o.asid
          let s := { s with gangs := tmap (fun _ g => if g.asid = o.asid then { g with acquire := true } else g) s.gangs }
          endRootOp s id o 0)

/-- A step of the operation on retained roots that a request names (R379). -/
def rootAct (s : State) (id : Nat) : Option State :=
  match tfind s.rootOps id with
  | none => some s
  | some o => match o.kind with
    | 0 => snapAct s id o
    | 1 => forgetAct s id o
    | _ => rollbackAct s id o

/-- The operation's ASID, sequence and cause for an item (R379): `level` tells a user item's own ASID from another. -/
def rootCheck (s : State) (own sel : Nat) (l : Level) (asid high : Nat) : Option Trap :=
  if l = .user && asid ≠ own then some (privTrap sel)
  else if high ≠ 0 then some { code := 0x0C, addr := BitVec.ofNat 64 (high * 4096 + asid) }
  else if asid ≠ own && (astEntry s asid).fn ≠ (astEntry s own).fn then some { code := 0x0C, addr := BitVec.ofNat 64 asid }
  else none

/-- ASID, upper bits and sequence that an item's operand names (R378, R379). -/
def rootName (s : State) (gang g p : Nat) (o : DaOp) (kind : Nat) : Nat × Nat × Nat :=
  if kind = 0 then
    let a := (operand s gang g p o.ext o.a).toNat
    if o.a = 120 then ((gangAt s gang).asid, 0, 0) else (a % 4096, a / 4096, 0)
  else
    let h := pairOperand s gang g p o.ext o.a
    (bits h 59 48, 0, bits h 47 0)

/-- `snap`, `snaprel` and `rollback` as they issue (R379): once for the first real item, and every real item receives the
result. -/
def rootStep (kind : Nat) (o : DaOp) (s : State) : State :=
  let sel := 0x10 + kind
  let u := daUses o (if kind = 0 then 2 else 1) (if kind = 0 then 1 else 2)
  let words := if kind = 0 then 2 else 1
  let len := lenOf o.x
  let level (_ : State) (_ : Nat) (l : Level) : Option Trap := if kind = 2 && l = .user then some (privTrap sel) else none
  match issuing s with
  | none => s
  | some w =>
    let gang := w.b.gang
    if w.b.span.isNone && !w.b.prog.results.isEmpty then
      let ws := ((w.b.prog.results.head?).map (fun r => r.2.2)).getD []
      let helps (m : Nat × Nat) : Bool := (itemAt s gang m.1 m.2).helper
      let go := w.b.members.filter (fun m => !helps m)
      wordsEnd s w { go, traps := [], zero := w.b.members.filter helps } o.d o.ext words len o.c
        (go.map (fun (g, p) => (g, p, ws.take words))) []
    else
      sysStep u (if isV o.d then upTo o.d.toNat words else []) level (fun s w k =>
        let own := (gangAt s gang).asid
        let c := sift s gang (fun g p =>
          let (asid, high, _) := rootName s gang g p o kind
          rootCheck s own sel (itemAt s gang g p).level asid high) k.go
        let k := { k with go := c.go, traps := k.traps ++ c.traps }
        match c.go with
        | [] => wordsEnd s w k o.d o.ext words len o.c [] []
        | (g, p) :: _ =>
          let (asid, _, seq) := rootName s gang g p o kind
          let (id, s) := newName s
          let s := setRootOp s id { core := w.core, lane := w.lane, gang, asid, kind, seq }
          let s := sendCommit s { asid, wid := clusterOf w.core, kind := match kind with
            | 0 => .retain id
            | 1 => .forget id
            | _ => .reinstate id }
          let rest := w.b.members.filter (fun m => !k.traps.any (fun t => (t.1, t.2.1) = m))
          let s := deliverAll s w k.traps
          updBundle s w (fun b => { b with members := rest, stall := some (.retained id) })) s

/-- SNAP (R380). -/
def execSnap (o : DaOp) (s : State) : Out := .next (rootStep 0 o s)
/-- SNAPREL (R382). -/
def execSnaprel (o : DaOp) (s : State) : Out := .next (rootStep 1 o s)
/-- ROLLBACK (R383). -/
def execRollback (o : DaOp) (s : State) : Out := .next (rootStep 2 o s)

end Sys2Proof.Machine
end

