-- ==== Sys2Proof/Machine/Preempt.lean ====
section
/-!
DEFINITION. Pre-emption (R151, R178, R261, R271, R355 to R359): the search for victims, a gang's stop, its save and its restore.
-/
namespace Sys2Proof.Machine

/-- Functions with a gang resident or waiting on a die (R355). -/
def dieFns (s : State) (die : Nat) : List Nat :=
  nodup ((s.gangs.filter (fun g => g.2.die = die && g.2.phase ≠ .ended)).map (fun g => g.2.fn))

/-- The sum of the weights of those functions (R355). -/
def weightSum (s : State) (die : Nat) : Nat := ((dieFns s die).map (fun f => (fnAt s f).qosw)).foldl (· + ·) 0

/-- Residences that a function's gangs occupy or reserve on a die (R355). -/
def usage (s : State) (die fn : Nat) : Nat :=
  ((s.gangs.filter (fun g => g.2.die = die && g.2.fn = fn && g.2.phase ≠ .ended && g.2.phase ≠ .saved)).map
    (fun g => g.2.places.length)).foldl (· + ·) 0

/-- A resident gang that a waiting gang may take the place of (R355). -/
def isCandidate (s : State) (die : Nat) (x v : Nat × Gang) : Bool :=
  let p := priorityOf x.2.queue
  let q := priorityOf v.2.queue
  let all := weightSum s die
  let above := decide (65536 * (fnAt s v.2.fn).qosw < usage s die v.2.fn * all)
  let below := decide ((usage s die x.2.fn + (gangGroups x.2).length) * all ≤ 65536 * (fnAt s x.2.fn).qosw)
  v.2.die = die && v.2.phase = .resident &&
    (decide (q < p) || (decide (q ≤ p) && above && below && decide (v.2.placedAt + usec 100 ≤ s.now)))

/-- Residence number of a gang's group 0. -/
def firstRes (g : Gang) : Nat := ((g.places.head?).map (fun p => p.2.2)).getD 0

/-- A candidate stands before another (R356): lower priority, larger usage against its entitlement, later placement, higher
residence of group 0. -/
def victimFirst (s : State) (die : Nat) (a b : Nat × Gang) : Bool :=
  let p (e : Nat × Gang) := priorityOf e.2.queue
  let u (e : Nat × Gang) := usage s die e.2.fn
  let w (e : Nat × Gang) := (fnAt s e.2.fn).qosw
  if p a ≠ p b then decide (p a < p b)
  else if u a * w b ≠ u b * w a then decide (u b * w a < u a * w b)
  else if a.2.placedAt ≠ b.2.placedAt then decide (b.2.placedAt < a.2.placedAt)
  else decide (firstRes b.2 < firstRes a.2)

/-- The candidates in order (R356). -/
def orderVictims (s : State) (die : Nat) : List (Nat × Gang) → List (Nat × Gang)
  | [] => []
  | x :: r =>
    let rec put (l : List (Nat × Gang)) : List (Nat × Gang) :=
      match l with
      | [] => [x]
      | y :: t => if victimFirst s die y x then y :: put t else x :: y :: t
    put (orderVictims s die r)

/-- The shortest run of candidates of a core whose places let it take the gang, none where it can already (R356). -/
def victimsOn (s : State) (gang core : Nat) (l : List Nat) : Option (List Nat) :=
  ((upTo 0 (l.length + 1)).find? (fun n => (fitsView s gang (returnView s (placeView s core) (l.take n))).isSome)).map (fun n => l.take n)

/-- The core with the fewest victims, and the victims (R356). -/
def chooseVictims (s : State) (die : Nat) (x : Nat × Gang) : Option (Nat × List Nat) :=
  let found := (dieCores s die).filterMap (fun c =>
    let cs := orderVictims s die (s.gangs.filter (fun v => v.2.core = c && isCandidate s die x v))
    (victimsOn s x.1 c (cs.map Prod.fst)).map (fun l => (c, l)))
  leastBy (fun (p : Nat × List Nat) => p.2.length * 2 ^ 20 + p.1) found

/-- A gang has waited more than 20 µs and its die seeks for nobody (R355, R356). A victim keeps its save slot (R357), so a gang
for which no slot is free cannot be placed in a victim's stead. -/
def seekDue (s : State) (gang : Nat) : Bool :=
  let g := gangAt s gang
  (tfind s.gangs gang).isSome && (g.phase = .waiting || g.phase = .saved) && decide (g.since + usec 20 < s.now) &&
    hasSlot s g && (dieAt (endSeek s g.die) g.die).seek.isNone && !(dieAt s g.die).spadFail.contains g.launch && (nextPlaced s g.die).all (fun e => e.1 ≠ gang)

/-- QOS_VICTIM_SEEK (R355, R356). -/
def victimSeek (s : State) (gang : Nat) : State :=
  let g := gangAt s gang
  if !seekDue s gang then s
  else match chooseVictims s g.die (gang, g) with
    | none => s
    | some (_, []) => s
    | some (core, l) =>
      let s := endSeek s g.die
      let d := dieAt s g.die
      setDie s g.die { d with seek := some (gang, core, l) }

/-- A gang is a victim of its die's search. -/
def isVictim (s : State) (gang : Nat) : Bool :=
  (dieAt s (gangAt s gang).die).seek.any (fun x => x.2.2.contains gang)

/-- PREEMPT_REQUEST (R151): the lanes form no further bundle of the gang. -/
def preempt (s : State) (gang : Nat) : State :=
  let g := gangAt s gang
  if isVictim s gang && g.phase = .resident then setGang s gang { g with phase := .stopping } else s

/-- Free bytes, for parts of a save slot whose layout the spec does not state (R358). -/
def unsetBytes (s : State) (at' words : Nat) : List Byte :=
  (upTo 0 words).flatMap (fun i => wordBytes (Config.freeWord (s.free + at' + i)))

/-- Bytes of a slice of an item: the words of its BODY registers, and free words (R358). -/
def sliceBytes (s : State) (x : Group) (p first n at' : Nat) : List Byte :=
  (upTo first n).flatMap (fun r => wordBytes (match vRep x r with
    | .body b => nth b p 0
    | _ => Config.freeWord (s.free + at' + r)))

/-- Bits of a list of numbers as bytes, bit `n` for number `n`. -/
def bitBytes (nbytes : Nat) (l : List Nat) : List Byte :=
  (upTo 0 nbytes).map (fun i => BitVec.ofNat 8 (fields (((upTo 0 8).filter (fun j => l.contains (8 * i + j))).map (fun j => (j, 1)))))

/-- Groups that hold a live item. -/
def heldGroups (g : Gang) : List (Nat × Group) := g.groups.filter (fun x => !x.2.items.isEmpty)

/-- Sections of one group: status word, item state, slices, scalars and representation tables (R358). -/
def groupSections (s : State) (i : Nat) (x : Group) : List (Nat × List Byte) :=
  let f := 8192 * i
  [(0x800 + 4 * i, wordBytes x.status)] ++
  x.items.flatMap (fun (p, t) =>
    [(0x41000 + 16 * (32 * i + p), unsetBytes s f 4), (0x45000 + 128 * (32 * i + p), sliceBytes s x p 0 32 f)] ++
      (if t.ext then [(0x65000 + 320 * (32 * i + p), sliceBytes s x p 32 80 f)] else [])) ++
  [(0xB5000 + 4096 * i, (upTo 0 (64 * (x.blocks + 1))).flatMap (fun n => wordBytes (tget x.s n 0))),
    (0xD5000 + 3584 * i, unsetBytes s f 896)]

/-- Sections of a held array: status and exponent, hold latch, accumulators (R358). -/
def arraySections (s : State) (n : Nat) (a : MArray) : List (Nat × List Byte) :=
  [(0x103400 + 64 * n, unsetBytes s (300000 + 16 * n) 16),
    (0x110000 + 65536 * n, (upTo 0 16384).flatMap (fun j => wordBytes (tget a.acc j 0)))] ++
  (match a.latch with
    | some l => [(0x104000 + 12288 * n, (l.flatMap wordBytes).take 12288)]
    | none => [])

/-- The sections of a gang's save slot: offset and bytes (R358). -/
def saveSections (s : State) (gang : Nat) : List (Nat × List Byte) :=
  let g := gangAt s gang
  [(0, unsetBytes s 310000 512), (0x880, unsetBytes s 311000 480)] ++
  (heldGroups g).flatMap (fun (i, x) => groupSections s i x) ++
  (numbered 0 (spansOf s gang)).map (fun (k, _) => (0xF1000 + 1024 * k, unsetBytes s (312000 + 256 * k) 256)) ++
  [(0x101000, unsetBytes s 330000 1024), (0x102000, formatImage g)] ++
  (if g.arrays.isEmpty then [] else [(0x103500, List.replicate 2816 0)]) ++
  g.arrays.flatMap (fun n => arraySections s n (if g.phase = .saved then tget g.savedArr n {} else arrayAt s g.core n)) ++
  (if g.gmemSize = 0 then [] else
    [(0x150000, mread g.gmem 0 g.gmemSize), (0x1D0000, bitBytes (g.gmemSize / 32) g.full),
      (0x1D4000, bitBytes (ceilDiv g.gmemSize 2048) g.dom)])

/-- Sections written through the gang's cluster: a cause, or none while a page is host-owned or the tail buffer full (R357,
R359). -/
def writeSections (s : State) (core asid base : Nat) : List (Nat × List Byte) → Except Trap (Option State)
  | [] => .ok (some s)
  | (off, l) :: r =>
    match storeNow s core asid (base + off) l with
    | .ok (some s) => writeSections s core asid base r
    | x => x

/-- Pages of a save slot that the host owns, asked for (R327, R387). -/
def askHost (s : State) (die wid asid va n : Nat) (who : Misser) : State :=
  (pagesOf va n).foldl (fun s a =>
    match walkPage s asid a with
    | .leaf l =>
      let d := dieAt s die
      if !leafHost l || d.walkers.any (fun w => w.2.asid = asid && w.2.vpn = vpnOf a) ||
          d.missq.any (fun m => m.1 = asid && m.2.1 = vpnOf a) then s
      else addMiss s die wid asid (vpnOf a) who
    | .cause _ _ => s) s

/-- Bytes of the sections of a save (R359). -/
def sectionBytes (l : List (Nat × List Byte)) : Nat := (l.map (fun x => x.2.length)).foldl (· + ·) 0

/-- A stopped gang whose engine operations and copies have completed can be saved (R261, R359). -/
def saveDue (s : State) (gang : Nat) : Bool :=
  let g := gangAt s gang
  isVictim s gang && g.phase = .stopping && gangStopped s gang && !openOps s gang &&
    !s.copies.any (fun c => c.2.gang = gang && !c.2.finished) &&
    !(s.rootOps.any (fun o => o.2.stopped.contains gang))

/-- Places freed by a completed save and kept for the gang of the search; the slot, the scratchpad and the state stay (R354, R356,
R359). -/
def freeSaved (s : State) (gang : Nat) : State :=
  let g := gangAt s gang
  let arrays := g.arrays.map (fun n => (n, { arrayAt s g.core n with queue := [], badCol := [] }))
  let n := ((spansOf s gang).filter (fun i => !(spanAt s i).noRec)).length
  let s0 := s
  let s := releasePlaces s gang
  let k := coreAt s g.core
  let s := keepGains s0 (setCore s g.core { k with spansFree := k.spansFree + n, dirty := true }) g.core
  let s := (spansOf s gang).foldl (fun s i => setSpan s i { spanAt s i with noRec := false }) s
  let fix (t : Item) : Item := match t.wait with
    | .block => { t with ring := [], wait := .ready, pass := 0, unchained := false }
    | _ => { t with ring := [], pass := 0, unchained := false }
  let groups := g.groups.map (fun (i, x) => (i, { x with
    items := x.items.map (fun (p, t) => (p, fix t)), board := [], back := 0 }))
  let lanes := nodup (g.places.map (fun p => p.2.1))
  let s := lanes.foldl (fun s l =>
    let ln := laneAt s g.core l
    setLane s g.core l { ln with
      resumes := ln.resumes.filter (fun r => r.1 ≠ gang)
      bundle := ln.bundle.bind (fun b => if b.gang = gang && b.span.isNone then none else some b) }) s
  setGang s gang { g with
    phase := .saved, restored := true, since := s.now, saving := none, groups, places := [], savedArr := arrays, holding := false }

/-- GANG_SAVE (R359): the slot is written and a release of device scope begins; when the transfer is over and the release met, the
places are freed. A fault contains the gang (R357). -/
def gangSave (s : State) (gang : Nat) : State :=
  let g := gangAt s gang
  if !saveDue s gang then s
  else match g.saving with
    | some r =>
      if released s r then (if s.now < g.due then s else endSeek (freeSaved s gang) g.die)
      else (stallPush s (.release r)).getD s
    | none =>
      let l := saveSections s gang
      let base := saveBase s g
      match writeSections s g.core g.asid base l with
      | .error c => endSeek (contain s gang (firstPc s gang) c 1 0 0) g.die
      | .ok none => askHost s g.die (clusterOf g.core) g.asid base (2 ^ 21) (.gang gang)
      | .ok (some s) =>
        let r := makeRelease s g.core gang g.asid 4
        let g := gangAt s gang
        pushAllRelease (setGang { s with free := s.free + 340000 } gang
          { g with saving := some r, due := s.now + ceilDiv (sectionBytes l) 128 }) r

/-- Words of a slice read back: BODY registers take them, others keep their forms. -/
def takeSlice (x : Group) (p first : Nat) (ws : List Word) : Group :=
  (numbered 0 ws).foldl (fun x (k, w) => match vRep x (first + k) with
    | .body b => { x with v := tput x.v (first + k) (.body (setNth b p 0 w)) }
    | _ => x) x

/-- A byte list as words. -/
def wordList : Nat → List Byte → List Word
  | 0, _ => []
  | n + 1, l => headWord l :: wordList n (l.drop 4)

/-- Numbers whose bits are set in a byte list. -/
def bitNumbers (l : List Byte) : List Nat :=
  (numbered 0 l).flatMap (fun (i, b) => ((upTo 0 8).filter (fun j => b.getLsbD j)).map (fun j => 8 * i + j))

/-- Bytes of a slot as the restore reads them: a cause, or none while the host owns a page (R357, R359). -/
def readSlot (s : State) (core asid va n : Nat) : Except Trap (Option (List Byte)) :=
  if n = 0 then .ok (some []) else loadNow s core asid { asid, level := .supervisor } va n

/-- Sections read in order. -/
def readSections (s : State) (core asid base : Nat) : List (Nat × Nat) → Except Trap (Option (Tbl (List Byte)))
  | [] => .ok (some [])
  | (off, n) :: r =>
    match readSlot s core asid (base + off) n with
    | .error c => .error c
    | .ok none => .ok none
    | .ok (some l) =>
      match readSections s core asid base r with
      | .ok (some t) => .ok (some (tput t off l))
      | x => x

/-- A group with what its sections hold (R358). -/
def takeGroup (t : Tbl (List Byte)) (i : Nat) (x : Group) (due : Nat) : Group :=
  let x := x.items.foldl (fun x (p, it) =>
    let x := takeSlice x p 0 (wordList 32 (tget t (0x45000 + 128 * (32 * i + p)) []))
    if it.ext then takeSlice x p 32 (wordList 80 (tget t (0x65000 + 320 * (32 * i + p)) [])) else x) x
  let ss := wordList (64 * (x.blocks + 1)) (tget t (0xB5000 + 4096 * i) [])
  { x with
    status := headWord (tget t (0x800 + 4 * i) []), s := numbered 0 ss
    items := x.items.map (fun (p, it) => (p, { it with readyAt := due })) }

/-- A saved gang with what its slot holds (R358, R359). -/
def takeSections (g : Gang) (t : Tbl (List Byte)) (due : Nat) : Gang :=
  let img := tget t 0x102000 []
  { g with
    groups := g.groups.map (fun (i, x) => (i, if x.items.isEmpty then x else takeGroup t i x due))
    fmt := (upTo 0 32).map (fun n => (n, BitVec.ofNat 256 (ofBytes ((img.drop (32 * n)).take 32))))
    pat := (upTo 0 16).map (fun n => (n, BitVec.ofNat 2048 (ofBytes ((img.drop (1024 + 256 * n)).take 256))))
    gmem := mwrite [] 0 (tget t 0x150000 [])
    full := bitNumbers (tget t 0x1D0000 [])
    dom := bitNumbers (tget t 0x1D4000 [])
    savedArr := tmap (fun n a => { a with
      acc := numbered 0 (wordList 16384 (tget t (0x110000 + 65536 * n) []))
      latch := a.latch.map (fun l => wordList (min l.length 3072) (tget t (0x104000 + 12288 * n) []) ++ l.drop 3072) }) g.savedArr }

/-- Arrays rebound on the new core with the state that was saved (R261). -/
def rebindArrays (s : State) (gang core : Nat) : State :=
  let g := gangAt s gang
  let s := g.savedArr.foldl (fun s (n, a) =>
    let old := arrayAt s core n
    setArray s core n { a with owner := some gang, queue := old.queue, badCol := old.badCol }) s
  setGang s gang { g with savedArr := [] }

/-- GANG_RESTORE (R359): the gang is placed, its slot read, an acquire of device scope made, and each item stands ready when the
lanes are set up. -/
def gangRestore (s : State) (gang : Nat) : State :=
  let g := gangAt s gang
  match nextPlaced s g.die with
  | none => s
  | some (n, _) =>
    if n ≠ gang || g.phase ≠ .saved then s
    else match coreFor s g.die gang with
      | none => s
      | some (core, spots) =>
        let l := saveSections s gang
        let base := saveBase s g
        let s1 := reserve s gang core spots
        match readSections s1 core g.asid base (l.map (fun x => (x.1, x.2.length))) with
        | .ok none => askHost s g.die (clusterOf core) g.asid base (2 ^ 21) (.gang gang)
        | .error c =>
          let s1 := rebindArrays s1 gang core
          contain (setGang s1 gang { gangAt s1 gang with phase := .resident, placedAt := s.now }) gang (firstPc s gang) c 1 0 0
        | .ok (some t) =>
          let due := s.now + ceilDiv (sectionBytes l) 128 + 2 * (heldGroups g).length
          let (s2, marks) := makeAcquire s1 core 4
          let s2 := rebindArrays (setGang s2 gang (takeSections (gangAt s2 gang) t due)) gang core
          let s2 := setGang s2 gang { gangAt s2 gang with phase := .resident, placedAt := s.now, holding := false, marks }
          let order := sortBy (fun i => (spanAt s i).readyAt * 2 ^ 100 + originKey (spanAt s i).box) (spansOf s gang)
          let s2 := (numbered 0 order).foldl (fun s (k, i) => setSpan s i { spanAt s i with readyAt := due + k }) s2
          let s2 := (heldGroups (gangAt s2 gang)).foldl (fun s (i, x) =>
            let ln := laneAt s core x.lane
            setLane s core x.lane { ln with setup := ln.setup ++ [(gang, i, due)] }) s2
          serveAll (endSeek s2 g.die) core

/-- QOS_VICTIM_SEEK (R355), an event. -/
def execQosVictimSeek (gang : Nat) (s : State) : Out := .next (victimSeek s gang)
/-- PREEMPT_REQUEST (R151), an event. -/
def execPreemptRequest (gang : Nat) (s : State) : Out := .next (preempt s gang)
/-- GANG_SAVE (R359), an event. -/
def execGangSave (gang : Nat) (s : State) : Out := .next (gangSave s gang)
/-- GANG_RESTORE (R359), an event. -/
def execGangRestore (gang : Nat) (s : State) : Out := .next (gangRestore s gang)

end Sys2Proof.Machine
end

