-- ==== Sys2Proof/Machine/Sprue.lean ====
section
/-!
DEFINITION. The sprue's shared operations (R392 to R400, R407): event slots, the waits of queue heads, the checks of a packet,
and taking one into its queue.
-/
namespace Sys2Proof.Machine

/-- The function that owns an ASID (R324). -/
def ownerFn (s : State) (asid : Nat) : Nat := (astEntry s asid).fn

/-- An event slot (R407). -/
def evAt (s : State) (fn slot : Nat) : Word := tget (fnAt s fn).ev slot 0

/-- Launches that have not started. -/
def unstarted (p : LaunchPhase) : Bool := p = .queued || p = .barrier

/-- The launches of a queue, oldest first (R398, R399). -/
def queueOf (s : State) (fn q : Nat) : List (Nat × Launch) :=
  sortBy (fun e => e.1) (s.launches.filter (fun e => e.2.fn = fn && e.2.queue = q && e.2.phase ≠ .finished))

/-- The oldest unstarted launch of a queue (R399). -/
def queueHead (s : State) (fn q : Nat) : Option (Nat × Launch) := (queueOf s fn q).find? (fun e => unstarted e.2.phase)

/-- A wait of a packet on the counter it names (R400). -/
def waitMet (s : State) (fn : Nat) (en : Bool) (slot val : Nat) : Bool :=
  !en || decide (((evAt s fn slot).toNat % 256 + 256 - val) % 256 < 128)

/-- Wait 0 of a packet is satisfied now. -/
def wait0 (s : State) (x : Launch) : Bool := waitMet s x.fn (bit x.pkt.toNat 207) (pkt x.pkt 231 224) (pkt x.pkt 239 232)
/-- Wait 1 of a packet is satisfied now. -/
def wait1 (s : State) (x : Launch) : Bool := waitMet s x.fn (bit x.pkt.toNat 208) (pkt x.pkt 247 240) (pkt x.pkt 255 248)

/-- The waits of a function's queue heads evaluated: one that was satisfied stays so (R400). -/
def evalHeads (s : State) (fn : Nat) : State :=
  (upTo 0 8).foldl (fun s q => match queueHead s fn q with
    | some (i, x) => setLaunch s i { x with sat0 := x.sat0 || wait0 s x, sat1 := x.sat1 || wait1 s x }
    | none => s) s

/-- One change of an event slot (R407). -/
def setEv (s : State) (fn slot : Nat) (v : Word) : State :=
  let x := fnAt s fn
  evalHeads (setFn s fn { x with ev := tput x.ev slot v }) fn

/-- A signal: a change that raises the EVENT vector when the slot asks for it (R402, R408, R415). -/
def signalEv (s : State) (fn slot inc : Nat) : State :=
  let s := setEv s fn slot (evAt s fn slot + BitVec.ofNat 32 inc)
  if (fnAt s fn).evirq.getLsbD slot then raiseMsix s fn 1 else s

/-- SPSTAT with bits set; a gained bit raises the SPRUE vector (R406, R415). -/
def setSpstat (s : State) (fn : Nat) (m : DWord) : State :=
  let x := fnAt s fn
  let s := setFn s fn { x with spstat := x.spstat ||| m }
  if x.spstat ||| m = x.spstat then s else raiseMsix s fn 0

/-- A function reset is in progress (R406, R416). -/
def resetting (s : State) (fn : Nat) : Bool := (fnAt s fn).spstat.getLsbD 14

/-- Gang boxes and extents of a packet that a launch cannot have (R397 REASON 5). -/
def boxRefused (p : BitVec 512) : Bool :=
  let (gx, gy, gz) := pktGang p
  gx = 0 || gy = 0 || gz = 0 ||
    (if !pktZero p && pktOneD p then gx % 32 ≠ 0 || gy ≠ 1 || gz ≠ 1 else gx % 8 ≠ 0 || gy % 4 ≠ 0) ||
    decide (1024 < gx * gy * gz)

/-- A replicated packet that the launch-domain entry refuses (R443). -/
def domainRefused (s : State) (fn : Nat) (p : BitVec 512) : Bool :=
  let e := ldtEntry s (pktRgrp p)
  !bit e 0 || 32 < bits e 111 106 || !((upTo 0 (bits e 105 100 + 1)).any (fun j => memberEp e j = ownEp s)) || bits e 111 106 ≠ fn

/-- The checks of a packet in order (R397): the REASON of the first that fails, 0 for none. `user` packets name user level only;
`asids` are those it may name beside R324's condition, `home` the function that the issuer's launch belongs to. -/
def packetReason (s : State) (fn : Nat) (p : BitVec 512) (user : Bool) (own home : Option Nat) : Nat :=
  let asid := pktAsid p
  let e := astEntry s asid
  if !bit p.toNat 191 || (!pktRep p && !bit p.toNat 208 && pkt p 255 240 ≠ 0) then 1
  else if !pktCheck p then 2
  else if !e.en || e.fn ≠ fn || (own.any (fun a => user && a ≠ asid)) then 3
  else if pktLevel p = .supervisor && (fn ≠ 0 || user) then 4
  else if boxRefused p then 5
  else if 128 < pkt p 186 179 then 6
  else if pktZero p && (pkt p 95 0 ≠ 0) then 7
  else if pktRep p && (bit p.toNat 208 || domainRefused s fn p) then 8
  else if pkt p 219 217 ≠ 0 && home.any (· ≠ fn) then 9
  else 0

/-- The queue holds 64 launches (R397). -/
def queueFull (s : State) (fn q : Nat) : Bool := 64 ≤ (queueOf s fn q).length

/-- LAUNCH to every other member of a replicated launch's domain, the queue number in AUX (R444). -/
def sendLaunch (s : State) (id : Nat) (x : Launch) : State :=
  let e := ldtEntry s (pktRgrp x.pkt)
  ((upTo 0 x.chips).filter (fun j => j ≠ x.chip)).foldl (fun s j =>
    (sendPacket s 0x0D (memberEp e j) (bits e 127 112) (pktAsid x.pkt) 0 (BitVec.ofNat 64 x.queue)
      (toBytes 64 x.pkt.toNat) (.launch id)).2) s

/-- A packet that passed its checks enters its queue (R396, R444): its LSEQ is answered. `taker` is the chip that took a
replicated launch, none for this one. -/
def takePacket (s : State) (fn q : Nat) (p : BitVec 512) (taker : Option Nat) : Nat × State :=
  let x := fnAt s fn
  let acc := tget x.acc q 0
  let s := setFn s fn { x with acc := tput x.acc q (acc + 1) }
  let e := ldtEntry s (pktRgrp p)
  let chips := if pktRep p then bits e 105 100 + 1 else 1
  let chip := if pktRep p then ((upTo 0 chips).find? (fun j => memberEp e j = ownEp s)).getD 0 else 0
  let (id, s) := newName s
  let l : Launch := { fn, queue := q, lseq := acc, pkt := p, chips, chip, taker, arrival := s.now }
  let s := setLaunch s id l
  let s := if pktRep p && taker.isNone then sendLaunch s id l else s
  (acc.toNat, evalHeads s fn)

/-- A packet that the host writes into a slot (R396, R397). -/
def slotPacket (s : State) (fn q : Nat) (p : BitVec 512) : State :=
  if resetting s fn then s
  else
    let r := packetReason s fn p false none none
    if r ≠ 0 then
      let s := setSpstat s fn (1#64 <<< (24 + q))
      let s := raiseMsix s fn 0
      let x := fnAt s fn
      setFn s fn { x with spstat := (x.spstat &&& ~~~(0xF00#64)) ||| BitVec.ofNat 64 (r * 256) }
    else if queueFull s fn q then raiseMsix (setSpstat s fn (1#64 <<< (16 + q))) fn 0
    else (takePacket s fn q p none).2

end Sys2Proof.Machine
end

