-- ==== Sys2Proof/Machine/Signals.lean ====
section
/-!
DEFINITION. The `sys` selectors of the package (R407 to R411): `evsig`, `evwait`, `launch` and `trig`, and the capture logic's
trigger.
-/
namespace Sys2Proof.Machine

/-- `evsig` (R408): one release of system scope, then the adds in ascending gpos. -/
def evsigStep (o : DaOp) (s : State) : State :=
  sysStep (daUses o 1 1) (dstRegs o.d) anyLevel (fun s w k =>
    match (if k.go.isEmpty then none else beginRelease s w 5) with
    | some s => s
    | none =>
      let gang := w.b.gang
      let fn := ownerFn s (gangAt s gang).asid
      let args := (sortBy Prod.snd k.go).map (fun (g, p) =>
        let a := (operand s gang g p o.ext o.a).toNat
        (g, p, a % 256, a / 256))
      let (s, rs) := args.foldl (fun (s, rs) (g, p, slot, inc) =>
        let old := evAt s fn slot
        ((if inc = 0 then s else setEv s fn slot (old + BitVec.ofNat 32 inc)), rs ++ [(g, p, [old])]))
        (s, ([] : List (Nat × Nat × List Word)))
      let irq := args.any (fun (_, _, slot, inc) => inc ≠ 0 && (fnAt s fn).evirq.getLsbD slot)
      wordsEnd (if irq then raiseMsix s fn 1 else s) w k o.d o.ext 1 (lenOf o.x) o.c rs []) s

/-- Slot and value that an item's `evwait` names (R409). -/
def evArgs (s : State) (gang g p : Nat) (o : DaOp) : Nat × Word :=
  let a := pairOperand s gang g p o.ext o.a
  (a % 256, BitVec.ofNat 32 (a / 2 ^ 32))

/-- A counter has reached a value (R409). -/
def evMet (v mark : Word) : Bool := decide ((v - mark).toNat < 2 ^ 31)

/-- `evwait` (R409): the bundle stalls until every real item is satisfied or 2,048 clk have passed. -/
def evwaitStep (o : DaOp) (s : State) : State :=
  let done := (issuing s).any (fun w => w.b.span.isNone && w.b.prog.done)
  if done then
    match issuing s with
    | some w => conclude s w (allGo w) 120 0 (lenOf o.x) { chained := o.c } false
    | none => s
  else
    sysStep (daUses o 1 2) (dstRegs o.d) anyLevel (fun s w k =>
      let gang := w.b.gang
      let fn := ownerFn s (gangAt s gang).asid
      let marks := k.go.map (fun (g, p) => evArgs s gang g p o)
      let met (m : Nat × Word) : Bool := evMet (evAt s fn m.1) m.2
      let since := w.b.prog.began.getD s.now
      if !marks.all met && !w.b.prog.waited then
        updBundle s w (fun b => { b with stall := some (.evwait since fn marks), prog := { b.prog with began := some since } })
      else
        let rs := k.go.map (fun (g, p) => (g, p, [evAt s fn (evArgs s gang g p o).1]))
        let s := deliverWords s gang o.d o.ext rs
        let (s, post) := if marks.any met then afterAcquire s w 5 else (s, none)
        waitEnd s w k { hits := rs.map (fun (g, p, ws) => (g, p, { addr := 0, ws })) } o.d 1 (lenOf o.x) o.c post) s

/-- EVWAIT_TIMEOUT (R409): 2,048 clk since issue. -/
def evwaitTimeout (s : State) (core lane : Nat) : State :=
  let l := laneAt s core lane
  match l.bundle with
  | some b =>
    match b.stall with
    | some (.evwait since _ _) =>
      if s.now < since + 2048 then s
      else setLane s core lane { l with bundle := some { b with stall := none, prog := { b.prog with waited := true } } }
    | _ => s
  | none => s

/-- D of a `launch` (R410). -/
def launchStatus (lseq reason status : Nat) : Word := BitVec.ofNat 32 (lseq % 65536 * 65536 + reason * 16 + status)

/-- One item's packet entered (R410). -/
def launchItem (s : State) (gang g p q : Nat) (img : List Byte) : State × Word :=
  let gg := gangAt s gang
  let fn := ownerFn s gg.asid
  let pk := BitVec.ofNat 512 (ofBytes img)
  if resetting s fn then (s, launchStatus 0 0 3)
  else
    let user := (itemAt s gang g p).level = .user
    let r := packetReason s fn pk user (some gg.asid) (some gg.fn)
    if r ≠ 0 then (s, launchStatus 0 r 2)
    else if queueFull s fn q then (s, launchStatus 0 0 1)
    else
      let (n, s) := takePacket s fn q pk none
      (s, launchStatus n 0 0)

/-- `launch` (R410): one release of system scope, the packets read, then entered in ascending gpos. -/
def launchStep (o : DaOp) (s : State) : State :=
  sysStep (daUses o 1 2) (dstRegs o.d) anyLevel (fun s w k =>
    match (if k.go.isEmpty then none else beginRelease s w 5) with
    | some s => s
    | none =>
      let gang := w.b.gang
      let addr (g p : Nat) : Nat := pairOperand s gang g p o.ext o.a
      readPlans s w 64 k (fun g p =>
        let a := addr g p
        if bits a 5 3 ≠ 0 then .error (.trap { code := 0x09, addr := BitVec.ofNat 64 a })
        else gotHit (readLog s (whoOf s w g p) false false (a / 64 * 64) 64) (fun l gen =>
          { addr := a / 64 * 64, ws := wordsIn 16 l, gen })) (fun s ps =>
        let (s, rs) := (sortBy (fun h => h.2.1) ps.hits).foldl (fun (s, rs) (g, p, h) =>
          let (s, v) := launchItem s gang g p (addr g p % 8) h.bytes
          (s, rs ++ [(g, p, [v])])) (s, ([] : List (Nat × Nat × List Word)))
        wordsEnd s w { k with go := ps.hits.map (fun h => (h.1, h.2.1)) } o.d o.ext 1 (lenOf o.x) o.c rs ps.traps)) s

/-- A trigger reaches the capture logic (R411): the first that meets ARMED names the instant, 2 µs on. -/
def fireCapture (s : State) (src : Nat) (tag : BitVec 16) : State :=
  if s.capture.fired then s
  else { s with capture := { s.capture with fired := true, src, tag, instant := moduleTime s + 2000, latched := false } }

/-- `trig` (R411). -/
def trigStep (o : AOp) (s : State) : State :=
  sysStep (aUses o 1) []
    (fun s asid l => if l = .supervisor || (fnAt s (ownerFn s asid)).utrig then none else some (privTrap 0x0B)) (fun s w k =>
      let s := k.go.foldl (fun s (g, p) =>
        fireCapture s 0 (BitVec.ofNat 16 (operand s w.b.gang g p o.ext o.a).toNat)) s
      plainEnd s w k (lenOf o.x) o.c k.go []) s

/-- EVSIG (R408). -/
def execEvsig (o : DaOp) (s : State) : Out := .next (evsigStep o s)
/-- EVWAIT (R409). -/
def execEvwait (o : DaOp) (s : State) : Out := .next (evwaitStep o s)
/-- LAUNCH (R410). -/
def execLaunch (o : DaOp) (s : State) : Out := .next (launchStep o s)
/-- TRIG (R411). -/
def execTrig (o : AOp) (s : State) : Out := .next (trigStep o s)
/-- EVWAIT_TIMEOUT (R409), an event. -/
def execEvwaitTimeout (core lane : Nat) (s : State) : Out := .next (evwaitTimeout s core lane)

end Sys2Proof.Machine
end

