-- ==== Sys2Proof/Machine/Launches.lean ====
section
/-!
DEFINITION. The life of a launch (R347, R398 to R404, R444 to R446): which starts next, its share of chips and dies, the start
barrier, the entry line, completion with its release and signal, and the drop of a replicated launch.
-/
namespace Sys2Proof.Machine

/-- Gang boxes of a grid that hold a point of a box (R347). -/
def gridCount (g : Nat × Nat × Nat) (b : Box) : Nat :=
  (cells g.1 b.ox b.ex).length * (cells g.2.1 b.oy b.ey).length * (cells g.2.2 b.oz b.ez).length

/-- First row and number of rows of slab `i` of `n`: sizes differ by one at most, lower numbers take the larger (R347). -/
def slabRows (rows n i : Nat) : Nat × Nat := (i * (rows / n) + min i (rows % n), rows / n + (if i < rows % n then 1 else 0))

/-- The part of an axis that a slab covers: origin and extent. -/
def slabAxis (cell o e n i : Nat) : Option (Nat × Nat) :=
  let rows := (cells cell o e).length
  let (r, k) := slabRows rows n i
  let lo := max o ((o / cell + r) * cell)
  let hi := min (o + e) ((o / cell + r + k) * cell)
  if k = 0 then none else some (lo, hi - lo)

/-- Slab `i` of `n` of a box: cut along z if its grid has more than one gang box there, otherwise y, otherwise x (R347). -/
def slabOf (g : Nat × Nat × Nat) (b : Box) (n i : Nat) : Option Box :=
  if 1 < (cells g.2.2 b.oz b.ez).length then (slabAxis g.2.2 b.oz b.ez n i).map (fun (o, e) => { b with oz := o, ez := e })
  else if 1 < (cells g.2.1 b.oy b.ey).length then (slabAxis g.2.1 b.oy b.ey n i).map (fun (o, e) => { b with oy := o, ey := e })
  else (slabAxis g.1 b.ox b.ex n i).map (fun (o, e) => { b with ox := o, ex := e })

/-- This chip's part of a launch box (R445); none when it is empty or the launch has no items (R403). -/
def shareOf (x : Launch) : Option Box :=
  if pktZero x.pkt then none
  else if pktRep x.pkt then slabOf (pktGang x.pkt) (pktBox x.pkt) x.chips x.chip
  else some (pktBox x.pkt)

/-- The dies of a launch with the box of each die span (R347). -/
def diesOf (s : State) (x : Launch) : List (Nat × Box) :=
  match shareOf x with
  | none => []
  | some b =>
    let g := pktGang x.pkt
    let ws := workingDies s
    let n := min ws.length (ceilDiv (gridCount g b) 64)
    (numbered 0 (ws.take n)).filterMap (fun (i, d) => (slabOf g b n i).map (fun c => (d, c)))

/-- The dies that fail a launch's scratchpad allocation until one of theirs is released (R352). -/
def spadBlocked (s : State) (id : Nat) (x : Launch) : Bool := (diesOf s x).any (fun d => (dieAt s d.1).spadFail.contains id)

/-- A queue's head may start: its waits are met and its function is not resetting (R399). -/
def startable (s : State) (e : Nat × Launch) : Bool :=
  e.2.phase = .queued && e.2.sat0 && e.2.sat1 && !resetting s e.2.fn && !(pktRep e.2.pkt && spadBlocked s e.1 e.2)

/-- The heads of all queues. -/
def queueHeads (s : State) : List (Nat × Launch) :=
  let qs := nodup ((s.launches.filter (fun e => unstarted e.2.phase)).map (fun e => (e.2.fn, e.2.queue)))
  qs.filterMap (fun (f, q) => queueHead s f q)

/-- A startable launch goes before another (R399): higher priority, the function whose turn it is by weight, lower queue. -/
def startsFirst (s : State) (a b : Nat × Launch) : Bool :=
  let p (e : Nat × Launch) := priorityOf e.2.queue
  let turn (e o : Nat × Launch) := (fnAt s e.2.fn).starts * (fnAt s o.2.fn).qosw
  if p a ≠ p b then decide (p b < p a)
  else if a.2.fn = b.2.fn then decide (a.2.queue < b.2.queue)
  else if turn a b ≠ turn b a then decide (turn a b < turn b a)
  else decide (a.2.fn < b.2.fn)

/-- The launch that starts next (R399). -/
def nextStart (s : State) : Option (Nat × Launch) :=
  ((queueHeads s).filter (startable s)).foldl (fun acc e => match acc with
    | none => some e
    | some b => if startsFirst s e b then some e else acc) none

/-- AUX of STARTBAR and LDONE: RGRP, SGEN and the refusal bit (R445, R446). -/
def barAux (p : BitVec 512) (refused : Bool) : DWord :=
  BitVec.ofNat 64 (pktRgrp p * 2 ^ 8 + pktSgen p * 2 ^ 16 + ofBool refused)

/-- A start-barrier record (R445): the generation last received from a member, 256 added for a refusal. -/
def noteBarrier (s : State) (rgrp member gen : Nat) : State :=
  let f := s.fabric
  { s with fabric := { f with
    barriers := (rgrp, member, gen) :: f.barriers.filter (fun b => !(b.1 = rgrp && b.2.1 = member)) } }

/-- The last generation of a member, if one was received. -/
def barrierGen (s : State) (rgrp member : Nat) : Option Nat :=
  (s.fabric.barriers.find? (fun b => b.1 = rgrp && b.2.1 = member)).map (fun b => b.2.2)

/-- All members have sent the launch's generation (R445). -/
def barrierMet (s : State) (x : Launch) : Bool :=
  (upTo 0 x.chips).all (fun j => barrierGen s (pktRgrp x.pkt) j = some (pktSgen x.pkt))

/-- STARTBAR to every other member of a launch's domain (R444, R445). -/
def sendBars (s : State) (p : BitVec 512) (refused : Bool) : State :=
  let e := ldtEntry s (pktRgrp p)
  ((upTo 0 (bits e 105 100 + 1)).filter (fun j => memberEp e j ≠ ownEp s)).foldl (fun s j =>
    (sendPacket s 0x0E (memberEp e j) (bits e 127 112) (pktAsid p) 0 (barAux p refused) [] .other).2) s

/-- Cohort scratchpads of a replicated launch on every die of its share (R445). -/
def allocShare (s : State) (id : Nat) (x : Launch) : State × Bool :=
  (diesOf s x).foldl (fun (s, ok) (d, _) =>
    if !ok then (s, ok) else match allocSpad s d id with
      | some s => (s, true)
      | none =>
        let k := dieAt s d
        (setDie s d { k with spadFail := id :: k.spadFail }, false)) (s, true)

/-- Scratchpads of a launch without a gang returned. -/
def freeSpads (s : State) (id : Nat) : State := (upTo 0 4).foldl (fun s d =>
  if (dieAt s d).spads.any (fun p => p.launch = id) then releaseSpad s d id else s) s

/-- A launch leaves its queue (R398, R402): DONE counts it when it completed. -/
def leaveQueue (s : State) (id : Nat) (completed : Bool) : State :=
  let x := launchAt s id
  let s := freeSpads { s with launches := tdel s.launches id } id
  let s := { s with dies := tmap (fun _ d => { d with
    flushes := d.flushes.filter (fun f => f.1 ≠ id), spadFail := d.spadFail.filter (· ≠ id) }) s.dies }
  let f := fnAt s x.fn
  let s := if completed then setFn s x.fn { f with done := tput f.done x.queue (tget f.done x.queue 0 + 1) } else s
  evalHeads s x.fn

/-- A halted-gang record of KIND 3 (R404, R413, R444). -/
def launchRecord (s : State) (x : Launch) (cause sub pc : Nat) : State :=
  addHalted s x.fn (BitVec.ofNat 256 (fields [(0, 3), (8, cause), (16, sub % 256), (60, pktAsid x.pkt), (72, x.lseq.toNat),
    (104, x.queue), (128, pc)]))

/-- A replicated launch dropped because a member refused it (R444). -/
def dropLaunch (s : State) (id member : Nat) : State :=
  let x := launchAt s id
  leaveQueue (if x.taker.isNone then launchRecord s x 0 member 0 else s) id false

/-- Every launch of a domain and generation that has not started is dropped (R444). -/
def dropRefused (s : State) (rgrp gen member : Nat) : State :=
  (s.launches.filter (fun e => pktRep e.2.pkt && pktRgrp e.2.pkt = rgrp && pktSgen e.2.pkt = gen && unstarted e.2.phase)).foldl
    (fun s e => dropLaunch s e.1 member) s

/-- Word address at which a launch begins: the entry line's first word (R394, R404). -/
def entryPc (s : State) (x : Launch) : Nat := (fnAt s x.fn).codebase.toNat + 128 * pkt x.pkt 174 160 + 8

/-- The entry line checked (R394, R404): a cause, or none while the host owns its page. -/
def entryCheck (s : State) (x : Launch) : Except Trap (Option Unit) :=
  let core := leadCore s (((diesOf s x).head?.map Prod.fst).getD 0)
  let base := entryPc s x - 8
  match loadNow s core (pktAsid x.pkt) { asid := pktAsid x.pkt, level := pktLevel x.pkt, exec := true } base 8 with
  | .error c => .error c
  | .ok none => .ok none
  | .ok (some h) => if hdrE (headerOf h) then .ok (some ()) else .error { code := 0x08, addr := BitVec.ofNat 64 (base + 8) }

/-- A die span created on the lead core of its die (R158, R159, R401). -/
def createSpan (s : State) (id : Nat) (x : Launch) (die : Nat) (b : Box) : State :=
  let core := leadCore s die
  let (s, marks) := makeAcquire s core 4
  let (n, s) := newName s
  let level := pktLevel x.pkt
  let s := setSpan s n {
    launch := id, die, core, lane := 0, box := b, pc := BitVec.ofNat 64 (entryPc s x), s := pktArgs x.pkt, readyAt := s.now, level }
  let k := coreAt s core
  let s := setCore s core { k with spansFree := k.spansFree - 1, dirty := true }
  let y := launchAt s id
  setLaunch s id { y with marks := y.marks ++ marks, clusters := nodup (y.clusters ++ [clusterOf core]) }

/-- A launch begins (R401, R403, R404). -/
def beginLaunch (s : State) (id : Nat) (x : Launch) : State :=
  let f := fnAt s x.fn
  let go (s : State) : State := setFn s x.fn { f with starts := f.starts + 1 }
  match diesOf s x with
  | [] => setLaunch (go s) id { x with phase := .running }
  | ds =>
    match entryCheck s x with
    | .ok none =>
      let d := (ds.head?.map Prod.fst).getD 0
      askHost s d (clusterOf (leadCore s d)) (pktAsid x.pkt) (entryPc s x) 1 (.launch id)
    | .error c =>
      let s := launchRecord (go s) x c.code c.sub (entryPc s x)
      setLaunch s id { x with phase := .releasing, pkt := x.pkt &&& ~~~(7#512 <<< 217) }
    | .ok (some ()) =>
      if ds.any (fun d => (coreAt s (leadCore s d.1)).spansFree = 0) then s
      else ds.foldl (fun s (d, b) => createSpan s id x d b) (setLaunch (go s) id { x with phase := .running })

/-- LAUNCH_START (R399, R445): the head of a queue starts, or passes its barrier. -/
def launchStart (s : State) (fn q : Nat) : State :=
  match queueHead s fn q with
  | none => s
  | some (id, x) =>
    if x.phase = .barrier then (if barrierMet s x && !resetting s fn then beginLaunch s id x else s)
    else if (nextStart s).all (fun e => e.1 ≠ id) then s
    else if pktRep x.pkt then
      match allocShare s id x with
      | (s, false) => s
      | (s, true) =>
        let s := setLaunch s id { x with phase := .barrier }
        sendBars (noteBarrier s (pktRgrp x.pkt) x.chip (pktSgen x.pkt)) x.pkt false
    else beginLaunch s id x

/-- Something of a launch still runs (R402). -/
def launchBusy (s : State) (id : Nat) : Bool :=
  s.spans.any (fun p => p.2.launch = id) || s.gangs.any (fun g => g.2.launch = id) ||
    s.dies.any (fun d => d.2.bins.any (fun b => b.launch = id)) || s.copies.any (fun c => c.2.launch = id && !c.2.finished)

/-- The releases of system scope that a completion makes: of every cluster that ran the launch, and of its gangs' fills
(R402, R403). -/
def completionReleases (s : State) (x : Launch) : List Release :=
  let asid := pktAsid x.pkt
  let cs := if pktZero x.pkt then (s.writers.map Prod.fst).filter (fun w => decide (w < 32)) else x.clusters
  let one (c gang : Nat) : Release := { scope := 5, asid, wid := c, mark := (writerAt s c).tick, gang
                                        atomics := nodup ((upTo (8 * c) 8).flatMap (fun k => atomicMarks s k asid)) }
  cs.map (fun c => one c 0) ++ x.gangs.map (fun g => one (cs.headD 0) g)

/-- The last steps of a completion (R402, R446): the signal by the taking chip after every LDONE, LDONE by another member. -/
def finishLaunch (s : State) (id : Nat) (x : Launch) : State :=
  match x.taker with
  | some j =>
    let e := ldtEntry s (pktRgrp x.pkt)
    let s := (sendPacket s 0x0F (memberEp e j) (bits e 127 112) (pktAsid x.pkt) 0 (barAux x.pkt false) [] .other).2
    leaveQueue s id true
  | none =>
    if x.chips ≠ 1 && x.dones.length + 1 < x.chips then s
    else
      let inc := pkt x.pkt 219 217
      let s := if inc = 0 then s else signalEv s x.fn (pkt x.pkt 216 209) inc
      leaveQueue s id true

/-- LAUNCH_COMPLETE (R402): with everything ended the release of system scope begins; met, the launch signals and goes. -/
def launchComplete (s : State) (id : Nat) : State :=
  match tfind s.launches id with
  | none => s
  | some x =>
    match x.phase with
    | .running =>
      if launchBusy s id || resetting s x.fn then s
      else
        let rs := completionReleases s x
        rs.foldl pushAllRelease (setLaunch s id { x with phase := .releasing, release := rs })
    | .releasing =>
      if x.release.all (released s) then finishLaunch s id x
      else (x.release.findSome? (fun r => stallPush s (.release r))).getD s
    | _ => s

/-- Member index of an endpoint in a launch domain (R443). -/
def memberOf (s : State) (rgrp ep : Nat) : Option Nat :=
  let e := ldtEntry s rgrp
  (upTo 0 (bits e 105 100 + 1)).find? (fun j => memberEp e j = ep)

/-- LAUNCH arrives (R444): checked for function FUNC and entered in the same queue, or refused to every member. -/
def launchArrives (s : State) (p : Packet) : State :=
  let pk := BitVec.ofNat 512 (ofBytes p.payload)
  let rgrp := pktRgrp pk
  let fn := bits (ldtEntry s rgrp) 111 106
  let q := p.aux.toNat % 8
  let refuse (s : State) : State :=
    let s := noteBarrier s rgrp ((memberOf s rgrp (ownEp s)).getD 0) (pktSgen pk + 256)
    sendBars s pk true
  let r := packetReason s fn pk false none none
  if resetting s fn then refuse s
  else if r ≠ 0 then
    let s := setSpstat s fn (1#64 <<< (24 + q))
    let x := fnAt s fn
    refuse (raiseMsix (setFn s fn { x with spstat := (x.spstat &&& ~~~(0xF00#64)) ||| BitVec.ofNat 64 (r * 256) }) fn 0)
  else if queueFull s fn q then refuse (raiseMsix (setSpstat s fn (1#64 <<< (16 + q))) fn 0)
  else
    let s := (takePacket s fn q pk (some ((memberOf s rgrp p.src.toNat).getD 0))).2
    match (upTo 0 (bits (ldtEntry s rgrp) 105 100 + 1)).find? (fun j => barrierGen s rgrp j = some (pktSgen pk + 256)) with
    | some j => dropRefused s rgrp (pktSgen pk) j
    | none => s

/-- STARTBAR arrives (R445): recorded, and a refusal drops the launch (R444). -/
def barArrives (s : State) (p : Packet) : State :=
  let rgrp := bits p.aux.toNat 15 8
  let gen := bits p.aux.toNat 23 16
  match memberOf s rgrp p.src.toNat with
  | none => s
  | some j =>
    if bit p.aux.toNat 0 then dropRefused (noteBarrier s rgrp j (gen + 256)) rgrp gen j else noteBarrier s rgrp j gen

/-- LDONE arrives at the taking chip (R446). -/
def doneArrives (s : State) (p : Packet) : State :=
  let rgrp := bits p.aux.toNat 15 8
  let gen := bits p.aux.toNat 23 16
  match memberOf s rgrp p.src.toNat with
  | none => s
  | some j =>
    match s.launches.find? (fun e => pktRep e.2.pkt && e.2.taker.isNone && pktRgrp e.2.pkt = rgrp && pktSgen e.2.pkt = gen &&
        e.2.phase ≠ .queued && !e.2.dones.contains j) with
    | none => s
    | some (id, x) => setLaunch s id { x with dones := x.dones ++ [j] }

/-- LAUNCH_START (R399), an event. -/
def execLaunchStart (fn queue : Nat) (s : State) : Out := .next (launchStart s fn queue)
/-- LAUNCH_COMPLETE (R402), an event. -/
def execLaunchComplete (launch : Nat) (s : State) : Out := .next (launchComplete s launch)

end Sys2Proof.Machine
end

