-- ==== Sys2Proof/Machine/Resume.lean ====
section
/-!
DEFINITION. Events of a core and its engines: fetches of register banks (R142, R143), set-ups (R174), returns of loads (R210),
exchanges (R184), the cohort watchdog (R341), copies (R231 to R234), and causes delivered late (R177, R205, R266).
-/
namespace Sys2Proof.Machine

/-- POUR_SETUP_DONE (R174): groups whose set-up has ended. -/
def setupDone (s : State) (core lane : Nat) : State :=
  let l := laneAt s core lane
  if l.setup.all (fun x => decide (s.now < x.2.2)) then s
  else setLane s core lane { l with setup := l.setup.filter (fun x => decide (s.now < x.2.2)) }

/-- Banks that arrive in their groups' slots, those of gangs still in the lane. -/
def bringAll (l : Lane) (now : Nat) (banks : List (Nat × Nat × Nat)) : Lane :=
  (banks.filter (fun b => l.res.any (fun r => r.2 = (b.1, b.2.1)))).foldl (fun l b => bringBank l b.1 b.2.1 b.2.2 now) l

/-- WORKING_SET_FETCH_DONE (R142). -/
def fetchDone (s : State) (core lane : Nat) : State :=
  let l := laneAt s core lane
  match l.fetch with
  | none => s
  | some (due, need) => if s.now < due then s else setLane s core lane { bringAll l s.now need with fetch := none }

/-- BANK_FETCH_DONE (R143): the stalled bundle goes on. -/
def bankDone (s : State) (core lane : Nat) : State :=
  let l := laneAt s core lane
  match l.bundle with
  | none => s
  | some b =>
    match b.stall with
    | some (.bank till miss) =>
      if s.now < till then s else setLane s core lane { bringAll l s.now miss with bundle := some { b with stall := none } }
    | _ => s

/-- Loads of a lane's groups that have not returned: (tag, gang, group). -/
def openLoads (s : State) (core lane : Nat) : List (Nat × Nat × Nat) :=
  (laneAt s core lane).res.flatMap (fun (_, gang, g) => (groupAt s gang g).board.map (fun o => (o.tag, gang, g)))

/-- LOAD_DATA_RETURN (R210): the oldest load of the lane returns, and a bundle that waits for loads looks again. -/
def loadReturn (s : State) (core lane : Nat) : State :=
  match leastBy (fun (x : Nat × Nat × Nat) => x.1) (openLoads s core lane) with
  | none => s
  | some (tag, gang, _) =>
    let g := gangAt s gang
    let s := setGang s gang { g with groups := tmap (fun _ x => { x with board := x.board.filter (fun o => o.tag ≠ tag) }) g.groups }
    let l := laneAt s core lane
    setLane s core lane { l with bundle := l.bundle.map (fun b => if b.stall = some .loads then { b with stall := none } else b) }

/-- When an item's wait on its cohort's scratchpad began, with the offset (R215, R219, R341). -/
def spadWait (t : Item) : Option (Nat × Nat) :=
  match t.wait with
  | .line off since => some (off, since)
  | .full true off _ since => some (off, since)
  | _ => none

/-- The lane whose bundle holds an item stalled at a table line, with the offset and the time (R146). -/
def tableWait (s : State) (gang g p : Nat) : Option (Nat × Nat × Nat) :=
  let lane := (groupAt s gang g).lane
  match (laneAt s (gangAt s gang).core lane).bundle with
  | none => none
  | some b =>
    if b.gang ≠ gang || b.span.isSome || !b.members.contains (g, p) then none
    else match b.stall with
      | some (.tableLine off since) => some (lane, off, since)
      | _ => none

/-- COHORT_WATCHDOG (R341): a wait on scratchpad that has lasted the interval ends with WATCHDOG. -/
def watchdog (s : State) (gang g p : Nat) : State :=
  let gg := gangAt s gang
  match pktWatchdog (launchAt s gg.launch).pkt with
  | none => s
  | some t =>
    let cause (off : Nat) : Trap := { code := 0x15, addr := BitVec.ofNat 64 off }
    match spadWait (itemAt s gang g p) with
    | some (off, since) => if s.now < since + usec t then s else endWait s gang g p (cause off)
    | none =>
      match tableWait s gang g p with
      | some (lane, off, since) =>
        if s.now < since + usec t then s
        else
          let l := laneAt s gg.core lane
          let s := setLane s gg.core lane { l with bundle := l.bundle.map (fun b => { b with members := b.members.filter (· ≠ (g, p)) }) }
          endWait s gang g p (cause off)
      | none => s

/-- Addresses that the delivery of an item's cause reaches (R266), or the copy of its call stack (R177). -/
def deliveryPages (s : State) (gang g p : Nat) (t : Item) : List (Nat × Nat) :=
  let gg := gangAt s gang
  match t.wait with
  | .parked c _ _ =>
    let d := (tget s.ctx gg.asid 0).toNat
    let v := bits d 56 8 * 256 + 8 * c.code
    let e := match loadNow s gg.core gg.asid { asid := gg.asid, level := .supervisor } v 8 with
      | .ok (some l) => [(ofBytes l / 128 * 128, 8)]
      | _ => []
    [(recordAddr s gg g p, 192)] ++ (if bit d 64 then (v, 8) :: e else [])
  | .stackCopy => [(regionTop gg g p - 8 * t.held.length, 8 * t.held.length)]
  | _ => []

/-- TRAP_DELIVERY (R177, R205, R266, R268): a parked cause is delivered again, a call stack copied again; pages that the host
owns are asked for. -/
def deliverAgain (s : State) (gang g p : Nat) : State :=
  let gg := gangAt s gang
  let t := itemAt s gang g p
  let s' := match t.wait with
    | .parked c 0 w => if w then enterHandler s gang g p c 0 else deliver s gang g p c
    | .parked _ n _ => deliverSet s gang n
    | .stackCopy => giveStack (updItem s gang g p (fun t => { t with wait := .ready })) gang g p t.held
    | _ => s
  if gg.phase = .contained || gg.phase = .saved then s
  else if (itemAt s' gang g p).wait = t.wait then
    (deliveryPages s gang g p t).foldl (fun s (va, n) => askHost s gg.die (clusterOf gg.core) gg.asid va n (.item gang g p)) s'
  else s'

/-- POUR_SETUP_DONE (R174), an event. -/
def execPourSetupDone (core lane : Nat) (s : State) : Out := .next (setupDone s core lane)
/-- WORKING_SET_FETCH_DONE (R142), an event. -/
def execWorkingSetFetchDone (core lane : Nat) (s : State) : Out := .next (fetchDone s core lane)
/-- BANK_FETCH_DONE (R143), an event. -/
def execBankFetchDone (core lane : Nat) (s : State) : Out := .next (bankDone s core lane)
/-- LOAD_DATA_RETURN (R210), an event. -/
def execLoadDataReturn (core lane : Nat) (s : State) : Out := .next (loadReturn s core lane)
/-- EXCHANGE_RELEASE (R184), an event. -/
def execExchangeRelease (gang g quad : Nat) (xg : Bool) (s : State) : Out := .next (exchangeEvent s gang g quad xg)
/-- COHORT_WATCHDOG (R341), an event. -/
def execCohortWatchdog (gang g gpos : Nat) (s : State) : Out := .next (watchdog s gang g gpos)
/-- COPY_LINE_WRITTEN (R232), an event. -/
def execCopyLineWritten (copy unit : Nat) (s : State) : Out := .next (unitEvent s copy unit)
/-- COPY_TRANSFER_FAULT (R234), an event. -/
def execCopyTransferFault (copy unit : Nat) (s : State) : Out := .next (faultEvent s copy unit)
/-- COPY_COMPLETE (R231), an event. -/
def execCopyComplete (copy : Nat) (s : State) : Out := .next (copyDone s copy)
/-- TRAP_DELIVERY (R266), an event. -/
def execTrapDelivery (gang g gpos : Nat) (s : State) : Out := .next (deliverAgain s gang g gpos)

end Sys2Proof.Machine
end

