-- ==== Sys2Proof/Machine/Walks.lean ====
section
/-!
DEFINITION. The die's walkers and replay queues (R329), shootdowns (R332 to R334) and the atomic unit (R338, R339).
-/
namespace Sys2Proof.Machine

/-- The virtual page number above a level's own index: what names a table pointer of that level (R323, R329). -/
def walkPrefix (vpn level : Nat) : Nat := vpn / 2 ^ (9 * (4 - level))

/-- A cached table pointer of a level for a page (R329). -/
def cachedPtr (d : Die) (asid vpn level : Nat) : Option Nat :=
  (d.walkCache.find? (fun e => e.1 = asid && e.2.1 = level && e.2.2.1 = walkPrefix vpn level)).map (fun e => bits e.2.2.2.toNat 32 12 * 4096)

/-- The walk of a page by a walker, from the deepest table pointer that the walk cache holds (R329). -/
def walkCached (s : State) (die asid va : Nat) : WalkAnswer :=
  let e := astEntry s asid
  let d := dieAt s die
  let vpn := vpnOf va
  if !e.en then .cause 0x0B va
  else match cachedPtr d asid vpn 3, cachedPtr d asid vpn 2, cachedPtr d asid vpn 1 with
    | some t, _, _ => walkFrom s e.lpnmax va t 0
    | _, some t, _ => walkFrom s e.lpnmax va t 1
    | _, _, some t => walkFrom s e.lpnmax va t 2
    | _, _, _ => walkFrom s e.lpnmax va e.top 4

/-- Entries that a walk reads from a table on: (level, entry); `n` pointer levels remain (R325). -/
def walkTrace (s : State) (va tbl : Nat) : Nat → List (Nat × Nat)
  | 0 => []
  | n + 1 =>
    let e := fixedWord s (tbl + 8 * tableIndex va (3 - n))
    (3 - n, e) :: walkTrace s va (bits e 32 12 * 4096) n

/-- Table pointers of levels 1 to 3 kept after a walk that gave a leaf (R328, R329). -/
def keepPtrs (s : State) (die asid va : Nat) : State :=
  let d := dieAt s die
  let new := ((walkTrace s va (astEntry s asid).top 4).filter (fun x => 1 ≤ x.1)).filter (fun x =>
    (cachedPtr d asid (vpnOf va) x.1).isNone)
  new.foldl (fun s (level, e) =>
    let d := dieAt s die
    setDie s die { d with walkCache := (asid, level, walkPrefix (vpnOf va) level, BitVec.ofNat 64 e) :: giveUp s.free 512 d.walkCache }) s

/-- WALK_START (R329): the oldest waiting miss that can joins the walk of its page, or takes a free walker. -/
def walkStart (s : State) (die : Nat) : State :=
  let d := dieAt s die
  let free := ((upTo 0 128).filter (fun i => (tfind d.walkers i).isNone)).head?
  let page (m : Nat × Nat × Misser) : Option (Nat × Walker) := d.walkers.find? (fun k => k.2.asid = m.1 && k.2.vpn = m.2.1)
  let can (m : Nat × Nat × Misser) : Bool := match page m with
    | some k => k.2.queue.length < 64
    | none => free.isSome
  match d.missq.find? can with
  | none => s
  | some m =>
    let missq := d.missq.erase m
    match page m, free with
    | some (i, k), _ => setDie s die { d with missq, walkers := tput d.walkers i { k with queue := k.queue ++ [m.2.2] } }
    | none, some i => setDie s die { d with missq, walkers := tput d.walkers i { asid := m.1, vpn := m.2.1, start := s.now, queue := [m.2.2] } }
    | none, none => s

/-- A queued miss answered: a stalled bundle keeps the answer and goes on when it waits for no other page (R329); the other
kinds try again by themselves. -/
def answerMiss (s : State) (asid vpn : Nat) (a : WalkAnswer) : Misser → State
  | .lane core lane =>
    let l := laneAt s core lane
    match l.bundle with
    | none => s
    | some b =>
      match b.stall with
      | some (.walk pages) =>
        if !pages.contains (asid, vpn) then s
        else
          let left := pages.filter (· ≠ (asid, vpn))
          let answers := (asid, vpn, a) :: b.prog.answers.filter (fun x => !(x.1 = asid && x.2.1 = vpn))
          setLane s core lane { l with bundle := some { b with
            stall := if left.isEmpty then none else some (.walk left), prog := { b.prog with answers } } }
      | _ => s
  | _ => s

/-- A miss of a walk that waits for migration and has not had check 4 made: its bundle has no answer for the page yet (R327). -/
def unchecked (s : State) (asid vpn : Nat) : Misser → Bool
  | .lane core lane => (laneAt s core lane).bundle.any (fun b => (match b.stall with
      | some (.walk pages) => pages.contains (asid, vpn)
      | _ => false) && !b.prog.answers.any (fun x => x.1 = asid && x.2.1 = vpn))
  | _ => false

/-- A device access to a page that the host owns begins a migration to the device, once (R385, R387). -/
def beginToDevice (s : State) (asid vpn lpn : Nat) : State :=
  if s.migs.any (fun j => j.asid = asid && j.vpn = vpn) then s
  else
    let (id, s) := newName s
    { s with migs := s.migs ++ [{ id, fn := none, asid, vpn, lpn, toDevice := true, since := s.now }] }

/-- WALK_COMPLETE (R328, R329, R334): the leaf is installed and the queue answered; at a host-owned page the walk keeps those of its
queue that check 4 lets pass and migration begins; a walk that a shootdown overtook is made again. -/
def walkComplete (s : State) (die i : Nat) : State :=
  let d := dieAt s die
  match tfind d.walkers i with
  | none => s
  | some k =>
    if k.stale && !k.parked then
      setDie s die { d with walkers := tdel d.walkers i, missq := k.queue.map (fun m => (k.asid, k.vpn, m)) ++ d.missq }
    else
      let a := walkCached s die k.asid (k.vpn * 65536)
      match a with
      | .leaf l =>
        if leafHost l then
          let now := k.queue.filter (unchecked s k.asid k.vpn)
          let stay := k.queue.filter (fun m => !unchecked s k.asid k.vpn m)
          let s := setDie s die { d with walkers := tput d.walkers i { k with parked := true, queue := stay } }
          beginToDevice (now.foldl (fun s m => answerMiss s k.asid k.vpn a m) s) k.asid k.vpn (leafLpn l)
        else
          let s := keepPtrs (installLeaf (setDie s die { d with walkers := tdel d.walkers i }) die k.asid k.vpn l) die k.asid (k.vpn * 65536)
          k.queue.foldl (fun s m => answerMiss s k.asid k.vpn a m) s
      | .cause _ _ =>
        k.queue.foldl (fun s m => answerMiss s k.asid k.vpn a m) (setDie s die { d with walkers := tdel d.walkers i })

/-- A page lies in a shootdown's range. -/
def inRange (first count : Nat) (all : Bool) (vpn : Nat) : Bool := all || (decide (first ≤ vpn) && decide (vpn < first + count))

/-- A shootdown accepted (R334): entries and table pointers removed, L1 lines with their reverse-map entries purged, walks in
progress marked, answers not used yet forgotten. -/
def shootRange (s : State) (asid first count : Nat) (all : Bool) : State :=
  let hit (a vpn : Nat) : Bool := a = asid && inRange first count all vpn
  let ptr (e : Nat × Nat × Nat × DWord) : Bool :=
    let span := 2 ^ (9 * (4 - e.2.1))
    e.1 = asid && (all || (decide (e.2.2.1 * span < first + count) && decide (first < (e.2.2.1 + 1) * span)))
  let dies := tmap (fun _ d => { d with
    tcache := d.tcache.filter (fun e => !hit e.asid e.vpn)
    walkCache := d.walkCache.filter (fun e => !ptr e)
    rmap := d.rmap.filter (fun e => !hit e.asid (vpnOf e.va))
    walkers := tmap (fun _ k => if k.asid = asid then { k with stale := true } else k) d.walkers }) s.dies
  let drop (b : Bundle) : Bundle := { b with prog := { b.prog with answers := b.prog.answers.filter (fun x => !hit x.1 x.2.1) } }
  { s with
    dies
    writers := tmap (fun _ w => { w with leaves := w.leaves.filter (fun e => !hit e.asid e.vpn) }) s.writers
    cores := tmap (fun _ k => { k with
      l1 := k.l1.filter (fun e => !hit e.asid (vpnOf e.va))
      lanes := tmap (fun _ l => { l with bundle := l.bundle.map drop }) k.lanes }) s.cores }

/-- Every walk, atomic and load that a shootdown accepted at a moment waits for has ended (R334): `mark` names what came later.
A copy translates each unit as it moves it, so none holds a translation. -/
def shotDone (s : State) (asid mark : Nat) : Bool :=
  s.dies.all (fun d => d.2.walkers.all (fun k => k.2.asid ≠ asid || !k.2.stale || k.2.parked) &&
    d.2.atomq.all (fun r => r.asid ≠ asid || mark ≤ r.id)) &&
  s.gangs.all (fun g => g.2.asid ≠ asid || g.2.groups.all (fun x => x.2.board.all (fun o => mark ≤ o.tag)))

/-- A shootdown command that names no page has no effect of its own (R333). -/
def shotEmpty (ctl : DWord) : Bool := bits ctl.toNat 47 16 = 0 && !bit ctl.toNat 13

/-- SHOOTDOWN_COMMAND (R332, R333): a write of SDCTL. -/
def shootCommand (s : State) (fn : Nat) (ctl : DWord) : State :=
  let x := fnAt s fn
  let ctl := ctl &&& 0x0000FFFFFFFF2FFF#64
  let c := ctl.toNat
  let asid := bits c 11 0
  if 16 ≤ x.sdq.length || (astEntry s asid).fn ≠ fn then setFn s fn { x with sdctl := ctl, sdovf := true }
  else
    let s := setFn s fn { x with sdctl := ctl, sdacc := x.sdacc + 1, sdq := x.sdq ++ [(x.sdaddr, ctl, [(s.nextId, 0)])] }
    if shotEmpty ctl then s
    else shootRange s asid (bits x.sdaddr.toNat 56 16) (bits c 47 16) (bit c 13)

/-- SHOOTDOWN_COMPLETE (R333): commands complete in order, one that names no page as soon as it is the oldest. -/
def shootComplete (s : State) (fn : Nat) : State :=
  let x := fnAt s fn
  match x.sdq with
  | [] => s
  | (_, ctl, marks) :: rest =>
    if shotEmpty ctl || shotDone s (bits ctl.toNat 11 0) ((marks.map Prod.fst).headD 0) then
      raiseMsix (setFn s fn { x with sdq := rest, sddone := x.sddone + 1 }) fn 3
    else s

/-- One item's part of an atomic at the home slice (R224, R338): none while the unit's tail buffer is full. The core counts it
until it is published, one that writes nothing too (R339), and its L1 gives up the line, which its later loads must see
anew (R225). -/
def atomicOne (s : State) (die : Nat) (r : AtomicReq) (g p a : Nat) (v n : DWord) : Option (State × (Nat × Nat × List Word)) :=
  let wid := 32 + die
  let key := a / 32
  let off := a % 32
  let words := if r.wide then 2 else 1
  let split (x : DWord) : List Word := if r.wide then [lowWord x, highWord x] else [lowWord x]
  let rd := readSector s wid die r.asid key
  if rd.bad then some (s, (g, p, []))
  else
    let old := valueOf (wordsIn words (rd.data.drop off))
    let (new, fl) := atomicOp r.aop r.wide old v n
    let res := (g, p, BitVec.ofNat 32 fl :: split old)
    match (match new with
      | none => some s
      | some x => tailWrite s wid r.asid key off r.ck ((split x).flatMap wordBytes)) with
    | none => none
    | some s =>
      let gang := ((laneAt s r.core r.lane).bundle.map Bundle.gang).getD 0
      let k := coreAt s r.core
      some (setCore s r.core { k with
        l1 := k.l1.filter (fun e => !lineHas e r.asid key)
        atomics := k.atomics ++ [{ asid := r.asid, die, mark := (writerAt s wid).tick, gang, g, gpos := p, key }] }, res)

/-- The items of a request in ascending gpos (R224). -/
def atomicAll (s : State) (die : Nat) (r : AtomicReq) :
    List (Nat × Nat × Nat × DWord × DWord) → Option (State × List (Nat × Nat × List Word))
  | [] => some (s, [])
  | (g, p, a, v, n) :: rest =>
    match atomicOne s die r g p a v n with
    | none => none
    | some (s, x) => (atomicAll s die r rest).map (fun (s, l) => (s, x :: l))

/-- ATOMIC_PERFORM (R338): the oldest request of the die is performed, and its results return to the bundle. -/
def atomicPerform (s : State) (die : Nat) : State :=
  let d := dieAt s die
  match d.atomq with
  | [] => s
  | r :: rest =>
    match atomicAll s die r (sortBy (fun o => o.2.1) r.ops) with
    | none => s
    | some (s, res) =>
      let d := dieAt s die
      let s := setDie s die { d with atomq := rest }
      let more := s.dies.any (fun d => d.2.atomq.any (fun q => q.id = r.id))
      let l := laneAt s r.core r.lane
      setLane s r.core r.lane { l with bundle := l.bundle.map (fun b =>
        if b.stall = some (.atomic r.id) then
          { b with stall := if more then b.stall else none, prog := { b.prog with results := b.prog.results ++ res } }
        else b) }

/-- A writer holds something of an ASID that it can publish. -/
def canPublish (s : State) (wid asid : Nat) : Bool := canPush s wid asid (writerAt s wid).tick

/-- The age of the oldest result that a writer has not published of an ASID. -/
def oldestBorn (w : Writer) (asid : Nat) : Option Nat :=
  leastBy id ((w.tail.filter (fun t => t.asid = asid)).map TailEntry.born ++ (w.pend.filter (fun p => p.asid = asid)).map PendRec.born)

/-- ATOMIC_UNIT_PUBLISH (R339): at most 1 µs after the oldest unpublished result was performed. -/
def atomicPublish (s : State) (die asid : Nat) : State :=
  let wid := 32 + die
  if canPublish s wid asid && (oldestBorn (writerAt s wid) asid).any (fun t => decide (t + usec 1 ≤ s.now)) then
    beginPublication s wid asid
  else s

/-- WALK_START (R329), an event. -/
def execWalkStart (die : Nat) (s : State) : Out := .next (walkStart s die)
/-- WALK_COMPLETE (R329), an event. -/
def execWalkComplete (die walker : Nat) (s : State) : Out := .next (walkComplete s die walker)
/-- SHOOTDOWN_COMMAND (R333), an event. -/
def execShootdownCommand (fn : Nat) (ctl : DWord) (s : State) : Out := .next (shootCommand s fn ctl)
/-- SHOOTDOWN_COMPLETE (R334), an event. -/
def execShootdownComplete (fn : Nat) (s : State) : Out := .next (shootComplete s fn)
/-- ATOMIC_PERFORM (R338), an event. -/
def execAtomicPerform (die : Nat) (s : State) : Out := .next (atomicPerform s die)
/-- ATOMIC_UNIT_PUBLISH (R339), an event. -/
def execAtomicUnitPublish (die asid : Nat) (s : State) : Out := .next (atomicPublish s die asid)

end Sys2Proof.Machine
end

