-- ==== Sys2Proof/Machine/Ships.lean ====
section
/-!
DEFINITION. Replica groups as a data chip serves them (R447 to R449, R452, R453): the group table's fields, shipment of sealed
segments, of extents in open segments, of fixed-region writes and of commit records.
-/
namespace Sys2Proof.Machine

/-- A replica-group entry (R447). -/
def rgtEntry (s : State) (g : Nat) : Nat := (tget s.fabric.rgt g 0).toNat
/-- Member field `j` (R447). -/
def rgtMember (e j : Nat) : Nat := bits e (63 + 32 * j) (32 + 32 * j)
/-- V of a member field. -/
def memberUsed (e j : Nat) : Bool := bit (rgtMember e j) 31
/-- EP of a member field. -/
def memberEnd (e j : Nat) : Nat := bits (rgtMember e j) 29 16
/-- TAG of a member field. -/
def memberTag (e j : Nat) : Nat := bits (rgtMember e j) 15 0
/-- PKEY of an entry. -/
def rgtKey (e : Nat) : Nat := bits e 511 496
/-- LCGEN of an entry. -/
def rgtLcgen (e : Nat) : Nat := bits e 415 384
/-- PGEN of an entry. -/
def rgtPgen (e : Nat) : Nat := bits e 383 352
/-- FMASK of an entry: members that failed. -/
def rgtFailed (e j : Nat) : Bool := bit e (22 + j)
/-- SELF of an entry. -/
def rgtSelf (e : Nat) : Nat := bits e 21 18
/-- STATE of an entry: 0 IDLE, 1 ACTIVE, 2 REBUILD, 3 LOST. -/
def rgtState (e : Nat) : Nat := bits e 17 15
/-- M of an entry: holders. -/
def rgtM (e : Nat) : Nat := bits e 12 11
/-- K of an entry: data chips. -/
def rgtK (e : Nat) : Nat := bits e 10 7
/-- MODE of an entry: 1 mirror, 2 parity. -/
def rgtMode (e : Nat) : Nat := bits e 6 5
/-- V of an entry. -/
def rgtValid (e : Nat) : Bool := bit e 0

/-- The members of a group: data chips 0 to K − 1, holders 8 to 8 + M − 1 (R447). -/
def rgtMembers (e : Nat) : List Nat := upTo 0 (rgtK e) ++ upTo 8 (rgtM e)
/-- The holders that survive (R450). -/
def rgtHolders (e : Nat) : List Nat := (upTo 8 (rgtM e)).filter (fun j => !rgtFailed e j)
/-- The group protects or is being rebuilt (R447, R452). -/
def rgtLive (e : Nat) : Bool := rgtValid e && (rgtState e = 1 || rgtState e = 2)

/-- The state with bits `hi` to `lo` of a replica-group entry written. -/
def setRgt (s : State) (g hi lo v : Nat) : State :=
  let e := rgtEntry s g
  let e' := e - bits e hi lo * 2 ^ lo + v % 2 ^ (hi + 1 - lo) * 2 ^ lo
  { s with fabric := { s.fabric with rgt := tput s.fabric.rgt g (BitVec.ofNat 512 e') } }

/-- The running state of a group. -/
def repOf (s : State) (g : Nat) : RepState := tget s.fabric.reps g {}
/-- The state with a group's running state changed. -/
def setRep (s : State) (g : Nat) (r : RepState) : State := { s with fabric := { s.fabric with reps := tput s.fabric.reps g r } }

/-- Groups in which this chip is a data chip: number and entry (R448, R449, R452). -/
def dataGroups (s : State) : List (Nat × Nat) :=
  ((upTo 0 16).map (fun g => (g, rgtEntry s g))).filter (fun x => rgtLive x.2 && decide (rgtSelf x.2 < 8))

/-- Members that shipments of a data chip go to, with their endpoints: the surviving holders, and a spare that takes a holder's
place (R448, R449, R450). -/
def shipTargets (s : State) (g e : Nat) : List (Nat × Nat) :=
  (rgtHolders e).map (fun m => (m, memberEnd e m)) ++ (match (repOf s g).spare with
    | some (m, ep) => if 8 ≤ m then [(m, ep)] else []
    | none => [])

/-- A packet of a replica group to a member (R431, R447). -/
def sendRep (s : State) (g m ep op asid addr aux : Nat) (payload : List Byte) : State :=
  (sendPacket s op ep (rgtKey (rgtEntry s g)) asid (BitVec.ofNat 64 addr) (BitVec.ofNat 64 aux) payload (.replica g m)).2

/-- A packet to every target of every group of this chip that a test picks. -/
def shipAll (s : State) (p : Nat → Bool) (op asid addr aux : Nat) (payload : List Byte) : State :=
  ((dataGroups s).filter (fun x => p x.2)).foldl (fun s (g, e) =>
    (shipTargets s g e).foldl (fun s (m, ep) => sendRep s g m ep op asid addr aux payload) s) s

/-- The poison marks of up to 64 sectors (R453). -/
def poisonMask (s : State) (sec n : Nat) : Nat := (upTo 0 n).foldl (fun m i => m + ofBool (sectorBad s (sec + i)) * 2 ^ i) 0

/-- A range of sectors cut into pieces of at most 64: position and count (R431 LEN). -/
def shipPieces (pos : Nat) : Nat → Nat → List (Nat × Nat)
  | 0, _ => []
  | k + 1, n => if n = 0 then [] else if n ≤ 64 then [(pos, n)] else (pos, 64) :: shipPieces (pos + 8 * 64) k (n - 64)

/-- Sectors shipped with their poison marks to the groups that a test picks (R448, R449, R453). -/
def shipSectors (s : State) (p : Nat → Bool) (op pos n : Nat) : State :=
  (shipPieces pos n n).foldl (fun s (q, k) =>
    shipAll s p op 0 q (poisonMask s (posSector q) k) (sectorsBytes s (posSector q) k)) s

/-- A sealed segment shipped to every holder (R448, R449). -/
def shipSegment (s : State) (stk six : Nat) : State :=
  let n := ((dataGroups s).map (fun x => (shipTargets s x.1 x.2).length)).foldl (· + ·) 0
  if n = 0 then s
  else
    let m := segAt s stk six
    shipSectors (setSeg s stk six { m with ships := m.ships + n * 2048, shipped := true }) (fun _ => true) 0x08
      (mkPos stk six 0 0) segSectors

/-- A write to the fixed region shipped (R448, R449). -/
def shipFixed (s : State) (off n : Nat) : State := shipAll s (fun _ => true) 0x0A 0 off 0 (mread s.fixed off n)

/-- Retained-root slots of an ASID that changed, shipped as fixed-region writes (R448). -/
def shipRetained (s0 s : State) (asid : Nat) : State :=
  (upTo 0 8).foldl (fun s k => if retained s0 asid k = retained s asid k then s
    else shipFixed s (s.boot.retOff + 16 * (8 * asid + k)) 16) s

/-- What a writer has appended between two states, as positions and sectors: of a segment sealed in between, its number only. -/
def newRanges (a b : Writer) : List (Nat × Nat) :=
  (upTo 0 8).flatMap (fun k => match tfind a.segs k, tfind b.segs k with
    | some x, some y =>
      if x.seg = y.seg then (if x.off < y.off then [(mkPos k y.seg x.off 0, y.off - x.off)] else [])
      else [(mkPos k x.seg x.off 0, 0), (mkPos k y.seg segData 0, y.off - segData)]
    | none, some y => [(mkPos k y.seg segData 0, y.off - segData)]
    | _, none => [])

/-- The data extents that a publication's records name. -/
def recRanges (p : Pub) : List (Nat × Nat) :=
  nodup (p.recs.flatMap (fun (_, ck, l) => l.map (fun (_, _, n) => (n - posLen n, if ck = 0 then 1 else posLen n + 1))))

/-- A commit of an ASID entered among those that holders have to acknowledge (R448, R449, R452). -/
def noteCommit (s0 s : State) (asid : Nat) : State :=
  let e := rootEntry s asid
  let waits := (dataGroups s).flatMap (fun x => (rgtHolders x.2).map (fun m => (x.1, m)))
  let s := shipRetained s0 s asid
  if (rootEntry s0 asid).seq = e.seq || waits.isEmpty then s
  else
    let cw := 40 + commitDie s asid
    let mine := newRanges (writerAt s0 cw) (writerAt s cw)
    let pub := s.writers.findSome? (fun w => (w.2.pubs.find? (fun p => p.asid = asid && p.stage = .committed e.seq)).map
      (fun p => (w.1, p)))
    let j : ShipJob := match pub with
      | some (w, p) => { wid := w, pub := p.id, tick := p.tick, asid, seq := e.seq, crec := e.crec, waits, urgent := p.rel
                         ranges := recRanges p ++ p.parts ++ mine }
      | none => { wid := cw, pub := 0, tick := 0, asid, seq := e.seq, crec := e.crec, waits, ranges := mine }
    { s with fabric := { s.fabric with ships := s.fabric.ships ++ [j] } }

/-- Every release of system scope in progress: of bundles, copies, launches and saves (R226, R402). -/
def systemReleases (s : State) : List Release :=
  ((s.cores.flatMap (fun c => c.2.lanes.filterMap (fun l => l.2.bundle.bind (fun b => match b.stall with
    | some (.release r) => some r
    | _ => none)))) ++ s.copies.filterMap (fun c => c.2.release) ++ s.launches.flatMap (fun x => x.2.release) ++
    s.gangs.filterMap (fun g => g.2.saving)).filter (fun r => decide (5 ≤ r.scope))

/-- A release of system scope, or a cleaned segment, waits for a commit's holders (R448, R452). -/
def jobWanted (rs : List Release) (j : ShipJob) : Bool :=
  j.urgent || rs.any (fun r => r.asid = j.asid && ((r.wid = j.wid && decide (j.tick < r.mark)) ||
    r.atomics.any (fun a => 32 + a.1 = j.wid && decide (j.tick < a.2))))

/-- Open segments that hold an extent of a range sealed: a release of system scope in a parity group (R449). -/
def sealRanges (s : State) (l : List (Nat × Nat)) : State :=
  l.foldl (fun s (pos, _) =>
    let m := segAt s (posStk pos) (posSix pos)
    if m.st = .open && (tfind (writerAt s m.wid).segs (posStk pos)).any (fun o => o.seg = posSix pos) then
      sealSegment s m.wid (posStk pos) else s) s

/-- A packet of a replica group with one of some OPs is not acknowledged. -/
def shipsOpen (s : State) (ops : List Nat) : Bool :=
  s.fabric.sent.any (fun p => ops.contains p.pkt.op.toNat && (match p.who with
    | .replica _ _ => true
    | _ => false))

/-- Everything that a commit record references has been acknowledged by the holders (R441, R448, R449). -/
def jobReady (s : State) (j : ShipJob) : Bool :=
  !shipsOpen s [0x09, 0x0A] && j.ranges.all (fun (pos, _) =>
    let m := segAt s (posStk pos) (posSix pos)
    m.ships = 0 && (m.st ≠ .open || (j.parts && (dataGroups s).all (fun x => rgtMode x.2 = 1))))

/-- A commit's extents in open segments shipped or sealed (R448, R449). -/
def shipParts (s : State) (j : ShipJob) : State :=
  let mirror (e : Nat) : Bool := rgtMode e = 1
  let s := if (dataGroups s).any (fun x => !mirror x.2) then sealRanges s j.ranges else s
  (j.ranges.filter (fun r => (segAt s (posStk r.1) (posSix r.1)).st = .open)).foldl (fun s (pos, n) =>
    shipSectors s mirror 0x09 pos n) s

/-- The commits shipped in order: extents of those wanted, and each record once what it references is acknowledged and the
records before it of its ASID are sent (R441, R448, R449, R452). -/
def pumpJobs (s : State) (rs : List Release) (held : List Nat) : List ShipJob → List ShipJob × State
  | [] => ([], s)
  | j :: rest =>
    let want := jobWanted rs j || rest.any (fun k => k.asid = j.asid && jobWanted rs k)
    let (j, s) := if want && !j.parts && !j.sent then ({ j with parts := true }, shipParts s j) else (j, s)
    let (j, s) := if !j.sent && !held.contains j.asid && jobReady s j then
        ({ j with sent := true }, shipAll s (fun _ => true) 0x0B j.asid j.crec 0 (sectorsBytes s (posSector j.crec) 2))
      else (j, s)
    let (l, s) := pumpJobs s rs (if j.sent then held else j.asid :: held) rest
    (j :: l, s)

/-- What waits to be shipped and can be (R448, R449). -/
def pumpShips (s : State) : State :=
  let (l, s) := pumpJobs s (systemReleases s) [] s.fabric.ships
  { s with fabric := { s.fabric with ships := l } }

/-- A root table as the fixed region holds it, kept at a generation (R449). -/
def rootTable (s : State) : Memory := s.fixed.filter (fun c => decide (s.boot.rootOff ≤ c.1) && decide (c.1 < s.boot.rootOff + 65536))

/-- A generation mark answered at every surviving holder once every earlier shipment is acknowledged (R449): a REPACK whose AUX
holds the generation and, in bit 32, the mark of an answer. -/
def answerMarks (s : State) : State :=
  (dataGroups s).foldl (fun s (g, e) =>
    let r := repOf s g
    match r.mark with
    | none => s
    | some (gen, tags) =>
      if tags.any (fun t => s.fabric.sent.any (fun p => p.pkt.tag.toNat = t)) then s
      else
        let s := setRep s g { r with mark := none, kept := (gen, rootTable s) :: r.kept.filter (fun k => decide (rgtLcgen e ≤ k.1)) }
        (rgtHolders e).foldl (fun s m => sendRep s g m (memberEnd e m) 0x0C 0 0 (gen + 2 ^ 32) []) s) s

end Sys2Proof.Machine
end

