-- ==== Sys2Proof/Machine/Publish.lean ====
section
/-!
DEFINITION. Events of the writers and commit units: appends by age (R291), ownership (R303 to R307), publications by age (R309, R311),
commits (R312, R314, R380 to R383), invalidation messages and their acknowledgement (R316).
-/
namespace Sys2Proof.Machine

/-- A compression block whose eight sectors are all present with full masks, or a full sector of 20 µs (R291). -/
def blockDue (w : Writer) (now : Nat) (es : List TailEntry) : Bool :=
  match es with
  | [] => false
  | t :: _ =>
    let full := es.all (fun e => e.mask = 0xFFFFFFFF#32)
    49152 ≤ w.tail.length ||
      (if t.ck ≠ 0 then full && es.length = 8 else es.any (fun e => e.mask = 0xFFFFFFFF#32 && e.born + usec 20 ≤ now))

/-- Entries of a due block that an append takes: with CK = 0 those that are full and old, or all when the tail is nearly full. -/
def blockTake (w : Writer) (now : Nat) (es : List TailEntry) : List TailEntry :=
  if 49152 ≤ w.tail.length || (es.head?.map TailEntry.ck).getD 0 ≠ 0 then es
  else es.filter (fun e => e.mask = 0xFFFFFFFF#32 && e.born + usec 20 ≤ now)

/-- Blocks of open entries that a writer may append now, oldest first (R291). -/
def dueBlocks (s : State) (wid : Nat) : List (Nat × List TailEntry) :=
  let w := writerAt s wid
  let mine := w.tail.filter (fun t => t.st = .open && mayPublish s wid t.asid (t.key / 128))
  (nodup (mine.map (fun t => (t.asid, t.key / 8)))).filterMap (fun (a, b) =>
    let es := mine.filter (fun t => t.asid = a && t.key / 8 = b)
    if blockDue w s.now es then some (a, blockTake w s.now es) else none)

/-- TAIL_AGE_APPEND (R291): the first block that is due and finds a record and a segment is appended. -/
def tailAge (s : State) (wid : Nat) : State :=
  match (dueBlocks s wid).find? (fun b => pendRoom (writerAt s wid) wid b.1 (((b.2.head?.map TailEntry.key).getD 0) / 128)) with
  | none => s
  | some (asid, es) => appendTail s wid asid es

/-- Sub-pages that WRITE packets not performed yet reach by an ingress writer (R438, R439). -/
def packetSubs (s : State) (wid : Nat) : List (Nat × Nat) :=
  (s.fabric.pending.filter (fun p => p.op = 0x01 && 36 + bits p.aux.toNat 17 16 = wid)).flatMap (fun p =>
    (sectorsOf p.addr.toNat p.payload.length).filterMap (fun a => match walkPage s p.asid.toNat a with
      | .leaf l => some (p.asid.toNat, keyOf l a / 128)
      | .cause _ _ => none))

/-- Sub-pages that a writer holds something for and does not own (R305, R307). -/
def wantedSubs (s : State) (wid : Nat) : List (Nat × Nat) :=
  let w := writerAt s wid
  if ownerless wid then []
  else nodup ((packetSubs s wid ++ w.tail.map (fun (t : TailEntry) => (t.asid, t.key / 128)) ++ w.pend.map (fun (p : PendRec) => (p.asid, p.sub))).filter (fun x =>
    ownerOf s x.1 x.2 ≠ some wid))

/-- OWNERSHIP_REQUEST (R305): queued at the home slice; the owner is to publish the ASID. -/
def ownRequest (s : State) (wid asid lpn sub : Nat) : State :=
  let k := lpn * 16 + sub
  if 16 ≤ sub || !(wantedSubs s wid).contains (asid, k) then s else requestSub s wid asid k

/-- A writer holds a tail entry, a pending record, a copy set or a publication in flight that covers a sub-page (R305, R439). -/
def covers (w : Writer) (asid sub : Nat) : Bool :=
  w.sets.any (fun c => c.asid = asid && c.recs.any (fun r => r.sub = sub)) ||
  w.tail.any (fun t => t.asid = asid && t.key / 128 = sub) || w.pend.any (fun p => p.asid = asid && p.sub = sub) ||
    w.pubs.any (fun p => p.asid = asid && p.recs.any (fun r => r.1 = sub))

/-- The request for which a publication had to complete has waited long enough (R305, R307). -/
def mayYield (s : State) (r : OwnReq) (o : Nat) : Bool :=
  !covers (writerAt s o) r.asid (r.lpn * 16 + r.sub) ||
    r.pub.any (fun id => (writerAt s o).pubs.all (fun p => p.id ≠ id || pubDone s o p 4))

/-- OWNERSHIP_HANDOVER (R304, R305, R306): the head of a sub-page's queue receives it, its waiting entries open, and what the old
owner still holds waits again. -/
def ownHandover (s : State) (asid lpn sub : Nat) : State :=
  let h := homeDie asid lpn
  let d := dieAt s h
  let k := lpn * 16 + sub
  match d.ownq.find? (fun r => r.asid = asid && r.lpn = lpn && r.sub = sub) with
  | none => s
  | some r =>
    let give (s : State) : State :=
      let d := dieAt s h
      let s := setDie s h { d with ownq := d.ownq.erase r }
      let e := ownEntry s asid lpn
      let s := if e.owned = 0 then setOwn s { e with owned := 0xFFFF, sown := List.replicate 16 r.wid } else giveSub s asid k r.wid
      let w := writerAt s r.wid
      let s := setWriter s r.wid { w with tail := w.tail.map (fun t =>
        if t.asid = asid && t.st = .wait && ownerOf s asid (t.key / 128) = some r.wid then { t with st := .open } else t) }
      reopenRequests s asid k r.wid
    match ownerOf s asid k with
    | none => give s
    | some o =>
      if o = r.wid then give s
      else if !mayYield s r o then s
      else
        let w := writerAt s o
        give (setWriter s o { w with tail := w.tail.map (fun t =>
          if t.asid = asid && t.key / 128 = k && t.st = .open then { t with st := .wait } else t) })

/-- The ASID with the most records in a pending set (R309, R312). -/
def mostPending (w : Writer) (wid : Nat) : Option Nat :=
  let n (a : Nat) : Nat := (w.pend.filter (fun p => p.asid = a)).length +
    (((heldPubs w wid).filter (fun p => p.asid = a)).map Pub.held).foldl (· + ·) 0
  leastBy (fun a => 1024 - n a) (pendAsids w wid)

/-- A writer begins a publication of an ASID by age, fullness or request (R305, R309, R311). -/
def publishDue (s : State) (wid asid : Nat) : Bool :=
  let w := writerAt s wid
  w.wanted.any (fun x => x.1 = asid) ||
    w.pend.any (fun p => p.asid = asid && p.born + usec 50 ≤ s.now) ||
    ((384 ≤ pendCount w wid || 48 ≤ (pendAsids w wid).length) && mostPending w wid = some asid &&
      w.pend.any (fun p => p.asid = asid))

/-- PENDING_AGE_PUBLISH (R305, R309, R311): a writer that holds nothing to publish has met its request. -/
def pendingAge (s : State) (wid asid : Nat) : State :=
  if !publishDue s wid asid then s
  else if canPublish s wid asid then beginPublication s wid asid
  else if hasCut s wid asid (writerAt s wid).tick then s
  else
    let w := writerAt s wid
    -- an empty cut completes with the publications before it (R312): the last of them is the one to wait for
    let s := match (w.pubs.filter (fun p => p.asid = asid)).getLast? with
      | some p => bindRequests s wid asid p.id
      | none => s
    setWriter s wid { writerAt s wid with wanted := w.wanted.filter (fun x => x.1 ≠ asid) }

/-- Appends of a die that its stacks have not acknowledged (R312, R365, R366). -/
def openAppends (s : State) (die : Nat) : Bool :=
  s.stks.any (fun k => k.2.done.any (fun d => d.die = die && d.data.isEmpty) || k.2.reqs.any (fun r => match r with
    | .append d _ _ _ => d = die
    | _ => false))

/-- Whether a commit request names an operation on retained roots. -/
def rootOf : CommitKind → Option Nat
  | .retain o => some o
  | .forget o => some o
  | .reinstate o => some o
  | _ => none

/-- The publication that a commit request names. -/
def pubOf : CommitKind → Option Nat
  | .publication p => some p
  | .relocation p => some p
  | _ => none

/-- A publication of a commit unit's queue committed (R312 phase 2): its writer's appends are acknowledged first. -/
def commitOne (s : State) (r : CommitReq) : Option State :=
  match pubOf r.kind with
  | none => none
  | some p => if openAppends s (writerDie r.wid) then none else commitPub s r.wid p

/-- A request leaves its commit unit's queue. -/
def dropCommit (s : State) (die : Nat) (r : CommitReq) : State :=
  let d := dieAt s die
  setDie s die { d with commits := d.commits.erase r }

/-- The commit unit's queue served for an ASID (R312, R314, R379): the oldest request of the ASID, in arrival order; while an operation on retained roots waits
for publications, these proceed. -/
def serveCommits (s : State) (die asid : Nat) : State :=
  let mine := (dieAt s die).commits.filter (fun r => r.asid = asid)
  match mine with
  | [] => s
  | r :: rest =>
    match rootOf r.kind with
    | none => ((commitOne s r).map (fun s => dropCommit s die r)).getD s
    | some o =>
      match rootAct s o with
      | some s => if (tfind s.rootOps o).isNone then dropCommit s die r else s
      | none =>
        match rest.find? (fun q => (pubOf q.kind).isSome) with
        | none => s
        | some q => ((commitOne s q).map (fun s => dropCommit s die q)).getD s

/-- COMMIT_REQUEST (R312, R314): the queue served; a commit goes to the replica groups of this chip (R448, R449, R452). -/
def commitRequest (s : State) (die asid : Nat) : State :=
  if (dieAt s die).commits.all (fun r => r.asid ≠ asid) then s else pumpShips (noteCommit s (serveCommits s die asid) asid)

/-- INVALIDATION_MESSAGE (R316): the die's next message of the ASID in SEQ order is applied. -/
def applyMessage (s : State) (die asid : Nat) : State :=
  let d := dieAt s die
  match leastBy InvMsg.seq (d.inbox.filter (fun m => m.asid = asid)) with
  | none => s
  | some m =>
    let gone (lpn sub : Nat) : Bool := m.keys.contains (lpn, sub)
    let path (n : NodeEntry) : Bool := n.asid = asid && m.keys.any (fun k => kidPrefix (k.1 * 16 + k.2) n.level = n.pre)
    setDie s die { d with
      inbox := d.inbox.erase m
      maps := d.maps.filter (fun e => !(e.asid = asid && gone e.lpn e.sub))
      nodes := d.nodes.filter (fun n => !path n)
      sides := d.sides.filter (fun x => !(x.asid = asid && m.keys.any (fun k => k.1 = x.lpn)))
      applied := tput d.applied asid (max (tget d.applied asid 0) m.seq) }

/-- Working dies that have applied a publication's commit and whose acknowledgement has not arrived (R316). -/
def newAcks (s : State) (p : Pub) : List Nat :=
  match p.stage with
  | .requested => []
  | .committed seq => (workingDies s).filter (fun d => !p.acked.contains d && decide (seq ≤ appliedOf s d p.asid))

/-- Atomics that a core counted and whose publications have completed (R339): the core's L1 gives up lines of their sectors
that it took meanwhile (R225). -/
def pruneAtomics (s : State) : State :=
  { s with cores := tmap (fun _ k =>
      let (open', done) := k.atomics.partition (fun a => unpublished s (32 + a.die) a.asid a.mark 4)
      { k with atomics := open', l1 := k.l1.filter (fun e => !done.any (fun a => lineHas e a.asid a.key)) }) s.cores }

/-- INVALIDATION_ACK (R316): acknowledgements reach the writer; a publication that is complete goes. What a release of system
scope waits for is shipped (R448, R449). -/
def takeAcks (s : State) (wid asid : Nat) : State :=
  let w := writerAt s wid
  if w.pubs.all (fun p => p.asid ≠ asid || (newAcks s p).isEmpty) then pumpShips s
  else
    let pubs := w.pubs.map (fun p => if p.asid = asid then { p with acked := p.acked ++ newAcks s p } else p)
    let s := setWriter s wid { w with pubs }
    let ended (p : Pub) : Bool := p.asid = asid && pubDone s wid p 4
    let s := setWriter s wid { w with pubs := pubs.filter (fun p => !ended p) }
    pumpShips (if 32 ≤ wid && wid < 36 then pruneAtomics s else s)

/-- TAIL_AGE_APPEND (R291), an event. -/
def execTailAgeAppend (wid : Nat) (s : State) : Out := .next (tailAge s wid)
/-- OWNERSHIP_REQUEST (R305), an event. -/
def execOwnershipRequest (wid asid lpn sub : Nat) (s : State) : Out := .next (ownRequest s wid asid lpn sub)
/-- OWNERSHIP_HANDOVER (R305), an event. -/
def execOwnershipHandover (asid lpn sub : Nat) (s : State) : Out := .next (ownHandover s asid lpn sub)
/-- PENDING_AGE_PUBLISH (R311), an event. -/
def execPendingAgePublish (wid asid : Nat) (s : State) : Out := .next (pendingAge s wid asid)
/-- COMMIT_REQUEST (R312), an event. -/
def execCommitRequest (die asid : Nat) (s : State) : Out := .next (commitRequest s die asid)
/-- INVALIDATION_MESSAGE (R316), an event. -/
def execInvalidationMessage (die asid : Nat) (s : State) : Out := .next (applyMessage s die asid)
/-- INVALIDATION_ACK (R316), an event. -/
def execInvalidationAck (wid asid : Nat) (s : State) : Out := .next (takeAcks s wid asid)

end Sys2Proof.Machine
end

