-- ==== Sys2Proof/Machine/Stack.lean ====
section
/-!
DEFINITION. Base dies (R365 to R372): requests served, scrubbing, fenced banks and lost segments, and the log-full interrupt.
-/
namespace Sys2Proof.Machine

/-- The first request that a test picks, with the others in their order. -/
def takeReq (p : StackReq → Bool) : List StackReq → Option (StackReq × List StackReq)
  | [] => none
  | r :: l => if p r then some (r, l) else (takeReq p l).map (fun (x, m) => (x, r :: m))

/-- A request has left its queue and a completion is ready (R365). -/
def completeReq (s : State) (stk : Nat) (reqs : List StackReq) (d : StackDone) : State :=
  let k := stackAt s stk
  setStack s stk { k with reqs, done := k.done ++ [d] }

/-- Segments that a bank holds (R369): those of a bulk layer, or for the fast layer (16) those with a dirty block in its
sets (R370). -/
def bankSegments (s : State) (layer bank : Nat) : List Nat :=
  if layer < 16 then upTo (layer * 1024 + bank * 16) 16
  else (upTo 0 16384).filter (fun six => Config.dirtyBlock s.free bank six)

/-- A segment is lost (R371): listed, never handed out, and an open one abandoned by its writer without a seal. -/
def loseSegment (s : State) (stk six : Nat) : State :=
  let m := segAt s stk six
  let s := setSeg s stk six { m with st := .lost }
  let s := { s with lost := putNum (segIndex stk six) s.lost }
  let drop (w : Writer) : Writer := if (tfind w.segs stk).any (fun o => o.seg = six) then { w with segs := tdel w.segs stk } else w
  { s with writers := tmap (fun _ w => drop w) s.writers }

/-- A bank whose remap entry is lost in both copies is fenced: its segments are lost, and the host is told once (R370, R371). -/
def fenceBank (s : State) (stk layer bank : Nat) : State :=
  let k := stackAt s stk
  if k.fenced.contains (layer, bank) then s
  else
    let segs := bankSegments s layer bank
    let s := setStack s stk { k with fenced := k.fenced ++ [(layer, bank)] }
    raiseMsix (segs.foldl (fun s six => loseSegment s stk six) { s with free := s.free + 1 }) 0 8

/-- Remap entries that a base die meets (R370): the failing copy of each is rewritten from the other. -/
def meetRemaps (s : State) (stk : Nat) (p : Nat → Nat → Bool) : State :=
  let k := stackAt s stk
  setStack s stk { k with badRemap := k.badRemap.filter (fun e => !p e.1 e.2) }

/-- Correctable errors of a stack's sectors in a range corrected, written back and counted (R368). -/
def correctSectors (s : State) (stk lo n : Nat) : State :=
  let hit := s.badLog.filter (fun b => !b.2 && decide (lo ≤ b.1) && decide (b.1 < lo + n))
  let k := stackAt s stk
  setStack { s with badLog := s.badLog.filter (fun b => !hit.contains b) } stk { k with corrected := k.corrected + hit.length }

/-- STACK_READ (R365, R366, R368, R370): the oldest READ is served. -/
def stackRead (s : State) (stk : Nat) : State :=
  match takeReq (fun r => match r with
      | .read _ _ _ _ => true
      | _ => false) (stackAt s stk).reqs with
  | some (.read die tag pos n, reqs) =>
    let six := posSix pos
    let s := meetRemaps s stk (fun l b => l = six / 1024 && b = six / 16 % 64)
    let s := correctSectors s stk (posSector pos) n
    completeReq s stk reqs { die, tag, data := sectorsBytes s (posSector pos) n, poison := poisonMask s (posSector pos) n, seg := none }
  | _ => s

/-- STACK_APPEND (R365, R366, R367): the oldest APPEND is written under ECC and acknowledged; a remap entry that its bank has lost
in one copy is rewritten, and nothing is written to a lost segment (R370). -/
def stackAppend (s : State) (stk : Nat) : State :=
  match takeReq (fun r => match r with
      | .append _ _ _ _ => true
      | _ => false) (stackAt s stk).reqs with
  | some (.append die tag pos data, reqs) =>
    let s := meetRemaps s stk (fun l b => l = posSix pos / 1024 && b = posSix pos / 16 % 64)
    let s := if s.lost.contains (segIndex (posStk pos) (posSix pos)) then s
      else { s with log := mwrite s.log (posSector pos * 32) data }
    completeReq s stk reqs { die, tag, data := [], poison := 0, seg := none }
  | _ => s

/-- STACK_FREAD (R365): the oldest FREAD is served. -/
def stackFread (s : State) (stk : Nat) : State :=
  match takeReq (fun r => match r with
      | .fread _ _ _ _ => true
      | _ => false) (stackAt s stk).reqs with
  | some (.fread die tag off len, reqs) => completeReq s stk reqs { die, tag, data := mread s.fixed off len, poison := 0, seg := none }
  | _ => s

/-- STACK_FWRITE (R365, R448): the oldest FWRITE is written, and shipped where this chip is a data chip. -/
def stackFwrite (s : State) (stk : Nat) : State :=
  match takeReq (fun r => match r with
      | .fwrite _ _ _ _ => true
      | _ => false) (stackAt s stk).reqs with
  | some (.fwrite die tag off data, reqs) =>
    let s := shipFixed { s with fixed := mwrite s.fixed off data } off data.length
    completeReq s stk reqs { die, tag, data := [], poison := 0, seg := none }
  | _ => s

/-- STACK_SEGOPEN (R365, R372): a writer that asks again receives a segment, or NONE and waits for the next freeing. -/
def stackSegopen (s : State) (stk : Nat) : State :=
  match takeReq (fun r => match r with
      | .segopen _ _ _ => true
      | _ => false) (stackAt s stk).reqs with
  | some (.segopen die tag wid, reqs) =>
    let give := if (tfind (writerAt s wid).segs stk).isSome then none else openSegment s wid stk
    match give with
    | some s => completeReq s stk reqs { die, tag, data := [], poison := 0, seg := (tfind (writerAt s wid).segs stk).map OpenSeg.seg }
    | none =>
      let s := if (segOpen s stk wid).isNone then starve s stk wid else s
      completeReq s stk reqs { die, tag, data := [], poison := 0, seg := none }
  | _ => s

/-- STACK_SEGSEAL (R295, R297, R365, R448, R449): the seal entry is written, the segment is SEALED, and it is shipped. -/
def stackSegseal (s : State) (stk : Nat) : State :=
  match takeReq (fun r => match r with
      | .segseal _ _ _ _ _ => true
      | _ => false) (stackAt s stk).reqs with
  | some (.segseal die tag six _ count, reqs) =>
    let s := completeReq s stk reqs { die, tag, data := [], poison := 0, seg := none }
    let m := segAt s stk six
    if m.st ≠ .open then s
    else
      let e := summaryEntry 6 0 0 0 count 0 false 0
      let s := { s with log := mwrite s.log (segIndex stk six * segSectors * 32 + 32 + 16 * count) e }
      pumpShips (shipSegment (setSeg s stk six { m with st := .sealed, sealedAt := s.now }) stk six)
  | _ => s

/-- STACK_COMPLETION (R365): a completion reaches the compute die that asked; completions come in any order. -/
def stackCompletion (s : State) (stk : Nat) : State :=
  let k := stackAt s stk
  match k.done with
  | [] => s
  | _ :: r => setStack s stk { k with done := r }

/-- STACK_SCRUB (R368, R370): every sector of both layers is read, and corrected where it can be. -/
def stackScrub (s : State) (stk : Nat) : State :=
  let s := meetRemaps s stk (fun _ _ => true)
  let s := correctSectors s stk (segIndex stk 0 * segSectors) (16384 * segSectors)
  let k := stackAt s stk
  setStack s stk { k with scrubbed := s.now }

/-- LOG_FULL_TIMEOUT (R372): no segment freed for 1 ms while a writer waits. -/
def logFull (s : State) (stk : Nat) : State :=
  let k := stackAt s stk
  if k.starved.isEmpty || k.fullRaised || decide (s.now < max k.lastFree k.starvedAt + usec 1000) then s
  else raiseMsix (setStack s stk { k with fullRaised := true }) 0 9

/-- STACK_READ (R365), an event. -/
def execStackRead (stack : Nat) (s : State) : Out := .next (stackRead s stack)
/-- STACK_APPEND (R365), an event. -/
def execStackAppend (stack : Nat) (s : State) : Out := .next (stackAppend s stack)
/-- STACK_FREAD (R365), an event. -/
def execStackFread (stack : Nat) (s : State) : Out := .next (stackFread s stack)
/-- STACK_FWRITE (R365), an event. -/
def execStackFwrite (stack : Nat) (s : State) : Out := .next (stackFwrite s stack)
/-- STACK_SEGOPEN (R372), an event. -/
def execStackSegopen (stack : Nat) (s : State) : Out := .next (stackSegopen s stack)
/-- STACK_SEGSEAL (R365), an event. -/
def execStackSegseal (stack : Nat) (s : State) : Out := .next (stackSegseal s stack)
/-- STACK_COMPLETION (R365), an event. -/
def execStackCompletion (stack : Nat) (s : State) : Out := .next (stackCompletion s stack)
/-- STACK_SCRUB (R368), an event. -/
def execStackScrub (stack : Nat) (s : State) : Out := .next (stackScrub s stack)
/-- LOG_FULL_TIMEOUT (R372), an event. -/
def execLogFullTimeout (stack : Nat) (s : State) : Out := .next (logFull s stack)

end Sys2Proof.Machine
end

