-- ==== Sys2Proof/Machine/Fettler.lean ====
section
/-!
DEFINITION. Fettlers (R373 to R376, R452): which segment is cleaned, which of its extents are live, their relocation, and the segment's
return to FREE.
-/
namespace Sys2Proof.Machine

/-- An extent as its summary entry names it (R297). -/
structure Extent where
  kind : Nat
  asid : Nat
  n : Nat
  pos : Nat
  key : Nat
  start : Nat
  cmp : Bool
  deriving DecidableEq, Repr

/-- The extents of a segment from entry `i` on, up to the seal (R295, R297). -/
def extentsFrom (s : State) (stk six : Nat) : Nat → Nat → List Extent
  | 0, _ => []
  | k + 1, i =>
    let e := ofBytes (mread s.log (segIndex stk six * segSectors * 32 + 32 + 16 * i) 16)
    let kind := bits e 127 125
    if kind = 0 || kind = 6 then []
    else { kind, asid := bits e 124 113, n := bits e 112 101 + 1, pos := mkPos stk six (bits e 100 84) 0, key := bits e 83 36
           start := bits e 35 33, cmp := bit e 32 } :: extentsFrom s stk six k (i + 1)

/-- The current root and the retained roots of an ASID (R373). -/
def allRoots (s : State) (asid : Nat) : List Nat :=
  nodup ((rootEntry s asid).root :: (validSlots s asid).map (fun k => (retained s asid k).2.2))

/-- Sectors of a data extent within its sub-page, with their positions (R292, R297). -/
def extentPlaces (x : Extent) : List (Nat × Nat) :=
  let b := x.key % 16 * 8
  if x.cmp then (upTo 0 8).map (fun i => (b + i, x.pos + (x.n - 1))) else (upTo 0 x.n).map (fun i => (b + x.start + i, x.pos + 8 * i))

/-- The node of a level and prefix under a node, `n` levels down (R299). -/
def nodeUnder (s : State) (key : Nat) : Nat → Nat → Nat → Option Nat
  | 0, _, pos => some pos
  | n + 1, level, pos => match readNode s pos with
    | some r => nodeUnder s key n (level + 1) (nth r.kids (kidIndex key level) 0)
    | none => none

/-- Level of a path node's extent (R297, R301). -/
def extentLevel (x : Extent) : Nat := bits x.key 43 41
/-- A key under a path node's extent (R301). -/
def extentKey (x : Extent) : Nat := x.key % 2 ^ 40

/-- An extent is live under one root (R373). -/
def liveUnder (s : State) (x : Extent) (root : Nat) : Bool :=
  match x.kind with
  | 1 => match underRoot s root (x.key / 16) with
    | .map _ m => (extentPlaces x).any (fun p => nth m.pos p.1 0 = p.2)
    | _ => false
  | 2 => match underRoot s root (x.key / 16) with
    | .map p _ => p = x.pos
    | _ => false
  | _ => root ≠ 0 && nodeUnder s (extentKey x) (extentLevel x) 0 root = some x.pos

/-- A publication whose commit is not written holds an intent part (R373). -/
def intentOpen (s : State) (x : Extent) : Bool :=
  s.writers.any (fun w => w.2.pubs.any (fun p => p.asid = x.asid && p.stage = .requested && p.parts.any (fun q => q.1 = x.pos)))

/-- An extent is live (R373). -/
def extentLive (s : State) (x : Extent) : Bool :=
  match x.kind with
  | 4 => (rootEntry s x.asid).crec = x.pos
  | 5 => intentOpen s x
  | 6 => false
  | _ => (allRoots s x.asid).any (liveUnder s x)

/-- The first map under a node, `n` levels above the maps: its sub-page key. -/
def firstMap (s : State) : Nat → Nat → Nat → Option Nat
  | 0, pos, key => if pos = 0 then none else some key
  | n + 1, pos, key =>
    if pos = 0 then none
    else match readNode s pos with
      | none => none
      | some r => (numbered 0 r.kids).findSome? (fun (i, k) => if k = 0 then none else firstMap s n k (key * 256 + i))

/-- The sub-page whose map is written again to move an index extent, under one root (R375). -/
def rewriteKey (s : State) (x : Extent) (root : Nat) : Option Nat :=
  if !liveUnder s x root then none
  else if x.kind = 2 then some (x.key / 16)
  else firstMap s (5 - extentLevel x) x.pos (kidPrefix (extentKey x) (extentLevel x))

/-- What a relocation does for a live extent: nothing found, a record of its sub-page, or a commit alone. -/
def moveRecords (s : State) (x : Extent) : Option (List Nat) :=
  let keys := (allRoots s x.asid).filterMap (rewriteKey s x)
  if x.kind = 4 then some [] else if keys.isEmpty then none else some (nodup keys)

/-- A relocation in progress: records by ASID, old and new positions (R375). -/
abbrev MoveSet := Tbl (List (Nat × Nat × List (Nat × Nat × Nat)))

/-- A record added to a move set: positions of one sub-page gathered, a rewrite once. -/
def addMove (m : MoveSet) (asid sub ck : Nat) (l : List (Nat × Nat × Nat)) : MoveSet :=
  let old := tget m asid []
  let new := if old.any (fun r => r.1 = sub) then old.map (fun r => if r.1 = sub then (sub, r.2.1, r.2.2 ++ l) else r) else old ++ [(sub, ck, l)]
  tput m asid new

/-- One live extent copied or entered for rewriting (R375); none when the fettler's log has no room or the index above it is
uncorrectable. -/
def moveExtent (s : State) (stk : Nat) (m : MoveSet) (x : Extent) : Option (MoveSet × State) :=
  let wid := 48 + stk
  match x.kind with
  | 1 =>
    let sec := posSector x.pos
    match appendExtent s wid 1 x.asid x.key x.start x.cmp (sectorsBytes s sec x.n) with
    | none => none
    | some (p, s') =>
      let bad := ((upTo 0 x.n).filter (fun i => sectorBad s (sec + i))).map (fun i => (posSector p + i, true))
      let moved := (extentPlaces x).map (fun q => (q.1, q.2, q.2 - x.pos + p))
      some (addMove m x.asid (x.key / 16) (ofBool x.cmp) moved, { s' with badLog := bad ++ s'.badLog })
  | 5 =>
    match appendExtent s wid 5 x.asid x.key 0 false (sectorsBytes s (posSector x.pos) x.n) with
    | none => none
    | some (p, s) => some (m, { s with writers := tmap (fun _ w => { w with pubs := w.pubs.map (fun q =>
        if q.asid = x.asid && q.stage = .requested then
          { q with intent := if q.intent = x.pos then p else q.intent
                   parts := q.parts.map (fun y => if y.1 = x.pos then (p, y.2) else y) } else q) }) s.writers })
  | _ =>
    (moveRecords s x).map (fun ks =>
      (ks.foldl (fun m k => addMove m x.asid k 0 []) (if ks.isEmpty then tput m x.asid (tget m x.asid []) else m), s))

/-- Every live extent moved. -/
def moveAll (stk : Nat) : List Extent → MoveSet → State → Option (MoveSet × State)
  | [], m, s => some (m, s)
  | x :: r, m, s => match moveExtent s stk m x with
    | none => none
    | some (m, s) => moveAll stk r m s

/-- Relocation records of an ASID published, as many a time as one intent can list (R313, R315, R375); `fuel` bounds the parts. -/
def publishParts (s : State) (wid asid : Nat) : Nat → List (Nat × Nat × List (Nat × Nat × Nat)) → Option (List Nat × State)
  | 0, _ => some ([], s)
  | fuel + 1, recs =>
    let n := (intentFit 10 (recs.map (fun r => (r.1, r.2.2.length))) (intentRoom 1311) 4095).length
    match publishRecs s wid asid (recs.take n) 0 true none (writerAt s wid).tick with
    | none => none
    | some (id, s) =>
      if (recs.drop n).isEmpty then some ([id], s)
      else (publishParts s wid asid fuel (recs.drop n)).map (fun (l, s) => (id :: l, s))

/-- The relocation intents sent, those of each ASID (R375): their publications. -/
def sendMoves (wid : Nat) : MoveSet → State → Option (List (Nat × Nat) × State)
  | [], s => some ([], s)
  | (asid, recs) :: r, s => match publishParts s wid asid (recs.length + 1) recs with
    | none => none
    | some (ids, s) => (sendMoves wid r s).map (fun (l, s) => (ids.map (fun id => (wid, id)) ++ l, s))

/-- A segment that may be cleaned (R371, R374). -/
def cleanable (s : State) (m : SegMeta) : Bool :=
  m.st = .sealed && decide (m.sealedAt + usec 10000 ≤ s.now) && decide (m.data ≤ 2 * m.sup) && m.ships = 0

/-- A candidate before another: the higher SUP/DATA, then the older seal (R374). -/
def cleanFirst (a b : SegMeta) : Bool :=
  decide (b.sup * a.data < a.sup * b.data) || (a.sup * b.data = b.sup * a.data && decide (a.sealedAt < b.sealedAt))

/-- The segment that a stack's fettler takes next (R374). -/
def nextClean (s : State) (stk : Nat) : Option (Nat × SegMeta) :=
  ((stackAt s stk).segs.filter (fun p => decide (p.1 < logSegs s) && cleanable s p.2)).foldl (fun acc p => match acc with
    | none => some p
    | some q => if cleanFirst p.2 q.2 then some p else acc) none

/-- The fettler may clean now (R374). -/
def fettlerRuns (s : State) (stk : Nat) : Bool :=
  let k := stackAt s stk
  decide (4 * freeSegs s stk < logSegs s) || k.lastScan = 0 || decide (k.lastScan + usec 10000 ≤ s.now)

/-- FETTLER_SCAN (R373, R374, R375): the next candidate is scanned, and held or relocated. -/
def fettlerScan (s : State) (stk : Nat) : State :=
  if !fettlerRuns s stk then s
  else match nextClean s stk with
    | none => s
    | some (six, m) =>
      let k := stackAt s stk
      let s := setStack s stk { k with lastScan := s.now }
      let xs := (extentsFrom s stk six 32768 0).filter (fun x => x.kind ≤ 5)
      let live := xs.filter (extentLive s)
      let dead := ((xs.filter (fun x => !extentLive s x)).map Extent.n).foldl (· + ·) 0
      if 2 * dead < m.data || live.any (fun x => 2 ≤ x.kind && x.kind ≤ 4 && (moveRecords s x).isNone) then
        setSeg s stk six { m with st := .held }
      else match moveAll stk live [] s with
        | none => starve s stk (48 + stk)
        | some (mv, s') => match sendMoves (48 + stk) mv s' with
          | none => starve s stk (48 + stk)
          | some (ids, s') => setSeg s' stk six { segAt s' stk six with st := .cleaning, moves := ids }

/-- A READ that located a position in a segment has not completed (R376). -/
def readsOpen (s : State) (stk six : Nat) : Bool :=
  (stackAt s stk).reqs.any (fun r => match r with
    | .read _ _ pos _ => posSix pos = six
    | _ => false)

/-- A cleaned segment's relocations have completed at device scope and are acknowledged by every surviving holder
(R376, R452). -/
def movesDone (s : State) (m : SegMeta) : Bool :=
  m.moves.all (fun (w, id) => (writerAt s w).pubs.all (fun p => p.id ≠ id || pubDone s w p 4) &&
    s.fabric.ships.all (fun j => j.wid ≠ w || j.pub ≠ id || j.waits.isEmpty))

/-- A segment becomes FREE (R337, R372): no cache names it any more, and the writers that its stack answered NONE ask again. -/
def freeSegment (s : State) (stk six : Nat) : State :=
  let inSeg (p : Nat) : Bool := p ≠ 0 && posStk p = stk && posSix p = six
  let s := { s with dies := tmap (fun _ d => { d with
    maps := d.maps.filter (fun e => !inSeg e.pos && !(readMap s e.pos).any (fun m => m.pos.any inSeg))
    nodes := d.nodes.filter (fun n => !inSeg n.pos && !(readNode s n.pos).any (fun r => r.kids.any inSeg))
    lines := d.lines.filter (fun e => !inSeg e.pos) }) s.dies }
  let s := setSeg s stk six {}
  let ws := (stackAt s stk).starved
  let k := stackAt s stk
  let s := setStack s stk { k with starved := [], lastFree := s.now, fullRaised := false }
  ws.foldl (fun s wid =>
    let (tag, s) := newName s
    let k := stackAt s stk
    setStack s stk { k with reqs := k.reqs ++ [.segopen (writerDie wid) tag wid] }) s

/-- SEGMENT_FREE (R337, R372, R376, R449, R452): caches forget the segment, its old image is retired from parity, and it is FREE; writers
that waited ask again. -/
def segmentFree (s : State) (stk six : Nat) : State :=
  let m := segAt s stk six
  if m.st ≠ .cleaning || !movesDone s m || readsOpen s stk six then s
  else
    let s := if m.shipped then shipSectors s (fun e => rgtMode e = 2) 0x15 (mkPos stk six 0 0) segSectors else s
    freeSegment s stk six

/-- FETTLER_SCAN (R374), an event. -/
def execFettlerScan (stack : Nat) (s : State) : Out := .next (fettlerScan s stack)
/-- SEGMENT_FREE (R376), an event. -/
def execSegmentFree (stack seg : Nat) (s : State) : Out := .next (segmentFree s stack seg)

end Sys2Proof.Machine
end

