-- ==== Sys2Proof/Machine/Migrate.lean ====
section
/-!
DEFINITION. The migration unit (R385 to R391): commands, page requests and their answers, migrations to the device and to the host, and
their failures.
-/
namespace Sys2Proof.Machine

/-- Where the leaf of a page stands in the fixed region, `n` pointer levels down from a table (R325). -/
def leafPlace (s : State) (va tbl : Nat) : Nat → Option Nat
  | 0 => some (tbl + 8 * tableIndex va 4)
  | n + 1 =>
    let e := fixedWord s (tbl + 8 * tableIndex va (3 - n))
    if !bit e 0 || fixedSize s ≤ bits e 32 12 * 4096 then none else leafPlace s va (bits e 32 12 * 4096) n

/-- The leaf of a page, if it has one (R325, R327). -/
def pageLeaf (s : State) (asid vpn : Nat) : Option DWord :=
  match walkPage s asid (vpn * 65536) with
  | .leaf l => some l
  | .cause _ _ => none

/-- H of a page's leaf written, nothing else (R385); a fixed-region write (R448). -/
def setHost (s : State) (asid vpn : Nat) (h : Bool) : State :=
  match leafPlace s (vpn * 65536) (astEntry s asid).top 4 with
  | none => s
  | some a =>
    let e := fixedWord s a
    let e' := e - ofBool (bit e 4) * 16 + ofBool h * 16
    shipFixed { s with fixed := mwrite s.fixed a (toBytes 8 e') } a 8

/-- A job replaced. -/
def setJob (s : State) (j : MigJob) : State := { s with migs := s.migs.map (fun x => if x.id = j.id then j else x) }

/-- A function's MGSTAT.ERR set (R386). -/
def migError (s : State) (fn : Nat) : State := setFn s fn { fnAt s fn with mgerr := true }

/-- A command of the migration block, made of a write of MGCTL and MGADDR (R386). -/
def migrateCommand (s : State) (fn : Nat) (ctl : DWord) : State :=
  let x := fnAt s fn
  let ctl := ctl &&& 0x1FFF#64
  let asid := bits ctl.toNat 11 0
  let mine := s.migs.filter (fun j => j.fn = some fn)
  let s := setFn s fn { x with mgctl := ctl }
  if 16 ≤ mine.length || (astEntry s asid).fn ≠ fn then migError s fn
  else
    let (id, s) := newName s
    let s := setFn s fn { fnAt s fn with mgacc := x.mgacc + 1 }
    { s with migs := s.migs ++ [{ id, fn := some fn, asid, vpn := bits x.mgaddr.toNat 56 16, lpn := 0, toDevice := bit ctl.toNat 12, since := s.now }] }

/-- A job ends: a command is counted, and its function told (R386). -/
def endJob (s : State) (j : MigJob) : State :=
  let s := { s with migs := s.migs.filter (fun x => x.id ≠ j.id) }
  match j.fn with
  | none => s
  | some f => raiseMsix (setFn s f { fnAt s f with mgdone := (fnAt s f).mgdone + 1 }) f 4

/-- The misses that wait for a page in walkers of every die (R329, R387). -/
def pageWaiters (s : State) (asid vpn : Nat) : List Misser :=
  s.dies.flatMap (fun d => d.2.walkers.flatMap (fun k => if k.2.asid = asid && k.2.vpn = vpn then k.2.queue else []))

/-- The walkers of a page end; `again` are the misses that walk once more (R387). -/
def endWalks (s : State) (asid vpn : Nat) (again : Bool) : State :=
  let mine (k : Walker) : Bool := k.asid = asid && k.vpn = vpn
  { s with dies := tmap (fun _ d =>
      let q := (d.walkers.filter (fun k => mine k.2)).flatMap (fun k => k.2.queue)
      { d with
        walkers := d.walkers.filter (fun k => !mine k.2)
        missq := if again then q.map (fun m => (asid, vpn, m)) ++ d.missq else d.missq }) s.dies }

/-- A queued device access raises PAGE_FAULT (R390): an instruction takes it, a copy stops, a delivery or save is contained, and a
launch is refused. -/
def failWaiter (s : State) (asid vpn : Nat) (m : Misser) : State :=
  let va := vpn * 65536
  let c : Trap := { code := 0x0B, addr := BitVec.ofNat 64 va }
  match m with
  | .lane _ _ => answerMiss s asid vpn (.cause 0x0B va) m
  | .copy i => stopCopy s i 0x0B 0
  | .item gang g p =>
    let t := itemAt s gang g p
    match t.wait with
    | .parked k _ _ => contain s gang t.pc c 1 k.code 0
    | .stackCopy => deliver (updItem s gang g p (fun t => { t with wait := .ready })) gang g p { c with pc := t.pc, wr := true }
    | _ => s
  | .gang gang => contain s gang (firstPc s gang) c 1 0 0
  | .launch id =>
    match tfind s.launches id with
    | none => s
    | some x => setLaunch (launchRecord s x 0x0B 0 (entryPc s x)) id { x with phase := .releasing, pkt := x.pkt &&& ~~~(7#512 <<< 217) }

/-- A migration fails (R390): H has its old value, ERR is set, the command completes, and every queued access raises PAGE_FAULT. -/
def failJob (s : State) (j : MigJob) : State :=
  let ws := pageWaiters s j.asid j.vpn
  let s := if !j.toDevice && [2, 3, 12, 13].contains j.stage then setHost s j.asid j.vpn false else s
  let s := endJob (migError s (j.fn.getD (ownerFn s j.asid))) j
  ws.foldl (fun s m => failWaiter s j.asid j.vpn m) (endWalks s j.asid j.vpn false)

/-- A writer holds something of a page (R388). -/
def holdsPage (w : Writer) (asid lpn : Nat) : Bool :=
  w.tail.any (fun t => t.asid = asid && t.key / 2048 = lpn) || w.pend.any (fun p => p.asid = asid && p.sub / 16 = lpn) ||
    w.pubs.any (fun p => p.asid = asid && p.recs.any (fun r => r.1 / 16 = lpn))

/-- Every writer that holds something of a page, and every atomic unit, is asked to publish at device scope (R388, R389). -/
def publishPage (s : State) (asid lpn : Nat) : State × List (Nat × Nat) :=
  let ws := (s.writers.filter (fun w => decide (w.1 < 40) && (holdsPage w.2 asid lpn || (decide (32 ≤ w.1) && decide (w.1 < 36))))).map
    (fun w => (w.1, w.2.tick))
  (ws.foldl (fun s w => pushRelease s w.1 asid w.2) s, ws)

/-- What a job waits for to be published: the state with one more publication begun where one can, none when all is published. -/
def awaitPubs (s : State) (asid : Nat) (l : List (Nat × Nat)) : Option (Option State) :=
  match l.find? (fun w => canPush s w.1 asid w.2) with
  | some w => some (some (pushRelease s w.1 asid w.2))
  | none => if l.any (fun w => unpublished s w.1 asid w.2 4) then some none else none

/-- The published bytes of some sectors of a page, and whether one of them is poisoned (R388). -/
def publishedPage (s : State) (asid lpn : Nat) (secs : List Nat) : List Byte × Bool :=
  let rs := secs.map (fun k => publishedSector s asid (lpn * 2048 + k))
  (rs.flatMap SectorRead.data, rs.any SectorRead.bad)

/-- Host bytes on their way to the host copy: a poisoned sector sets ERR (R388). -/
def sendPage (s : State) (j : MigJob) (secs : List Nat) : State × List Byte :=
  let (bs, bad) := publishedPage s j.asid j.lpn secs
  (if bad then migError s (j.fn.getD (ownerFn s j.asid)) else s, bs)

/-- Every entry of the replay queues of a page (R389). -/
def replayLength (s : State) (asid vpn : Nat) : Nat := (pageWaiters s asid vpn).length

/-- H := 1 and a shootdown of the page (R334, R388). -/
def stopPage (s : State) (j : MigJob) (stage : Nat) : State :=
  let s := setHost s j.asid j.vpn true
  let s := setJob s { j with stage, shot := s.nextId }
  shootRange { s with nextId := s.nextId + 1 } j.asid j.vpn 1 false

/-- A step of a migration to the host (R388, R389): none while it waits. Stages: 0 start; 1 stop; 2 shootdown; 3 publications;
4 copied. Optimistic: 10 an attempt begins; 11 its publications; 12 the last shootdown; 13 the last publications. -/
def hostStep (s : State) (j : MigJob) (ok : Bool) : Option State :=
  match j.stage with
  | 0 =>
    match pageLeaf s j.asid j.vpn with
    | none => some (failJob s { j with toDevice := false })
    | some l =>
      if leafHost l then some (endJob s j)
      else
        let fast := leafLatency l || 32 < replayLength s j.asid j.vpn
        some (setJob s { j with lpn := leafLpn l, stage := if fast then 10 else 1, attempt := 1 })
  | 1 => some (stopPage s j 2)
  | 2 =>
    if !shotDone s j.asid j.shot then none
    else
      let (s, pubs) := publishPage s j.asid j.lpn
      some (setJob s { j with stage := 3, pubs })
  | 3 =>
    match awaitPubs s j.asid j.pubs with
    | some x => x
    | none =>
      if !ok then some (failJob s j)
      else
        let (s, page) := sendPage s j (upTo 0 2048)
        some (setJob s { j with stage := 4, page })
  | 10 =>
    let s := setJob s { j with dirty := [] }
    let (s, pubs) := publishPage s j.asid j.lpn
    some (setJob s { j with stage := 11, dirty := [], pubs })
  | 11 =>
    match awaitPubs s j.asid j.pubs with
    | some x => x
    | none =>
      if !ok then some (failJob s j)
      else
        let (s, page) := sendPage s j (upTo 0 2048)
        let j := { j with page }
        if j.dirty.isEmpty then some (stopPage s j 12)
        else if j.attempt < 3 then some (setJob s { j with attempt := j.attempt + 1, stage := 10 })
        else some (setJob s { j with stage := 1 })
  | 12 =>
    if !shotDone s j.asid j.shot then none
    else
      let (s, pubs) := publishPage s j.asid j.lpn
      some (setJob s { j with stage := 13, pubs })
  | 13 =>
    match awaitPubs s j.asid j.pubs with
    | some x => x
    | none =>
      if !ok then some (failJob s j)
      else
        let secs := sortBy id j.dirty
        let (s, bs) := sendPage s j secs
        let lay (pg : List Byte) (p : Nat × Nat) : List Byte := pg.take (32 * p.2) ++ (bs.drop (32 * p.1)).take 32 ++ pg.drop (32 * p.2 + 32)
        some (setJob s { j with stage := 4, page := (numbered 0 secs).foldl lay j.page })
  | _ => some (endJob s j)

/-- The ingress writer that appends a page's bytes (R387). -/
def pageWriter (asid lpn : Nat) : Nat := 36 + homeDie asid lpn

/-- The page's sectors written by the ingress writer of its home die, which takes every sub-page (R304, R387); none while another
writer still holds something of the page or the buffer is full. -/
def takePage (s : State) (j : MigJob) (ck : Nat) : Option State :=
  let wid := pageWriter j.asid j.lpn
  if s.writers.any (fun w => w.1 ≠ wid && decide (w.1 < 40) && holdsPage w.2 j.asid j.lpn) then none
  else
    let s := setOwn s { asid := j.asid, lpn := j.lpn, owned := 0xFFFF, sown := List.replicate 16 wid }
    (upTo 0 2048).foldl (fun acc k => acc.bind (fun s =>
      tailWrite s wid j.asid (j.lpn * 2048 + k) 0 ck ((upTo (32 * k) 32).map (fun i => nth j.page i 0)))) (some s)

/-- A step of a migration to the device (R387): none while it waits. Stages: 0 the page is asked for; 1 the host answered;
2 publication. -/
def deviceStep (s : State) (j : MigJob) (ok : Bool) : Option State :=
  match j.stage with
  | 0 =>
    match pageLeaf s j.asid j.vpn with
    | none => some (failJob s j)
    | some l =>
      if !leafHost l then some (endWalks (endJob s j) j.asid j.vpn true)
      else if j.lpn = leafLpn l then none else some (setJob s { j with lpn := leafLpn l })
  | 1 =>
    if !ok then some (failJob s j)
    else
      match takePage s j (((pageLeaf s j.asid j.vpn).map leafCk).getD 0) with
      | none => none
      | some s =>
        let wid := pageWriter j.asid j.lpn
        let mark := (writerAt s wid).tick
        some (setJob (pushRelease s wid j.asid mark) { j with stage := 2, pubs := [(wid, mark)] })
  | _ =>
    match awaitPubs s j.asid j.pubs with
    | some x => x
    | none => some (endWalks (endJob (setHost s j.asid j.vpn false) j) j.asid j.vpn true)

/-- A job may go on: those before it are of other pages and other functions (R386). -/
def jobTurns : List MigJob → List MigJob → List MigJob
  | _, [] => []
  | before, j :: r =>
    (if before.any (fun k => (k.asid = j.asid && k.vpn = j.vpn) || (k.fn.isSome && k.fn = j.fn)) then [] else [j]) ++ jobTurns (before ++ [j]) r

/-- MIGRATION_COMPLETE (R387 to R390): the first migration that can goes on by a step; `ok` says whether its accesses to host memory
succeed. -/
def migrationStep (s : State) (ok : Bool) : State :=
  ((jobTurns [] s.migs).findSome? (fun j => if j.toDevice then deviceStep s j ok else hostStep s j ok)).getD s

/-- The oldest migration that waits for the host's bytes, its page named by its leaf (R387). -/
def awaiting (s : State) : Option MigJob :=
  (jobTurns [] s.migs).findSome? (fun j => match pageLeaf s j.asid j.vpn with
    | some l => if j.toDevice && j.stage = 0 && leafHost l then some { j with lpn := leafLpn l } else none
    | none => none)

/-- PAGE_REQUEST_ANSWER (R387, R390): the host grants the page and its bytes are read, or refuses it. -/
def pageAnswer (s : State) (granted : Bool) (page : List Byte) : State :=
  match awaiting s with
  | none => s
  | some j => if granted then setJob s { j with stage := 1, page } else failJob s j

/-- MIGRATION_TIMEOUT (R390): no answer within 10 ms. -/
def migrationTimeout (s : State) : State :=
  match (jobTurns [] s.migs).find? (fun j => j.toDevice && j.stage = 0 && j.fn.isNone && decide (j.since + usec 10000 ≤ s.now)) with
  | none => s
  | some j => failJob s j

/-- MIGRATE_TO_HOST_COMMAND (R386, R388), an event: a write of MGCTL with DIR 0. -/
def execMigrateToHostCommand (fn : Nat) (ctl : DWord) (s : State) : Out := .next (migrateCommand s fn (ctl &&& ~~~0x1000#64))
/-- MIGRATE_TO_DEVICE_COMMAND (R386, R387), an event: a write of MGCTL with DIR 1. -/
def execMigrateToDeviceCommand (fn : Nat) (ctl : DWord) (s : State) : Out := .next (migrateCommand s fn (ctl ||| 0x1000#64))
/-- PAGE_REQUEST_ANSWER (R387), an event. -/
def execPageRequestAnswer (granted : Bool) (page : List Byte) (s : State) : Out := .next (pageAnswer s granted page)
/-- MIGRATION_COMPLETE (R387), an event. -/
def execMigrationComplete (hostOk : Bool) (s : State) : Out := .next (migrationStep s hostOk)
/-- MIGRATION_TIMEOUT (R390), an event. -/
def execMigrationTimeout (s : State) : Out := .next (migrationTimeout s)

end Sys2Proof.Machine
end

