-- ==== Sys2Proof/Machine/Link.lean ====
section
/-!
DEFINITION. Runner ports (R425 to R430, R437): packets as flits, the link protocol, lane degradation and failure notices.
-/
namespace Sys2Proof.Machine

/-- A port; an unlisted port is as at reset. -/
def portAt (s : State) (p : Nat) : Port := tget s.fabric.ports p {}
/-- The state with a port changed. -/
def setPort (s : State) (p : Nat) (x : Port) : State := { s with fabric := { s.fabric with ports := tput s.fabric.ports p x } }
/-- A port carries data: X16, X8 or X4 (R429). -/
def portRuns (x : Port) : Bool := x.st = .x16 || x.st = .x8 || x.st = .x4
/-- Lanes of a width, 0 ×16, 1 ×8, 2 ×4 (R426, R429). -/
def widthLanes (w : Nat) : Nat := 16 / 2 ^ w
/-- LW of a port's state (R426). -/
def portWidth (x : Port) : Nat := match x.st with
  | .x8 => 1
  | .x4 => 2
  | _ => 0
/-- The state's number in PSTAT and notices (R437). -/
def stateCode : PortState → Nat
  | .x16 => 0
  | .x8 => 1
  | .x4 => 2
  | .train => 3
  | .down => 4

/-- The 32-byte header of a packet (R431). -/
def headerBytes (p : Packet) : List Byte :=
  toBytes 32 (p.addr.toNat * 2 ^ 192 + p.tag.toNat * 2 ^ 176 + p.asid.toNat * 2 ^ 164 + p.pkey.toNat * 2 ^ 144 +
    p.payload.length % 4096 * 2 ^ 128 + p.op.toNat * 2 ^ 122 + p.cls.toNat * 2 ^ 120 + p.src.toNat * 2 ^ 106 +
    p.dest.toNat * 2 ^ 92 + p.hop.toNat * 2 ^ 84 + ofBool p.resv * 2 ^ 64 + p.aux.toNat)

/-- A packet read from its bytes (R431). -/
def parsePacket (l : List Byte) : Packet :=
  let h := ofBytes (l.take 32)
  { addr := BitVec.ofNat 64 (h / 2 ^ 192), tag := BitVec.ofNat 16 (h / 2 ^ 176), asid := BitVec.ofNat 12 (h / 2 ^ 164)
    pkey := BitVec.ofNat 16 (h / 2 ^ 144), op := BitVec.ofNat 6 (h / 2 ^ 122), cls := BitVec.ofNat 2 (h / 2 ^ 120)
    src := BitVec.ofNat 14 (h / 2 ^ 106), dest := BitVec.ofNat 14 (h / 2 ^ 92), hop := BitVec.ofNat 8 (h / 2 ^ 84)
    aux := BitVec.ofNat 64 h, resv := bits h 163 160 ≠ 0 || bits h 143 140 ≠ 0 || bits h 83 64 ≠ 0
    payload := (l.drop 32).take (bits h 139 128) }

/-- Flits that a packet occupies (R428). -/
def flitCount (p : Packet) : Nat := ceilDiv (32 + p.payload.length) 232

/-- A message area: 232 bytes, zero where the packet has ended (R428). -/
def areaAt (l : List Byte) (i : Nat) : List Byte :=
  let a := (l.drop (232 * i)).take 232
  a ++ List.replicate (232 - a.length) 0

/-- A flit header as the port sends it now: acknowledgement, NAK and returned credits (R426, R427). -/
def headFlit (x : Port) (kind seq : Nat) : Flit :=
  { seq := BitVec.ofNat 12 seq, ackseq := x.ackSeq, av := true, nak := x.nak, kind := BitVec.ofNat 2 kind, cls := 0
    sop := false, eop := false, cro := BitVec.ofNat 8 (min x.retO 255), crb := BitVec.ofNat 8 (min x.retB 255)
    crm := BitVec.ofNat 8 (min x.retM 255), lw := BitVec.ofNat 4 (portWidth x), resv := 0, area := areaAt [] 0, crcOk := true }

/-- A flit leaves: its NAK is given and its credits are returned (R426, R427). -/
def emit (x : Port) (now : Nat) (f : Flit) : Port :=
  { x with out := x.out ++ [f], nak := false, lastSent := now, retO := x.retO - f.cro.toNat, retB := x.retB - f.crb.toNat
           retM := x.retM - f.crm.toNat }

/-- A data flit sent: sequenced, and held for replay (R427). -/
def emitData (x : Port) (now cls : Nat) (sop eop : Bool) (area : List Byte) : Port :=
  let f := { headFlit x 1 x.txSeq with cls := BitVec.ofNat 2 cls, sop, eop, area }
  let y := emit x now f
  { y with txSeq := (x.txSeq + 1) % 4096, replay := y.replay ++ [f] }

/-- Credits of a class at the next hop: none in TRAIN or DOWN (R428, R435). -/
def portCredits (x : Port) (cls : Nat) : Nat :=
  if !portRuns x then 0 else match cls with
    | 0 => x.credO
    | 1 => x.credB
    | _ => x.credM

/-- A packet can leave by a port now: credits for all its flits, and room for replay (R427, R428). -/
def canSend (x : Port) (p : Packet) : Bool :=
  portRuns x && decide (flitCount p ≤ portCredits x p.cls.toNat) && decide (x.replay.length + flitCount p ≤ 2047)

/-- Credits used for a packet (R428). -/
def useCredits (x : Port) (cls n : Nat) : Port :=
  match cls with
  | 0 => { x with credO := x.credO - n }
  | 1 => { x with credB := x.credB - n }
  | _ => { x with credM := x.credM - n }

/-- A packet sent by a port, flit by flit (R427, R428); a notice that has left is retried no more (R437). -/
def sendBy (s : State) (i : Nat) (p : Packet) : State :=
  let x := useCredits (portAt s i) p.cls.toNat (flitCount p)
  let l := headerBytes p ++ p.payload
  let n := flitCount p
  let x := (upTo 0 n).foldl (fun x k => emitData x s.now p.cls.toNat (k = 0) (k + 1 = n) (areaAt l k)) x
  let s := setPort s i x
  if p.op = 0x11 then { s with fabric := { s.fabric with sent := s.fabric.sent.filter (fun q => !(q.pkt.op = 0x11 && q.pkt.tag = p.tag)) } }
  else s

/-- The buffer that a packet held is free: credits to return (R428). -/
def returnCredits (x : Port) (p : Packet) : Port :=
  let n := flitCount p
  match p.cls.toNat with
  | 0 => { x with retO := x.retO + n }
  | 1 => { x with retB := x.retB + n }
  | _ => { x with retM := x.retM + n }

/-- The management key and the manager's endpoint (R451). -/
def mpkey (s : State) : Nat := bits s.fabric.fabid.toNat 47 32
/-- FMEP (R451). -/
def fmep (s : State) : Nat := bits s.fabric.fabid.toNat 61 48

/-- A failure notice (R437): sent to the manager, retried under R433 until it leaves, and the FABRIC vector raised. Fields that concern no
port are zero. -/
def raiseNotice (s : State) (event tgt : Nat) (port : Option Nat) : State :=
  let pf : List (Nat × Nat) := match port with
    | some i =>
      let x := portAt s i
      [(128, x.lanes.toNat + x.peer.toNat * 65536), (116, x.ackSeq.toNat), (108, stateCode x.st), (104, i)]
    | none => []
  let payload := toBytes 32 (fields ([(192, (moduleTime s).toNat), (96, event), (82, tgt)] ++ pf))
  let (_, s) := sendPacket s 0x11 (fmep s) (mpkey s) 0 0 0 payload .other
  let s := match s.fabric.inq.getLast? with
    | some p => { s with fabric := { s.fabric with sent := s.fabric.sent ++ [{ pkt := p, sentAt := s.now, tries := 1, who := .other }] } }
    | none => s
  raiseMsix s 0 10

/-- Distance of a sequence number ahead of another, modulo 4,096 (R427). -/
def seqAhead (a b : BitVec 12) : Nat := (a - b).toNat

/-- An acknowledgement: data flits up to ACKSEQ leave the replay buffer (R427). -/
def takeAck (x : Port) (a : BitVec 12) : Port :=
  match x.replay.findIdx? (fun f => f.seq = a) with
  | some i => { x with replay := x.replay.drop (i + 1) }
  | none => x

/-- Every buffered flit sent again, with the header of now (R427). -/
def resendAll (x : Port) (now : Nat) : Port :=
  if x.replay.isEmpty then x
  else
    let y := x.replay.foldl (fun y f =>
      emit y now { headFlit y 1 f.seq.toNat with cls := f.cls, sop := f.sop, eop := f.eop, area := f.area }) x
    { y with replays := y.replays + 1 }

/-- A data flit in order: its message bytes gathered, and at its end a packet (R427, R428). -/
def deliverFlit (x : Port) (f : Flit) : Port :=
  let l := (if f.sop then [] else x.assembling) ++ f.area
  let bank := if f.sop then none else x.bank
  let x := { x with ackSeq := f.seq, assembling := l, bank }
  if f.eop then { x with assembling := [], bank := none, rx := x.rx ++ [(parsePacket l, bank)] } else x

/-- A flit that is treated as bad (R425, R426). -/
def flitBad (f : Flit) : Bool := !f.crcOk || f.kind = 3 || f.cls = 3 || 2 < f.lw.toNat || f.resv ≠ 0

/-- A good flit taken by a port (R427). -/
def goodFlit (x : Port) (f : Flit) (now : Nat) : Port :=
  let x := if f.av then takeAck x f.ackseq else x
  let x := if f.nak then resendAll x now else x
  let x := { x with credO := x.credO + f.cro.toNat, credB := x.credB + f.crb.toNat, credM := x.credM + f.crm.toNat }
  let ahead := seqAhead f.seq (x.ackSeq + 1)
  if f.kind = 1 then
    if ahead = 0 then deliverFlit x f else if 2048 ≤ ahead then x else { x with nak := true }
  else if 1 ≤ ahead && ahead < 2048 then { x with nak := true } else x

/-- Lanes of the set that starts at `a` with `n` lanes. -/
def laneSet (a n : Nat) : BitVec 16 := BitVec.ofNat 16 ((2 ^ n - 1) * 2 ^ a)
/-- The widest aligned set that is healthy at both ends, the lowest of its width: width and first lane (R429). -/
def bestSet (own peer : BitVec 16) : Option (Nat × Nat) :=
  let both := own &&& peer
  [(0, 0), (1, 0), (1, 8), (2, 0), (2, 4), (2, 8), (2, 12)].find? (fun (w, a) =>
    both &&& laneSet a (widthLanes w) = laneSet a (widthLanes w))

/-- A lane belongs to the active set (R429). -/
def laneActive (x : Port) (lane : Nat) : Bool :=
  portRuns x && decide (x.first ≤ lane) && decide (lane < x.first + widthLanes (portWidth x))

/-- A port goes to TRAIN: data flits stop, the replay buffer is kept (R429); a link that was DOWN will offer its whole buffer. -/
def toTrain (x : Port) (now : Nat) : Port :=
  let y := if x.st = .down then { x with retO := Config.portBuffer 0, retB := Config.portBuffer 1, retM := Config.portBuffer 2 } else x
  { y with st := .train, since := now }

/-- A port goes DOWN: its replay buffer is discarded, and the link starts anew when it trains again (R429, R430). -/
def toDown (x : Port) (now : Nat) : Port :=
  { x with st := .down, since := now, replay := [], txSeq := 0, ackSeq := 0xFFF, nak := false, assembling := [], bank := none
           credO := 0, credB := 0, credM := 0, retO := 0, retB := 0, retM := 0 }

/-- IDLE_FLIT_TIMER (R427): a header leaves every 100 ns. -/
def idleTimer (s : State) (i : Nat) : State :=
  let x := portAt s i
  if !portRuns x || s.now < x.lastSent + 70 then s else setPort s i (emit x s.now (headFlit x 0 x.txSeq))

/-- LANE_FAULT (R429): a lane unhealthy at one end; of the active set it sends the port to TRAIN with a notice. -/
def laneFault (s : State) (i lane : Nat) (far : Bool) : State :=
  let x := portAt s i
  let m := ~~~(1#16 <<< lane)
  let y := if far then { x with peer := x.peer &&& m } else { x with lanes := x.lanes &&& m }
  if 12 ≤ i || 16 ≤ lane then s
  else if laneActive x lane then raiseNotice (setPort s i (toTrain y s.now)) 1 0 (some i) else setPort s i y

/-- LANE_RECOVERY (R429): a lane is healthy again; the port does not widen. -/
def laneRecovery (s : State) (i lane : Nat) (far : Bool) : State :=
  let x := portAt s i
  let m := 1#16 <<< lane
  if 12 ≤ i || 16 ≤ lane then s
  else setPort s i (if far then { x with peer := x.peer ||| m } else { x with lanes := x.lanes ||| m })

/-- A port goes DOWN with a notice, which names ACKSEQ as it was: the packets of its replay buffer are lost on this hop
(R430, R437). -/
def portDown (s : State) (i event : Nat) : State :=
  let t := raiseNotice (setPort s i { portAt s i with st := .down }) event 0 (some i)
  setPort t i (toDown (portAt t i) s.now)

/-- TRAIN_COMPLETE (R429): the masks are exchanged; the port takes the widest set and asks for replay, or goes DOWN. -/
def trainComplete (s : State) (i : Nat) (peer : BitVec 16) : State :=
  let x := portAt s i
  if x.st ≠ .train || x.since + usec 3 < s.now then s
  else match bestSet x.lanes peer with
    | none => portDown (setPort s i { x with peer }) i 2
    | some (w, a) =>
      let st : PortState := if w = 0 then .x16 else if w = 1 then .x8 else .x4
      let y := { x with st, first := a, peer, since := s.now, nak := true }
      setPort s i (emit y s.now (headFlit y 0 y.txSeq))

/-- TRAIN_TIMEOUT (R429, R430): 3 µs without agreement, or no aligned ×4 set healthy at both ends. -/
def trainTimeout (s : State) (i : Nat) : State :=
  let x := portAt s i
  if x.st ≠ .train || (decide (s.now < x.since + usec 3) && (bestSet x.lanes x.peer).isSome) then s else portDown s i 2

/-- PCTL_UP (R429): a DOWN port trains; a narrow one with a wider healthy set trains without a notice. -/
def pctlUp (s : State) (i : Nat) : State :=
  let x := portAt s i
  let wider := (x.st = .x8 || x.st = .x4) && (bestSet x.lanes x.peer).any (fun b => b.1 < portWidth x)
  if 12 ≤ i then s else if x.st = .down || wider then setPort s i (toTrain x s.now) else s

/-- PCTL_DIS (R429, R430, R437). -/
def pctlDis (s : State) (i : Nat) : State := if 12 ≤ i then s else portDown s i 3

/-- IDLE_FLIT_TIMER (R427), an event. -/
def execIdleFlitTimer (port : Nat) (s : State) : Out := .next (idleTimer s port)
/-- LANE_FAULT (R429), an event. -/
def execLaneFault (port lane : Nat) (far : Bool) (s : State) : Out := .next (laneFault s port lane far)
/-- LANE_RECOVERY (R429), an event. -/
def execLaneRecovery (port lane : Nat) (far : Bool) (s : State) : Out := .next (laneRecovery s port lane far)

end Sys2Proof.Machine
end

