-- ==== Sys2Proof/Machine/Route.lean ====
section
/-!
DEFINITION. The packet router (R430, R432 to R437): keys, destination entries, waiting for credits, bank swaps, end-to-end resending.
-/
namespace Sys2Proof.Machine

/-- A destination entry (R434). -/
def destEntry (b : RouteBank) (dest : Nat) : Nat := (tget b.dest dest 0).toNat
/-- A key is listed and valid for a port (R434, R435). -/
def keyListed (b : RouteBank) (port key : Nat) : Bool :=
  (upTo (64 * port) 64).any (fun k => let e := (tget b.keys k 0).toNat; bit e 31 && bits e 15 0 = key)
/-- An entry cannot be used: V = 0 or a reserved DPORT (R435). -/
def entryBad (e : Nat) : Bool := !bit e 31 || 12 ≤ bits e 3 0
/-- Ports by which a packet of a class can leave under an entry: DPORT first (R435). -/
def entryPorts (e cls : Nat) : List Nat :=
  bits e 3 0 :: (if cls = 1 then (upTo 0 12).filter (fun p => bit e (16 + p) && p ≠ bits e 3 0) else [])

/-- The port with the most credits of a class, the first in the list among equals (R435). -/
def bestPort (s : State) (cls : Nat) (ports : List Nat) : Option Nat :=
  ports.foldl (fun acc p => match acc with
    | none => some p
    | some q => if portCredits (portAt s q) cls < portCredits (portAt s p) cls then some p else acc) none

/-- The router's counters, 16 bits each (R451). -/
def countFabric (s : State) (f : Fabric → Fabric) : State := { s with fabric := f s.fabric }

/-- The event that performs a packet (R432); none for an OP that is not defined. -/
def packetEvent (p : Packet) : Option Instr :=
  match p.op.toNat with
  | 0x01 => some (.pktWrite p)
  | 0x02 => some (.rdreq p)
  | 0x03 => some (.rddata p)
  | 0x04 => some (.fillPacket p)
  | 0x05 => some (.spwr p)
  | 0x06 => some (.dack p)
  | 0x07 => some (.cdone p)
  | 0x08 => some (.segship p)
  | 0x09 => some (.segpart p)
  | 0x0A => some (.fixwr p)
  | 0x0B => some (.cship p)
  | 0x0C => some (.repack p)
  | 0x0D => some (.launchPacket p)
  | 0x0E => some (.startbar p)
  | 0x0F => some (.ldone p)
  | 0x10 => some (.trigPacket p)
  | 0x11 => some (.notice p)
  | 0x12 => some (.mwr p)
  | 0x13 => some (.mrd p)
  | 0x14 => some (.mrsp p)
  | 0x15 => some (.retire p)
  | 0x16 => some (.genmark p)
  | _ => none

/-- A packet whose OP, class or reserved fields its destination refuses (R432). -/
def packetBad (p : Packet) : Bool := (packetEvent p).isNone || opClass p.op.toNat ≠ some p.cls.toNat || p.resv

/-- A packet discarded and counted in BADPKT (R432). -/
def dropBad (s : State) : State := countFabric s (fun f => { f with badpkt := f.badpkt + 1 })

/-- A packet of this chip: its event comes next (R435). -/
def takeLocal (s : State) (p : Packet) : State :=
  let s := if p.op = 0x11 then
      { s with fabric := { s.fabric with sent := s.fabric.sent.filter (fun q => !(q.pkt.op = 0x11 && q.pkt.tag = p.tag && q.pkt.src = p.src)) } }
    else s
  if packetBad p then dropBad s
  else match packetEvent p with
    | some i => { s with agenda := .event i :: s.agenda }
    | none => s

/-- A packet of an ordered stream waits behind an earlier one of its port and class. -/
def behind (l : List Waiting) (w : Waiting) : Bool := w.pkt.cls ≠ 1 && l.any (fun x => x.port = w.port && x.pkt.cls = w.pkt.cls)

/-- The waiting packets tried in order (R428, R435): those that find credits leave. -/
def tryWaiting : List Waiting → List Waiting → State → List Waiting × State
  | kept, [], s => (kept, s)
  | kept, w :: r, s =>
    match (if behind kept w then none else bestPort s w.pkt.cls.toNat w.ports) with
    | some i => if canSend (portAt s i) w.pkt then tryWaiting kept r (sendBy s i w.pkt) else tryWaiting (kept ++ [w]) r s
    | none => tryWaiting (kept ++ [w]) r s

/-- Every waiting packet tried. -/
def pumpWaiting (s : State) : State :=
  let (l, s) := tryWaiting [] s.fabric.waiting s
  { s with fabric := { s.fabric with waiting := l } }

/-- A packet queued for the ports of its entry, and sent when it can leave (R435). -/
def enqueue (s : State) (p : Packet) (e : Nat) : State :=
  pumpWaiting { s with fabric := { s.fabric with waiting := s.fabric.waiting ++
    [{ pkt := p, port := bits e 3 0, ports := entryPorts e p.cls.toNat, since := s.now }] } }

/-- A packet routed by one bank (R435); `port` is where it arrived, none for one that this chip originates. -/
def routePacket (s : State) (p : Packet) (port : Option Nat) (b : RouteBank) : State :=
  let e := destEntry b p.dest.toNat
  if port.any (fun i => !keyListed b i p.pkey.toNat) then countFabric s (fun f => { f with dropkey := f.dropkey + 1 })
  else if entryBad e then countFabric s (fun f => { f with droproute := f.droproute + 1 })
  else if bit e 30 then takeLocal s p
  else if p.hop = 0 then countFabric s (fun f => { f with drophop := f.drophop + 1 })
  else enqueue s (if port.isSome then { p with hop := p.hop - 1 } else p) e

/-- PACKET_ROUTE (R435): the oldest packet of a port, or of this chip's own (12), is routed. -/
def packetRoute (s : State) (port : Nat) : State :=
  if port = 12 then
    match s.fabric.inq with
    | [] => s
    | p :: r => routePacket { s with fabric := { s.fabric with inq := r } } p none s.fabric.active
  else
    let x := portAt s port
    match x.rx with
    | [] => s
    | (p, b) :: r => routePacket (setPort s port (returnCredits { x with rx := r } p)) p (some port) (b.getD s.fabric.active)

/-- Waiting packets that a test picks, routed again by the active bank (R430, R435). -/
def rerouteWaiting (s : State) (pick : Waiting → Bool) : State :=
  let again := s.fabric.waiting.filter pick
  let s := { s with fabric := { s.fabric with waiting := s.fabric.waiting.filter (fun w => !pick w) } }
  let s := again.foldl (fun s w =>
    let e := destEntry s.fabric.active w.pkt.dest.toNat
    if entryBad e then countFabric s (fun f => { f with droproute := f.droproute + 1 })
    else if bit e 30 then takeLocal s w.pkt
    else { s with fabric := { s.fabric with waiting := s.fabric.waiting ++
      [{ pkt := w.pkt, port := bits e 3 0, ports := entryPorts e w.pkt.cls.toNat, since := s.now }] } }) s
  pumpWaiting s

/-- FLIT_RECEIVE (R425 to R428): a bad flit is discarded and asks for replay; a good one is taken. -/
def flitReceive (s : State) (port : Nat) (f : Flit) : State :=
  let x := portAt s port
  if 12 ≤ port || !portRuns x then s
  else if flitBad f then setPort s port { x with bad := x.bad + 1, nak := true }
  else pumpWaiting (setPort s port (goodFlit x f s.now))

/-- BULK_CREDIT_TIMEOUT (R435): after 2 µs a bulk packet waits for DPORT alone. -/
def bulkTimeout (s : State) (idx : Nat) : State :=
  let f := s.fabric
  match f.waiting[idx]? with
  | none => s
  | some w =>
    if w.pkt.cls ≠ 1 || s.now < w.since + usec 2 then s
    else pumpWaiting { s with fabric := { f with waiting := f.waiting.set idx { w with ports := [w.port] } } }

/-- RTSWAP (R436): the banks are swapped at one flit boundary; packets whose headers have arrived keep the old one. -/
def rtSwap (s : State) : State :=
  let f := s.fabric
  let old := f.active
  let keep (x : Port) : Port := { x with
    rx := x.rx.map (fun r => (r.1, some (r.2.getD old)))
    bank := if x.assembling.isEmpty then x.bank else some (x.bank.getD old) }
  let s := { s with fabric := { f with ports := tmap (fun _ x => keep x) f.ports, active := f.shadow, swapping := false } }
  rerouteWaiting s (fun w => w.pkt.cls ≠ 1 && (portAt s w.port).st = .down)

/-- A packet that none of three attempts has delivered (R433, R437): a copy stops with SUB 0x30, a fill counts as discarded; a replica's
packet stays open until its member fails (R450). -/
def sendFailed (s : State) (idx : Nat) (p : SentPkt) : State :=
  let drop (s : State) : State := { s with fabric := { s.fabric with sent := s.fabric.sent.eraseIdx idx } }
  if p.pkt.op = 0x11 then countFabric (drop s) (fun f => { f with nlost := f.nlost + 1 })
  else
    let tell (s : State) : State := raiseNotice s 4 p.pkt.dest.toNat none
    match p.who with
    | .copy i =>
      let off := match tfind s.copies i with
        | some c => match c.tags.find? (fun t => t.1 = p.pkt.tag.toNat) with
          | some t => (unitAt c t.2).1
          | none => 0
        | none => 0
      tell (stopCopy (drop s) i 0x30 off)
    | .fill gang g q => tell (updItem (drop s) gang g q (fun t => { t with aborted := true }))
    | .replica _ _ => tell { s with fabric := { s.fabric with sent := s.fabric.sent.set idx { p with tries := 4 } } }
    | _ => tell (drop s)

/-- RESEND_TIMEOUT (R433): no DACK within 100 µs. -/
def resendTimeout (s : State) (idx : Nat) : State :=
  match s.fabric.sent[idx]? with
  | none => s
  | some p =>
    if s.now < p.sentAt + usec 100 || 4 ≤ p.tries then s
    else if p.tries < 3 then
      { s with fabric := { s.fabric with
        inq := s.fabric.inq ++ [p.pkt], sent := s.fabric.sent.set idx { p with sentAt := s.now, tries := p.tries + 1 } } }
    else sendFailed s idx p

/-- PERFORMED_TAG_EXPIRY (R433): a tag is forgotten after 1 ms. -/
def tagExpiry (s : State) (idx : Nat) : State :=
  match s.fabric.performed[idx]? with
  | none => s
  | some (_, _, t, _) => if s.now < t + usec 1000 then s else { s with fabric := { s.fabric with performed := s.fabric.performed.eraseIdx idx } }

/-- A link that trains or goes DOWN moves packets: those that wait for it are routed again (R430). -/
def afterLink (s : State) (port : Nat) : State :=
  if (portAt s port).st = .down then rerouteWaiting s (fun w => w.ports.contains port) else pumpWaiting s

/-- FLIT_RECEIVE (R427), an event. -/
def execFlitReceive (port : Nat) (flit : Flit) (s : State) : Out := .next (flitReceive s port flit)
/-- TRAIN_COMPLETE (R429), an event. -/
def execTrainComplete (port : Nat) (peer : BitVec 16) (s : State) : Out := .next (afterLink (trainComplete s port peer) port)
/-- TRAIN_TIMEOUT (R429), an event. -/
def execTrainTimeout (port : Nat) (s : State) : Out := .next (afterLink (trainTimeout s port) port)
/-- PCTL_UP (R429), an event: a write of PCTL.UP. -/
def execPctlUp (port : Nat) (s : State) : Out := .next (pctlUp s port)
/-- PCTL_DIS (R429), an event: a write of PCTL.DIS. -/
def execPctlDis (port : Nat) (s : State) : Out := .next (afterLink (pctlDis s port) port)
/-- PACKET_ROUTE (R435), an event. -/
def execPacketRoute (port : Nat) (s : State) : Out := .next (packetRoute s port)
/-- BULK_CREDIT_TIMEOUT (R435), an event. -/
def execBulkCreditTimeout (idx : Nat) (s : State) : Out := .next (bulkTimeout s idx)
/-- RESEND_TIMEOUT (R433), an event. -/
def execResendTimeout (idx : Nat) (s : State) : Out := .next (resendTimeout s idx)
/-- PERFORMED_TAG_EXPIRY (R433), an event. -/
def execPerformedTagExpiry (idx : Nat) (s : State) : Out := .next (tagExpiry s idx)
/-- RTSWAP (R436), an event. -/
def execRtswap (s : State) : Out := .next (rtSwap s)

end Sys2Proof.Machine
end

