-- ==== Sys2Proof/Machine/Peers.lean ====
section
/-!
DEFINITION. Packets between chips performed (R433, R437 to R440, R444 to R446, R451): remote copies and fills, acknowledgements, launches,
triggers and notices. The layouts of AUX that the spec leaves open are those of Copy.lean and Send.lean.
-/
namespace Sys2Proof.Machine

/-- The DACK status of an ordered packet performed before, if it was (R433). -/
def performedStatus (s : State) (p : Packet) : Option Nat :=
  if p.cls ≠ 0 || !opAcked p.op.toNat then none
  else (s.fabric.performed.find? (fun x => x.1 = p.src.toNat && x.2.1 = p.tag.toNat)).map (fun x => x.2.2.2)

/-- The same packet waits to be performed. -/
def isPending (s : State) (p : Packet) : Bool := s.fabric.pending.any (fun q => q.src = p.src && q.tag = p.tag && q.op = p.op)

/-- A packet performed: refused ones are dropped and counted (R432, R451), a duplicate is acknowledged again (R433). -/
def accept (op : Nat) (f : State → Packet → State) (s : State) (p : Packet) : State :=
  if p.op.toNat ≠ op || packetBad p then dropBad s
  else if p.cls = 2 && p.pkey.toNat ≠ mpkey s then countFabric s (fun f => { f with dropkey := f.dropkey + 1 })
  else match performedStatus s p with
    | some st => sendDack s p st
    | none => f s p

/-- A packet waits to be performed (it stays unacknowledged). -/
def pend (s : State) (p : Packet) : State :=
  if isPending s p then s else { s with fabric := { s.fabric with pending := s.fabric.pending ++ [p] } }

/-- A packet is performed and acknowledged with a status (R433). -/
def settle (s : State) (p : Packet) (status : Nat) : State :=
  sendDack { s with fabric := { s.fabric with
    pending := s.fabric.pending.filter (fun q => !(q.src = p.src && q.tag = p.tag && q.op = p.op)) } } p status

/-- The copy number of a remote copy's packet (R439). -/
def auxCid (p : Packet) : Nat := bits p.aux.toNat 15 0
/-- The die that a remote copy's packet names (R439). -/
def auxDie (p : Packet) : Nat := bits p.aux.toNat 17 16
/-- The launch domain of a remote copy's packet. -/
def auxRgrp (p : Packet) : Nat := bits p.aux.toNat 25 18
/-- A request to read. -/
def auxRead (p : Packet) : Bool := bit p.aux.toNat 26
/-- The length that a remote copy's packet names (R439). -/
def auxLen (p : Packet) : Nat := bits p.aux.toNat 63 32

/-- This chip's part of a replicated launch of a domain, once it has its cohort scratchpads (R445). -/
def domainLaunch (s : State) (rgrp : Nat) : Option (Nat × Launch) :=
  s.launches.find? (fun e => pktRep e.2.pkt && pktRgrp e.2.pkt = rgrp && e.2.phase ≠ .queued)

/-- The level at which a peer's access is checked: its launch's. -/
def peerLevel (s : State) (rgrp : Nat) : Level := ((domainLaunch s rgrp).map (fun e => pktLevel e.2.pkt)).getD .user

/-- A peer's access meets a page that the host owns: migration begins (R385). -/
def askDevice (s : State) (asid vpn : Nat) : State :=
  match pageLeaf s asid vpn with
  | some l => if leafHost l then beginToDevice s asid vpn (leafLpn l) else s
  | none => s

/-- A copy set published as one publication (R439); none while its intent finds no segment. -/
def publishSet (s : State) (wid : Nat) (c : CopySet) : Option State :=
  if c.recs.isEmpty then some s
  else (publishRecs s wid c.asid (c.recs.map (fun r => (r.sub, r.ck, r.pos.map (fun (j, p) => (j, 0, p))))) 0 false
    (some (c.src, c.cid)) (writerAt s wid).tick).map (fun (id, s) => bindRequests s wid c.asid id)

/-- A writer's copy sets. -/
def setSets (s : State) (wid : Nat) (l : List CopySet) : State := setWriter s wid { writerAt s wid with sets := l }

/-- The sectors that a WRITE covers, its bytes laid over their base versions (R290, R438). -/
def writeSectors (s : State) (wid asid va : Nat) (ls : List (Nat × DWord)) (bs : List Byte) : List (Nat × Nat × SectorRead) :=
  (sectorsOf va bs.length).map (fun a =>
    let l := leafIn ls a
    let key := keyOf l a
    let (off, part) := sectorPart va bs a
    let r : SectorRead := if part.length = 32 then { data := part, bad := false, gen := 0 }
      else
        let b := baseSector s wid (writerDie wid) asid key
        { b with data := b.data.take off ++ part ++ b.data.drop (off + part.length) }
    (leafCk l, key, r))

/-- Sectors appended block by block, their positions with the kind of their page, or the stack that has no segment (R292). -/
def appendSectors (s : State) (wid asid : Nat) :
    List (Nat × List (Nat × SectorRead)) → Except Nat (List (Nat × Nat × Nat) × State)
  | [] => .ok ([], s)
  | (ck, b) :: r =>
    match appendBlock s wid asid ck b with
    | none => .error (((b.head?.map Prod.fst).getD 0) / 8 % 8)
    | some (ps, s) => (appendSectors s wid asid r).map (fun (l, s) => (ps.map (fun p => (ck, p.1, p.2)) ++ l, s))

/-- Sub-pages claimed for a writer in turn; the answer says whether it owns them all (R304, R305). -/
def claimAll (s : State) (wid asid : Nat) (subs : List Nat) : Bool × State :=
  subs.foldl (fun (ok, s) k => let (mine, s) := claim s wid asid k; (ok && mine, s)) (true, s)

/-- The state in which the dirty filters of migrations have seen writes to some sectors (R389). -/
def markDirty (s : State) (asid : Nat) (keys : List Nat) : State :=
  { s with migs := s.migs.map (fun j => { j with
    dirty := nodup ((keys.filter (fun k => j.asid = asid && j.lpn = k / 2048)).map (· % 2048) ++ j.dirty) }) }

/-- WRITE performed (R438, R439): appended by the ingress writer into the copy's set. -/
def performWrite (s : State) (p : Packet) : State :=
  let wid := 36 + auxDie p
  let asid := p.asid.toNat
  let va := p.addr.toNat
  match translateNow s { asid, level := peerLevel s (auxRgrp p), write := true } va p.payload.length with
  | .fault code _ => settle s p code
  | .miss vpn => pend (askDevice s asid vpn) p
  | .ok ls =>
    let secs := writeSectors s wid asid va ls p.payload
    let keys := secs.map (fun x => x.2.1)
    let subs := nodup (keys.map (· / 128))
    let mineSet (c : CopySet) : Bool := c.src = p.src.toNat && c.cid = auxCid p && c.asid = asid
    let old := (writerAt s wid).sets.find? mineSet
    if old.isNone && 32 ≤ (writerAt s wid).sets.length then s
    else
      let (ok, s) := claimAll s wid asid subs
      if !ok then pend s p
      else
        let set : CopySet := old.getD { src := p.src.toNat, cid := auxCid p, asid, recs := [], last := s.now }
        let full := 257 < (nodup (set.recs.map PendRec.sub ++ subs)).length
        match (if full then publishSet s wid set else some s) with
        | none => pend (starve s ((writerAt s wid).iseq % 8) wid) p
        | some s =>
          let set := if full then { set with recs := [] } else set
          let blocks := (nodup (keys.map (· / 8))).map (fun b =>
            let l := secs.filter (fun x => x.2.1 / 8 = b)
            (((l.head?).map Prod.fst).getD 0, l.map Prod.snd))
          match appendSectors s wid asid blocks with
          | .error stk => pend (starve s stk wid) p
          | .ok (ps, s) =>
            let recs := ps.foldl (fun l x => pendAdd l asid x.1 s.now 0 [x.2]) set.recs
            let s := setSets s wid ({ set with recs, last := s.now } :: (writerAt s wid).sets.filter (fun c => !mineSet c))
            settle (markDirty s asid keys) p 0

/-- A copy's answer to a read (R438): RDDATA at the same address for the same copy. -/
def sendData (s : State) (p : Packet) (bs : List Byte) : State :=
  (sendPacket s 0x03 p.src.toNat p.pkey.toNat p.asid.toNat p.addr p.aux bs .other).2

/-- RDREQ performed (R438): answered from the published state. -/
def performRead (s : State) (p : Packet) : State :=
  let asid := p.asid.toNat
  let va := p.addr.toNat
  match translateNow s { asid, level := peerLevel s (auxRgrp p) } va (auxLen p) with
  | .fault code _ => settle s p code
  | .miss vpn => pend (askDevice s asid vpn) p
  | .ok ls =>
    let rs := (sectorsOf va (auxLen p)).map (fun a => publishedSector s asid (keyOf (leafIn ls a) a))
    if rs.any SectorRead.bad then settle s p 0x0E
    else sendData (settle s p 0) p (((rs.flatMap SectorRead.data).drop (va % 32)).take (auxLen p))

/-- SPWR performed (R438): the cohort's scratchpad written, or read. -/
def performSpad (s : State) (p : Packet) : State :=
  let die := auxDie p
  match domainLaunch s (auxRgrp p) with
  | none => settle s p 0x31
  | some (id, _) =>
    if (spadOf s die id).isNone then settle s p 0x31
    else
      let l := dieLocal s die id
      let a := p.addr.toNat
      let n := if auxRead p then auxLen p else p.payload.length
      if l.size < a + n then settle s p 0x0C
      else if auxRead p then
        if (absentIn l a n).isSome then pend s p
        else if badHit l a n then settle s p 0x0E
        else sendData (settle s p 0) p (mread l.mem a n)
      else settle (setDieLocal s die id (writeLocal l a p.payload false)) p 0

/-- RDDATA performed (R438): the bytes of one unit of the copy that asked. -/
def performData (s : State) (p : Packet) : State :=
  match s.copies.find? (fun c => c.2.src.isPeer && c.2.cid = auxCid p && !c.2.stopped) with
  | none => settle s p 0
  | some (i, c) =>
    match (upTo 0 (copyUnits c)).find? (fun u => c.src.at + (unitAt c u).1 = p.addr.toNat) with
    | some u => settle (peerData s i u p.payload) p 0
    | none => settle s p 0

/-- CDONE performed (R438, R439): the copy set is published, and the acknowledgement follows its publication on every die. -/
def performDone (s : State) (p : Packet) : State :=
  let wid := 36 + auxDie p
  let asid := p.asid.toNat
  let mine (c : CopySet) : Bool := c.src = p.src.toNat && c.cid = auxCid p && c.asid = asid
  match (writerAt s wid).sets.find? mine with
  | some c =>
    match publishSet s wid c with
    | none => pend (starve s ((writerAt s wid).iseq % 8) wid) p
    | some s => pend (setSets s wid ((writerAt s wid).sets.filter (fun c => !mine c))) p
  | none =>
    if (writerAt s wid).pubs.any (fun q => q.copy = some (p.src.toNat, auxCid p) && !pubDone s wid q 4) then pend s p
    else settle s p 0

/-- FILL performed (R221, R440): queued as a fill of the cohort's scratchpad; without an allocation it is discarded. -/
def performFillPacket (s : State) (p : Packet) : State :=
  if s.fillq.any (fun f => f.pkt.any (fun q => q.src = p.src && q.tag = p.tag)) then s
  else
    let a := p.addr.toNat
    let rgrp := bits p.aux.toNat 15 8
    let id := match s.launches.find? (fun e => pktRep e.2.pkt && pktRgrp e.2.pkt = rgrp && pktSgen e.2.pkt = bits p.aux.toNat 23 16 &&
        e.2.phase ≠ .queued) with
      | some e => e.1
      | none => 0
    pumpFills { s with fillq := s.fillq ++ [{ target := .spad (bits a 54 53) id, off := bits a 52 0, word := headWord p.payload, pkt := some p }] }

/-- The next packet of a remote store once every unit is acknowledged: CDONE (R438, R441). -/
def closeCopy (s : State) (i : Nat) : State :=
  match tfind s.copies i with
  | none => s
  | some c =>
    if c.dst.isPeer && c.tags.isEmpty && c.wrote.length = copyUnits c && c.closing = 0 && !c.stopped then
      let s := (copyPacket s i c 0x07 c.dst.at c.len false []).2
      setCopy s i { c with closing := 1 }
    else s

/-- An acknowledgement for a remote copy (R234, R438). -/
def copyAcked (s : State) (i : Nat) (q : Packet) (status : Nat) : State :=
  match tfind s.copies i with
  | none => s
  | some c =>
    let u := (c.tags.find? (fun t => t.1 = q.tag.toNat)).map Prod.snd
    if status ≠ 0 then stopCopy s i status ((u.map (fun u => (unitAt c u).1)).getD 0)
    else if q.op = 0x07 then setCopy s i { c with closing := 2, stopped := true }
    else if c.src.isPeer then s
    else closeCopy (setCopy s i { c with tags := c.tags.filter (fun t => t.1 ≠ q.tag.toNat) }) i

/-- An acknowledgement for a replica group (R374, R449, R450). -/
def replicaAcked (s : State) (g m : Nat) (q : Packet) : State :=
  let r := repOf s g
  let s := setRep s g { r with lastAck := tput r.lastAck m s.now }
  let s := if q.op = 0x08 then
      let k := posStk q.addr.toNat
      let six := posSix q.addr.toNat
      let x := segAt s k six
      setSeg s k six { x with ships := x.ships - 1 }
    else s
  answerMarks (pumpShips s)

/-- DACK performed (R433): the packet it names is acknowledged at its source. -/
def performAck (s : State) (p : Packet) : State :=
  let mine (q : SentPkt) : Bool := q.pkt.tag = p.tag && q.pkt.dest = p.src && opAcked q.pkt.op.toNat
  match s.fabric.sent.find? mine with
  | none => s
  | some q =>
    let s := { s with fabric := { s.fabric with sent := s.fabric.sent.erase q } }
    let status := bits p.aux.toNat 7 0
    match q.who with
    | .copy i => copyAcked s i q.pkt status
    | .fill gang g x =>
      pumpFills (if status = 0 then s else updItem s gang g x (fun t => { t with aborted := true }))
    | .replica g m => replicaAcked s g m q.pkt
    | _ => s

/-- COPY_SET_TIMEOUT (R439): a set that has received nothing for 1 ms is discarded with its sectors. -/
def copySetTimeout (s : State) (die idx : Nat) : State :=
  let wid := 36 + die
  match (writerAt s wid).sets[idx]? with
  | none => s
  | some c => if s.now < c.last + usec 1000 then s else setSets s wid ((writerAt s wid).sets.eraseIdx idx)

/-- WRITE (R438), an event. -/
def execPktWrite (p : Packet) (s : State) : Out := .next (accept 0x01 performWrite s p)
/-- RDREQ (R438), an event. -/
def execRdreq (p : Packet) (s : State) : Out := .next (accept 0x02 performRead s p)
/-- RDDATA (R438), an event. -/
def execRddata (p : Packet) (s : State) : Out := .next (accept 0x03 performData s p)
/-- FILL_PACKET (R440), an event. -/
def execFillPacket (p : Packet) (s : State) : Out := .next (accept 0x04 performFillPacket s p)
/-- SPWR (R438), an event. -/
def execSpwr (p : Packet) (s : State) : Out := .next (accept 0x05 performSpad s p)
/-- DACK (R433), an event. -/
def execDack (p : Packet) (s : State) : Out := .next (accept 0x06 performAck s p)
/-- CDONE (R438), an event. -/
def execCdone (p : Packet) (s : State) : Out := .next (accept 0x07 performDone s p)
/-- LAUNCH_PACKET (R444), an event. -/
def execLaunchPacket (p : Packet) (s : State) : Out := .next (accept 0x0D (fun s p => settle (launchArrives s p) p 0) s p)
/-- STARTBAR (R445), an event. -/
def execStartbar (p : Packet) (s : State) : Out := .next (accept 0x0E (fun s p => settle (barArrives s p) p 0) s p)
/-- LDONE (R446), an event. -/
def execLdone (p : Packet) (s : State) : Out := .next (accept 0x0F doneArrives s p)
/-- TRIG_PACKET (R411, R451), an event. -/
def execTrigPacket (p : Packet) (s : State) : Out := .next (accept 0x10 (fun s p => fireCapture s 2 (p.aux.setWidth 16)) s p)
/-- NOTICE (R437), an event: it reaches the manager endpoint. -/
def execNotice (p : Packet) (s : State) : Out :=
  .next (accept 0x11 (fun s p => { s with fabric := { s.fabric with notices := s.fabric.notices ++ [p] } }) s p)
/-- MRSP (R432, R451), an event. -/
def execMrsp (p : Packet) (s : State) : Out :=
  .next (accept 0x14 (fun s p => { s with fabric := { s.fabric with responses := s.fabric.responses ++ [p] } }) s p)
/-- COPY_SET_TIMEOUT (R439), an event. -/
def execCopySetTimeout (die idx : Nat) (s : State) : Out := .next (copySetTimeout s die idx)

end Sys2Proof.Machine
end

