-- ==== Sys2Proof/Machine/Protect.lean ====
section
/-!
DEFINITION. Replica and parity groups (R447 to R450, R452, R453): what a holder or a spare does with what is shipped to it, generation
marks, failures of members, and the group table's commands. Pieces of segments carry their position in ADDR and their poison marks in AUX.
-/
namespace Sys2Proof.Machine

/-- Product in GF(2^8) with polynomial 0x11D (R449): `n` bits of the second factor remain. -/
def gfMulFrom (a b : Nat) : Nat → Nat
  | 0 => 0
  | n + 1 =>
    let r := gfMulFrom a b n
    if bit b n then
      -- a · x^n reduced
      r ^^^ ((upTo 0 n).foldl (fun v _ => if bit v 7 then (2 * v) % 256 ^^^ 0x1D else 2 * v) a)
    else r
/-- Product in GF(2^8) (R449). -/
def gfMul (a b : Nat) : Nat := gfMulFrom a b 8
/-- Powers in GF(2^8). -/
def gfPow (a : Nat) : Nat → Nat
  | 0 => 1
  | n + 1 => gfMul a (gfPow a n)
/-- Inverse of a non-zero element. -/
def gfInv (a : Nat) : Nat := gfPow a 254

/-- The coefficient with which member `j`'s image enters what member `self` holds (R449), or what a spare in its place decodes from the
survivors (R450). -/
def termCoef (e self j : Nat) : Nat :=
  let g := gfPow 2
  if self = 8 then (if j < 8 then 1 else 0)
  else if self = 9 then (if j < 8 then g j else 0)
  else match (upTo 0 (rgtK e)).filter (fun y => y ≠ self && rgtFailed e y) with
    | [] =>
      if !rgtFailed e 8 then (if j = 9 then 0 else 1)
      else if j < 8 then gfMul (g j) (gfInv (g self)) else if j = 9 then gfInv (g self) else 0
    | y :: _ =>
      let d := gfInv (g y ^^^ g self)
      if j < 8 then gfMul (g y ^^^ g j) d else if j = 8 then gfMul (g y) d else d

/-- The group of a packet that this chip holds for, and the member that sent it. -/
def groupOf (s : State) (p : Packet) : Option (Nat × Nat) :=
  (upTo 0 16).findSome? (fun g =>
    let e := rgtEntry s g
    if !rgtValid e || rgtKey e ≠ p.pkey.toNat then none
    else ((rgtMembers e).find? (fun j => memberEnd e j = p.src.toNat)).map (fun j => (g, j)))

/-- This chip is filled as a spare. -/
def isSpare (s : State) (g : Nat) : Bool := (repOf s g).spare.any (fun x => x.1 = rgtSelf (rgtEntry s g))

/-- Sectors stored as they are, with their poison (R448, R453). -/
def storePiece (s : State) (pos mask : Nat) (bs : List Byte) : State :=
  let sec := posSector pos
  let n := bs.length / 32
  let bad := ((upTo 0 n).filter (bit mask)).map (fun i => (sec + i, true))
  { s with log := mwrite s.log (sec * 32) bs
           badLog := bad ++ s.badLog.filter (fun b => !(decide (sec ≤ b.1) && decide (b.1 < sec + n))) }

/-- A term added to what this chip holds; a poisoned sector poisons that of the result (R449, R453). -/
def addTerm (s : State) (c pos mask : Nat) (bs : List Byte) : State :=
  let sec := posSector pos
  let n := bs.length / 32
  let old := mread s.log (sec * 32) bs.length
  let new := (numbered 0 old).map (fun (i, o) => o ^^^ BitVec.ofNat 8 (gfMul (nth bs i 0).toNat c))
  let bad := ((upTo 0 n).filter (bit mask)).map (fun i => (sec + i, true))
  { s with log := mwrite s.log (sec * 32) new, badLog := bad ++ s.badLog.filter (fun b => !bad.contains b) }

/-- A piece of a segment at this chip (R448 to R450, R453): a mirror stores it, a parity holder or a spare adds its term once. -/
def takePiece (s : State) (p : Packet) : State :=
  match groupOf s p with
  | none => s
  | some (g, j) =>
    let e := rgtEntry s g
    let pos := p.addr.toNat
    if rgtMode e = 1 then (if 8 ≤ rgtSelf e || isSpare s g then storePiece s pos p.aux.toNat p.payload else s)
    else if rgtSelf e < 8 && !isSpare s g then s
    else
      let r := repOf s g
      if r.terms.contains (j, posSector pos) then s
      else
        let s := setRep s g { r with terms := (j, posSector pos) :: r.terms }
        addTerm s (termCoef e (rgtSelf e) j) pos p.aux.toNat p.payload

/-- RETIRE (R449, R452): the term of an old image removed. -/
def retirePiece (s : State) (p : Packet) : State :=
  match groupOf s p with
  | none => s
  | some (g, j) =>
    let e := rgtEntry s g
    let r := repOf s g
    let t := (j, posSector p.addr.toNat)
    if rgtMode e ≠ 2 || !r.terms.contains t then s
    else
      let s := setRep s g { r with terms := r.terms.filter (· ≠ t) }
      addTerm s (termCoef e (rgtSelf e) j) p.addr.toNat 0 p.payload

/-- The fixed region that this chip holds for a member: its own in a mirror, an image in a parity group (R448, R449). -/
def heldFixed (s : State) (g j : Nat) : Memory :=
  if rgtMode (rgtEntry s g) = 1 then s.fixed else tget (repOf s g).images j []
/-- That region written. -/
def setHeld (s : State) (g j : Nat) (m : Memory) : State :=
  if rgtMode (rgtEntry s g) = 1 then { s with fixed := m }
  else
    let r := repOf s g
    setRep s g { r with images := tput r.images j m }

/-- This chip keeps copies for a group: a holder, or a spare. -/
def keepsFor (s : State) (g : Nat) : Bool := 8 ≤ rgtSelf (rgtEntry s g) || isSpare s g

/-- FIXWR (R448, R449). -/
def takeFixed (s : State) (p : Packet) : State :=
  match groupOf s p with
  | none => s
  | some (g, j) => if keepsFor s g then setHeld s g j (mwrite (heldFixed s g j) p.addr.toNat p.payload) else s

/-- SEQ of an ASID in a held root table (R302). -/
def heldSeq (s : State) (g j asid : Nat) : Nat := ofBytes (mread (heldFixed s g j) (s.boot.rootOff + 16 * asid + 10) 6)

/-- A commit record's fields SEQ, ROOT and ASID (R315). -/
def recordSeq (r : BitVec 512) : Nat := bits r.toNat 479 432
/-- ROOT of a commit record (R315). -/
def recordRoot (r : BitVec 512) : Nat := bits r.toNat 431 392
/-- ASID of a commit record (R315). -/
def recordAsid (r : BitVec 512) : Nat := bits r.toNat 351 340

/-- REPACK of a commit record (R448): ASID and, in ADDR, SEQ. -/
def sendRepack (s : State) (g j : Nat) (r : BitVec 512) : State :=
  sendRep s g j (memberEnd (rgtEntry s g) j) 0x0C (recordAsid r) (recordSeq r) 0 []

/-- Received commit records applied in SEQ order per ASID, each answered by REPACK (R448); `n` bounds the records. -/
def applyRecords (s : State) (g : Nat) : Nat → State
  | 0 => s
  | n + 1 =>
    let r := repOf s g
    let next (x : Nat × Nat × BitVec 512) : Bool := recordSeq x.2.2 ≤ heldSeq s g x.1 (recordAsid x.2.2) + 1
    match r.records.find? next with
    | none => s
    | some (j, pos, rec) =>
      let s := setRep s g { r with records := r.records.erase (j, pos, rec) }
      let s := if recordSeq rec = heldSeq s g j (recordAsid rec) + 1 then
          setHeld s g j (mwrite (heldFixed s g j) (s.boot.rootOff + 16 * recordAsid rec)
            (rootBytes { root := recordRoot rec, crec := pos, seq := recordSeq rec }))
        else s
      applyRecords (sendRepack s g j rec) g n

/-- CSHIP (R448, R449): the record stored at its place and applied in its turn. -/
def takeRecord (s : State) (p : Packet) : State :=
  match groupOf s p with
  | none => s
  | some (g, j) =>
    if !keepsFor s g then s
    else
      let rec' := BitVec.ofNat 512 (ofBytes p.payload)
      let s := if rgtMode (rgtEntry s g) = 1 then storePiece s p.addr.toNat 0 p.payload else s
      let r := repOf s g
      applyRecords (setRep s g { r with records := r.records ++ [(j, p.addr.toNat, rec')] }) g (r.records.length + 1)

/-- LCGEN at a holder: the least of the newest generations that the surviving data chips have answered (R449). -/
def commonGen (s : State) (g : Nat) : Nat :=
  let e := rgtEntry s g
  let l := ((upTo 0 (rgtK e)).filter (fun j => !rgtFailed e j)).map (fun j => tget (repOf s g).answered j 0)
  l.foldl min (l.headD 0)

/-- REPACK (R316, R448, R449): a commit record acknowledged at its data chip, or a generation answered at a holder. -/
def takeRepack (s : State) (p : Packet) : State :=
  match groupOf s p with
  | none => s
  | some (g, m) =>
    let r := repOf s g
    let s := setRep s g { r with lastAck := tput r.lastAck m s.now }
    if bit p.aux.toNat 32 then
      let r := repOf s g
      let s := setRep s g { r with answered := tput r.answered m (max (tget r.answered m 0) (bits p.aux.toNat 31 0)) }
      setRgt s g 415 384 (commonGen s g)
    else
      let ack (j : ShipJob) : ShipJob := if j.asid = p.asid.toNat && j.seq = p.addr.toNat then { j with waits := j.waits.filter (· ≠ (g, m)) } else j
      pumpShips { s with fabric := { s.fabric with ships := (s.fabric.ships.map ack).filter (fun j => !j.waits.isEmpty) } }

/-- GENMARK (R449): answered once what was shipped before it is acknowledged; AUX also brings the holder's LCGEN. -/
def takeMark (s : State) (p : Packet) : State :=
  match groupOf s p with
  | none => s
  | some (g, _) =>
    let gen := bits p.aux.toNat 31 0
    let r := repOf s g
    let tags := (s.fabric.sent.filter (fun q => match q.who with
      | .replica h _ => h = g
      | _ => false)).map (fun q => q.pkt.tag.toNat)
    let s := setRep s g { r with mark := some (gen, tags) }
    answerMarks (setRgt (setRgt s g 383 352 gen) g 415 384 (max (rgtLcgen (rgtEntry s g)) (bits p.aux.toNat 63 32)))

/-- GENMARK_TIMER (R449): every 1 ms holder P marks a generation at every surviving data chip. -/
def markTimer (s : State) (g : Nat) : State :=
  let e := rgtEntry s g
  let r := repOf s g
  if 16 ≤ g || !rgtLive e || rgtMode e ≠ 2 || rgtSelf e ≠ 8 || decide (s.now < r.lastMark + usec 1000) then s
  else
    let gen := (rgtPgen e + 1) % 2 ^ 32
    let s := setRgt (setRep s g { r with lastMark := s.now }) g 383 352 gen
    ((upTo 0 (rgtK e)).filter (fun j => !rgtFailed e j)).foldl (fun s j =>
      sendRep s g j (memberEnd e j) 0x16 0 0 (gen + rgtLcgen e * 2 ^ 32) []) s

/-- What this chip waits for of a member is waited for no more (R450). -/
def forgetMember (s : State) (g m : Nat) : State :=
  let mine (q : SentPkt) : Bool := q.who = .replica g m
  let segs := s.fabric.sent.filter (fun q => mine q && q.pkt.op = 0x08)
  let s := segs.foldl (fun s q =>
    let k := posStk q.pkt.addr.toNat
    let six := posSix q.pkt.addr.toNat
    let x := segAt s k six
    setSeg s k six { x with ships := x.ships - 1 }) s
  let f := s.fabric
  { s with fabric := { f with
    sent := f.sent.filter (fun q => !mine q)
    ships := (f.ships.map (fun j => { j with waits := j.waits.filter (· ≠ (g, m)) })).filter (fun j => !j.waits.isEmpty) } }

/-- How many members have failed (R450). -/
def failedCount (e : Nat) : Nat := ((rgtMembers e).filter (rgtFailed e)).length

/-- A 2 KiB block of the fixed region that holds something, for a spare. -/
def fixedBlocks (s : State) : List Nat := nodup (s.fixed.map (fun c => c.1 / 2048))

/-- What this chip holds, shipped to the spare that takes member `m`'s place (R450). -/
def fillSpare (s : State) (g m ep : Nat) : State :=
  let segs := s.stks.flatMap (fun k => (k.2.segs.filter (fun x => x.2.st ≠ .free && x.2.st ≠ .open && x.2.st ≠ .lost)).map (fun x => (k.1, x.1)))
  let s := segs.foldl (fun s (k, six) =>
    let x := segAt s k six
    (shipPieces (mkPos k six 0 0) segSectors segSectors).foldl (fun s (q, n) =>
      sendRep s g m ep 0x08 0 q (poisonMask s (posSector q) n) (sectorsBytes s (posSector q) n))
      (setSeg s k six { x with ships := x.ships + 2048 })) s
  (fixedBlocks s).foldl (fun s b => sendRep s g m ep 0x0A 0 (2048 * b) 0 (mread s.fixed (2048 * b) 2048)) s

/-- A failure that strikes while a spare is filling (R450): what the spare has is decoded anew with the remaining parity, and the
survivors ship to it again. -/
def restartFill (s : State) (g : Nat) : State :=
  match (repOf s g).spare with
  | none => s
  | some (m, ep) =>
    if rgtState (rgtEntry s g) ≠ 2 then s
    else if rgtSelf (rgtEntry s g) = m then { setRep s g { repOf s g with terms := [] } with log := [], badLog := [] }
    else fillSpare (forgetMember s g m) g m ep

/-- A member fails (R450): its FMASK bit, a notice, and LOST when more than M have failed. -/
def failMember (s : State) (g m : Nat) : State :=
  let e := rgtEntry s g
  if 16 ≤ g || !rgtValid e || !(rgtMembers e).contains m || rgtFailed e m then s
  else
    let s := forgetMember (setRgt s g (22 + m) (22 + m) 1) g m
    let s := raiseNotice s 6 (memberEnd e m) none
    let e := rgtEntry s g
    if failedCount e ≤ rgtM e then restartFill (answerMarks (pumpShips s)) g
    else pumpShips ((rgtMembers e).foldl (fun s j => forgetMember s g j) (setRgt s g 17 15 3))

/-- REPLICA_ACK_TIMEOUT (R450): nothing acknowledged by a surviving member for 1 ms while something waits for it. -/
def ackTimeout (s : State) (g m : Nat) : State :=
  let open' := s.fabric.sent.filter (fun q => q.who = .replica g m)
  match leastBy id (open'.map (fun q => q.sentAt - usec (100 * (min q.tries 3 - 1)))) with
  | none => s
  | some t => if s.now < max t (tget (repOf s g).lastAck m 0) + usec 1000 then s else failMember s g m

/-- The fields of an entry are consistent, and this chip is a member (R447). -/
def rgtConsistent (s : State) (e : Nat) : Bool :=
  let k := rgtK e
  let m := rgtM e
  (rgtMode e = 1 || rgtMode e = 2) && 1 ≤ k && k ≤ 8 && 1 ≤ m && m ≤ 2 && (rgtMode e = 2 || (k = 1 && m = 1)) &&
    (upTo 0 10).all (fun j => memberUsed e j = (rgtMembers e).contains j) && (rgtMembers e).any (fun j => memberEnd e j = ownEp s)

/-- Two valid members carry one TAG (R447). -/
def sharedTags (e : Nat) : Bool :=
  let l := (rgtMembers e).map (memberTag e)
  (nodup l).length ≠ l.length

/-- RGT_WRITE (R447): a write that sets V is checked; an accepted entry is ACTIVE. -/
def rgtWrite (s : State) (g : Nat) (v : BitVec 512) : State :=
  let rw := fields [(496, bits v.toNat 511 496), (11, bits v.toNat 13 11), (5, bits v.toNat 10 5)] +
    ((upTo 0 10).map (fun j => (rgtMember v.toNat j - bits (rgtMember v.toNat j) 30 30 * 2 ^ 30) * 2 ^ (32 + 32 * j))).foldl (· + ·) 0
  let put (s : State) (e : Nat) : State := { s with fabric := { s.fabric with rgt := tput s.fabric.rgt g (BitVec.ofNat 512 e) } }
  if 16 ≤ g then s
  else
    let s := setRep s g {}
    let s := (upTo 0 10).foldl (fun s j => forgetMember s g j) s
    if !v.getLsbD 0 then put s rw
    else if !rgtConsistent s rw || (sharedTags rw && !bit rw 13) then
      countFabric (put s rw) (fun f => { f with gref := true })
    else
      let self := ((rgtMembers rw).find? (fun j => memberEnd rw j = ownEp s)).getD 0
      let s := put s (rw + fields [(0, 1), (18, self), (15, 1), (14, ofBool (sharedTags rw))])
      if sharedTags rw then raiseNotice s 5 0 none else s

/-- GCMD with SPARE (R450): REBUILD; a surviving member ships what it holds to the spare. -/
def startSpare (s : State) (g m ep : Nat) : State :=
  let e := rgtEntry s g
  if 16 ≤ g || !rgtValid e || !(rgtMembers e).contains m then s
  else
    let s := setRep (setRgt s g 17 15 2) g { repOf s g with spare := some (m, ep) }
    if rgtSelf e = m then s else fillSpare s g m ep

/-- SPARE_FILL_COMPLETE (R450): the spare takes the failed member's place, and the group is ACTIVE again. -/
def spareComplete (s : State) (g : Nat) : State :=
  match (repOf s g).spare with
  | none => s
  | some (m, ep) =>
    if rgtState (rgtEntry s g) ≠ 2 || s.fabric.sent.any (fun q => q.who = .replica g m) then s
    else
      let s := setRgt (setRgt s g (22 + m) (22 + m) 0) g (61 + 32 * m) (48 + 32 * m) ep
      let s := setRep s g { repOf s g with spare := none }
      setRgt s g 17 15 1

/-- GCMD with CLEAR (R450, R451): a LOST group is IDLE. -/
def clearLost (s : State) (g : Nat) : State := if g < 16 && rgtState (rgtEntry s g) = 3 then setRgt s g 17 15 0 else s

/-- SEGSHIP (R448), an event. -/
def execSegship (p : Packet) (s : State) : Out := .next (accept 0x08 (fun s p => settle (takePiece s p) p 0) s p)
/-- SEGPART (R448), an event. -/
def execSegpart (p : Packet) (s : State) : Out := .next (accept 0x09 (fun s p => settle (takePiece s p) p 0) s p)
/-- FIXWR (R448), an event. -/
def execFixwr (p : Packet) (s : State) : Out := .next (accept 0x0A (fun s p => settle (takeFixed s p) p 0) s p)
/-- CSHIP (R448), an event. -/
def execCship (p : Packet) (s : State) : Out := .next (accept 0x0B (fun s p => takeRecord (settle s p 0) p) s p)
/-- REPACK (R448), an event. -/
def execRepack (p : Packet) (s : State) : Out := .next (accept 0x0C takeRepack s p)
/-- RETIRE (R449), an event. -/
def execRetire (p : Packet) (s : State) : Out := .next (accept 0x15 (fun s p => settle (retirePiece s p) p 0) s p)
/-- GENMARK (R449), an event. -/
def execGenmark (p : Packet) (s : State) : Out := .next (accept 0x16 (fun s p => takeMark (settle s p 0) p) s p)
/-- GENMARK_TIMER (R449), an event. -/
def execGenmarkTimer (group : Nat) (s : State) : Out := .next (markTimer s group)
/-- REPLICA_ACK_TIMEOUT (R450), an event. -/
def execReplicaAckTimeout (group member : Nat) (s : State) : Out := .next (ackTimeout s group member)
/-- RGT_WRITE (R447), an event. -/
def execRgtWrite (group : Nat) (val : BitVec 512) (s : State) : Out := .next (rgtWrite s group val)
/-- GCMD_FAIL (R450), an event. -/
def execGcmdFail (group member : Nat) (s : State) : Out := .next (failMember s group member)
/-- GCMD_SPARE (R450), an event. -/
def execGcmdSpare (group member ep : Nat) (s : State) : Out := .next (startSpare s group member ep)
/-- GCMD_CLEAR (R450), an event. -/
def execGcmdClear (group : Nat) (s : State) : Out := .next (clearLost s group)
/-- SPARE_FILL_COMPLETE (R450), an event. -/
def execSpareFillComplete (group : Nat) (s : State) : Out := .next (spareComplete s group)

end Sys2Proof.Machine
end

