-- ==== Sys2Proof/Machine/Window.lean ====
section
/-!
DEFINITION. The host's side of the module (R372, R396, R405 to R424, R436, R447, R451, R455): writes to the windows, management packets,
capture, clock, function reset, module reset and the security processor's exchanges.
-/
namespace Sys2Proof.Machine

/-- The physical function and 32 virtual ones (R324, R414). -/
def isFn (fn : Nat) : Bool := decide (fn < 33)

/-- QSLOT_WRITE (R396): a write of the 64 bytes of one slot is a packet; any other that touches a slot sets SHORT. -/
def slotWrite (s : State) (fn off : Nat) (data : List Byte) : State :=
  if !isFn fn || 512 ≤ off || data.isEmpty then s
  else if data.length = 64 && off % 64 = 0 then slotPacket s fn (off / 64) (BitVec.ofNat 512 (ofBytes data))
  else if resetting s fn then s
  else setSpstat s fn (1#64 <<< 15)

/-- EVADD (R407): one atomic add. -/
def evadd (s : State) (fn : Nat) (v : Word) : State :=
  let slot := bits v.toNat 7 0
  if isFn fn then setEv s fn slot (evAt s fn slot + BitVec.ofNat 32 (bits v.toNat 31 8)) else s

/-- A host write of an event slot (R407). -/
def evWrite (s : State) (fn slot : Nat) (v : Word) : State := if isFn fn && slot < 256 then setEv s fn slot v else s

/-- HGPTR_WRITE (R405, R412): HEAD moves only towards TAIL; HOVF is cleared by a 1. -/
def hgptr (s : State) (fn : Nat) (v : DWord) : State :=
  let x := fnAt s fn
  let n := bits v.toNat 6 0
  let x := if (n + 128 - x.head) % 128 ≤ (x.tail + 128 - x.head) % 128 then { x with head := n } else x
  if isFn fn then setFn s fn (if v.getLsbD 16 then { x with hovf := false } else x) else s

/-- MTIME_WRITE (R421). -/
def mtimeSet (s : State) (v : DWord) : State := { s with mtime := v, mtimeAt := s.now }

/-- SUPPLY_SAG (R420): the die's clock period grows one step, to 24/16 at most. -/
def supplySag (s : State) (die : Nat) : State :=
  let d := dieAt s die
  if 4 ≤ die then s else setDie s die { d with period := min 24 (d.period + 1), sagAt := s.now }

/-- CLOCK_RECOVER_STEP (R420): one step back for each 64 clk. -/
def clockRecover (s : State) (die : Nat) : State :=
  let d := dieAt s die
  if d.period ≤ 16 || s.now < d.sagAt + 64 then s else setDie s die { d with period := d.period - 1, sagAt := s.now }

/-- CAPCTL_ARM (R411): the host arms capture logic that is FIRED again; where it is ARMED, a trigger on its way stands. -/
def capArm (s : State) : State :=
  if s.capture.latched then { s with capture := { s.capture with fired := false, latched := false } } else s

/-- CAPTURE_LATCH (R411): at the instant named every block's capture registers latch, and the CAPTURE vector is raised. -/
def capLatch (s : State) : State :=
  let c := s.capture
  if !c.fired || c.latched || decide (2 ^ 63 ≤ (moduleTime s - c.instant).toNat) then s
  else raiseMsix { s with capture := { c with latched := true, frozen := c.instant } } 0 6

/-- A function reset begins (R416): RST reads 1 and every resident gang of the function is to stop at its switch points. -/
def startReset (s : State) (fn : Nat) : State :=
  if !isFn fn then s
  else
    let x := fnAt s fn
    let s := setFn s fn { x with spstat := x.spstat ||| 0x4000#64 }
    stopGangs s ((s.gangs.filter (fun g => g.2.fn = fn && g.2.phase = .resident)).map Prod.fst)

/-- FLR (R416): that of the physical function resets every VF and then the PF. -/
def flr (s : State) (fn : Nat) : State :=
  if fn = 0 then startReset ((upTo 1 32).foldl startReset s) 0 else startReset s fn

/-- ASIDs of a function that something in the module belongs to. -/
def asidsOf (s : State) (fn : Nat) : List Nat :=
  let held := s.gangs.map (fun g => g.2.asid) ++ s.launches.map (fun l => pktAsid l.2.pkt) ++
    s.writers.flatMap (fun w => w.2.tail.map TailEntry.asid ++ w.2.pend.map PendRec.asid ++ w.2.sets.map CopySet.asid ++
      w.2.pubs.map Pub.asid) ++
    s.dies.flatMap (fun d => d.2.own.map OwnEntry.asid ++ d.2.ownq.map OwnReq.asid ++ d.2.maps.map MapEntry.asid ++
      d.2.nodes.map NodeEntry.asid) ++
    s.cores.flatMap (fun c => c.2.l1.map L1Line.asid ++ c.2.atomics.map AtomicMark.asid)
  (nodup held).filter (fun a => (astEntry s a).fn = fn)

/-- No publication of an address space is still on its way to the commit point (R321). -/
def allCommitted (s : State) (asids : List Nat) : Bool :=
  s.writers.all (fun w => w.2.pubs.all (fun p => !asids.contains p.asid || p.stage ≠ .requested))

/-- Gangs of a function. -/
def fnGangs (s : State) (fn : Nat) : List Nat := (s.gangs.filter (fun g => g.2.fn = fn)).map Prod.fst

/-- A gang forms and issues no bundle, or only one that stalls (R151, R416). -/
def gangHalted (s : State) (gang : Nat) : Bool :=
  (gangAt s gang).phase ≠ .resident && (gangStopped s gang ||
    (coreAt s (gangAt s gang).core).lanes.all (fun (_, l) => l.bundle.all (fun b => b.gang ≠ gang || b.stall.isSome)))

/-- A gang's queued operations abandoned: the next in a unit's queue starts (R416). -/
def dropOps (s : State) (core gang : Nat) : State :=
  (upTo 0 5).foldl (fun s u =>
    let q := unitQueue s core u
    let r := q.filter (fun o => o.gang ≠ gang)
    if r.length = q.length then s
    else setQueue s core u (if (q.head?).map MatOp.id = (r.head?).map MatOp.id then r else startFirst s core u r)) s

/-- A gang discarded with everything it holds (R416). -/
def discardGang (s : State) (gang : Nat) : State :=
  let g := gangAt s gang
  let placed := !g.places.isEmpty
  let s := if placed then dropOps s g.core gang else s
  let s := if placed then releasePlaces s gang else s
  let k := coreAt s g.core
  let lanes := tmap (fun _ l => { l with
    resumes := l.resumes.filter (fun r => r.1 ≠ gang)
    bundle := l.bundle.bind (fun b => if b.gang = gang then none else some b) }) k.lanes
  let records := ((spansOf s gang).filter (fun i => !(spanAt s i).noRec)).length
  let s := if placed then setCore s g.core { k with lanes } else s
  let ids := (s.copies.filter (fun c => c.2.gang = gang)).map Prod.fst
  let mine (w : Sender) : Bool := match w with
    | .copy i => ids.contains i
    | .fill a _ _ => a = gang
    | _ => false
  let s := { s with
    spans := s.spans.filter (fun p => p.2.gang ≠ some gang)
    copies := s.copies.filter (fun c => c.2.gang ≠ gang)
    fillq := s.fillq.filter (fun f => f.target ≠ .gang gang && !(f.item.any (fun i => i.1 = gang)))
    rootOps := tmap (fun _ o => { o with stopped := o.stopped.filter (· ≠ gang), report := if o.gang = gang then none else o.report }) s.rootOps
    fabric := { s.fabric with sent := s.fabric.sent.filter (fun q => !mine q.who) }
    gangs := tdel s.gangs gang }
  if placed then serveAfter (giveRecords s g.core records) g.core (g.places.map (fun p => p.2.1)) else s

/-- The die spans of a function's launches discarded (R416). -/
def discardSpans (s : State) (ids : List Nat) : State :=
  let gone := s.spans.filter (fun p => ids.contains p.2.launch)
  let s := gone.foldl (fun s p =>
    let k := coreAt s p.2.core
    let lanes := tmap (fun _ l => { l with bundle := l.bundle.bind (fun b => if b.span = some p.1 then none else some b) }) k.lanes
    setCore s p.2.core { k with lanes }) s
  let s := { s with spans := s.spans.filter (fun p => !ids.contains p.2.launch) }
  (gone.filter (fun p => !p.2.noRec)).foldl (fun s p => giveRecord s p.2.core) s

/-- The launches of a function discarded: no signal, no record (R416). -/
def discardLaunches (s : State) (ids : List Nat) : State :=
  { s with
    launches := s.launches.filter (fun l => !ids.contains l.1)
    fillq := s.fillq.filter (fun f => match f.target with
      | .spad _ l => !ids.contains l
      | .remote _ _ l => !ids.contains l
      | .gang _ => true)
    dies := tmap (fun _ d => { d with
      bins := d.bins.filter (fun b => !ids.contains b.launch)
      flushes := d.flushes.filter (fun f => !ids.contains f.1)
      spads := d.spads.filter (fun p => !ids.contains p.launch)
      spadFail := if d.spads.any (fun p => ids.contains p.launch) then [] else d.spadFail.filter (fun l => !ids.contains l) }) s.dies }

/-- FUNCTION_RESET_COMPLETE (R321, R416): once the gangs have stopped and the commits that reached their unit are written,
everything unpublished goes, and the window is cleared. -/
def resetComplete (s : State) (fn : Nat) : State :=
  let gs := fnGangs s fn
  let asids := asidsOf s fn
  if !isFn fn || !resetting s fn || (fn = 0 && (upTo 1 32).any (resetting s)) then s
  else if gs.any (fun g => (gangAt s g).phase = .resident) then
    stopGangs s (gs.filter (fun g => (gangAt s g).phase = .resident))
  else if !gs.all (gangHalted s) || !allCommitted s asids then s
  else
    let ids := (s.launches.filter (fun l => l.2.fn = fn)).map Prod.fst
    let s := gs.foldl discardGang s
    let s := discardLaunches (discardSpans s ids) ids
    let s := { s with dies := tmap (fun _ d => { d with atomq := d.atomq.filter (fun r => !asids.contains r.asid) }) s.dies }
    let s := asids.foldl (fun s a => dropAsidCaches (discardAsid s a) a) s
    let s := (upTo 0 4).foldl endSeek s
    let x := fnAt s fn
    setFn s fn { x with
      acc := [], done := [], spstat := 0, head := 0, tail := 0, hovf := false, hg := [], ev := [], slots := [], msix := [5] }

/-- SAVEPOOL and CODEBASE can be written: no gang of the function is resident or saved (R405). -/
def fnIdle (s : State) (fn : Nat) : Bool := s.gangs.all (fun g => g.2.fn ≠ fn || g.2.phase = .waiting || g.2.phase = .ended)

/-- A number with bits `hi` down to `lo` replaced. -/
def putBitsN (n hi lo v : Nat) : Nat := n - bits n hi lo * 2 ^ lo + v % 2 ^ (hi + 1 - lo) * 2 ^ lo

/-- A write of the function's own window, 8 bytes at an offset (R405). -/
def windowWrite (s : State) (fn off : Nat) (v : DWord) : State :=
  let x := fnAt s fn
  let n := v.toNat
  if off < 0x200 then slotWrite s fn off (toBytes 8 n)
  else if off = 0x240 then setFn s fn { x with spstat := x.spstat &&& ~~~(v &&& 0xFFFF8000#64) }
  else if off = 0x248 then (if fnIdle s fn then setFn s fn { x with codebase := BitVec.ofNat 64 (bits n 56 16 * 65536) } else s)
  else if off = 0x250 then evadd s fn (lowWord v)
  else if off = 0x258 then (if v.getLsbD 0 then startReset s fn else s)
  else if 0x260 ≤ off && off < 0x280 then
    let i := (off - 0x260) / 8
    setFn s fn { x with evirq := BitVec.ofNat 256 (putBitsN x.evirq.toNat (64 * i + 63) (64 * i) n) }
  else if off = 0x280 then hgptr s fn v
  else if off = 0x290 then (if fnIdle s fn then setFn s fn { x with savebase := BitVec.ofNat 64 (n / 2 ^ 21 * 2 ^ 21) } else s)
  else if off = 0x298 then (if fnIdle s fn then setFn s fn { x with nslot := bits n 15 0 } else s)
  else if off = 0x2C0 then setFn s fn { x with sdaddr := BitVec.ofNat 64 (bits n 56 16 * 65536) }
  else if off = 0x2C8 then shootCommand s fn v
  else if off = 0x2D0 then (if v.getLsbD 63 then setFn s fn { x with sdovf := false } else s)
  else if off = 0x2E0 then setFn s fn { x with mgaddr := BitVec.ofNat 64 (bits n 56 16 * 65536) }
  else if off = 0x2E8 then migrateCommand s fn v
  else if off = 0x2F0 then (if v.getLsbD 63 then setFn s fn { x with mgerr := false } else s)
  else if 0x400 ≤ off && off < 0x800 then evWrite (evWrite s fn ((off - 0x400) / 4) (lowWord v)) fn ((off - 0x400) / 4 + 1) (highWord v)
  else s

/-- QOSW, SPMAX, UINJEN and UTRIG of a function (R418, R424); a weight is 1 to 255. Their places are the model's: bits 7:0, 31:16, 32
and 33 (DESIGN CHOICE, log entry 96). -/
def cfgWrite (s : State) (fn : Nat) (v : DWord) : State :=
  let x := fnAt s fn
  let n := v.toNat
  setFn s fn { x with
    qosw := if bits n 7 0 = 0 then x.qosw else bits n 7 0, spmax := bits n 31 16, uinjen := bit n 32, utrig := bit n 33 }

/-- A write of a die error log's words (R424): V of an entry, or OVF. -/
def dieLogWrite (s : State) (die at' : Nat) (v : DWord) : State :=
  let d := dieAt s die
  if at' < 0x40 then (if v.getLsbD 63 then setDie s die { d with log := { d.log with entries := tdel d.log.entries (at' / 8) } } else s)
  else if at' = 0x40 && v.getLsbD 0 then setDie s die { d with log := { d.log with ovf := false } }
  else s

/-- The key or destination entry of SHADOW that RTADDR names, written; reserved bits stay zero (R8, R434, R436, R451). A key of
port 12 to 15 or of slot 64 and up does not exist: the write is ignored (DESIGN CHOICE, log entry 97). -/
def routeWrite (s : State) (v : DWord) : State :=
  let f := s.fabric
  let a := f.rtaddr.toNat
  let b := f.shadow
  if f.swapping then s
  else if !bit a 31 then
    { s with fabric := { f with shadow := { b with dest := tput b.dest (bits a 13 0) (lowWord v &&& 0xCFFF000F#32) } } }
  else if 12 ≤ bits a 19 16 || 64 ≤ bits a 13 0 then s
  else
    let keys := tput b.keys (bits a 19 16 * 64 + bits a 13 0) (lowWord v &&& 0x8000FFFF#32)
    { s with fabric := { f with shadow := { b with keys } } }

/-- GCMD (R450, R451). Command 0 has no effect (DESIGN CHOICE, log entry 97). -/
def groupCommand (s : State) (n : Nat) : State :=
  let g := bits n 3 0
  let m := bits n 7 4
  match bits n 9 8 with
  | 1 => failMember s g m
  | 2 => startSpare s g m (bits n 29 16)
  | 3 => clearLost s g
  | _ => s

/-- A write of the fabric block, 8 bytes at an offset of PF BAR 0 (R451). -/
def fabricWrite (s : State) (off : Nat) (v : DWord) : State :=
  let f := s.fabric
  let n := v.toNat
  if off = 0x4000 then { s with fabric := { f with fabid := v &&& 0x3FFFFFFFFFFF3FFF#64 } }
  else if off = 0x4010 then (if bit n 63 then { s with fabric := { f with gref := false } } else s)
  else if off = 0x4018 then mtimeSet s v
  else if 0x4048 ≤ off && off < 0x4048 + 32 * 12 && (off - 0x4048) % 32 = 0 then
    let p := (off - 0x4048) / 32
    let s := if bit n 0 then pctlUp s p else s
    if bit n 1 then afterLink (pctlDis s p) p else s
  else if off = 0x4400 then { s with fabric := { f with rtaddr := v &&& 0x800F3FFF#64 } }
  else if off = 0x4408 then routeWrite s v
  else if off = 0x4410 then (if bit n 0 then { s with fabric := { f with swapping := true } } else s)
  else if off = 0x4800 then { s with fabric := { f with ldtaddr := bits n 7 0 } }
  else if 0x4808 ≤ off && off < 0x4888 then
    let i := (off - 0x4808) / 8
    let rw := if i = 0 then bits n 0 0 else if i = 1 then bits n 63 36 * 2 ^ 36 else n
    { s with fabric := { f with
      ldt := tput f.ldt f.ldtaddr (BitVec.ofNat 1024 (putBitsN (ldtEntry s f.ldtaddr) (64 * i + 63) (64 * i) rw)) } }
  else if 0x5000 ≤ off && off < 0x5400 then
    let g := (off - 0x5000) / 64
    let i := (off - 0x5000) % 64 / 8
    rgtWrite s g (BitVec.ofNat 512 (putBitsN (rgtEntry s g) (64 * i + 63) (64 * i) n))
  else if off = 0x5400 then groupCommand s n
  else s

/-- A value written to the fixed region with the reserved bits of an address-space table entry zero (R8, R324). -/
def fixedValue (s : State) (off : Nat) (v : DWord) : DWord :=
  if s.boot.astOff ≤ off && off < s.boot.astOff + 65536 then
    v &&& (if (off - s.boot.astOff) % 16 < 8 then 0xFFFFFF01FFFFFF7F#64 else 0xFFF#64)
  else v

/-- A write to the fixed region by the host, or by the security processor, shipped to the replicas of a data chip (R324, R448). -/
def fixedWrite (s : State) (off : Nat) (v : DWord) : State :=
  if fixedSize s < off + 8 then s
  else shipFixed { s with fixed := mwrite s.fixed off (toBytes 8 (fixedValue s off v).toNat) } off 8

/-- The context descriptor of an ASID as the host writes half of it (R263): reserved bits stay zero (R8), and UINJ of an ASID that
a VF owns without UINJEN does too. -/
def hostCtx (s : State) (asid half : Nat) (v : DWord) : State :=
  let old := (tget s.ctx asid 0).toNat
  let n := putBitsN old (64 * half + 63) (64 * half) v.toNat &&& 0x000FFFFFFFFF001F01FFFFFFFFFFFF00
  let n := if ctxRefused s asid n then putBitsN n 66 66 0 else n
  { s with ctx := tput s.ctx asid (BitVec.ofNat 128 n) }

/-- The host clears an entry of the lost-segment list after repair (R371): the segment is FREE again, and its bank is in use again
once no segment of it is listed. -/
def clearLostSegment (s : State) (i : Nat) : State :=
  let stk := i / 16384
  let six := i % 16384
  if !s.lost.contains i then s
  else
    let s := freeSegment { s with lost := s.lost.filter (· ≠ i) } stk six
    let k := stackAt s stk
    if (bankSegments s (six / 1024) (six / 16 % 64)).any (fun x => s.lost.contains (segIndex stk x)) then s
    else setStack s stk { k with fenced := k.fenced.filter (· ≠ (six / 1024, six / 16 % 64)) }

/-- A write of the module registers behind PF BAR 0 (R424), and of what the host writes through the physical function without a
register that the spec places: the fixed region from 0x1_0000 up (R324), the lost list's entries from 2^48 up (R371) and the context
descriptors from 2^40 up, 16 bytes an ASID (R263). These offsets are the model's (DESIGN CHOICE, log entry 96). -/
def moduleWrite (s : State) (off : Nat) (v : DWord) : State :=
  if 0x1000 ≤ off && off < 0x1200 then (if off % 16 = 0 then cfgWrite s ((off - 0x1000) / 16 + 1) v else s)
  else if off = 0x1200 then cfgWrite s 0 v
  else if 0x1400 ≤ off && off < 0x1600 then dieLogWrite s ((off - 0x1400) / 128) ((off - 0x1400) % 128) v
  else if off = 0x1600 then
    let s := if v.getLsbD 0 then capArm s else s
    if v.getLsbD 2 then fireCapture s 1 0 else s
  else if off = 0x1700 then mtimeSet s v
  else if off = 0x1FF8 then { s with capture := { s.capture with block := v } }
  else if 0x4000 ≤ off && off < 0x6000 then fabricWrite s off v
  else if 2 ^ 40 ≤ off && off < 2 ^ 40 + 65536 then hostCtx s ((off - 2 ^ 40) / 16) ((off - 2 ^ 40) / 8 % 2) v
  else if 2 ^ 48 ≤ off then clearLostSegment s (off - 2 ^ 48)
  else if 0x10000 ≤ off then fixedWrite s (off - 0x10000) v
  else s

/-- REGISTER_WRITE (R8, R11, R405, R424): 8 bytes, 8-byte aligned; what no register stands at is ignored. -/
def registerWrite (s : State) (fn off : Nat) (v : DWord) : State :=
  if !isFn fn || off % 8 ≠ 0 then s
  else if off < 0x1000 then windowWrite s fn off v
  else if fn = 0 then moduleWrite s off v
  else s

/-- What the fabric block's readable registers hold (R424, R451). PCTL.UP reads 1 while the training it starts goes on, and
PCTL.DIS, whose effect is over at once, reads 0; a key that does not exist reads 0 (DESIGN CHOICE, log entry 97). -/
def fabricRead (s : State) (off : Nat) : DWord :=
  let f := s.fabric
  let four (a b c d : Nat) : DWord := BitVec.ofNat 64 (fields [(0, a), (16, b), (32, c), (48, d)])
  if off = 0x4000 then f.fabid
  else if off = 0x4008 then four f.badpkt.toNat f.dropkey.toNat f.droproute.toNat f.drophop.toNat
  else if off = 0x4010 then four f.filldrop.toNat f.nlost.toNat 0 (ofBool f.gref * 2 ^ 15)
  else if off = 0x4018 then moduleTime s
  else if 0x4040 ≤ off && off < 0x4040 + 32 * 12 && (off - 0x4040) % 32 = 0 then
    let x := portAt s ((off - 0x4040) / 32)
    BitVec.ofNat 64 (fields [(8, stateCode x.st), (12, x.first), (16, x.lanes.toNat), (32, x.replays.toNat), (48, x.bad.toNat)])
  else if 0x4048 ≤ off && off < 0x4048 + 32 * 12 && (off - 0x4048) % 32 = 0 then
    BitVec.ofNat 64 (ofBool (decide ((portAt s ((off - 0x4048) / 32)).st = .train)))
  else if off = 0x4400 then f.rtaddr
  else if off = 0x4408 then
    let a := f.rtaddr.toNat
    (if bit a 31 then (if 12 ≤ bits a 19 16 || 64 ≤ bits a 13 0 then 0 else tget f.shadow.keys (bits a 19 16 * 64 + bits a 13 0) 0)
      else tget f.shadow.dest (bits a 13 0) 0).setWidth 64
  else if off = 0x4410 then BitVec.ofNat 64 (ofBool f.swapping)
  else if off = 0x4800 then BitVec.ofNat 64 f.ldtaddr
  else if 0x4808 ≤ off && off < 0x4888 then BitVec.ofNat 64 (ldtEntry s f.ldtaddr / 2 ^ (64 * ((off - 0x4808) / 8)))
  else if 0x5000 ≤ off && off < 0x5400 then
    BitVec.ofNat 64 (rgtEntry s ((off - 0x5000) / 64) / 2 ^ (64 * ((off - 0x5000) % 64 / 8)))
  else 0

/-- What a host read of a function's own window returns, 8 bytes at an offset (R332, R386, R405, R406, R412, R413). -/
def windowRead (s : State) (fn off : Nat) : DWord :=
  let x := fnAt s fn
  let two (hi lo : Word) : DWord := pair hi lo
  let stat (flag : Bool) (done acc : BitVec 16) : DWord := BitVec.ofNat 64 (fields [(0, acc.toNat), (16, done.toNat), (63, ofBool flag)])
  if 0x200 ≤ off && off < 0x240 then two (tget x.done ((off - 0x200) / 8) 0) (tget x.acc ((off - 0x200) / 8) 0)
  else if off = 0x240 then x.spstat
  else if off = 0x248 then x.codebase
  else if off = 0x258 then BitVec.ofNat 64 (ofBool (resetting s fn) + 2 * ofBool x.utrig)
  else if 0x260 ≤ off && off < 0x280 then BitVec.ofNat 64 (x.evirq.toNat / 2 ^ (8 * (off - 0x260)))
  else if off = 0x280 then BitVec.ofNat 64 (fields [(0, x.head), (8, x.tail), (16, ofBool x.hovf)])
  else if off = 0x290 then x.savebase
  else if off = 0x298 then BitVec.ofNat 64 x.nslot
  else if off = 0x2A0 then BitVec.ofNat 64 x.qosw
  else if off = 0x2C0 then x.sdaddr
  else if off = 0x2C8 then x.sdctl
  else if off = 0x2D0 then stat x.sdovf x.sddone x.sdacc
  else if off = 0x2E0 then x.mgaddr
  else if off = 0x2E8 then x.mgctl
  else if off = 0x2F0 then stat x.mgerr x.mgdone x.mgacc
  else if 0x400 ≤ off && off < 0x800 then two (evAt s fn ((off - 0x400) / 4 + 1)) (evAt s fn ((off - 0x400) / 4))
  else if 0x800 ≤ off && off < 0x1000 then BitVec.ofNat 64 ((tget x.hg ((off - 0x800) / 32) 0).toNat / 2 ^ (8 * ((off - 0x800) % 32)))
  else 0

/-- QOSW, SPMAX, UINJEN and UTRIG of a function as the PF reads them (R424). -/
def cfgRead (s : State) (fn : Nat) : DWord :=
  let x := fnAt s fn
  BitVec.ofNat 64 (fields [(0, x.qosw), (16, x.spmax), (32, ofBool x.uinjen), (33, ofBool x.utrig)])

/-- What a host read of PF BAR 0 behind the window returns, 8 bytes at an offset (R424): the capture window shows what the
block selected held at the frozen instant. CAPCTL.ARM reads 1 in ARMED, which
FIRED follows when the registers have latched (R11, R411). BOOTSTAT holds the stage from bit 0 and the failure code
from bit 32, and the fixed region reads at the offsets at which it is written (DESIGN CHOICE, log entry 96). -/
def moduleRead (s : State) (off : Nat) : DWord :=
  let c := s.capture
  let ctl := fields [(0, ofBool (!c.latched)), (1, ofBool c.latched), (4, c.src), (16, c.tag.toNat), (32, c.instant.toNat)]
  if 0x1000 ≤ off && off < 0x1200 then (if off % 16 = 0 then cfgRead s ((off - 0x1000) / 16 + 1) else 0)
  else if off = 0x1200 then cfgRead s 0
  else if 0x1400 ≤ off && off < 0x1600 then
    let l := (dieAt s ((off - 0x1400) / 128)).log
    let at' := (off - 0x1400) % 128
    if at' < 0x40 then tget l.entries (at' / 8) 0 else if at' = 0x40 then BitVec.ofNat 64 (ofBool l.ovf) else 0
  else if off = 0x1600 then BitVec.ofNat 64 ctl
  else if off = 0x1608 then BitVec.ofNat 64 (ctl / 2 ^ 64)
  else if 0x1640 ≤ off && off < 0x1660 then BitVec.ofNat 64 (dieAt s ((off - 0x1640) / 8)).stretch
  else if off = 0x1680 then BitVec.ofNat 64 (s.boot.stage + s.boot.code * 2 ^ 32)
  else if off = 0x1690 then BitVec.ofNat 64 s.boot.fencedDies.toNat
  else if 0x1698 ≤ off && off < 0x16B8 then nth s.boot.fencedCores ((off - 0x1698) / 8) 0
  else if off = 0x1700 then moduleTime s
  else if 0x2000 ≤ off && off < 0x4000 then Config.captured (c.block.toNat * 8192 + (off - 0x2000)) c.frozen
  else if 0x4000 ≤ off && off < 0x6000 then fabricRead s off
  else if 2 ^ 40 ≤ off && off < 2 ^ 40 + 65536 then
    BitVec.ofNat 64 ((tget s.ctx ((off - 2 ^ 40) / 16) 0).toNat / 2 ^ (64 * ((off - 2 ^ 40) / 8 % 2)))
  else if 0x10000 ≤ off && off + 8 ≤ 0x10000 + fixedSize s then BitVec.ofNat 64 (ofBytes (mread s.fixed (off - 0x10000) 8))
  else 0

/-- Words of eight bytes of a payload written from an offset on. -/
def writeDwords (s : State) (off : Nat) : Nat → List Byte → State
  | 0, _ => s
  | n + 1, l => writeDwords (fabricWrite s off (BitVec.ofNat 64 (ofBytes (l.take 8)))) (off + 8) n (l.drop 8)

/-- MWR performed (R451): a whole replica-group entry at once, else eight bytes at a time. -/
def performMwr (s : State) (p : Packet) : State :=
  let off := p.addr.toNat
  if off % 8 ≠ 0 || off < 0x4000 || 0x6000 ≤ off then s
  else if 0x5000 ≤ off && off < 0x5400 && off % 64 = 0 && p.payload.length = 64 then
    rgtWrite s ((off - 0x5000) / 64) (BitVec.ofNat 512 (ofBytes p.payload))
  else writeDwords s off (p.payload.length / 8) p.payload

/-- MRD performed (R432, R451): the response carries the bytes asked for, AUX bits 11:0 of them, 8 when that is 0. -/
def performMrd (s : State) (p : Packet) : State :=
  let off := p.addr.toNat
  let n := ceilDiv (if bits p.aux.toNat 11 0 = 0 then 8 else bits p.aux.toNat 11 0) 8
  let q : Packet := { p with
    op := 0x14, src := BitVec.ofNat 14 (ownEp s), dest := p.src, hop := 31
    payload := (upTo 0 n).flatMap (fun i => toBytes 8 (fabricRead s (off + 8 * i)).toNat) }
  { s with fabric := { s.fabric with inq := s.fabric.inq ++ [q] } }

/-- The boot configuration is refused (R369): FIXSZ out of range, or LCAP with 16% for the index and 15% of the log space for
the reserve above the log space. -/
def bootRefused (b : BootInput) : Bool :=
  let space := (16384 * 8 - 32 * 8 * b.fixsz) * 2 ^ 22
  b.fixsz < 1 || 8 < b.fixsz || decide (352 * 2 ^ 30 < b.lcap) || decide (100 * space < 116 * b.lcap + 15 * space)

/-- MODULE_RESET (R369, R422, R423, R455): the module as after reset, under the configuration that secure boot verified, or held
in reset with a failure code. -/
def moduleReset (s : State) (b : BootInput) : State :=
  let refused := bootRefused b
  let t := State.reset
  { t with
    agenda := s.agenda, free := s.free + 1, nextId := s.nextId
    boot := {
      held := b.failStage ≠ 0 || refused
      stage := if b.failStage ≠ 0 then b.failStage else b.measures.length
      code := if b.failStage ≠ 0 then b.failCode else if refused then (Config.freeWord s.free).toNat else 0
      measures := if b.failStage ≠ 0 then b.measures.take (b.failStage - 1) else b.measures
      fixsz := b.fixsz, lcap := b.lcap, astOff := b.astOff, rootOff := b.rootOff, retOff := b.retOff
      fencedDies := b.fencedDies, fencedCores := b.fencedCores, epoch := s.boot.epoch + 1 } }

/-- QSLOT_WRITE (R396), an event. -/
def execQslotWrite (fn off : Nat) (data : List Byte) (s : State) : Out := .next (slotWrite s fn off data)
/-- EVADD (R407), an event. -/
def execEvadd (fn : Nat) (val : Word) (s : State) : Out := .next (evadd s fn val)
/-- EVENT_SLOT_WRITE (R407), an event. -/
def execEventSlotWrite (fn slot : Nat) (val : Word) (s : State) : Out := .next (evWrite s fn slot val)
/-- CTRL_RST (R405, R416), an event: a write of CTRL. -/
def execCtrlRst (fn : Nat) (val : DWord) (s : State) : Out := .next (if val.getLsbD 0 then startReset s fn else s)
/-- FLR (R416), an event. -/
def execFlr (fn : Nat) (s : State) : Out := .next (flr s fn)
/-- HGPTR_WRITE (R412), an event. -/
def execHgptrWrite (fn : Nat) (val : DWord) (s : State) : Out := .next (hgptr s fn val)
/-- MTIME_WRITE (R421), an event. -/
def execMtimeWrite (val : DWord) (s : State) : Out := .next (mtimeSet s val)
/-- SUPPLY_SAG (R420), an event. -/
def execSupplySag (die : Nat) (s : State) : Out := .next (supplySag s die)
/-- CLOCK_RECOVER_STEP (R420), an event. -/
def execClockRecoverStep (die : Nat) (s : State) : Out := .next (clockRecover s die)
/-- CAPCTL_ARM (R411), an event. -/
def execCapctlArm (s : State) : Out := .next (capArm s)
/-- CAPCTL_FIRE (R411), an event: a trigger from the host, with tag 0. -/
def execCapctlFire (s : State) : Out := .next (fireCapture s 1 0)
/-- CAPTURE_LATCH (R411), an event. -/
def execCaptureLatch (s : State) : Out := .next (capLatch s)
/-- FUNCTION_RESET_COMPLETE (R416), an event. -/
def execFunctionResetComplete (fn : Nat) (s : State) : Out := .next (resetComplete s fn)
/-- REGISTER_WRITE (R405), an event. -/
def execRegisterWrite (fn off : Nat) (val : DWord) (s : State) : Out := .next (registerWrite s fn off val)
/-- MODULE_RESET (R422), an event. -/
def execModuleReset (boot : BootInput) (s : State) : Out := .next (moduleReset s boot)
/-- SPDM_GET_CERTIFICATE (R423), an event: the chain is returned over DOE. -/
def execSpdmGetCertificate (s : State) : Out := .next { s with boot := { s.boot with doe := Config.certificate } }
/-- SPDM_GET_MEASUREMENTS (R423), an event: the measurement registers and their signature are returned over DOE. -/
def execSpdmGetMeasurements (s : State) : Out :=
  .next { s with boot := { s.boot with doe := s.boot.measures ++ [Config.signature s.boot.measures] } }
/-- SPDM_SESSION_ESTABLISH (R423), an event. -/
def execSpdmSessionEstablish (s : State) : Out := .next { s with boot := { s.boot with spdm := true } }
/-- IDE_KEY_MANAGEMENT (R423), an event: keys are set only after a session has been established. -/
def execIdeKeyManagement (key : BitVec 256) (s : State) : Out :=
  .next (if s.boot.spdm then { s with boot := { s.boot with ide := some key } } else s)
/-- MWR (R451), an event. -/
def execMwr (p : Packet) (s : State) : Out := .next (accept 0x12 performMwr s p)
/-- MRD (R451), an event. -/
def execMrd (p : Packet) (s : State) : Out := .next (accept 0x13 performMrd s p)

end Sys2Proof.Machine
end

