-- ==== Sys2Proof/Machine/Faults.lean ====
section
/-!
DEFINITION. Soft errors (R255, R272, R273, R281, R345, R346, R368, R370): what an error in each protected structure does.
-/
namespace Sys2Proof.Machine

/-- An event entered in a die's error log (R346): STRUCT is the row of R345; the DIEERR vector is raised when the log gains an
entry. -/
def dieError (s : State) (die row slice asid index : Nat) : State :=
  let d := dieAt s die
  let e := BitVec.ofNat 64 (fields [(0, index % 2 ^ 42), (42, asid), (54, slice), (59, row)])
  let l := logAdd d.log 8 e
  let s := setDie s die { d with log := l }
  if l.entries = d.log.entries then s else raiseMsix s 0 7

/-- An error in a core's storage counted; an uncorrectable one is entered in the storage log (R272, R273). -/
def coreError (s : State) (core : Nat) (bad : Bool) (e : DWord) : State :=
  let s := count s core (if bad then 0x13 else 0x12) 1
  let k := coreAt s core
  if bad then setCore s core { k with storLog := logAdd k.storLog 4 e } else s

/-- A gang stands on a core, so that its storage there can be struck. -/
def standing (s : State) (gang : Nat) : Bool := (tfind s.gangs gang).isSome && !(gangAt s gang).places.isEmpty

/-- A struck register word of an item, or with position 32 a representation-table entry (R272). -/
def strikeReg (s : State) (gang g p r e : Nat) : State :=
  if !standing s gang || 112 ≤ r then s
  else updGroup s gang g (fun x =>
    let old := ((x.badV.find? (fun q => q.1 = r && q.2.1 = p)).map (fun q => q.2.2)).getD 0
    if p < 32 && (itemIn x p).isNone then x
    else { x with badV := (r, p, max old e) :: x.badV.filter (fun q => !(q.1 = r && q.2.1 = p)) })

/-- A struck latch entry: poisoned and logged at once (R272, R273 KIND 5). -/
def strikeLatch (s : State) (gang g p i : Nat) (bad : Bool) : State :=
  let gg := gangAt s gang
  let x := groupAt s gang g
  if !standing s gang || (itemIn x p).isNone || 8 ≤ i then s
  else
    let at' := ((((laneAt s gg.core x.lane).bundle.map Bundle.members).getD []).findIdx? (· = (g, p))).getD 0
    let s := coreError s gg.core bad (storEntry 5 gg.asid x.lane x.res (at' * 8 + i))
    if bad then setGroup s gang g { x with badL := (p, i) :: x.badL.filter (· ≠ (p, i)) } else s

/-- A struck word of a span record (R272, R273 KIND 6): which record of the core the span occupies is not architectural, and a
free value stands for it. -/
def strikeSpan (s : State) (i r : Nat) (bad : Bool) : State :=
  match tfind s.spans i with
  | none => s
  | some sp =>
    if 112 ≤ r then s
    else
      let asid := match sp.gang with
        | some g => (gangAt s g).asid
        | none => pktAsid (launchAt s sp.launch).pkt
      let s := coreError s sp.core bad (storEntry 6 asid sp.lane 0 ((Config.freeWord s.free).toNat % 64 * 256 + r))
      if bad then setSpan s i { sp with bad := putNum r sp.bad } else s

/-- A struck word of a scratchpad: met when something reads it (R345). -/
def strikeSpad (s : State) (die launch off e : Nat) : State :=
  let l := dieLocal s die launch
  if l.size ≤ off then s else setDieLocal s die launch { l with bad := strike l.bad (off / 4) e }

/-- A pinned line's tag, presence or domain bit lost: every word is poisoned, and the line is present (R345). -/
def loseLine (s : State) (die launch line : Nat) : State :=
  let l := dieLocal s die launch
  if l.size ≤ 128 * line then s
  else
    let asid := pktAsid (launchAt s launch).pkt
    let words := upTo (32 * line) 32
    let s := setDieLocal s die launch { l with
      absent := l.absent.filter (· ≠ line)
      bad := words.foldl (fun b w => strike b w 2) l.bad }
    dieError s die 2 (line % 32) asid (32 * line)

/-- A list without its element `i`. -/
def dropAt {α : Type} : List α → Nat → List α
  | [], _ => []
  | _ :: r, 0 => r
  | x :: r, i + 1 => x :: dropAt r i

/-- Every log-memory line of every L1 of a die invalidated (R345). -/
def dropLines (s : State) (die : Nat) : State :=
  { s with cores := tmap (fun c k => if dieOf c = die then { k with l1 := [] } else k) s.cores }

/-- Writers that hold something of a sub-page that is not committed. -/
def holdersOf (s : State) (asid sub : Nat) : List Nat :=
  (s.writers.filter (fun (n, w) => !ownerless n &&
    (w.tail.any (fun t => t.asid = asid && t.key / 128 = sub && t.st = .open) || w.pend.any (fun p => p.asid = asid && p.sub = sub) ||
      w.pubs.any (fun p => p.asid = asid && p.recs.any (fun r => r.1 = sub))))).map Prod.fst

/-- An ownership entry lost in both copies: every writer publishes what it holds for the page, and the entry is rebuilt from
their replies (R345). -/
def rebuildOwner (s : State) (asid lpn : Nat) : State :=
  let subs := upTo (16 * lpn) 16
  let hs := subs.map (fun k => (k, (holdersOf s asid k).head?))
  let s := (nodup (hs.filterMap Prod.snd)).foldl (fun s w => beginPublication s w asid) s
  let e : OwnEntry := { asid, lpn, owned := 0, sown := List.replicate 16 0 }
  hs.foldl (fun s (k, w) => match w with
    | some w => giveSub s asid k w
    | none => s) (setOwn s e)

/-- A pending record lost in both copies: every sector of its sub-page is published poisoned (R345). -/
def loseRecord (s : State) (wid : Nat) (r : PendRec) : State :=
  let w := writerAt s wid
  let mine (t : TailEntry) : Bool := t.asid = r.asid && t.key / 128 = r.sub
  let held := (w.tail.filter mine).map TailEntry.key
  let fresh := (upTo (128 * r.sub) 128).filter (fun k => !held.contains k)
  setWriter s wid { w with
    pend := w.pend.filter (· ≠ r)
    tail := w.tail.map (fun t => if mine t && t.mask ≠ 0xFFFFFFFF#32 then { t with poison := true } else t) ++
      fresh.map (fun key => { asid := r.asid, key, data := 0, mask := 0xFFFFFFFF#32, st := .open, born := r.born, tick := r.tick
                              ck := r.ck, poison := true }) }

/-- An atomic whose operand or result is lost: the target words are poisoned and each item of the step takes DATA_LOST (R345). -/
def loseAtomic (s : State) (die : Nat) (r : AtomicReq) : State :=
  let wid := 32 + die
  let s := r.ops.foldl (fun s (_, _, a, _, _) =>
    match tailWrite s wid r.asid (a / 32) 0 r.ck (List.replicate 32 0) with
    | none => s
    | some s =>
      let w := writerAt s wid
      setWriter s wid { w with tail := w.tail.map (fun t =>
        if t.asid = r.asid && t.key = a / 32 && t.st ≠ .appending then { t with poison := true } else t) }) s
  let d := dieAt s die
  let s := setDie s die { d with atomq := d.atomq.filter (· ≠ r) }
  let more := s.dies.any (fun d => d.2.atomq.any (fun q => q.id = r.id))
  let res := r.ops.map (fun (g, p, _) => (g, p, ([] : List Word)))
  let l := laneAt s r.core r.lane
  setLane s r.core r.lane { l with bundle := l.bundle.map (fun b =>
    if b.stall = some (.atomic r.id) then
      { b with stall := if more then b.stall else none, prog := { b.prog with results := b.prog.results ++ res } }
    else b) }

/-- SOFT_ERROR (R272, R345, R368, R370): a corrected error changes no state but its count. -/
def softError (s : State) (t : ErrTarget) (bad : Bool) : State :=
  let e := if bad then 1 else 0
  match t with
  | .vreg gang g p r => if p < 32 then strikeReg s gang g p r e else s
  | .repEntry gang g r => strikeReg s gang g 32 r e
  | .scalar gang g n =>
    if standing s gang && n < 64 * ((groupAt s gang g).blocks + 1) then
      updGroup s gang g (fun x => { x with badS := strike x.badS n e }) else s
  | .latch gang g p i => strikeLatch s gang g p i bad
  | .spanReg _ i r => strikeSpan s i r bad
  | .gmem gang off =>
    let g := gangAt s gang
    if standing s gang && off < g.gmemSize then setGang s gang { g with badGmem := strike g.badGmem (off / 4) e } else s
  | .acc core arr i =>
    let a := arrayAt s core arr
    if 4 ≤ arr || 16384 ≤ i then s else setArray s core arr { a with badAcc := strike a.badAcc i e }
  | .hold core arr w =>
    let a := arrayAt s core arr
    if 4 ≤ arr || a.latch.isNone then s
    else if bad then setArray s core arr { a with badLatch := putNum w a.badLatch } else count s core 0x12 1
  | .residue core arr col =>
    let a := arrayAt s core arr
    if 4 ≤ arr || 256 ≤ col then s else setArray s core arr { a with badCol := putNum col a.badCol }
  | .dataLine die i =>
    let d := dieAt s die;
    (match d.lines[i]? with
      | some x => if bad then dieError (setDie s die { d with lines := dropAt d.lines i }) die 0 (lineSlice x.pos) x.asid x.key else s
      | none => s)
  | .spad die launch off => strikeSpad s die launch off e
  | .spadTag die launch line => if bad then loseLine s die launch line else s
  | .transEntry die i =>
    let d := dieAt s die;
    (match d.tcache[i]? with
      | some x => if bad then dieError (setDie s die { d with tcache := dropAt d.tcache i }) die 3 (transSlice x.asid x.vpn) x.asid i else s
      | none => s)
  | .walkEntry die i =>
    let d := dieAt s die;
    (match d.walkCache[i]? with
      | some x => if bad then dieError (setDie s die { d with walkCache := dropAt d.walkCache i }) die 3 0 x.1 i else s
      | none => s)
  | .writerLeaf wid i =>
    let w := writerAt s wid;
    (match w.leaves[i]? with
      | some x => if bad then dieError (setWriter s wid { w with leaves := dropAt w.leaves i }) (writerDie wid) 3 (wid % 8) x.asid i else s
      | none => s)
  | .nodeEntry die i =>
    let d := dieAt s die;
    (match d.nodes[i]? with
      | some x => if bad then dieError (setDie s die { d with nodes := dropAt d.nodes i }) die 4 x.slice x.asid i else s
      | none => s)
  | .indexEntry die i =>
    let d := dieAt s die;
    (match d.maps[i]? with
      | some x => if bad then dieError (setDie s die { d with maps := dropAt d.maps i }) die 4 (mapSlice x.lpn x.sub) x.asid i else s
      | none => s)
  | .reverseEntry die i =>
    let d := dieAt s die;
    (match d.rmap[i]? with
      | some x => if bad then
          dieError (dropLines (setDie s die { d with rmap := dropAt d.rmap i }) die) die 5 ((x.lpn % 32) ^^^ (x.line % 32)) x.asid i else s
      | none => s)
  | .ownership die asid lpn both =>
    if !bad || homeDie asid lpn ≠ die || (ownEntry s asid lpn).owned = 0 then s
    else dieError (if both then rebuildOwner s asid lpn else s) die 6 (homeSlice asid lpn) asid (lpn % 2 ^ 31 * 2048)
  | .tailEntry wid i =>
    let w := writerAt s wid;
    (match w.tail[i]? with
      | some x => if bad then
          dieError (setWriter s wid { w with tail := w.tail.set i { x with poison := true } }) (writerDie wid) 7 (wid % 8) x.asid x.key else s
      | none => s)
  | .pendingRec wid i both =>
    (match (writerAt s wid).pend[i]? with
      | some r => if bad then
          dieError (if both then loseRecord s wid r else s) (writerDie wid) 8 (wid % 8) r.asid (r.sub * 128) else s
      | none => s)
  | .atomicWord die i =>
    (match (dieAt s die).atomq[i]? with
      | some r => if bad then
          let key := ((r.ops.head?.map (fun o => o.2.2.1)).getD 0) / 32
          dieError (loseAtomic s die r) die 9 (homeSlice r.asid (key / 2048)) r.asid key else s
      | none => s)
  | .sector stk six off =>
    let n := sectorNo stk six off
    if 8 ≤ stk || 16384 ≤ six || segSectors ≤ off then s
    else
      let worse := s.badLog.any (fun x => x.1 = n && x.2)
      { s with badLog := if worse then s.badLog else (n, bad) :: s.badLog.filter (fun x => x.1 ≠ n) }
  | .remap stk layer bank both =>
    let k := stackAt s stk
    if 8 ≤ stk || 17 ≤ layer || 64 ≤ bank || !bad || k.fenced.contains (layer, bank) then s
    else
      let here (r : Nat × Nat) : Bool := r.1 = layer && r.2 = bank
      let k := { k with badRemap := k.badRemap.filter (fun r => !here r) }
      if both then fenceBank (setStack s stk k) stk layer bank
      else setStack s stk { k with badRemap := (layer, bank) :: k.badRemap }

/-- SOFT_ERROR (R272), an event. -/
def execSoftError (target : ErrTarget) (uncorrectable : Bool) (s : State) : Out := .next (softError s target uncorrectable)

end Sys2Proof.Machine
end

