-- ==== Sys2Proof/Machine/Xform.lean ====
section
/-!
DEFINITION. The transform unit (R258 to R260): exact twiddles, the radix-4 transform, `xform` and its completion.
-/
namespace Sys2Proof.Machine

/-- Fixed-point one of the twiddles' computation. -/
def twOne : Nat := 2 ^ 240

/-- Cosine and sine of a right angle halved n times, in fixed point. -/
def halved : Nat → Nat × Nat
  | 0 => (0, twOne)
  | n + 1 =>
    let c := (halved n).1
    (isqrt ((twOne + c) / 2 * twOne), isqrt ((twOne - c) / 2 * twOne))

/-- Cosine and sine of the angle below a right angle whose binary fraction, most significant bit first, is given; `n` counts
the halvings of the bits. -/
def angleOf : Nat → List Bool → Int × Int
  | _, [] => (twOne, 0)
  | n, b :: r =>
    let (c, s) := angleOf (n + 1) r
    if b then
      let (p, q) := halved (n + 1)
      ((c * p - s * q) / twOne, (c * q + s * p) / twOne)
    else (c, s)

/-- A fixed-point value rounded to f32 (R45). -/
def twRound (x : Int) : Nat := (roundFin f32 (decide (x < 0)) x.natAbs twOne 0).1

/-- The twiddle e^(2πi·m/2^k) for k ≥ 2 and m < 2^k: the f32 of each part (R259). -/
def twiddle (k m : Nat) : Nat × Nat :=
  let r := m % 2 ^ (k - 2)
  let (c, s) := angleOf 0 ((upTo 0 (k - 2)).map (fun i => bit r (k - 3 - i)))
  let (x, y) : Int × Int := match m / 2 ^ (k - 2) with
    | 0 => (c, s)
    | 1 => (-s, c)
    | 2 => (-c, -s)
    | _ => (s, -c)
  (twRound x, twRound y)

/-- A complex f32 value. -/
abbrev Cplx := Nat × Nat

/-- A sum, each part rounded (R259). -/
def cAdd (a b : Cplx) : Cplx := ((floatAdd f32 a.1 b.1).1, (floatAdd f32 a.2 b.2).1)
/-- A difference, each part rounded (R259). -/
def cSub (a b : Cplx) : Cplx := ((floatSub f32 a.1 b.1).1, (floatSub f32 a.2 b.2).1)
/-- An f32 with its sign changed. -/
def fNeg (a : Nat) : Nat := a ^^^ 2 ^ 31
/-- A product by a twiddle: each part exact and rounded once (R259). -/
def cMul (a w : Cplx) : Cplx :=
  let v := unpack f32
  ((sumProducts f32 [(v a.1, v w.1), ((v a.2).negate, v w.2)]).1, (sumProducts f32 [(v a.1, v w.2), (v a.2, v w.1)]).1)

/-- Every fourth element of a list, from an offset on. -/
def everyFourth (m : Nat) (l : List Cplx) : List Cplx :=
  ((numbered 0 l).filter (fun x => x.1 % 4 = m)).map Prod.snd

/-- dft of R259 on 2^k elements; `inv` is σ = +1. `fuel` bounds the stages. -/
def dft (inv : Bool) : Nat → Nat → List Cplx → List Cplx
  | 0, _, z => z
  | _, 0, z => z
  | _, 1, z => match z with
    | [a, b] => [cAdd a b, cSub a b]
    | _ => z
  | fuel + 1, k + 2, z =>
    let q := 2 ^ k
    let fs := (upTo 0 4).map (fun m => dft inv fuel k (everyFourth m z))
    let u := (upTo 0 q).map (fun j =>
      let t (m : Nat) : Cplx :=
        let x := nth (nth fs m []) j (0, 0)
        if m = 0 || j = 0 then x
        else cMul x (twiddle (k + 2) (if inv then m * j else 4 * q - m * j))
      let (t0, t1, t2, t3) := (t 0, t 1, t 2, t 3)
      let d := cSub t1 t3
      (cAdd t0 t2, cSub t0 t2, cAdd t1 t3, if inv then (fNeg d.2, d.1) else (d.2, fNeg d.1)))
    u.map (fun (u0, _, u2, _) => cAdd u0 u2) ++ u.map (fun (_, u1, _, u3) => cAdd u1 u3) ++
      u.map (fun (u0, _, u2, _) => cSub u0 u2) ++ u.map (fun (_, u1, _, u3) => cSub u1 u3)

/-- An f32 scaled by 2^−k and rounded once into one part of an element (R45, R53, R259). -/
def xfCode (t : Tile) (f : BitVec 256) (k x : Nat) : Nat :=
  let v := match unpack f32 x with
    | .fin s n d e => Val.fin s n d (e - k)
    | v => v
  match t.ty with
  | 0 => (roundVal f32 v).1
  | 1 => (roundVal f16 v).1
  | 2 => (roundVal bf16 v).1
  | 3 => (roundVal bf16 v).1
  | 4 => (roundVal f16 v).1
  | _ => (encodeNar f v).1

/-- The first check that a transform fails, as cause and subcode, in the order of R247 (R258). -/
def xfCheck (size : Nat) (v : Cv) : Option (Nat × Nat) :=
  let sub (n : Nat) : Option (Nat × Nat) := some (0x12, n)
  let inv := bit v.desc.toNat 64
  if descField v.desc 95 65 ≠ 0 then sub 0x16
  else match v.hdrs with
    | [some hs, some hd] =>
      let a := tileOf hs
      let d := tileOf hd
      let fa := tileFmt v.fmts a
      let fd := tileFmt v.fmts d
      let time (t : Tile) : Bool := [0, 1, 2, 5].contains t.ty
      let freq (t : Tile) : Bool := [3, 4, 6].contains t.ty
      let b := a.block
      let bytes (t : Tile) (f : BitVec 256) (fr : Bool) : Nat :=
        ceilDiv ((if fr then a.rows * a.cols / 2 else a.rows * a.cols) * cellWidth t f) 8
      let ns := bytes a fa inv
      let nd := bytes d fd (!inv)
      let e := if inv then a.exp - a.blen else a.exp + a.blen
      if !tileOk hs || a.clen ≠ 0 || bits hd 127 120 ≠ 0 || bits hd 95 89 ≠ 0 || d.ty = 7 || (d.fmti ≠ 0 && d.ty < 5) ||
          d.base % 32 ≠ 0 then sub 0x10
      else if a.dom ≠ ofBool inv then some (0x0F, 0)
      else if !tileFmtOk v.fmts a || !tileFmtOk v.fmts d then sub 0x11
      else if (if inv then a.layout ≠ 2 || !freq a || !time d
          else 1 < a.layout || !time a || a.blen < 2 || 10 < a.blen || a.cols % b ≠ 0 || !freq d) then sub 0x12
      else if size < a.base + ns || size < d.base + nd then sub 0x13
      else if e < -128 || 127 < e then sub 0x14
      else if a.base < d.base + nd && d.base < a.base + ns then sub 0x15
      else none
    | _ => sub 0x13

/-- The complex input of a block of a time tile, and the inputs of the inverse from a frequency block (R259). -/
def xfInput (inv : Bool) (k : Nat) (l : List Cplx) : List Cplx :=
  if !inv then l.map (fun x => (x.1, 0))
  else
    let h := 2 ^ (k - 1)
    let s0 := nth l 0 (0, 0)
    let up := (upTo 1 (h - 1)).map (fun f => nth l f (0, 0))
    [(s0.1, 0)] ++ up ++ [(s0.2, 0)] ++ (up.reverse.map (fun x => (x.1, fNeg x.2)))

/-- A transform run to its end (R255, R258, R259): the destination's bytes, then its header. -/
def xfRun (s : State) (core gang : Nat) (v : Cv) : State :=
  match v.hdrs with
  | [some hs, some hd] =>
    let inv := bit v.desc.toNat 64
    let a := tileOf hs
    let d := tileOf hd
    let fa := tileFmt v.fmts a
    let fd := tileFmt v.fmts d
    let k := a.blen
    let b := 2 ^ k
    let q := a.cols / b
    let wa := cellWidth a fa
    let wd := cellWidth d fd
    let n := a.rows * a.cols / (if inv then 2 else 1)
    let s := meetLocal s core gang false [(a.base, ceilDiv (n * wa) 8)]
    let bad := badWords (gangAt s gang) a.base (ceilDiv (n * wa) 8)
    let src := ofBytes (engineBytes s gang a.base (ceilDiv (n * wa) 8))
    let get (i : Nat) : Cplx :=
      if bad.contains ((8 * a.base + i * wa) / 32) then (0, 0)
      else
        let p := elemParts a fa ((src >>> (i * wa)) % 2 ^ wa)
        ((roundVal f32 p.1).1, (roundVal f32 p.2).1)
    let timeAt (t c : Nat) (lay : Nat) : Nat := if lay = 0 then t * a.cols + c else c * a.rows + t
    let freqAt (t p f : Nat) : Nat := (f * a.rows + t) * q + p
    let blocks := (upTo 0 a.rows).flatMap (fun t => (upTo 0 q).map (fun p => (t, p)))
    -- the elements of each block with their places, and the results with theirs
    let ins (t p : Nat) : List (Nat × Nat) :=
      if inv then (upTo 0 (b / 2)).map (fun f => (freqAt t p f, p * b + f))
      else (upTo 0 b).map (fun j => (timeAt t (p * b + j) a.layout, p * b + j))
    let outs (t p : Nat) : List (Nat × Nat) :=
      let y := dft inv 6 k (xfInput inv k ((ins t p).map (fun x => get x.1)))
      if inv then (numbered 0 y).map (fun (j, z) => (timeAt t (p * b + j) 0, xfCode d fd 0 z.1 % 2 ^ wd))
      else (upTo 0 (b / 2)).map (fun f =>
        let z : Cplx := if f = 0 then ((nth y 0 (0, 0)).1, (nth y (b / 2) (0, 0)).1) else nth y f (0, 0)
        (freqAt t p f, xfCode d fd k z.1 % 2 ^ (wd / 2) + xfCode d fd k z.2 % 2 ^ (wd / 2) * 2 ^ (wd / 2)))
    let logs := blocks.flatMap (fun (t, p) => ((ins t p).filter (fun x => bad.contains ((8 * a.base + x.1 * wa) / 32))).map
      (fun x => matEntry 5 0 0 t x.2 v.pc))
    let codes := sortBy Prod.fst (blocks.flatMap (fun (t, p) => outs t p))
    let bitsOut := codes.length * wd
    let old := mread (gangAt s gang).gmem d.base (ceilDiv bitsOut 8)
    let s := matLogAll s core logs
    let s := engineWrite s gang d.base (layBits old 0 bitsOut (packBits (codes.map (fun x => (wd, x.2))))) !inv
    let e := (BitVec.ofInt 8 (if inv then a.exp - k else a.exp + k)).toNat
    let hd' := fields [(0, d.base), (32, a.rows), (48, a.cols), (64, d.ty), (67, d.fmti), (72, ofBool !inv),
      (74, if inv then 0 else 2), (77, k), (81, e)]
    engineWrite s gang (descField v.desc 63 32) (toBytes 16 hd') !inv
  | _ => s

/-- XFORM_COMPLETE (R249, R260): the running transform of a core ends. -/
def xformDone (s : State) (core : Nat) : State :=
  match (coreAt s core).xforms with
  | [] => s
  | o :: _ =>
    let v := cvAt s o.gang o.cv
    match xfCheck (gangAt s o.gang).gmemSize v with
    | some c => unitDone s core 4 (some (cvTrap o.cv v c))
    | none => unitDone (xfRun s core o.gang v) core 4 none

/-- `xform` (R258): its signers are the real items that meet no cause. -/
def xformStep (o : XformOp) (s : State) : State :=
  let u : Uses := { named := [(124, 3)], read := [(124, 3)], ext := BitVec.ofNat 32 o.dsc.toNat }
  engStep u (120, 0) (fun s w g p => earlyTrap (groupAt s w.b.gang g) p u) (fun s w =>
    let gang := w.b.gang
    let k := o.cv.toNat
    let real := w.b.members.filter (fun m => !(itemAt s gang m.1 m.2).helper)
    let causes := real.map (fun (g, p) => (g, p, (useTrap (groupAt s gang g) p u).or
      (cvTrapOf (cvAt s gang k) (itemAt s gang g p) k)))
    let ts := causes.filterMap (fun c => c.2.2.map (fun t => (c.1, c.2.1, t)))
    let signers := (causes.filter (fun c => c.2.2.isNone)).map (fun c => (c.1, c.2.1))
    let fin (s : State) : State := conclude s w { go := w.b.members, traps := ts, zero := [] } 120 0 1 { chained := o.c } false
    match signers with
    | [] => fin s
    | (g, p) :: _ =>
      if unitFull s w.core 4 then stallOn s w (.place 4)
      else
        let desc := BitVec.ofNat 192 (scalarNumber (groupAt s gang g) o.dsc.toNat 3)
        let v : Cv := { st := .collecting, desc, xform := true, pc := (itemAt s gang g p).pc, groups := groupsOf signers
                        fmts := (gangAt s gang).fmt }
        fin (issueCv (signers.foldl (fun s (g, p) => setSb s gang g p k) (setCv s gang k v)) gang k)) s

/-- XFORM (R258). -/
def execXform (o : XformOp) (s : State) : Out := .next (xformStep o s)
/-- XFORM_COMPLETE (R260), an event: it can happen while the unit has an operation. -/
def execXformComplete (core : Nat) (s : State) : Out := .next (xformDone s core)

end Sys2Proof.Machine
end

