-- ==== Sys2Proof/Machine/Dispatch.lean ====
section
/-!
DEFINITION. The meaning of every instruction and machine event: one arm per constructor of Instr.
-/
namespace Sys2Proof.Machine

/-- The meaning of one instruction or event in a state. -/
def exec (i : Instr) (s : State) : Host.Outcome State Fault Refusal :=
  match i with
  | .add o => Sys2Proof.Machine.execAdd o s
  | .sub o => Sys2Proof.Machine.execSub o s
  | .mul o => Sys2Proof.Machine.execMul o s
  | .mulhiI o => Sys2Proof.Machine.execMulhiI o s
  | .mulhiN o => Sys2Proof.Machine.execMulhiN o s
  | .mad o => Sys2Proof.Machine.execMad o s
  | .minI o => Sys2Proof.Machine.execMinI o s
  | .maxI o => Sys2Proof.Machine.execMaxI o s
  | .minN o => Sys2Proof.Machine.execMinN o s
  | .maxN o => Sys2Proof.Machine.execMaxN o s
  | .and o => Sys2Proof.Machine.execAnd o s
  | .or o => Sys2Proof.Machine.execOr o s
  | .xor o => Sys2Proof.Machine.execXor o s
  | .andn o => Sys2Proof.Machine.execAndn o s
  | .shl o => Sys2Proof.Machine.execShl o s
  | .shr o => Sys2Proof.Machine.execShr o s
  | .sar o => Sys2Proof.Machine.execSar o s
  | .rol o => Sys2Proof.Machine.execRol o s
  | .clz o => Sys2Proof.Machine.execClz o s
  | .popc o => Sys2Proof.Machine.execPopc o s
  | .brev o => Sys2Proof.Machine.execBrev o s
  | .bfx o => Sys2Proof.Machine.execBfx o s
  | .bfi o => Sys2Proof.Machine.execBfi o s
  | .fsh o => Sys2Proof.Machine.execFsh o s
  | .sel o => Sys2Proof.Machine.execSel o s
  | .abs o => Sys2Proof.Machine.execAbs o s
  | .neg o => Sys2Proof.Machine.execNeg o s
  | .divN o => Sys2Proof.Machine.execDivN o s
  | .remN o => Sys2Proof.Machine.execRemN o s
  | .divI o => Sys2Proof.Machine.execDivI o s
  | .remI o => Sys2Proof.Machine.execRemI o s
  | .mov o => Sys2Proof.Machine.execMov o s
  | .addi o => Sys2Proof.Machine.execAddi o s
  | .andi o => Sys2Proof.Machine.execAndi o s
  | .ori o => Sys2Proof.Machine.execOri o s
  | .xori o => Sys2Proof.Machine.execXori o s
  | .shli o => Sys2Proof.Machine.execShli o s
  | .shri o => Sys2Proof.Machine.execShri o s
  | .sari o => Sys2Proof.Machine.execSari o s
  | .movi o => Sys2Proof.Machine.execMovi o s
  | .icmp o => Sys2Proof.Machine.execIcmp o s
  | .fcmp o => Sys2Proof.Machine.execFcmp o s
  | .cop o => Sys2Proof.Machine.execCop o s
  | .cset o => Sys2Proof.Machine.execCset o s
  | .add64 o => Sys2Proof.Machine.execAdd64 o s
  | .sub64 o => Sys2Proof.Machine.execSub64 o s
  | .lea o => Sys2Proof.Machine.execLea o s
  | .cvt64 o => Sys2Proof.Machine.execCvt64 o s
  | .fadd o => Sys2Proof.Machine.execFadd o s
  | .fsub o => Sys2Proof.Machine.execFsub o s
  | .fmul o => Sys2Proof.Machine.execFmul o s
  | .ffma o => Sys2Proof.Machine.execFfma o s
  | .fmin o => Sys2Proof.Machine.execFmin o s
  | .fmax o => Sys2Proof.Machine.execFmax o s
  | .fabs o => Sys2Proof.Machine.execFabs o s
  | .fneg o => Sys2Proof.Machine.execFneg o s
  | .fclass o => Sys2Proof.Machine.execFclass o s
  | .fscale o => Sys2Proof.Machine.execFscale o s
  | .frcp o => Sys2Proof.Machine.execFrcp o s
  | .frsq o => Sys2Proof.Machine.execFrsq o s
  | .fsqrt o => Sys2Proof.Machine.execFsqrt o s
  | .fex2 o => Sys2Proof.Machine.execFex2 o s
  | .flg2 o => Sys2Proof.Machine.execFlg2 o s
  | .fsin o => Sys2Proof.Machine.execFsin o s
  | .fcos o => Sys2Proof.Machine.execFcos o s
  | .ftanh o => Sys2Proof.Machine.execFtanh o s
  | .hadd2 o => Sys2Proof.Machine.execHadd2 o s
  | .hmul2 o => Sys2Proof.Machine.execHmul2 o s
  | .hfma2 o => Sys2Proof.Machine.execHfma2 o s
  | .hmin2 o => Sys2Proof.Machine.execHmin2 o s
  | .hmax2 o => Sys2Proof.Machine.execHmax2 o s
  | .hdot2 o => Sys2Proof.Machine.execHdot2 o s
  | .cmul o => Sys2Proof.Machine.execCmul o s
  | .cfma o => Sys2Proof.Machine.execCfma o s
  | .cvt o => Sys2Proof.Machine.execCvt o s
  | .pkn o => Sys2Proof.Machine.execPkn o s
  | .unpk o => Sys2Proof.Machine.execUnpk o s
  | .frnd o => Sys2Proof.Machine.execFrnd o s
  | .f2i o => Sys2Proof.Machine.execF2i o s
  | .i2f o => Sys2Proof.Machine.execI2f o s
  | .bra o => Sys2Proof.Machine.execBra o s
  | .brl o => Sys2Proof.Machine.execBrl o s
  | .call o => Sys2Proof.Machine.execCall o s
  | .calli o => Sys2Proof.Machine.execCalli o s
  | .ret o => Sys2Proof.Machine.execRet o s
  | .jmpi o => Sys2Proof.Machine.execJmpi o s
  | .join o => Sys2Proof.Machine.execJoin o s
  | .exit o => Sys2Proof.Machine.execExit o s
  | .yield o => Sys2Proof.Machine.execYield o s
  | .nop o => Sys2Proof.Machine.execNop o s
  | .trap o => Sys2Proof.Machine.execTrap o s
  | .pour o => Sys2Proof.Machine.execPour o s
  | .repq o => Sys2Proof.Machine.execRepq o s
  | .reord o => Sys2Proof.Machine.execReord o s
  | .ldv o => Sys2Proof.Machine.execLdv o s
  | .stv o => Sys2Proof.Machine.execStv o s
  | .ldk o => Sys2Proof.Machine.execLdk o s
  | .stk o => Sys2Proof.Machine.execStk o s
  | .ldd o => Sys2Proof.Machine.execLdd o s
  | .std o => Sys2Proof.Machine.execStd o s
  | .ldf o => Sys2Proof.Machine.execLdf o s
  | .stf o => Sys2Proof.Machine.execStf o s
  | .atv o => Sys2Proof.Machine.execAtv o s
  | .atk o => Sys2Proof.Machine.execAtk o s
  | .atd o => Sys2Proof.Machine.execAtd o s
  | .fence o => Sys2Proof.Machine.execFence o s
  | .cpy o => Sys2Proof.Machine.execCpy o s
  | .cwait o => Sys2Proof.Machine.execCwait o s
  | .spill o => Sys2Proof.Machine.execSpill o s
  | .fill o => Sys2Proof.Machine.execFill o s
  | .xq o => Sys2Proof.Machine.execXq o s
  | .xg o => Sys2Proof.Machine.execXg o s
  | .perm o => Sys2Proof.Machine.execPerm o s
  | .vote o => Sys2Proof.Machine.execVote o s
  | .gred o => Sys2Proof.Machine.execGred o s
  | .barr o => Sys2Proof.Machine.execBarr o s
  | .barrDrop o => Sys2Proof.Machine.execBarrDrop o s
  | .barw o => Sys2Proof.Machine.execBarw o s
  | .xacqV o => Sys2Proof.Machine.execXacqV o s
  | .xacqS o => Sys2Proof.Machine.execXacqS o s
  | .xrelV o => Sys2Proof.Machine.execXrelV o s
  | .xrelS o => Sys2Proof.Machine.execXrelS o s
  | .msign o => Sys2Proof.Machine.execMsign o s
  | .mma o => Sys2Proof.Machine.execMma o s
  | .mwait o => Sys2Proof.Machine.execMwait o s
  | .maccZero o => Sys2Proof.Machine.execMaccZero o s
  | .maccRd o => Sys2Proof.Machine.execMaccRd o s
  | .maccSt o => Sys2Proof.Machine.execMaccSt o s
  | .maccLd o => Sys2Proof.Machine.execMaccLd o s
  | .maccStat o => Sys2Proof.Machine.execMaccStat o s
  | .xform o => Sys2Proof.Machine.execXform o s
  | .getst o => Sys2Proof.Machine.execGetst o s
  | .setst o => Sys2Proof.Machine.execSetst o s
  | .fmtld o => Sys2Proof.Machine.execFmtld o s
  | .fmtst o => Sys2Proof.Machine.execFmtst o s
  | .patld o => Sys2Proof.Machine.execPatld o s
  | .evsig o => Sys2Proof.Machine.execEvsig o s
  | .evwait o => Sys2Proof.Machine.execEvwait o s
  | .launch o => Sys2Proof.Machine.execLaunch o s
  | .trig o => Sys2Proof.Machine.execTrig o s
  | .snap o => Sys2Proof.Machine.execSnap o s
  | .snaprel o => Sys2Proof.Machine.execSnaprel o s
  | .rollback o => Sys2Proof.Machine.execRollback o s
  | .rett o => Sys2Proof.Machine.execRett o s
  | .ctxsv o => Sys2Proof.Machine.execCtxsv o s
  | .ctxld o => Sys2Proof.Machine.execCtxld o s
  | .halt o => Sys2Proof.Machine.execHalt o s
  | .perfrd o => Sys2Proof.Machine.execPerfrd o s
  | .errlog o => Sys2Proof.Machine.execErrlog o s
  | .inject o => Sys2Proof.Machine.execInject o s
  | .pourSetupDone core lane => Sys2Proof.Machine.execPourSetupDone core lane s
  | .workingSetFetchDone core lane => Sys2Proof.Machine.execWorkingSetFetchDone core lane s
  | .bankFetchDone core lane => Sys2Proof.Machine.execBankFetchDone core lane s
  | .loadDataReturn core lane => Sys2Proof.Machine.execLoadDataReturn core lane s
  | .exchangeRelease gang g quad xg => Sys2Proof.Machine.execExchangeRelease gang g quad xg s
  | .cohortWatchdog gang g gpos => Sys2Proof.Machine.execCohortWatchdog gang g gpos s
  | .matrixOpComplete core arr => Sys2Proof.Machine.execMatrixOpComplete core arr s
  | .xformComplete core => Sys2Proof.Machine.execXformComplete core s
  | .copyLineWritten copy unit => Sys2Proof.Machine.execCopyLineWritten copy unit s
  | .copyComplete copy => Sys2Proof.Machine.execCopyComplete copy s
  | .copyTransferFault copy unit => Sys2Proof.Machine.execCopyTransferFault copy unit s
  | .trapDelivery gang g gpos => Sys2Proof.Machine.execTrapDelivery gang g gpos s
  | .preemptRequest gang => Sys2Proof.Machine.execPreemptRequest gang s
  | .gangSave gang => Sys2Proof.Machine.execGangSave gang s
  | .gangRestore gang => Sys2Proof.Machine.execGangRestore gang s
  | .coreReport core => Sys2Proof.Machine.execCoreReport core s
  | .gangPlace die => Sys2Proof.Machine.execGangPlace die s
  | .placementAgeHold gang => Sys2Proof.Machine.execPlacementAgeHold gang s
  | .qosVictimSeek gang => Sys2Proof.Machine.execQosVictimSeek gang s
  | .reordBinTimeout die => Sys2Proof.Machine.execReordBinTimeout die s
  | .tailAgeAppend wid => Sys2Proof.Machine.execTailAgeAppend wid s
  | .ownershipRequest wid asid lpn sub => Sys2Proof.Machine.execOwnershipRequest wid asid lpn sub s
  | .ownershipHandover asid lpn sub => Sys2Proof.Machine.execOwnershipHandover asid lpn sub s
  | .pendingAgePublish wid asid => Sys2Proof.Machine.execPendingAgePublish wid asid s
  | .commitRequest die asid => Sys2Proof.Machine.execCommitRequest die asid s
  | .invalidationMessage die asid => Sys2Proof.Machine.execInvalidationMessage die asid s
  | .invalidationAck wid asid => Sys2Proof.Machine.execInvalidationAck wid asid s
  | .walkStart die => Sys2Proof.Machine.execWalkStart die s
  | .walkComplete die walker => Sys2Proof.Machine.execWalkComplete die walker s
  | .shootdownComplete fn => Sys2Proof.Machine.execShootdownComplete fn s
  | .atomicPerform die => Sys2Proof.Machine.execAtomicPerform die s
  | .atomicUnitPublish die asid => Sys2Proof.Machine.execAtomicUnitPublish die asid s
  | .stackRead stack => Sys2Proof.Machine.execStackRead stack s
  | .stackAppend stack => Sys2Proof.Machine.execStackAppend stack s
  | .stackFread stack => Sys2Proof.Machine.execStackFread stack s
  | .stackFwrite stack => Sys2Proof.Machine.execStackFwrite stack s
  | .stackSegopen stack => Sys2Proof.Machine.execStackSegopen stack s
  | .stackSegseal stack => Sys2Proof.Machine.execStackSegseal stack s
  | .stackCompletion stack => Sys2Proof.Machine.execStackCompletion stack s
  | .stackScrub stack => Sys2Proof.Machine.execStackScrub stack s
  | .logFullTimeout stack => Sys2Proof.Machine.execLogFullTimeout stack s
  | .fettlerScan stack => Sys2Proof.Machine.execFettlerScan stack s
  | .segmentFree stack seg => Sys2Proof.Machine.execSegmentFree stack seg s
  | .migrationComplete hostOk => Sys2Proof.Machine.execMigrationComplete hostOk s
  | .migrationTimeout => Sys2Proof.Machine.execMigrationTimeout s
  | .launchStart fn queue => Sys2Proof.Machine.execLaunchStart fn queue s
  | .launchComplete launch => Sys2Proof.Machine.execLaunchComplete launch s
  | .evwaitTimeout core lane => Sys2Proof.Machine.execEvwaitTimeout core lane s
  | .functionResetComplete fn => Sys2Proof.Machine.execFunctionResetComplete fn s
  | .capctlArm => Sys2Proof.Machine.execCapctlArm s
  | .capctlFire => Sys2Proof.Machine.execCapctlFire s
  | .captureLatch => Sys2Proof.Machine.execCaptureLatch s
  | .clockRecoverStep die => Sys2Proof.Machine.execClockRecoverStep die s
  | .spdmGetCertificate => Sys2Proof.Machine.execSpdmGetCertificate s
  | .spdmGetMeasurements => Sys2Proof.Machine.execSpdmGetMeasurements s
  | .idleFlitTimer port => Sys2Proof.Machine.execIdleFlitTimer port s
  | .trainTimeout port => Sys2Proof.Machine.execTrainTimeout port s
  | .packetRoute port => Sys2Proof.Machine.execPacketRoute port s
  | .bulkCreditTimeout idx => Sys2Proof.Machine.execBulkCreditTimeout idx s
  | .resendTimeout idx => Sys2Proof.Machine.execResendTimeout idx s
  | .pktWrite p => Sys2Proof.Machine.execPktWrite p s
  | .rdreq p => Sys2Proof.Machine.execRdreq p s
  | .rddata p => Sys2Proof.Machine.execRddata p s
  | .spwr p => Sys2Proof.Machine.execSpwr p s
  | .dack p => Sys2Proof.Machine.execDack p s
  | .cdone p => Sys2Proof.Machine.execCdone p s
  | .segship p => Sys2Proof.Machine.execSegship p s
  | .segpart p => Sys2Proof.Machine.execSegpart p s
  | .fixwr p => Sys2Proof.Machine.execFixwr p s
  | .cship p => Sys2Proof.Machine.execCship p s
  | .repack p => Sys2Proof.Machine.execRepack p s
  | .launchPacket p => Sys2Proof.Machine.execLaunchPacket p s
  | .startbar p => Sys2Proof.Machine.execStartbar p s
  | .ldone p => Sys2Proof.Machine.execLdone p s
  | .trigPacket p => Sys2Proof.Machine.execTrigPacket p s
  | .notice p => Sys2Proof.Machine.execNotice p s
  | .mwr p => Sys2Proof.Machine.execMwr p s
  | .mrd p => Sys2Proof.Machine.execMrd p s
  | .mrsp p => Sys2Proof.Machine.execMrsp p s
  | .retire p => Sys2Proof.Machine.execRetire p s
  | .genmark p => Sys2Proof.Machine.execGenmark p s
  | .genmarkTimer group => Sys2Proof.Machine.execGenmarkTimer group s
  | .copySetTimeout die idx => Sys2Proof.Machine.execCopySetTimeout die idx s
  | .replicaAckTimeout group member => Sys2Proof.Machine.execReplicaAckTimeout group member s
  | .rtswap => Sys2Proof.Machine.execRtswap s
  | .spareFillComplete group => Sys2Proof.Machine.execSpareFillComplete group s
  | .fillPacket p => Sys2Proof.Machine.execFillPacket p s
  | .performedTagExpiry idx => Sys2Proof.Machine.execPerformedTagExpiry idx s
  | .spdmSessionEstablish => Sys2Proof.Machine.execSpdmSessionEstablish s
  | .migrateToHostCommand fn ctl => Sys2Proof.Machine.execMigrateToHostCommand fn ctl s
  | .migrateToDeviceCommand fn ctl => Sys2Proof.Machine.execMigrateToDeviceCommand fn ctl s
  | .pageRequestAnswer granted page => Sys2Proof.Machine.execPageRequestAnswer granted page s
  | .qslotWrite fn off data => Sys2Proof.Machine.execQslotWrite fn off data s
  | .evadd fn val => Sys2Proof.Machine.execEvadd fn val s
  | .eventSlotWrite fn slot val => Sys2Proof.Machine.execEventSlotWrite fn slot val s
  | .ctrlRst fn val => Sys2Proof.Machine.execCtrlRst fn val s
  | .flr fn => Sys2Proof.Machine.execFlr fn s
  | .hgptrWrite fn val => Sys2Proof.Machine.execHgptrWrite fn val s
  | .mtimeWrite val => Sys2Proof.Machine.execMtimeWrite val s
  | .supplySag die => Sys2Proof.Machine.execSupplySag die s
  | .moduleReset boot => Sys2Proof.Machine.execModuleReset boot s
  | .registerWrite fn off val => Sys2Proof.Machine.execRegisterWrite fn off val s
  | .flitReceive port flit => Sys2Proof.Machine.execFlitReceive port flit s
  | .laneFault port lane far => Sys2Proof.Machine.execLaneFault port lane far s
  | .trainComplete port peer => Sys2Proof.Machine.execTrainComplete port peer s
  | .pctlUp port => Sys2Proof.Machine.execPctlUp port s
  | .pctlDis port => Sys2Proof.Machine.execPctlDis port s
  | .rgtWrite group val => Sys2Proof.Machine.execRgtWrite group val s
  | .gcmdFail group member => Sys2Proof.Machine.execGcmdFail group member s
  | .gcmdSpare group member ep => Sys2Proof.Machine.execGcmdSpare group member ep s
  | .gcmdClear group => Sys2Proof.Machine.execGcmdClear group s
  | .laneRecovery port lane far => Sys2Proof.Machine.execLaneRecovery port lane far s
  | .softError target uncorrectable => Sys2Proof.Machine.execSoftError target uncorrectable s
  | .ideKeyManagement key => Sys2Proof.Machine.execIdeKeyManagement key s
  | .shootdownCommand fn ctl => Sys2Proof.Machine.execShootdownCommand fn ctl s

end Sys2Proof.Machine
end

