-- ==== Sys2Proof/Machine/Pending.lean ====
section
/-!
DEFINITION. Which part of the module acts next when the agenda is empty: an internal event whose condition holds, then
a lane that can issue, then the clock.
-/
namespace Sys2Proof.Machine

/-- Events that a die may have next. -/
def dieEvents (n : Nat) (d : Die) : List Instr :=
  d.inbox.map (fun m => .invalidationMessage n m.asid) ++ d.commits.map (fun r => .commitRequest n r.asid) ++
    d.ownq.map (fun r => .ownershipHandover r.asid r.lpn r.sub) ++ (if d.missq.isEmpty then [] else [.walkStart n]) ++
    d.walkers.map (fun w => .walkComplete n w.1) ++ (if d.atomq.isEmpty then [] else [.atomicPerform n]) ++
    (if d.bins.isEmpty then [] else [.reordBinTimeout n]) ++ (if d.period ≤ 16 then [] else [.clockRecoverStep n])

/-- Events that a writer of log space may have next. -/
def writerEvents (s : State) (n : Nat) (w : Writer) : List Instr :=
  let asids := nodup (w.tail.map TailEntry.asid ++ w.pend.map PendRec.asid ++ w.wanted.map Prod.fst ++ w.pubs.map Pub.asid)
  (if w.tail.isEmpty then [] else [.tailAgeAppend n]) ++
    ((wantedSubs s n).filter (fun x => !requested s n x.1 x.2)).map (fun x => .ownershipRequest n x.1 (x.2 / 16) (x.2 % 16)) ++
    asids.flatMap (fun a => (if 32 ≤ n && n < 36 then [.atomicUnitPublish (n - 32) a] else []) ++ [.pendingAgePublish n a]) ++
    (nodup (w.pubs.map Pub.asid)).map (fun a => .invalidationAck n a) ++
    (if 36 ≤ n && n < 40 then (upTo 0 w.sets.length).map (fun i => .copySetTimeout (n - 36) i) else [])

/-- Events that a memory stack may have next; it scrubs every 24 hours (R368). -/
def stackEvents (now n : Nat) (k : Stack) : List Instr :=
  (k.reqs.map (fun r => match r with
    | .read _ _ _ _ => .stackRead n
    | .append _ _ _ _ => .stackAppend n
    | .fread _ _ _ _ => .stackFread n
    | .fwrite _ _ _ _ => .stackFwrite n
    | .segopen _ _ _ => .stackSegopen n
    | .segseal _ _ _ _ _ => .stackSegseal n)) ++
    (if k.done.isEmpty then [] else [.stackCompletion n]) ++ (if now < k.scrubbed + usec 86400000000 then [] else [.stackScrub n]) ++
    [.logFullTimeout n, .fettlerScan n] ++
    (k.segs.filter (fun m => m.2.st = .cleaning)).map (fun m => .segmentFree n m.1)

/-- Events that a core may have next. -/
def coreEvents (n : Nat) (k : Core) : List Instr :=
  k.lanes.flatMap (fun (l, x) =>
    (if x.setup.isEmpty then [] else [.pourSetupDone n l]) ++ (if x.fetch.isNone then [] else [.workingSetFetchDone n l]) ++
      (match x.bundle.bind Bundle.stall with
        | some (.bank _ _) => [.bankFetchDone n l]
        | some (.evwait _ _ _) => [.evwaitTimeout n l]
        | _ => []) ++ [.loadDataReturn n l]) ++
    (k.arrays.filter (fun a => a.2.queue.head?.any (fun o => !maccTurn o))).map (fun a => .matrixOpComplete n a.1) ++
    (if k.xforms.isEmpty then [] else [.xformComplete n]) ++ (if k.dirty then [.coreReport n] else [])

/-- Events that an item may have next. -/
def itemEvents (gang g p : Nat) (t : Item) : List Instr :=
  match t.wait with
  | .exchange xg => [.exchangeRelease gang g (p / 4) xg]
  | .parked _ _ _ => [.trapDelivery gang g p]
  | .stackCopy => [.trapDelivery gang g p]
  | .line _ _ => [.cohortWatchdog gang g p]
  | .full true _ _ _ => [.cohortWatchdog gang g p]
  | _ => []

/-- Events that a gang may have next. -/
def gangEvents (s : State) (n : Nat) (g : Gang) : List Instr :=
  (match g.phase with
    | .waiting => [.gangPlace g.die, .placementAgeHold n, .qosVictimSeek n]
    | .saved => [.gangRestore n, .placementAgeHold n, .qosVictimSeek n]
    | .resident => [.preemptRequest n]
    | .stopping => [.gangSave n]
    | _ => []) ++
  g.groups.flatMap (fun (i, x) => x.items.flatMap (fun (p, t) => itemEvents n i p t)) ++
  g.groups.flatMap (fun (i, x) => match (laneAt s g.core x.lane).bundle with
    | some b => (match b.stall with
      | some (.tableLine _ _) => (inGroup b.members i).map (fun p => .cohortWatchdog n i p)
      | _ => [])
    | none => [])

/-- Events that a copy may have next. -/
def copyEvents (n : Nat) (c : Copy) : List Instr :=
  if c.finished then []
  else if c.stopped then [.copyComplete n]
  else ((upTo 0 (copyUnits c)).filter (fun u => (gathered c && u = 0) || !c.wrote.contains u)).flatMap (fun u => [.copyLineWritten n u, .copyTransferFault n u]) ++
    [.copyComplete n]

/-- Events that the fabric block may have next. -/
def fabricEvents (f : Fabric) : List Instr :=
  f.ports.flatMap (fun (n, x) => [.idleFlitTimer n, .trainTimeout n] ++ (if x.rx.isEmpty then [] else [.packetRoute n])) ++
    (if f.inq.isEmpty then [] else [.packetRoute 12]) ++ (upTo 0 f.waiting.length).map .bulkCreditTimeout ++
    (upTo 0 f.sent.length).map .resendTimeout ++ (upTo 0 f.performed.length).map .performedTagExpiry ++
    f.pending.filterMap packetEvent ++ (if f.swapping then [.rtswap] else []) ++
    f.rgt.flatMap (fun (n, e) => [.genmarkTimer n, .spareFillComplete n] ++
      (rgtMembers e.toNat).map (fun m => .replicaAckTimeout n m))

/-- Events that may happen now of the module's own accord, unit by unit; the spec orders none of them against another. -/
def candidates (s : State) : List Instr :=
  s.stks.flatMap (fun (n, k) => stackEvents s.now n k) ++ s.dies.flatMap (fun (n, d) => dieEvents n d) ++
    s.writers.flatMap (fun (n, w) => writerEvents s n w) ++ s.cores.flatMap (fun (n, k) => coreEvents n k) ++
    s.gangs.flatMap (fun (n, g) => gangEvents s n g) ++ s.copies.flatMap (fun (n, c) => copyEvents n c) ++
    s.launches.flatMap (fun (n, x) => if unstarted x.phase then [.launchStart x.fn x.queue] else [.launchComplete n]) ++
    s.fns.flatMap (fun (n, x) => (if x.sdq.isEmpty then [] else [.shootdownComplete n]) ++
      (if x.spstat.getLsbD 14 then [.functionResetComplete n] else [])) ++
    (if s.migs.isEmpty then [] else [.migrationComplete true, .migrationTimeout]) ++
    (if s.capture.fired && !s.capture.latched then [.captureLatch] else []) ++ fabricEvents s.fabric

/-- The state after an event, when the event changes anything. -/
def changed (exec : Instr → State → Host.Outcome State Fault Refusal) (s : State) (i : Instr) : Option State :=
  match exec i s with
  | .next t => if t = s then none else some t
  | _ => none

/-- The state after the first internal event that can happen now. -/
def nextInternal (exec : Instr → State → Host.Outcome State Fault Refusal) (s : State) : Option State :=
  (candidates s).findSome? (changed exec s)

/-- Cores that may have something to issue: those that hold a gang or a span. -/
def busyCores (s : State) : List Nat :=
  nodup ((s.cores.filter (fun c => c.2.lanes.any (fun l => l.2.bundle.isSome || !l.2.res.isEmpty))).map Prod.fst ++
    s.spans.map (fun p => p.2.core))

/-- Lanes of a core that may have something to issue. -/
def busyLanes (s : State) (core : Nat) : List Nat :=
  sortBy id (nodup (((coreAt s core).lanes.filter (fun l => l.2.bundle.isSome || !l.2.res.isEmpty)).map Prod.fst ++
    (s.spans.filter (fun p => p.2.core = core)).map (fun p => p.2.lane)))

/-- The first lane that can issue, lowest core and lane first. -/
def nextLane (exec : Instr → State → Host.Outcome State Fault Refusal) (s : State) : Option LaneAct :=
  ((sortBy id (busyCores s)).flatMap (fun c => (busyLanes s c).map (fun l => (c, l)))).findSome? (fun (c, l) =>
    match laneAct exec s c l with
    | .idle => none
    | a => some a)

/-- What a lane's turn answers. -/
def laneResult (exec : Instr → State → Host.Outcome State Fault Refusal) (s : State) (a : LaneAct) :
    Host.Outcome State Fault Refusal :=
  match a with
  | .idle => .next s
  | .state t => .next t
  | .run i t => exec i t

/-- A count of a core raised (R156). -/
def bump (perf : Tbl Nat) (code n : Nat) : Tbl Nat := if n = 0 then perf else tput perf code ((tget perf code 0 + n) % 2 ^ 48)

/-- A core's counts of clk that pass: stalls at a table line under R143's terms, other stalls but those for banks, lanes with
no bundle for lack of a working set, and waiting heads of `xacq` queues (R142, R146, R156). -/
def tickCore (now n : Nat) (k : Core) : Core :=
  let with' (f : Lane → Bool) : Nat := (k.lanes.filter (fun l => f l.2)).length
  let stalls (f : Stall → Bool) : Nat := with' (fun l => l.bundle.any (fun b => b.stall.any f))
  let table := stalls (fun st => match st with
    | .tableLine _ _ => true
    | _ => false)
  let other := stalls (fun st => match st with
    | .tableLine _ _ => false
    | .bank _ _ => false
    | _ => true)
  let sets := with' (fun l => l.fetch.isSome && l.bundle.isNone && decide (l.busy ≤ now))
  let queued := with' (fun l => !l.queue.isEmpty)
  if table + other + sets + queued = 0 then k
  else { k with perf := bump (bump (bump (bump k.perf 0x05 (table * n)) 0x80 (other * n)) 0x06 (sets * n)) 0x08 (queued * n) }

/-- The clk of a die that runs at a stretched clock are counted (R420, R424). -/
def tickDie (n : Nat) (d : Die) : Die := if d.period ≤ 16 then d else { d with stretch := (d.stretch + n) % 2 ^ 48 }

/-- The clock advances (R2). -/
def tick (s : State) (n : Nat) : State :=
  { s with now := s.now + n, cores := tmap (fun _ k => tickCore s.now n k) s.cores, dies := tmap (fun _ d => tickDie n d) s.dies }

/-- Vectors raised in the turn before have been sent to the host (R415). -/
def sendMsix (s : State) : State :=
  if s.fns.all (fun f => f.2.msix.isEmpty) then s else { s with fns := tmap (fun _ f => { f with msix := [] }) s.fns }

/-- One turn of the module, from the agenda or of its own accord. -/
def turn (exec : Instr → State → Host.Outcome State Fault Refusal) (s : State) : Host.Outcome State Fault Refusal :=
  let t := { sendMsix s with agenda := s.agenda.drop 1, cursor := none }
  match s.agenda with
  | .event i :: _ => exec i t
  | .lane c l :: _ => laneResult exec t (laneAct exec t c l)
  | .tick n :: _ => .next (tick t n)
  | [] =>
    match nextInternal exec t with
    | some u => .next u
    | none =>
      match nextLane exec t with
      | some a => laneResult exec t a
      | none => .next (tick t 1)

/-- START bits of the words of a line, packet by packet (R65, R67). -/
def startBits : Nat → List Word → List Nat
  | 0, _ => []
  | n + 1, ws =>
    let a := nth ws 0 0
    let b := nth ws 1 0
    let p := if wordCount a = 2 then [1, 0, 1] else if wordCount b = 2 then [1, 1, 0] else [1, 1, 1]
    p ++ startBits n (ws.drop 3)

/-- A code line whose payload begins with the words given: E, I and every TGT bit set, WS zero (R64). -/
def codeLine (ws : List Word) : List Byte :=
  let all := ws ++ List.replicate (30 - ws.length) 0
  let h := fields ((numbered 0 (startBits 10 all)) ++ [(32, 1023), (56, 1), (57, 1)])
  toBytes 8 h ++ all.flatMap wordBytes

/-- The state with a gang of four items on lane 0 of core 0 that stand at the first word of a code line at virtual address
0, the line's bytes held in the tail buffer of the core's cluster under a cached leaf, and the lane's turn next. -/
def placeWords (s : State) (ws : List Word) : State :=
  let asid := 1
  let pkt : BitVec 512 := BitVec.ofNat 512 (fields [(0, 3), (96, 32), (112, 1), (128, 1), (144, asid)])
  let item : Item := { pc := 8 }
  let grp : Group := { items := (upTo 0 4).map (fun p => (p, item)), used := 15 }
  let g : Gang := { launch := 1, asid, phase := .resident, slot := some 0, box := { ex := 4 }, groups := [(0, grp)], places := [(0, 0, 0)] }
  let l : Lane := { slots := [{ group := some (1, 0), banks := [0, 1, 2, 3] }, {}], gran := 248, res := [(0, 1, 0)] }
  let line := codeLine ws
  let w := writerAt s 0
  let tail := (upTo 0 4).map (fun k =>
    { asid, key := k, data := BitVec.ofNat 256 (ofBytes ((line.drop (32 * k)).take 32)), mask := 0xFFFFFFFF#32
      st := .open, born := s.now, tick := w.tick, ck := 0 : TailEntry })
  let s := setWriter s 0 { w with
    tail := tail ++ w.tail.filter (fun t => !(t.asid = asid && t.key < 4)), tick := w.tick + 1 }
  let s := setOwn s { asid, lpn := 0, owned := 0xFFFF, sown := List.replicate 16 0 }
  let s := installLeaf s 0 asid 0 7
  let s := setLaunch s 1 { fn := 0, queue := 0, lseq := 0, pkt, phase := .running, arrival := s.now }
  let s := setGang s 1 g
  let s := { setLane s 0 0 l with nextId := max s.nextId 2 }
  { s with agenda := [.lane 0 0], cursor := none, boot := { s.boot with held := false } }

end Sys2Proof.Machine
end

