-- ==== Sys2Proof/Machine/Step.lean ====
section
/-!
DEFINITION. One step of the module, and how a word is placed where the next step fetches it.
-/
namespace Sys2Proof.Machine

/-- One step: held in reset nothing acts but the next reset (R422); otherwise the turn at hand. -/
def step (s : State) : Host.Outcome State Fault Refusal :=
  match s.boot.held, s.agenda with
  | true, .event (.moduleReset b) :: r => exec (.moduleReset b) { s with agenda := r, cursor := none }
  | true, _ => .fault .heldInReset
  | false, _ => turn exec s

/-- The state with an instruction of the opcode table stored where `step` fetches its next instruction; the bits above
`nbits` are zero. -/
def State.withFetchWord (s : State) (_nbits w : Nat) : State :=
  placeWords s [BitVec.ofNat 32 w, BitVec.ofNat 32 (w / 2 ^ 32)]

end Sys2Proof.Machine
end

