-- ==== Sys2Proof/Safety.lean ====
section
/-!
DEFINITION. What a safe step is, and the terms in which claims speak of an issuing bundle: when its members can act, and
what a step leaves alone.
-/
namespace Sys2Proof
open Sys2Proof.Machine

/-- A step that goes on. -/
def Safe (s : Machine.State) : Prop := ∃ t, Machine.step s = .next t

/-- Every memory of the module is in canonical form: log space, the fixed region, gang memories and scratchpads. -/
def MemoriesOk (s : Machine.State) : Prop :=
  Machine.Memory.wf s.log = true ∧ Machine.Memory.wf s.fixed = true ∧
    (∀ g ∈ s.gangs, Machine.Memory.wf g.2.gmem = true) ∧
    (∀ d ∈ s.dies, ∀ p ∈ d.2.spads, Machine.Memory.wf p.mem = true)

/-- A bundle issues at the cursor (R81, R142): each member is a live item or helper at a home position. -/
structure Issues (s : State) (w : Where) : Prop where
  cursor : issuing s = some w
  items : w.b.span = none
  once : w.b.members.Nodup
  live : ∀ m ∈ w.b.members, (itemIn (groupAt s w.b.gang m.1) m.2).isSome = true
  home : ∀ m ∈ w.b.members, m.2 < 32

/-- A span issues at the cursor (R166). -/
structure SpanIssues (s : State) (w : Where) (i : Nat) : Prop where
  cursor : issuing s = some w
  span : w.b.span = some i
  there : (tfind s.spans i).isSome = true

/-- The bank of a v register is present in its group's slot (R141, R143). -/
def bankPresent (s : State) (w : Where) (g r : Nat) : Prop :=
  ∃ n sl, slotOf (laneAt s w.core w.lane) w.b.gang g = some (n, sl) ∧ r / 8 ∈ sl.banks

/-- Nothing keeps the members from acting on their operands: no load is awaited (R210), issue does not run past the last
packet of a line with L = 1 (R69), every register named is held and every latch read is valid (R83), no word is struck (R272),
every bank is present (R143). -/
structure Ready (s : State) (w : Where) (u : Uses) : Prop where
  loads : awaitsLoad s w.b.gang w.b.members u = false
  past : w.b.prog.past = none
  held : ∀ m ∈ w.b.members, useTrap (groupAt s w.b.gang m.1) m.2 u = none
  cleanV : ∀ m ∈ w.b.members, (groupAt s w.b.gang m.1).badV = []
  cleanS : ∀ m ∈ w.b.members, (groupAt s w.b.gang m.1).badS = []
  banks : ∀ m ∈ w.b.members, ∀ f ∈ u.named ++ u.read, isV f.1 = true → ∀ r ∈
    upTo f.1.toNat f.2 ++ brokenHigh (groupAt s w.b.gang m.1) f.1.toNat f.2, bankPresent s w m.1 r

/-- Only the issuing lane, performance counters, and registers, items and latches of the members' groups differ. -/
structure Confined (s t : State) (w : Where) : Prop where
  rest : { t with cores := s.cores, gangs := s.gangs } = s
  core : ∀ c, { coreAt t c with lanes := [], perf := [] } = { coreAt s c with lanes := [], perf := [] }
  lane : ∀ c l, (c, l) ≠ (w.core, w.lane) → laneAt t c l = laneAt s c l
  gangs : ∀ a, a ≠ w.b.gang → gangAt t a = gangAt s a
  gang : { gangAt t w.b.gang with groups := [] } = { gangAt s w.b.gang with groups := [] }
  group : ∀ g, (∀ p, (g, p) ∉ w.b.members) → groupAt t w.b.gang g = groupAt s w.b.gang g
  fields : ∀ g, { groupAt t w.b.gang g with v := [], c := [], s := [], status := 0, items := [], badL := [], watch := [] } =
    { groupAt s w.b.gang g with v := [], c := [], s := [], status := 0, items := [], badL := [], watch := [] }
  items : ∀ g p, (g, p) ∉ w.b.members → itemIn (groupAt t w.b.gang g) p = itemIn (groupAt s w.b.gang g) p
  kept : ∀ m ∈ w.b.members, ∀ x, itemIn (groupAt s w.b.gang m.1) m.2 = some x →
    ∃ y, itemIn (groupAt t w.b.gang m.1) m.2 = some y ∧
      { y with pc := x.pc, ring := x.ring, sym := x.sym, unchained := x.unchained, readyAt := x.readyAt } = x

/-- Every member stands at the word after an instruction of `len` words (R66). -/
def MovedOn (s t : State) (w : Where) (len : Nat) : Prop :=
  ∀ m ∈ w.b.members, (itemAt t w.b.gang m.1 m.2).pc = nextWord (itemAt s w.b.gang m.1 m.2).pc len

/-- A live item that is not a helper (R20). -/
def isReal (x : Group) (p : Nat) : Bool := ((itemIn x p).map (fun t => !t.helper)).getD false

/-- The word of a v register for an item of a gang (R28). -/
def vOf (s : State) (gang g r p : Nat) : Word := vAt (gangAt s gang).oneD (groupAt s gang g) r p
/-- A condition register's bit for an item of a gang (R33). -/
def cOf (s : State) (gang g n p : Nat) : Bool := cAt (gangAt s gang).oneD (groupAt s gang g) n p
/-- An s register of a group (R27). -/
def sOf (s : State) (gang g n : Nat) : Word := tget (groupAt s gang g).s n 0
/-- A source's value for an item of a gang (R73). -/
def operandOf (s : State) (gang g p : Nat) (ext : Word) (x : Src) : DWord :=
  srcAt (gangAt s gang).oneD (groupAt s gang g) p ext x

/-- A latch's word for an item of a gang, none when it is invalid (R25). -/
def latchOf (s : State) (gang g p j : Nat) : Option Word :=
  let x := groupAt s gang g
  ((itemIn x p).bind (fun t => nth t.ring j none)).map (fun e => latchAt e (coordOf (gangAt s gang).oneD x p))

/-- The flags that the real items among some positions raise (R26, R121). -/
def raised (x : Group) (ps : List Nat) (fl : Nat → Nat) : Nat :=
  (ps.filter (isReal x)).foldl (fun n p => n ||| fl p) 0

/-- Every register and status word of a gang keeps its value. -/
structure SameRegisters (s t : State) (gang : Nat) : Prop where
  v : ∀ g r p, p < 32 → vOf t gang g r p = vOf s gang g r p
  c : ∀ g n p, p < 32 → cOf t gang g n p = cOf s gang g n p
  status : ∀ g, (groupAt t gang g).status = (groupAt s gang g).status
  scalar : ∀ g n, sOf t gang g n = sOf s gang g n

/-- A byte of log memory as a writer reads it: its own stores over what it has published over the root (R290). -/
def logByte (s : State) (wid asid key i : Nat) : Byte := nth (readSector s wid (writerDie wid) asid key).data i 0
/-- A byte of a gang's memory. -/
def gangByte (s : State) (gang a : Nat) : Byte := mget (gangAt s gang).gmem a
/-- A byte of a scratchpad. -/
def spadByte (s : State) (die launch a : Nat) : Byte := mget (dieLocal s die launch).mem a

/-- Every byte of every memory reads as before. -/
structure SameMemory (s t : State) : Prop where
  log : ∀ wid asid key i, logByte t wid asid key i = logByte s wid asid key i
  gang : ∀ g a, gangByte t g a = gangByte s g a
  spad : ∀ d l a, spadByte t d l a = spadByte s d l a
  fixed : t.fixed = s.fixed

/-- Other gangs and lanes, and all of the state but cores and gangs, are as before. -/
structure Apart (s t : State) (w : Where) : Prop where
  rest : { t with cores := s.cores, gangs := s.gangs } = s
  gangs : ∀ a, a ≠ w.b.gang → gangAt t a = gangAt s a
  gang : { gangAt t w.b.gang with groups := [] } = { gangAt s w.b.gang with groups := [] }
  lane : ∀ c l, (c, l) ≠ (w.core, w.lane) → laneAt t c l = laneAt s c l

/-- A result is in its destination for every real member: a v register or pair (R22, R31), or an s register, written by the
lowest real member (R27). -/
structure Wrote (s t : State) (w : Where) (d : Field7) (ext : Word) (wide : Bool) (val : Nat → Nat → DWord) : Prop where
  low : isV d = true → ∀ m ∈ w.b.members, isReal (groupAt s w.b.gang m.1) m.2 = true →
    vOf t w.b.gang m.1 d.toNat m.2 = lowWord (val m.1 m.2)
  high : isV d = true → wide = true → ∀ m ∈ w.b.members, isReal (groupAt s w.b.gang m.1) m.2 = true →
    vOf t w.b.gang m.1 (d.toNat + 1) m.2 = highWord (val m.1 m.2)
  scalar : d = 124 → ∀ g p, (g, p) ∈ w.b.members → isReal (groupAt s w.b.gang g) p = true →
    (∀ q, (g, q) ∈ w.b.members → isReal (groupAt s w.b.gang g) q = true → p ≤ q) →
    sOf t w.b.gang g (extS ext) = lowWord (val g p)

/-- Registers that a result of `n` words is not written to keep their values (R31). -/
structure KeptRegs (s t : State) (w : Where) (d : Field7) (ext : Word) (n : Nat) : Prop where
  v : ∀ g r p, p < 32 → (isV d = true → r < d.toNat ∨ d.toNat + n ≤ r) →
    vOf t w.b.gang g r p = vOf s w.b.gang g r p
  idle : ∀ g r p, p < 32 → p ∈ livePos (groupAt s w.b.gang g) → (g, p) ∉ w.b.members →
    vOf t w.b.gang g r p = vOf s w.b.gang g r p
  c : ∀ g n p, cOf t w.b.gang g n p = cOf s w.b.gang g n p
  s : ∀ g n, (d = 124 → n ≠ extS ext) → sOf t w.b.gang g n = sOf s w.b.gang g n

/-- A result is pushed into the ring of every real member, its low word first, and older entries move on (R25). -/
structure Pushed (s t : State) (w : Where) (wide : Bool) (val : Nat → Nat → DWord) : Prop where
  narrow : wide = false → ∀ m ∈ w.b.members, isReal (groupAt s w.b.gang m.1) m.2 = true →
    latchOf t w.b.gang m.1 m.2 0 = some (lowWord (val m.1 m.2)) ∧
      ∀ j < 7, latchOf t w.b.gang m.1 m.2 (j + 1) = latchOf s w.b.gang m.1 m.2 j
  pair : wide = true → ∀ m ∈ w.b.members, isReal (groupAt s w.b.gang m.1) m.2 = true →
    latchOf t w.b.gang m.1 m.2 0 = some (highWord (val m.1 m.2)) ∧
      latchOf t w.b.gang m.1 m.2 1 = some (lowWord (val m.1 m.2)) ∧
      ∀ j < 6, latchOf t w.b.gang m.1 m.2 (j + 2) = latchOf s w.b.gang m.1 m.2 j

end Sys2Proof
end

