-- ==== Sys2Proof/Certificates/Slice0/Obligations.lean ====
section
/-!
DEFINITION. The statements about the machine, each from the numbered rules of spec/ or derived from its sections.
-/
open Sys2Proof Sys2Proof.Machine

/-! ## Register instructions -/

/-- What the spec gives a register instruction: its destination, its operands, its length and its result as a function of
the operand values, which are the sources in order, then d, then the condition register (R72, R92, R118). -/
structure Sys2Proof.Row where
  y : Bool
  d : Field7
  ext : Word := 0
  wide : Bool := false
  srcs : List Src
  readsD : Bool := false
  cond : Option Nat := none
  len : Nat := 1
  value : List DWord → DWord
  flags : List DWord → Nat := fun _ => 0

/-- The sources with d after them when d is read. -/
def Sys2Proof.Row.sources (r : Row) : List Src := if r.readsD then r.srcs ++ [{ f := r.d }] else r.srcs
/-- What the instruction names and reads (R83). -/
def Sys2Proof.Row.uses (r : Row) : Uses :=
  { named := (r.d, if r.wide then 2 else 1) :: r.srcs.map (fun x => (x.f, x.words))
    read := r.sources.map (fun x => (x.f, x.words)), ext := r.ext }
/-- The operand values of an item. -/
def Sys2Proof.Row.operands (r : Row) (s : State) (gang g p : Nat) : List DWord :=
  r.sources.map (operandOf s gang g p r.ext) ++ (match r.cond with
    | some n => [if cOf s gang g n p then 1 else 0]
    | none => [])
/-- What Y asserts: every source is uniform over the bundle (R32). -/
def Sys2Proof.Row.uniform (r : Row) (s : State) (w : Where) : Prop :=
  let gs := (groupsOf w.b.members).map (fun g => (groupAt s w.b.gang g, inGroup w.b.members g))
  (∀ x ∈ r.sources, uniformSrc (gangAt s w.b.gang).oneD gs r.ext x = true) ∧ (∀ n ∈ r.cond, uniformC gs n = true)

/-- A 32-bit operand. -/
def Sys2Proof.low (vs : List DWord) (k : Nat) : Word := (vs.getD k 0).setWidth 32
/-- A 32-bit result. -/
def Sys2Proof.word (w : Word) : DWord := w.setWidth 64

/-- A row of a two-source instruction. -/
def Sys2Proof.rowBin (o : RegOp) (f : Word → Word → Word) : Row :=
  { y := o.y, d := o.d, ext := o.ext, srcs := [{ f := o.a }, { f := o.b }], len := if o.x then 2 else 1
    value := fun vs => word (f (low vs 0) (low vs 1)) }
/-- A row of a one-source instruction. -/
def Sys2Proof.rowUn (o : UnOp) (f : Word → Word) : Row :=
  { y := o.y, d := o.d, ext := o.ext, srcs := [{ f := o.a }], len := if o.x then 2 else 1
    value := fun vs => word (f (low vs 0)) }
/-- A row of an instruction that also reads d. -/
def Sys2Proof.rowTri (o : RegOp) (f : Word → Word → Word → Word) : Row :=
  { y := o.y, d := o.d, ext := o.ext, srcs := [{ f := o.a }, { f := o.b }], readsD := true, len := if o.x then 2 else 1
    value := fun vs => word (f (low vs 0) (low vs 1) (low vs 2)) }
/-- A row of an immediate instruction. -/
def Sys2Proof.rowImm (o : ImmOp) (f : Word → Word) : Row :=
  { y := o.y, d := o.d, srcs := [{ f := o.a }], value := fun vs => word (f (low vs 0)) }
/-- A row of a 64-bit sum. -/
def Sys2Proof.rowWide (o : RegOp) (b : Src) (f : DWord → DWord → DWord) : Row :=
  { y := o.y, d := o.d, ext := o.ext, wide := true, srcs := [{ f := o.a, wide := true }, b]
    len := if o.x then 2 else 1, value := fun vs => f (vs.getD 0 0) (vs.getD 1 0) }

/-- Integer, immediate and 64-bit address instructions (R95 to R99, R104). -/
def Sys2Proof.integerRow : Instr → Option Row
  | .add o => some (rowBin o (fun a b => BitVec.ofInt 32 (a.toInt + b.toInt)))
  | .sub o => some (rowBin o (fun a b => BitVec.ofInt 32 (a.toInt - b.toInt)))
  | .mul o => some (rowBin o (fun a b => BitVec.ofInt 32 (a.toInt * b.toInt)))
  | .mulhiI o => some (rowBin o (fun a b => BitVec.ofInt 32 (a.toInt * b.toInt / 2 ^ 32)))
  | .mulhiN o => some (rowBin o (fun a b => BitVec.ofNat 32 (a.toNat * b.toNat / 2 ^ 32)))
  | .mad o => some (rowTri o (fun a b d => BitVec.ofInt 32 (a.toInt * b.toInt + d.toInt)))
  | .minI o => some (rowBin o (fun a b => BitVec.ofInt 32 (min a.toInt b.toInt)))
  | .maxI o => some (rowBin o (fun a b => BitVec.ofInt 32 (max a.toInt b.toInt)))
  | .minN o => some (rowBin o (fun a b => BitVec.ofNat 32 (min a.toNat b.toNat)))
  | .maxN o => some (rowBin o (fun a b => BitVec.ofNat 32 (max a.toNat b.toNat)))
  | .and o => some (rowBin o (fun a b => a &&& b))
  | .or o => some (rowBin o (fun a b => a ||| b))
  | .xor o => some (rowBin o (fun a b => a ^^^ b))
  | .andn o => some (rowBin o (fun a b => a &&& ~~~b))
  | .shl o => some (rowBin o (fun a b => BitVec.ofNat 32 (a.toNat * 2 ^ (b.toNat % 32))))
  | .shr o => some (rowBin o (fun a b => BitVec.ofNat 32 (a.toNat / 2 ^ (b.toNat % 32))))
  | .sar o => some (rowBin o (fun a b => BitVec.ofInt 32 (a.toInt / 2 ^ (b.toNat % 32))))
  | .rol o => some (rowBin o (fun a b =>
      BitVec.ofNat 32 (a.toNat * 2 ^ (b.toNat % 32) + a.toNat / 2 ^ (32 - b.toNat % 32))))
  | .clz o => some (rowUn o (fun a => BitVec.ofNat 32 ((List.range 32).countP (fun k => a.toNat < 2 ^ k))))
  | .popc o => some (rowUn o (fun a => BitVec.ofNat 32 ((List.range 32).countP (fun k => a.getLsbD k))))
  | .brev o => some (rowUn o (fun a => a.reverse))
  | .bfx o => some (rowBin o (fun a b =>
      let f := (a >>> (b.extractLsb' 0 5).toNat).setWidth (min (b.extractLsb' 8 6).toNat 32)
      if b.getLsbD 16 then f.signExtend 32 else f.setWidth 32))
  | .bfi o => some (rowTri o (fun a b d =>
      let p := (b.extractLsb' 0 5).toNat
      let m := (1#32 <<< min (b.extractLsb' 8 6).toNat 32 - 1) <<< p
      (d &&& ~~~m) ||| ((a <<< p) &&& m)))
  | .fsh o => some (rowTri o (fun a b d => BitVec.ofNat 32 ((b.toNat * 2 ^ 32 + a.toNat) / 2 ^ (d.toNat % 64))))
  | .sel o => some { y := o.y, d := o.d, srcs := [{ f := o.a }, { f := o.b }], len := 2
                     cond := some (o.ext.extractLsb' 0 3).toNat
                     value := fun vs => if (vs.getD 2 0 = 1) ↔ (o.ext.getLsbD 3 = false) then vs.getD 0 0 else vs.getD 1 0 }
  | .abs o => some (rowUn o (fun a => BitVec.ofNat 32 a.toInt.natAbs))
  | .neg o => some (rowUn o (fun a => BitVec.ofInt 32 (-a.toInt)))
  | .divN o => some (rowBin o (fun a b => if b = 0 then BitVec.allOnes 32 else BitVec.ofNat 32 (a.toNat / b.toNat)))
  | .remN o => some (rowBin o (fun a b => if b = 0 then a else BitVec.ofNat 32 (a.toNat % b.toNat)))
  | .divI o => some (rowBin o (fun a b => if b = 0 then BitVec.allOnes 32 else BitVec.ofInt 32 (a.toInt.tdiv b.toInt)))
  | .remI o => some (rowBin o (fun a b => if b = 0 then a else BitVec.ofInt 32 (a.toInt.tmod b.toInt)))
  | .mov o => some (rowUn o (fun a => a))
  | .addi o => some (rowImm o (fun a => BitVec.ofInt 32 (a.toInt + o.imm.toInt)))
  | .andi o => some (rowImm o (fun a => a &&& BitVec.ofInt 32 o.imm.toInt))
  | .ori o => some (rowImm o (fun a => a ||| BitVec.ofNat 32 o.imm.toNat))
  | .xori o => some (rowImm o (fun a => a ^^^ BitVec.ofNat 32 o.imm.toNat))
  | .shli o => some (rowImm o (fun a => BitVec.ofNat 32 (a.toNat * 2 ^ o.imm.toNat)))
  | .shri o => some (rowImm o (fun a => BitVec.ofNat 32 (a.toNat / 2 ^ o.imm.toNat)))
  | .sari o => some (rowImm o (fun a => BitVec.ofInt 32 (a.toInt / 2 ^ o.imm.toNat)))
  | .movi o => some { y := o.y, d := o.d, srcs := [], value := fun _ => word (BitVec.ofInt 32 o.imm.toInt) }
  | .add64 o => some (rowWide o { f := o.b, wide := true } (fun a b => BitVec.ofInt 64 (a.toInt + b.toInt)))
  | .sub64 o => some (rowWide o { f := o.b, wide := true } (fun a b => BitVec.ofInt 64 (a.toInt - b.toInt)))
  | .lea o => some (rowWide o { f := o.b } (fun a b => BitVec.ofInt 64 (a.toInt + b.toInt)))
  | .cvt64 o => some { y := o.y, d := o.d, ext := o.ext, wide := decide (o.b.toNat ≤ 1)
                       srcs := [{ f := o.a, wide := decide (2 ≤ o.b.toNat) }], len := if o.x then 2 else 1
                       value := fun vs =>
                         let a := vs.getD 0 0
                         match o.b.toNat with
                         | 0 => BitVec.ofNat 64 (low vs 0).toNat
                         | 1 => BitVec.ofInt 64 (low vs 0).toInt
                         | 2 => word (BitVec.ofInt 32 (max (-2 ^ 31) (min a.toInt (2 ^ 31 - 1))))
                         | _ => word (BitVec.ofNat 32 (min a.toNat (2 ^ 32 - 1))) }
  | _ => none

/-- A row with its result and flags from one function. -/
def Sys2Proof.Row.by (r : Row) (f : List DWord → Nat × Nat) : Row :=
  { r with value := fun vs => BitVec.ofNat 64 ((f vs).1 % 2 ^ 32), flags := fun vs => (f vs).2 }

/-- An operand as the number it encodes. -/
def Sys2Proof.code (vs : List DWord) (k : Nat) : Nat := (vs.getD k 0).toNat

/-- A row of a two-source float instruction. -/
def Sys2Proof.rowF2 (o : RegOp) (f : Nat → Nat → Nat × Nat) : Row := (rowBin o (fun a _ => a)).by (fun vs => f (code vs 0) (code vs 1))
/-- A row of a float instruction that also reads d. -/
def Sys2Proof.rowF3 (o : RegOp) (f : Nat → Nat → Nat → Nat × Nat) : Row :=
  (rowTri o (fun a _ _ => a)).by (fun vs => f (code vs 0) (code vs 1) (code vs 2))
/-- A row of a one-source float instruction. -/
def Sys2Proof.rowF1 (o : UnOp) (f : Nat → Nat × Nat) : Row := (rowUn o (fun a => a)).by (fun vs => f (code vs 0))

/-- A lane-wise result: lane 0 in bits 15:0, the flags of both lanes (R58, R128). -/
def Sys2Proof.lanes2 (f : Nat → Nat × Nat) : Nat × Nat :=
  ((f 0).1 % 2 ^ 16 + 2 ^ 16 * ((f 1).1 % 2 ^ 16), (f 0).2 ||| (f 1).2)
/-- Lane k of a word (R58). -/
def Sys2Proof.lane (n k : Nat) : Nat := if k = 0 then n % 2 ^ 16 else n / 2 ^ 16

/-- The format of a packed or complex instruction (R128, R130). -/
def Sys2Proof.packedFmt (m : Nat) : Ieee := if bit m 0 then f16 else bf16

/-- Float, packed, complex and conversion instructions without a format register (R118 to R134). -/
def Sys2Proof.floatRow : Instr → Option Row
  | .fadd o => some (rowF2 o (floatAdd f32))
  | .fsub o => some (rowF2 o (floatSub f32))
  | .fmul o => some (rowF2 o (floatMul f32))
  | .ffma o => some (rowF3 o (floatFma f32))
  | .fmin o => some (rowF2 o (floatPick f32 false))
  | .fmax o => some (rowF2 o (floatPick f32 true))
  | .fabs o => some (rowF1 o (fun a => (a % 2 ^ 31, 0)))
  | .fneg o => some (rowF1 o (fun a => ((a + 2 ^ 31) % 2 ^ 32, 0)))
  | .fclass o => some (rowF1 o (fun a => (floatClass a, 0)))
  | .fscale o => some (rowF2 o (fun a b => floatScale a (BitVec.ofNat 32 b).toInt))
  | .frcp o => some (rowF1 o (fun a => floatApprox 0x3A (BitVec.ofNat 32 a)))
  | .frsq o => some (rowF1 o (fun a => floatApprox 0x3B (BitVec.ofNat 32 a)))
  | .fsqrt o => some (rowF1 o (fun a => floatApprox 0x3C (BitVec.ofNat 32 a)))
  | .fex2 o => some (rowF1 o (fun a => floatApprox 0x3D (BitVec.ofNat 32 a)))
  | .flg2 o => some (rowF1 o (fun a => floatApprox 0x3E (BitVec.ofNat 32 a)))
  | .fsin o => some (rowF1 o (fun a => floatApprox 0x3F (BitVec.ofNat 32 a)))
  | .fcos o => some (rowF1 o (fun a => floatApprox 0x40 (BitVec.ofNat 32 a)))
  | .ftanh o => some (rowF1 o (fun a => floatApprox 0x41 (BitVec.ofNat 32 a)))
  | .hadd2 o => some (rowF2 o (fun a b => lanes2 (fun k => floatAdd (packedFmt (modBin o)) (lane a k) (lane b k))))
  | .hmul2 o => some (rowF2 o (fun a b => lanes2 (fun k => floatMul (packedFmt (modBin o)) (lane a k) (lane b k))))
  | .hfma2 o => some (rowF3 o (fun a b d =>
      lanes2 (fun k => floatFma (packedFmt (modBin o)) (lane a k) (lane b k) (lane d k))))
  | .hmin2 o => some (rowF2 o (fun a b => lanes2 (fun k => floatPick (packedFmt (modBin o)) false (lane a k) (lane b k))))
  | .hmax2 o => some (rowF2 o (fun a b => lanes2 (fun k => floatPick (packedFmt (modBin o)) true (lane a k) (lane b k))))
  | .hdot2 o => some (rowF3 o (packedDot (packedFmt (modBin o))))
  | .cmul o => some (rowF2 o (complexMul (modBin o) none))
  | .cfma o => some (rowF3 o (fun a b d => complexMul (modBin o) (some d) a b))
  | .frnd o => some (rowF1 o (floatRound (bits (modUn o) 3 2)))
  | .cvt o => some ({ y := o.y, d := o.d, ext := o.ext, srcs := [{ f := o.a }], len := 2
                      readsD := (o.ext.extractLsb' 2 2 ≠ 0) && !o.ext.getLsbD 6, value := fun _ => 0 : Row }.by
                      (fun vs => convert o.ext.toNat (code vs 0) (code vs 1)))
  | .f2i o => some { rowUn o (fun a => a) with
                     wide := bit (modUn o) 1
                     value := fun vs => (floatToInt (bits (modUn o) 1 0) (bits (modUn o) 3 2) (code vs 0)).1
                     flags := fun vs => (floatToInt (bits (modUn o) 1 0) (bits (modUn o) 3 2) (code vs 0)).2 }
  | .i2f o =>
    let wide := bit (modUn o) 1
    let natural := bit (modUn o) 0
    some ({ rowUn o (fun a => a) with srcs := [{ f := o.a, wide }] }.by (fun vs =>
      intToFloat (typeFmt (bits (modUn o) 3 2))
        (match wide, natural with
          | false, false => (low vs 0).toInt
          | false, true => (low vs 0).toNat
          | true, false => (vs.getD 0 0).toInt
          | true, true => (vs.getD 0 0).toNat)))
  | _ => none

/-- `pkn` and `unpk` under the image of their format register (R135, R136). -/
def Sys2Proof.narrowRow (f : BitVec 256) : Instr → Option Row
  | .pkn o =>
    let sm := (o.ext.extractLsb' 11 2).toNat
    some { y := o.y, d := o.d, ext := o.ext, len := 2
           srcs := { f := o.a } :: (if sm = 1 then [{ f := o.b }] else []), readsD := decide (sm ≠ 2)
           value := fun vs => word (packNar f o.ext (low vs 0) (if sm = 1 then low vs 1 else 0)
             (if sm = 1 then low vs 2 else if sm = 2 then 0 else low vs 1)).1
           flags := fun vs => (packNar f o.ext (low vs 0) (if sm = 1 then low vs 1 else 0)
             (if sm = 1 then low vs 2 else if sm = 2 then 0 else low vs 1)).2 }
  | .unpk o => some { y := o.y, d := o.d, ext := o.ext, len := 2, srcs := [{ f := o.a }, { f := o.b }]
                      value := fun vs => word (unpackNar f o.ext (low vs 0) (low vs 1)).1
                      flags := fun vs => (unpackNar f o.ext (low vs 0) (low vs 1)).2 }
  | _ => none
/-- The format register that `pkn` and `unpk` name (R135, R136). -/
def Sys2Proof.namedFmt : Instr → Nat
  | .pkn o => (o.ext.extractLsb' 0 5).toNat
  | .unpk o => (o.ext.extractLsb' 0 5).toNat
  | _ => 0
/-- The image serves the instruction: loaded, without a codebook, with a scale where one is asked for (R135, R136). -/
def Sys2Proof.imageServes (f : BitVec 256) : Instr → Bool
  | .pkn o => f ≠ 0 && fmtK f = 0 && (o.ext.extractLsb' 11 2 = 0 || fmtSck f ≠ 0)
  | .unpk _ => f ≠ 0 && fmtK f = 0
  | _ => false

/-- The row of any register instruction in a gang. -/
def Sys2Proof.registerRow (s : State) (gang : Nat) (i : Instr) : Option Row :=
  ((integerRow i).or (floatRow i)).or (narrowRow (fmtOf (gangAt s gang) (namedFmt i)) i)
/-- A register instruction does not name a format that cannot serve it. -/
def Sys2Proof.served (s : State) (gang : Nat) (i : Instr) : Prop :=
  (narrowRow 0 i).isSome = true → imageServes (fmtOf (gangAt s gang) (namedFmt i)) i = true

/-- A row's result reaches its destination, its flags the status word of each group, and its members move on. -/
def Sys2Proof.rowResult (r : Row) (s t : State) (w : Where) : Prop :=
  Wrote s t w r.d r.ext r.wide (fun g p => r.value (r.operands s w.b.gang g p)) ∧ MovedOn s t w r.len ∧
    ∀ g, (groupAt t w.b.gang g).status = (groupAt s w.b.gang g).status ||| BitVec.ofNat 32
      (raised (groupAt s w.b.gang g) (inGroup w.b.members g) (fun p => r.flags (r.operands s w.b.gang g p)) % 64)

/-- Integer, immediate and 64-bit instructions complete with exact integers narrowed once, whatever the representation of
the operands, for every real item of the bundle; they raise no flag (R95 to R99, R104). -/
def Obligations.IntegerResults : Prop :=
  ∀ i r, integerRow i = some r → i.wf = true → ∀ s w, Issues s w → Ready s w r.uses → (r.y = true → r.uniform s w) →
    ∃ t, Machine.exec i s = .next t ∧ rowResult r s t w ∧
      ∀ g, (groupAt t w.b.gang g).status = (groupAt s w.b.gang g).status

/-- Float, packed, complex and conversion instructions complete with their results and flags (R118 to R134).
The model's choices that it rests on: log entries 16, 17 and 18. -/
def Obligations.FloatResults : Prop :=
  ∀ i r, floatRow i = some r → i.wf = true → ∀ s w, Issues s w → Ready s w r.uses → (r.y = true → r.uniform s w) →
    ∃ t, Machine.exec i s = .next t ∧ rowResult r s t w

/-- `pkn` and `unpk` complete with their results and flags under a format image that serves them (R135, R136).
The model's choices that it rests on: log entry 19. -/
def Obligations.NarrowResults : Prop :=
  ∀ s w i r, narrowRow (fmtOf (gangAt s w.b.gang) (namedFmt i)) i = some r → i.wf = true → Issues s w →
    imageServes (fmtOf (gangAt s w.b.gang) (namedFmt i)) i = true → Ready s w r.uses → (r.y = true → r.uniform s w) →
    ∃ t, Machine.exec i s = .next t ∧ rowResult r s t w

/-- A register instruction leaves alone everything but its destination, the flags, the latches and the program counters of
its bundle: no other register of any item or group, no memory and no other lane changes (R25 to R31). -/
def Obligations.RegisterFrame : Prop :=
  ∀ s w i r, registerRow s w.b.gang i = some r → i.wf = true → Issues s w → served s w.b.gang i → Ready s w r.uses →
    (r.y = true → r.uniform s w) → ∃ t, Machine.exec i s = .next t ∧ Confined s t w ∧ KeptRegs s t w r.d r.ext (if r.wide then 2 else 1)

/-- A register instruction pushes its result into every member's latch ring, the high word of a pair last; older entries
move on (R25). -/
def Obligations.LatchPush : Prop :=
  ∀ s w i r, registerRow s w.b.gang i = some r → i.wf = true → Issues s w → served s w.b.gang i → Ready s w r.uses →
    (r.y = true → r.uniform s w) → w.b.pend = 0 →
    ∃ t, Machine.exec i s = .next t ∧ Pushed s t w r.wide (fun g p => r.value (r.operands s w.b.gang g p))

/-! ## Condition instructions -/

/-- What the spec gives a compare or a condition instruction: its operands and its bit as a function of the operand values
and the condition registers read (R100 to R103). -/
structure Sys2Proof.CondRow where
  y : Bool
  cd : Nat
  ac : Bool := false
  ext : Word := 0
  srcs : List Src := []
  cregs : List Nat := []
  len : Nat := 1
  value : List DWord → List Bool → Bool
  flags : List DWord → Nat := fun _ => 0

/-- What a condition instruction names and reads (R83). -/
def Sys2Proof.CondRow.uses (r : CondRow) : Uses :=
  { named := r.srcs.map (fun x => (x.f, x.words)), read := r.srcs.map (fun x => (x.f, x.words)), ext := r.ext }
/-- What Y asserts (R32). -/
def Sys2Proof.CondRow.uniform (r : CondRow) (s : State) (w : Where) : Prop :=
  let gs := (groupsOf w.b.members).map (fun g => (groupAt s w.b.gang g, inGroup w.b.members g))
  (∀ x ∈ r.srcs, uniformSrc (gangAt s w.b.gang).oneD gs r.ext x = true) ∧ (∀ n ∈ r.cregs, uniformC gs n = true) ∧
    (r.ac = true → uniformC gs r.cd = true)

/-- An integer condition of R79 on the values of `n` bits. -/
def Sys2Proof.intCond (cond n : Nat) (a b : BitVec n) : Bool :=
  match cond with
  | 0 => a = b
  | 1 => a ≠ b
  | 2 => a.toInt < b.toInt
  | 3 => a.toInt ≤ b.toInt
  | 4 => a.toNat < b.toNat
  | _ => a.toNat ≤ b.toNat

/-- A float condition of R79 and R101 on exact values; a NaN is unordered, and −0 equals +0. -/
def Sys2Proof.floatCond (cond : Nat) (a b : Val) : Bool :=
  let un := a.isNan || b.isNan
  let less := a.below b && !(a.isZero && b.isZero)
  let more := b.below a && !(a.isZero && b.isZero)
  match cond with
  | 0 => !un && !less && !more
  | 1 => un || less || more
  | 2 => !un && less
  | 3 => !un && !more
  | 4 => un
  | _ => !un

/-- Compares and condition logic (R100 to R103). -/
def Sys2Proof.condRow : Instr → Option CondRow
  | .icmp o => some { y := o.y, cd := o.cd.toNat, ac := o.ac, ext := o.ext, srcs := [{ f := o.a, wide := o.w }, { f := o.b, wide := o.w }]
                      len := if o.x then 2 else 1
                      value := fun vs _ => if o.w then intCond o.cond.toNat 64 (vs.getD 0 0) (vs.getD 1 0)
                        else intCond o.cond.toNat 32 (low vs 0) (low vs 1) }
  | .fcmp o => some { y := o.y, cd := o.cd.toNat, ac := o.ac, ext := o.ext, srcs := [{ f := o.a }, { f := o.b }]
                      len := if o.x then 2 else 1
                      value := fun vs _ => floatCond o.cond.toNat (unpack f32 (low vs 0).toNat) (unpack f32 (low vs 1).toNat)
                      flags := fun vs =>
                        let a := unpack f32 (low vs 0).toNat
                        let b := unpack f32 (low vs 1).toNat
                        if a.isSig || b.isSig || ((o.cond = 2 || o.cond = 3) && (a.isNan || b.isNan)) then flagNV else 0 }
  | .cop o => some { y := o.y, cd := o.cd.toNat, ac := o.ac, cregs := [o.ca.toNat, o.cb.toNat]
                     value := fun _ bs =>
                       let p := (bs.getD 0 false) ^^ o.na
                       let q := (bs.getD 1 false) ^^ o.nb
                       match o.cond.toNat with
                       | 0 => p && q
                       | 1 => p || q
                       | _ => p ^^ q }
  | .cset o => some { y := o.y, cd := o.cd.toNat, ext := o.ext, srcs := [{ f := o.a }, { f := o.b }], len := if o.x then 2 else 1
                      value := fun vs _ => (low vs 0 &&& low vs 1) ≠ 0 }
  | _ => none

/-- A condition register takes a bit for every real member, ANDed into its old value with AC; c0 discards it (R24, R100). -/
def Sys2Proof.condWrote (s t : State) (w : Where) (cd : Nat) (ac : Bool) (bit : Nat → Nat → Bool) : Prop :=
  cd ≠ 0 → ∀ m ∈ w.b.members, isReal (groupAt s w.b.gang m.1) m.2 = true →
    cOf t w.b.gang m.1 cd m.2 = (bit m.1 m.2 && (!ac || cOf s w.b.gang m.1 cd m.2))

/-- Every register but a condition register of the members keeps its value (R24, R31). -/
structure Sys2Proof.KeptConds (s t : State) (w : Where) (cd : Nat) : Prop where
  v : ∀ g r p, vOf t w.b.gang g r p = vOf s w.b.gang g r p
  c : ∀ g n p, p < 32 → (n ≠ cd ∨ cd = 0) → cOf t w.b.gang g n p = cOf s w.b.gang g n p
  idle : ∀ g p, p < 32 → p ∈ livePos (groupAt s w.b.gang g) → (g, p) ∉ w.b.members →
    cOf t w.b.gang g cd p = cOf s w.b.gang g cd p
  scalars : ∀ g n, sOf t w.b.gang g n = sOf s w.b.gang g n

/-- `icmp`, `fcmp`, `cop` and `cset` complete: the condition register takes the comparison's bit for each item, nothing is
pushed, and no other register changes; c0 reads 1 in every state (R24, R25, R79, R100 to R103). -/
def Obligations.ConditionResults : Prop :=
  (∀ s gang g p, cOf s gang g 0 p = true) ∧
  ∀ i r, condRow i = some r → i.wf = true → ∀ s w, Issues s w → Ready s w r.uses → (r.y = true → r.uniform s w) →
    ∃ t, Machine.exec i s = .next t ∧ Confined s t w ∧ KeptConds s t w r.cd ∧ MovedOn s t w r.len ∧
      condWrote s t w r.cd r.ac (fun g p =>
        r.value (r.srcs.map (operandOf s w.b.gang g p r.ext)) (r.cregs.map (fun n => cOf s w.b.gang g n p))) ∧
      (∀ g, (groupAt t w.b.gang g).status = (groupAt s w.b.gang g).status ||| BitVec.ofNat 32
        (raised (groupAt s w.b.gang g) (inGroup w.b.members g)
          (fun p => r.flags (r.srcs.map (operandOf s w.b.gang g p r.ext))) % 64)) ∧
      (w.b.pend = 0 → ∀ m ∈ w.b.members, ∀ j, latchOf t w.b.gang m.1 m.2 j = latchOf s w.b.gang m.1 m.2 j)

/-- The tag of one 32-bit register or latch as R180 queries it: the low half of an AFFINE64 pair counts as AFFINE or CONST,
the high half as BODY (R29). -/
def Sys2Proof.tagOf {β : Type} : Rep β → Nat
  | .const _ => 0
  | .affine _ => 1
  | .lo64 f => if (lowAff f).dx = 0 ∧ (lowAff f).dy = 0 ∧ (lowAff f).dz = 0 then 0 else 1
  | .hi64 _ => 2
  | .body _ => 2

/-- The tag that an item's home group sees for the operand of `repq` (R30, R180). -/
def Sys2Proof.tagSeen (s : State) (gang g p : Nat) (o : RepqOp) : Nat :=
  let x := groupAt s gang g
  let n := o.a.toNat
  if n < 112 then
    (match o.w, vRep x n, vRep x (n + 1) with
      | true, .const _, .const _ => 0
      | true, .lo64 _, .hi64 _ => 1
      | true, _, _ => 2
      | false, r, _ => tagOf r)
  else if n < 120 then
    (match ((itemIn x p).bind (fun t => nth t.ring (n - 112) none)) with
      | some e => tagOf e
      | none => 2)
  else if n = 120 then 0
  else if n ≤ 123 then 1
  else if (gangAt s gang).oneD then 1 else 2

/-- `repq` completes: the bit is the fact asked for about the representation of A, about the issuer, or about uniformity
(R180). -/
def Obligations.RepresentationQuery : Prop :=
  ∀ (o : RepqOp), (Instr.repq o).wf = true → ∀ s w, Issues s w →
    Ready s w { named := [(o.a, if o.w then 2 else 1)], read := [(o.a, if o.w then 2 else 1)], ext := 0 } →
    ∃ t, Machine.exec (.repq o) s = .next t ∧ Confined s t w ∧ KeptConds s t w o.cd.toNat ∧ MovedOn s t w 1 ∧
      condWrote s t w o.cd.toNat o.ac (fun g p =>
        match o.kind.toNat with
        | 0 => tagSeen s w.b.gang g p o = 0
        | 1 => tagSeen s w.b.gang g p o = 1
        | 2 => tagSeen s w.b.gang g p o = 2
        | 3 => false
        | _ => uniformSrc (gangAt s w.b.gang).oneD
            ((groupsOf w.b.members).map (fun g => (groupAt s w.b.gang g, inGroup w.b.members g))) 0 { f := o.a, wide := o.w }) ∧
      ∀ g, (groupAt t w.b.gang g).status = (groupAt s w.b.gang g).status

/-! ## Memory -/

/-- Loads, as data. -/
def Sys2Proof.loadOf : Instr → Option MemSpec
  | .ldv o => some (loadSpec .log o)
  | .ldk o => some (loadSpec .gang o)
  | .ldd o => some (loadSpec .spad o)
  | .fill o => some (loadSpec .spill o)
  | _ => none
/-- Stores, as data. -/
def Sys2Proof.storeOf : Instr → Option MemSpec
  | .stv o => some (storeSpec .log o)
  | .stk o => some (storeSpec .gang o)
  | .std o => some (storeSpec .spad o)
  | .spill o => some (storeSpec .spill o)
  | _ => none

/-- The effective address of an item's word access: the address operand with its offsets, in units of the access (R78). -/
def Sys2Proof.wordAddr (m : MemSpec) (s : State) (gang g p : Nat) : Nat :=
  effAddr m.wide (m.base s gang g p) m.off m.mod.xoff (4 * m.words)

/-- The little-endian word at an address (R5). -/
def Sys2Proof.wordOf (byte : Nat → Byte) (a : Nat) : Word :=
  BitVec.ofNat 32 ((byte a).toNat + 2 ^ 8 * (byte (a + 1)).toNat + 2 ^ 16 * (byte (a + 2)).toNat + 2 ^ 24 * (byte (a + 3)).toNat)

/-- The words that a load's members receive, lowest address in D (R210); an s register takes the lowest real item's first
word (R27). -/
def Sys2Proof.loaded (s t : State) (w : Where) (m : MemSpec) (val : Nat → Nat → Nat → Word) : Prop :=
  (isV m.d = true → ∀ x ∈ w.b.members, ∀ k < m.words, vOf t w.b.gang x.1 (m.d.toNat + k) x.2 = val x.1 x.2 k) ∧
  (m.d = 124 → ∀ g p, (g, p) ∈ w.b.members → isReal (groupAt s w.b.gang g) p = true →
    (∀ q, (g, q) ∈ w.b.members → isReal (groupAt s w.b.gang g) q = true → p ≤ q) →
    sOf t w.b.gang g (extS m.ext) = val g p 0)

/-- Other gangs, and a gang's own memory, bins, formats and arrays, are as before. -/
def Sys2Proof.GangsKept (s t : State) (w : Where) : Prop :=
  (∀ a, a ≠ w.b.gang → gangAt t a = gangAt s a) ∧
    { gangAt t w.b.gang with groups := [] } = { gangAt s w.b.gang with groups := [] }

/-- A member may access `n` bytes of local memory from an offset: aligned, inside the space, every line present (R205,
R208, R209, R215). -/
def Sys2Proof.localInside (s : State) (gang : Nat) (spad : Bool) (off n : Nat) : Prop :=
  off % n = 0 ∧ off + n ≤ (localOf s gang spad).size ∧ absentIn (localOf s gang spad) off n = none

/-- A byte of the local memory that an access reaches. -/
def Sys2Proof.localByte (s : State) (gang : Nat) (spad : Bool) (a : Nat) : Byte :=
  if spad then spadByte s (gangAt s gang).die (gangAt s gang).launch a else gangByte s gang a

/-- `ldk` and `ldd` of words complete: each member's registers take the little-endian words at its address, whatever the
representation of the operands (R78, R204, R208, R210, R214, R215); memory and the other registers keep their values.
The model's choices that it rests on: log entry 38. -/
def Obligations.LocalLoads : Prop :=
  ∀ i m, loadOf i = some m → m.wide = false → m.sz ≠ 3 → i.wf = true → ∀ s w, Issues s w → Ready s w m.uses →
    w.b.prog.done = false → (m.sp = .spad → isLatch m.a = false) → (localOf s w.b.gang (m.sp = .spad)).bad = [] →
    (∀ x ∈ w.b.members, localInside s w.b.gang (m.sp = .spad) (wordAddr m s w.b.gang x.1 x.2) (4 * m.words) ∧
      (m.mod.ipf = false → domHit (localOf s w.b.gang (m.sp = .spad)) (wordAddr m s w.b.gang x.1 x.2) (4 * m.words) = false) ∧
      (m.sp = .gang → openRuns s w.b.gang (itemAt s w.b.gang x.1 x.2).sb = [])) →
    ∃ t, Machine.exec i s = .next t ∧ SameMemory s t ∧ GangsKept s t w ∧ KeptRegs s t w m.d m.ext m.words ∧
      loaded s t w m (fun g p k => wordOf (localByte s w.b.gang (m.sp = .spad)) (wordAddr m s w.b.gang g p + 4 * k)) ∧
      (∀ g, (groupAt t w.b.gang g).status = (groupAt s w.b.gang g).status) ∧ (m.mod.ord = 0 → MovedOn s t w m.len)

/-- The last of the real members that stores to a place: they store in ascending gpos, and items of two groups at one gpos in
the bundle's order (R209). -/
def Sys2Proof.lastStore (s : State) (w : Where) (covers : Nat × Nat → Prop) (x : Nat × Nat) : Prop :=
  ∃ l r, byGpos w.b.members = l ++ x :: r ∧ isReal (groupAt s w.b.gang x.1) x.2 = true ∧ covers x ∧
    ∀ y ∈ r, isReal (groupAt s w.b.gang y.1) y.2 = true → ¬ covers y

/-- Byte `j` of the data that an item stores, lowest register first (R5, R210). -/
def Sys2Proof.storeByte (m : MemSpec) (s : State) (gang g p j : Nat) : Byte :=
  ((dataWords s gang g p m.d m.ext m.words).getD (j / 4) 0 >>> (8 * (j % 4))).setWidth 8

/-- `stk` and `std` of words complete: the bytes at each real member's address take its data, later members over earlier
ones; every other byte of every memory keeps its value, and the memory its canonical form. A helper stores nothing (R20,
R78, R204, R206, R209, R210). The model's choices that it rests on: log entries 41 and 22. -/
def Obligations.LocalStores : Prop :=
  ∀ i m, storeOf i = some m → m.wide = false → m.sz ≠ 3 → i.wf = true → ∀ s w, Issues s w → Ready s w m.uses →
    w.b.prog.done = false → (m.sp = .spad → isLatch m.a = false) →
    Memory.wf (localOf s w.b.gang (m.sp = .spad)).mem = true →
    (m.mod.ord = 2 → released s (makeRelease s w.core w.b.gang (gangAt s w.b.gang).asid m.mod.scope) = true) →
    (∀ x ∈ w.b.members, isReal (groupAt s w.b.gang x.1) x.2 = true →
      localInside s w.b.gang (m.sp = .spad) (wordAddr m s w.b.gang x.1 x.2) (4 * m.words)) →
    let covers (a : Nat) (x : Nat × Nat) : Prop :=
      wordAddr m s w.b.gang x.1 x.2 ≤ a ∧ a < wordAddr m s w.b.gang x.1 x.2 + 4 * m.words
    ∃ t, Machine.exec i s = .next t ∧ MovedOn s t w m.len ∧ SameRegisters s t w.b.gang ∧
      (∀ a x, lastStore s w (covers a) x → localByte t w.b.gang (m.sp = .spad) a =
        storeByte m s w.b.gang x.1 x.2 (a - wordAddr m s w.b.gang x.1 x.2)) ∧
      (∀ a, (∀ x ∈ w.b.members, isReal (groupAt s w.b.gang x.1) x.2 = true → ¬ covers a x) →
        localByte t w.b.gang (m.sp = .spad) a = localByte s w.b.gang (m.sp = .spad) a) ∧
      (∀ g a, ¬(m.sp = .gang ∧ g = w.b.gang) → gangByte t g a = gangByte s g a) ∧
      (∀ d l a, ¬(m.sp = .spad ∧ d = (gangAt s w.b.gang).die ∧ l = (gangAt s w.b.gang).launch) →
        spadByte t d l a = spadByte s d l a) ∧
      (∀ wid asid key i, logByte t wid asid key i = logByte s wid asid key i) ∧ t.fixed = s.fixed ∧
      Memory.wf (localOf t w.b.gang (m.sp = .spad)).mem = true

/-- What a die's index caches hold is what a walk from the root entries finds: every publication that replaced a map has
been applied there (R316, R335). -/
def Sys2Proof.IndexAgrees (s : State) (die : Nat) : Prop :=
  (∀ e ∈ (dieAt s die).maps, walkIndex s (e.lpn * 16 + e.sub) 5 (rootEntry s e.asid).root 0 =
    (match readMap s e.pos with
      | some m => .map e.pos m
      | none => .poison)) ∧
  ∀ n ∈ (dieAt s die).nodes, n.level < 5 ∧ ∀ key, kidPrefix key n.level = n.pre →
    walkIndex s key 5 (rootEntry s n.asid).root 0 = walkIndex s key (5 - n.level) n.pos 0

/-- A load of log memory goes on at once: no acquire is owed, no atomic result of its item is unpublished (R225, R383); and its
die's index caches have no publication left to apply, so what the load brings in or gives up there changes no later read. -/
def Sys2Proof.loadsGo (s : State) (w : Where) : Prop :=
  (gangAt s w.b.gang).acquire = false ∧ (coreAt s w.core).atomics = [] ∧ IndexAgrees s (dieOf w.core)

/-- `ldv` and `fill` of words complete: each member's registers take the little-endian words of the bytes its load returns,
through the leaves of its pages; a `fill` reads the item's own region and gives what the item spilled there. No byte of any
memory changes (R78, R205, R208, R210, R216, R235). The model's choices that it rests on: log entries 38 and 39. -/
def Obligations.LogLoads : Prop :=
  ∀ i m, loadOf i = some m → m.wide = true → m.sz ≠ 3 → i.wf = true → ∀ s w, Issues s w → Ready s w m.uses →
    w.b.prog.done = false → loadsGo s w →
    let place (g p : Nat) : Nat := if m.sp = .spill then
      (regionBase (gangAt s w.b.gang) g p + wordAddr m s w.b.gang g p) % 2 ^ 64 else wordAddr m s w.b.gang g p
    (∀ x ∈ w.b.members, wordAddr m s w.b.gang x.1 x.2 % (4 * m.words) = 0 ∧
      (m.sp = .spill → wordAddr m s w.b.gang x.1 x.2 < 2 ^ 63 ∧
        wordAddr m s w.b.gang x.1 x.2 + 4 * m.words + 8 * (itemAt s w.b.gang x.1 x.2).depth ≤
          spillSize (gangAt s w.b.gang) / 32)) →
    ∀ got : Nat → Nat → List Byte, (∀ x ∈ w.b.members, ∃ gen, gen ≤ seenOf s w.core (gangAt s w.b.gang).asid ∧
      readLog s (whoOf s w x.1 x.2) false (m.sp = .spill) (place x.1 x.2) (4 * m.words) = .ok (got x.1 x.2) gen) →
    (m.sp = .spill → ∀ x ∈ w.b.members, ∀ j < 4 * m.words,
      wordAddr m s w.b.gang x.1 x.2 + j ∈ (itemAt s w.b.gang x.1 x.2).spilled) →
    ∃ t, Machine.exec i s = .next t ∧ SameMemory s t ∧ GangsKept s t w ∧ KeptRegs s t w m.d m.ext m.words ∧
      loaded s t w m (fun g p k => wordOf (fun a => (got g p).getD a 0) (4 * k)) ∧
      (∀ g, (groupAt t w.b.gang g).status = (groupAt s w.b.gang g).status) ∧ (m.mod.ord = 0 → MovedOn s t w m.len)

/-- A load that finds no line of its core's L1 and no copy writing returns the cluster's own view: its stores over the
published version, byte by byte (R216, R290, R330). -/
def Obligations.LoadView : Prop :=
  ∀ s k priv va n l gen ls, whoXlate s k false priv va n = .ok ls → readLog s k false priv va n = .ok l gen → 0 < n →
    writerDie (clusterOf k.core) = dieOf k.core → s.copies = [] →
    (∀ a ∈ sectorsOf va n, l1Find (coreAt s k.core) k.asid (leafIn ls a) a = none) →
    (∀ a ∈ sectorsOf va n, (readSector s (clusterOf k.core) (dieOf k.core) k.asid (keyOf (leafIn ls a) a)).data.length = 32) →
    l.length = n ∧ ∀ j < n, l.getD j 0 = logByte s (clusterOf k.core) k.asid
      (keyOf (leafIn ls ((va + j) / 32 * 32)) ((va + j) / 32 * 32)) ((va + j) % 32)

/-- A writer's tail buffer is in order: no append of it is under way, and each sector has one entry (R289). -/
def Sys2Proof.tailPlain (s : State) (wid : Nat) : Prop :=
  (∀ e ∈ (writerAt s wid).tail, e.st ≠ .appending) ∧
    ((writerAt s wid).tail.map (fun e => (e.asid, e.key))).Nodup

/-- `stv` and `spill` of words complete while the tail buffer has room: the bytes under each real member's leaf take its
data for its cluster, later members over earlier ones; every other byte reads as before for every writer. A spill remembers
the bytes it wrote. A release of die scope or wider is a statement of its own (R78, R209, R210, R216, R235, R289, R290).
The model's choices that it rests on: log entries 41 and 22. -/
def Obligations.LogStores : Prop :=
  ∀ i m, storeOf i = some m → m.wide = true → m.sz ≠ 3 → i.wf = true → ∀ s w, Issues s w → Ready s w m.uses →
    w.b.prog.done = false →
    (m.mod.ord = 2 → m.mod.scope < 3 ∧
      released s (makeRelease s w.core w.b.gang (gangAt s w.b.gang).asid m.mod.scope) = true) →
    let place (g p : Nat) : Nat := if m.sp = .spill then
      (regionBase (gangAt s w.b.gang) g p + wordAddr m s w.b.gang g p) % 2 ^ 64 else wordAddr m s w.b.gang g p
    let asid := (gangAt s w.b.gang).asid
    tailPlain s (clusterOf w.core) → (writerAt s (clusterOf w.core)).tail.length + w.b.members.length ≤ 65536 →
    ∀ leaf : Nat → Nat → DWord, (∀ x ∈ w.b.members, isReal (groupAt s w.b.gang x.1) x.2 = true →
      wordAddr m s w.b.gang x.1 x.2 % (4 * m.words) = 0 ∧
      (m.sp = .spill → wordAddr m s w.b.gang x.1 x.2 < 2 ^ 63 ∧ place x.1 x.2 % (4 * m.words) = 0 ∧
        regionBase (gangAt s w.b.gang) x.1 x.2 + wordAddr m s w.b.gang x.1 x.2 < 2 ^ 64 ∧
        wordAddr m s w.b.gang x.1 x.2 + 4 * m.words + 8 * (itemAt s w.b.gang x.1 x.2).depth ≤
          spillSize (gangAt s w.b.gang) / 32) ∧
      whoXlate s (whoOf s w x.1 x.2) true (m.sp = .spill) (place x.1 x.2) (4 * m.words) =
        .ok [(vpnOf (place x.1 x.2), leaf x.1 x.2)]) →
    let covers (key j : Nat) (x : Nat × Nat) : Prop := key = keyOf (leaf x.1 x.2) (place x.1 x.2 / 32 * 32) ∧
      place x.1 x.2 % 32 ≤ j ∧ j < place x.1 x.2 % 32 + 4 * m.words
    ∃ t, Machine.exec i s = .next t ∧ MovedOn s t w m.len ∧ SameRegisters s t w.b.gang ∧
      (∀ key j x, lastStore s w (covers key j) x → logByte t (clusterOf w.core) asid key j =
        storeByte m s w.b.gang x.1 x.2 (j - place x.1 x.2 % 32)) ∧
      (∀ wid a key j, (wid = clusterOf w.core ∧ a = asid →
          ∀ x ∈ w.b.members, isReal (groupAt s w.b.gang x.1) x.2 = true → ¬ covers key j x) →
        logByte t wid a key j = logByte s wid a key j) ∧
      (∀ g a, gangByte t g a = gangByte s g a) ∧ (∀ d l a, spadByte t d l a = spadByte s d l a) ∧ t.fixed = s.fixed ∧
      (m.sp = .spill → ∀ x ∈ w.b.members, isReal (groupAt s w.b.gang x.1) x.2 = true → ∀ j < 4 * m.words,
        wordAddr m s w.b.gang x.1 x.2 + j ∈ (itemAt t w.b.gang x.1 x.2).spilled)

/-! ## Control transfers -/

/-- A transfer: its condition register with NEG, its length, whether it pushes, what it reads, and where an item goes. -/
structure Sys2Proof.Transfer where
  y : Bool
  cond : Option (Nat × Bool) := none
  len : Nat
  call : Bool
  src : Option Src := none
  ext : Word := 0
  target : State → Nat → Nat → Nat → DWord

/-- The word address of the packet at a signed distance from the packet of a word, indices ten to a line (R66, R107). -/
def Sys2Proof.packetFrom (pc : DWord) (off : Int) : DWord :=
  let t : Int := ((pc.toNat / 128 * 10 + (pc.toNat % 128 - 8) / 12 : Nat) : Int) + off
  BitVec.ofInt 64 (128 * (t / 10) + 8 + 12 * (t % 10))

/-- A transfer relative to the packet at hand (R107). -/
def Sys2Proof.Transfer.near (y : Bool) (cs : Nat) (neg : Bool) (off : Int) (len : Nat) (call : Bool) : Transfer :=
  { y, cond := some (cs, neg), len, call, target := fun s gang g p => packetFrom (itemAt s gang g p).pc off }

/-- The transfers of R107, R110 and R114. -/
def Sys2Proof.transferOf : Instr → Option Transfer
  | .bra o => some (.near o.y o.cs.toNat o.neg o.off.toInt 1 false)
  | .brl o => some (.near o.y o.cs.toNat o.neg o.off.toInt 2 false)
  | .call o => some (.near o.y o.cs.toNat o.neg o.off.toInt 1 true)
  | .jmpi o => some { y := o.y, len := if o.x then 2 else 1, call := false, src := some { f := o.a, wide := true }, ext := o.ext
                      target := fun s gang g p => operandOf s gang g p o.ext { f := o.a, wide := true } }
  | .calli o => some { y := o.y, len := if o.x then 2 else 1, call := true, src := some { f := o.a, wide := true }, ext := o.ext
                       target := fun s gang g p => operandOf s gang g p o.ext { f := o.a, wide := true } }
  | _ => none

/-- What a transfer names and reads (R83). -/
def Sys2Proof.Transfer.uses (j : Transfer) : Uses :=
  { named := j.src.toList.map (fun x => (x.f, 2)), read := j.src.toList.map (fun x => (x.f, 2)), ext := j.ext }
/-- An item transfers: its condition's bit differs from NEG (R106). -/
def Sys2Proof.Transfer.taken (j : Transfer) (s : State) (w : Where) (m : Nat × Nat) : Bool :=
  match j.cond with
  | some (n, neg) => cOf s w.b.gang m.1 n m.2 != neg
  | none => true
/-- What Y asserts of a transfer (R32, R106). -/
def Sys2Proof.Transfer.uniform (j : Transfer) (s : State) (w : Where) : Prop :=
  let gs := (groupsOf w.b.members).map (fun g => (groupAt s w.b.gang g, inGroup w.b.members g))
  (∀ c ∈ j.cond, uniformC gs c.1 = true) ∧ ∀ x ∈ j.src, uniformSrc (gangAt s w.b.gang).oneD gs j.ext x = true

/-- A target stands at a packet whose line admits the transfer: its TGT bit, or E for packet 0 of a call's line (R64, R69). -/
def Sys2Proof.lands (s : State) (w : Where) (m : Nat × Nat) (call : Bool) (a : DWord) : Prop :=
  8 ≤ a.toNat % 128 ∧ (a.toNat % 128 - 8) % 12 = 0 ∧ a.toNat < 2 ^ 57 ∧ (call = true → a.toNat % 128 = 8) ∧
    ∃ l, fetchAt s w.core w.b.prog.answers (gangAt s w.b.gang).asid (itemAt s w.b.gang m.1 m.2).level
        (a.toNat / 128 * 128) 128 = .ok l ∧
      (ofBytes (l.take 8)).testBit (if call then 57 else 32 + (a.toNat % 128 - 8) / 12) = true

/-- An item that does not transfer has a next word: its line does not end here with L = 1 (R64, R69). -/
def Sys2Proof.goesOn (s : State) (w : Where) (m : Nat × Nat) (len : Nat) : Prop :=
  ¬ (w.b.lbit = true ∧ ((itemAt s w.b.gang m.1 m.2).pc.toNat + 4 * len) % 128 = 0)

/-- `bra`, `brl` and `jmpi` complete: an item whose condition holds stands at the target packet, any other at the next
word; no register, no memory and nothing of another lane changes (R66, R69, R106, R107, R114). -/
def Obligations.BranchResults : Prop :=
  ∀ i j, transferOf i = some j → j.call = false → i.wf = true → ∀ s w, Issues s w → Ready s w j.uses →
    (j.y = true → j.uniform s w) →
    (∀ m ∈ w.b.members, (j.taken s w m = true → lands s w m false (j.target s w.b.gang m.1 m.2)) ∧
      (j.taken s w m = false → goesOn s w m j.len)) →
    ∃ t, Machine.exec i s = .next t ∧ Confined s t w ∧ SameRegisters s t w.b.gang ∧
      ∀ m ∈ w.b.members, (itemAt t w.b.gang m.1 m.2).pc =
        if j.taken s w m then j.target s w.b.gang m.1 m.2 else nextWord (itemAt s w.b.gang m.1 m.2).pc j.len

/-- The address of the next call entry of an item: entries lie downwards from the top of its region (R36, R111). -/
def Sys2Proof.callSlot (s : State) (gang : Nat) (m : Nat × Nat) : Nat :=
  regionTop (gangAt s gang) m.1 m.2 - 8 * ((itemAt s gang m.1 m.2).depth + 1)

/-- `call` and `calli` complete: an item that transfers stands at packet 0 of the target line with one more call entry,
any other at the next word; no register changes (R66, R69, R106, R110, R111). -/
def Sys2Proof.callMoves : Prop :=
  ∀ i j, transferOf i = some j → j.call = true → i.wf = true → ∀ s w, Issues s w → Ready s w j.uses →
    (j.y = true → j.uniform s w) →
    tailPlain s (clusterOf w.core) → (writerAt s (clusterOf w.core)).tail.length + 2 * w.b.members.length ≤ 65536 →
    (∀ m ∈ w.b.members, (j.taken s w m = true → lands s w m true (j.target s w.b.gang m.1 m.2) ∧
        8 * ((itemAt s w.b.gang m.1 m.2).depth + 1) ≤ spillSize (gangAt s w.b.gang) / 32 ∧
        ∃ ls, regionXlate s w (itemAt s w.b.gang m.1 m.2) true (callSlot s w.b.gang m) 8 = .ok ls) ∧
      (j.taken s w m = false → goesOn s w m j.len)) →
    ∃ t, Machine.exec i s = .next t ∧ SameRegisters s t w.b.gang ∧
      (∀ g a, gangByte t g a = gangByte s g a) ∧ (∀ d l a, spadByte t d l a = spadByte s d l a) ∧ t.fixed = s.fixed ∧
      ∀ m ∈ w.b.members, (itemAt t w.b.gang m.1 m.2).pc =
          (if j.taken s w m then j.target s w.b.gang m.1 m.2 else nextWord (itemAt s w.b.gang m.1 m.2).pc j.len) ∧
        (itemAt t w.b.gang m.1 m.2).depth = (itemAt s w.b.gang m.1 m.2).depth + (if j.taken s w m then 1 else 0)

/-- The call entry that `call` and `calli` push holds the return word, the first word of the packet after the one that
holds the call; every other byte of log memory reads as before (R36, R66, R107, R110, R111). -/
def Sys2Proof.callEntry : Prop :=
  ∀ i j, transferOf i = some j → j.call = true → i.wf = true → ∀ s w m, Issues s w → w.b.members = [m] → Ready s w j.uses →
    (j.y = true → j.uniform s w) → j.taken s w m = true → lands s w m true (j.target s w.b.gang m.1 m.2) →
    8 * ((itemAt s w.b.gang m.1 m.2).depth + 1) ≤ spillSize (gangAt s w.b.gang) / 32 → callSlot s w.b.gang m % 8 = 0 →
    ∀ leaf, regionXlate s w (itemAt s w.b.gang m.1 m.2) true (callSlot s w.b.gang m) 8 =
      .ok [(vpnOf (callSlot s w.b.gang m), leaf)] →
    tailPlain s (clusterOf w.core) → (writerAt s (clusterOf w.core)).tail.length < 65536 →
    let at' := callSlot s w.b.gang m
    ∃ t, Machine.exec i s = .next t ∧
      (∀ j < 8, logByte t (clusterOf w.core) (gangAt s w.b.gang).asid (keyOf leaf (at' / 32 * 32)) (at' % 32 + j) =
        (packetFrom (itemAt s w.b.gang m.1 m.2).pc 1 >>> (8 * j)).setWidth 8) ∧
      ∀ wid a key j, ¬(wid = clusterOf w.core ∧ a = (gangAt s w.b.gang).asid ∧ key = keyOf leaf (at' / 32 * 32) ∧
          at' % 32 ≤ j ∧ j < at' % 32 + 8) → logByte t wid a key j = logByte s wid a key j

/-- `call` and `calli`: where their items go, and what the entry they push holds (R36, R66, R107, R110, R111). -/
def Obligations.Calls : Prop := callMoves ∧ callEntry

/-- `ret` completes: an item whose condition holds stands at the word that its newest call entry holds and has one entry
fewer, any other at the next word; no register and no memory changes (R106, R111, R112). -/
def Obligations.ReturnResults : Prop :=
  ∀ (o : CondOp), (Instr.ret o).wf = true → ∀ s w, Issues s w →
    (o.y = true → uniformC ((groupsOf w.b.members).map (fun g => (groupAt s w.b.gang g, inGroup w.b.members g))) o.cs.toNat = true) →
    let taken (m : Nat × Nat) : Bool := cOf s w.b.gang m.1 o.cs.toNat m.2 != o.neg
    let at' (m : Nat × Nat) : Nat := regionTop (gangAt s w.b.gang) m.1 m.2 - 8 * (itemAt s w.b.gang m.1 m.2).depth
    ∀ e : Nat × Nat → Nat, (∀ m ∈ w.b.members, (taken m = true → 0 < (itemAt s w.b.gang m.1 m.2).depth ∧
        (∃ ls, regionXlate s w (itemAt s w.b.gang m.1 m.2) false (at' m) 8 = .ok ls ∧
          (loadBytes s w.core (gangAt s w.b.gang).asid ls (at' m) 8).bad = false ∧
          e m = ofBytes (loadBytes s w.core (gangAt s w.b.gang).asid ls (at' m) 8).data) ∧
        8 ≤ e m % 128 ∧ (e m % 128 - 8) % 12 = 0 ∧ e m < 2 ^ 57) ∧ (taken m = false → goesOn s w m 1)) →
    ∃ t, Machine.exec (.ret o) s = .next t ∧ SameRegisters s t w.b.gang ∧ SameMemory s t ∧ Apart s t w ∧
      ∀ m ∈ w.b.members, (itemAt t w.b.gang m.1 m.2).pc =
          (if taken m then BitVec.ofNat 64 (e m) else nextWord (itemAt s w.b.gang m.1 m.2).pc 1) ∧
        (itemAt t w.b.gang m.1 m.2).depth = (itemAt s w.b.gang m.1 m.2).depth - (if taken m then 1 else 0)

/-- `exit` completes: a member whose condition holds is live no more, any other real member stands at the next word; while
one of them goes on, its group's base registers and condition registers keep their values. No collection of the gang is open:
one that an exit completes may have to wait for a place (R106, R116, R243, R249). -/
def Obligations.ExitResults : Prop :=
  ∀ (o : CondOp), (Instr.exit o).wf = true → ∀ s w, Issues s w →
    (o.y = true → uniformC ((groupsOf w.b.members).map (fun g => (groupAt s w.b.gang g, inGroup w.b.members g))) o.cs.toNat = true) →
    let taken (m : Nat × Nat) : Bool := cOf s w.b.gang m.1 o.cs.toNat m.2 != o.neg
    (∀ m ∈ w.b.members, canIssue (itemAt s w.b.gang m.1 m.2).wait = true ∧ (taken m = false → goesOn s w m 1)) →
    (∀ e ∈ (gangAt s w.b.gang).cv, e.2.st ≠ .collecting) →
    ∃ t, Machine.exec (.exit o) s = .next t ∧
      (∀ m ∈ w.b.members, taken m = true → itemIn (groupAt t w.b.gang m.1) m.2 = none) ∧
      ∀ m ∈ w.b.members, taken m = false → isReal (groupAt s w.b.gang m.1) m.2 = true →
        (itemAt t w.b.gang m.1 m.2).pc = nextWord (itemAt s w.b.gang m.1 m.2).pc 1 ∧
          (∀ r < 32, ∀ p < 32, vOf t w.b.gang m.1 r p = vOf s w.b.gang m.1 r p) ∧
          (∀ n, ∀ p < 32, cOf t w.b.gang m.1 n p = cOf s w.b.gang m.1 n p)

/-- `join`, `yield`, `nop` and, for items, `pour` complete: the members stand at the next word, and no register, no memory
and nothing of another lane changes (R115, R179). -/
def Obligations.PlainResults : Prop :=
  ∀ (o : NullOp), ∀ i ∈ [Instr.join o, .yield o, .nop o, .pour o], i.wf = true → ∀ s w, Issues s w →
    ∃ t, Machine.exec i s = .next t ∧ Confined s t w ∧ MovedOn s t w 1 ∧ SameRegisters s t w.b.gang

/-! ## Taking an exception -/

/-- The slot of an item's fault record (R266, R357). -/
def Sys2Proof.recordSlot (s : State) (gang : Nat) (m : Nat × Nat) : Nat :=
  (fnAt s (gangAt s gang).fn).savebase.toNat / 2 ^ 21 * 2 ^ 21 + (gangAt s gang).slot.getD 0 * 2 ^ 21 + 0x1000 +
    256 * (32 * m.1 + m.2)

/-- What a delivery finds: the record's page is writable, the vector word names a code entry line (R264, R266). -/
structure Sys2Proof.Deliverable (s : State) (gang : Nat) (m : Nat × Nat) (code : Nat) (leaf : DWord) (entry : Nat) : Prop where
  real : isReal (groupAt s gang m.1) m.2 = true
  free : (itemAt s gang m.1 m.2).frame = false
  page : translateNow s { asid := (gangAt s gang).asid, level := .supervisor, write := true } (recordSlot s gang m) 192 =
    .ok [(vpnOf (recordSlot s gang m), leaf)]
  tail : tailPlain s (clusterOf (gangAt s gang).core)
  room : (writerAt s (clusterOf (gangAt s gang).core)).tail.length + 6 ≤ 65536
  table : (tget s.ctx (gangAt s gang).asid 0).getLsbD 64 = true
  vector : ∀ l u, l.length = 192 → storeNow s (gangAt s gang).core (gangAt s gang).asid (recordSlot s gang m) l = .ok (some u) →
    loadNow u (gangAt s gang).core (gangAt s gang).asid { asid := (gangAt s gang).asid, level := .supervisor }
      (bits (tget s.ctx (gangAt s gang).asid 0).toNat 56 8 * 256 + 8 * code) 8 = .ok (some (toBytes 8 entry))
  line : ∀ l u, l.length = 192 → storeNow s (gangAt s gang).core (gangAt s gang).asid (recordSlot s gang m) l = .ok (some u) →
    ∃ h, loadNow u (gangAt s gang).core (gangAt s gang).asid { asid := (gangAt s gang).asid, level := .supervisor, exec := true }
      (entry / 128 * 128) 128 = .ok (some h) ∧ (ofBytes (h.take 8)).testBit 57 = true
  entry : entry % 128 = 8 ∧ entry < 2 ^ 57

/-- Byte `k` of an item's fault record as `t` holds it, under the leaf of the record's page. -/
def Sys2Proof.recordByte (s t : State) (gang : Nat) (m : Nat × Nat) (leaf : DWord) (k : Nat) : Byte :=
  logByte t (clusterOf (gangAt s gang).core) (gangAt s gang).asid (keyOf leaf (recordSlot s gang m) + k / 32) (k % 32)

/-- An item has taken a cause: it stands at the vector's handler at supervisor level inside a trap frame, its old level saved;
v0 and v1 name its fault record, its latches are invalid, other registers keep their values; the record holds the cause, SUB
and the resume point (R25, R263, R264, R266, R267). -/
structure Sys2Proof.TookTrap (s t : State) (gang : Nat) (m : Nat × Nat) (leaf : DWord) (entry code sub : Nat) (resume : DWord) : Prop where
  pc : (itemAt t gang m.1 m.2).pc = BitVec.ofNat 64 entry
  level : (itemAt t gang m.1 m.2).level = .supervisor
  prior : (itemAt t gang m.1 m.2).prior = (itemAt s gang m.1 m.2).level
  frame : (itemAt t gang m.1 m.2).frame = true
  ring : (itemAt t gang m.1 m.2).ring = []
  v0 : m.2 < 32 → vOf t gang m.1 0 m.2 = BitVec.ofNat 32 (recordSlot s gang m)
  v1 : m.2 < 32 → vOf t gang m.1 1 m.2 = BitVec.ofNat 32 (recordSlot s gang m / 2 ^ 32)
  kept : ∀ g r p, p < 32 → (2 ≤ r ∨ (g, p) ≠ m) → vOf t gang g r p = vOf s gang g r p
  cause : recordByte s t gang m leaf 0 = BitVec.ofNat 8 code
  sub : recordByte s t gang m leaf 1 = BitVec.ofNat 8 sub
  resume : ∀ k < 8, recordByte s t gang m leaf (8 + k) = BitVec.ofNat 8 (resume.toNat % 2 ^ 57 / 4 * 4 / 2 ^ (8 * k))

/-- `trap` takes SW_TRAP with its immediate as SUB and the following word as the resume point (R25, R117, R263, R264, R266,
R267). -/
def Sys2Proof.trapEntry : Prop :=
  ∀ (o : TrapOp), (Instr.trap o).wf = true → ∀ s w m leaf entry, Issues s w → w.b.members = [m] →
    Deliverable s w.b.gang m 0x16 leaf entry →
    ∃ t, Machine.exec (.trap o) s = .next t ∧ TookTrap s t w.b.gang m leaf entry 0x16 o.imm.toNat
      (nextWord (itemAt s w.b.gang m.1 m.2).pc 1)

/-- A cause that arises inside a trap frame contains the gang: it stops, a halted-gang record with KIND 1 enters its
function's ring while the ring has room (R269, R412, R413). -/
def Sys2Proof.containedTrap : Prop :=
  ∀ (o : TrapOp), (Instr.trap o).wf = true → ∀ s w m, Issues s w → w.b.members = [m] →
    isReal (groupAt s w.b.gang m.1) m.2 = true → (itemAt s w.b.gang m.1 m.2).frame = true →
    (gangAt s w.b.gang).phase ≠ .contained → s.rootOps = [] →
    let f := (gangAt s w.b.gang).fn
    ((fnAt s f).tail + 128 - (fnAt s f).head) % 128 < 64 → (gangAt s w.b.gang).asid < 4096 → (gangAt s w.b.gang).queue < 8 →
    ∃ t, Machine.exec (.trap o) s = .next t ∧ (gangAt t w.b.gang).phase = .contained ∧
      (fnAt t f).tail = ((fnAt s f).tail + 1) % 128 ∧
      (let r := (tget (fnAt t f).hg ((fnAt s f).tail % 64) 0).toNat;
        bits r 7 0 = 1 ∧ bits r 15 8 = 0x16 ∧ bits r 71 60 = (gangAt s w.b.gang).asid ∧
          bits r 191 128 = (itemAt s w.b.gang m.1 m.2).pc.toNat)

/-- `trap` enters its handler, and inside a trap frame it contains the gang (R117, R263, R264, R266, R267, R269).
The model's choices that it rests on: log entries 10 and 27. -/
def Obligations.Traps : Prop := trapEntry ∧ containedTrap

/-- A selector that not every item may issue: its number, what it uses, and whether an item may (R262, R270, R275, R279,
R281, R383, R411). -/
def Sys2Proof.privilegeOf : Instr → Option (Nat × Uses × (State → Where → Nat × Nat → Bool))
  | .ctxsv o => some (0x19, aUses o 2, fun s w m => (itemAt s w.b.gang m.1 m.2).level = .supervisor)
  | .ctxld o => some (0x1A, aUses o 2, fun s w m => (itemAt s w.b.gang m.1 m.2).level = .supervisor)
  | .halt o => some (0x1B, aUses o 1, fun s w m => (itemAt s w.b.gang m.1 m.2).level = .supervisor)
  | .errlog o => some (0x21, daUses o 2 1, fun s w m => (itemAt s w.b.gang m.1 m.2).level = .supervisor)
  | .rollback o => some (0x12, daUses o 1 2, fun s w m => (itemAt s w.b.gang m.1 m.2).level = .supervisor)
  | .perfrd o => some (0x20, daUses o 2 1, fun s w m => (itemAt s w.b.gang m.1 m.2).level = .supervisor ||
      (tget s.ctx (gangAt s w.b.gang).asid 0).getLsbD 65)
  | .trig o => some (0x0B, aUses o 1, fun s w m => (itemAt s w.b.gang m.1 m.2).level = .supervisor ||
      (fnAt s (astEntry s (gangAt s w.b.gang).asid).fn).utrig)
  | .inject o => some (0x22, { named := [(o.a, if o.ext.toNat % 16 = 2 then 2 else 1)]
                               read := [(o.a, if o.ext.toNat % 16 = 2 then 2 else 1)], ext := 0 },
      fun s w _ => (tget s.ctx (gangAt s w.b.gang).asid 0).getLsbD 66)
  | .rett _ => some (0xFF, { named := [], read := [], ext := 0 }, fun s w m => (itemAt s w.b.gang m.1 m.2).frame)
  | _ => none

/-- A selector that the item may not issue takes PRIVILEGE at its own word, with the selector as SUB, and has no other effect
on registers (R262, R265, R266, R270, R275). -/
def Obligations.PrivilegeTraps : Prop :=
  ∀ i sel u may, privilegeOf i = some (sel, u, may) → i.wf = true → ∀ s w m leaf entry, Issues s w → w.b.members = [m] →
    awaitsLoad s w.b.gang w.b.members u = false → (groupAt s w.b.gang m.1).badV = [] → (groupAt s w.b.gang m.1).badS = [] →
    w.b.prog.results = [] → may s w m = false → Deliverable s w.b.gang m 0x07 leaf entry →
    ∃ t, Machine.exec i s = .next t ∧ TookTrap s t w.b.gang m leaf entry 0x07 sel (itemAt s w.b.gang m.1 m.2).pc

/-! ## Narrow elements, full words, atomics and fences -/

/-- `ldv`, `ldk` and `ldd` of narrow elements (SZ = 11) complete: D takes the f32 that the element at each member's bit
address decodes to under the format in force, and its flags are raised; no byte of memory and no other register changes
(R53 to R56, R211 to R213). The model's choices that it rests on: log entries 20 and 38. -/
def Obligations.ElementLoads : Prop :=
  ∀ i m, loadOf i = some m → m.sz = 3 → i.wf = true → ∀ s w, Issues s w → Ready s w m.uses →
    w.b.prog.done = false → (m.wide = true → loadsGo s w) → (m.drops s w = true → isLatch m.a = false) →
    (localOf s w.b.gang false).bad = [] → (localOf s w.b.gang true).bad = [] →
    ∀ val : Nat → Nat → Word × Nat × Nat, (∀ x ∈ w.b.members, ∃ n, m.fmtNo s (whoOf s w x.1 x.2) (m.base s w.b.gang x.1 x.2) = .ok n ∧
      let f := fmtOf (gangAt s w.b.gang) n
      let ea := effAddr m.wide (m.base s w.b.gang x.1 x.2) m.off m.mod.xoff (elemBits f)
      fmtUsable f m.sp = true ∧ (elemPlace f (m.base s w.b.gang x.1 x.2)).isSome = true ∧
        decodeElem s (whoOf s w x.1 x.2) m.sp false f ea = .ok (val x.1 x.2) ∧
        (m.wide = true → (val x.1 x.2).2.2 ≤ seenOf s w.core (gangAt s w.b.gang).asid)) →
    ∃ t, Machine.exec i s = .next t ∧ SameMemory s t ∧ GangsKept s t w ∧ KeptRegs s t w m.d m.ext 1 ∧
      loaded s t w m (fun g p _ => (val g p).1) ∧
      (∀ g, (groupAt t w.b.gang g).status = (groupAt s w.b.gang g).status ||| BitVec.ofNat 32
        (raised (groupAt s w.b.gang g) (inGroup w.b.members g) (fun p => (val g p).2.1) % 64)) ∧
      (m.mod.ord = 0 → MovedOn s t w m.len)

/-- Every register of a gang but its status words keeps its value. -/
structure Sys2Proof.SameValues (s t : State) (gang : Nat) : Prop where
  v : ∀ g r p, p < 32 → vOf t gang g r p = vOf s gang g r p
  c : ∀ g n p, p < 32 → cOf t gang g n p = cOf s gang g n p
  scalar : ∀ g n, sOf t gang g n = sOf s gang g n

/-- Bit `b` of a memory of bytes. -/
def Sys2Proof.memBit (byte : Nat → Byte) (b : Nat) : Bool := (byte (b / 8)).getLsbD (b % 8)

/-- A store of a narrow element by one real item stands before its access, at the bit address `ea` in the format `f`, and
its data encode to the code `c` with the flags `fl` (R56, R211 to R213). -/
structure Sys2Proof.ElementStore (m : MemSpec) (s : State) (w : Where) (x : Nat × Nat) (f : BitVec 256) (ea c fl : Nat) : Prop where
  issues : Issues s w
  one : w.b.members = [x]
  real : isReal (groupAt s w.b.gang x.1) x.2 = true
  ready : Ready s w m.uses
  first : w.b.prog.done = false
  latch : m.drops s w = true → isLatch m.a = false
  clean : (localOf s w.b.gang false).bad = [] ∧ (localOf s w.b.gang true).bad = []
  format : ∃ n, m.fmtNo s (whoOf s w x.1 x.2) (m.base s w.b.gang x.1 x.2) = .ok n ∧ f = fmtOf (gangAt s w.b.gang) n
  usable : fmtUsable f m.sp = true ∧ (elemPlace f (m.base s w.b.gang x.1 x.2)).isSome = true
  place : ea = effAddr m.wide (m.base s w.b.gang x.1 x.2) m.off m.mod.xoff (elemBits f)
  code : encodeElem s (whoOf s w x.1 x.2) m.sp f ea ((dataWords s w.b.gang x.1 x.2 m.d m.ext 1).headD 0) = .ok (c, fl)
  release : m.mod.ord = 2 → m.mod.scope < 3 ∧
    released s (makeRelease s w.core w.b.gang (gangAt s w.b.gang).asid m.mod.scope) = true

/-- `stk` and `std` of narrow elements complete: the bits of a real item's element take the code of its data, its flags are
raised, and every other bit of the memory keeps its value (R56, R211 to R213).
The model's choices that it rests on: log entries 20 and 41. -/
def Obligations.ElementStores : Prop :=
  ∀ i m, storeOf i = some m → m.sz = 3 → m.wide = false → i.wf = true → ∀ s w x f ea c fl, ElementStore m s w x f ea c fl →
    Memory.wf (localOf s w.b.gang (m.sp = .spad)).mem = true →
    ∃ t, Machine.exec i s = .next t ∧ MovedOn s t w m.len ∧ SameValues s t w.b.gang ∧
      (∀ b, memBit (localByte t w.b.gang (m.sp = .spad)) b = if ea ≤ b ∧ b < ea + elemBits f then c.testBit (b - ea)
        else memBit (localByte s w.b.gang (m.sp = .spad)) b) ∧
      (groupAt t w.b.gang x.1).status = (groupAt s w.b.gang x.1).status ||| BitVec.ofNat 32 (fl % 64) ∧
      ∀ wid asid key j, logByte t wid asid key j = logByte s wid asid key j

/-- `stv` of narrow elements completes while the tail buffer has room: the bits of a real item's element take the code of
its data for its cluster, its flags are raised, and every other bit under the leaves of its bytes keeps its value (R56, R211
to R213, R216, R289, R290). The model's choices that it rests on: log entries 20 and 42. -/
def Obligations.LogElementStores : Prop :=
  ∀ (o : StoreOp), o.sz = 3 → (Instr.stv o).wf = true → ∀ s w x f ea c fl, ElementStore (storeSpec .log o) s w x f ea c fl →
    let wid := clusterOf w.core
    let asid := (gangAt s w.b.gang).asid
    writerDie wid = dieOf w.core → tailPlain s wid → (writerAt s wid).tail.length + 2 ≤ 65536 →
    ∀ ls, whoXlate s (whoOf s w x.1 x.2) true false (ea / 8) ((ea + (elemBits f - 1)) / 8 - ea / 8 + 1) = .ok ls →
    (∀ a ∈ sectorsOf (ea / 8) ((ea + (elemBits f - 1)) / 8 - ea / 8 + 1),
      (readSector s wid (writerDie wid) asid (keyOf (leafIn ls a) a)).data.length = 32) →
    let byte (u : State) (va : Nat) : Byte := logByte u wid asid (keyOf (leafIn ls (va / 32 * 32)) (va / 32 * 32)) (va % 32)
    ∃ t, Machine.exec (.stv o) s = .next t ∧ MovedOn s t w (storeSpec .log o).len ∧ SameValues s t w.b.gang ∧
      (∀ b, ea / 8 ≤ b / 8 → b / 8 ≤ (ea + (elemBits f - 1)) / 8 → memBit (byte t) b =
        if ea ≤ b ∧ b < ea + elemBits f then c.testBit (b - ea) else memBit (byte s) b) ∧
      (groupAt t w.b.gang x.1).status = (groupAt s w.b.gang x.1).status ||| BitVec.ofNat 32 (fl % 64) ∧
      (∀ g a, gangByte t g a = gangByte s g a) ∧ ∀ d l a, spadByte t d l a = spadByte s d l a

/-- One item's destination holds the words given: v registers from D on, or the first word in an s register (R27, R31). -/
def Sys2Proof.gave (t : State) (gang : Nat) (x : Nat × Nat) (d : Field7) (ext : Word) (ws : List Word) : Prop :=
  (isV d = true → ∀ k < ws.length, vOf t gang x.1 (d.toNat + k) x.2 = ws.getD k 0) ∧
    (d = 124 → sOf t gang x.1 (extS ext) = ws.getD 0 0)

/-- A range of local memory is reachable and holds defined data: inside, present, no storage error, no frequency data, no
copy writing it (R205, R206, R208, R215, R231, R345). -/
structure Sys2Proof.LocalClean (s : State) (gang : Nat) (x : Nat × Nat) (spad : Bool) (off n : Nat) : Prop where
  inside : localInside s gang spad off n
  clean : (localOf s gang spad).bad = []
  domain : domHit (localOf s gang spad) off n = false
  quiet : spad = false → openRuns s gang (itemAt s gang x.1 x.2).sb = []

/-- `ldf` of a real item: a full word goes to D, and `take` makes it empty; at an empty word the item waits where it stands.
No byte of memory and no other register changes (R218, R219). -/
def Obligations.FullLoads : Prop :=
  ∀ (o : LdfOp), (Instr.ldf o).wf = true → ∀ s w x, Issues s w → w.b.members = [x] →
    isReal (groupAt s w.b.gang x.1) x.2 = true →
    Ready s w { named := [(o.d, 1), (o.a, 1)], read := [(o.a, 1)], ext := o.ext } → w.b.prog.done = false →
    (itemAt s w.b.gang x.1 x.2).wait = .ready → isLatch o.a = false →
    let spad : Bool := (ldfMod o).scope = 3
    let take : Bool := (ldfMod o).aop = 1
    let ea := effAddr false (operandOf s w.b.gang x.1 x.2 o.ext { f := o.a }).toNat o.off (ldfMod o).xoff 4
    LocalClean s w.b.gang x spad ea 4 →
    ∃ t, Machine.exec (.ldf o) s = .next t ∧ SameMemory s t ∧
      (ea / 4 ∈ (localOf s w.b.gang spad).full →
        gave t w.b.gang x o.d o.ext [wordOf (localByte s w.b.gang spad) ea] ∧ KeptRegs s t w o.d o.ext 1 ∧
        (∀ u, u ∈ (localOf t w.b.gang spad).full ↔ u ∈ (localOf s w.b.gang spad).full ∧ ¬(take = true ∧ u = ea / 4)) ∧
        (spad = false → MovedOn s t w (if o.x then 2 else 1))) ∧
      (ea / 4 ∉ (localOf s w.b.gang spad).full →
        (itemAt t w.b.gang x.1 x.2).wait = .full spad ea take s.now ∧
        (itemAt t w.b.gang x.1 x.2).pc = (itemAt s w.b.gang x.1 x.2).pc ∧ SameRegisters s t w.b.gang)

/-- The memory that a fill address names for an item, with the offset in it (R220): its own gang memory, that of the gang of
its launch with a number on its cluster, or its launch's scratchpad on a die of this chip. -/
def Sys2Proof.fillPlace (s : State) (w : Where) (ea : Nat) (off : Nat) : FillTarget → Prop
  | .gang t => (t = w.b.gang ∧ ea = off) ∨ ∃ n < 2 ^ 21, ea = 2 ^ 62 + n * 2 ^ 32 + off ∧
      (s.gangs.find? (fun k => k.2.launch = (gangAt s w.b.gang).launch && k.2.index = n && k.2.phase = .resident &&
        clusterOf k.2.core = clusterOf w.core)).map Prod.fst = some t
  | .spad d l => l = (gangAt s w.b.gang).launch ∧ d < 4 ∧ ea = 2 ^ 63 + d * 2 ^ 53 + off ∧ (spadOf s d l).isSome = true
  | .remote _ _ _ => False
/-- A byte of a memory that a fill names. -/
def Sys2Proof.fillByte (s : State) (t : FillTarget) (a : Nat) : Byte :=
  match t with
  | .gang g => gangByte s g a
  | .spad d l => spadByte s d l a
  | .remote _ _ _ => 0

/-- `stf` of a real item completes: with no earlier fill queued and none waiting for the word, the word at its fill address
takes the data and is full; every other byte and word of that memory and every register are as before (R218, R220, R221).
The model's choices that it rests on: log entries 45 and 44. -/
def Obligations.FullStores : Prop :=
  ∀ (o : WideOp), (Instr.stf o).wf = true → ∀ s w x target off, Issues s w → w.b.members = [x] →
    isReal (groupAt s w.b.gang x.1) x.2 = true →
    Ready s w { named := [(o.d, 1), (o.a, 2)], read := [(o.a, 2), (o.d, 1)], ext := o.ext } →
    let m := memMod (modOf (some o.d) [o.a] o.x o.ext)
    let ea := effAddr true (operandOf s w.b.gang x.1 x.2 o.ext { f := o.a, wide := true }).toNat o.off m.xoff 4
    off % 4 = 0 → off < 2 ^ 32 → fillPlace s w ea off target → off + 4 ≤ (targetLocal s target).size →
    absentIn (targetLocal s target) off 4 = none → Memory.wf (targetLocal s target).mem = true →
    s.fillq = [] → s.fabric.sent = [] → fullWaiters s target off = [] →
    ∃ t, Machine.exec (.stf o) s = .next t ∧ MovedOn s t w (if o.x then 2 else 1) ∧ SameRegisters s t w.b.gang ∧
      wordOf (fillByte t target) off = (dataWords s w.b.gang x.1 x.2 o.d o.ext 1).headD 0 ∧
      (∀ a, (a < off ∨ off + 4 ≤ a) → fillByte t target a = fillByte s target a) ∧
      (∀ u, u ∈ (targetLocal t target).full ↔ u ∈ (targetLocal s target).full ∨ u = off / 4) ∧
      ∀ wid asid key j, logByte t wid asid key j = logByte s wid asid key j

/-- The value that an atomic leaves, from the old value, the operand and the new value of a `cas`; its flags (R223, R224). -/
def Sys2Proof.atomicNew (aop n : Nat) (old v new : BitVec n) : Option (BitVec n) × Nat :=
  match aop with
  | 0x00 => (some (old + v), 0)
  | 0x01 => (some (if old.toInt ≤ v.toInt then old else v), 0)
  | 0x02 => (some (if old.toInt ≤ v.toInt then v else old), 0)
  | 0x03 => (some (if old.toNat ≤ v.toNat then old else v), 0)
  | 0x04 => (some (if old.toNat ≤ v.toNat then v else old), 0)
  | 0x05 => (some (old &&& v), 0)
  | 0x06 => (some (old ||| v), 0)
  | 0x07 => (some (old ^^^ v), 0)
  | 0x08 => (some v, 0)
  | 0x09 => (if old = v then some new else none, 0)
  | 0x10 => (some (BitVec.ofNat n (floatAdd f32 old.toNat v.toNat).1), (floatAdd f32 old.toNat v.toNat).2)
  | k =>
    let r := lanes2 (fun j => floatAdd (if k = 0x11 then bf16 else f16) (lane old.toNat j) (lane v.toNat j))
    (some (BitVec.ofNat n r.1), r.2)

/-- The value of one or two words, lowest first. -/
def Sys2Proof.joined (n : Nat) (ws : List Word) : BitVec n := BitVec.ofNat n ((ws.getD 0 0).toNat + 2 ^ 32 * (ws.getD 1 0).toNat)

/-- `atk` and `atd` of a real item complete: D takes the old value unless K is set, the bytes take the operation's value,
its flags are raised, and every other byte keeps its value (R78, R206, R223, R224).
The model's choices that it rests on: log entry 22. -/
def Obligations.LocalAtomics : Prop :=
  ∀ (o : MemOp), ∀ q ∈ [(Instr.atk o, ({ sp := .gang, o } : AtomSpec)), (Instr.atd o, { sp := .spad, o })], q.1.wf = true →
    ∀ s w x, Issues s w → w.b.members = [x] → isReal (groupAt s w.b.gang x.1) x.2 = true → Ready s w q.2.uses →
    w.b.prog.done = false → w.b.prog.results = [] → (q.2.sp = .spad → isLatch o.a = false ∧ isLatch o.d = false) →
    (2 ≤ q.2.mod.ord → released s (makeRelease s w.core w.b.gang (gangAt s w.b.gang).asid q.2.mod.scope) = true) →
    let spad : Bool := q.2.sp = .spad
    let n := 4 * q.2.words
    let ea := effAddr false (operandOf s w.b.gang x.1 x.2 o.ext { f := o.a }).toNat o.off q.2.mod.xoff n
    LocalClean s w.b.gang x spad ea n → Memory.wf (localOf s w.b.gang spad).mem = true →
    let olds := (List.range q.2.words).map (fun k => wordOf (localByte s w.b.gang spad) (ea + 4 * k))
    let data := dataWords s w.b.gang x.1 x.2 o.d o.ext q.2.inWords
    let r := atomicNew q.2.mod.aop (8 * n) (joined _ olds) (joined _ (data.take q.2.words)) (joined _ (data.drop q.2.words))
    ∃ t, Machine.exec q.1 s = .next t ∧ (o.k = false → gave t w.b.gang x o.d o.ext olds) ∧
      KeptRegs s t w (if o.k then 120 else o.d) o.ext q.2.words ∧
      (∀ j < n, localByte t w.b.gang spad (ea + j) = match r.1 with
        | some v => (v >>> (8 * j)).setWidth 8
        | none => localByte s w.b.gang spad (ea + j)) ∧
      (∀ a, (a < ea ∨ ea + n ≤ a) → localByte t w.b.gang spad a = localByte s w.b.gang spad a) ∧
      (groupAt t w.b.gang x.1).status = (groupAt s w.b.gang x.1).status ||| BitVec.ofNat 32 (r.2 % 64) ∧
      (∀ wid asid key j, logByte t wid asid key j = logByte s wid asid key j) ∧
      (q.2.mod.ord % 2 = 0 → MovedOn s t w (if o.x then 2 else 1))

/-- `atv` of a real item completes in two turns: it stalls with its operation queued at the home die of its page, and when
the atomic unit has returned the old value, D takes it and the item stands at the next word (R223, R225, R338).
The model's choices that it rests on: log entry 46. -/
def Obligations.LogAtomics : Prop :=
  ∀ (o : MemOp), (Instr.atv o).wf = true → ∀ s w x, Issues s w → w.b.members = [x] →
    isReal (groupAt s w.b.gang x.1) x.2 = true →
    let m : AtomSpec := { sp := .log, o }
    Ready s w m.uses → w.b.prog.done = false →
    (2 ≤ m.mod.ord → released s (makeRelease s w.core w.b.gang (gangAt s w.b.gang).asid m.mod.scope) = true) →
    let ea := effAddr true (operandOf s w.b.gang x.1 x.2 o.ext { f := o.a, wide := true }).toNat o.off m.mod.xoff (4 * m.words)
    let asid := (gangAt s w.b.gang).asid
    let data := dataWords s w.b.gang x.1 x.2 o.d o.ext m.inWords
    ea % (4 * m.words) = 0 →
    (∀ leaf, w.b.prog.results = [] → (∀ n ≤ 4 * m.words, whoXlate s (whoOf s w x.1 x.2) true false ea n = .ok [(vpnOf ea, leaf)]) →
      ∃ t, Machine.exec (.atv o) s = .next t ∧ SameMemory s t ∧ SameRegisters s t w.b.gang ∧
        (itemAt t w.b.gang x.1 x.2).pc = (itemAt s w.b.gang x.1 x.2).pc ∧
        ∃ r, (dieAt t (homeDie asid (leafLpn leaf))).atomq = (dieAt s (homeDie asid (leafLpn leaf))).atomq ++ [r] ∧
          ((laneAt t w.core w.lane).bundle.bind Bundle.stall) = some (.atomic r.id) ∧
          r.asid = asid ∧ r.aop = m.mod.aop ∧ r.wide = m.wide ∧ r.ops = [(x.1, x.2, keyOf leaf ea * 32 + ea % 32,
            (joined 64 (data.take m.words)), (joined 64 (data.drop m.words)))]) ∧
    (∀ ws, ws.length = m.words → w.b.prog.results = [(x.1, x.2, 0 :: ws)] → m.mod.ord % 2 = 0 →
      ∃ t, Machine.exec (.atv o) s = .next t ∧ SameMemory s t ∧ (o.k = false → gave t w.b.gang x o.d o.ext ws) ∧
        KeptRegs s t w (if o.k then 120 else o.d) o.ext m.words ∧ MovedOn s t w (if o.x then 2 else 1))

/-- `fence` completes when its release conditions hold and its acquire has nothing to wait for, and then the core's L1
holds no line where it acquires at cluster scope or wider; until its release conditions hold it stalls where it stands.
No register and no byte of memory changes (R226, R227). -/
def Obligations.Fences : Prop :=
  ∀ (o : FenceOp), (Instr.fence o).wf = true → ∀ s w x, Issues s w → x ∈ w.b.members →
    isReal (groupAt s w.b.gang x.1) x.2 = true →
    let m := memMod o.ext.toNat
    let r := makeRelease s w.core w.b.gang (gangAt s w.b.gang).asid m.scope
    let met : Bool := m.ord < 2 || w.b.prog.released || released s r
    (met = true → (m.ord % 2 = 1 → w.b.prog.acquired = false →
        (makeAcquire s w.core m.scope).2 = []) →
      ∃ t, Machine.exec (.fence o) s = .next t ∧ SameMemory s t ∧ MovedOn s t w 2 ∧ SameRegisters s t w.b.gang ∧
        (m.ord % 2 = 1 → w.b.prog.acquired = false → 2 ≤ m.scope → (coreAt t w.core).l1 = [])) ∧
    (met = false → ∃ t, Machine.exec (.fence o) s = .next t ∧
      ((laneAt t w.core w.lane).bundle.bind Bundle.stall) = some (.release r) ∧
      (∀ x ∈ w.b.members, (itemAt t w.b.gang x.1 x.2).pc = (itemAt s w.b.gang x.1 x.2).pc) ∧ SameRegisters s t w.b.gang)

/-! ## Groups, exchanges, barriers and register blocks -/

/-- The real members of a bundle in one home group, in order of position (R192). -/
def Sys2Proof.participants (s : State) (w : Where) (g : Nat) : List Nat :=
  (List.range 32).filter (fun q => w.b.members.contains (g, q) && isReal (groupAt s w.b.gang g) q)

/-- The word of a register at a position as `perm` reads it: zero where no item stands or its item holds no such register
(R189). -/
def Sys2Proof.permWord (s : State) (gang g q : Nat) (f : Field7) : Word :=
  match itemIn (groupAt s gang g) q with
  | none => 0
  | some t => if isV f && (f.toNat < 32 || t.ext) then vOf s gang g f.toNat q else 0

/-- Byte `j` that `perm` gives to a position: entry 4·p + j of the pattern names a position, a byte and a register, or
zero (R188, R189). -/
def Sys2Proof.permByte (o : PermOp) (pat : BitVec 2048) (s : State) (gang g p j : Nat) : Nat :=
  let e := (pat.extractLsb' (8 * (4 * p + j)) 8).toNat
  if pat.getLsbD (1024 + 4 * p + j) then 0
  else (permWord s gang g (e % 128 / 4) (if e.testBit 7 then o.b else o.a)).toNat / 2 ^ (8 * (e % 4)) % 256

/-- What `vote` gives a group: a mask, any, all, a count, or agreement of its participants (R193). -/
def Sys2Proof.voteValue (o : VoteOp) (s : State) (w : Where) (g : Nat) : Nat :=
  let ps := participants s w g
  let yes := ps.filter (fun q => cOf s w.b.gang g o.cn.toNat q != o.na)
  match o.mode.toNat with
  | 0 => (yes.map (fun q => 2 ^ q)).sum
  | 1 => if yes = [] then 0 else 1
  | 2 => if yes = ps then 1 else 0
  | 3 => yes.length
  | _ => if yes = [] ∨ yes = ps then 1 else 0

/-- A reduction of values in order, with the flags of its steps (R194). -/
def Sys2Proof.reduced (op : Nat) : List Word → Word × Nat
  | [] => (redIdentity op, 0)
  | a :: r => r.foldl (fun (v, f) x => ((redOp op v x).1, f ||| (redOp op v x).2)) (redFirst op a)

/-- A result of one word reaches D for every real member, goes into the latch rings, and nothing else changes but the
flags. -/
def Sys2Proof.groupResult (s t : State) (w : Where) (d : Field7) (ext : Word) (len : Nat) (val : Nat → Nat → Word) : Prop :=
  Confined s t w ∧ KeptRegs s t w d ext 1 ∧ MovedOn s t w len ∧ Wrote s t w d ext false (fun g p => word (val g p)) ∧
    (w.b.pend = 0 → Pushed s t w false (fun g p => word (val g p)))

/-- `perm` completes: each byte of D is the byte that the pattern register names for it (R188, R189). -/
def Obligations.Permutes : Prop :=
  ∀ (o : PermOp), (Instr.perm o).wf = true → ∀ s w, Issues s w → w.b.prog.done = false →
    Ready s w { named := [(o.d, 1), (o.a, 1), (o.b, 1)], read := [(o.a, 1), (o.b, 1)], ext := 0 } →
    let pat := tget (gangAt s w.b.gang).pat (o.ext.toNat % 16) 0
    ∃ t, Machine.exec (.perm o) s = .next t ∧ (∀ g, (groupAt t w.b.gang g).status = (groupAt s w.b.gang g).status) ∧
      groupResult s t w o.d 0 2 (fun g p => BitVec.ofNat 32 (permByte o pat s w.b.gang g p 0 +
        2 ^ 8 * permByte o pat s w.b.gang g p 1 + 2 ^ 16 * permByte o pat s w.b.gang g p 2 +
        2 ^ 24 * permByte o pat s w.b.gang g p 3))

/-- `vote` completes with its group's value in every participant, and its other modes are ill-formed (R192, R193). -/
def Obligations.Votes : Prop :=
  (∀ (o : VoteOp), 5 ≤ o.mode.toNat → (Instr.vote o).wf = false) ∧
  ∀ (o : VoteOp), (Instr.vote o).wf = true → ∀ s w, Issues s w → w.b.prog.done = false →
    Ready s w { named := [(o.d, 1)], read := [], ext := 0 } →
    ∃ t, Machine.exec (.vote o) s = .next t ∧ (∀ g, (groupAt t w.b.gang g).status = (groupAt s w.b.gang g).status) ∧
      groupResult s t w o.d 0 1 (fun g _ => BitVec.ofNat 32 (voteValue o s w g))

/-- `gred` completes: every participant receives the reduction of its group's participants in order of position, or, for a
scan, of those up to itself; the flags of every step are raised (R192, R194).
The model's choices that it rests on: log entry 23. -/
def Obligations.Reductions : Prop :=
  ∀ (o : GredOp), (Instr.gred o).wf = true → ∀ s w, Issues s w → w.b.prog.done = false →
    Ready s w { named := [(o.d, 1), (o.a, 1)], read := [(o.a, 1)], ext := o.ext } →
    let vals (g p : Nat) : List Word := ((participants s w g).filter (fun q => !o.scan || q ≤ p)).map (fun q =>
      (operandOf s w.b.gang g q o.ext { f := o.a }).setWidth 32)
    ∃ t, Machine.exec (.gred o) s = .next t ∧
      (∀ g, (groupAt t w.b.gang g).status = (groupAt s w.b.gang g).status ||| BitVec.ofNat 32
        ((reduced o.op.toNat (vals g 31)).2 % 64)) ∧
      groupResult s t w o.d o.ext (if o.x then 2 else 1) (fun g p => (reduced o.op.toNat (vals g p)).1)

/-- What an exchange names, the field that it hands over, its length, and the position that an item reads (R186, R187). -/
structure Sys2Proof.Exchange where
  xg : Bool
  d : Field7
  a : Field7
  b : Option Field7 := none
  ext : Word
  len : Nat
  from' : State → Nat → Nat → Nat → Option Nat

/-- The exchanges. -/
def Sys2Proof.exchangeOf : Instr → Option Exchange
  | .xq o => some { xg := false, d := o.d, a := o.a, ext := o.ext, len := if o.x then 2 else 1
                    from' := fun _ _ _ p => some (if o.bc then 4 * (p / 4) + o.m.toNat else p ^^^ o.m.toNat) }
  | .xg o => some { xg := true, d := o.d, a := o.a, b := some o.b, ext := o.ext, len := if o.x then 2 else 1
                    from' := fun s gang g p =>
                      let m := modOf (some o.d) [o.a, o.b] o.x o.ext
                      let k := ((operandOf s gang g p o.ext { f := o.b }).toNat + m / 8 % 32) % 32
                      match m % 8 with
                      | 0 => some k
                      | 1 => some (p ^^^ k)
                      | 2 => if k ≤ p then some (p - k) else none
                      | 3 => if p + k < 32 then some (p + k) else none
                      | _ => some ((p + k) % 32) }
  | _ => none

/-- What an exchange names and reads (R83). -/
def Sys2Proof.Exchange.uses (e : Exchange) : Uses :=
  { named := (e.d, 1) :: (e.a, 1) :: e.b.toList.map (fun f => (f, 1)), read := (e.a, 1) :: e.b.toList.map (fun f => (f, 1))
    ext := e.ext }

/-- `xq` and `xg` first arrive: items that no release covers wait where they stand (R183). Released together, they exchange:
D takes A of the position read, or the item's own A where no item of the set stands there (R184 to R187). -/
def Sys2Proof.exchangeArrives : Prop :=
  ∀ i e, exchangeOf i = some e → i.wf = true → ∀ s w, Issues s w →
    ((∀ m ∈ w.b.members, ∀ n, (itemAt s w.b.gang m.1 m.2).wait ≠ .released n) →
      ∃ t, Machine.exec i s = .next t ∧ Apart s t w ∧ SameRegisters s t w.b.gang ∧
        ∀ m ∈ w.b.members, (itemAt t w.b.gang m.1 m.2).wait = .exchange e.xg ∧
          (itemAt t w.b.gang m.1 m.2).pc = (itemAt s w.b.gang m.1 m.2).pc) ∧
    (∀ n, w.b.members ≠ [] → (∀ m ∈ w.b.members, (itemAt s w.b.gang m.1 m.2).wait = .released n) → Ready s w e.uses →
      (∀ f ∈ e.uses.read, isLatch f.1 = false) →
      ∃ t, Machine.exec i s = .next t ∧ Apart s t w ∧ KeptRegs s t w e.d e.ext 1 ∧ MovedOn s t w e.len ∧
        (∀ m ∈ w.b.members, (itemAt t w.b.gang m.1 m.2).wait = .ready) ∧
        Wrote s t w e.d e.ext false (fun g p =>
          let q := (e.from' s w.b.gang g p).getD p
          word ((operandOf s w.b.gang g (if (g, q) ∈ w.b.members then q else p) e.ext { f := e.a }).setWidth 32)))

/-- A partner set of a home group, a quad for `xq` and the group for `xg`, is complete: each of its live members stands at an
exchange (R183). -/
def Sys2Proof.complete (x : Group) (xg : Bool) (quad : Nat) : Prop :=
  ∀ p t, p < 32 → (xg = true ∨ p / 4 = quad) → itemIn x p = some t → t.wait = .exchange true ∨ t.wait = .exchange false

/-- When a partner set is complete and a member of it stands at its opcode, every complete set of the group is released at this
moment: its members at the set's opcode, those at one word address as one release set. No other item, no register and no byte
changes (R183, R184). -/
def Sys2Proof.exchangeReleases : Prop :=
  ∀ s gang g quad (xg : Bool), let x := groupAt s gang g
    (x.items.map Prod.fst).Pairwise (· < ·) → quad < 8 → complete x xg quad →
    (∃ p t, p < 32 ∧ (xg = true ∨ p / 4 = quad) ∧ itemIn x p = some t ∧ t.wait = .exchange xg) →
    let freed (p : Nat) (t : Item) : Prop := p < 32 ∧ itemIn x p = some t ∧ ∃ b, t.wait = .exchange b ∧ complete x b (p / 4)
    ∃ u, Machine.exec (.exchangeRelease gang g quad xg) s = .next u ∧ ∃ set : Nat → Nat,
      (∀ p t q y, freed p t → freed q y →
        (set p = set q ↔ t.wait = y.wait ∧ t.pc = y.pc ∧ (t.wait = .exchange true ∨ p / 4 = q / 4))) ∧
      (∀ p t, freed p t → itemIn (groupAt u gang g) p = some { t with wait := .released (set p), readyAt := s.now }) ∧
      (∀ p t, itemIn x p = some t → ¬ freed p t → itemIn (groupAt u gang g) p = some t) ∧
      SameMemory s u ∧ SameRegisters s u gang

/-- Exchanges: arriving, being released together, and what each item receives (R183 to R187). -/
def Obligations.Exchanges : Prop := exchangeArrives ∧ exchangeReleases

/-- The words of a barrier object after one arrival (R195, R196): pending count and phase, and the count for the next phase. -/
def Sys2Proof.arrived (drop : Bool) (lo hi : Nat) : Nat × Nat :=
  let next := hi % 65536 - (if drop then 1 else 0)
  if lo % 65536 = 0 then (lo, hi)
  else if lo % 65536 = 1 then ((lo / 65536 + 1) % 65536 * 65536 + next, hi / 65536 * 65536 + next)
  else (lo - 1, hi / 65536 * 65536 + next)

/-- `barr` and `barr.drop` of a real item complete: D takes the phase, the pending count falls by one, the last arrival
begins the next phase and releases every item that waits on the object; no other byte and no other register changes (R195,
R196, R199). -/
def Sys2Proof.barrierArrivals : Prop :=
  ∀ (o : DaOp), ∀ q ∈ [(Instr.barr o, false), (.barrDrop o, true)], q.1.wf = true → ∀ s w x, Issues s w → w.b.members = [x] →
    isReal (groupAt s w.b.gang x.1) x.2 = true → w.b.prog.done = false → (itemAt s w.b.gang x.1 x.2).wait = .ready →
    Ready s w { named := [(o.d, 1), (o.a, 1)], read := [(o.a, 1)], ext := o.ext } →
    released s (makeRelease s w.core w.b.gang (gangAt s w.b.gang).asid 1) = true →
    let off := ((operandOf s w.b.gang x.1 x.2 o.ext { f := o.a }).setWidth 32).toNat
    LocalClean s w.b.gang x false off 8 → Memory.wf (gangAt s w.b.gang).gmem = true →
    let lo := (wordOf (gangByte s w.b.gang) off).toNat
    let hi := (wordOf (gangByte s w.b.gang) (off + 4)).toNat
    ∃ t, Machine.exec q.1 s = .next t ∧ MovedOn s t w (if o.x then 2 else 1) ∧
      gave t w.b.gang x o.d o.ext [BitVec.ofNat 32 (lo / 65536)] ∧ KeptRegs s t w o.d o.ext 1 ∧
      (wordOf (gangByte t w.b.gang) off).toNat = (arrived q.2 lo hi).1 ∧
      (wordOf (gangByte t w.b.gang) (off + 4)).toNat = (arrived q.2 lo hi).2 ∧
      (∀ a, (a < off ∨ off + 8 ≤ a) → gangByte t w.b.gang a = gangByte s w.b.gang a) ∧
      (lo % 65536 = 1 → ∀ g p y, itemIn (groupAt s w.b.gang g) p = some y → y.wait = .barrier off →
        (itemAt t w.b.gang g p).wait = .barrierDone) ∧
      ∀ wid asid key j, logByte t wid asid key j = logByte s wid asid key j

/-- `barw` of a real item goes on when the object's phase is no longer that of B, and waits where it stands while it is; no
byte and no register changes (R195, R197). -/
def Sys2Proof.barrierWaits : Prop :=
  ∀ (o : BarwOp), (Instr.barw o).wf = true → ∀ s w x, Issues s w → w.b.members = [x] →
    isReal (groupAt s w.b.gang x.1) x.2 = true → w.b.prog.done = false → (itemAt s w.b.gang x.1 x.2).wait = .ready →
    Ready s w { named := [(o.a, 1), (o.b, 1)], read := [(o.a, 1), (o.b, 1)], ext := o.ext } →
    isLatch o.a = false → isLatch o.b = false →
    let off := ((operandOf s w.b.gang x.1 x.2 o.ext { f := o.a }).setWidth 32).toNat
    LocalClean s w.b.gang x false off 8 →
    let phase := (wordOf (gangByte s w.b.gang) off).toNat / 65536
    ∃ t, Machine.exec (.barw o) s = .next t ∧ Apart s t w ∧ SameRegisters s t w.b.gang ∧
      (phase ≠ (operandOf s w.b.gang x.1 x.2 o.ext { f := o.b }).toNat % 65536 →
        MovedOn s t w (if o.x then 2 else 1) ∧ (itemAt t w.b.gang x.1 x.2).wait = .ready) ∧
      (phase = (operandOf s w.b.gang x.1 x.2 o.ext { f := o.b }).toNat % 65536 →
        (itemAt t w.b.gang x.1 x.2).wait = .barrier off ∧
          (itemAt t w.b.gang x.1 x.2).pc = (itemAt s w.b.gang x.1 x.2).pc)

/-- Barriers: an arrival and a wait (R195 to R199). -/
def Obligations.Barriers : Prop := barrierArrivals ∧ barrierWaits

/-- `xacq.v` and `xacq.s` complete when their space is free and nobody queues before them: the items hold v32 to v111 as 0,
or the groups hold the scalar blocks asked for, new registers 0; base registers keep their values (R152 to R154, R201). -/
def Sys2Proof.blockGrants : Prop :=
  ∀ s w, Issues s w → w.b.prog.done = false → Ready s w noUses →
    (∀ (o : NullOp), (Instr.xacqV o).wf = true → (laneAt s w.core w.lane).queue = [] →
      5 * (w.b.members.filter (fun m => !(itemAt s w.b.gang m.1 m.2).ext)).length ≤ availGranules (laneAt s w.core w.lane) w.b.gang →
      ∃ t, Machine.exec (.xacqV o) s = .next t ∧ MovedOn s t w 1 ∧
        (∀ m ∈ w.b.members, (itemAt t w.b.gang m.1 m.2).ext = true ∧ ((itemAt s w.b.gang m.1 m.2).ext = false →
          ∀ r, 32 ≤ r → r < 112 → vOf t w.b.gang m.1 r m.2 = 0)) ∧
        availGranules (laneAt t w.core w.lane) w.b.gang = availGranules (laneAt s w.core w.lane) w.b.gang -
          5 * (w.b.members.filter (fun m => !(itemAt s w.b.gang m.1 m.2).ext)).length ∧
        (∀ g r p, p < 32 → r < 32 → vOf t w.b.gang g r p = vOf s w.b.gang g r p) ∧
        (∀ g p, p ∈ livePos (groupAt s w.b.gang g) → p < 32 → ((g, p) ∉ w.b.members ∨ (itemAt s w.b.gang g p).ext = true) →
          ∀ r, vOf t w.b.gang g r p = vOf s w.b.gang g r p)) ∧
    (∀ (o : BlkOp), (Instr.xacqS o).wf = true → ∀ g, w.b.members ≠ [] → (∀ m ∈ w.b.members, m.1 = g) →
      (coreAt s w.core).queueS = [] → ((groupAt s w.b.gang g).s.map Prod.fst).Pairwise (· < ·) →
      let b := (groupAt s w.b.gang g).blocks
      let need := (o.k.toNat - (gangAt s w.b.gang).sblk) - (b - (gangAt s w.b.gang).sblk)
      need ≤ (coreAt s w.core).pool →
      ∃ t, Machine.exec (.xacqS o) s = .next t ∧ MovedOn s t w 1 ∧ (groupAt t w.b.gang g).blocks = max b o.k.toNat ∧
        (coreAt t w.core).pool = (coreAt s w.core).pool - (if b < o.k.toNat then need else 0) ∧
        (∀ n, 64 * (b + 1) ≤ n → n < 64 * (o.k.toNat + 1) → sOf t w.b.gang g n = 0) ∧
        (∀ h n, (h ≠ g ∨ n < 64 * (b + 1)) → sOf t w.b.gang h n = sOf s w.b.gang h n) ∧
        ∀ g r p, p < 32 → vOf t w.b.gang g r p = vOf s w.b.gang g r p)

/-- `xrel.v` and `xrel.s` complete: the items hold no extended slice and its granules are free again, or the groups hold no
blocks beyond those named; registers that stay held keep their values (R152 to R154, R202). -/
def Sys2Proof.blockReturns : Prop :=
  ∀ s w, Issues s w → w.b.prog.done = false → Ready s w noUses → (laneAt s w.core w.lane).queue = [] →
    (coreAt s w.core).queueS = [] → (gangAt s w.b.gang).core = w.core → (∀ m ∈ w.b.members, (groupAt s w.b.gang m.1).lane = w.lane) →
    (∀ (o : NullOp), (Instr.xrelV o).wf = true → ∃ t, Machine.exec (.xrelV o) s = .next t ∧ MovedOn s t w 1 ∧
      (∀ m ∈ w.b.members, (itemAt t w.b.gang m.1 m.2).ext = false) ∧
      availGranules (laneAt t w.core w.lane) w.b.gang = availGranules (laneAt s w.core w.lane) w.b.gang +
        5 * (w.b.members.filter (fun m => (itemAt s w.b.gang m.1 m.2).ext)).length ∧ SameRegisters s t w.b.gang) ∧
    (∀ (o : BlkOp), (Instr.xrelS o).wf = true → ∀ g, w.b.members ≠ [] → (∀ m ∈ w.b.members, m.1 = g) →
      ((groupAt s w.b.gang g).s.map Prod.fst).Pairwise (· < ·) →
      let b := (groupAt s w.b.gang g).blocks
      let sb := (gangAt s w.b.gang).sblk
      ∃ t, Machine.exec (.xrelS o) s = .next t ∧ MovedOn s t w 1 ∧ (groupAt t w.b.gang g).blocks = min b o.k.toNat ∧
        (coreAt t w.core).pool = (coreAt s w.core).pool + ((b - sb) - (o.k.toNat - sb)) ∧
        (∀ h n, (h ≠ g ∨ n < 64 * (o.k.toNat + 1)) → sOf t w.b.gang h n = sOf s w.b.gang h n) ∧
        ∀ g r p, p < 32 → vOf t w.b.gang g r p = vOf s w.b.gang g r p)

/-- Register blocks are granted when there is room, and given back (R152 to R154, R201, R202). -/
def Obligations.RegisterBlocks : Prop := blockGrants ∧ blockReturns

/-! ## Copies -/

/-- The sides of a copy of plain bytes on this chip, by OSP (R229): log and gang memory, log memory and scratchpad, log and
log, gang memory and scratchpad. -/
def Sys2Proof.plainSides (osp la w0 w1 : Nat) : Option (Side × Side) :=
  match osp with
  | 0 => some (.log la, .gang w0)
  | 1 => if w0 < 2 ^ 31 then some (.log la, .spad w0) else none
  | 2 => some (.log la, .log (w1 * 2 ^ 32 + w0))
  | 5 => if w1 < 2 ^ 31 then some (.gang w0, .spad w1) else none
  | _ => none

/-- `cpy` of plain bytes completes when its descriptor passes the checks: a copy with the descriptor's sides, length and queue has
begun and has moved nothing yet, and the item goes on; no register and no byte changes (R229 to R231). -/
def Obligations.CopyStarts : Prop :=
  ∀ (o : WideOp), (Instr.cpy o).wf = true → ∀ s w x, Issues s w → w.b.members = [x] →
    isReal (groupAt s w.b.gang x.1) x.2 = true →
    Ready s w { named := [(o.d, 4), (o.a, 2)], read := [(o.a, 2), (o.d, 4)], ext := o.ext } →
    let m := memMod (modOf none [o.a] o.x o.ext)
    let dw (i : Nat) : Nat := ((dataWords s w.b.gang x.1 x.2 o.d 0 4).getD i 0).toNat
    let la := effAddr true (operandOf s w.b.gang x.1 x.2 o.ext { f := o.a, wide := true }).toNat o.off m.xoff 16
    let osp := dw 3 / 16 % 8
    m.ipf = false → m.fov = 0 → (m.ord = 2 → released s (makeRelease s w.core w.b.gang (gangAt s w.b.gang).asid m.scope) = true) →
    dw 3 < 2 ^ 22 → dw 3 / 2 % 8 = 0 → dw 3 / 128 % 8 = 0 → dw 2 % 4 = 0 → 0 < dw 2 → (osp = 5 → o.a = 120) →
    (osp < 2 → dw 1 = 0) →
    ∀ a b, plainSides osp la (dw 0) (dw 1) = some (a, b) →
    (∀ y ∈ [a, b], y.at % 4 = 0 ∧ (match y with
      | .gang k => k + dw 2 ≤ (gangAt s w.b.gang).gmemSize
      | .spad k => k + dw 2 ≤ (localOf s w.b.gang true).size
      | _ => True)) →
    ∃ t, Machine.exec (.cpy o) s = .next t ∧ MovedOn s t w (if o.x then 2 else 1) ∧ SameRegisters s t w.b.gang ∧
      SameMemory s t ∧ ∃ c, tfind t.copies s.nextId = some c ∧ c.gang = w.b.gang ∧ c.len = dw 2 ∧
        c.queue = dw 3 / 1024 % 16 ∧ (c.src, c.dst) = (if dw 3 % 2 = 1 then (b, a) else (a, b)) ∧ c.wrote = [] ∧ c.stopped = false

/-- One unit of a running copy of plain bytes into gang memory: the bytes of one aligned 32-byte unit of the source arrive at
their places, every other byte of gang memory keeps its value, and the unit counts as moved; with the last the copy stops
(R231). The model's choices that it rests on: log entries 48 and 49. -/
def Obligations.CopyUnits : Prop :=
  ∀ s i u c b bs gen, tfind s.copies i = some c → c.dst = .gang b → c.src.isPeer = false → c.src.isTile = false → c.mode = 0 →
    c.stopped = false → c.cleared = [] → u ∉ c.wrote → (tfind s.gangs c.gang).isSome = true →
    Memory.wf (gangAt s c.gang).gmem = true → 0 < c.len → u ≤ (c.src.at + (c.len - 1)) / 32 - c.src.at / 32 →
    let a := c.src.at
    let lo := max a ((a / 32 + u) * 32)
    let hi := min (a + c.len) ((a / 32 + u + 1) * 32)
    copyRead s c c.src.space lo (hi - lo) = .ok bs gen → bs.length = hi - lo →
    ∃ t, Machine.exec (.copyLineWritten i u) s = .next t ∧
      (∀ k, lo ≤ k → k < hi → gangByte t c.gang (b + (k - a)) = bs.getD (k - lo) 0) ∧
      (∀ k, (k < b + (lo - a) ∨ b + (hi - a) ≤ k) → gangByte t c.gang k = gangByte s c.gang k) ∧
      SameRegisters s t c.gang ∧ (∀ wid asid key j, logByte t wid asid key j = logByte s wid asid key j) ∧
      ∃ d, tfind t.copies i = some d ∧ d.wrote = u :: c.wrote ∧
        (d.stopped = true ↔ c.wrote.length + 1 = (c.src.at + (c.len - 1)) / 32 - c.src.at / 32 + 1)

/-- A copy that meets a fault while it reads stops with the cause and the offset reached; a copy that has stopped completes
behind the earlier ones of its queue: it is gone, or kept while nobody has been told of its fault, and an item that waited
for it alone goes on (R231, R233, R234). The model's choices that it rests on: log entries 48 and 54. -/
def Obligations.CopyEnds : Prop :=
  (∀ s i u c b tr, tfind s.copies i = some c → c.dst = .gang b → c.src.isPeer = false → c.src.isTile = false → c.mode = 0 →
    c.stopped = false → c.cleared = [] → u ∉ c.wrote → 0 < c.len → u ≤ (c.src.at + (c.len - 1)) / 32 - c.src.at / 32 →
    copyWaiters s c.gang = [] →
    let a := c.src.at
    let lo := max a ((a / 32 + u) * 32)
    copyRead s c c.src.space lo (min (a + c.len) ((a / 32 + u + 1) * 32) - lo) = .trap tr →
    ∃ t d, Machine.exec (.copyTransferFault i u) s = .next t ∧ tfind t.copies i = some d ∧ d.stopped = true ∧
      d.fault = some (tr.code, lo - a) ∧ SameRegisters s t c.gang) ∧
  (∀ s i c, tfind s.copies i = some c → c.stopped = true → c.finished = false → c.relScope = none → c.release = none →
    (∀ y ∈ s.copies, y.1 < i → ¬(y.2.gang = c.gang ∧ y.2.queue = c.queue ∧ y.2.finished = false)) →
    (gangAt s c.gang).phase ≠ .ended →
    ∃ t, Machine.exec (.copyComplete i) s = .next t ∧ SameMemory s t ∧ SameRegisters s t c.gang ∧
      (c.fault = none ∨ c.reported = true → tfind t.copies i = none) ∧
      (c.fault ≠ none → c.reported = false → ∃ d, tfind t.copies i = some d ∧ d.finished = true ∧ d.fault = c.fault) ∧
      ∀ g p y q, itemIn (groupAt s c.gang g) p = some y → y.wait = .copies q [i] → (itemAt t c.gang g p).wait = .barrierDone)

/-- `cwait` goes on when every copy of its queue has completed, and makes the item wait where it stands for those that have
not; no register and no byte changes (R233). -/
def Obligations.CopyWaits : Prop :=
  ∀ (o : CwaitOp), (Instr.cwait o).wf = true → ∀ s w, Issues s w →
    (∀ m ∈ w.b.members, (itemAt s w.b.gang m.1 m.2).wait = .ready) →
    let mine := s.copies.filter (fun c => c.2.gang = w.b.gang && c.2.queue = o.q.toNat)
    (∀ c ∈ mine, c.2.fault = none) →
    let ids := (mine.filter (fun c => !c.2.finished)).map Prod.fst
    ∃ t, Machine.exec (.cwait o) s = .next t ∧ Apart s t w ∧ SameRegisters s t w.b.gang ∧
      (ids = [] → MovedOn s t w 1) ∧
      (ids ≠ [] → ∀ m ∈ w.b.members, (itemAt t w.b.gang m.1 m.2).wait = .copies o.q.toNat ids ∧
        (itemAt t w.b.gang m.1 m.2).pc = (itemAt s w.b.gang m.1 m.2).pc)

/-! ## Matrix arrays and the transform unit -/

/-- A number held in `n` s registers from one on, the lowest first (R242, R258). -/
def Sys2Proof.scalars (s : State) (gang g k n : Nat) : Nat :=
  ((List.range n).map (fun i => (sOf s gang g (k + i)).toNat * 2 ^ (32 * i))).sum

/-- What an engine instruction's members need: nothing awaited or struck, a next word in the line, every register named is held
(R69, R83, R241, R245). -/
structure Sys2Proof.EngineReady (s : State) (w : Where) (o : EngOp) (fr : Nat) : Prop where
  loads : awaitsLoad s w.b.gang w.b.members { engUses o 0 with read := [(o.areg, 96)] } = false
  past : w.b.prog.past = none
  held : ∀ m ∈ w.b.members, useTrap (groupAt s w.b.gang m.1) m.2 (engUses o fr) = none
  cleanV : ∀ m ∈ w.b.members, (groupAt s w.b.gang m.1).badV = []
  cleanS : ∀ m ∈ w.b.members, (groupAt s w.b.gang m.1).badS = []
  fits : o.areg.toNat + fr ≤ 112

/-- Bits 159:128 of a descriptor, the groups that take part (R242). -/
def Sys2Proof.signMask (d : Nat) : Nat := d / 2 ^ 128 % 2 ^ 32

/-- `msign` of the first signer completes: the item holds SB, the gang holds the array, and the convergence register collects
for the groups of its descriptor's mask, or has issued if nobody else is left to sign; no register and no byte changes
(R237, R241 to R243, R245). -/
def Sys2Proof.matrixSigns : Prop :=
  ∀ (o : EngOp), (Instr.msign o).wf = true → ∀ s w x, Issues s w → w.b.members = [x] →
    isReal (groupAt s w.b.gang x.1) x.2 = true → (cvAt s w.b.gang o.cv.toNat).st = .free →
    (gangAt s w.b.gang).core = w.core →
    let d := scalars s w.b.gang x.1 o.dsc.toNat 6
    let fr := fragRegs s w.b.gang (BitVec.ofNat 192 d) (maskGroups (BitVec.ofNat 32 (signMask d))).length
    EngineReady s w o fr → (signMask d).testBit x.1 = true → arrayTaken s w.core o.arr.toNat w.b.gang = false →
    (arrayAt s w.core o.arr.toNat).queue.length < 5 →
    ∃ t, Machine.exec (.msign o) s = .next t ∧ MovedOn s t w 1 ∧ SameRegisters s t w.b.gang ∧ SameMemory s t ∧
      (itemAt t w.b.gang x.1 x.2).sb.getLsbD o.cv.toNat = true ∧
      (arrayAt t w.core o.arr.toNat).owner = some w.b.gang ∧
      (let v := cvAt t w.b.gang o.cv.toNat;
        v.desc = BitVec.ofNat 192 d ∧ v.arr = o.arr.toNat ∧ v.mask.toNat = signMask d ∧
        (v.st = .collecting ∨ v.st = .issued) ∧
        ((∃ g p y, (signMask d).testBit g = true ∧ (g, p) ≠ x ∧ itemIn (groupAt s w.b.gang g) p = some y ∧ y.helper = false ∧
          y.sb.getLsbD o.cv.toNat = false) → v.st = .collecting))

/-- `mma` of whole home groups completes: every real member holds SB, the gang holds the array, the operation has issued with
the descriptor and joined its array's queue; no register and no byte changes (R237, R242, R244, R249). -/
def Sys2Proof.matrixIssues : Prop :=
  ∀ (o : EngOp), (Instr.mma o).wf = true → ∀ s w, Issues s w →
    (∃ m ∈ w.b.members, isReal (groupAt s w.b.gang m.1) m.2 = true) →
    (∀ m ∈ w.b.members, ∀ p ∈ livePos (groupAt s w.b.gang m.1), (m.1, p) ∈ w.b.members) →
    (cvAt s w.b.gang o.cv.toNat).st = .free → (gangAt s w.b.gang).core = w.core →
    let d := scalars s w.b.gang ((groupsOf w.b.members).headD 0) o.dsc.toNat 6
    EngineReady s w o (fragRegs s w.b.gang (BitVec.ofNat 192 d) (groupsOf w.b.members).length) →
    arrayTaken s w.core o.arr.toNat w.b.gang = false → (arrayAt s w.core o.arr.toNat).queue.length < 5 →
    ∃ t, Machine.exec (.mma o) s = .next t ∧ MovedOn s t w 1 ∧ SameRegisters s t w.b.gang ∧ SameMemory s t ∧
      (∀ m ∈ w.b.members, isReal (groupAt s w.b.gang m.1) m.2 = true →
        (itemAt t w.b.gang m.1 m.2).sb.getLsbD o.cv.toNat = true) ∧
      (arrayAt t w.core o.arr.toNat).owner = some w.b.gang ∧
      (cvAt t w.b.gang o.cv.toNat).st = .issued ∧ (cvAt t w.b.gang o.cv.toNat).desc = BitVec.ofNat 192 d ∧
      ((arrayAt t w.core o.arr.toNat).queue.map (fun q => (q.gang, q.cv))) =
        (arrayAt s w.core o.arr.toNat).queue.map (fun q => (q.gang, q.cv)) ++ [(w.b.gang, o.cv.toNat)]

/-- `mwait` of a real item goes on without SB, or when the operation it signed is done without a fault, and then it holds SB no
more; while the operation is open the item waits where it stands. No register and no byte changes (R246). -/
def Sys2Proof.matrixWaits : Prop :=
  ∀ (o : CvOp), (Instr.mwait o).wf = true → ∀ s w x, Issues s w → w.b.members = [x] →
    isReal (groupAt s w.b.gang x.1) x.2 = true → w.b.prog.done = false → Ready s w noUses → (gangAt s w.b.gang).core = w.core →
    let k := o.cv.toNat
    let signed := (itemAt s w.b.gang x.1 x.2).sb.getLsbD k
    let v := cvAt s w.b.gang k
    (signed = true → v.st = .done → v.fault = none) → (signed = true → v.st ≠ .free) →
    ∃ t, Machine.exec (.mwait o) s = .next t ∧ SameRegisters s t w.b.gang ∧ SameMemory s t ∧
      (signed = false ∨ v.st = .done → MovedOn s t w 1 ∧ (itemAt t w.b.gang x.1 x.2).sb.getLsbD k = false) ∧
      (signed = true → v.st = .collecting ∨ v.st = .issued → (itemAt t w.b.gang x.1 x.2).wait = .engine k ∧
        (itemAt t w.b.gang x.1 x.2).pc = (itemAt s w.b.gang x.1 x.2).pc)

/-- Signing an operation, and waiting for one (R237, R241 to R246).
The model's choices that it rests on: log entries 58 and 59. -/
def Obligations.MatrixSigning : Prop := matrixSigns ∧ matrixWaits

/-- An accumulator word of the array that a gang holds; zero in one that it comes to hold (R237). -/
def Sys2Proof.accOf (s : State) (core arr gang i : Nat) : Word :=
  if (arrayAt s core arr).owner = some gang then tget (arrayAt s core arr).acc i 0 else 0
/-- AEXP of the array that a gang holds (R237, R254). -/
def Sys2Proof.aexpOf (s : State) (core arr gang : Nat) : Int :=
  if (arrayAt s core arr).owner = some gang then (arrayAt s core arr).aexp else 0

/-- A `macc` form can act: no other gang holds the array, no operation of the gang is open on it, none of its words is struck
(R237, R255, R256). -/
structure Sys2Proof.AccReady (s : State) (w : Where) (arr : Nat) : Prop where
  core : (gangAt s w.b.gang).core = w.core
  mine : arrayTaken s w.core arr w.b.gang = false
  quiet : ∀ q ∈ (arrayAt s w.core arr).queue, q.gang ≠ w.b.gang
  clean : (arrayAt s w.core arr).badAcc = []

/-- `macc.zero`, `macc.rd` and `macc.stat` complete: the accumulator, AEXP and status become zero; D takes the accumulator word
that A names, modulo 16,384; D takes AEXP in bits 9:0, the five status bits in 14:10 and whether an A tile is held in bit 15.
No other register and no byte changes (R256, R257). -/
def Obligations.AccumulatorReads : Prop :=
  ∀ s w, Issues s w → w.b.prog.done = false → (∃ m ∈ w.b.members, isReal (groupAt s w.b.gang m.1) m.2 = true) →
    (∀ (o : AccOp), (Instr.maccZero o).wf = true → AccReady s w o.arr.toNat → Ready s w noUses →
      ∃ t, Machine.exec (.maccZero o) s = .next t ∧ MovedOn s t w 1 ∧ SameRegisters s t w.b.gang ∧ SameMemory s t ∧
        (arrayAt t w.core o.arr.toNat).owner = some w.b.gang ∧ (∀ i, tget (arrayAt t w.core o.arr.toNat).acc i 0 = 0) ∧
        (arrayAt t w.core o.arr.toNat).aexp = 0 ∧ (arrayAt t w.core o.arr.toNat).status = 0) ∧
    (∀ (o : AccRdOp), (Instr.maccRd o).wf = true → AccReady s w o.arr.toNat →
      Ready s w { named := [(o.d, 1), (o.a, 1)], read := [(o.a, 1)], ext := o.ext } →
      ∃ t, Machine.exec (.maccRd o) s = .next t ∧ MovedOn s t w (if o.x then 2 else 1) ∧ KeptRegs s t w o.d o.ext 1 ∧
        SameMemory s t ∧ Wrote s t w o.d o.ext false (fun g p => word (accOf s w.core o.arr.toNat w.b.gang
          ((operandOf s w.b.gang g p o.ext { f := o.a }).toNat % 16384)))) ∧
    (∀ (o : AccStatOp), (Instr.maccStat o).wf = true → AccReady s w o.arr.toNat →
      Ready s w { named := [(o.d, 1)], read := [], ext := 0 } → (arrayAt s w.core o.arr.toNat).owner = some w.b.gang →
      let a := arrayAt s w.core o.arr.toNat
      ∃ t, Machine.exec (.maccStat o) s = .next t ∧ MovedOn s t w 1 ∧ KeptRegs s t w o.d 0 1 ∧ SameMemory s t ∧
        Wrote s t w o.d 0 false (fun _ _ => word (BitVec.ofNat 32 ((BitVec.ofInt 10 a.aexp).toNat + 2 ^ 10 * a.status.toNat +
          2 ^ 15 * (if a.latch.isSome then 1 else 0)))))

/-- The `n` bits of a memory from a bit address on, as a number (R5). -/
def Sys2Proof.fieldAt (byte : Nat → Byte) (b n : Nat) : Nat := (List.range n).foldr (fun i k => (memBit byte (b + i)).toNat + 2 * k) 0

/-- `macc.st` of a real item completes: each part of each element of the tile takes the accumulator word of its place, rounded
once into the element's type, the header's EXP takes AEXP, and other bytes keep their values. `macc.ld` completes: each
accumulator word of the tile's places takes its part of its element exactly, and AEXP the header's EXP (R239, R256).
The model's choices that it rests on: log entry 61. -/
def Obligations.AccumulatorTiles : Prop :=
  ∀ (o : AccMemOp) s w x h, Issues s w → w.b.members = [x] → isReal (groupAt s w.b.gang x.1) x.2 = true → w.b.prog.done = false →
    AccReady s w o.arr.toNat → Ready s w { named := [(o.a, 1)], read := [(o.a, 1)], ext := o.ext } →
    (gangAt s w.b.gang).badGmem = [] → Memory.wf (gangAt s w.b.gang).gmem = true →
    let g := gangAt s w.b.gang
    let off := ((operandOf s w.b.gang x.1 x.2 o.ext { f := o.a }).setWidth 32).toNat
    let m := modOf none [o.a] o.x o.ext
    let tile := tileOf h
    let f := tileFmt g.fmt tile
    let width := cellWidth tile f
    headerNow s w.b.gang off = some h →
    ((Instr.maccSt o).wf = true → accMemTrap s w.b.gang off (m % 512) (m / 512 % 1024) true = none →
      -128 ≤ aexpOf s w.core o.arr.toNat w.b.gang → aexpOf s w.core o.arr.toNat w.b.gang ≤ 127 →
      off + 16 ≤ tile.base ∨ 8 * tile.base + accExtent tile f (m / 512 % 1024) ≤ 8 * off →
      ∃ t, Machine.exec (.maccSt o) s = .next t ∧ MovedOn s t w (if o.x then 2 else 1) ∧ SameRegisters s t w.b.gang ∧
        (∀ c ∈ accCells tile (m % 512) (m / 512 % 1024), ∀ k < c.2.length,
          fieldAt (gangByte t w.b.gang) (8 * tile.base + c.1 * width + k * (width / c.2.length)) (width / c.2.length) =
            accCode tile f (accOf s w.core o.arr.toNat w.b.gang (c.2.getD k 0)) % 2 ^ (width / c.2.length)) ∧
        fieldAt (gangByte t w.b.gang) (8 * off + 81) 8 = (BitVec.ofInt 8 (aexpOf s w.core o.arr.toNat w.b.gang)).toNat ∧
        (∀ b, (8 * b + 8 ≤ 8 * tile.base ∨ 8 * tile.base + accExtent tile f (m / 512 % 1024) ≤ 8 * b) →
          (b < off + 10 ∨ off + 12 ≤ b) → gangByte t w.b.gang b = gangByte s w.b.gang b)) ∧
    ((Instr.maccLd o).wf = true → accMemTrap s w.b.gang off (m % 512) (m / 512 % 1024) false = none →
      openRuns s w.b.gang 0 = [] →
      ∃ t, Machine.exec (.maccLd o) s = .next t ∧ MovedOn s t w (if o.x then 2 else 1) ∧ SameRegisters s t w.b.gang ∧
        SameMemory s t ∧ (arrayAt t w.core o.arr.toNat).aexp = tile.exp ∧
        (∀ c ∈ accCells tile (m % 512) (m / 512 % 1024), ∀ k < c.2.length,
          tget (arrayAt t w.core o.arr.toNat).acc (c.2.getD k 0) 0 =
            (let code := fieldAt (gangByte s w.b.gang) (8 * tile.base + c.1 * width) width;
            if tile.ty = 0 then BitVec.ofNat 32 code
            else BitVec.ofNat 32 (roundVal f32 (if k = 0 then (elemParts tile f code).1 else (elemParts tile f code).2)).1)) ∧
        ∀ i, (∀ c ∈ accCells tile (m % 512) (m / 512 % 1024), i ∉ c.2) →
          tget (arrayAt t w.core o.arr.toNat).acc i 0 = accOf s w.core o.arr.toNat w.b.gang i)

/-- An operation of a core's unit ends: it leaves the queue, its convergence register is done with the fault of its checks, if
any, and the items that waited for it go on; no item's register changes. The register is still held by an item that has
signed, and no other collection of the gang is open (R243, R246, R247, R249).
The model's choices that it rests on: log entry 59. -/
def Obligations.EngineCompletes : Prop :=
  ∀ s core u q rest, unitQueue s core u = q :: rest → u ≤ 4 → (gangAt s q.gang).phase ≠ .ended →
    (gangAt s q.gang).core = core → cvHeld (gangAt s q.gang) q.cv = true → (tfind s.gangs q.gang).isSome = true →
    (∀ e ∈ (gangAt s q.gang).cv, e.2.st = .collecting → e.1 = q.cv) →
    let v := cvAt s q.gang q.cv
    let fault := if u = 4 then xfCheck (gangAt s q.gang).gmemSize v
      else matCheck (gangAt s q.gang).gmemSize v
        (if (arrayAt s core u).owner = some q.gang then some (arrayAt s core u).aexp else none)
    ∃ t, Machine.exec (if u = 4 then .xformComplete core else .matrixOpComplete core u) s = .next t ∧
      (unitQueue t core u).map MatOp.id = rest.map MatOp.id ∧ (cvAt t q.gang q.cv).st = .done ∧
      ((cvAt t q.gang q.cv).fault.map (fun c => (c.code, c.sub))) = fault ∧
      SameRegisters s t q.gang ∧ (∀ wid asid key j, logByte t wid asid key j = logByte s wid asid key j) ∧
      (u < 4 → ∀ g a, gangByte t g a = gangByte s g a) ∧
      ∀ g p y, itemIn (groupAt s q.gang g) p = some y → y.wait = .engine q.cv → (itemAt t q.gang g p).wait = .barrierDone

/-- A dense product of real elements that begins from nothing leaves in each accumulator word the sum of its runs, each run's
exact products rounded once to f32 and added in order (R236, R238, R239, R251). -/
def Obligations.DenseProducts : Prop :=
  ∀ s core arr q rest hb ha c, arr < 4 → (arrayAt s core arr).queue = q :: rest → (arrayAt s core arr).owner = some q.gang →
    let v := cvAt s q.gang q.cv
    let d := matDesc v.desc
    let ta := tileOf ha
    let tb := tileOf hb
    let fa := tileFmt v.fmts ta
    let fb := tileFmt v.fmts tb
    v.hdrs = [some hb, some ha] → tileClass ta fa = some c → c.complex = false →
    matCheck (gangAt s q.gang).gmemSize v (some (arrayAt s core arr).aexp) = none →
    d.mode = 0 → d.acc = false → v.sp = false → (arrayAt s core arr).latch = none → (arrayAt s core arr).badCol = [] →
    (gangAt s q.gang).badGmem = [] → openRuns s q.gang 0 = [] → (gangAt s q.gang).phase ≠ .ended →
    ∀ fw : Nat → Word, (∀ i < 3072, fragWord s q.gang q.cv v i = (fw i, false, false)) →
    let aElem (p k : Nat) : Val := if p < ta.rows then
        (elemParts ta fa ((fw (p * 48 + k / (32 / c.width))).toNat / 2 ^ (c.width * (k % (32 / c.width))) % 2 ^ c.width)).1
      else .zero
    let bElem (k j : Nat) : Val := (elemParts tb fb (fieldAt (gangByte s q.gang)
      (8 * tb.base + ((d.col0 + j) * tb.rows + k) * c.width) c.width)).1
    let runAt (p j r : Nat) : Word := BitVec.ofNat 32 (sumProducts f32 ((List.range' (r * c.run) (min c.run (ta.cols - r * c.run))).map
      (fun k => (aElem p k, bElem k j)))).1
    ∃ t, Machine.exec (.matrixOpComplete core arr) s = .next t ∧ (arrayAt t core arr).aexp = ta.exp + tb.exp ∧
      ∀ p < 64, ∀ j < d.n, tget (arrayAt t core arr).acc (256 * p + d.acol + j) 0 =
        (List.range' 1 ((ta.cols + c.run - 1) / c.run - 1)).foldl (fun x r =>
          BitVec.ofNat 32 (sumProducts f32 [(unpack f32 x.toNat, .one), (unpack f32 (runAt p j r).toNat, .one)]).1) (runAt p j 0)

/-- `xform` completes when its unit has room: every real member holds SB and the transform has issued with the descriptor and
joined the unit's queue; no register and no byte changes (R243, R249, R258). -/
def Sys2Proof.transformIssues : Prop :=
  ∀ (o : XformOp), (Instr.xform o).wf = true → ∀ s w x, Issues s w → w.b.members.find? (fun m => isReal (groupAt s w.b.gang m.1) m.2) = some x →
    let u : Uses := { named := [(124, 3)], read := [(124, 3)], ext := BitVec.ofNat 32 o.dsc.toNat }
    Ready s w u → (cvAt s w.b.gang o.cv.toNat).st = .free → (gangAt s w.b.gang).core = w.core →
    (coreAt s w.core).xforms.length < 5 →
    ∃ t, Machine.exec (.xform o) s = .next t ∧ MovedOn s t w 1 ∧ SameRegisters s t w.b.gang ∧ SameMemory s t ∧
      (∀ m ∈ w.b.members, isReal (groupAt s w.b.gang m.1) m.2 = true →
        (itemAt t w.b.gang m.1 m.2).sb.getLsbD o.cv.toNat = true) ∧
      (cvAt t w.b.gang o.cv.toNat).st = .issued ∧ (cvAt t w.b.gang o.cv.toNat).xform = true ∧
      (cvAt t w.b.gang o.cv.toNat).desc = BitVec.ofNat 192 (scalars s w.b.gang x.1 o.dsc.toNat 3) ∧
      ((coreAt t w.core).xforms.map (fun q => (q.gang, q.cv))) =
        (coreAt s w.core).xforms.map (fun q => (q.gang, q.cv)) ++ [(w.b.gang, o.cv.toNat)]

/-- Operations that issue at once (R242 to R244, R249, R258). The model's choices that it rests on: log entry 59. -/
def Obligations.EngineIssues : Prop := matrixIssues ∧ transformIssues

/-! ## System selectors -/

/-- A selector of one real item begins: nothing keeps it from its operands, and an image read needs no acquire. -/
structure Sys2Proof.Single (s : State) (w : Where) (x : Nat × Nat) : Prop where
  issues : Issues s w
  one : w.b.members = [x]
  real : isReal (groupAt s w.b.gang x.1) x.2 = true
  fresh : w.b.prog.done = false ∧ w.b.prog.results = []

/-- The log of a core that an `errlog` names (R280). -/
def Sys2Proof.errorLogOf (k : Core) (n : Nat) : ErrLog := if n = 0 then k.matLog else if n = 1 then k.storLog else k.engLog

/-- `getst` gives every member its group's float status word, which stays as it is; `setst` gives the old word and writes the
bits of A where KEEP is clear (R276). -/
def Sys2Proof.statusWords : Prop :=
  (∀ (o : DOp), (Instr.getst o).wf = true → ∀ s w, Issues s w → w.b.prog.done = false →
    Ready s w { named := [(o.d, 1)], read := [], ext := 0 } →
    ∃ t, Machine.exec (.getst o) s = .next t ∧ (∀ g, (groupAt t w.b.gang g).status = (groupAt s w.b.gang g).status) ∧
      groupResult s t w o.d 0 1 (fun g _ => (groupAt s w.b.gang g).status)) ∧
  (∀ (o : DaOp), (Instr.setst o).wf = true → ∀ s w x, Single s w x → Ready s w (daUses o 1 1) →
    let old := (groupAt s w.b.gang x.1).status
    let a := (operandOf s w.b.gang x.1 x.2 o.ext { f := o.a }).setWidth 32
    ∃ t, Machine.exec (.setst o) s = .next t ∧ Confined s t w ∧ MovedOn s t w (if o.x then 2 else 1) ∧
      gave t w.b.gang x o.d o.ext [old] ∧ KeptRegs s t w o.d o.ext 1 ∧
      (∀ k < 32, (groupAt t w.b.gang x.1).status.getLsbD k =
        if k < 6 ∧ (modOf (some o.d) [o.a] o.x o.ext).testBit k = false then a.getLsbD k else
          (decide (k < 6) && old.getLsbD k)) ∧
      ∀ g, g ≠ x.1 → (groupAt t w.b.gang g).status = (groupAt s w.b.gang g).status)

/-- `perfrd` gives a count of the core, zero for a code that names none; `errlog` gives a word of a log, and clears it when
asked to (R279, R280). -/
def Sys2Proof.counterReads : Prop :=
  ∀ (o : DaOp) s w x, Single s w x → Ready s w (daUses o 2 1) →
    let a := ((operandOf s w.b.gang x.1 x.2 o.ext { f := o.a }).setWidth 32 : Word).toNat
    ((Instr.perfrd o).wf = true →
      ((itemAt s w.b.gang x.1 x.2).level = .supervisor ∨ (tget s.ctx (gangAt s w.b.gang).asid 0).getLsbD 65 = true) →
      ∃ t v, Machine.exec (.perfrd o) s = .next t ∧ MovedOn s t w (if o.x then 2 else 1) ∧ SameMemory s t ∧
        gave t w.b.gang x o.d o.ext [BitVec.ofNat 32 v, BitVec.ofNat 32 (v / 2 ^ 32)] ∧ KeptRegs s t w o.d o.ext 2 ∧
        v < 2 ^ 48 ∧ (a ≠ 2 → v = if a ≤ 8 ∨ (0x10 ≤ a ∧ a ≤ 0x14) then tget (coreAt s w.core).perf a 0 % 2 ^ 48 else 0)) ∧
    ((Instr.errlog o).wf = true → (itemAt s w.b.gang x.1 x.2).level = .supervisor →
      ∃ t, ∃ v : DWord, Machine.exec (.errlog o) s = .next t ∧ MovedOn s t w (if o.x then 2 else 1) ∧ SameMemory s t ∧
        gave t w.b.gang x o.d o.ext [v.setWidth 32, (v >>> 32).setWidth 32] ∧ KeptRegs s t w o.d o.ext 2 ∧
        (a / 16 % 4 = 3 ∨ 5 ≤ a % 8 → v = 0) ∧
        (a / 16 % 4 < 3 → a % 8 < 4 →
          v = tget (errorLogOf (coreAt s w.core) (a / 16 % 4)).entries (a % 8) 0 ∧
          tget (errorLogOf (coreAt t w.core) (a / 16 % 4)).entries (a % 8) 0 =
            (if a.testBit 8 then v &&& ~~~(1#64 <<< 63) else v)) ∧
        (a / 16 % 4 < 3 → a % 8 = 4 →
          (∀ k < 4, v.getLsbD k = (tget (errorLogOf (coreAt s w.core) (a / 16 % 4)).entries k 0).getLsbD 63) ∧
          v.getLsbD 4 = (errorLogOf (coreAt s w.core) (a / 16 % 4)).ovf ∧ (∀ k < 64, 5 ≤ k → v.getLsbD k = false) ∧
          (errorLogOf (coreAt t w.core) (a / 16 % 4)).ovf =
            ((errorLogOf (coreAt s w.core) (a / 16 % 4)).ovf && !a.testBit 8)))

/-- `halt` contains its gang with the halt code, and its items go on to their next switch point (R269, R282, R413). -/
def Sys2Proof.haltContains : Prop :=
  ∀ (o : AOp), (Instr.halt o).wf = true → ∀ s w x, Single s w x → Ready s w (aUses o 1) →
    (itemAt s w.b.gang x.1 x.2).level = .supervisor → (gangAt s w.b.gang).phase ≠ .contained → s.rootOps = [] →
    let f := (gangAt s w.b.gang).fn
    ((fnAt s f).tail + 128 - (fnAt s f).head) % 128 < 64 → (gangAt s w.b.gang).asid < 4096 → (gangAt s w.b.gang).queue < 8 →
    ∃ t, Machine.exec (.halt o) s = .next t ∧ (gangAt t w.b.gang).phase = .contained ∧
      MovedOn s t w (if o.x then 2 else 1) ∧ SameRegisters s t w.b.gang ∧ (fnAt t f).tail = ((fnAt s f).tail + 1) % 128 ∧
      (let r := (tget (fnAt t f).hg ((fnAt s f).tail % 64) 0).toNat;
        bits r 7 0 = 2 ∧ bits r 71 60 = (gangAt s w.b.gang).asid ∧ bits r 191 128 = (itemAt s w.b.gang x.1 x.2).pc.toNat ∧
          bits r 207 192 = (operandOf s w.b.gang x.1 x.2 o.ext { f := o.a }).toNat % 65536)

/-- `inject` strikes the word it names, uncorrectable unless SGL asks for a correctable error: a word of gang memory, of the
scratchpad, of an accumulator that the gang holds, or the item's own v register; for log memory, the stored sector that the
cluster reads (R281). -/
def Sys2Proof.injectStrikes : Prop :=
  ∀ (o : InjectOp), (Instr.inject o).wf = true → ∀ s w x, Single s w x →
    (tget s.ctx (gangAt s w.b.gang).asid 0).getLsbD 66 = true →
    let kind := o.ext.toNat % 16
    let n := if kind = 2 then 2 else 1
    Ready s w { named := [(o.a, n)], read := [(o.a, n)], ext := 0 } →
    let e := if o.ext.getLsbD 4 then 0 else 1
    let a := ((operandOf s w.b.gang x.1 x.2 0 { f := o.a }).setWidth 32 : Word).toNat
    let va := (operandOf s w.b.gang x.1 x.2 0 { f := o.a, wide := true }).toNat
    let arr := o.ext.toNat / 32 % 4
    (kind = 0 → a < (gangAt s w.b.gang).gmemSize ∧ (gangAt s w.b.gang).badGmem = []) →
    (kind = 1 → a < (localOf s w.b.gang true).size ∧ (localOf s w.b.gang true).bad = []) →
    (kind = 2 → s.badLog = [] ∧ ∃ leaf, whoXlate s (whoOf s w x.1 x.2) false false va 1 = .ok [(vpnOf va, leaf)] ∧
      (baseStored s (clusterOf w.core) (dieOf w.core) (gangAt s w.b.gang).asid (keyOf leaf va)).isSome = true) →
    (kind = 3 → (arrayAt s w.core arr).owner = some w.b.gang ∧ (arrayAt s w.core arr).badAcc = []) →
    (kind = 4 → a < 112 ∧ (32 ≤ a → (itemAt s w.b.gang x.1 x.2).ext = true)) →
    ∃ t, Machine.exec (.inject o) s = .next t ∧ MovedOn s t w 2 ∧ SameRegisters s t w.b.gang ∧
      (kind = 0 → (gangAt t w.b.gang).badGmem = [(a / 4, e)]) ∧ (kind = 1 → (localOf t w.b.gang true).bad = [(a / 4, e)]) ∧
      (kind = 2 → ∀ leaf sec r, whoXlate s (whoOf s w x.1 x.2) false false va 1 = .ok [(vpnOf va, leaf)] →
        baseStored s (clusterOf w.core) (dieOf w.core) (gangAt s w.b.gang).asid (keyOf leaf va) = some (sec, r) →
        t.badLog = [(sec, decide (e = 1))]) ∧
      (kind = 3 → (arrayAt t w.core arr).badAcc = [(a % 16384, e)]) ∧
      (kind = 4 → (groupAt t w.b.gang x.1).badV = [(a, x.2, e)])

/-- `rett` returns: the item stands at the resume point of its record, at the level the record keeps, outside a frame, with v0,
v1 and the valid latches of the record; other registers keep their values (R267, R270). -/
def Sys2Proof.returnsFromTraps : Prop :=
  ∀ (o : NullOp), (Instr.rett o).wf = true → ∀ s w x, Single s w x → x.2 < 32 →
    (itemAt s w.b.gang x.1 x.2).frame = true → (itemAt s w.b.gang x.1 x.2).held = [] → loadsGo s w →
    ∀ l gen, l.length = 192 → gen ≤ seenOf s w.core (gangAt s w.b.gang).asid →
    readLog s { whoOf s w x.1 x.2 with level := .supervisor } false false (recordSlot s w.b.gang x) 192 = .ok l gen →
    let field (a n : Nat) : Nat := ofBytes ((l.drop a).take n)
    rettTarget s w (gangAt s w.b.gang).asid (field 8 8) = .ok →
    ∃ t, Machine.exec (.rett o) s = .next t ∧ SameMemory s t ∧
      (itemAt t w.b.gang x.1 x.2).pc = BitVec.ofNat 64 (field 8 8) ∧
      (itemAt t w.b.gang x.1 x.2).level = (if (field 0 4).testBit 21 then .supervisor else .user) ∧
      (itemAt t w.b.gang x.1 x.2).frame = false ∧
      vOf t w.b.gang x.1 0 x.2 = BitVec.ofNat 32 (field 144 4) ∧ vOf t w.b.gang x.1 1 x.2 = BitVec.ofNat 32 (field 148 4) ∧
      (∀ j < 8, latchOf t w.b.gang x.1 x.2 j = if (field 72 1).testBit j then some (BitVec.ofNat 32 (field (40 + 4 * j) 4))
        else none) ∧
      ∀ g r p, p < 32 → (2 ≤ r ∨ (g, p) ≠ x) → vOf t w.b.gang g r p = vOf s w.b.gang g r p

/-- What the system selectors of a core do for an item that may issue them (R270, R276, R279 to R282).
The model's choices that it rests on: log entry 28. -/
def Obligations.SystemResults : Prop :=
  statusWords ∧ counterReads ∧ haltContains ∧ injectStrikes ∧ returnsFromTraps

/-- `fmtld` and `patld` put an aligned image that passes its check into the named register for the whole gang; `ctxld` at
supervisor level puts one into the context descriptor of its ASID. Other registers keep their images (R263, R277, R278). -/
def Sys2Proof.imageLoads : Prop :=
  ∀ s w x l gen, Single s w x → loadsGo s w → gen ≤ seenOf s w.core (gangAt s w.b.gang).asid →
    let asid := (gangAt s w.b.gang).asid
    let at' (f : Field7) (ext : Word) : Nat := (operandOf s w.b.gang x.1 x.2 ext { f, wide := true }).toNat
    (∀ (o : DaOp), (Instr.fmtld o).wf = true → Ready s w (daUses o 0 2) → at' o.a o.ext % 32 = 0 → l.length = 32 →
      readLog s (whoOf s w x.1 x.2) false false (at' o.a o.ext) 32 = .ok l gen → fmtOk (BitVec.ofNat 256 (ofBytes l)) = true →
      ∃ t, Machine.exec (.fmtld o) s = .next t ∧ MovedOn s t w (if o.x then 2 else 1) ∧ SameRegisters s t w.b.gang ∧
        SameMemory s t ∧ (gangAt t w.b.gang).pat = (gangAt s w.b.gang).pat ∧
        ∀ n, tget (gangAt t w.b.gang).fmt n 0 =
          if n = o.d.toNat then BitVec.ofNat 256 (ofBytes l) else tget (gangAt s w.b.gang).fmt n 0) ∧
    (∀ (o : DaOp), (Instr.patld o).wf = true → Ready s w (daUses o 0 2) → at' o.a o.ext % 256 = 0 → l.length = 256 →
      readLog s (whoOf s w x.1 x.2) false false (at' o.a o.ext) 256 = .ok l gen → (∀ b ∈ l.drop 144, b = 0) →
      ∃ t, Machine.exec (.patld o) s = .next t ∧ MovedOn s t w (if o.x then 2 else 1) ∧ SameRegisters s t w.b.gang ∧
        SameMemory s t ∧ (gangAt t w.b.gang).fmt = (gangAt s w.b.gang).fmt ∧
        ∀ n, tget (gangAt t w.b.gang).pat n 0 =
          if n = o.d.toNat then BitVec.ofNat 2048 (ofBytes l) else tget (gangAt s w.b.gang).pat n 0) ∧
    (∀ (o : AOp), (Instr.ctxld o).wf = true → Ready s w (aUses o 2) → (itemAt s w.b.gang x.1 x.2).level = .supervisor →
      at' o.a o.ext % 16 = 0 → l.length = 16 →
      readLog s (whoOf s w x.1 x.2) false false (at' o.a o.ext) 16 = .ok l gen → ctxRefused s asid (ofBytes l) = false →
      ∃ t, Machine.exec (.ctxld o) s = .next t ∧ MovedOn s t w (if o.x then 2 else 1) ∧ SameRegisters s t w.b.gang ∧
        SameMemory s t ∧ ∀ n, tget t.ctx n 0 = if n = asid then BitVec.ofNat 128 (ofBytes l) else tget s.ctx n 0)

/-- `fmtst` stores the image of a format register, and `ctxsv` at supervisor level that of its ASID's context descriptor, at an
aligned address; every other byte of log memory reads as before (R277, R278). -/
def Sys2Proof.imageStores : Prop :=
  ∀ s w x leaf, Single s w x → tailPlain s (clusterOf w.core) → (writerAt s (clusterOf w.core)).tail.length < 65536 →
    let asid := (gangAt s w.b.gang).asid
    let at' (f : Field7) (ext : Word) : Nat := (operandOf s w.b.gang x.1 x.2 ext { f, wide := true }).toNat
    let stored (t : State) (va n : Nat) (image : Nat) : Prop :=
      (∀ j < n, logByte t (clusterOf w.core) asid (keyOf leaf (va / 32 * 32)) (va % 32 + j) =
        BitVec.ofNat 8 (image / 2 ^ (8 * j))) ∧
      (∀ wid a key j, ¬(wid = clusterOf w.core ∧ a = asid ∧ key = keyOf leaf (va / 32 * 32) ∧ va % 32 ≤ j ∧ j < va % 32 + n) →
        logByte t wid a key j = logByte s wid a key j) ∧
      (∀ g a, gangByte t g a = gangByte s g a) ∧ (∀ d la a, spadByte t d la a = spadByte s d la a) ∧ t.fixed = s.fixed
    (∀ (o : DaOp), (Instr.fmtst o).wf = true → Ready s w (daUses o 0 2) → at' o.a o.ext % 32 = 0 →
      whoXlate s (whoOf s w x.1 x.2) true false (at' o.a o.ext) 32 = .ok [(vpnOf (at' o.a o.ext), leaf)] →
      ∃ t, Machine.exec (.fmtst o) s = .next t ∧ MovedOn s t w (if o.x then 2 else 1) ∧ SameRegisters s t w.b.gang ∧
        stored t (at' o.a o.ext) 32 (tget (gangAt s w.b.gang).fmt o.d.toNat 0).toNat) ∧
    (∀ (o : AOp), (Instr.ctxsv o).wf = true → Ready s w (aUses o 2) → (itemAt s w.b.gang x.1 x.2).level = .supervisor →
      at' o.a o.ext % 16 = 0 →
      whoXlate s (whoOf s w x.1 x.2) true false (at' o.a o.ext) 16 = .ok [(vpnOf (at' o.a o.ext), leaf)] →
      ∃ t, Machine.exec (.ctxsv o) s = .next t ∧ MovedOn s t w (if o.x then 2 else 1) ∧ SameRegisters s t w.b.gang ∧
        stored t (at' o.a o.ext) 16 (tget s.ctx asid 0).toNat)

/-- Images of formats, patterns and context descriptors, loaded and stored (R263, R277, R278). -/
def Obligations.Images : Prop := imageLoads ∧ imageStores

/-! ## Events, launches, retained roots and reordering -/

/-- `evsig` with its release satisfied: D takes the counter's old value, and the slot of the function that owns the ASID rises by
the increment; other slots keep their values (R407, R408). `evwait`: D takes the counter when it has reached the value, or when
2,048 clk have passed without that; until then the bundle stalls (R409). `evwaitTimeout` ends that stall. -/
def Sys2Proof.eventSlots : Prop :=
  (∀ (o : DaOp) s w x, Single s w x →
    let fn := (astEntry s (gangAt s w.b.gang).asid).fn
    ((Instr.evsig o).wf = true → Ready s w (daUses o 1 1) →
      released s (makeRelease s w.core w.b.gang (gangAt s w.b.gang).asid 5) = true →
      let a := ((operandOf s w.b.gang x.1 x.2 o.ext { f := o.a }).setWidth 32 : Word).toNat
      ∃ t, Machine.exec (.evsig o) s = .next t ∧ MovedOn s t w (if o.x then 2 else 1) ∧ SameMemory s t ∧
        gave t w.b.gang x o.d o.ext [tget (fnAt s fn).ev (a % 256) 0] ∧ KeptRegs s t w o.d o.ext 1 ∧
        ∀ n, tget (fnAt t fn).ev n 0 = tget (fnAt s fn).ev n 0 + (if n = a % 256 then BitVec.ofNat 32 (a / 256) else 0)) ∧
    ((Instr.evwait o).wf = true → Ready s w (daUses o 1 2) →
      let a := (operandOf s w.b.gang x.1 x.2 o.ext { f := o.a, wide := true }).toNat
      let count := tget (fnAt s fn).ev (a % 256) 0
      let mark : Word := BitVec.ofNat 32 (a / 2 ^ 32)
      let met : Prop := (count - mark).toNat < 2 ^ 31
      (met ∨ w.b.prog.waited = true → ∃ t, Machine.exec (.evwait o) s = .next t ∧ SameMemory s t ∧
        gave t w.b.gang x o.d o.ext [count] ∧ KeptRegs s t w o.d o.ext 1 ∧
        (¬ met ∨ (makeAcquire s w.core 5).2 = [] → MovedOn s t w (if o.x then 2 else 1))) ∧
      (¬ met → w.b.prog.waited = false → w.b.prog.began = none → ∃ t, Machine.exec (.evwait o) s = .next t ∧
        ((laneAt t w.core w.lane).bundle.bind Bundle.stall) = some (.evwait s.now fn [(a % 256, mark)]) ∧
        (itemAt t w.b.gang x.1 x.2).pc = (itemAt s w.b.gang x.1 x.2).pc ∧ SameRegisters s t w.b.gang))) ∧
  (∀ s core lane b since fn marks, (laneAt s core lane).bundle = some b → b.stall = some (.evwait since fn marks) →
    since + 2048 ≤ s.now → ∃ t, Machine.exec (.evwaitTimeout core lane) s = .next t ∧ SameMemory s t ∧
      ∃ b', (laneAt t core lane).bundle = some b' ∧ b'.stall = none ∧ b'.prog.waited = true ∧ b'.members = b.members)

/-- `launch` with its release satisfied reads a packet: D takes STATUS 2 with the REASON of the first check that fails, STATUS 1
when the queue holds 64 launches, and otherwise the LSEQ that the queue gives; the packet then stands in the queue, and the
queue's count has risen by one (R396, R397, R410). -/
def Sys2Proof.launchEnters : Prop :=
  ∀ (o : DaOp), (Instr.launch o).wf = true → ∀ s w x l gen, Single s w x → Ready s w (daUses o 1 2) → loadsGo s w →
    released s (makeRelease s w.core w.b.gang (gangAt s w.b.gang).asid 5) = true →
    (s.launches.map Prod.fst).Pairwise (· < ·) →
    let asid := (gangAt s w.b.gang).asid
    let fn := (astEntry s asid).fn
    let a := (operandOf s w.b.gang x.1 x.2 o.ext { f := o.a, wide := true }).toNat
    let q := a % 8
    a / 8 % 8 = 0 → l.length = 64 → gen ≤ seenOf s w.core asid →
    readLog s (whoOf s w x.1 x.2) false false (a / 64 * 64) 64 = .ok l gen → (fnAt s fn).spstat.getLsbD 14 = false →
    let packet : BitVec 512 := BitVec.ofNat 512 (ofBytes l)
    let reason := packetReason s fn packet (decide ((itemAt s w.b.gang x.1 x.2).level = .user)) (some asid)
      (some (gangAt s w.b.gang).fn)
    ∃ t, Machine.exec (.launch o) s = .next t ∧ MovedOn s t w (if o.x then 2 else 1) ∧ SameMemory s t ∧
      KeptRegs s t w o.d o.ext 1 ∧
      (reason ≠ 0 → gave t w.b.gang x o.d o.ext [BitVec.ofNat 32 (16 * reason + 2)] ∧ t.launches = s.launches) ∧
      (reason = 0 → 64 ≤ (queueOf s fn q).length → gave t w.b.gang x o.d o.ext [1] ∧ t.launches = s.launches) ∧
      (reason = 0 → (queueOf s fn q).length < 64 →
        gave t w.b.gang x o.d o.ext [BitVec.ofNat 32 ((tget (fnAt s fn).acc q 0).toNat % 65536 * 65536)] ∧
        tget (fnAt t fn).acc q 0 = tget (fnAt s fn).acc q 0 + 1 ∧
        ∃ id n, tfind t.launches id = some n ∧ n.fn = fn ∧ n.queue = q ∧ n.lseq = tget (fnAt s fn).acc q 0 ∧ n.pkt = packet)

/-- `trig` of an item that may issue it fires the capture logic: the first trigger names the instant, 2 µs on, and its tag; a
later one changes nothing (R411). -/
def Sys2Proof.triggerFires : Prop :=
  ∀ (o : AOp), (Instr.trig o).wf = true → ∀ s w x, Single s w x → Ready s w (aUses o 1) →
    ((itemAt s w.b.gang x.1 x.2).level = .supervisor ∨ (fnAt s (astEntry s (gangAt s w.b.gang).asid).fn).utrig = true) →
    ∃ t, Machine.exec (.trig o) s = .next t ∧ MovedOn s t w (if o.x then 2 else 1) ∧ SameRegisters s t w.b.gang ∧
      SameMemory s t ∧ (s.capture.fired = true → t.capture = s.capture) ∧
      (s.capture.fired = false → t.capture.fired = true ∧ t.capture.src = 0 ∧ t.capture.instant = moduleTime s + 2000 ∧
        t.capture.tag = BitVec.ofNat 16 (operandOf s w.b.gang x.1 x.2 o.ext { f := o.a }).toNat)

/-- Events and the package's selectors (R407 to R411). The model's choices that it rests on: log entry 94. -/
def Obligations.SignalResults : Prop := eventSlots ∧ launchEnters ∧ triggerFires

/-- The operations on retained roots: their kind, operand words, result words, and the request that enters the commit unit. -/
def Sys2Proof.rootCommand : Instr → Option (DaOp × Nat × Nat × Nat × (Nat → CommitKind))
  | .snap o => some (o, 0, 1, 2, .retain)
  | .snaprel o => some (o, 1, 2, 1, .forget)
  | .rollback o => some (o, 2, 2, 1, .reinstate)
  | _ => none

/-- `snap`, `snaprel` and `rollback` complete in two turns: the bundle stalls with its operation entered at the commit unit of
the ASID named, and when the operation has ended, D takes its result and the item stands at the next word (R378, R379).
The model's choices that it rests on: log entry 93. -/
def Obligations.RetainedRoots : Prop :=
  ∀ i o kind an n ck, rootCommand i = some (o, kind, an, n, ck) → i.wf = true → ∀ s w x, Issues s w → w.b.members = [x] →
    isReal (groupAt s w.b.gang x.1) x.2 = true → w.b.prog.done = false → Ready s w (daUses o n an) →
    let name := rootName s w.b.gang x.1 x.2 o kind
    (w.b.prog.results = [] → (kind = 2 → (itemAt s w.b.gang x.1 x.2).level = .supervisor) →
      rootCheck s (gangAt s w.b.gang).asid (0x10 + kind) (itemAt s w.b.gang x.1 x.2).level name.1 name.2.1 = none →
      ∃ t id, Machine.exec i s = .next t ∧ SameMemory s t ∧ SameRegisters s t w.b.gang ∧
        ((laneAt t w.core w.lane).bundle.bind Bundle.stall) = some (.retained id) ∧
        (itemAt t w.b.gang x.1 x.2).pc = (itemAt s w.b.gang x.1 x.2).pc ∧
        (∃ r, tfind t.rootOps id = some r ∧ r.gang = w.b.gang ∧ r.asid = name.1 ∧ r.kind = kind ∧ r.seq = name.2.2 ∧ r.stage = 0) ∧
        (dieAt t (commitDie s name.1)).commits =
          (dieAt s (commitDie s name.1)).commits ++ [{ asid := name.1, wid := clusterOf w.core, kind := ck id }]) ∧
    (∀ lo hi, w.b.prog.results = [(0, 0, [lo, hi])] →
      ∃ t, Machine.exec i s = .next t ∧ MovedOn s t w (if o.x then 2 else 1) ∧ SameMemory s t ∧
        gave t w.b.gang x o.d o.ext ([lo, hi].take n) ∧ KeptRegs s t w o.d o.ext n)

/-- `reord` with its release satisfied deposits a record under its key and continuation, and the item ends. The bin stays below
32 records and the unit below 98,304 (R360 to R362). -/
def Obligations.ReorderDeposits : Prop :=
  ∀ (o : ReordOp), (Instr.reord o).wf = true → ∀ s w x, Single s w x → Ready s w (reordUses o) →
    let g := gangAt s w.b.gang
    let cont : DWord := (sOf s w.b.gang x.1 (reordS o + 1) ++ sOf s w.b.gang x.1 (reordS o) : DWord)
    let key := (operandOf s w.b.gang x.1 x.2 0 { f := o.a }).toNat % 65536
    released s (makeRelease s w.core w.b.gang g.asid 3) = true →
    checkTarget s w.core w.b.prog.answers g.asid (itemAt s w.b.gang x.1 x.2).level true cont = .ok →
    reorderCount s g.die + 1 < 98304 →
    (∀ b ∈ (dieAt s g.die).bins, b.launch = g.launch → b.cont = cont → b.key = key → b.recs.length < 31) →
    ∃ t, Machine.exec (.reord o) s = .next t ∧ itemIn (groupAt t w.b.gang x.1) x.2 = none ∧
      (∀ wid asid k j, logByte t wid asid k j = logByte s wid asid k j) ∧
      ∃ b ∈ (dieAt t g.die).bins, b.launch = g.launch ∧ b.cont = cont ∧ b.key = key ∧
        (s.now, (List.range (reordN o)).map (fun k => vOf s w.b.gang x.1 (o.d.toNat + k) x.2)) ∈ b.recs

/-! ## A lane's own events -/

/-- Set-ups that have ended leave their lane's list (R174); a fetched bank stands in its group's slot, and a bundle that waited
for it goes on (R142, R143); the oldest load of a lane returns, and a bundle that waits for loads looks again (R210). -/
def Sys2Proof.laneReturns : Prop :=
  ∀ s core lane,
    (∃ t, Machine.exec (.pourSetupDone core lane) s = .next t ∧ SameMemory s t ∧
      ∀ x, x ∈ (laneAt t core lane).setup ↔ x ∈ (laneAt s core lane).setup ∧ s.now < x.2.2) ∧
    (∀ due gang g bank res, (laneAt s core lane).fetch = some (due, [(gang, g, bank)]) → due ≤ s.now →
      (res, gang, g) ∈ (laneAt s core lane).res → (laneAt s core lane).slots.length = 2 →
      ∃ t, Machine.exec (.workingSetFetchDone core lane) s = .next t ∧ SameMemory s t ∧ (laneAt t core lane).fetch = none ∧
        ∃ n sl, slotOf (laneAt t core lane) gang g = some (n, sl) ∧ bank ∈ sl.banks) ∧
    (∀ b till gang g bank res, (laneAt s core lane).bundle = some b → b.stall = some (.bank till [(gang, g, bank)]) →
      till ≤ s.now → (res, gang, g) ∈ (laneAt s core lane).res → (laneAt s core lane).slots.length = 2 →
      ∃ t, Machine.exec (.bankFetchDone core lane) s = .next t ∧ SameMemory s t ∧
        (laneAt t core lane).bundle = some { b with stall := none } ∧
        ∃ n sl, slotOf (laneAt t core lane) gang g = some (n, sl) ∧ bank ∈ sl.banks) ∧
    (∀ tag gang g, (tag, gang, g) ∈ openLoads s core lane →
      (∀ y ∈ openLoads s core lane, tag < y.1 ∨ y.1 = tag ∧ y.2.1 = gang) →
      ∃ t, Machine.exec (.loadDataReturn core lane) s = .next t ∧ SameMemory s t ∧ SameRegisters s t gang ∧
        (∀ h o, o ∈ (groupAt t gang h).board ↔ o ∈ (groupAt s gang h).board ∧ o.tag ≠ tag) ∧
        ∀ b, (laneAt s core lane).bundle = some b → (laneAt t core lane).bundle =
          some { b with stall := if b.stall = some .loads then none else b.stall })

/-- An item that has waited on a scratchpad line for its launch's interval takes WATCHDOG at its word, with no other item
affected; a cause that was parked while the host owned a page is delivered when it can be (R205, R266, R341). -/
def Sys2Proof.lateCauses : Prop :=
  ∀ s gang m leaf entry,
    (∀ off since T, (itemAt s gang m.1 m.2).wait = .line off since →
      pktWatchdog (launchAt s (gangAt s gang).launch).pkt = some T → since + usec T ≤ s.now →
      let s' := updItem s gang m.1 m.2 (fun t => { t with wait := .ready, readyAt := s.now })
      Deliverable s' gang m 0x15 leaf entry →
      ∃ t, Machine.exec (.cohortWatchdog gang m.1 m.2) s = .next t ∧
        TookTrap s' t gang m leaf entry 0x15 0 (itemAt s gang m.1 m.2).pc) ∧
    (∀ c, (itemAt s gang m.1 m.2).wait = .parked c 0 false → c.code < 32 → (gangAt s gang).phase ≠ .contained → (gangAt s gang).phase ≠ .saved →
      Deliverable s gang m c.code leaf entry →
      ∃ t, Machine.exec (.trapDelivery gang m.1 m.2) s = .next t ∧ TookTrap s t gang m leaf entry c.code c.sub c.pc)

/-- Events of a lane (R142, R143, R174, R205, R210, R266, R341).
The model's choices that it rests on: log entries 38 and 63. -/
def Obligations.LaneEvents : Prop := laneReturns ∧ lateCauses

/-! ## Words, and a step that runs one -/

/-- Decoding the words of a well-formed instruction gives it back with every operand, whatever words follow (R67, R72 to R76,
R85, R86). -/
def Obligations.RoundTrip : Prop :=
  ∀ i : Instr, isInstruction i = true → i.wf = true → ∀ r : List Word, decodeWords (encode i ++ r) = some (i, r)

/-- The decoder drops no bit: what it reads from words is an instruction whose own words are exactly those read, so each word has
one meaning; a reserved opcode is read as nothing (R67, R72, R85). -/
def Obligations.DecodeExact : Prop :=
  (∀ ws i r, decodeWords ws = some (i, r) → isInstruction i = true ∧ encode i ++ r = ws) ∧
  ∀ w r, (fOp w = 0x5E ∨ fOp w = 0x5F ∨ fOp w = 0x7F) → decodeWords (w :: r) = none

/-- Words laid out from the encoding tables decode to the instructions they stand for (R72, R76, R85, R86). -/
def Obligations.DecodedWords : Prop :=
  decodeWords [0x0001040C] = some (.add { c := false, y := false, k := false, x := false, d := 1, a := 2, b := 3, ext := 0 }, []) ∧
  decodeWords [0x1001041E] = some (.addi { c := false, y := false, k := false, d := 1, a := 2, imm := 15 }, []) ∧
  decodeWords [0x2817FFFF] = some (.bra { c := false, y := false, cs := 1, neg := false, off := -1 }, []) ∧
  decodeWords [0x30040C05, 0x00400000] =
    some (.ldv { c := false, d := 4, a := 6, off := 0, sz := 1, k := false, x := true, ext := 0x00400000 }, []) ∧
  decodeWords [0x33840C00] = some (.stf { c := false, d := 4, a := 6, off := 0, x := false, ext := 0 }, []) ∧
  decodeWords [0x3D1C2028] = some (.mma { c := false, cv := 3, arr := 2, areg := 8, dsc := 5, h := false, sp := false }, []) ∧
  decodeWords [0x3F070000] = some (.getst { c := false, d := 7 }, []) ∧ decodeWords [0x3F800000] = none

/-- The state that an instruction at the issue point of a lane finds, when nothing keeps it from issuing: its line is fetched
and checked, the line's working set is there, and at the head of an interval the latches go and the other items of the gang are
passed over (R65, R68, R70, R142, R149); what stands behind the last word of a line with L = 1 is noted for the instruction's own
checks (R69, R83), and no cause of its chain pours a span (R164). None of the checks fails. -/
structure Sys2Proof.Fetches (s : State) (c l : Nat) (b : Bundle) (i : Instr) (t : State) : Prop where
  bundle : (laneAt s c l).bundle = some b
  some' : b.span.isSome = true ∨ b.members ≠ []
  word : ∃ line below words rest,
    let w : Where := { core := c, lane := l, b }
    let p := issuePoint s w
    let base := p.1.toNat / 128 * 128
    let h := headerOf line
    let b' : Bundle := { b with line := some (BitVec.ofNat 64 base), lbit := hdrL h }
    let w' : Where := { core := c, lane := l, b := b' }
    let first : Bool := hdrI h && p.1.toNat % 128 = 8 && b.cidx = 0
    let opens : Bool := first && !b.prog.opened
    let past := runsOn w' p.1 i (wordCount (nth words 0 0))
    let chain := chainWords 3 (words.take ((30 - (p.1.toNat % 128 - 8) / 4 - 1) % 3 + 1))
    let head : Bool := b.cidx = 0 || b.members.any (fun m => (itemAt s b.gang m.1 m.2).unchained)
    let u := updBundle (if opens then dropRings s b.gang b.members else s) w' (fun _ => b')
    fetchAt s c b.prog.answers p.2.1 p.2.2 base 128 = .ok line ∧
    (b.line = none → b.span = none → needOf (candsOf s b.gang b.members) (lackingOf s c l (hdrWS h)) = []) ∧
    (b.line = some (BitVec.ofNat 64 base) ∨
      (if hdrI h then below = [] else headersBelow s c b.prog.answers p.2.1 p.2.2 base (upTo 1 7) = .ok below) ∧
        lineOk line below = true) ∧
    (opens = true → b.fresh = true) ∧
    words = (payload line).drop ((p.1.toNat % 128 - 8) / 4) ∧ decodeWords words = some (i, rest) ∧ i.wf = true ∧
    (head = true → chain.2 = false ∧ chainOk chain.1 = true) ∧ (plainWord i = true → past = none) ∧
    (∀ k, b.span = some k → past = none ∧ (head = true →
      chainPours Machine.exec w' k (laneAt u c l).pours chain.1.length p.1 words { u with cursor := some (c, l) } = .go)) ∧
    t = { updBundle (if opens then beginInterval u w' else u) w' (fun x => { x with prog := { x.prog with opened := first, past } })
          with cursor := some (c, l) }

/-- A lane's turn runs the instruction that the bytes at its issue point decode to: the step is `exec` of it, at the state with
the lane's cursor set. The bundle stands in the lane, not stalled and of a gang that runs, or is formed by this turn (R64 to
R71, R147, R148). The lane's turn stands on the agenda, or no event can happen and it is the first lane that may issue.
The model's choices that it rests on: log entry 8. -/
def Obligations.StepRuns : Prop :=
  ∀ s c l i, s.boot.held = false →
    let t : State := { sendMsix s with agenda := s.agenda.drop 1, cursor := none }
    (s.agenda.head? = some (.lane c l) ∨ s.agenda = [] ∧ nextInternal Machine.exec t = none ∧
      ((sortBy id (busyCores t)).flatMap (fun k => (busyLanes t k).map (fun m => (k, m)))).head? = some (c, l)) →
    (laneAt t c l).busy ≤ t.now →
    ∀ u b v, (u = t ∧ b.stall = none ∧ (b.span.isSome = true ∨ (gangAt t b.gang).phase = .resident) ∨
        (laneAt t c l).bundle = none ∧ formBundle t c l = some u) →
      Fetches u c l b i v → Machine.step s = Machine.exec i v

/-- A module held in reset does nothing but its next reset (R422). -/
def Sys2Proof.heldInReset : Prop :=
  ∀ s, s.boot.held = true → (∀ b r, s.agenda ≠ .event (.moduleReset b) :: r) → Machine.step s = .fault .heldInReset

/-- What reset leaves: counts, error logs, event slots, context descriptors and module time are zero, every port is down, and
nothing runs (R263, R273, R279, R405, R421, R434); memories that list nothing and ports that are down are the model's
choice (log entries 2 and 4). -/
def Sys2Proof.resetValues : Prop :=
  let s := Machine.State.reset
  MemoriesOk s ∧ s.gangs = [] ∧ s.launches = [] ∧ s.mtime = 0 ∧ (∀ asid, tget s.ctx asid 0 = 0) ∧
    (∀ c k, tget (coreAt s c).perf k 0 = 0) ∧
    (∀ c n k, tget (errorLogOf (coreAt s c) n).entries k 0 = 0 ∧ (errorLogOf (coreAt s c) n).ovf = false) ∧
    (∀ f k, tget (fnAt s f).ev k 0 = 0 ∧ tget (fnAt s f).acc k 0 = 0 ∧ (fnAt s f).spstat = 0) ∧
    (∀ p, (portAt s p).st = .down) ∧ ∀ core arr i, tget (arrayAt s core arr).acc i 0 = 0

/-- Reset: what it leaves, and what a refused boot does (R422). -/
def Obligations.Reset : Prop := resetValues ∧ heldInReset

/-! ## Gangs, launches and the distributor -/

/-- A report of a core that has changed tells its distributor what is free there (R350). -/
def Sys2Proof.reportsFree : Prop :=
  ∀ s core, (coreAt s core).dirty = true →
    ∃ t, Machine.exec (.coreReport core) s = .next t ∧ { t with cores := s.cores, dies := s.dies } = s ∧
      tget (dieAt t (dieOf core)).views core {} = freeView (coreAt s core) ∧
      { coreAt t core with dirty := true } = coreAt s core ∧ (coreAt t core).dirty = false ∧
      (∀ c, c ≠ core → coreAt t c = coreAt s c) ∧ ∀ d, d ≠ dieOf core → dieAt t d = dieAt s d

/-- The core chosen for a gang can take it, and none that can is less loaded (R351, R352); nothing of equal or lower priority
passes a gang whose age holds it back (R353). -/
def Sys2Proof.placementOrder : Prop :=
  (∀ s die gang core l, coreFor s die gang = some (core, l) →
    core ∈ dieCores s die ∧ arraysFree s gang core = true ∧ fitsView s gang (viewFor s gang core) = some l ∧
      ∀ c l', c ∈ dieCores s die → arraysFree s gang c = true → fitsView s gang (viewFor s gang c) = some l' →
        (viewFor s gang core).load < (viewFor s gang c).load ∨
          (viewFor s gang core).load = (viewFor s gang c).load ∧ core ≤ c) ∧
  ∀ s die e, nextPlaced s die = some e →
    (e.2.holding = true → ∃ h, oldestHold s die = some h ∧ h.1 = e.1) ∧
    (e.2.holding = false → ∀ h ∈ waitingGangs s die, h.2.holding = true → priorityOf h.2.queue < priorityOf e.2.queue)

/-- The gang that is next takes its places on the core chosen, its save slot and its cohort's scratchpad (R340, R352, R357); when the
scratchpad cannot be had, the die keeps that launch back (R352). -/
def Sys2Proof.placesGang : Prop :=
  ∀ s die n g, nextPlaced s die = some (n, g) → tfind s.gangs n = some g → g.phase = .waiting →
    (∀ u core l, allocSpad s die g.launch = some u → coreFor s die n = some (core, l) →
      ∃ t, Machine.exec (.gangPlace die) s = .next t ∧ (gangAt t n).phase = .resident ∧ (gangAt t n).core = core ∧
        (gangAt t n).placedAt = s.now ∧ (gangAt t n).holding = false ∧ (gangAt t n).slot.isSome = true ∧
        (gangAt t n).places.map (fun p => (p.1, p.2.1)) = numbered 0 (l.map Spot.lane) ∧
        (spadOf t die g.launch).isSome = true) ∧
    (allocSpad s die g.launch = none →
      ∃ t, Machine.exec (.gangPlace die) s = .next t ∧ { t with dies := s.dies } = s ∧ g.launch ∈ (dieAt t die).spadFail)

/-- A gang that has waited 100 µs begins to hold others back (R353). -/
def Sys2Proof.holdsBack : Prop :=
  ∀ s gang g, tfind s.gangs gang = some g → g.phase = .waiting ∨ g.phase = .saved → g.holding = false →
    g.since + usec 100 ≤ s.now →
    ∃ t, Machine.exec (.placementAgeHold gang) s = .next t ∧ { t with gangs := s.gangs } = s ∧
      gangAt t gang = { g with holding := true } ∧ ∀ a, a ≠ gang → gangAt t a = gangAt s a

/-- A gang that has waited more than 20 µs makes its die seek victims, every one of them a candidate on the core chosen (R355,
R356); a victim that runs is stopped (R151). -/
def Sys2Proof.seeksVictims : Prop :=
  (∀ s gang core l, seekDue s gang = true → chooseVictims s (gangAt s gang).die (gang, gangAt s gang) = some (core, l) →
    l ≠ [] → (gangAt s gang).since + usec 20 < s.now ∧
    ∃ t, Machine.exec (.qosVictimSeek gang) s = .next t ∧
      { t with dies := s.dies } = { endSeek s (gangAt s gang).die with dies := s.dies } ∧
      (dieAt t (gangAt s gang).die).seek = some (gang, core, l) ∧
      ∀ v ∈ l, ∃ k, (v, k) ∈ s.gangs ∧ k.core = core ∧
        isCandidate s (gangAt s gang).die (gang, gangAt s gang) (v, k) = true) ∧
  ∀ s gang, isVictim s gang = true → (gangAt s gang).phase = .resident →
    ∃ t, Machine.exec (.preemptRequest gang) s = .next t ∧ { t with gangs := s.gangs } = s ∧
      gangAt t gang = { gangAt s gang with phase := .stopping } ∧ ∀ a, a ≠ gang → gangAt t a = gangAt s a

/-- A stopped victim whose slot can be written begins its release, at 128 bytes a clk; with that over it leaves its places and
keeps its registers, memory, slot and scratchpad (R359). -/
def Sys2Proof.savesGang : Prop :=
  (∀ s gang u, saveDue s gang = true → (gangAt s gang).saving = none →
    writeSections s (gangAt s gang).core (gangAt s gang).asid (saveBase s (gangAt s gang)) (saveSections s gang) = .ok (some u) →
    ∃ t, Machine.exec (.gangSave gang) s = .next t ∧ (gangAt t gang).phase = .stopping ∧
      (gangAt t gang).saving.isSome = true ∧ (gangAt t gang).due = s.now + ceilDiv (sectionBytes (saveSections s gang)) 128 ∧
      SameRegisters s t gang) ∧
  ∀ s gang r, saveDue s gang = true → (gangAt s gang).saving = some r → released s r = true → (gangAt s gang).due ≤ s.now →
    ∃ t, Machine.exec (.gangSave gang) s = .next t ∧ (gangAt t gang).phase = .saved ∧ (gangAt t gang).places = [] ∧
      (gangAt t gang).since = s.now ∧ (gangAt t gang).slot = (gangAt s gang).slot ∧
      (gangAt t gang).gmem = (gangAt s gang).gmem ∧ SameRegisters s t gang ∧
      ∀ d, (dieAt t d).spads = (dieAt s d).spads

/-- The saved gang that is next takes its places on the core chosen and its memory from its slot, its arrays rebound (R261,
R359). -/
def Sys2Proof.restoresGang : Prop :=
  ∀ s gang g core l tb, nextPlaced s g.die = some (gang, g) → tfind s.gangs gang = some g → g.phase = .saved →
    coreFor s g.die gang = some (core, l) →
    readSections (reserve s gang core l) core g.asid (saveBase s g)
      ((saveSections s gang).map (fun x => (x.1, x.2.length))) = .ok (some tb) →
    ∃ t, Machine.exec (.gangRestore gang) s = .next t ∧ (gangAt t gang).phase = .resident ∧ (gangAt t gang).core = core ∧
      (gangAt t gang).placedAt = s.now ∧ (gangAt t gang).savedArr = [] ∧
      (gangAt t gang).places.map (fun p => (p.1, p.2.1)) = numbered 0 (l.map Spot.lane) ∧
      (∀ a, gangByte t gang a = mget (mwrite [] 0 (tget tb 0x150000 [])) a)

/-- A bin whose oldest record is 20 µs old flushes: a gang of its records waits to begin at their continuation (R362). -/
def Sys2Proof.flushesBin : Prop :=
  ∀ s die b, (dieAt s die).bins = [b] → b.recs.length ≤ 32 → (∃ r ∈ b.recs, r.1 + usec 20 ≤ s.now) →
    ∃ t, Machine.exec (.reordBinTimeout die) s = .next t ∧ { t with dies := s.dies, gangs := s.gangs, nextId := s.nextId } = s ∧
      (dieAt t die).bins = [] ∧
      ∃ id g r, tfind t.gangs id = some g ∧ g.phase = .waiting ∧ g.since = s.now ∧ g.launch = b.launch ∧ g.die = die ∧
        g.relaunch = some r ∧ g.box = { ox := 32 * r.q, oy := die, oz := 0, ex := b.recs.length } ∧ r.cont = b.cont ∧
        r.key = BitVec.ofNat 32 b.key ∧ r.n = b.recs.length ∧ r.recs = b.recs.map Prod.snd ∧
        r.q = ((dieAt s die).flushes.find? (fun f => f.1 = b.launch && f.2.1 = b.cont)).elim 0 (fun f => f.2.2)

/-- A launch starts when it is next, or when its start barrier is met: each die of its share gets a span at the entry, with the
launch's arguments (R159, R399, R401, R445). -/
def Sys2Proof.startsLaunch : Prop :=
  ∀ s id x, queueHead s x.fn x.queue = some (id, x) →
    (x.phase = .queued ∧ nextStart s = some (id, x) ∧ pktRep x.pkt = false ∨
      x.phase = .barrier ∧ barrierMet s x = true ∧ resetting s x.fn = false) →
    diesOf s x ≠ [] → entryCheck s x = .ok (some ()) → (∀ d ∈ diesOf s x, (coreAt s (leadCore s d.1)).spansFree ≠ 0) →
    ∃ t, Machine.exec (.launchStart x.fn x.queue) s = .next t ∧ (launchAt t id).phase = .running ∧
      (fnAt t x.fn).starts = (fnAt s x.fn).starts + 1 ∧
      ∀ d ∈ diesOf s x, ∃ n p, tfind t.spans n = some p ∧ p.launch = id ∧ p.gang = none ∧ p.die = d.1 ∧ p.box = d.2 ∧
        p.core = leadCore s d.1 ∧ p.pc = BitVec.ofNat 64 (entryPc s x) ∧ p.level = pktLevel x.pkt ∧ p.s = pktArgs x.pkt

/-- A launch of which nothing runs begins its releases; with them met it signals its event slot, counts as done and leaves its
queue (R402). -/
def Sys2Proof.completesLaunch : Prop :=
  (∀ s id x, tfind s.launches id = some x → x.phase = .running → launchBusy s id = false → resetting s x.fn = false →
    ∃ t, Machine.exec (.launchComplete id) s = .next t ∧ (launchAt t id).phase = .releasing ∧
      (launchAt t id).release = completionReleases s x) ∧
  ∀ s id x, tfind s.launches id = some x → x.phase = .releasing → x.release.all (released s) = true → x.taker = none →
    x.chips = 1 →
    ∃ t, Machine.exec (.launchComplete id) s = .next t ∧ tfind t.launches id = none ∧
      tget (fnAt t x.fn).done x.queue 0 = tget (fnAt s x.fn).done x.queue 0 + 1 ∧
      tget (fnAt t x.fn).ev (pkt x.pkt 216 209) 0 = tget (fnAt s x.fn).ev (pkt x.pkt 216 209) 0 + BitVec.ofNat 32 (pkt x.pkt 219 217)

/-- Events of the distributor and of launches (R350 to R362, R399 to R402).
The model's choices that it rests on: log entries 91, 89 and 87. -/
def Obligations.SchedulingEvents : Prop :=
  reportsFree ∧ placementOrder ∧ placesGang ∧ holdsBack ∧ seeksVictims ∧ savesGang ∧ restoresGang ∧ flushesBin ∧ startsLaunch ∧
    completesLaunch

/-! ## Log space in motion -/

/-- A block of a writer's tail that is due leaves it: its sectors stand appended, their positions pending (R291, R292, R309). -/
def Sys2Proof.appendsByAge : Prop :=
  ∀ s wid asid t es ps u,
    (dueBlocks s wid).find? (fun b => pendRoom (writerAt s wid) wid b.1 (((b.2.head?.map TailEntry.key).getD 0) / 128)) =
      some (asid, t :: es) →
    ownerless wid = true ∨ ownerOf s asid (t.key / 128) = some wid →
    appendBlock s wid asid t.ck (tailSectors s wid asid (t :: es)) = some (ps, u) →
    ∃ v, Machine.exec (.tailAgeAppend wid) s = .next v ∧
      (∀ e, e ∈ (writerAt v wid).tail ↔ e ∈ (writerAt u wid).tail ∧ e ∉ t :: es) ∧
      ∀ x ∈ ps, ∃ r ∈ (writerAt v wid).pend, r.asid = asid ∧ r.sub = x.1 / 128 ∧ (tfind r.pos (x.1 % 128)).isSome = true

/-- A writer asks the home slice for a sub-page once, and its owner is to publish; it is handed over when the owner holds nothing
of it or has published, with the requester's entries open and the old owner's waiting (R303 to R306). -/
def Sys2Proof.movesOwnership : Prop :=
  (∀ s wid asid lpn sub, sub < 16 → (asid, lpn * 16 + sub) ∈ wantedSubs s wid → requested s wid asid (lpn * 16 + sub) = false →
    ∃ t, Machine.exec (.ownershipRequest wid asid lpn sub) s = .next t ∧ { t with dies := s.dies, writers := s.writers } = s ∧
      (dieAt t (homeDie asid lpn)).ownq = (dieAt s (homeDie asid lpn)).ownq ++ [({ asid := asid, lpn := lpn, sub := sub, wid := wid } : OwnReq)] ∧
      ∀ o, ownerOf s asid (lpn * 16 + sub) = some o → ∃ x ∈ (writerAt t o).wanted, x.1 = asid) ∧
  ∀ s asid lpn sub r, sub < 16 →
    (dieAt s (homeDie asid lpn)).ownq.find? (fun r => r.asid = asid && r.lpn = lpn && r.sub = sub) = some r →
    (∀ o, ownerOf s asid (lpn * 16 + sub) = some o → o = r.wid ∨ mayYield s r o = true) →
    ∃ t, Machine.exec (.ownershipHandover asid lpn sub) s = .next t ∧ ownerOf t asid (lpn * 16 + sub) = some r.wid ∧
      { t with dies := s.dies, writers := s.writers } = s ∧
      (∀ e ∈ (writerAt t r.wid).tail, e.asid = asid → e.key / 128 = lpn * 16 + sub → e.st ≠ .wait) ∧
      ∀ o, ownerOf s asid (lpn * 16 + sub) = some o → o ≠ r.wid →
        ∀ e ∈ (writerAt t o).tail, e.asid = asid → e.key / 128 = lpn * 16 + sub → e.st ≠ .open

/-- Phase 1 of a publication: the cut appended, the pending set covered, the intent appended and a commit request sent to the
ASID's commit die. While a stack has no segment for it nothing of the ASID leaves the tail or the pending set (R312 to R314,
R372). -/
def Sys2Proof.publicationBegins : Prop :=
  ∀ s wid asid,
    let cut := cutOf s wid asid
    let mine := pendOf s wid asid
    let t := beginPublication s wid asid
    (∀ recs s1 id u, appendCut s wid asid (blocksOf cut) (pendList mine) = .ok (recs, s1) → recs ≠ [] →
      publishRecs (setWriter s1 wid { writerAt s1 wid with
          pend := (writerAt s1 wid).pend.filter (fun p => !mine.contains p)
          wanted := (writerAt s1 wid).wanted.filter (fun x => x.1 ≠ asid) }) wid asid recs mine.length false none (cutTick cut mine) =
        some (id, u) →
      (∃ p ∈ (writerAt t wid).pubs, p.id = id ∧ p.asid = asid ∧ p.recs = recs ∧ p.stage = .requested) ∧
        { asid, wid, kind := .publication id } ∈ (dieAt t (commitDie s asid)).commits ∧
        (∀ r ∈ mine, r ∉ (writerAt t wid).pend) ∧ ∀ x ∈ (writerAt t wid).wanted, x.1 ≠ asid) ∧
    ∀ stk, appendCut s wid asid (blocksOf cut) (pendList mine) = .error stk →
      (writerAt t wid).tail = (writerAt s wid).tail ∧ (writerAt t wid).pend = (writerAt s wid).pend ∧
        (writerAt t wid).pubs = (writerAt s wid).pubs ∧ wid ∈ (stackAt t stk).starved

/-- A writer publishes an ASID by age, fullness or request, and an atomic unit what is 1 µs old; a writer with nothing to publish
has met its request (R305, R309, R311, R339). -/
def Sys2Proof.publishesByAge : Prop :=
  (∀ s wid asid, publishDue s wid asid = true → canPublish s wid asid = true →
    ∃ t, Machine.exec (.pendingAgePublish wid asid) s = .next t ∧ t = beginPublication s wid asid) ∧
  (∀ s wid asid, publishDue s wid asid = true → hasCut s wid asid (writerAt s wid).tick = false →
    ∃ t, Machine.exec (.pendingAgePublish wid asid) s = .next t ∧ (∀ x ∈ (writerAt t wid).wanted, x.1 ≠ asid) ∧
      (writerAt t wid).tail = (writerAt s wid).tail ∧ (writerAt t wid).pend = (writerAt s wid).pend) ∧
  ∀ s die asid born, canPublish s (32 + die) asid = true → oldestBorn (writerAt s (32 + die)) asid = some born →
    born + usec 1 ≤ s.now →
    ∃ t, Machine.exec (.atomicUnitPublish die asid) s = .next t ∧ t = beginPublication s (32 + die) asid

/-- Phase 2 of a publication: when its writer's appends are acknowledged the commit unit lays it over the maps and writes the root
entry with SEQ + 1, and each working die gets the invalidation message (R312, R315, R316). -/
def Sys2Proof.commits : Prop :=
  ∀ s die asid r rest id p u, (dieAt s die).commits.filter (fun r => r.asid = asid) = r :: rest → r.kind = .publication id →
    openAppends s (writerDie r.wid) = false → (writerAt s r.wid).pubs.find? (fun q => q.id = id) = some p → p.asid = asid → p.rel = false →
    commitPub s r.wid id = some u →
    ∃ t, Machine.exec (.commitRequest die asid) s = .next t ∧ (dieAt t die).commits = (dieAt s die).commits.erase r ∧
      (∃ q ∈ (writerAt t r.wid).pubs, q.id = id ∧ q.stage = .committed ((rootEntry s asid).seq + 1)) ∧
      (∃ root crec, t.fixed = mwrite s.fixed (s.boot.rootOff + 16 * asid)
        (rootBytes { root, crec, seq := (rootEntry s asid).seq + 1 })) ∧
      ∀ d ∈ workingDies s, ∃ m ∈ (dieAt t d).inbox, m.asid = asid ∧ m.seq = (rootEntry s asid).seq + 1

/-- A die applies the messages of an ASID in SEQ order: the replaced maps leave its index cache and APPLIED rises; the writer
counts each working die that has applied its commit, and a publication that all of them applied ends (R316). -/
def Sys2Proof.invalidates : Prop :=
  (∀ s die asid m, leastBy InvMsg.seq ((dieAt s die).inbox.filter (fun m => m.asid = asid)) = some m →
    ∃ t, Machine.exec (.invalidationMessage die asid) s = .next t ∧ { t with dies := s.dies } = s ∧
      appliedOf t die asid = max (appliedOf s die asid) m.seq ∧ (∀ a, a ≠ asid → appliedOf t die a = appliedOf s die a) ∧
      (∀ e, e ∈ (dieAt t die).maps ↔ e ∈ (dieAt s die).maps ∧ ¬(e.asid = asid ∧ (e.lpn, e.sub) ∈ m.keys)) ∧
      (dieAt t die).inbox = (dieAt s die).inbox.erase m ∧ ∀ d, d ≠ die → dieAt t d = dieAt s d) ∧
  ∀ s wid asid, ∃ t, Machine.exec (.invalidationAck wid asid) s = .next t ∧
    (∀ p ∈ (writerAt t wid).pubs, p.asid = asid → ∀ seq, p.stage = .committed seq →
      ∀ d ∈ workingDies s, seq ≤ appliedOf s d asid → d ∈ p.acked) ∧
    ((∃ p ∈ (writerAt s wid).pubs, p.asid = asid ∧ newAcks s p ≠ []) →
      ∀ p ∈ (writerAt t wid).pubs, p.asid = asid → ∀ seq, p.stage = .committed seq → ∃ d ∈ workingDies s, d ∉ p.acked)

/-- Where a miss of a lane waits for a walk. -/
def Sys2Proof.waitsWalk (s : State) (core lane asid vpn : Nat) (b : Bundle) : Prop :=
  (laneAt s core lane).bundle = some b ∧ b.stall = some (.walk [(asid, vpn)])

/-- A waiting miss takes a free walker; when its walk ends, the leaf is installed and the miss answered, or answered with the walk's
cause (R328, R329). -/
def Sys2Proof.walks : Prop :=
  (∀ s die m rest, (dieAt s die).missq = m :: rest → (∀ k ∈ (dieAt s die).walkers, ¬(k.2.asid = m.1 ∧ k.2.vpn = m.2.1)) →
    (∃ i < 128, tfind (dieAt s die).walkers i = none) →
    ∃ t, Machine.exec (.walkStart die) s = .next t ∧ { t with dies := s.dies } = s ∧ (dieAt t die).missq = rest ∧
      ∃ i < 128, tfind (dieAt s die).walkers i = none ∧
        tfind (dieAt t die).walkers i = some { asid := m.1, vpn := m.2.1, start := s.now, queue := [m.2.2] }) ∧
  ∀ s die i k core lane b, tfind (dieAt s die).walkers i = some k → k.stale = false → k.queue = [.lane core lane] →
    waitsWalk s core lane k.asid k.vpn b →
    (∀ l, walkCached s die k.asid (k.vpn * 65536) = .leaf l → leafHost l = false →
      ∃ t, Machine.exec (.walkComplete die i) s = .next t ∧ tfind (dieAt t die).walkers i = none ∧
        { asid := k.asid, vpn := k.vpn, leaf := l } ∈ (dieAt t die).tcache ∧
        ∃ c, (laneAt t core lane).bundle = some c ∧ c.stall = none ∧ c.members = b.members ∧
          (k.asid, k.vpn, .leaf l) ∈ c.prog.answers) ∧
    ∀ code va, walkCached s die k.asid (k.vpn * 65536) = .cause code va →
      ∃ t, Machine.exec (.walkComplete die i) s = .next t ∧ tfind (dieAt t die).walkers i = none ∧
        (dieAt t die).tcache = (dieAt s die).tcache ∧
        ∃ c, (laneAt t core lane).bundle = some c ∧ c.stall = none ∧ c.members = b.members ∧
          (k.asid, k.vpn, .cause code va) ∈ c.prog.answers

/-- A shootdown is accepted while fewer than 16 are queued and the ASID is the function's: no translation of its range is left
anywhere; it completes in order, counted and signalled (R332 to R334). -/
def Sys2Proof.shootdowns : Prop :=
  (∀ s fn ctl, let asid := bits ctl.toNat 11 0
    let first := bits (fnAt s fn).sdaddr.toNat 56 16
    let hit (a vpn : Nat) : Prop := a = asid ∧ inRange first (bits ctl.toNat 47 16) (bit ctl.toNat 13) vpn = true
    (fnAt s fn).sdq.length < 16 → (astEntry s asid).fn = fn →
    ∃ t, Machine.exec (.shootdownCommand fn ctl) s = .next t ∧ (fnAt t fn).sdacc = (fnAt s fn).sdacc + 1 ∧
      (fnAt t fn).sdq.length = (fnAt s fn).sdq.length + 1 ∧
      (bits ctl.toNat 47 16 ≠ 0 ∨ bit ctl.toNat 13 = true →
        (∀ d, ∀ e ∈ (dieAt t d).tcache, ¬ hit e.asid e.vpn) ∧ (∀ w, ∀ e ∈ (writerAt t w).leaves, ¬ hit e.asid e.vpn) ∧
        ∀ c, ∀ e ∈ (coreAt t c).l1, ¬ hit e.asid (vpnOf e.va))) ∧
  (∀ s fn ctl, 16 ≤ (fnAt s fn).sdq.length ∨ (astEntry s (bits ctl.toNat 11 0)).fn ≠ fn →
    ∃ t, Machine.exec (.shootdownCommand fn ctl) s = .next t ∧ (fnAt t fn).sdovf = true ∧
      (fnAt t fn).sdacc = (fnAt s fn).sdacc ∧ (fnAt t fn).sdq = (fnAt s fn).sdq) ∧
  ∀ s fn a ctl mark rest, (fnAt s fn).sdq = (a, ctl, [mark]) :: rest → shotDone s (bits ctl.toNat 11 0) mark.1 = true →
    ∃ t, Machine.exec (.shootdownComplete fn) s = .next t ∧ { t with fns := s.fns } = s ∧ (fnAt t fn).sdq = rest ∧
      (fnAt t fn).sddone = (fnAt s fn).sddone + 1 ∧ 3 ∈ (fnAt t fn).msix

/-- The atomic unit performs its oldest request on the version that it holds: the old word and the flags return to the bundle, the
new word is in its tail, and no other byte changes (R224, R338). -/
def Sys2Proof.performsAtomic : Prop :=
  ∀ s die r rest g p a v n b, die < 4 → (dieAt s die).atomq = r :: rest → r.ops = [(g, p, a, v, n)] → r.wide = false → a % 4 = 0 →
    (s.dies.map Prod.fst).Nodup → (∀ d ∈ s.dies, d.1 ≠ die → ∀ q ∈ d.2.atomq, q.id ≠ r.id) → (∀ q ∈ rest, q.id ≠ r.id) →
    (laneAt s r.core r.lane).bundle = some b → b.stall = some (.atomic r.id) →
    tailPlain s (32 + die) → (writerAt s (32 + die)).tail.length < 65536 →
    let rd := readSector s (32 + die) die r.asid (a / 32)
    rd.bad = false → rd.data.length = 32 →
    let old := valueOf (wordsIn 1 (rd.data.drop (a % 32)))
    ∃ t, Machine.exec (.atomicPerform die) s = .next t ∧ (dieAt t die).atomq = rest ∧
      (laneAt t r.core r.lane).bundle = some { b with stall := none, prog := { b.prog with
        results := b.prog.results ++ [(g, p, [BitVec.ofNat 32 (atomicOp r.aop false old v n).2, lowWord old])] } } ∧
      (∀ x, (atomicOp r.aop false old v n).1 = some x →
        ∀ i < 4, logByte t (32 + die) r.asid (a / 32) (a % 32 + i) = nth (wordBytes (lowWord x)) i 0) ∧
      ∀ wid asid key i, i < 32 →
        (atomicOp r.aop false old v n).1 = none ∨ ¬(wid = 32 + die ∧ asid = r.asid ∧ key = a / 32 ∧ a % 32 ≤ i ∧ i < a % 32 + 4) →
        logByte t wid asid key i = logByte s wid asid key i

/-- The last completion that a stack has ready is the one given. -/
def Sys2Proof.lastDone (s : State) (stk : Nat) (d : StackDone) : Prop := (stackAt s stk).done.getLast? = some d

/-- A base die serves the oldest request of each kind (R295, R297, R365 to R372): reads with their poison marks, appends and fixed
writes stored and acknowledged, segments given to writers and sealed. -/
def Sys2Proof.servesStack : Prop :=
  (∀ s stk die tag pos n rest, (stackAt s stk).reqs = .read die tag pos n :: rest →
    ∃ t, Machine.exec (.stackRead stk) s = .next t ∧ (stackAt t stk).reqs = rest ∧ t.log = s.log ∧
      lastDone t stk { die, tag, data := sectorsBytes s (posSector pos) n, poison := poisonMask s (posSector pos) n, seg := none }) ∧
  (∀ s stk die tag pos data rest, (stackAt s stk).reqs = .append die tag pos data :: rest →
    segIndex (posStk pos) (posSix pos) ∉ s.lost → Memory.wf s.log = true →
    ∃ t, Machine.exec (.stackAppend stk) s = .next t ∧ (stackAt t stk).reqs = rest ∧
      lastDone t stk { die, tag, data := [], poison := 0, seg := none } ∧
      (∀ i < data.length, mget t.log (posSector pos * 32 + i) = data.getD i 0) ∧
      ∀ a, a < posSector pos * 32 ∨ posSector pos * 32 + data.length ≤ a → mget t.log a = mget s.log a) ∧
  (∀ s stk die tag off len rest, (stackAt s stk).reqs = .fread die tag off len :: rest →
    ∃ t, Machine.exec (.stackFread stk) s = .next t ∧ { t with stks := s.stks } = s ∧ (stackAt t stk).reqs = rest ∧
      lastDone t stk { die, tag, data := mread s.fixed off len, poison := 0, seg := none }) ∧
  (∀ s stk die tag off data rest, (stackAt s stk).reqs = .fwrite die tag off data :: rest → Memory.wf s.fixed = true →
    ∃ t, Machine.exec (.stackFwrite stk) s = .next t ∧ (stackAt t stk).reqs = rest ∧
      lastDone t stk { die, tag, data := [], poison := 0, seg := none } ∧
      (∀ i < data.length, mget t.fixed (off + i) = data.getD i 0) ∧
      ∀ a, a < off ∨ off + data.length ≤ a → mget t.fixed a = mget s.fixed a) ∧
  (∀ s stk die tag wid rest, (stackAt s stk).reqs = .segopen die tag wid :: rest → tfind (writerAt s wid).segs stk = none →
    (∀ six, segOpen s stk wid = some six →
      ∃ t, Machine.exec (.stackSegopen stk) s = .next t ∧ (stackAt t stk).reqs = rest ∧
        lastDone t stk { die, tag, data := [], poison := 0, seg := some six } ∧ (segAt t stk six).st = .open ∧
        (segAt t stk six).wid = wid ∧ ∃ o, tfind (writerAt t wid).segs stk = some o ∧ o.seg = six ∧ o.count = 0) ∧
    (segOpen s stk wid = none →
      ∃ t, Machine.exec (.stackSegopen stk) s = .next t ∧ (stackAt t stk).reqs = rest ∧ wid ∈ (stackAt t stk).starved ∧
        lastDone t stk { die, tag, data := [], poison := 0, seg := none })) ∧
  (∀ s stk die tag six wid count rest, (stackAt s stk).reqs = .segseal die tag six wid count :: rest →
    (segAt s stk six).st = .open →
    ∃ t, Machine.exec (.stackSegseal stk) s = .next t ∧ (segAt t stk six).st = .sealed ∧ (segAt t stk six).sealedAt = s.now ∧
      lastDone t stk { die, tag, data := [], poison := 0, seg := none }) ∧
  ∀ s stk d rest, (stackAt s stk).done = d :: rest →
    ∃ t, Machine.exec (.stackCompletion stk) s = .next t ∧ { t with stks := s.stks } = s ∧ (stackAt t stk).done = rest ∧
      (stackAt t stk).reqs = (stackAt s stk).reqs

/-- A scrub corrects every correctable sector of its stack; a stack that freed no segment for 1 ms while a writer waits tells
the host once (R368, R372). -/
def Sys2Proof.watchesStack : Prop :=
  (∀ s stk, ∃ t, Machine.exec (.stackScrub stk) s = .next t ∧ t.log = s.log ∧ (stackAt t stk).scrubbed = s.now ∧
      ∀ b, b ∈ t.badLog ↔ b ∈ s.badLog ∧ ¬(b.2 = false ∧ segIndex stk 0 * segSectors ≤ b.1 ∧
        b.1 < segIndex stk 0 * segSectors + 16384 * segSectors)) ∧
  ∀ s stk, (stackAt s stk).starved ≠ [] → (stackAt s stk).fullRaised = false →
    max (stackAt s stk).lastFree (stackAt s stk).starvedAt + usec 1000 ≤ s.now →
    ∃ t, Machine.exec (.logFullTimeout stk) s = .next t ∧ { t with stks := s.stks, fns := s.fns } = s ∧
      (stackAt t stk).fullRaised = true ∧ 9 ∈ (fnAt t 0).msix

/-- The fettler holds a segment in which too few sectors are dead, and cleans one in which nothing lives; a cleaned segment whose
moves and reads have ended is FREE again and no cache names it (R337, R372 to R376). -/
def Sys2Proof.fettles : Prop :=
  (∀ s stk six m, fettlerRuns s stk = true → nextClean s stk = some (six, m) →
    let u := setStack s stk { stackAt s stk with lastScan := s.now }
    let xs := (extentsFrom u stk six 32768 0).filter (fun x => x.kind ≤ 5)
    let dead := ((xs.filter (fun x => !extentLive u x)).map Extent.n).foldl (· + ·) 0
    (2 * dead < m.data →
      ∃ t, Machine.exec (.fettlerScan stk) s = .next t ∧ { t with stks := s.stks } = s ∧ (segAt t stk six).st = .held) ∧
    (m.data ≤ 2 * dead → (∀ x ∈ xs, extentLive u x = false) →
      ∃ t, Machine.exec (.fettlerScan stk) s = .next t ∧ { t with stks := s.stks } = s ∧ (segAt t stk six).st = .cleaning ∧
        (segAt t stk six).moves = [])) ∧
  ∀ s stk six, (segAt s stk six).st = .cleaning → movesDone s (segAt s stk six) = true → readsOpen s stk six = false →
    ∃ t, Machine.exec (.segmentFree stk six) s = .next t ∧ (segAt t stk six).st = .free ∧ (stackAt t stk).lastFree = s.now ∧
      (stackAt t stk).starved = [] ∧
      ∀ d, (∀ e ∈ (dieAt t d).maps, e.pos ≠ 0 → ¬(posStk e.pos = stk ∧ posSix e.pos = six)) ∧
        (∀ e ∈ (dieAt t d).nodes, e.pos ≠ 0 → ¬(posStk e.pos = stk ∧ posSix e.pos = six)) ∧
        ∀ e ∈ (dieAt t d).lines, e.pos ≠ 0 → ¬(posStk e.pos = stk ∧ posSix e.pos = six)

/-- Events of log space: writers, commit units, walkers, atomic units, base dies and fettlers (R291 to R316, R328 to R339, R365 to
R376). The model's choices that it rests on: log entries 68, 70, 81, 78, 82 and 74. -/
def Obligations.LogSpaceEvents : Prop :=
  appendsByAge ∧ movesOwnership ∧ publicationBegins ∧ publishesByAge ∧ commits ∧ invalidates ∧ walks ∧ shootdowns ∧ performsAtomic ∧
    servesStack ∧ watchesStack ∧ fettles

/-! ## The host's side -/

/-- A migration command is taken while fewer than 16 are queued and the ASID is the function's; any other sets ERR (R386). -/
def Sys2Proof.takesMigrations : Prop :=
  ∀ s fn ctl dir, let i : Instr := if dir then .migrateToDeviceCommand fn ctl else .migrateToHostCommand fn ctl
    ((s.migs.filter (fun j => j.fn = some fn)).length < 16 → (astEntry s (bits ctl.toNat 11 0)).fn = fn →
      ∃ t j, Machine.exec i s = .next t ∧ t.migs = s.migs ++ [j] ∧ j.fn = some fn ∧ j.asid = bits ctl.toNat 11 0 ∧
        j.vpn = bits (fnAt s fn).mgaddr.toNat 56 16 ∧ j.toDevice = dir ∧ j.stage = 0 ∧ j.since = s.now ∧
        (fnAt t fn).mgacc = (fnAt s fn).mgacc + 1) ∧
    (16 ≤ (s.migs.filter (fun j => j.fn = some fn)).length ∨ (astEntry s (bits ctl.toNat 11 0)).fn ≠ fn →
      ∃ t, Machine.exec i s = .next t ∧ { t with fns := s.fns } = s ∧ (fnAt t fn).mgerr = true ∧
        (fnAt t fn).mgacc = (fnAt s fn).mgacc)

/-- A command whose page is copied completes; a page that has come to the device loses its H, and its waiting accesses walk again
(R386 to R388). -/
def Sys2Proof.completesMigrations : Prop :=
  (∀ s ok j fn, s.migs = [j] → j.toDevice = false → j.stage = 4 → j.fn = some fn →
    ∃ t, Machine.exec (.migrationComplete ok) s = .next t ∧ { t with migs := s.migs, fns := s.fns } = s ∧ t.migs = [] ∧
      (fnAt t fn).mgdone = (fnAt s fn).mgdone + 1 ∧ 4 ∈ (fnAt t fn).msix) ∧
  ∀ s ok j a, s.migs = [j] → j.toDevice = true → j.stage = 2 → awaitPubs s j.asid j.pubs = none →
    leafPlace s (j.vpn * 65536) (astEntry s j.asid).top 4 = some a → Memory.wf s.fixed = true →
    ∃ t, Machine.exec (.migrationComplete ok) s = .next t ∧ t.migs = [] ∧ bit (fixedWord t a) 4 = false ∧
      (∀ d, ∀ k ∈ (dieAt t d).walkers, ¬(k.2.asid = j.asid ∧ k.2.vpn = j.vpn)) ∧
      ∀ d, ∀ k ∈ (dieAt s d).walkers, k.2.asid = j.asid → k.2.vpn = j.vpn →
        ∀ m ∈ k.2.queue, (j.asid, j.vpn, m) ∈ (dieAt t d).missq

/-- The host grants the oldest page asked for, or refuses it, or does not answer for 10 ms: then the migration fails with ERR and
leaves the queue (R387, R390). -/
def Sys2Proof.answersPages : Prop :=
  (∀ s j page, awaiting s = some j →
    ∃ t, Machine.exec (.pageRequestAnswer true page) s = .next t ∧ { t with migs := s.migs } = s ∧
      { j with stage := 1, page } ∈ t.migs) ∧
  (∀ s j page, awaiting s = some j →
    ∃ t, Machine.exec (.pageRequestAnswer false page) s = .next t ∧ (∀ x ∈ t.migs, x.id ≠ j.id) ∧
      (fnAt t (j.fn.getD (ownerFn s j.asid))).mgerr = true) ∧
  ∀ s j, s.migs = [j] → j.toDevice = true → j.stage = 0 → j.fn = none → j.since + usec 10000 ≤ s.now →
    ∃ t, Machine.exec .migrationTimeout s = .next t ∧ t.migs = [] ∧ (fnAt t (ownerFn s j.asid)).mgerr = true

/-- The first trigger that meets ARMED names the instant 2 µs on; there the registers freeze and the host is told; later triggers
do nothing until the host arms again (R411). -/
def Sys2Proof.captures : Prop :=
  (∀ s, s.capture.latched = true →
    ∃ t, Machine.exec .capctlArm s = .next t ∧ { t with capture := s.capture } = s ∧ t.capture.fired = false ∧ t.capture.latched = false) ∧
  (∀ s, s.capture.latched = false → Machine.exec .capctlArm s = .next s) ∧
  (∀ s, s.capture.fired = true → Machine.exec .capctlFire s = .next s) ∧
  (∀ s, s.capture.fired = false →
    ∃ t, Machine.exec .capctlFire s = .next t ∧ { t with capture := s.capture } = s ∧ t.capture.fired = true ∧ t.capture.src = 1 ∧
      t.capture.tag = 0 ∧ t.capture.instant = moduleTime s + 2000) ∧
  ∀ s, s.capture.fired = true → s.capture.latched = false → (moduleTime s - s.capture.instant).toNat < 2 ^ 63 →
    ∃ t, Machine.exec .captureLatch s = .next t ∧ { t with capture := s.capture, fns := s.fns } = s ∧ t.capture.latched = true ∧
      t.capture.frozen = s.capture.instant ∧ 6 ∈ (fnAt t 0).msix

/-- A sag of the supply lengthens a die's clock period by a sixteenth, to 24 sixteenths; it recovers a step for each 64 clk (R420). -/
def Sys2Proof.stretchesClock : Prop :=
  (∀ s die, die < 4 → ∃ t, Machine.exec (.supplySag die) s = .next t ∧ { t with dies := s.dies } = s ∧
    (dieAt t die).period = min 24 ((dieAt s die).period + 1) ∧ ∀ d, d ≠ die → dieAt t d = dieAt s d) ∧
  ∀ s die, 16 < (dieAt s die).period → (dieAt s die).sagAt + 64 ≤ s.now →
    ∃ t, Machine.exec (.clockRecoverStep die) s = .next t ∧ { t with dies := s.dies } = s ∧
      (dieAt t die).period = (dieAt s die).period - 1 ∧ ∀ d, d ≠ die → dieAt t d = dieAt s d

/-- The security processor returns the certificate chain or its measurements over DOE, and takes IDE keys only in a session (R423). -/
def Sys2Proof.attests : Prop :=
  (∀ s, ∃ t, Machine.exec .spdmGetCertificate s = .next t ∧ { t with boot := s.boot } = s ∧ t.boot.doe = Config.certificate) ∧
  (∀ s, ∃ t, Machine.exec .spdmGetMeasurements s = .next t ∧ { t with boot := s.boot } = s ∧
    t.boot.doe = s.boot.measures ++ [Config.signature s.boot.measures]) ∧
  (∀ s, ∃ t, Machine.exec .spdmSessionEstablish s = .next t ∧ { t with boot := s.boot } = s ∧ t.boot.spdm = true ∧
    t.boot.ide = s.boot.ide) ∧
  ∀ s key, (s.boot.spdm = true →
      ∃ t, Machine.exec (.ideKeyManagement key) s = .next t ∧ { t with boot := s.boot } = s ∧ t.boot.ide = some key) ∧
    (s.boot.spdm = false → Machine.exec (.ideKeyManagement key) s = .next s)

/-- A write of a whole slot that passes every check is a launch of its queue under the next LSEQ; any other write of a slot sets
SHORT (R396 to R398). -/
def Sys2Proof.takesPackets : Prop :=
  (∀ s fn q data, fn < 33 → q < 8 → data.length = 64 → resetting s fn = false →
    packetReason s fn (BitVec.ofNat 512 (ofBytes data)) false none none = 0 → queueFull s fn q = false →
    ∃ t x, Machine.exec (.qslotWrite fn (64 * q) data) s = .next t ∧ tfind t.launches s.nextId = some x ∧ x.fn = fn ∧ x.queue = q ∧
      x.pkt = BitVec.ofNat 512 (ofBytes data) ∧ x.phase = .queued ∧ x.lseq = tget (fnAt s fn).acc q 0 ∧
      tget (fnAt t fn).acc q 0 = tget (fnAt s fn).acc q 0 + 1) ∧
  (∀ s fn q data, fn < 33 → q < 8 → data.length = 64 → resetting s fn = false →
    packetReason s fn (BitVec.ofNat 512 (ofBytes data)) false none none ≠ 0 →
    ∃ t, Machine.exec (.qslotWrite fn (64 * q) data) s = .next t ∧ { t with fns := s.fns } = s ∧
      (fnAt t fn).spstat.getLsbD (24 + q) = true ∧ (fnAt t fn).acc = (fnAt s fn).acc) ∧
  ∀ s fn off data, fn < 33 → off < 512 → data ≠ [] → ¬(data.length = 64 ∧ off % 64 = 0) → resetting s fn = false →
    ∃ t, Machine.exec (.qslotWrite fn off data) s = .next t ∧ { t with fns := s.fns } = s ∧
      (fnAt t fn).spstat.getLsbD 15 = true ∧ (fnAt t fn).acc = (fnAt s fn).acc

/-- Host writes of an event slot, adds to one, and the other slots as before (R407). -/
def Sys2Proof.changesEvents : Prop :=
  (∀ s fn slot v, fn < 33 → slot < 256 →
    ∃ t, Machine.exec (.eventSlotWrite fn slot v) s = .next t ∧ evAt t fn slot = v ∧ ∀ k, k ≠ slot → evAt t fn k = evAt s fn k) ∧
  ∀ s fn v, fn < 33 →
    ∃ t, Machine.exec (.evadd fn v) s = .next t ∧
      evAt t fn (bits v.toNat 7 0) = evAt s fn (bits v.toNat 7 0) + BitVec.ofNat 32 (bits v.toNat 31 8) ∧
      ∀ k, k ≠ bits v.toNat 7 0 → evAt t fn k = evAt s fn k

/-- HEAD moves only towards TAIL (R412); MTIME reads what was written (R421); SAVEPOOL and CODEBASE take a write while no gang of
the function is resident or saved, and registers of the command blocks at any time (R332, R386, R405). -/
def Sys2Proof.writesRegisters : Prop :=
  (∀ s fn v, fn < 33 → let n := bits v.toNat 6 0
    ∃ t, Machine.exec (.hgptrWrite fn v) s = .next t ∧ { t with fns := s.fns } = s ∧
      ((n + 128 - (fnAt s fn).head) % 128 ≤ ((fnAt s fn).tail + 128 - (fnAt s fn).head) % 128 → (fnAt t fn).head = n) ∧
      (((fnAt s fn).tail + 128 - (fnAt s fn).head) % 128 < (n + 128 - (fnAt s fn).head) % 128 → (fnAt t fn).head = (fnAt s fn).head) ∧
      (fnAt t fn).hovf = ((fnAt s fn).hovf && !v.getLsbD 16)) ∧
  (∀ s v, ∃ t, Machine.exec (.mtimeWrite v) s = .next t ∧ moduleTime t = v ∧ { t with mtime := s.mtime, mtimeAt := s.mtimeAt } = s) ∧
  (∀ s fn v, fn < 33 → fnIdle s fn = true →
    (∃ t, Machine.exec (.registerWrite fn 0x290 v) s = .next t ∧ { t with fns := s.fns } = s ∧
      (fnAt t fn).savebase = BitVec.ofNat 64 (v.toNat / 2 ^ 21 * 2 ^ 21)) ∧
    ∃ t, Machine.exec (.registerWrite fn 0x248 v) s = .next t ∧ { t with fns := s.fns } = s ∧
      (fnAt t fn).codebase = BitVec.ofNat 64 (bits v.toNat 56 16 * 65536)) ∧
  (∀ s fn v, fn < 33 → fnIdle s fn = false →
    Machine.exec (.registerWrite fn 0x290 v) s = .next s ∧ Machine.exec (.registerWrite fn 0x248 v) s = .next s) ∧
  ∀ s fn v, fn < 33 → ∃ t, Machine.exec (.registerWrite fn 0x2C0 v) s = .next t ∧ { t with fns := s.fns } = s ∧
    (fnAt t fn).sdaddr = BitVec.ofNat 64 (bits v.toNat 56 16 * 65536)

/-- A function reset begins with RST set and the function's gangs stopping, an FLR of the physical function with every function's;
with its gangs gone and its commits written, the window is cleared but for EVIRQ, CODEBASE and SAVEPOOL, nothing unpublished is
left, and the host is told once (R321, R416). -/
def Sys2Proof.resetsFunctions : Prop :=
  (∀ s fn i, fn < 33 → (i = .ctrlRst fn 1 ∨ i = .flr fn ∧ fn ≠ 0) →
    ∃ t, Machine.exec i s = .next t ∧ { t with fns := s.fns, gangs := s.gangs } = s ∧ resetting t fn = true ∧
      ∀ n g, tfind s.gangs n = some g → g.fn = fn → g.phase = .resident → (gangAt t n).phase = .stopping) ∧
  (∀ s, ∃ t, Machine.exec (.flr 0) s = .next t ∧ { t with fns := s.fns, gangs := s.gangs } = s ∧ ∀ fn < 33, resetting t fn = true) ∧
  ∀ s fn, fn < 33 → resetting s fn = true → (fn = 0 → ∀ f, 1 ≤ f → f < 33 → resetting s f = false) → fnGangs s fn = [] →
    allCommitted s (asidsOf s fn) = true →
    ∃ t, Machine.exec (.functionResetComplete fn) s = .next t ∧ (fnAt t fn).spstat = 0 ∧ (fnAt t fn).msix = [5] ∧
      (∀ k, evAt t fn k = 0 ∧ tget (fnAt t fn).acc k 0 = 0 ∧ tget (fnAt t fn).done k 0 = 0) ∧ (fnAt t fn).hg = [] ∧
      (fnAt t fn).head = 0 ∧ (fnAt t fn).tail = 0 ∧ (fnAt t fn).evirq = (fnAt s fn).evirq ∧
      (fnAt t fn).codebase = (fnAt s fn).codebase ∧ (fnAt t fn).savebase = (fnAt s fn).savebase ∧
      (∀ l ∈ t.launches, l.2.fn ≠ fn) ∧ t.log = s.log ∧ t.fixed = s.fixed ∧
      ∀ a ∈ asidsOf s fn, ∀ w, (∀ e ∈ (writerAt t w).tail, e.asid ≠ a) ∧ (∀ e ∈ (writerAt t w).pend, e.asid ≠ a)

/-- A module reset runs the module under the configuration that secure boot verified, or holds it in reset with the failure's code
(R369, R422, R455). -/
def Sys2Proof.resetsModule : Prop :=
  (∀ s b, b.failStage = 0 → bootRefused b = false →
    ∃ t, Machine.exec (.moduleReset b) s = .next t ∧ t.boot.held = false ∧ t.gangs = [] ∧ t.spans = [] ∧ t.launches = [] ∧
      t.copies = [] ∧ t.mtime = 0 ∧ (∀ f, fnAt t f = {}) ∧ t.boot.measures = b.measures ∧ t.boot.spdm = false ∧
      t.boot.fencedDies = b.fencedDies ∧ t.boot.fencedCores = b.fencedCores) ∧
  ∀ s b, b.failStage ≠ 0 → ∃ t, Machine.exec (.moduleReset b) s = .next t ∧ t.boot.held = true ∧ t.boot.stage = b.failStage ∧
    t.boot.code = b.failCode

/-- A soft error marks the word or sector that it strikes and changes no byte; a corrected error of a die's data line does nothing
(R272, R345, R368). -/
def Sys2Proof.takesSoftErrors : Prop :=
  (∀ s gang off bad, standing s gang = true → off < (gangAt s gang).gmemSize →
    ∃ t, Machine.exec (.softError (.gmem gang off) bad) s = .next t ∧ { t with gangs := s.gangs } = s ∧
      (gangAt t gang).gmem = (gangAt s gang).gmem ∧ ∃ e, (off / 4, e) ∈ (gangAt t gang).badGmem ∧ ofBool bad ≤ e) ∧
  (∀ s stk six off bad, stk < 8 → six < 16384 → off < segSectors → (∀ x ∈ s.badLog, x.1 = sectorNo stk six off → x.2 = false) →
    ∃ t, Machine.exec (.softError (.sector stk six off) bad) s = .next t ∧ { t with badLog := s.badLog } = s ∧
      (sectorNo stk six off, bad) ∈ t.badLog) ∧
  (∀ s die i, Machine.exec (.softError (.dataLine die i) false) s = .next s) ∧
  ∀ s die i x, (dieAt s die).tcache[i]? = some x →
    ∃ t, Machine.exec (.softError (.transEntry die i) true) s = .next t ∧ (dieAt t die).tcache = (dieAt s die).tcache.eraseIdx i ∧
      t.gangs = s.gangs ∧ t.log = s.log

/-- Events of the host's side: migration, capture, clocks, attestation, the sprue's registers, resets and soft errors (R272, R368,
R385 to R423). The model's choices that it rests on: log entries 102, 85, 79 and 84. -/
def Obligations.HostEvents : Prop :=
  takesMigrations ∧ completesMigrations ∧ answersPages ∧ captures ∧ stretchesClock ∧ attests ∧ takesPackets ∧ changesEvents ∧
    writesRegisters ∧ resetsFunctions ∧ resetsModule ∧ takesSoftErrors

/-! ## Links and the router -/

/-- A port that has been quiet for 100 ns sends a header with its acknowledgement (R426, R427). -/
def Sys2Proof.keepsTalking : Prop :=
  ∀ s i, portRuns (portAt s i) = true → (portAt s i).lastSent + 70 ≤ s.now →
    ∃ t f, Machine.exec (.idleFlitTimer i) s = .next t ∧ { t with fabric := s.fabric } = s ∧
      (portAt t i).out = (portAt s i).out ++ [f] ∧ f.kind = 0 ∧ f.av = true ∧ f.ackseq = (portAt s i).ackSeq ∧
      f.nak = (portAt s i).nak ∧ (portAt t i).nak = false ∧ (portAt t i).lastSent = s.now ∧
      (portAt t i).replay = (portAt s i).replay ∧ ∀ j, j ≠ i → portAt t j = portAt s j

/-- The mask of healthy lanes of one end (R429). -/
def Sys2Proof.laneMask (x : Port) (far : Bool) : BitVec 16 := if far then x.peer else x.lanes

/-- A lane that becomes unhealthy leaves its end's mask; one of the active set sends the port to TRAIN with its replay buffer kept
and a notice. A lane that recovers joins the mask, and the port does not widen (R429). -/
def Sys2Proof.changesLanes : Prop :=
  (∀ s i lane far, i < 12 → lane < 16 →
    ∃ t, Machine.exec (.laneFault i lane far) s = .next t ∧ (laneMask (portAt t i) far).getLsbD lane = false ∧
      (portAt t i).replay = (portAt s i).replay ∧
      (laneActive (portAt s i) lane = true → (portAt t i).st = .train ∧ (portAt t i).since = s.now ∧ 10 ∈ (fnAt t 0).msix ∧
        ∃ p ∈ t.fabric.inq, p.op = 0x11) ∧
      (laneActive (portAt s i) lane = false → (portAt t i).st = (portAt s i).st ∧ { t with fabric := s.fabric } = s)) ∧
  ∀ s i lane far, i < 12 → lane < 16 →
    ∃ t, Machine.exec (.laneRecovery i lane far) s = .next t ∧ { t with fabric := s.fabric } = s ∧
      (laneMask (portAt t i) far).getLsbD lane = true ∧ (portAt t i).st = (portAt s i).st ∧
      (portAt t i).first = (portAt s i).first

/-- The state of a width: 0 ×16, 1 ×8, 2 ×4 (R426, R429). -/
def Sys2Proof.widthState (w : Nat) : PortState := if w = 0 then .x16 else if w = 1 then .x8 else .x4

/-- In TRAIN the port takes the widest healthy set, asks for replay and loses no flit; with no set, or after 3 µs, or when it is
disabled, it goes DOWN and discards its replay buffer. PCTL.UP trains a port that is DOWN, or could be wider (R429, R430). -/
def Sys2Proof.trains : Prop :=
  (∀ s i peer w a, (portAt s i).st = .train → s.now ≤ (portAt s i).since + usec 3 → bestSet (portAt s i).lanes peer = some (w, a) →
    ∃ t, Machine.exec (.trainComplete i peer) s = .next t ∧ (portAt t i).st = widthState w ∧ (portAt t i).first = a ∧
      (portAt t i).peer = peer ∧ (∀ f ∈ (portAt s i).replay, f ∈ (portAt t i).replay) ∧
      ∃ f ∈ (portAt t i).out, f.nak = true ∧ f.ackseq = (portAt s i).ackSeq) ∧
  (∀ s i peer, (portAt s i).st = .train → s.now ≤ (portAt s i).since + usec 3 → bestSet (portAt s i).lanes peer = none →
    ∃ t, Machine.exec (.trainComplete i peer) s = .next t ∧ (portAt t i).st = .down ∧ (portAt t i).replay = [] ∧
      10 ∈ (fnAt t 0).msix) ∧
  (∀ s i, (portAt s i).st = .train → (portAt s i).since + usec 3 ≤ s.now →
    ∃ t, Machine.exec (.trainTimeout i) s = .next t ∧ (portAt t i).st = .down ∧ (portAt t i).replay = [] ∧ 10 ∈ (fnAt t 0).msix) ∧
  (∀ s i, i < 12 → ∃ t, Machine.exec (.pctlDis i) s = .next t ∧ (portAt t i).st = .down ∧ (portAt t i).replay = []) ∧
  ∀ s i, i < 12 → ((portAt s i).st = .down ∨ ((portAt s i).st = .x8 ∨ (portAt s i).st = .x4) ∧
      ∃ b, bestSet (portAt s i).lanes (portAt s i).peer = some b ∧ b.1 < portWidth (portAt s i)) →
    ∃ t, Machine.exec (.pctlUp i) s = .next t ∧ { t with fabric := s.fabric } = s ∧ (portAt t i).st = .train ∧
      (portAt t i).replay = (portAt s i).replay ∧ (portAt t i).since = s.now

/-- A bad flit is discarded and asks for replay; a data flit in order is delivered once, and a packet of one flit arrives with it;
a duplicate changes nothing, a gap asks for replay (R425 to R428). -/
def Sys2Proof.receivesFlits : Prop :=
  ∀ s i f, i < 12 → portRuns (portAt s i) = true →
    (flitBad f = true → ∃ t, Machine.exec (.flitReceive i f) s = .next t ∧ { t with fabric := s.fabric } = s ∧
      portAt t i = { portAt s i with bad := (portAt s i).bad + 1, nak := true }) ∧
    (flitBad f = false → f.kind = 1 → f.seq = (portAt s i).ackSeq + 1 →
      ∃ t, Machine.exec (.flitReceive i f) s = .next t ∧ (portAt t i).ackSeq = f.seq ∧
        (f.eop = false → (portAt t i).rx = (portAt s i).rx) ∧
        (f.sop = true → f.eop = true → (portAt t i).rx = (portAt s i).rx ++ [(parsePacket f.area, none)])) ∧
    (flitBad f = false → f.kind = 1 → 2048 ≤ seqAhead f.seq ((portAt s i).ackSeq + 1) →
      ∃ t, Machine.exec (.flitReceive i f) s = .next t ∧ (portAt t i).ackSeq = (portAt s i).ackSeq ∧
        (portAt t i).rx = (portAt s i).rx) ∧
    (flitBad f = false → 1 ≤ seqAhead f.seq ((portAt s i).ackSeq + 1) → seqAhead f.seq ((portAt s i).ackSeq + 1) < 2048 →
      s.fabric.waiting = [] →
      ∃ t, Machine.exec (.flitReceive i f) s = .next t ∧ (portAt t i).ackSeq = (portAt s i).ackSeq ∧
        (portAt t i).rx = (portAt s i).rx ∧ (portAt t i).nak = true)

/-- A packet is routed once: without a key of its port, an entry, or a hop left it is dropped and counted; at its destination its
event comes next; otherwise it waits for the port of its entry, or leaves by it when there are credits (R428, R434, R435). -/
def Sys2Proof.routes : Prop :=
  (∀ s p r, s.fabric.inq = p :: r →
    let e := destEntry s.fabric.active p.dest.toNat
    (entryBad e = true → ∃ t, Machine.exec (.packetRoute 12) s = .next t ∧
      t = { s with fabric := { s.fabric with inq := r, droproute := s.fabric.droproute + 1 } }) ∧
    (∀ i, entryBad e = false → bit e 30 = true → packetBad p = false → p.op ≠ 0x11 → packetEvent p = some i →
      ∃ t, Machine.exec (.packetRoute 12) s = .next t ∧
        t = { s with agenda := .event i :: s.agenda, fabric := { s.fabric with inq := r } }) ∧
    (entryBad e = false → bit e 30 = true → packetBad p = true → p.op ≠ 0x11 →
      ∃ t, Machine.exec (.packetRoute 12) s = .next t ∧
        t = { s with fabric := { s.fabric with inq := r, badpkt := s.fabric.badpkt + 1 } }) ∧
    (entryBad e = false → bit e 30 = false → p.hop ≠ 0 → p.cls ≠ 1 → s.fabric.waiting = [] →
      ∃ t, Machine.exec (.packetRoute 12) s = .next t ∧ t.fabric.inq = r ∧
        (canSend (portAt s (bits e 3 0)) p = true → t.fabric.waiting = [] ∧
          (portAt t (bits e 3 0)).out.length = (portAt s (bits e 3 0)).out.length + flitCount p ∧
          (portAt t (bits e 3 0)).replay.length = (portAt s (bits e 3 0)).replay.length + flitCount p) ∧
        (canSend (portAt s (bits e 3 0)) p = false →
          t.fabric.waiting = [{ pkt := p, port := bits e 3 0, ports := [bits e 3 0], since := s.now }] ∧
          portAt t (bits e 3 0) = portAt s (bits e 3 0)))) ∧
  ∀ s i p r, i < 12 → (portAt s i).rx = (p, none) :: r →
    let e := destEntry s.fabric.active p.dest.toNat
    (keyListed s.fabric.active i p.pkey.toNat = false →
      ∃ t, Machine.exec (.packetRoute i) s = .next t ∧ (portAt t i).rx = r ∧ t.fabric.dropkey = s.fabric.dropkey + 1 ∧
        t.agenda = s.agenda) ∧
    (keyListed s.fabric.active i p.pkey.toNat = true → entryBad e = false → bit e 30 = false → p.hop = 0 →
      ∃ t, Machine.exec (.packetRoute i) s = .next t ∧ (portAt t i).rx = r ∧ t.fabric.drophop = s.fabric.drophop + 1 ∧
        t.agenda = s.agenda)

/-- A bulk packet that found no credits for 2 µs waits for DPORT alone; a packet unacknowledged for 100 µs is sent again, three
times in all, and then its sender fails with a notice; a tag is forgotten after 1 ms (R433, R435, R437, R440). -/
def Sys2Proof.retries : Prop :=
  (∀ s w, s.fabric.waiting = [w] → w.pkt.cls = 1 → w.since + usec 2 ≤ s.now → canSend (portAt s w.port) w.pkt = false →
    ∃ t, Machine.exec (.bulkCreditTimeout 0) s = .next t ∧
      t = { s with fabric := { s.fabric with waiting := [{ w with ports := [w.port] }] } }) ∧
  (∀ s n p, s.fabric.sent[n]? = some p → p.sentAt + usec 100 ≤ s.now → p.tries < 3 →
    ∃ t, Machine.exec (.resendTimeout n) s = .next t ∧ { t with fabric := s.fabric } = s ∧
      t.fabric.inq = s.fabric.inq ++ [p.pkt] ∧ t.fabric.sent = s.fabric.sent.set n { p with sentAt := s.now, tries := p.tries + 1 }) ∧
  (∀ s n p gang g q x, s.fabric.sent[n]? = some p → p.sentAt + usec 100 ≤ s.now → p.tries = 3 → p.pkt.op ≠ 0x11 →
    p.who = .fill gang g q → itemIn (groupAt s gang g) q = some x →
    ∃ t, Machine.exec (.resendTimeout n) s = .next t ∧ 10 ∈ (fnAt t 0).msix ∧
      itemIn (groupAt t gang g) q = some { x with aborted := true }) ∧
  ∀ s n a, s.fabric.performed[n]? = some a → a.2.2.1 + usec 1000 ≤ s.now →
    ∃ t, Machine.exec (.performedTagExpiry n) s = .next t ∧
      t = { s with fabric := { s.fabric with performed := s.fabric.performed.eraseIdx n } }

/-- RTSWAP makes the shadow bank active and keeps it as the shadow; packets that have arrived keep the old bank (R436). -/
def Sys2Proof.swapsBanks : Prop :=
  ∀ s, ∃ t, Machine.exec .rtswap s = .next t ∧ t.fabric.active = s.fabric.shadow ∧ t.fabric.shadow = s.fabric.shadow ∧
    t.fabric.swapping = false ∧
    ∀ i, (portAt t i).rx = (portAt s i).rx.map (fun r => (r.1, some (r.2.getD s.fabric.active)))

/-- Events of runner ports and of the router (R425 to R437). The model's choices that it rests on: log entries 104 and 105. -/
def Obligations.FabricLinkEvents : Prop :=
  keepsTalking ∧ changesLanes ∧ trains ∧ receivesFlits ∧ routes ∧ retries ∧ swapsBanks

/-! ## Packets between chips -/

/-- A packet that is performed: its OP with the class and reserved fields that go with it, the management key where it needs one, and
not performed before (R432, R433, R451). -/
structure Sys2Proof.Accepted (s : State) (op : Nat) (p : Packet) : Prop where
  op' : p.op.toNat = op
  good : packetBad p = false
  key : p.cls = 2 → p.pkey.toNat = mpkey s
  fresh : performedStatus s p = none

/-- The packet's DACK waits to be routed, with a status (R432, R433). -/
def Sys2Proof.dacked (t : State) (p : Packet) (status : Nat) : Prop :=
  ∃ q ∈ t.fabric.inq, q.op = 0x06 ∧ q.tag = p.tag ∧ q.dest = p.src ∧ q.aux = BitVec.ofNat 64 status

/-- Every packet: a bad one is counted in BADPKT, a management packet with another key in DROPKEY, and one performed before is only
acknowledged again (R432, R433, R451). -/
def Sys2Proof.turnsAway : Prop :=
  ∀ s p i, packetEvent p = some i →
    (packetBad p = true → Machine.exec i s = .next { s with fabric := { s.fabric with badpkt := s.fabric.badpkt + 1 } }) ∧
    (packetBad p = false → p.cls = 2 → p.pkey.toNat ≠ mpkey s →
      Machine.exec i s = .next { s with fabric := { s.fabric with dropkey := s.fabric.dropkey + 1 } }) ∧
    ∀ st, packetBad p = false → performedStatus s p = some st →
      ∃ t q, Machine.exec i s = .next t ∧ t = { s with fabric := { s.fabric with inq := s.fabric.inq ++ [q] } } ∧ dacked t p st

/-- A WRITE whose pages are the device's and whose sub-pages the ingress writer owns is appended into its copy set and acknowledged;
a translation fault is the answer's status (R438, R439). -/
def Sys2Proof.packetWrites : Prop :=
  ∀ s p, Accepted s 0x01 p → let wid := 36 + auxDie p; let asid := p.asid.toNat
    let x := translateNow s { asid, level := peerLevel s (auxRgrp p), write := true } p.addr.toNat p.payload.length
    (∀ code a, x = .fault code a → ∃ t, Machine.exec (.pktWrite p) s = .next t ∧ { t with fabric := s.fabric } = s ∧ dacked t p code) ∧
    ∀ ls ps s1 u, x = .ok ls →
      (writerAt s wid).sets.find? (fun c => c.src = p.src.toNat && c.cid = auxCid p && c.asid = asid) = none →
      (writerAt s wid).sets.length < 32 →
      let secs := writeSectors s wid asid p.addr.toNat ls p.payload
      let keys := secs.map (fun x => x.2.1)
      (nodup (keys.map (· / 128))).length ≤ 257 → claimAll s wid asid (nodup (keys.map (· / 128))) = (true, s1) →
      appendSectors s1 wid asid ((nodup (keys.map (· / 8))).map (fun b =>
        ((((secs.filter (fun x => x.2.1 / 8 = b)).head?).map Prod.fst).getD 0,
          (secs.filter (fun x => x.2.1 / 8 = b)).map Prod.snd))) = .ok (ps, u) →
      ∃ t c, Machine.exec (.pktWrite p) s = .next t ∧ dacked t p 0 ∧ c ∈ (writerAt t wid).sets ∧ c.src = p.src.toNat ∧
        c.cid = auxCid p ∧ c.asid = asid ∧ c.last = s.now ∧
        ∀ y ∈ ps, ∃ r ∈ c.recs, r.asid = asid ∧ r.sub = y.2.1 / 128 ∧ (tfind r.pos (y.2.1 % 128)).isSome = true

/-- RDREQ is answered from the published state with RDDATA, and RDDATA brings the bytes of its unit to the copy that asked (R438). -/
def Sys2Proof.packetReads : Prop :=
  (∀ s p ls, Accepted s 0x02 p →
    translateNow s { asid := p.asid.toNat, level := peerLevel s (auxRgrp p) } p.addr.toNat (auxLen p) = .ok ls →
    let rs := (sectorsOf p.addr.toNat (auxLen p)).map (fun a => publishedSector s p.asid.toNat (keyOf (leafIn ls a) a))
    rs.any SectorRead.bad = false →
    ∃ t, Machine.exec (.rdreq p) s = .next t ∧ { t with fabric := s.fabric } = s ∧ dacked t p 0 ∧
      ∃ q ∈ t.fabric.inq, q.op = 0x03 ∧ q.dest = p.src ∧ q.addr = p.addr ∧ q.aux = p.aux ∧
        q.payload = ((rs.flatMap SectorRead.data).drop (p.addr.toNat % 32)).take (auxLen p)) ∧
  ∀ s p i c u, Accepted s 0x03 p →
    s.copies.find? (fun c => c.2.src.isPeer && c.2.cid = auxCid p && !c.2.stopped) = some (i, c) → tfind s.copies i = some c →
    (upTo 0 (copyUnits c)).find? (fun u => c.src.at + (unitAt c u).1 = p.addr.toNat) = some u →
    (unitAt c u).2 ≤ p.payload.length → (∃ x ∈ c.tags, x.2 ≠ u) →
    ∃ t d, Machine.exec (.rddata p) s = .next t ∧ { t with fabric := s.fabric, copies := s.copies } = s ∧ dacked t p 0 ∧
      tfind t.copies i = some d ∧ d.tags = c.tags.filter (fun x => x.2 ≠ u) ∧
      ∀ k < (unitAt c u).2, d.image.getD ((unitAt c u).1 + k) 0 = p.payload.getD k 0

/-- FILL and SPWR write the cohort's scratchpad of the die that they name, and nothing else of it (R221, R438, R440). -/
def Sys2Proof.packetScratchpads : Prop :=
  (∀ s p id x sp, Accepted s 0x04 p → s.fillq = [] → s.gangs = [] →
    let die := bits p.addr.toNat 54 53; let off := bits p.addr.toNat 52 0
    s.launches.find? (fun e => pktRep e.2.pkt && pktRgrp e.2.pkt = bits p.aux.toNat 15 8 &&
      pktSgen e.2.pkt = bits p.aux.toNat 23 16 && e.2.phase ≠ .queued) = some (id, x) →
    spadOf s die id = some sp → Memory.wf sp.mem = true → off + 4 ≤ 128 * sp.lines → absentIn (dieLocal s die id) off 4 = none →
    ∃ t, Machine.exec (.fillPacket p) s = .next t ∧ dacked t p 0 ∧ off / 4 ∈ (dieLocal t die id).full ∧
      (∀ k < 4, spadByte t die id (off + k) = nth (wordBytes (headWord p.payload)) k 0) ∧
      ∀ a, a < off ∨ off + 4 ≤ a → spadByte t die id a = spadByte s die id a) ∧
  ∀ s p id x sp, Accepted s 0x05 p → domainLaunch s (auxRgrp p) = some (id, x) → spadOf s (auxDie p) id = some sp →
    Memory.wf sp.mem = true → auxRead p = false → p.addr.toNat + p.payload.length ≤ 128 * sp.lines →
    ∃ t, Machine.exec (.spwr p) s = .next t ∧ dacked t p 0 ∧
      (∀ k < p.payload.length, spadByte t (auxDie p) id (p.addr.toNat + k) = p.payload.getD k 0) ∧
      ∀ a, a < p.addr.toNat ∨ p.addr.toNat + p.payload.length ≤ a → spadByte t (auxDie p) id a = spadByte s (auxDie p) id a

/-- A DACK takes the packet that it names from those unacknowledged, that of a CDONE completes its copy, and one that says a fill
was discarded marks its item; CDONE publishes its copy set first; a set that hears nothing for 1 ms goes (R433, R438 to R440). -/
def Sys2Proof.packetAnswers : Prop :=
  (∀ s p q, Accepted s 0x06 p →
    s.fabric.sent.find? (fun q => q.pkt.tag = p.tag && q.pkt.dest = p.src && opAcked q.pkt.op.toNat) = some q →
    (q.who = .other → ∃ t, Machine.exec (.dack p) s = .next t ∧
      t = { s with fabric := { s.fabric with sent := s.fabric.sent.erase q } }) ∧
    (∀ i c, q.who = .copy i → q.pkt.op = 0x07 → tfind s.copies i = some c → bits p.aux.toNat 7 0 = 0 →
      ∃ t, Machine.exec (.dack p) s = .next t ∧ tfind t.copies i = some { c with closing := 2, stopped := true } ∧
        t.fabric.sent = s.fabric.sent.erase q) ∧
    ∀ gang g x y, q.who = .fill gang g x → itemIn (groupAt s gang g) x = some y → bits p.aux.toNat 7 0 ≠ 0 → s.fillq = [] →
      ∃ t, Machine.exec (.dack p) s = .next t ∧ itemIn (groupAt t gang g) x = some { y with aborted := true } ∧
        t.fabric.sent = s.fabric.sent.erase q) ∧
  (∀ s p, Accepted s 0x07 p → let wid := 36 + auxDie p
    (∀ c u, (writerAt s wid).sets.find? (fun c => c.src = p.src.toNat && c.cid = auxCid p && c.asid = p.asid.toNat) = some c →
      publishSet s wid c = some u → isPending u p = false →
      ∃ t, Machine.exec (.cdone p) s = .next t ∧ p ∈ t.fabric.pending ∧ (writerAt t wid).pubs = (writerAt u wid).pubs ∧
        ∀ d ∈ (writerAt t wid).sets, ¬(d.src = p.src.toNat ∧ d.cid = auxCid p ∧ d.asid = p.asid.toNat)) ∧
    ((writerAt s wid).sets.find? (fun c => c.src = p.src.toNat && c.cid = auxCid p && c.asid = p.asid.toNat) = none →
      (∀ q ∈ (writerAt s wid).pubs, q.copy = some (p.src.toNat, auxCid p) → pubDone s wid q 4 = true) →
      ∃ t, Machine.exec (.cdone p) s = .next t ∧ { t with fabric := s.fabric } = s ∧ dacked t p 0)) ∧
  ∀ s die n c, (writerAt s (36 + die)).sets[n]? = some c → c.last + usec 1000 ≤ s.now →
    ∃ t, Machine.exec (.copySetTimeout die n) s = .next t ∧ { t with writers := s.writers } = s ∧
      (writerAt t (36 + die)).sets = (writerAt s (36 + die)).sets.eraseIdx n

/-- A replicated launch arrives in the queue that it names, start barriers and completions of members are noted (R444 to R446). -/
def Sys2Proof.packetLaunches : Prop :=
  (∀ s p, Accepted s 0x0D p →
    let pk := BitVec.ofNat 512 (ofBytes p.payload); let fn := bits (ldtEntry s (pktRgrp pk)) 111 106; let q := p.aux.toNat % 8
    resetting s fn = false → packetReason s fn pk false none none = 0 → queueFull s fn q = false →
    (∀ j, barrierGen s (pktRgrp pk) j ≠ some (pktSgen pk + 256)) →
    ∃ t x, Machine.exec (.launchPacket p) s = .next t ∧ dacked t p 0 ∧ tfind t.launches s.nextId = some x ∧ x.fn = fn ∧ x.queue = q ∧
      x.pkt = pk ∧ x.phase = .queued ∧ x.taker.isSome = true ∧ tget (fnAt t fn).acc q 0 = tget (fnAt s fn).acc q 0 + 1) ∧
  (∀ s p j, Accepted s 0x0E p → memberOf s (bits p.aux.toNat 15 8) p.src.toNat = some j → bit p.aux.toNat 0 = false →
    ∃ t, Machine.exec (.startbar p) s = .next t ∧ { t with fabric := s.fabric } = s ∧ dacked t p 0 ∧
      barrierGen t (bits p.aux.toNat 15 8) j = some (bits p.aux.toNat 23 16)) ∧
  ∀ s p j id x, Accepted s 0x0F p → memberOf s (bits p.aux.toNat 15 8) p.src.toNat = some j →
    s.launches.find? (fun e => pktRep e.2.pkt && e.2.taker.isNone && pktRgrp e.2.pkt = bits p.aux.toNat 15 8 &&
      pktSgen e.2.pkt = bits p.aux.toNat 23 16 && e.2.phase ≠ .queued && !e.2.dones.contains j) = some (id, x) →
    ∃ t, Machine.exec (.ldone p) s = .next t ∧ { t with launches := s.launches } = s ∧
      tfind t.launches id = some { x with dones := x.dones ++ [j] }

/-- Management packets: a trigger meets ARMED, notices and responses reach their reader, a write acts on the fabric block and a read
is answered from it (R411, R432, R437, R451). -/
def Sys2Proof.packetManages : Prop :=
  (∀ s p, Accepted s 0x10 p → s.capture.fired = false →
    ∃ t, Machine.exec (.trigPacket p) s = .next t ∧ { t with capture := s.capture } = s ∧ t.capture.fired = true ∧
      t.capture.src = 2 ∧ t.capture.tag = p.aux.setWidth 16 ∧ t.capture.instant = moduleTime s + 2000) ∧
  (∀ s p, Accepted s 0x11 p → ∃ t, Machine.exec (.notice p) s = .next t ∧
    t = { s with fabric := { s.fabric with notices := s.fabric.notices ++ [p] } }) ∧
  (∀ s p, Accepted s 0x14 p → ∃ t, Machine.exec (.mrsp p) s = .next t ∧
    t = { s with fabric := { s.fabric with responses := s.fabric.responses ++ [p] } }) ∧
  (∀ s p, Accepted s 0x12 p → p.payload.length = 8 →
    (p.addr = 0x4018 → ∃ t, Machine.exec (.mwr p) s = .next t ∧ moduleTime t = BitVec.ofNat 64 (ofBytes p.payload)) ∧
    (p.addr = 0x4410 → bit (ofBytes p.payload) 0 = true →
      ∃ t, Machine.exec (.mwr p) s = .next t ∧ { t with fabric := s.fabric } = s ∧ t.fabric.swapping = true)) ∧
  ∀ s p, Accepted s 0x13 p → bits p.aux.toNat 11 0 = 8 →
    ∃ t q, Machine.exec (.mrd p) s = .next t ∧ t = { s with fabric := { s.fabric with inq := s.fabric.inq ++ [q] } } ∧
      q.op = 0x14 ∧ q.dest = p.src ∧ q.tag = p.tag ∧ q.payload = toBytes 8 (fabricRead s p.addr.toNat).toNat

/-- What a packet of a replica group brings to a holder (R447): its group and member. -/
def Sys2Proof.Holds (s : State) (p : Packet) (g j mode : Nat) : Prop :=
  groupOf s p = some (g, j) ∧ rgtMode (rgtEntry s g) = mode ∧ 8 ≤ rgtSelf (rgtEntry s g)

/-- A mirror stores what is shipped to it, with its poison; a parity holder adds a term once and removes it when it is retired
(R448, R449, R453). -/
def Sys2Proof.replicaStores : Prop :=
  (∀ s p g j i, (Accepted s 0x08 p ∧ i = .segship p ∨ Accepted s 0x09 p ∧ i = .segpart p) → Memory.wf s.log = true →
    let a := posSector p.addr.toNat * 32
    (Holds s p g j 1 → ∃ t, Machine.exec i s = .next t ∧ dacked t p 0 ∧
      (∀ k < p.payload.length, mget t.log (a + k) = p.payload.getD k 0) ∧
      (∀ b, b < a ∨ a + p.payload.length ≤ b → mget t.log b = mget s.log b) ∧
      ∀ k < p.payload.length / 32, bit p.aux.toNat k = true → (posSector p.addr.toNat + k, true) ∈ t.badLog) ∧
    (Holds s p g j 2 → (j, posSector p.addr.toNat) ∉ (repOf s g).terms → ∃ t, Machine.exec i s = .next t ∧ dacked t p 0 ∧
      (j, posSector p.addr.toNat) ∈ (repOf t g).terms ∧
      (∀ k < p.payload.length, mget t.log (a + k) = mget s.log (a + k) ^^^
        BitVec.ofNat 8 (gfMul (p.payload.getD k 0).toNat (termCoef (rgtEntry s g) (rgtSelf (rgtEntry s g)) j))) ∧
      ∀ b, b < a ∨ a + p.payload.length ≤ b → mget t.log b = mget s.log b)) ∧
  ∀ s p g j, Accepted s 0x15 p → Memory.wf s.log = true → Holds s p g j 2 → (j, posSector p.addr.toNat) ∈ (repOf s g).terms →
    let a := posSector p.addr.toNat * 32
    ∃ t, Machine.exec (.retire p) s = .next t ∧ dacked t p 0 ∧ (j, posSector p.addr.toNat) ∉ (repOf t g).terms ∧
      (∀ k < p.payload.length, mget t.log (a + k) = mget s.log (a + k) ^^^
        BitVec.ofNat 8 (gfMul (p.payload.getD k 0).toNat (termCoef (rgtEntry s g) (rgtSelf (rgtEntry s g)) j))) ∧
      ∀ b, b < a ∨ a + p.payload.length ≤ b → mget t.log b = mget s.log b

/-- A mirror's fixed region takes a shipped write; the next commit record of an ASID in SEQ order is applied to its root table and
answered, and the answer takes the member from those that its data chip waits for (R448). -/
def Sys2Proof.replicaCommits : Prop :=
  (∀ s p g j, Accepted s 0x0A p → Memory.wf s.fixed = true → Holds s p g j 1 →
    ∃ t, Machine.exec (.fixwr p) s = .next t ∧ dacked t p 0 ∧
      (∀ k < p.payload.length, mget t.fixed (p.addr.toNat + k) = p.payload.getD k 0) ∧
      ∀ a, a < p.addr.toNat ∨ p.addr.toNat + p.payload.length ≤ a → mget t.fixed a = mget s.fixed a) ∧
  (∀ s p g j, Accepted s 0x0B p → Memory.wf s.fixed = true → Holds s p g j 1 → (repOf s g).records = [] → p.addr.toNat < 2 ^ 40 →
    let rec' := BitVec.ofNat 512 (ofBytes p.payload)
    recordSeq rec' = heldSeq s g j (recordAsid rec') + 1 →
    ∃ t, Machine.exec (.cship p) s = .next t ∧ dacked t p 0 ∧ heldSeq t g j (recordAsid rec') = recordSeq rec' ∧
      ∃ q ∈ t.fabric.inq, q.op = 0x0C ∧ q.asid = BitVec.ofNat 12 (recordAsid rec') ∧ q.addr = BitVec.ofNat 64 (recordSeq rec')) ∧
  ∀ s p g m, Accepted s 0x0C p → groupOf s p = some (g, m) → bit p.aux.toNat 32 = false →
    ∃ t, Machine.exec (.repack p) s = .next t ∧ tget (repOf t g).lastAck m 0 = s.now ∧
      ∀ j ∈ t.fabric.ships, j.asid = p.asid.toNat → j.seq = p.addr.toNat → (g, m) ∉ j.waits

/-- Every 1 ms holder P marks a generation at the surviving data chips, which take it as theirs (R449). -/
def Sys2Proof.replicaMarks : Prop :=
  (∀ s g, g < 16 → let e := rgtEntry s g
    rgtLive e = true → rgtMode e = 2 → rgtSelf e = 8 → (repOf s g).lastMark + usec 1000 ≤ s.now →
    ∃ t, Machine.exec (.genmarkTimer g) s = .next t ∧ rgtPgen (rgtEntry t g) = (rgtPgen e + 1) % 2 ^ 32 ∧
      ∀ j < rgtK e, rgtFailed e j = false → ∃ q ∈ t.fabric.inq, q.op = 0x16 ∧ q.dest = BitVec.ofNat 14 (memberEnd e j) ∧
        bits q.aux.toNat 31 0 = (rgtPgen e + 1) % 2 ^ 32) ∧
  ∀ s p g j, Accepted s 0x16 p → groupOf s p = some (g, j) →
    ∃ t, Machine.exec (.genmark p) s = .next t ∧ dacked t p 0 ∧ rgtPgen (rgtEntry t g) = bits p.aux.toNat 31 0

/-- A member that acknowledges nothing for 1 ms, or that the manager fails, has its FMASK bit set and a notice raised; a spare is
filled and takes its place; CLEAR makes a LOST group IDLE (R450, R451). -/
def Sys2Proof.replicaFailures : Prop :=
  (∀ s g m i, (i = .gcmdFail g m ∨ i = .replicaAckTimeout g m ∧ ∃ t0,
      leastBy id ((s.fabric.sent.filter (fun q => q.who = .replica g m)).map (fun q => q.sentAt - usec (100 * (min q.tries 3 - 1)))) =
        some t0 ∧ max t0 (tget (repOf s g).lastAck m 0) + usec 1000 ≤ s.now) →
    g < 16 → rgtValid (rgtEntry s g) = true → m ∈ rgtMembers (rgtEntry s g) → m < 10 → rgtFailed (rgtEntry s g) m = false →
    ∃ t, Machine.exec i s = .next t ∧ rgtFailed (rgtEntry t g) m = true ∧ 10 ∈ (fnAt t 0).msix) ∧
  (∀ s g m ep, g < 16 → rgtValid (rgtEntry s g) = true → m ∈ rgtMembers (rgtEntry s g) →
    ∃ t, Machine.exec (.gcmdSpare g m ep) s = .next t ∧ rgtState (rgtEntry t g) = 2 ∧ (repOf t g).spare = some (m, ep)) ∧
  (∀ s g m ep, m < 10 → (repOf s g).spare = some (m, ep) → rgtState (rgtEntry s g) = 2 →
    (∀ q ∈ s.fabric.sent, q.who ≠ .replica g m) →
    ∃ t, Machine.exec (.spareFillComplete g) s = .next t ∧ rgtFailed (rgtEntry t g) m = false ∧
      memberEnd (rgtEntry t g) m = ep % 2 ^ 14 ∧ (repOf t g).spare = none) ∧
  ∀ s g, g < 16 → rgtState (rgtEntry s g) = 3 →
    ∃ t, Machine.exec (.gcmdClear g) s = .next t ∧ { t with fabric := s.fabric } = s ∧ rgtState (rgtEntry t g) = 0

/-- A group entry written with V is ACTIVE with this chip's place in SELF where its fields are consistent and its members' tags
differ; otherwise GREF is set and V is clear (R447). -/
def Sys2Proof.replicaTable : Prop :=
  ∀ s g (v : BitVec 512), g < 16 → let e := v.toNat
    (v.getLsbD 0 = true → rgtConsistent s e = true → sharedTags e = false →
      ∃ t, Machine.exec (.rgtWrite g v) s = .next t ∧ rgtValid (rgtEntry t g) = true ∧ rgtState (rgtEntry t g) = 1 ∧
        rgtMode (rgtEntry t g) = rgtMode e ∧ rgtK (rgtEntry t g) = rgtK e ∧ rgtM (rgtEntry t g) = rgtM e ∧
        memberEnd (rgtEntry t g) (rgtSelf (rgtEntry t g)) = ownEp s ∧ t.fabric.gref = s.fabric.gref) ∧
    (v.getLsbD 0 = true → rgtConsistent s e = false ∨ sharedTags e = true ∧ bit e 13 = false →
      ∃ t, Machine.exec (.rgtWrite g v) s = .next t ∧ rgtValid (rgtEntry t g) = false ∧ t.fabric.gref = true)

/-- Events of packets and of replica groups (R411, R432 to R451).
The model's choices that it rests on: log entries 88, 107, 108, 106 and 44. -/
def Obligations.FabricPacketEvents : Prop :=
  turnsAway ∧ packetWrites ∧ packetReads ∧ packetScratchpads ∧ packetAnswers ∧ packetLaunches ∧ packetManages ∧ replicaStores ∧
    replicaCommits ∧ replicaMarks ∧ replicaFailures ∧ replicaTable

/-- Nothing stops a module that is not held in reset, whatever its state, and every instruction and event has a next state: the one
stop is the hold of a refused boot (R7, R422). -/
def Obligations.OnlyResetStops : Prop :=
  (∀ i s, ∃ t, Machine.exec i s = .next t) ∧
  ∀ s, Safe s ∨ s.boot.held = true ∧ Machine.step s = .fault .heldInReset
end

