-- ==== Sys2Proof/Laws/Forms.lean ====
section
/-!
SUPPORT. Closed forms are exact (R28 to R30): the form of a source gives, at each item's coordinates, the value that the item
reads, and a register keeps its value when its representation changes.
-/
namespace Sys2Proof.Machine

theorem lowWord_add (a b : DWord) : lowWord (a + b) = lowWord a + lowWord b := by
  simp [lowWord, BitVec.setWidth_add]

theorem lowWord_mul (a b : DWord) : lowWord (a * b) = lowWord a * lowWord b := by
  simp [lowWord, BitVec.setWidth_mul]

theorem lowWord_ofNat (n : Nat) : lowWord (BitVec.ofNat 64 n) = BitVec.ofNat 32 n := by
  apply BitVec.eq_of_toNat_eq
  simp [lowWord]

/-- The low half of an AFFINE64 value is the AFFINE form of the coefficients' low words (R29). -/
theorem affAt_lowAff (f : Aff64) (c : Nat × Nat × Nat) : affAt (lowAff f) c = lowWord (aff64At f c) := by
  simp [affAt, aff64At, lowAff, lowWord_add, lowWord_mul, lowWord_ofNat]

/-- An AFFINE register without steps is CONST (R29). -/
theorem repAt_mkAffine {β : Type} (body : β → Word) (f : Aff) (c : Nat × Nat × Nat) :
    repAt body (mkAffine f) c = affAt f c := by
  unfold mkAffine
  split
  · rename_i h
    simp [repAt, affAt, h.1, h.2.1, h.2.2]
  · rfl

/-- The two halves of an AFFINE64 pair (R28, R29). -/
theorem repAt_mkAffine64 {β : Type} (body : β → Word) (f : Aff64) (c : Nat × Nat × Nat) :
    repAt body (mkAffine64 f).1 c = lowWord (aff64At f c) ∧ repAt body (mkAffine64 f).2 c = highWord (aff64At f c) := by
  unfold mkAffine64
  split
  · rename_i h
    simp [repAt, aff64At, h.1, h.2.1, h.2.2]
  · exact ⟨rfl, rfl⟩

/-- The form of a 32-bit register or latch gives its word (R29). -/
theorem formAt_repForm {β : Type} (body : β → Word) {r : Rep β} {fm : Form} (h : repForm r = some fm) (c : Nat × Nat × Nat) :
    formAt fm c = (repAt body r c).setWidth 64 := by
  cases r with
  | const k => simp only [repForm, Option.some.injEq] at h; subst h; rfl
  | affine f => simp only [repForm, Option.some.injEq] at h; subst h; rfl
  | lo64 f =>
    simp only [repForm] at h
    split at h
    · rename_i z
      simp only [Option.some.injEq] at h
      subst h
      simp [formAt, repAt, ← affAt_lowAff, affAt, z.1, z.2.1, z.2.2]
    · simp only [Option.some.injEq] at h
      subst h
      simp [formAt, repAt, affAt_lowAff]
  | hi64 f => simp [repForm] at h
  | body b => simp [repForm] at h

theorem pair_toNat (hi lo : Word) : (pair hi lo).toNat = hi.toNat * 2 ^ 32 + lo.toNat := by
  change (hi ++ lo : BitVec (32 + 32)).toNat = _
  rw [BitVec.toNat_append, ← Nat.shiftLeft_add_eq_or_of_lt lo.isLt, Nat.shiftLeft_eq]

theorem pair_words (v : DWord) : pair (highWord v) (lowWord v) = v := by
  apply BitVec.eq_of_toNat_eq
  have := v.isLt
  rw [pair_toNat]
  simp [highWord, lowWord, Nat.shiftRight_eq_div_pow]
  omega

theorem pair_zero (w : Word) : pair 0 w = w.setWidth 64 := by
  apply BitVec.eq_of_toNat_eq
  have := w.isLt
  rw [pair_toNat]
  simp
  omega

theorem lowWord_pair (hi lo : Word) : lowWord (pair hi lo) = lo := by
  apply BitVec.eq_of_toNat_eq
  have := lo.isLt
  simp [lowWord, pair_toNat]
  omega

theorem highWord_pair (hi lo : Word) : highWord (pair hi lo) = hi := by
  apply BitVec.eq_of_toNat_eq
  have := lo.isLt
  have := hi.isLt
  simp [highWord, pair_toNat, Nat.shiftRight_eq_div_pow]
  omega

theorem lowWord_setWidth (w : Word) : lowWord (w.setWidth 64) = w := by
  apply BitVec.eq_of_toNat_eq
  have := w.isLt
  simp [lowWord]

/-- The form of a pair gives its 64-bit value (R28, R30). -/
theorem formAt_pairForm {β : Type} (bl bh : β → Word) {lo hi : Rep β} {fm : Form} (h : pairForm lo hi = some fm)
    (c : Nat × Nat × Nat) : formAt fm c = pair (repAt bh hi c) (repAt bl lo c) := by
  unfold pairForm at h
  split at h
  · split at h
    · rename_i e
      simp only [Option.some.injEq] at h
      subst h e
      simp [formAt, repAt, pair_words]
    · simp at h
  · simp only [Option.some.injEq] at h; subst h; simp [formAt, repAt]
  · split at h
    · rename_i e
      simp only [Option.some.injEq] at h
      subst h e
      exact (pair_zero _).symm
    · simp at h
  · simp at h

/-- x of a coordinate is below 2^32 (R17). -/
theorem coordOf_lt (oneD : Bool) (x : Group) (p : Nat) : (coordOf oneD x p).1 < 2 ^ 32 := by
  unfold coordOf
  split <;> exact Nat.mod_lt _ (by decide)

/-- The ring that a group's item holds. -/
def ringOf (x : Group) (p : Nat) : List (Option LRep) := ((itemIn x p).map Item.ring).getD []

/-- The form of a source that reads no register gives the value that an item reads (R30, R73). -/
theorem plainForm_sound {oneD : Bool} {x : Group} {p : Nat} {ext : Word} {src : Src} {fm : Form} (hp : p < 2 ^ 32)
    (h : plainForm src ext (gposForm oneD x) = some fm) (n1 : ¬src.f.toNat < 112) (n2 : ¬src.f.toNat < 120)
    (n3 : src.f.toNat ≠ 124) : formAt fm (coordOf oneD x p) = srcAt oneD x p ext src := by
  unfold srcAt
  simp only [n1, n2, n3, if_false]
  have one (a : Nat) : BitVec.setWidth 64 (BitVec.ofNat 32 a) = BitVec.ofNat 64 (a % 2 ^ 32) := by
    apply BitVec.eq_of_toNat_eq; simp
  unfold plainForm at h
  split at h
  · rename_i e; rw [e]; simp only [Option.some.injEq] at h; subst h; rfl
  · rename_i e; rw [e]; simp only [Option.some.injEq] at h; subst h; simp [formAt, affAt, one]
  · rename_i e; rw [e]; simp only [Option.some.injEq] at h; subst h; simp [formAt, affAt, one]
  · rename_i e; rw [e]; simp only [Option.some.injEq] at h; subst h; simp [formAt, affAt, one]
  · rename_i e; rw [e]; simp only [Option.some.injEq] at h; subst h; simp [formAt]
  · rename_i e; rw [e]
    unfold gposForm at h
    split at h
    · rename_i o
      simp only [Option.some.injEq] at h; subst h
      simp only [formAt, affAt, coordOf, o, if_true]
      apply BitVec.eq_of_toNat_eq
      simp
      omega
    · simp at h
  · simp at h

/-- The form of a source gives the value that an item with that ring reads (R28 to R30, R73). -/
theorem formOf_sound {oneD : Bool} {x : Group} {p : Nat} {ext : Word} {src : Src} {fm : Form} (hp : p < 2 ^ 32)
    (h : formOf x.v x.s (ringOf x p) (gposForm oneD x) src ext = some fm) :
    formAt fm (coordOf oneD x p) = srcAt oneD x p ext src := by
  unfold formOf at h
  by_cases n1 : src.f.toNat < 112
  · simp only [n1, if_true] at h
    unfold srcAt
    simp only [n1, if_true]
    split at h
    · rename_i w
      simp only [w, if_true]
      exact formAt_pairForm _ _ h _
    · rename_i w
      simp only [w]
      exact formAt_repForm _ h _
  · simp only [n1, if_false] at h
    by_cases n2 : src.f.toNat < 120
    · simp only [n2, if_true] at h
      unfold srcAt
      simp only [n1, if_false, n2, if_true]
      unfold ringOf at h
      split at h
      · rename_i e he
        exact formAt_repForm _ h _
      · simp at h
    · simp only [n2, if_false] at h
      by_cases n3 : src.f.toNat = 124
      · simp only [n3, if_true, Option.some.injEq] at h
        unfold srcAt
        rw [← h]
        simp only [n3]
        rfl
      · simp only [n3, if_false] at h
        exact plainForm_sound hp h n1 n2 n3

/-- The ring matters only where a source names a latch. -/
theorem formOf_ring (v : Tbl VRep) (sc : Tbl Word) (r q : List (Option LRep)) (g : Option Form) (src : Src) (ext : Word)
    (h : isLatch src.f = true → nth r (src.f.toNat - 112) none = nth q (src.f.toNat - 112) none) :
    formOf v sc r g src ext = formOf v sc q g src ext := by
  unfold formOf
  by_cases n1 : src.f.toNat < 112
  · simp [n1]
  · by_cases n2 : src.f.toNat < 120
    · have : isLatch src.f = true := by simp [isLatch, n2]; omega
      simp [n1, n2, h this]
    · simp [n1, n2]

/-- The form of a source in a home group gives the value that each issuing item reads (R30). -/
theorem groupForm_sound {oneD : Bool} {x : Group} {ps : List Nat} {p : Nat} {ext : Word} {src : Src} {fm : Form}
    (h : groupForm oneD x ps ext src = some fm) (hp : p ∈ ps) (lt : p < 2 ^ 32) :
    formAt fm (coordOf oneD x p) = srcAt oneD x p ext src := by
  unfold groupForm at h
  simp only at h
  cases ps with
  | nil => simp at hp
  | cons q rest =>
    simp only [List.map_cons] at h
    split at h
    · simp at h
    · rename_i c
      apply formOf_sound lt
      rw [← h]
      apply formOf_ring
      intro l
      simp only [l, Bool.true_and, Bool.not_eq_true', Bool.not_eq_false, List.all_eq_true, List.mem_map,
        forall_exists_index, and_imp, forall_apply_eq_imp_iff₂, decide_eq_true_eq] at c
      rcases List.mem_cons.1 hp with e | e
      · subst e; rfl
      · exact c p e

/-- A point of a box. -/
def inBox (b : Box) (c : Nat × Nat × Nat) : Prop :=
  (b.ox ≤ c.1 ∧ c.1 < b.ox + b.ex) ∧ (b.oy ≤ c.2.1 ∧ c.2.1 < b.oy + b.ey) ∧ (b.oz ≤ c.2.2 ∧ c.2.2 < b.oz + b.ez)

theorem foldl_min_le {γ : Type} (f : γ → Nat × Nat × Nat) (l : List γ) (a : Nat × Nat × Nat) :
    let m := l.foldl (fun a b => (min a.1 (f b).1, min a.2.1 (f b).2.1, min a.2.2 (f b).2.2)) a
    (m.1 ≤ a.1 ∧ m.2.1 ≤ a.2.1 ∧ m.2.2 ≤ a.2.2) ∧ ∀ b ∈ l, m.1 ≤ (f b).1 ∧ m.2.1 ≤ (f b).2.1 ∧ m.2.2 ≤ (f b).2.2 := by
  induction l generalizing a with
  | nil => simp
  | cons x r ih =>
    have h := ih (min a.1 (f x).1, min a.2.1 (f x).2.1, min a.2.2 (f x).2.2)
    simp only [List.foldl_cons, List.mem_cons, forall_eq_or_imp] at h ⊢
    obtain ⟨⟨h1, h2, h3⟩, h4⟩ := h
    simp only [le_min_iff] at h1 h2 h3
    exact ⟨⟨h1.1, h2.1, h3.1⟩, ⟨h1.2, h2.2, h3.2⟩, h4⟩

theorem le_foldl_max {γ : Type} (f : γ → Nat × Nat × Nat) (l : List γ) (a : Nat × Nat × Nat) :
    let m := l.foldl (fun a b => (max a.1 (f b).1, max a.2.1 (f b).2.1, max a.2.2 (f b).2.2)) a
    (a.1 ≤ m.1 ∧ a.2.1 ≤ m.2.1 ∧ a.2.2 ≤ m.2.2) ∧ ∀ b ∈ l, (f b).1 ≤ m.1 ∧ (f b).2.1 ≤ m.2.1 ∧ (f b).2.2 ≤ m.2.2 := by
  induction l generalizing a with
  | nil => simp
  | cons x r ih =>
    have h := ih (max a.1 (f x).1, max a.2.1 (f x).2.1, max a.2.2 (f x).2.2)
    simp only [List.foldl_cons, List.mem_cons, forall_eq_or_imp] at h ⊢
    obtain ⟨⟨h1, h2, h3⟩, h4⟩ := h
    simp only [max_le_iff] at h1 h2 h3
    exact ⟨⟨h1.1, h2.1, h3.1⟩, ⟨h1.2, h2.2, h3.2⟩, h4⟩

/-- The box of the live real items holds each of them (R30). -/
theorem mem_liveBox {oneD : Bool} {x : Group} {p : Nat} (h : p ∈ realPos x) : inBox (liveBox oneD x) (coordOf oneD x p) := by
  unfold liveBox
  have hm : coordOf oneD x p ∈ (realPos x).map (coordOf oneD x) := List.mem_map_of_mem h
  revert hm
  generalize (realPos x).map (coordOf oneD x) = cs
  intro hm
  cases cs with
  | nil => simp at hm
  | cons c r =>
    obtain ⟨⟨l1, l2, l3⟩, l4⟩ := foldl_min_le id r c
    obtain ⟨⟨g1, g2, g3⟩, g4⟩ := le_foldl_max id r c
    simp only [id] at l1 l2 l3 l4 g1 g2 g3 g4
    simp only [inBox]
    rcases List.mem_cons.1 hm with e | e
    · rw [e]; omega
    · obtain ⟨a1, a2, a3⟩ := l4 _ e
      obtain ⟨b1, b2, b3⟩ := g4 _ e
      omega

end Sys2Proof.Machine
end

