-- ==== Sys2Proof/Laws/Results.lean ====
section
/-!
SUPPORT. The closed form of a register instruction's result is exact (R30): at each real item it gives the words that the
value function gives from the item's operands.
-/
namespace Sys2Proof.Machine

/-- The exact value of a 32-bit form with coefficients read by `rd`. -/
def intAt (rd : Word → Int) (f : Aff) (c : Nat × Nat × Nat) : Int :=
  rd f.c + rd f.dx * c.1 + rd f.dy * c.2.1 + rd f.dz * c.2.2

theorem axis_bounds (d : Int) (o e t : Nat) (l : o ≤ t) (u : t < o + e) :
    min (d * o) (d * ((o + e - 1 : Nat) : Int)) ≤ d * t ∧ d * t ≤ max (d * o) (d * ((o + e - 1 : Nat) : Int)) := by
  have h1 : (o : Int) ≤ t := by exact_mod_cast l
  have h2 : (t : Int) ≤ ((o + e - 1 : Nat) : Int) := by exact_mod_cast (by omega : t ≤ o + e - 1)
  rcases le_total 0 d with h | h
  · exact ⟨le_trans (min_le_left _ _) (mul_le_mul_of_nonneg_left h1 h), le_trans (mul_le_mul_of_nonneg_left h2 h) (le_max_right _ _)⟩
  · exact ⟨le_trans (min_le_right _ _) (mul_le_mul_of_nonpos_left h2 h), le_trans (mul_le_mul_of_nonpos_left h1 h) (le_max_left _ _)⟩

/-- The exact value at a point of the box lies in the range over the box (R30). -/
theorem affRange_bounds (rd : Word → Int) {b : Box} {c : Nat × Nat × Nat} (f : Aff) (h : inBox b c) :
    (affRange rd b f).1 ≤ intAt rd f c ∧ intAt rd f c ≤ (affRange rd b f).2 := by
  obtain ⟨⟨x1, x2⟩, ⟨y1, y2⟩, ⟨z1, z2⟩⟩ := h
  have hx := axis_bounds (rd f.dx) _ _ _ x1 x2
  have hy := axis_bounds (rd f.dy) _ _ _ y1 y2
  have hz := axis_bounds (rd f.dz) _ _ _ z1 z2
  simp only [affRange, intAt]
  omega

theorem word_ofInt (w : Word) : BitVec.ofInt 32 w.toInt = w := BitVec.ofInt_toInt
theorem word_ofNat_int (w : Word) : BitVec.ofInt 32 (w.toNat : Int) = w := by
  rw [BitVec.ofInt_natCast, BitVec.ofNat_toNat, BitVec.setWidth_eq]

/-- A 32-bit form is its exact value narrowed, with the coefficients read as unsigned (R12, R28). -/
theorem affAt_unsigned (f : Aff) (c : Nat × Nat × Nat) :
    affAt f c = BitVec.ofInt 32 (intAt (fun w => (w.toNat : Int)) f c) := by
  simp only [affAt, intAt, BitVec.ofInt_add, BitVec.ofInt_mul, BitVec.ofInt_natCast, BitVec.ofNat_toNat, BitVec.setWidth_eq]
/-- The same with the coefficients read as signed. -/
theorem affAt_signed (f : Aff) (c : Nat × Nat × Nat) : affAt f c = BitVec.ofInt 32 (intAt (fun w => w.toInt) f c) := by
  simp only [affAt, intAt, BitVec.ofInt_add, BitVec.ofInt_mul, word_ofInt, BitVec.ofInt_natCast]

theorem zext_ofInt (w : Word) : w.setWidth 64 = BitVec.ofInt 64 (w.toNat : Int) := by
  rw [BitVec.ofInt_natCast]; apply BitVec.eq_of_toNat_eq; simp

theorem sext_ofInt (w : Word) : w.signExtend 64 = BitVec.ofInt 64 w.toInt := rfl

/-- Zero-extension of a 32-bit form whose exact value fits (R30, R105). -/
theorem zextForm_sound {b : Box} {fm : Form} {g : Aff64} {c : Nat × Nat × Nat} (h : zextForm b fm = some g)
    (hc : inBox b c) : aff64At g c = formAt fm c := by
  cases fm with
  | const v => simp only [zextForm, Option.some.injEq] at h; subst h; simp [aff64At, formAt]
  | wide f => simp only [zextForm, Option.some.injEq] at h; subst h; rfl
  | aff f =>
    simp only [zextForm] at h
    split at h
    · rename_i r
      simp only [Option.some.injEq] at h
      subst h
      obtain ⟨l, u⟩ := affRange_bounds (fun w => (w.toNat : Int)) f hc
      have e : 0 ≤ intAt (fun w => (w.toNat : Int)) f c ∧ intAt (fun w => (w.toNat : Int)) f c < 2 ^ 32 := by omega
      have k : aff64At ⟨f.c.setWidth 64, f.dx.setWidth 64, f.dy.setWidth 64, f.dz.setWidth 64⟩ c =
          BitVec.ofInt 64 (intAt (fun w => (w.toNat : Int)) f c) := by
        simp only [aff64At, intAt, zext_ofInt, BitVec.ofInt_add, BitVec.ofInt_mul, BitVec.ofInt_natCast]
      rw [k, formAt, affAt_unsigned]
      apply BitVec.eq_of_toNat_eq
      simp only [BitVec.toNat_setWidth, BitVec.toNat_ofInt]
      omega
    · simp at h

/-- Sign-extension of a 32-bit form whose exact value fits (R30). -/
theorem sextForm_sound {b : Box} {fm : Form} {g : Aff64} {c : Nat × Nat × Nat} (h : sextForm b fm = some g)
    (hc : inBox b c) : aff64At g c = (lowWord (formAt fm c)).signExtend 64 := by
  cases fm with
  | const v => simp [sextForm] at h
  | wide f => simp [sextForm] at h
  | aff f =>
    simp only [sextForm] at h
    split at h
    · rename_i r
      simp only [Option.some.injEq] at h
      subst h
      obtain ⟨l, u⟩ := affRange_bounds (fun w => w.toInt) f hc
      have e : -2 ^ 31 ≤ intAt (fun w => w.toInt) f c ∧ intAt (fun w => w.toInt) f c < 2 ^ 31 := by omega
      have k : aff64At ⟨f.c.signExtend 64, f.dx.signExtend 64, f.dy.signExtend 64, f.dz.signExtend 64⟩ c =
          BitVec.ofInt 64 (intAt (fun w => w.toInt) f c) := by
        simp only [aff64At, intAt, sext_ofInt, BitVec.ofInt_add, BitVec.ofInt_mul, BitVec.ofInt_natCast]
      rw [k, formAt, lowWord_setWidth, affAt_signed, sext_ofInt, BitVec.toInt_ofInt]
      congr 1
      rw [Int.bmod_eq_of_le] <;> omega
    · simp at h

/-- What a register instruction's closed form must be for its value function (R30): exact at every point of the box, with no
flags. -/
def OpSpec.FormExact (o : OpSpec) : Prop :=
  ∀ b fs fm c, o.form b fs = some fm → inBox b c →
    o.split (formAt fm c) = o.split (o.f (fs.map (fun g => formAt g c))).1 ∧ (o.f (fs.map (fun g => formAt g c))).2 = 0

theorem formExact_of_none {o : OpSpec} (h : o.form = fun _ _ => none) : o.FormExact := by
  intro b fs fm c e
  rw [h] at e
  simp at e

theorem affAt_zip_add (a b : Aff) (c : Nat × Nat × Nat) : affAt (zipAff (· + ·) a b) c = affAt a c + affAt b c := by
  simp only [affAt, zipAff]; ring
theorem affAt_zip_sub (a b : Aff) (c : Nat × Nat × Nat) : affAt (zipAff (· - ·) a b) c = affAt a c - affAt b c := by
  simp only [affAt, zipAff]; ring
theorem affAt_map_mul (a : Aff) (k : Word) (c : Nat × Nat × Nat) : affAt (mapAff (· * k) a) c = affAt a c * k := by
  simp only [affAt, mapAff]; ring

/-- The form of a 32-bit source as an affine form gives its low word. -/
theorem asAff_sound {fm : Form} {f : Aff} (h : asAff fm = some f) (c : Nat × Nat × Nat) : affAt f c = lowWord (formAt fm c) := by
  cases fm with
  | const v => simp only [asAff, Option.some.injEq] at h; subst h; simp [affAt, formAt]
  | aff g => simp only [asAff, Option.some.injEq] at h; subst h; simp [formAt, lowWord_setWidth]
  | wide g => simp [asAff] at h

theorem sumForm_sound (f : Word → Word → Word) (hz : ∀ a b c, affAt (zipAff f a b) c = f (affAt a c) (affAt b c))
    {b : Box} {p q : Form} {fm : Form} (h : sumForm f b [p, q] = some fm) (c : Nat × Nat × Nat) :
    lowWord (formAt fm c) = f (lowWord (formAt p c)) (lowWord (formAt q c)) := by
  simp only [sumForm] at h
  split at h
  · rename_i x y hx hy
    simp only [Option.some.injEq] at h
    subst h
    rw [formAt, lowWord_setWidth, hz, asAff_sound hx, asAff_sound hy]
  · simp at h

theorem sumForm_pair {f : Word → Word → Word} {b : Box} {fs : List Form} {fm : Form} (h : sumForm f b fs = some fm) :
    ∃ p q, fs = [p, q] := by
  unfold sumForm at h
  split at h
  · exact ⟨_, _, rfl⟩
  · simp at h

theorem shiftLeft_mul (a : Word) (n : Nat) : a <<< n = a * BitVec.ofNat 32 (2 ^ n) := by
  apply BitVec.eq_of_toNat_eq
  simp [Nat.shiftLeft_eq]

theorem shlForm_sound {b : Box} {p q : Form} {fm : Form} (h : shlForm b [p, q] = some fm) (c : Nat × Nat × Nat) :
    lowWord (formAt fm c) = lowWord (formAt p c) <<< ((lowWord (formAt q c)).toNat % 32) := by
  unfold shlForm at h
  split at h
  · rename_i a k e
    simp only [List.cons.injEq, and_true] at e
    simp only [Option.some.injEq] at h
    obtain ⟨rfl, rfl⟩ := e
    subst h
    have hk : (lowWord k).toNat % 32 = k.toNat % 32 := by simp [lowWord]
    simp only [formAt, lowWord_setWidth, hk]
    rw [show (fun x : Word => x <<< (k.toNat % 32)) = (· * BitVec.ofNat 32 (2 ^ (k.toNat % 32))) from
      funext fun x => shiftLeft_mul x _, affAt_map_mul, shiftLeft_mul]
  · simp at h

theorem shlForm_pair {b : Box} {fs : List Form} {fm : Form} (h : shlForm b fs = some fm) : ∃ p q, fs = [p, q] := by
  unfold shlForm at h
  split at h
  · exact ⟨_, _, rfl⟩
  · simp at h

theorem split_narrow {o : OpSpec} (h : o.wide = false) (v : DWord) : o.split v = [lowWord v] := by
  simp [OpSpec.split, h]
theorem split_wide {o : OpSpec} (h : o.wide = true) (v : DWord) : o.split v = [lowWord v, highWord v] := by
  simp [OpSpec.split, h]

theorem specAdd_exact (o : RegOp) : (specAdd o).FormExact := by
  intro b fs fm c h _
  obtain ⟨p, q, rfl⟩ := sumForm_pair (b := b) h
  have k := sumForm_sound (b := b) _ affAt_zip_add h c
  exact ⟨by rw [split_narrow rfl, split_narrow rfl, k]; simp [specAdd, binSpec, on2, lowWord_setWidth], rfl⟩

theorem specSub_exact (o : RegOp) : (specSub o).FormExact := by
  intro b fs fm c h _
  obtain ⟨p, q, rfl⟩ := sumForm_pair (b := b) h
  have k := sumForm_sound (b := b) _ affAt_zip_sub h c
  exact ⟨by rw [split_narrow rfl, split_narrow rfl, k]; simp [specSub, binSpec, on2, lowWord_setWidth], rfl⟩

theorem specMul_exact (o : RegOp) : (specMul o).FormExact := by
  intro b fs fm c h _
  simp only [specMul] at h
  unfold mulForm at h
  split at h
  · simp only [Option.some.injEq] at h
    subst h
    refine ⟨?_, rfl⟩
    rw [split_narrow rfl, split_narrow rfl]
    simp [specMul, binSpec, on2, formAt, lowWord_setWidth, affAt_map_mul]
  · simp only [Option.some.injEq] at h
    subst h
    refine ⟨?_, rfl⟩
    rw [split_narrow rfl, split_narrow rfl]
    simp [specMul, binSpec, on2, formAt, lowWord_setWidth, affAt_map_mul, mul_comm]
  · simp at h

theorem specShl_exact (o : RegOp) : (specShl o).FormExact := by
  intro b fs fm c h _
  obtain ⟨p, q, rfl⟩ := shlForm_pair (b := b) h
  have k := shlForm_sound (b := b) h c
  exact ⟨by rw [split_narrow rfl, split_narrow rfl, k]; simp [specShl, binSpec, on2, lowWord_setWidth], rfl⟩

theorem specMov_exact (o : UnOp) : (specMov o).FormExact := by
  intro b fs fm c h _
  simp only [specMov] at h
  unfold sameForm at h
  split at h
  · simp only [Option.some.injEq] at h
    subst h
    refine ⟨?_, rfl⟩
    rw [split_narrow rfl, split_narrow rfl]
    simp [specMov, unSpec, on1, lowWord_setWidth]
  · simp at h

theorem specAddi_exact (o : ImmOp) : (specAddi o).FormExact := by
  intro b fs fm c h _
  obtain ⟨p, q, e⟩ := sumForm_pair (b := b) h
  obtain ⟨a, rfl⟩ := List.length_eq_one_iff.1 (show fs.length = 1 by simpa using congrArg List.length e)
  have k := sumForm_sound (b := b) _ affAt_zip_add h c
  refine ⟨?_, rfl⟩
  rw [split_narrow rfl, split_narrow rfl, k]
  simp [specAddi, immSpec, on1, lowWord_setWidth, formAt]

theorem specShli_exact (o : ImmOp) (l : o.imm.toNat < 32) : (specShli o).FormExact := by
  intro b fs fm c h _
  obtain ⟨p, q, e⟩ := shlForm_pair (b := b) h
  obtain ⟨a, rfl⟩ := List.length_eq_one_iff.1 (show fs.length = 1 by simpa using congrArg List.length e)
  have k := shlForm_sound (b := b) h c
  refine ⟨?_, rfl⟩
  rw [split_narrow rfl, split_narrow rfl, k]
  have e2 : (lowWord (formAt (Form.const (BitVec.setWidth 64 o.imm)) c)).toNat % 32 = o.imm.toNat := by
    simp [formAt, lowWord]; omega
  rw [e2]
  simp [specShli, immSpec, on1, lowWord_setWidth]

theorem aff64_add (a b : Aff64) (c : Nat × Nat × Nat) :
    aff64At ⟨a.c + b.c, a.dx + b.dx, a.dy + b.dy, a.dz + b.dz⟩ c = aff64At a c + aff64At b c := by
  simp only [aff64At]; ring
theorem aff64_sub (a b : Aff64) (c : Nat × Nat × Nat) :
    aff64At ⟨a.c - b.c, a.dx - b.dx, a.dy - b.dy, a.dz - b.dz⟩ c = aff64At a c - aff64At b c := by
  simp only [aff64At]; ring

theorem wideSum_sound (f : DWord → DWord → DWord)
    (hf : ∀ a b c, aff64At ⟨f a.c b.c, f a.dx b.dx, f a.dy b.dy, f a.dz b.dz⟩ c = f (aff64At a c) (aff64At b c))
    {b : Box} {fs : List Form} {fm : Form} {c : Nat × Nat × Nat} (h : wideSum f b fs = some fm) (hc : inBox b c) :
    ∃ p q, fs = [p, q] ∧ formAt fm c = f (formAt p c) (formAt q c) := by
  unfold wideSum at h
  split at h
  · split at h
    · rename_i p q hp hq
      simp only [Option.some.injEq] at h
      subst h
      exact ⟨_, _, rfl, by rw [formAt, hf, zextForm_sound hp hc, zextForm_sound hq hc]⟩
    · simp at h
  · simp at h

theorem specAdd64_exact (o : RegOp) : (specAdd64 o).FormExact := by
  intro b fs fm c h hc
  obtain ⟨p, q, rfl, k⟩ := wideSum_sound _ aff64_add h hc
  exact ⟨by rw [k]; rfl, rfl⟩
theorem specSub64_exact (o : RegOp) : (specSub64 o).FormExact := by
  intro b fs fm c h hc
  obtain ⟨p, q, rfl, k⟩ := wideSum_sound _ aff64_sub h hc
  exact ⟨by rw [k]; rfl, rfl⟩
theorem specLea_exact (o : RegOp) : (specLea o).FormExact := by
  intro b fs fm c h hc
  obtain ⟨p, q, rfl, k⟩ := wideSum_sound _ aff64_add h hc
  exact ⟨by rw [k]; rfl, rfl⟩
theorem specCvt64_exact (o : RegOp) : (specCvt64 o).FormExact := by
  intro b fs fm c h hc
  simp only [specCvt64] at h
  split at h
  · rename_i x hk
    obtain ⟨g, hg, rfl⟩ := Option.map_eq_some_iff.1 h
    refine ⟨?_, rfl⟩
    rw [formAt, zextForm_sound hg hc]
    simp [specCvt64, hk]
  · rename_i x hk
    obtain ⟨g, hg, rfl⟩ := Option.map_eq_some_iff.1 h
    refine ⟨?_, rfl⟩
    rw [formAt, sextForm_sound hg hc]
    simp [specCvt64, hk]
  · simp at h

end Sys2Proof.Machine
end

