-- ==== Sys2Proof/Laws/Tables.lean ====
section
/-!
SUPPORT. What a table answers after a write, a removal or a change of every entry.
-/
namespace Sys2Proof.Machine

variable {α : Type}

@[simp] theorem tfind_nil (i : Nat) : tfind ([] : Tbl α) i = none := rfl

@[simp] theorem tfind_tput_same (t : Tbl α) (i : Nat) (x : α) : tfind (tput t i x) i = some x := by
  induction t with
  | nil => simp [tput, tfind]
  | cons e r ih =>
    obtain ⟨k, y⟩ := e
    by_cases h : k = i
    · simp [tput, tfind, h]
    · by_cases l : i < k
      · simp [tput, tfind, h, l]
      · simp [tput, tfind, h, l, ih]

@[simp] theorem tfind_tput_ne (t : Tbl α) {i j : Nat} (x : α) (h : i ≠ j) : tfind (tput t i x) j = tfind t j := by
  induction t with
  | nil => simp [tput, tfind, h]
  | cons e r ih =>
    obtain ⟨k, y⟩ := e
    by_cases hk : k = i
    · subst hk; simp [tput, tfind, h]
    · by_cases l : i < k
      · simp only [tput, hk, l, if_false, if_true, tfind, h]
        by_cases m : j < i
        · have : k ≠ j := by omega
          have : j < k := by omega
          simp_all
        · simp [m]
      · simp only [tput, hk, l, if_false, tfind, ih]

@[simp] theorem tget_tput_same (t : Tbl α) (i : Nat) (x d : α) : tget (tput t i x) i d = x := by simp [tget]

@[simp] theorem tget_tput_ne (t : Tbl α) {i j : Nat} (x d : α) (h : i ≠ j) : tget (tput t i x) j d = tget t j d := by
  simp [tget, h]

theorem tfind_tput (t : Tbl α) (i j : Nat) (x : α) : tfind (tput t i x) j = if i = j then some x else tfind t j := by
  by_cases h : i = j
  · subst h; simp
  · simp [h]

theorem tget_tput (t : Tbl α) (i j : Nat) (x d : α) : tget (tput t i x) j d = if i = j then x else tget t j d := by
  by_cases h : i = j
  · subst h; simp
  · simp [h]

theorem tget_of_tfind {t : Tbl α} {i : Nat} {x : α} (d : α) (h : tfind t i = some x) : tget t i d = x := by simp [tget, h]

theorem tfind_tmap (f : Nat → α → α) (t : Tbl α) (i : Nat) : tfind (tmap f t) i = (tfind t i).map (f i) := by
  induction t with
  | nil => rfl
  | cons e r ih =>
    obtain ⟨k, y⟩ := e
    simp only [tmap, List.map_cons] at ih ⊢
    simp only [tfind]
    by_cases h : k = i
    · subst h; simp
    · by_cases l : i < k
      · simp [h, l]
      · simp [h, l, ih]

@[simp] theorem tfind_tdel_same (t : Tbl α) (i : Nat) : tfind (tdel t i) i = none := by
  induction t with
  | nil => rfl
  | cons e r ih =>
    obtain ⟨k, y⟩ := e
    by_cases h : k = i
    · simpa [tdel, h] using ih
    · simp only [tdel, List.filter_cons, ne_eq, h, not_false_iff, decide_true, if_true, tfind, if_false] at ih ⊢
      split
      · rfl
      · exact ih

/-- A written table holds the written entry, and else only entries that it held. -/
theorem mem_tput {t : Tbl α} {i : Nat} {x : α} {e : Nat × α} (h : e ∈ tput t i x) : e = (i, x) ∨ e ∈ t := by
  induction t with
  | nil => simpa [tput] using h
  | cons a r ih =>
    obtain ⟨k, y⟩ := a
    unfold tput at h
    split at h
    · rcases List.mem_cons.1 h with h | h
      · exact .inl h
      · exact .inr (List.mem_cons_of_mem _ h)
    · split at h
      · rcases List.mem_cons.1 h with h | h
        · exact .inl h
        · exact .inr h
      · rcases List.mem_cons.1 h with h | h
        · exact .inr (by simp [h])
        · rcases ih h with h | h
          · exact .inl h
          · exact .inr (List.mem_cons_of_mem _ h)

/-- What a table answers is one of its entries. -/
theorem mem_of_tfind {t : Tbl α} {i : Nat} {x : α} (h : tfind t i = some x) : (i, x) ∈ t := by
  induction t with
  | nil => simp at h
  | cons a r ih =>
    obtain ⟨k, y⟩ := a
    unfold tfind at h
    split at h
    · simp_all
    · split at h
      · simp at h
      · exact List.mem_cons_of_mem _ (ih h)

end Sys2Proof.Machine
end

