-- ==== Sys2Proof/Laws/Registers.lean ====
section
/-!
SUPPORT. Registers of a home group: what a write gives and what it leaves alone, value by value (R25 to R31), and what a register
instruction does to one group.
-/
namespace Sys2Proof.Machine

theorem nth_nil {α : Type} (i : Nat) (d : α) : nth [] i d = d := by cases i <;> rfl

theorem nth_setNth {α : Type} (l : List α) (i j : Nat) (d x : α) :
    nth (setNth l i d x) j d = if i = j then x else nth l j d := by
  induction i generalizing l j with
  | zero => cases l <;> cases j <;> simp [setNth, nth]
  | succ i ih =>
    cases l with
    | nil =>
      cases j with
      | zero => simp [setNth, nth]
      | succ j => simp only [setNth, nth, ih]; simp
    | cons y r => cases j <;> simp [setNth, nth, ih]

theorem nth_upTo_map {α : Type} (f : Nat → α) (a n j : Nat) (d : α) (h : j < n) : nth ((upTo a n).map f) j d = f (a + j) := by
  induction n generalizing a j with
  | zero => omega
  | succ n ih =>
    cases j with
    | zero => rfl
    | succ j =>
      simp only [upTo, List.map_cons, nth]
      rw [ih (a + 1) j (by omega)]
      congr 1; omega

theorem mem_upTo {a n k : Nat} : k ∈ upTo a n ↔ a ≤ k ∧ k < a + n := by
  induction n generalizing a with
  | zero => simp [upTo]
  | succ n ih => simp only [upTo, List.mem_cons, ih]; omega

/-- The words written to a home position by a list of writes, the last one counting. -/
def lastAt (ws : List (Nat × Word)) (q : Nat) (d : Word) : Word := ws.foldl (fun a w => if w.1 = q then w.2 else a) d

theorem nth_foldl_setNth (ws : List (Nat × Word)) (l : List Word) (q : Nat) :
    nth (ws.foldl (fun l (w : Nat × Word) => setNth l w.1 0 w.2) l) q 0 = lastAt ws q (nth l q 0) := by
  induction ws generalizing l with
  | nil => rfl
  | cons w r ih => simp only [List.foldl_cons, ih, lastAt, nth_setNth]

theorem lastAt_of_not_mem {ws : List (Nat × Word)} {q : Nat} (h : ∀ w ∈ ws, w.1 ≠ q) (d : Word) : lastAt ws q d = d := by
  induction ws generalizing d with
  | nil => rfl
  | cons w r ih =>
    simp only [lastAt, List.foldl_cons, h w (by simp), if_false] at ih ⊢
    exact ih (fun x hx => h x (by simp [hx])) d

theorem lastAt_map {ps : List Nat} (f : Nat → Word) {q : Nat} (h : q ∈ ps) (d : Word) :
    lastAt (ps.map (fun p => (p, f p))) q d = f q := by
  induction ps generalizing d with
  | nil => simp at h
  | cons p r ih =>
    simp only [lastAt, List.map_cons, List.foldl_cons] at ih ⊢
    by_cases hr : q ∈ r
    · exact ih hr _
    · have e : q = p := by simpa [hr] using h
      subst e
      simp only [if_true]
      exact lastAt_of_not_mem (by simp only [List.mem_map, forall_exists_index, and_imp]; rintro w a ha rfl rfl; exact hr ha) _

theorem nth_vWords (oneD : Bool) (x : Group) (r q : Nat) (h : q < 32) : nth (vWords oneD x r) q 0 = vAt oneD x r q := by
  unfold vWords
  rw [nth_upTo_map _ _ _ _ _ h, Nat.zero_add]

/-- The coordinates of a group's positions do not depend on its registers or items. -/
theorem coordOf_congr (oneD : Bool) (x y : Group) (p : Nat) (h1 : y.ox = x.ox) (h2 : y.oy = x.oy) (h3 : y.oz = x.oz) :
    coordOf oneD y p = coordOf oneD x p := by simp [coordOf, h1, h2, h3]

theorem vAt_congr {oneD : Bool} {x y : Group} {r q : Nat} (h : vRep y r = vRep x r) (h1 : y.ox = x.ox) (h2 : y.oy = x.oy)
    (h3 : y.oz = x.oz) : vAt oneD y r q = vAt oneD x r q := by
  simp [vAt, h, coordOf_congr oneD x y q h1 h2 h3]

/-- What every change of a register leaves alone in its group. -/
structure SameButV (x y : Group) : Prop where
  ox : y.ox = x.ox
  oy : y.oy = x.oy
  oz : y.oz = x.oz
  lane : y.lane = x.lane
  res : y.res = x.res
  c : y.c = x.c
  s : y.s = x.s
  status : y.status = x.status
  blocks : y.blocks = x.blocks
  items : y.items = x.items
  badS : y.badS = x.badS
  badL : y.badL = x.badL

theorem SameButV.trans {x y z : Group} (a : SameButV x y) (b : SameButV y z) : SameButV x z := by
  cases a; cases b; constructor <;> simp_all

theorem SameButV.refl (x : Group) : SameButV x x := by constructor <;> rfl

theorem breakPair_same (oneD : Bool) (x : Group) (r : Nat) : SameButV x (breakPair oneD x r) := by
  unfold breakPair
  split
  · constructor <;> rfl
  · split
    · constructor <;> rfl
    · exact .refl x
  · exact .refl x

/-- Breaking a pair keeps the word of every register at every home position (R29). -/
theorem vAt_breakPair (oneD : Bool) (x : Group) (r r' q : Nat) (hq : q < 32) :
    vAt oneD (breakPair oneD x r) r' q = vAt oneD x r' q := by
  unfold breakPair
  split
  · rename_i f h
    by_cases e : r + 1 = r'
    · subst e
      simp only [vAt, vRep, tget_tput_same, repAt]
      exact nth_vWords oneD x (r + 1) q hq
    · simp [vAt, vRep, e, coordOf]
  · rename_i f h
    split
    · rename_i h2
      by_cases e : r - 1 = r'
      · subst e
        simp only [vAt, vRep, tget_tput_same]
        rw [repAt_mkAffine, affAt_lowAff]
        simp only [vRep] at h2
        rw [h2]
        rfl
      · simp [vAt, vRep, e, coordOf]
    · rfl
  · rfl

theorem putV_same (oneD : Bool) (x : Group) (r : Nat) (rep : VRep) : SameButV x (putV oneD x r rep) :=
  (breakPair_same oneD x r).trans (by constructor <;> rfl)

theorem vRep_putV (oneD : Bool) (x : Group) (r : Nat) (rep : VRep) : vRep (putV oneD x r rep) r = rep := by
  simp [putV, vRep]

theorem vAt_putV (oneD : Bool) (x : Group) (r q : Nat) (rep : VRep) :
    vAt oneD (putV oneD x r rep) r q = repAt (fun b => nth b q 0) rep (coordOf oneD x q) := by
  have h := putV_same oneD x r rep
  rw [vAt, vRep_putV, coordOf_congr oneD x _ q h.ox h.oy h.oz]

theorem vAt_putV_ne (oneD : Bool) (x : Group) {r r' : Nat} (q : Nat) (rep : VRep) (n : r ≠ r') (hq : q < 32) :
    vAt oneD (putV oneD x r rep) r' q = vAt oneD x r' q := by
  rw [← vAt_breakPair oneD x r r' q hq]
  have h := putV_same oneD x r rep
  simp [vAt, putV, vRep, n, coordOf]

theorem putWords_same (oneD : Bool) (x : Group) (r : Nat) (ws : List (Nat × Word)) : SameButV x (putWords oneD x r ws) :=
  (breakPair_same oneD x r).trans (by constructor <;> rfl)

/-- Words written for some home positions: those positions get them, every other keeps its word (R31). -/
theorem vAt_putWords (oneD : Bool) (x : Group) (r q : Nat) (ws : List (Nat × Word)) (hq : q < 32) :
    vAt oneD (putWords oneD x r ws) r q = lastAt ws q (vAt oneD x r q) := by
  simp only [putWords, vAt, vRep, tget_tput_same, repAt, nth_foldl_setNth]
  congr 1
  exact nth_vWords oneD x r q hq

theorem vAt_putWords_ne (oneD : Bool) (x : Group) {r r' : Nat} (q : Nat) (ws : List (Nat × Word)) (n : r ≠ r') (hq : q < 32) :
    vAt oneD (putWords oneD x r ws) r' q = vAt oneD x r' q := by
  rw [← vAt_breakPair oneD x r r' q hq]
  simp [vAt, putWords, vRep, n, coordOf]

theorem putPair_same (oneD : Bool) (x : Group) (r : Nat) (lo hi : VRep) : SameButV x (putPair oneD x r lo hi) :=
  ((putV_same oneD x r lo).trans (putV_same oneD _ (r + 1) hi)).trans (by constructor <;> rfl)

theorem vAt_putPair_low (oneD : Bool) (x : Group) (r q : Nat) (lo hi : VRep) :
    vAt oneD (putPair oneD x r lo hi) r q = repAt (fun b => nth b q 0) lo (coordOf oneD x q) := by
  have h := putPair_same oneD x r lo hi
  rw [vAt, coordOf_congr oneD x _ q h.ox h.oy h.oz]
  simp [putPair, vRep]

theorem vAt_putPair_high (oneD : Bool) (x : Group) (r q : Nat) (lo hi : VRep) :
    vAt oneD (putPair oneD x r lo hi) (r + 1) q = repAt (fun b => nth b q 0) hi (coordOf oneD x q) := by
  have h := putPair_same oneD x r lo hi
  rw [vAt, coordOf_congr oneD x _ q h.ox h.oy h.oz]
  simp [putPair, vRep, putV]

theorem vAt_putPair_ne (oneD : Bool) (x : Group) {r r' : Nat} (q : Nat) (lo hi : VRep) (n : r ≠ r') (n2 : r + 1 ≠ r')
    (hq : q < 32) : vAt oneD (putPair oneD x r lo hi) r' q = vAt oneD x r' q := by
  rw [← vAt_putV_ne oneD x q lo n hq, ← vAt_putV_ne oneD (putV oneD x r lo) q hi n2 hq]
  simp [vAt, putPair, vRep, n, coordOf]

theorem formReps_length {β : Type} (wide : Bool) (fm : Form) :
    (formReps (β := β) wide fm).length = if wide then 2 else 1 := by
  cases fm <;> cases wide <;> rfl

/-- The representations of a form's words give the words of its value (R22, R28). -/
theorem formReps_narrow {β : Type} (body : β → Word) (fm : Form) (c : Nat × Nat × Nat) :
    (formReps (β := β) false fm).map (fun r => repAt body r c) = [lowWord (formAt fm c)] := by
  cases fm with
  | const v => rfl
  | aff f => simp [formReps, repAt_mkAffine, formAt, lowWord_setWidth]
  | wide f => simp [formReps, (repAt_mkAffine64 body f c).1, formAt]

theorem highWord_setWidth (w : Word) : highWord (w.setWidth 64) = 0 := by
  rw [← pair_zero, highWord_pair]

theorem formReps_wide {β : Type} (body : β → Word) (fm : Form) (c : Nat × Nat × Nat) :
    (formReps (β := β) true fm).map (fun r => repAt body r c) = [lowWord (formAt fm c), highWord (formAt fm c)] := by
  cases fm with
  | const v => rfl
  | aff f =>
    simp only [formReps, if_true, List.map_cons, List.map_nil, repAt_mkAffine, formAt, lowWord_setWidth, highWord_setWidth]
    rfl
  | wide f => simp [formReps, (repAt_mkAffine64 body f c).1, (repAt_mkAffine64 body f c).2, formAt]

theorem formReps_split {β : Type} (body : β → Word) (o : OpSpec) (fm : Form) (c : Nat × Nat × Nat) :
    (formReps (β := β) o.wide fm).map (fun r => repAt body r c) = o.split (formAt fm c) := by
  cases h : o.wide
  · rw [formReps_narrow, split_narrow h]
  · rw [formReps_wide, split_wide h]

/-- What a change of items and latches leaves alone in a group. -/
structure SameRegs (x y : Group) : Prop where
  ox : y.ox = x.ox
  oy : y.oy = x.oy
  oz : y.oz = x.oz
  lane : y.lane = x.lane
  res : y.res = x.res
  v : y.v = x.v
  c : y.c = x.c
  s : y.s = x.s
  status : y.status = x.status
  blocks : y.blocks = x.blocks
  badV : y.badV = x.badV
  badS : y.badS = x.badS

theorem SameRegs.trans {x y z : Group} (a : SameRegs x y) (b : SameRegs y z) : SameRegs x z := by
  cases a; cases b; constructor <;> simp_all
theorem SameRegs.refl (x : Group) : SameRegs x x := by constructor <;> rfl

theorem SameRegs.vAt {x y : Group} (h : SameRegs x y) (oneD : Bool) (r q : Nat) : vAt oneD y r q = Machine.vAt oneD x r q :=
  vAt_congr (by simp [vRep, h.v]) h.ox h.oy h.oz

theorem SameRegs.cAt {x y : Group} (h : SameRegs x y) (oneD : Bool) (n q : Nat) : cAt oneD y n q = Machine.cAt oneD x n q := by
  simp [Machine.cAt, h.c, coordOf_congr oneD x y q h.ox h.oy h.oz]

theorem groupSetItem_same (x : Group) (p : Nat) (t : Item) : SameRegs x (groupSetItem x p t) := by constructor <;> rfl

theorem pushLatch_same (x : Group) (p : Nat) (e : LRep) : SameRegs x (pushLatch x p e) := by
  unfold pushLatch
  split
  · exact .refl x
  · constructor <;> rfl

theorem foldl_same {γ : Type} (f : Group → γ → Group) (h : ∀ x a, SameRegs x (f x a)) (l : List γ) (x : Group) :
    SameRegs x (l.foldl f x) := by
  induction l generalizing x with
  | nil => exact .refl x
  | cons a r ih => exact (h x a).trans (ih (f x a))

theorem pushAll_same (x : Group) (ps : List Nat) (es : Nat → List LRep) : SameRegs x (pushAll x ps es) :=
  foldl_same _ (fun x p => foldl_same _ (fun x e => pushLatch_same x p e) (es p) x) ps x

theorem dropRing_same (x : Group) (p : Nat) : SameRegs x (dropRing x p) := by
  unfold dropRing
  split
  · exact .refl x
  · constructor <;> rfl

/-- The status word takes the flags, and nothing else changes (R26, R121). -/
theorem groupFlags_vAt (x : Group) (fl : Nat) (oneD : Bool) (r q : Nat) : vAt oneD (groupFlags x fl) r q = vAt oneD x r q := rfl

theorem putS_same (x : Group) (n : Nat) (w : Word) (oneD : Bool) (r q : Nat) : vAt oneD (putS x n w) r q = vAt oneD x r q := rfl

theorem allForms_map {γ : Type} {l : List γ} {g : γ → Option Form} {fs : List Form} (h : allForms (l.map g) = some fs)
    (c : Nat × Nat × Nat) (v : γ → DWord) (hv : ∀ a ∈ l, ∀ f, g a = some f → formAt f c = v a) :
    fs.map (fun f => formAt f c) = l.map v := by
  induction l generalizing fs with
  | nil => simp only [List.map_nil, allForms, Option.some.injEq] at h; subst h; rfl
  | cons a r ih =>
    simp only [List.map_cons] at h
    cases e : g a with
    | none => simp [e, allForms] at h
    | some f =>
      rw [e, allForms] at h
      obtain ⟨t, ht, rfl⟩ := Option.map_eq_some_iff.1 h
      simp [hv a (by simp) f e, ih ht (fun b hb => hv b (by simp [hb]))]

theorem constVals_map {fs : List Form} {vs : List DWord} (h : constVals fs = some vs) (c : Nat × Nat × Nat) :
    fs.map (fun f => formAt f c) = vs := by
  induction fs generalizing vs with
  | nil => simp only [constVals, Option.some.injEq] at h; subst h; rfl
  | cons f r ih =>
    cases f with
    | const v =>
      simp only [constVals] at h
      obtain ⟨t, ht, rfl⟩ := Option.map_eq_some_iff.1 h
      rw [List.map_cons, ih ht, formAt]
    | aff g => simp [constVals] at h
    | wide g => simp [constVals] at h

/-- The closed form of a result is exact at every real item that issues, flags included (R30). -/
theorem OpSpec.inGroup_sound {o : OpSpec} (hx : o.FormExact) {oneD : Bool} {x : Group} {ps : List Nat} {p : Nat} {fm : Form}
    {fl : Nat} (h : o.inGroup oneD x ps = some (fm, fl)) (hp : p ∈ ps) (lt : p < 2 ^ 32) (hr : p ∈ realPos x) :
    o.split (formAt fm (coordOf oneD x p)) = o.split (o.f (o.vals oneD x p)).1 ∧ fl = (o.f (o.vals oneD x p)).2 := by
  unfold OpSpec.inGroup OpSpec.closed at h
  split at h
  · simp at h
  · rename_i fs hfs
    have src := allForms_map hfs (coordOf oneD x p) (srcAt oneD x p o.ext) (fun a _ f e => groupForm_sound e hp lt)
    simp only at h
    cases hc : o.cIn with
    | none =>
      simp only [hc, Option.map_none] at h
      have vals : o.vals oneD x p = o.sources.map (srcAt oneD x p o.ext) := by simp [OpSpec.vals, hc]
      split at h
      · rename_i vs c hvs hcc
        simp only [Option.some.injEq] at hcc
        subst hcc
        simp only [Option.some.injEq, Prod.mk.injEq, List.append_nil] at h
        obtain ⟨rfl, rfl⟩ := h
        rw [vals, ← src, constVals_map hvs]
        exact ⟨rfl, rfl⟩
      · obtain ⟨g, hg, e⟩ := Option.map_eq_some_iff.1 h
        simp only [Prod.mk.injEq] at e
        obtain ⟨rfl, rfl⟩ := e
        rw [vals, ← src]
        have := hx _ _ _ _ hg (mem_liveBox hr)
        exact ⟨this.1, this.2.symm⟩
      · simp at h
    | some n =>
      simp only [hc, Option.map_some] at h
      cases e : cRep x.c n with
      | const b =>
        simp only [e] at h
        cases hv : constVals fs with
        | none => simp [hv] at h
        | some vs =>
          simp only [hv, Option.some.injEq, Prod.mk.injEq] at h
          obtain ⟨rfl, rfl⟩ := h
          have vals : o.vals oneD x p = vs ++ [bitVal b] := by
            simp [OpSpec.vals, hc, cAt, e, ← src, constVals_map hv]
          rw [vals]
          exact ⟨rfl, rfl⟩
      | pred f => simp [e] at h
      | body l => simp [e] at h

end Sys2Proof.Machine
end

