-- ==== Sys2Proof/Laws/Apply.lean ====
section
/-!
SUPPORT. What a register instruction does to one home group (R20, R25 to R32, R121): every word of the result at every real
item that acts, and every other register left alone.
-/
namespace Sys2Proof.Machine

/-- The words of a result written item by item (R31). -/
theorem putItemWords_eq (o : OpSpec) (oneD : Bool) (x : Group) (r : Nat) (ps : List Nat) (f : Nat → DWord) (h : ps ≠ []) :
    putItemWords oneD x r (ps.map (fun p => (p, o.split (f p)))) =
      if o.wide then putWords oneD (putWords oneD x r (ps.map (fun p => (p, lowWord (f p))))) (r + 1)
          (ps.map (fun p => (p, highWord (f p))))
      else putWords oneD x r (ps.map (fun p => (p, lowWord (f p)))) := by
  cases ps with
  | nil => exact absurd rfl h
  | cons a l =>
    cases w : o.wide
    · simp [putItemWords, OpSpec.split, w, upTo, nth, Function.comp_def]
    · simp [putItemWords, OpSpec.split, w, upTo, nth, Function.comp_def]

theorem upTo_words (o : OpSpec) (r : Nat) : upTo r o.words = if o.wide then [r, r + 1] else [r] := by
  cases w : o.wide <;> simp [OpSpec.words, w, upTo]

theorem putItemWords_value (o : OpSpec) (oneD : Bool) (x : Group) (r q : Nat) (ps : List Nat) (f : Nat → DWord)
    (h : q ∈ ps) (hq : q < 32) :
    (upTo r o.words).map (fun k => vAt oneD (putItemWords oneD x r (ps.map (fun p => (p, o.split (f p))))) k q) =
      o.split (f q) := by
  rw [putItemWords_eq o oneD x r ps f (List.ne_nil_of_mem h), upTo_words]
  cases w : o.wide
  · simp [vAt_putWords oneD _ _ _ _ hq, lastAt_map (fun p => lowWord (f p)) h, split_narrow w]
  · simp [vAt_putWords oneD _ _ _ _ hq, vAt_putWords_ne oneD _ q _ (show r + 1 ≠ r by omega) hq,
      lastAt_map (fun p => lowWord (f p)) h, lastAt_map (fun p => highWord (f p)) h, split_wide w]

theorem putItemWords_other (o : OpSpec) (oneD : Bool) (x : Group) (r q k : Nat) (ps : List Nat) (f : Nat → DWord)
    (hk : k ∉ upTo r o.words) (hq : q < 32) :
    vAt oneD (putItemWords oneD x r (ps.map (fun p => (p, o.split (f p))))) k q = vAt oneD x k q := by
  cases e : ps with
  | nil => simp [putItemWords, upTo]
  | cons a l =>
    rw [← e, putItemWords_eq o oneD x r ps f (by simp [e])]
    rw [upTo_words] at hk
    cases w : o.wide
    · simp only [w, Bool.false_eq_true, if_false, List.mem_singleton] at hk ⊢
      exact vAt_putWords_ne oneD x q _ (Ne.symm hk) hq
    · simp only [w, if_true, List.mem_cons, List.not_mem_nil, or_false, not_or] at hk ⊢
      rw [vAt_putWords_ne oneD _ q _ (Ne.symm hk.2) hq, vAt_putWords_ne oneD x q _ (Ne.symm hk.1) hq]

theorem putItemWords_idle (o : OpSpec) (oneD : Bool) (x : Group) (r q k : Nat) (ps : List Nat) (f : Nat → DWord)
    (h : q ∉ ps) (hq : q < 32) :
    vAt oneD (putItemWords oneD x r (ps.map (fun p => (p, o.split (f p))))) k q = vAt oneD x k q := by
  have idle (g : Nat → Word) (d : Word) : lastAt (ps.map (fun p => (p, g p))) q d = d :=
    lastAt_of_not_mem (by simp only [List.mem_map, forall_exists_index, and_imp]; rintro w a ha rfl rfl; exact h ha) d
  have one (y : Group) (r : Nat) (g : Nat → Word) :
      vAt oneD (putWords oneD y r (ps.map (fun p => (p, g p)))) k q = vAt oneD y k q := by
    by_cases e : r = k
    · subst e; rw [vAt_putWords oneD _ _ _ _ hq, idle]
    · exact vAt_putWords_ne oneD y q _ e hq
  cases e : ps with
  | nil => simp [putItemWords, upTo]
  | cons a l =>
    rw [← e, putItemWords_eq o oneD x r ps f (by simp [e])]
    cases o.wide
    · simp [one]
    · simp [one]

theorem putItemWords_same (o : OpSpec) (oneD : Bool) (x : Group) (r : Nat) (ps : List Nat) (f : Nat → DWord) :
    SameButV x (putItemWords oneD x r (ps.map (fun p => (p, o.split (f p))))) := by
  cases e : ps with
  | nil => simpa [putItemWords, upTo] using SameButV.refl x
  | cons a l =>
    rw [← e, putItemWords_eq o oneD x r ps f (by simp [e])]
    cases o.wide
    · exact putWords_same oneD x r _
    · exact (putWords_same oneD x r _).trans (putWords_same oneD _ (r + 1) _)

/-- A closed form written for the whole group. -/
theorem putForm_value (o : OpSpec) (oneD : Bool) (x : Group) (r q : Nat) (fm : Form) :
    (upTo r o.words).map (fun k => vAt oneD (putForm oneD x r (formReps o.wide fm)) k q) =
      o.split (formAt fm (coordOf oneD x q)) := by
  rw [← formReps_split (fun b : List Word => nth b q 0) o fm, upTo_words]
  have l := formReps_length (β := List Word) o.wide fm
  cases w : o.wide
  · rw [w] at l
    obtain ⟨a, e⟩ := List.length_eq_one_iff.1 l
    simp [e, putForm, vAt_putV]
  · rw [w] at l
    obtain ⟨a, b, e⟩ := List.length_eq_two.1 l
    simp [e, putForm, vAt_putPair_low, vAt_putPair_high]

theorem putForm_other (o : OpSpec) (oneD : Bool) (x : Group) (r q k : Nat) (fm : Form) (hk : k ∉ upTo r o.words)
    (hq : q < 32) : vAt oneD (putForm oneD x r (formReps o.wide fm)) k q = vAt oneD x k q := by
  have l := formReps_length (β := List Word) o.wide fm
  rw [upTo_words] at hk
  cases w : o.wide
  · rw [w] at l hk
    obtain ⟨a, e⟩ := List.length_eq_one_iff.1 l
    simp only [Bool.false_eq_true, if_false, List.mem_singleton] at hk
    rw [e]
    exact vAt_putV_ne oneD x q a (Ne.symm hk) hq
  · rw [w] at l hk
    obtain ⟨a, b, e⟩ := List.length_eq_two.1 l
    simp only [if_true, List.mem_cons, List.not_mem_nil, or_false, not_or] at hk
    rw [e]
    exact vAt_putPair_ne oneD x q a b (Ne.symm hk.1) (Ne.symm hk.2) hq

theorem putForm_same (oneD : Bool) (x : Group) (r : Nat) (l : List VRep) : SameButV x (putForm oneD x r l) := by
  unfold putForm
  split
  · exact putPair_same oneD x r _ _
  · exact putV_same oneD x r _
  · exact .refl x

/-- A member of a list of live positions holds an item. -/
theorem realPos_iff {x : Group} {p : Nat} : p ∈ realPos x ↔ ∃ t, (p, t) ∈ x.items ∧ t.helper = false := by
  simp [realPos]

/-- Every word of a register instruction's result at every real item that acts (R30, R31). -/
theorem OpSpec.apply_value {o : OpSpec} (hx : o.FormExact) {oneD : Bool} {x : Group} {ps : List Nat} {p : Nat}
    (hp : p ∈ ps) (lt : p < 32) (hr : p ∈ realPos x) (hd : isV o.d = true) :
    (upTo o.d.toNat o.words).map (fun k => vAt oneD (o.apply oneD x ps) k p) = o.split (o.f (o.vals oneD x p)).1 := by
  have pw : (ps.map (fun p => (p, o.f (o.vals oneD x p)))).map (fun q => (q.1, o.split q.2.1)) =
      ps.map (fun p => (p, o.split (o.f (o.vals oneD x p)).1)) := by simp
  unfold OpSpec.apply
  simp only [hd, if_true, pw]
  cases h : o.inGroup oneD x ps with
  | none =>
    simp only
    have key := putItemWords_value o oneD x o.d.toNat p ps (fun p => (o.f (o.vals oneD x p)).1) hp lt
    rw [← key]
    apply List.map_congr_left
    intro k _
    rw [groupFlags_vAt, (pushAll_same _ _ _).vAt]
  | some e =>
    obtain ⟨fm, fl⟩ := e
    have snd := OpSpec.inGroup_sound hx h hp (by omega) hr
    simp only
    have key : (upTo o.d.toNat o.words).map (fun k => vAt oneD
        (if wholeGroup x ps = true then putForm oneD x o.d.toNat (formReps o.wide fm)
          else putItemWords oneD x o.d.toNat (ps.map (fun p => (p, o.split (o.f (o.vals oneD x p)).1)))) k p) =
        o.split (o.f (o.vals oneD x p)).1 := by
      split
      · rw [putForm_value, snd.1]
      · exact putItemWords_value o oneD x o.d.toNat p ps (fun p => (o.f (o.vals oneD x p)).1) hp lt
    rw [← key]
    apply List.map_congr_left
    intro k _
    split
    · rw [groupFlags_vAt, (pushAll_same _ _ _).vAt]
    · rw [(pushAll_same _ _ _).vAt]

/-- Any register word that a group-level effect leaves alone. -/
theorem OpSpec.apply_reduce (o : OpSpec) (oneD : Bool) (x : Group) (ps : List Nat) (r q : Nat) :
    vAt oneD (o.apply oneD x ps) r q = vAt oneD x r q ∨ (isV o.d = true ∧
      (vAt oneD (o.apply oneD x ps) r q =
          vAt oneD (putItemWords oneD x o.d.toNat (ps.map (fun p => (p, o.split (o.f (o.vals oneD x p)).1)))) r q ∨
        (wholeGroup x ps = true ∧ ∃ fm,
          vAt oneD (o.apply oneD x ps) r q = vAt oneD (putForm oneD x o.d.toNat (formReps o.wide fm)) r q))) := by
  have pw : (ps.map (fun p => (p, o.f (o.vals oneD x p)))).map (fun q => (q.1, o.split q.2.1)) =
      ps.map (fun p => (p, o.split (o.f (o.vals oneD x p)).1)) := by simp
  unfold OpSpec.apply
  simp only [pw]
  cases h : o.inGroup oneD x ps with
  | none =>
    simp only
    rw [groupFlags_vAt, (pushAll_same _ _ _).vAt]
    split
    · exact .inr ⟨‹_›, .inl rfl⟩
    · left
      split
      · split <;> rfl
      · rfl
  | some e =>
    obtain ⟨fm, fl⟩ := e
    simp only
    have hf (y : Group) (b : Bool) : vAt oneD (if b = true then groupFlags y fl else y) r q = vAt oneD y r q := by
      cases b <;> rfl
    rw [hf, (pushAll_same _ _ _).vAt]
    split
    · right
      refine ⟨‹_›, ?_⟩
      split
      · exact .inr ⟨‹_›, fm, rfl⟩
      · exact .inl rfl
    · left
      split
      · split <;> rfl
      · rfl

/-- Registers that are not the destination keep their words (R22, R31). -/
theorem OpSpec.apply_other (o : OpSpec) (oneD : Bool) (x : Group) (ps : List Nat) (r q : Nat) (hq : q < 32)
    (h : isV o.d = true → r ∉ upTo o.d.toNat o.words) : vAt oneD (o.apply oneD x ps) r q = vAt oneD x r q := by
  rcases o.apply_reduce oneD x ps r q with e | ⟨d, e | ⟨_, fm, e⟩⟩
  · exact e
  · rw [e]; exact putItemWords_other o oneD x _ _ _ _ _ (h d) hq
  · rw [e]; exact putForm_other o oneD x _ _ _ _ (h d) hq

/-- A live item that does not act keeps every register word (R31). -/
theorem OpSpec.apply_idle (o : OpSpec) (oneD : Bool) (x : Group) (ps : List Nat) (r q : Nat) (hq : q < 32)
    (live : q ∈ livePos x) (h : q ∉ ps) : vAt oneD (o.apply oneD x ps) r q = vAt oneD x r q := by
  rcases o.apply_reduce oneD x ps r q with e | ⟨_, e | ⟨w, fm, _⟩⟩
  · exact e
  · rw [e]; exact putItemWords_idle o oneD x _ _ _ _ _ h hq
  · simp only [wholeGroup, List.all_eq_true, List.contains_iff_mem] at w
    exact absurd (w q live) h

/-- Flags of real items that act (R31, R121). -/
def OpSpec.flagsOf (o : OpSpec) (oneD : Bool) (x : Group) (ps : List Nat) : Nat :=
  ((ps.map (fun p => (p, o.f (o.vals oneD x p)))).filter
    (fun q => ((itemIn x q.1).map (fun t => !t.helper)).getD false)).foldl (fun a q => a ||| q.2.2) 0

theorem or_same_foldl {γ : Type} (f : γ → Nat) (fl : Nat) (l : List γ) (h : ∀ a ∈ l, f a = fl) (a0 : Nat) :
    l.foldl (fun a q => a ||| f q) a0 = if l.isEmpty then a0 else a0 ||| fl := by
  induction l generalizing a0 with
  | nil => rfl
  | cons x r ih =>
    rw [List.foldl_cons, ih (fun a ha => h a (by simp [ha])), h x (by simp)]
    cases r <;> simp

theorem leastBy_mem {γ : Type} {key : γ → Nat} {l : List γ} {a : γ} (h : leastBy key l = some a) : a ∈ l := by
  induction l generalizing a with
  | nil => simp [leastBy] at h
  | cons x r ih =>
    unfold leastBy at h
    split at h
    · simp_all
    · rename_i y hy
      split at h
      · simp only [Option.some.injEq] at h; subst h; exact List.mem_cons_of_mem _ (ih hy)
      · simp only [Option.some.injEq] at h; subst h; simp

/-- The writer of an s register acts (R27). -/
theorem sWriter_mem {x : Group} {ps : List Nat} {p : Nat} (h : sWriter x ps = some p) : p ∈ ps :=
  List.mem_of_mem_filter (leastBy_mem h)

theorem find_map_key {γ : Type} (ps : List Nat) (f : Nat → γ) {p : Nat} (h : p ∈ ps) :
    (ps.map (fun p => (p, f p))).find? (fun q => q.1 = p) = some (p, f p) := by
  induction ps with
  | nil => simp at h
  | cons a l ih =>
    by_cases e : a = p
    · subst e; simp
    · simp only [List.map_cons, List.find?_cons, e, decide_false]
      exact ih (by simpa [Ne.symm e] using h)

theorem realPos_of_itemIn {x : Group} {p : Nat} (h : ((itemIn x p).map (fun t => !t.helper)).getD false = true) :
    p ∈ realPos x := by
  cases e : itemIn x p with
  | none => simp [e] at h
  | some t => exact realPos_iff.2 ⟨t, mem_of_tfind e, by simpa [e] using h⟩

/-- The s register, the condition registers and the flags after a register instruction (R24, R26, R27, R31, R121). -/
theorem OpSpec.apply_rest {o : OpSpec} (hx : o.FormExact) (oneD : Bool) (x : Group) (ps : List Nat)
    (lt : ∀ p ∈ ps, p < 2 ^ 32) :
    (o.apply oneD x ps).c = x.c ∧
    (o.apply oneD x ps).s = (if o.d = 124 then (match sWriter x ps with
      | some p => tput x.s (extS o.ext) (lowWord (o.f (o.vals oneD x p)).1)
      | none => x.s) else x.s) ∧
    (o.apply oneD x ps).status = x.status ||| BitVec.ofNat 32 (o.flagsOf oneD x ps % 64) := by
  have pw : (ps.map (fun p => (p, o.f (o.vals oneD x p)))).map (fun q => (q.1, o.split q.2.1)) =
      ps.map (fun p => (p, o.split (o.f (o.vals oneD x p)).1)) := by simp
  have notS : isV o.d = true → o.d ≠ 124 := by rintro a b; rw [b] at a; exact absurd a (by decide)
  have sv (p : Nat) (h : sWriter x ps = some p) :
      (((ps.map (fun p => (p, o.f (o.vals oneD x p)))).find? (fun q => q.1 = p)).map (fun q => lowWord q.2.1)) =
        some (lowWord (o.f (o.vals oneD x p)).1) := by
    rw [find_map_key ps (fun p => o.f (o.vals oneD x p)) (sWriter_mem h)]; rfl
  have ws : (if o.d = 124 then (match (sWriter x ps).bind (fun p =>
        ((ps.map (fun p => (p, o.f (o.vals oneD x p)))).find? (fun q => q.1 = p)).map (fun q => lowWord q.2.1)) with
      | some v => putS x (extS o.ext) v
      | none => x) else x).s = (if o.d = 124 then (match sWriter x ps with
      | some p => tput x.s (extS o.ext) (lowWord (o.f (o.vals oneD x p)).1)
      | none => x.s) else x.s) ∧ (if o.d = 124 then (match (sWriter x ps).bind (fun p =>
        ((ps.map (fun p => (p, o.f (o.vals oneD x p)))).find? (fun q => q.1 = p)).map (fun q => lowWord q.2.1)) with
      | some v => putS x (extS o.ext) v
      | none => x) else x).c = x.c ∧ (if o.d = 124 then (match (sWriter x ps).bind (fun p =>
        ((ps.map (fun p => (p, o.f (o.vals oneD x p)))).find? (fun q => q.1 = p)).map (fun q => lowWord q.2.1)) with
      | some v => putS x (extS o.ext) v
      | none => x) else x).status = x.status := by
    split
    · cases e : sWriter x ps with
      | none => exact ⟨rfl, rfl, rfl⟩
      | some p => simp only [Option.bind_some, sv p e]; exact ⟨rfl, rfl, rfl⟩
    · exact ⟨rfl, rfl, rfl⟩
  unfold OpSpec.apply
  simp only [pw]
  cases h : o.inGroup oneD x ps with
  | none =>
    simp only
    have same := pushAll_same
    by_cases d : isV o.d = true
    · have b := putItemWords_same o oneD x o.d.toNat ps (fun p => (o.f (o.vals oneD x p)).1)
      simp only [d, if_true, groupFlags, (same _ _ _).c, (same _ _ _).s, (same _ _ _).status, b.c, b.s, b.status,
        notS d, if_false]
      exact ⟨trivial, trivial, rfl⟩
    · simp only [d, Bool.false_eq_true, if_false, groupFlags, (same _ _ _).c, (same _ _ _).s, (same _ _ _).status]
      exact ⟨ws.2.1, ws.1, congrArg (fun t => t ||| _) ws.2.2⟩
  | some e =>
    obtain ⟨fm, fl⟩ := e
    simp only
    have same := pushAll_same
    -- the flags of a closed form are those of each real item
    have fls : x.status ||| BitVec.ofNat 32 (o.flagsOf oneD x ps % 64) =
        if ps.any (fun p => ((itemIn x p).map (fun t => !t.helper)).getD false) = true then
          x.status ||| BitVec.ofNat 32 (fl % 64) else x.status := by
      unfold OpSpec.flagsOf
      rw [or_same_foldl (fun q : Nat × DWord × Nat => q.2.2) fl]
      · have em : (((ps.map (fun p => (p, o.f (o.vals oneD x p)))).filter
            (fun q => ((itemIn x q.1).map (fun t => !t.helper)).getD false)).isEmpty) =
            !ps.any (fun p => ((itemIn x p).map (fun t => !t.helper)).getD false) := by
          clear ws sv pw notS h lt
          induction ps with
          | nil => rfl
          | cons a l ih =>
            simp only [List.map_cons, List.filter_cons, List.any_cons]
            cases ((itemIn x a).map (fun t => !t.helper)).getD false <;> simp_all
        rw [em]
        cases ps.any (fun p => ((itemIn x p).map (fun t => !t.helper)).getD false) <;> simp
      · intro a ha
        obtain ⟨h1, h2⟩ := List.mem_filter.1 ha
        obtain ⟨p, hp, rfl⟩ := List.mem_map.1 h1
        exact (OpSpec.inGroup_sound hx h hp (lt p hp) (realPos_of_itemIn h2)).2.symm
    rw [fls]
    by_cases d : isV o.d = true
    · have b : SameButV x (if wholeGroup x ps = true then putForm oneD x o.d.toNat (formReps o.wide fm)
          else putItemWords oneD x o.d.toNat (ps.map (fun p => (p, o.split (o.f (o.vals oneD x p)).1)))) := by
        split
        · exact putForm_same _ _ _ _
        · exact putItemWords_same o oneD x _ _ _
      simp only [d, if_true, notS d, if_false]
      split <;> simp only [groupFlags, (same _ _ _).c, (same _ _ _).s, (same _ _ _).status, b.c, b.s, b.status] <;>
        exact ⟨trivial, trivial, trivial⟩
    · simp only [d, Bool.false_eq_true, if_false]
      split <;> simp only [groupFlags, (same _ _ _).c, (same _ _ _).s, (same _ _ _).status] <;>
        first
          | exact ⟨ws.2.1, ws.1, ws.2.2⟩
          | exact ⟨ws.2.1, ws.1, congrArg (fun t => t ||| _) ws.2.2⟩

end Sys2Proof.Machine
end

