-- ==== Sys2Proof/Laws/State.lean ====
section
/-!
SUPPORT. What each update of the state leaves alone, field by field, and what a record reads after its own update.
-/
namespace Sys2Proof.Machine

@[simp] theorem setCore_agenda (s : State) (c : Nat) (x : Core) : (setCore s c x).agenda = s.agenda := rfl
@[simp] theorem setCore_cursor (s : State) (c : Nat) (x : Core) : (setCore s c x).cursor = s.cursor := rfl
@[simp] theorem setCore_now (s : State) (c : Nat) (x : Core) : (setCore s c x).now = s.now := rfl
@[simp] theorem setCore_mtime (s : State) (c : Nat) (x : Core) : (setCore s c x).mtime = s.mtime := rfl
@[simp] theorem setCore_mtimeAt (s : State) (c : Nat) (x : Core) : (setCore s c x).mtimeAt = s.mtimeAt := rfl
@[simp] theorem setCore_boot (s : State) (c : Nat) (x : Core) : (setCore s c x).boot = s.boot := rfl
@[simp] theorem setCore_log (s : State) (c : Nat) (x : Core) : (setCore s c x).log = s.log := rfl
@[simp] theorem setCore_badLog (s : State) (c : Nat) (x : Core) : (setCore s c x).badLog = s.badLog := rfl
@[simp] theorem setCore_fixed (s : State) (c : Nat) (x : Core) : (setCore s c x).fixed = s.fixed := rfl
@[simp] theorem setCore_lost (s : State) (c : Nat) (x : Core) : (setCore s c x).lost = s.lost := rfl
@[simp] theorem setCore_ctx (s : State) (c : Nat) (x : Core) : (setCore s c x).ctx = s.ctx := rfl
@[simp] theorem setCore_dies (s : State) (c : Nat) (x : Core) : (setCore s c x).dies = s.dies := rfl
@[simp] theorem setCore_writers (s : State) (c : Nat) (x : Core) : (setCore s c x).writers = s.writers := rfl
@[simp] theorem setCore_stks (s : State) (c : Nat) (x : Core) : (setCore s c x).stks = s.stks := rfl
@[simp] theorem setCore_fns (s : State) (c : Nat) (x : Core) : (setCore s c x).fns = s.fns := rfl
@[simp] theorem setCore_launches (s : State) (c : Nat) (x : Core) : (setCore s c x).launches = s.launches := rfl
@[simp] theorem setCore_gangs (s : State) (c : Nat) (x : Core) : (setCore s c x).gangs = s.gangs := rfl
@[simp] theorem setCore_spans (s : State) (c : Nat) (x : Core) : (setCore s c x).spans = s.spans := rfl
@[simp] theorem setCore_copies (s : State) (c : Nat) (x : Core) : (setCore s c x).copies = s.copies := rfl
@[simp] theorem setCore_fillq (s : State) (c : Nat) (x : Core) : (setCore s c x).fillq = s.fillq := rfl
@[simp] theorem setCore_rootOps (s : State) (c : Nat) (x : Core) : (setCore s c x).rootOps = s.rootOps := rfl
@[simp] theorem setCore_migs (s : State) (c : Nat) (x : Core) : (setCore s c x).migs = s.migs := rfl
@[simp] theorem setCore_capture (s : State) (c : Nat) (x : Core) : (setCore s c x).capture = s.capture := rfl
@[simp] theorem setCore_fabric (s : State) (c : Nat) (x : Core) : (setCore s c x).fabric = s.fabric := rfl
@[simp] theorem setCore_nextId (s : State) (c : Nat) (x : Core) : (setCore s c x).nextId = s.nextId := rfl
@[simp] theorem setCore_free (s : State) (c : Nat) (x : Core) : (setCore s c x).free = s.free := rfl
@[simp] theorem coreAt_setCore (s : State) (c : Nat) (x : Core) : coreAt (setCore s c x) c = x := by simp [coreAt, setCore]
@[simp] theorem coreAt_setCore_ne (s : State) (c : Nat) (x : Core) {j : Nat} (h : c ≠ j) : coreAt (setCore s c x) j = coreAt s j := by
  simp [coreAt, setCore, h]

@[simp] theorem setLane_agenda (s : State) (c l : Nat) (x : Lane) : (setLane s c l x).agenda = s.agenda := rfl
@[simp] theorem setLane_cursor (s : State) (c l : Nat) (x : Lane) : (setLane s c l x).cursor = s.cursor := rfl
@[simp] theorem setLane_now (s : State) (c l : Nat) (x : Lane) : (setLane s c l x).now = s.now := rfl
@[simp] theorem setLane_mtime (s : State) (c l : Nat) (x : Lane) : (setLane s c l x).mtime = s.mtime := rfl
@[simp] theorem setLane_mtimeAt (s : State) (c l : Nat) (x : Lane) : (setLane s c l x).mtimeAt = s.mtimeAt := rfl
@[simp] theorem setLane_boot (s : State) (c l : Nat) (x : Lane) : (setLane s c l x).boot = s.boot := rfl
@[simp] theorem setLane_log (s : State) (c l : Nat) (x : Lane) : (setLane s c l x).log = s.log := rfl
@[simp] theorem setLane_badLog (s : State) (c l : Nat) (x : Lane) : (setLane s c l x).badLog = s.badLog := rfl
@[simp] theorem setLane_fixed (s : State) (c l : Nat) (x : Lane) : (setLane s c l x).fixed = s.fixed := rfl
@[simp] theorem setLane_lost (s : State) (c l : Nat) (x : Lane) : (setLane s c l x).lost = s.lost := rfl
@[simp] theorem setLane_ctx (s : State) (c l : Nat) (x : Lane) : (setLane s c l x).ctx = s.ctx := rfl
@[simp] theorem setLane_dies (s : State) (c l : Nat) (x : Lane) : (setLane s c l x).dies = s.dies := rfl
@[simp] theorem setLane_writers (s : State) (c l : Nat) (x : Lane) : (setLane s c l x).writers = s.writers := rfl
@[simp] theorem setLane_stks (s : State) (c l : Nat) (x : Lane) : (setLane s c l x).stks = s.stks := rfl
@[simp] theorem setLane_fns (s : State) (c l : Nat) (x : Lane) : (setLane s c l x).fns = s.fns := rfl
@[simp] theorem setLane_launches (s : State) (c l : Nat) (x : Lane) : (setLane s c l x).launches = s.launches := rfl
@[simp] theorem setLane_gangs (s : State) (c l : Nat) (x : Lane) : (setLane s c l x).gangs = s.gangs := rfl
@[simp] theorem setLane_spans (s : State) (c l : Nat) (x : Lane) : (setLane s c l x).spans = s.spans := rfl
@[simp] theorem setLane_copies (s : State) (c l : Nat) (x : Lane) : (setLane s c l x).copies = s.copies := rfl
@[simp] theorem setLane_fillq (s : State) (c l : Nat) (x : Lane) : (setLane s c l x).fillq = s.fillq := rfl
@[simp] theorem setLane_rootOps (s : State) (c l : Nat) (x : Lane) : (setLane s c l x).rootOps = s.rootOps := rfl
@[simp] theorem setLane_migs (s : State) (c l : Nat) (x : Lane) : (setLane s c l x).migs = s.migs := rfl
@[simp] theorem setLane_capture (s : State) (c l : Nat) (x : Lane) : (setLane s c l x).capture = s.capture := rfl
@[simp] theorem setLane_fabric (s : State) (c l : Nat) (x : Lane) : (setLane s c l x).fabric = s.fabric := rfl
@[simp] theorem setLane_nextId (s : State) (c l : Nat) (x : Lane) : (setLane s c l x).nextId = s.nextId := rfl
@[simp] theorem setLane_free (s : State) (c l : Nat) (x : Lane) : (setLane s c l x).free = s.free := rfl

@[simp] theorem count_agenda (s : State) (c k n : Nat) : (count s c k n).agenda = s.agenda := rfl
@[simp] theorem count_cursor (s : State) (c k n : Nat) : (count s c k n).cursor = s.cursor := rfl
@[simp] theorem count_now (s : State) (c k n : Nat) : (count s c k n).now = s.now := rfl
@[simp] theorem count_mtime (s : State) (c k n : Nat) : (count s c k n).mtime = s.mtime := rfl
@[simp] theorem count_mtimeAt (s : State) (c k n : Nat) : (count s c k n).mtimeAt = s.mtimeAt := rfl
@[simp] theorem count_boot (s : State) (c k n : Nat) : (count s c k n).boot = s.boot := rfl
@[simp] theorem count_log (s : State) (c k n : Nat) : (count s c k n).log = s.log := rfl
@[simp] theorem count_badLog (s : State) (c k n : Nat) : (count s c k n).badLog = s.badLog := rfl
@[simp] theorem count_fixed (s : State) (c k n : Nat) : (count s c k n).fixed = s.fixed := rfl
@[simp] theorem count_lost (s : State) (c k n : Nat) : (count s c k n).lost = s.lost := rfl
@[simp] theorem count_ctx (s : State) (c k n : Nat) : (count s c k n).ctx = s.ctx := rfl
@[simp] theorem count_dies (s : State) (c k n : Nat) : (count s c k n).dies = s.dies := rfl
@[simp] theorem count_writers (s : State) (c k n : Nat) : (count s c k n).writers = s.writers := rfl
@[simp] theorem count_stks (s : State) (c k n : Nat) : (count s c k n).stks = s.stks := rfl
@[simp] theorem count_fns (s : State) (c k n : Nat) : (count s c k n).fns = s.fns := rfl
@[simp] theorem count_launches (s : State) (c k n : Nat) : (count s c k n).launches = s.launches := rfl
@[simp] theorem count_gangs (s : State) (c k n : Nat) : (count s c k n).gangs = s.gangs := rfl
@[simp] theorem count_spans (s : State) (c k n : Nat) : (count s c k n).spans = s.spans := rfl
@[simp] theorem count_copies (s : State) (c k n : Nat) : (count s c k n).copies = s.copies := rfl
@[simp] theorem count_fillq (s : State) (c k n : Nat) : (count s c k n).fillq = s.fillq := rfl
@[simp] theorem count_rootOps (s : State) (c k n : Nat) : (count s c k n).rootOps = s.rootOps := rfl
@[simp] theorem count_migs (s : State) (c k n : Nat) : (count s c k n).migs = s.migs := rfl
@[simp] theorem count_capture (s : State) (c k n : Nat) : (count s c k n).capture = s.capture := rfl
@[simp] theorem count_fabric (s : State) (c k n : Nat) : (count s c k n).fabric = s.fabric := rfl
@[simp] theorem count_nextId (s : State) (c k n : Nat) : (count s c k n).nextId = s.nextId := rfl
@[simp] theorem count_free (s : State) (c k n : Nat) : (count s c k n).free = s.free := rfl

@[simp] theorem setDie_agenda (s : State) (d : Nat) (x : Die) : (setDie s d x).agenda = s.agenda := rfl
@[simp] theorem setDie_cursor (s : State) (d : Nat) (x : Die) : (setDie s d x).cursor = s.cursor := rfl
@[simp] theorem setDie_now (s : State) (d : Nat) (x : Die) : (setDie s d x).now = s.now := rfl
@[simp] theorem setDie_mtime (s : State) (d : Nat) (x : Die) : (setDie s d x).mtime = s.mtime := rfl
@[simp] theorem setDie_mtimeAt (s : State) (d : Nat) (x : Die) : (setDie s d x).mtimeAt = s.mtimeAt := rfl
@[simp] theorem setDie_boot (s : State) (d : Nat) (x : Die) : (setDie s d x).boot = s.boot := rfl
@[simp] theorem setDie_log (s : State) (d : Nat) (x : Die) : (setDie s d x).log = s.log := rfl
@[simp] theorem setDie_badLog (s : State) (d : Nat) (x : Die) : (setDie s d x).badLog = s.badLog := rfl
@[simp] theorem setDie_fixed (s : State) (d : Nat) (x : Die) : (setDie s d x).fixed = s.fixed := rfl
@[simp] theorem setDie_lost (s : State) (d : Nat) (x : Die) : (setDie s d x).lost = s.lost := rfl
@[simp] theorem setDie_ctx (s : State) (d : Nat) (x : Die) : (setDie s d x).ctx = s.ctx := rfl
@[simp] theorem setDie_cores (s : State) (d : Nat) (x : Die) : (setDie s d x).cores = s.cores := rfl
@[simp] theorem setDie_writers (s : State) (d : Nat) (x : Die) : (setDie s d x).writers = s.writers := rfl
@[simp] theorem setDie_stks (s : State) (d : Nat) (x : Die) : (setDie s d x).stks = s.stks := rfl
@[simp] theorem setDie_fns (s : State) (d : Nat) (x : Die) : (setDie s d x).fns = s.fns := rfl
@[simp] theorem setDie_launches (s : State) (d : Nat) (x : Die) : (setDie s d x).launches = s.launches := rfl
@[simp] theorem setDie_gangs (s : State) (d : Nat) (x : Die) : (setDie s d x).gangs = s.gangs := rfl
@[simp] theorem setDie_spans (s : State) (d : Nat) (x : Die) : (setDie s d x).spans = s.spans := rfl
@[simp] theorem setDie_copies (s : State) (d : Nat) (x : Die) : (setDie s d x).copies = s.copies := rfl
@[simp] theorem setDie_fillq (s : State) (d : Nat) (x : Die) : (setDie s d x).fillq = s.fillq := rfl
@[simp] theorem setDie_rootOps (s : State) (d : Nat) (x : Die) : (setDie s d x).rootOps = s.rootOps := rfl
@[simp] theorem setDie_migs (s : State) (d : Nat) (x : Die) : (setDie s d x).migs = s.migs := rfl
@[simp] theorem setDie_capture (s : State) (d : Nat) (x : Die) : (setDie s d x).capture = s.capture := rfl
@[simp] theorem setDie_fabric (s : State) (d : Nat) (x : Die) : (setDie s d x).fabric = s.fabric := rfl
@[simp] theorem setDie_nextId (s : State) (d : Nat) (x : Die) : (setDie s d x).nextId = s.nextId := rfl
@[simp] theorem setDie_free (s : State) (d : Nat) (x : Die) : (setDie s d x).free = s.free := rfl
@[simp] theorem dieAt_setDie (s : State) (d : Nat) (x : Die) : dieAt (setDie s d x) d = x := by simp [dieAt, setDie]
@[simp] theorem dieAt_setDie_ne (s : State) (d : Nat) (x : Die) {j : Nat} (h : d ≠ j) : dieAt (setDie s d x) j = dieAt s j := by
  simp [dieAt, setDie, h]

@[simp] theorem setWriter_agenda (s : State) (w : Nat) (x : Writer) : (setWriter s w x).agenda = s.agenda := rfl
@[simp] theorem setWriter_cursor (s : State) (w : Nat) (x : Writer) : (setWriter s w x).cursor = s.cursor := rfl
@[simp] theorem setWriter_now (s : State) (w : Nat) (x : Writer) : (setWriter s w x).now = s.now := rfl
@[simp] theorem setWriter_mtime (s : State) (w : Nat) (x : Writer) : (setWriter s w x).mtime = s.mtime := rfl
@[simp] theorem setWriter_mtimeAt (s : State) (w : Nat) (x : Writer) : (setWriter s w x).mtimeAt = s.mtimeAt := rfl
@[simp] theorem setWriter_boot (s : State) (w : Nat) (x : Writer) : (setWriter s w x).boot = s.boot := rfl
@[simp] theorem setWriter_log (s : State) (w : Nat) (x : Writer) : (setWriter s w x).log = s.log := rfl
@[simp] theorem setWriter_badLog (s : State) (w : Nat) (x : Writer) : (setWriter s w x).badLog = s.badLog := rfl
@[simp] theorem setWriter_fixed (s : State) (w : Nat) (x : Writer) : (setWriter s w x).fixed = s.fixed := rfl
@[simp] theorem setWriter_lost (s : State) (w : Nat) (x : Writer) : (setWriter s w x).lost = s.lost := rfl
@[simp] theorem setWriter_ctx (s : State) (w : Nat) (x : Writer) : (setWriter s w x).ctx = s.ctx := rfl
@[simp] theorem setWriter_cores (s : State) (w : Nat) (x : Writer) : (setWriter s w x).cores = s.cores := rfl
@[simp] theorem setWriter_dies (s : State) (w : Nat) (x : Writer) : (setWriter s w x).dies = s.dies := rfl
@[simp] theorem setWriter_stks (s : State) (w : Nat) (x : Writer) : (setWriter s w x).stks = s.stks := rfl
@[simp] theorem setWriter_fns (s : State) (w : Nat) (x : Writer) : (setWriter s w x).fns = s.fns := rfl
@[simp] theorem setWriter_launches (s : State) (w : Nat) (x : Writer) : (setWriter s w x).launches = s.launches := rfl
@[simp] theorem setWriter_gangs (s : State) (w : Nat) (x : Writer) : (setWriter s w x).gangs = s.gangs := rfl
@[simp] theorem setWriter_spans (s : State) (w : Nat) (x : Writer) : (setWriter s w x).spans = s.spans := rfl
@[simp] theorem setWriter_copies (s : State) (w : Nat) (x : Writer) : (setWriter s w x).copies = s.copies := rfl
@[simp] theorem setWriter_fillq (s : State) (w : Nat) (x : Writer) : (setWriter s w x).fillq = s.fillq := rfl
@[simp] theorem setWriter_rootOps (s : State) (w : Nat) (x : Writer) : (setWriter s w x).rootOps = s.rootOps := rfl
@[simp] theorem setWriter_migs (s : State) (w : Nat) (x : Writer) : (setWriter s w x).migs = s.migs := rfl
@[simp] theorem setWriter_capture (s : State) (w : Nat) (x : Writer) : (setWriter s w x).capture = s.capture := rfl
@[simp] theorem setWriter_fabric (s : State) (w : Nat) (x : Writer) : (setWriter s w x).fabric = s.fabric := rfl
@[simp] theorem setWriter_nextId (s : State) (w : Nat) (x : Writer) : (setWriter s w x).nextId = s.nextId := rfl
@[simp] theorem setWriter_free (s : State) (w : Nat) (x : Writer) : (setWriter s w x).free = s.free := rfl
@[simp] theorem writerAt_setWriter (s : State) (w : Nat) (x : Writer) : writerAt (setWriter s w x) w = x := by simp [writerAt, setWriter]
@[simp] theorem writerAt_setWriter_ne (s : State) (w : Nat) (x : Writer) {j : Nat} (h : w ≠ j) : writerAt (setWriter s w x) j = writerAt s j := by
  simp [writerAt, setWriter, h]

@[simp] theorem setStack_agenda (s : State) (k : Nat) (x : Stack) : (setStack s k x).agenda = s.agenda := rfl
@[simp] theorem setStack_cursor (s : State) (k : Nat) (x : Stack) : (setStack s k x).cursor = s.cursor := rfl
@[simp] theorem setStack_now (s : State) (k : Nat) (x : Stack) : (setStack s k x).now = s.now := rfl
@[simp] theorem setStack_mtime (s : State) (k : Nat) (x : Stack) : (setStack s k x).mtime = s.mtime := rfl
@[simp] theorem setStack_mtimeAt (s : State) (k : Nat) (x : Stack) : (setStack s k x).mtimeAt = s.mtimeAt := rfl
@[simp] theorem setStack_boot (s : State) (k : Nat) (x : Stack) : (setStack s k x).boot = s.boot := rfl
@[simp] theorem setStack_log (s : State) (k : Nat) (x : Stack) : (setStack s k x).log = s.log := rfl
@[simp] theorem setStack_badLog (s : State) (k : Nat) (x : Stack) : (setStack s k x).badLog = s.badLog := rfl
@[simp] theorem setStack_fixed (s : State) (k : Nat) (x : Stack) : (setStack s k x).fixed = s.fixed := rfl
@[simp] theorem setStack_lost (s : State) (k : Nat) (x : Stack) : (setStack s k x).lost = s.lost := rfl
@[simp] theorem setStack_ctx (s : State) (k : Nat) (x : Stack) : (setStack s k x).ctx = s.ctx := rfl
@[simp] theorem setStack_cores (s : State) (k : Nat) (x : Stack) : (setStack s k x).cores = s.cores := rfl
@[simp] theorem setStack_dies (s : State) (k : Nat) (x : Stack) : (setStack s k x).dies = s.dies := rfl
@[simp] theorem setStack_writers (s : State) (k : Nat) (x : Stack) : (setStack s k x).writers = s.writers := rfl
@[simp] theorem setStack_fns (s : State) (k : Nat) (x : Stack) : (setStack s k x).fns = s.fns := rfl
@[simp] theorem setStack_launches (s : State) (k : Nat) (x : Stack) : (setStack s k x).launches = s.launches := rfl
@[simp] theorem setStack_gangs (s : State) (k : Nat) (x : Stack) : (setStack s k x).gangs = s.gangs := rfl
@[simp] theorem setStack_spans (s : State) (k : Nat) (x : Stack) : (setStack s k x).spans = s.spans := rfl
@[simp] theorem setStack_copies (s : State) (k : Nat) (x : Stack) : (setStack s k x).copies = s.copies := rfl
@[simp] theorem setStack_fillq (s : State) (k : Nat) (x : Stack) : (setStack s k x).fillq = s.fillq := rfl
@[simp] theorem setStack_rootOps (s : State) (k : Nat) (x : Stack) : (setStack s k x).rootOps = s.rootOps := rfl
@[simp] theorem setStack_migs (s : State) (k : Nat) (x : Stack) : (setStack s k x).migs = s.migs := rfl
@[simp] theorem setStack_capture (s : State) (k : Nat) (x : Stack) : (setStack s k x).capture = s.capture := rfl
@[simp] theorem setStack_fabric (s : State) (k : Nat) (x : Stack) : (setStack s k x).fabric = s.fabric := rfl
@[simp] theorem setStack_nextId (s : State) (k : Nat) (x : Stack) : (setStack s k x).nextId = s.nextId := rfl
@[simp] theorem setStack_free (s : State) (k : Nat) (x : Stack) : (setStack s k x).free = s.free := rfl
@[simp] theorem stackAt_setStack (s : State) (k : Nat) (x : Stack) : stackAt (setStack s k x) k = x := by simp [stackAt, setStack]
@[simp] theorem stackAt_setStack_ne (s : State) (k : Nat) (x : Stack) {j : Nat} (h : k ≠ j) : stackAt (setStack s k x) j = stackAt s j := by
  simp [stackAt, setStack, h]

@[simp] theorem setFn_agenda (s : State) (f : Nat) (x : Fn) : (setFn s f x).agenda = s.agenda := rfl
@[simp] theorem setFn_cursor (s : State) (f : Nat) (x : Fn) : (setFn s f x).cursor = s.cursor := rfl
@[simp] theorem setFn_now (s : State) (f : Nat) (x : Fn) : (setFn s f x).now = s.now := rfl
@[simp] theorem setFn_mtime (s : State) (f : Nat) (x : Fn) : (setFn s f x).mtime = s.mtime := rfl
@[simp] theorem setFn_mtimeAt (s : State) (f : Nat) (x : Fn) : (setFn s f x).mtimeAt = s.mtimeAt := rfl
@[simp] theorem setFn_boot (s : State) (f : Nat) (x : Fn) : (setFn s f x).boot = s.boot := rfl
@[simp] theorem setFn_log (s : State) (f : Nat) (x : Fn) : (setFn s f x).log = s.log := rfl
@[simp] theorem setFn_badLog (s : State) (f : Nat) (x : Fn) : (setFn s f x).badLog = s.badLog := rfl
@[simp] theorem setFn_fixed (s : State) (f : Nat) (x : Fn) : (setFn s f x).fixed = s.fixed := rfl
@[simp] theorem setFn_lost (s : State) (f : Nat) (x : Fn) : (setFn s f x).lost = s.lost := rfl
@[simp] theorem setFn_ctx (s : State) (f : Nat) (x : Fn) : (setFn s f x).ctx = s.ctx := rfl
@[simp] theorem setFn_cores (s : State) (f : Nat) (x : Fn) : (setFn s f x).cores = s.cores := rfl
@[simp] theorem setFn_dies (s : State) (f : Nat) (x : Fn) : (setFn s f x).dies = s.dies := rfl
@[simp] theorem setFn_writers (s : State) (f : Nat) (x : Fn) : (setFn s f x).writers = s.writers := rfl
@[simp] theorem setFn_stks (s : State) (f : Nat) (x : Fn) : (setFn s f x).stks = s.stks := rfl
@[simp] theorem setFn_launches (s : State) (f : Nat) (x : Fn) : (setFn s f x).launches = s.launches := rfl
@[simp] theorem setFn_gangs (s : State) (f : Nat) (x : Fn) : (setFn s f x).gangs = s.gangs := rfl
@[simp] theorem setFn_spans (s : State) (f : Nat) (x : Fn) : (setFn s f x).spans = s.spans := rfl
@[simp] theorem setFn_copies (s : State) (f : Nat) (x : Fn) : (setFn s f x).copies = s.copies := rfl
@[simp] theorem setFn_fillq (s : State) (f : Nat) (x : Fn) : (setFn s f x).fillq = s.fillq := rfl
@[simp] theorem setFn_rootOps (s : State) (f : Nat) (x : Fn) : (setFn s f x).rootOps = s.rootOps := rfl
@[simp] theorem setFn_migs (s : State) (f : Nat) (x : Fn) : (setFn s f x).migs = s.migs := rfl
@[simp] theorem setFn_capture (s : State) (f : Nat) (x : Fn) : (setFn s f x).capture = s.capture := rfl
@[simp] theorem setFn_fabric (s : State) (f : Nat) (x : Fn) : (setFn s f x).fabric = s.fabric := rfl
@[simp] theorem setFn_nextId (s : State) (f : Nat) (x : Fn) : (setFn s f x).nextId = s.nextId := rfl
@[simp] theorem setFn_free (s : State) (f : Nat) (x : Fn) : (setFn s f x).free = s.free := rfl
@[simp] theorem fnAt_setFn (s : State) (f : Nat) (x : Fn) : fnAt (setFn s f x) f = x := by simp [fnAt, setFn]
@[simp] theorem fnAt_setFn_ne (s : State) (f : Nat) (x : Fn) {j : Nat} (h : f ≠ j) : fnAt (setFn s f x) j = fnAt s j := by
  simp [fnAt, setFn, h]

@[simp] theorem setGang_agenda (s : State) (g : Nat) (x : Gang) : (setGang s g x).agenda = s.agenda := rfl
@[simp] theorem setGang_cursor (s : State) (g : Nat) (x : Gang) : (setGang s g x).cursor = s.cursor := rfl
@[simp] theorem setGang_now (s : State) (g : Nat) (x : Gang) : (setGang s g x).now = s.now := rfl
@[simp] theorem setGang_mtime (s : State) (g : Nat) (x : Gang) : (setGang s g x).mtime = s.mtime := rfl
@[simp] theorem setGang_mtimeAt (s : State) (g : Nat) (x : Gang) : (setGang s g x).mtimeAt = s.mtimeAt := rfl
@[simp] theorem setGang_boot (s : State) (g : Nat) (x : Gang) : (setGang s g x).boot = s.boot := rfl
@[simp] theorem setGang_log (s : State) (g : Nat) (x : Gang) : (setGang s g x).log = s.log := rfl
@[simp] theorem setGang_badLog (s : State) (g : Nat) (x : Gang) : (setGang s g x).badLog = s.badLog := rfl
@[simp] theorem setGang_fixed (s : State) (g : Nat) (x : Gang) : (setGang s g x).fixed = s.fixed := rfl
@[simp] theorem setGang_lost (s : State) (g : Nat) (x : Gang) : (setGang s g x).lost = s.lost := rfl
@[simp] theorem setGang_ctx (s : State) (g : Nat) (x : Gang) : (setGang s g x).ctx = s.ctx := rfl
@[simp] theorem setGang_cores (s : State) (g : Nat) (x : Gang) : (setGang s g x).cores = s.cores := rfl
@[simp] theorem setGang_dies (s : State) (g : Nat) (x : Gang) : (setGang s g x).dies = s.dies := rfl
@[simp] theorem setGang_writers (s : State) (g : Nat) (x : Gang) : (setGang s g x).writers = s.writers := rfl
@[simp] theorem setGang_stks (s : State) (g : Nat) (x : Gang) : (setGang s g x).stks = s.stks := rfl
@[simp] theorem setGang_fns (s : State) (g : Nat) (x : Gang) : (setGang s g x).fns = s.fns := rfl
@[simp] theorem setGang_launches (s : State) (g : Nat) (x : Gang) : (setGang s g x).launches = s.launches := rfl
@[simp] theorem setGang_spans (s : State) (g : Nat) (x : Gang) : (setGang s g x).spans = s.spans := rfl
@[simp] theorem setGang_copies (s : State) (g : Nat) (x : Gang) : (setGang s g x).copies = s.copies := rfl
@[simp] theorem setGang_fillq (s : State) (g : Nat) (x : Gang) : (setGang s g x).fillq = s.fillq := rfl
@[simp] theorem setGang_rootOps (s : State) (g : Nat) (x : Gang) : (setGang s g x).rootOps = s.rootOps := rfl
@[simp] theorem setGang_migs (s : State) (g : Nat) (x : Gang) : (setGang s g x).migs = s.migs := rfl
@[simp] theorem setGang_capture (s : State) (g : Nat) (x : Gang) : (setGang s g x).capture = s.capture := rfl
@[simp] theorem setGang_fabric (s : State) (g : Nat) (x : Gang) : (setGang s g x).fabric = s.fabric := rfl
@[simp] theorem setGang_nextId (s : State) (g : Nat) (x : Gang) : (setGang s g x).nextId = s.nextId := rfl
@[simp] theorem setGang_free (s : State) (g : Nat) (x : Gang) : (setGang s g x).free = s.free := rfl
@[simp] theorem gangAt_setGang (s : State) (g : Nat) (x : Gang) : gangAt (setGang s g x) g = x := by simp [gangAt, setGang]
@[simp] theorem gangAt_setGang_ne (s : State) (g : Nat) (x : Gang) {j : Nat} (h : g ≠ j) : gangAt (setGang s g x) j = gangAt s j := by
  simp [gangAt, setGang, h]

@[simp] theorem setGroup_agenda (s : State) (g i : Nat) (x : Group) : (setGroup s g i x).agenda = s.agenda := rfl
@[simp] theorem setGroup_cursor (s : State) (g i : Nat) (x : Group) : (setGroup s g i x).cursor = s.cursor := rfl
@[simp] theorem setGroup_now (s : State) (g i : Nat) (x : Group) : (setGroup s g i x).now = s.now := rfl
@[simp] theorem setGroup_mtime (s : State) (g i : Nat) (x : Group) : (setGroup s g i x).mtime = s.mtime := rfl
@[simp] theorem setGroup_mtimeAt (s : State) (g i : Nat) (x : Group) : (setGroup s g i x).mtimeAt = s.mtimeAt := rfl
@[simp] theorem setGroup_boot (s : State) (g i : Nat) (x : Group) : (setGroup s g i x).boot = s.boot := rfl
@[simp] theorem setGroup_log (s : State) (g i : Nat) (x : Group) : (setGroup s g i x).log = s.log := rfl
@[simp] theorem setGroup_badLog (s : State) (g i : Nat) (x : Group) : (setGroup s g i x).badLog = s.badLog := rfl
@[simp] theorem setGroup_fixed (s : State) (g i : Nat) (x : Group) : (setGroup s g i x).fixed = s.fixed := rfl
@[simp] theorem setGroup_lost (s : State) (g i : Nat) (x : Group) : (setGroup s g i x).lost = s.lost := rfl
@[simp] theorem setGroup_ctx (s : State) (g i : Nat) (x : Group) : (setGroup s g i x).ctx = s.ctx := rfl
@[simp] theorem setGroup_cores (s : State) (g i : Nat) (x : Group) : (setGroup s g i x).cores = s.cores := rfl
@[simp] theorem setGroup_dies (s : State) (g i : Nat) (x : Group) : (setGroup s g i x).dies = s.dies := rfl
@[simp] theorem setGroup_writers (s : State) (g i : Nat) (x : Group) : (setGroup s g i x).writers = s.writers := rfl
@[simp] theorem setGroup_stks (s : State) (g i : Nat) (x : Group) : (setGroup s g i x).stks = s.stks := rfl
@[simp] theorem setGroup_fns (s : State) (g i : Nat) (x : Group) : (setGroup s g i x).fns = s.fns := rfl
@[simp] theorem setGroup_launches (s : State) (g i : Nat) (x : Group) : (setGroup s g i x).launches = s.launches := rfl
@[simp] theorem setGroup_spans (s : State) (g i : Nat) (x : Group) : (setGroup s g i x).spans = s.spans := rfl
@[simp] theorem setGroup_copies (s : State) (g i : Nat) (x : Group) : (setGroup s g i x).copies = s.copies := rfl
@[simp] theorem setGroup_fillq (s : State) (g i : Nat) (x : Group) : (setGroup s g i x).fillq = s.fillq := rfl
@[simp] theorem setGroup_rootOps (s : State) (g i : Nat) (x : Group) : (setGroup s g i x).rootOps = s.rootOps := rfl
@[simp] theorem setGroup_migs (s : State) (g i : Nat) (x : Group) : (setGroup s g i x).migs = s.migs := rfl
@[simp] theorem setGroup_capture (s : State) (g i : Nat) (x : Group) : (setGroup s g i x).capture = s.capture := rfl
@[simp] theorem setGroup_fabric (s : State) (g i : Nat) (x : Group) : (setGroup s g i x).fabric = s.fabric := rfl
@[simp] theorem setGroup_nextId (s : State) (g i : Nat) (x : Group) : (setGroup s g i x).nextId = s.nextId := rfl
@[simp] theorem setGroup_free (s : State) (g i : Nat) (x : Group) : (setGroup s g i x).free = s.free := rfl

@[simp] theorem setItem_agenda (s : State) (g i p : Nat) (x : Item) : (setItem s g i p x).agenda = s.agenda := rfl
@[simp] theorem setItem_cursor (s : State) (g i p : Nat) (x : Item) : (setItem s g i p x).cursor = s.cursor := rfl
@[simp] theorem setItem_now (s : State) (g i p : Nat) (x : Item) : (setItem s g i p x).now = s.now := rfl
@[simp] theorem setItem_mtime (s : State) (g i p : Nat) (x : Item) : (setItem s g i p x).mtime = s.mtime := rfl
@[simp] theorem setItem_mtimeAt (s : State) (g i p : Nat) (x : Item) : (setItem s g i p x).mtimeAt = s.mtimeAt := rfl
@[simp] theorem setItem_boot (s : State) (g i p : Nat) (x : Item) : (setItem s g i p x).boot = s.boot := rfl
@[simp] theorem setItem_log (s : State) (g i p : Nat) (x : Item) : (setItem s g i p x).log = s.log := rfl
@[simp] theorem setItem_badLog (s : State) (g i p : Nat) (x : Item) : (setItem s g i p x).badLog = s.badLog := rfl
@[simp] theorem setItem_fixed (s : State) (g i p : Nat) (x : Item) : (setItem s g i p x).fixed = s.fixed := rfl
@[simp] theorem setItem_lost (s : State) (g i p : Nat) (x : Item) : (setItem s g i p x).lost = s.lost := rfl
@[simp] theorem setItem_ctx (s : State) (g i p : Nat) (x : Item) : (setItem s g i p x).ctx = s.ctx := rfl
@[simp] theorem setItem_cores (s : State) (g i p : Nat) (x : Item) : (setItem s g i p x).cores = s.cores := rfl
@[simp] theorem setItem_dies (s : State) (g i p : Nat) (x : Item) : (setItem s g i p x).dies = s.dies := rfl
@[simp] theorem setItem_writers (s : State) (g i p : Nat) (x : Item) : (setItem s g i p x).writers = s.writers := rfl
@[simp] theorem setItem_stks (s : State) (g i p : Nat) (x : Item) : (setItem s g i p x).stks = s.stks := rfl
@[simp] theorem setItem_fns (s : State) (g i p : Nat) (x : Item) : (setItem s g i p x).fns = s.fns := rfl
@[simp] theorem setItem_launches (s : State) (g i p : Nat) (x : Item) : (setItem s g i p x).launches = s.launches := rfl
@[simp] theorem setItem_spans (s : State) (g i p : Nat) (x : Item) : (setItem s g i p x).spans = s.spans := rfl
@[simp] theorem setItem_copies (s : State) (g i p : Nat) (x : Item) : (setItem s g i p x).copies = s.copies := rfl
@[simp] theorem setItem_fillq (s : State) (g i p : Nat) (x : Item) : (setItem s g i p x).fillq = s.fillq := rfl
@[simp] theorem setItem_rootOps (s : State) (g i p : Nat) (x : Item) : (setItem s g i p x).rootOps = s.rootOps := rfl
@[simp] theorem setItem_migs (s : State) (g i p : Nat) (x : Item) : (setItem s g i p x).migs = s.migs := rfl
@[simp] theorem setItem_capture (s : State) (g i p : Nat) (x : Item) : (setItem s g i p x).capture = s.capture := rfl
@[simp] theorem setItem_fabric (s : State) (g i p : Nat) (x : Item) : (setItem s g i p x).fabric = s.fabric := rfl
@[simp] theorem setItem_nextId (s : State) (g i p : Nat) (x : Item) : (setItem s g i p x).nextId = s.nextId := rfl
@[simp] theorem setItem_free (s : State) (g i p : Nat) (x : Item) : (setItem s g i p x).free = s.free := rfl

@[simp] theorem setSpan_agenda (s : State) (i : Nat) (x : Span) : (setSpan s i x).agenda = s.agenda := rfl
@[simp] theorem setSpan_cursor (s : State) (i : Nat) (x : Span) : (setSpan s i x).cursor = s.cursor := rfl
@[simp] theorem setSpan_now (s : State) (i : Nat) (x : Span) : (setSpan s i x).now = s.now := rfl
@[simp] theorem setSpan_mtime (s : State) (i : Nat) (x : Span) : (setSpan s i x).mtime = s.mtime := rfl
@[simp] theorem setSpan_mtimeAt (s : State) (i : Nat) (x : Span) : (setSpan s i x).mtimeAt = s.mtimeAt := rfl
@[simp] theorem setSpan_boot (s : State) (i : Nat) (x : Span) : (setSpan s i x).boot = s.boot := rfl
@[simp] theorem setSpan_log (s : State) (i : Nat) (x : Span) : (setSpan s i x).log = s.log := rfl
@[simp] theorem setSpan_badLog (s : State) (i : Nat) (x : Span) : (setSpan s i x).badLog = s.badLog := rfl
@[simp] theorem setSpan_fixed (s : State) (i : Nat) (x : Span) : (setSpan s i x).fixed = s.fixed := rfl
@[simp] theorem setSpan_lost (s : State) (i : Nat) (x : Span) : (setSpan s i x).lost = s.lost := rfl
@[simp] theorem setSpan_ctx (s : State) (i : Nat) (x : Span) : (setSpan s i x).ctx = s.ctx := rfl
@[simp] theorem setSpan_cores (s : State) (i : Nat) (x : Span) : (setSpan s i x).cores = s.cores := rfl
@[simp] theorem setSpan_dies (s : State) (i : Nat) (x : Span) : (setSpan s i x).dies = s.dies := rfl
@[simp] theorem setSpan_writers (s : State) (i : Nat) (x : Span) : (setSpan s i x).writers = s.writers := rfl
@[simp] theorem setSpan_stks (s : State) (i : Nat) (x : Span) : (setSpan s i x).stks = s.stks := rfl
@[simp] theorem setSpan_fns (s : State) (i : Nat) (x : Span) : (setSpan s i x).fns = s.fns := rfl
@[simp] theorem setSpan_launches (s : State) (i : Nat) (x : Span) : (setSpan s i x).launches = s.launches := rfl
@[simp] theorem setSpan_gangs (s : State) (i : Nat) (x : Span) : (setSpan s i x).gangs = s.gangs := rfl
@[simp] theorem setSpan_copies (s : State) (i : Nat) (x : Span) : (setSpan s i x).copies = s.copies := rfl
@[simp] theorem setSpan_fillq (s : State) (i : Nat) (x : Span) : (setSpan s i x).fillq = s.fillq := rfl
@[simp] theorem setSpan_rootOps (s : State) (i : Nat) (x : Span) : (setSpan s i x).rootOps = s.rootOps := rfl
@[simp] theorem setSpan_migs (s : State) (i : Nat) (x : Span) : (setSpan s i x).migs = s.migs := rfl
@[simp] theorem setSpan_capture (s : State) (i : Nat) (x : Span) : (setSpan s i x).capture = s.capture := rfl
@[simp] theorem setSpan_fabric (s : State) (i : Nat) (x : Span) : (setSpan s i x).fabric = s.fabric := rfl
@[simp] theorem setSpan_nextId (s : State) (i : Nat) (x : Span) : (setSpan s i x).nextId = s.nextId := rfl
@[simp] theorem setSpan_free (s : State) (i : Nat) (x : Span) : (setSpan s i x).free = s.free := rfl
@[simp] theorem spanAt_setSpan (s : State) (i : Nat) (x : Span) : spanAt (setSpan s i x) i = x := by simp [spanAt, setSpan]
@[simp] theorem spanAt_setSpan_ne (s : State) (i : Nat) (x : Span) {j : Nat} (h : i ≠ j) : spanAt (setSpan s i x) j = spanAt s j := by
  simp [spanAt, setSpan, h]

@[simp] theorem setLaunch_agenda (s : State) (i : Nat) (x : Launch) : (setLaunch s i x).agenda = s.agenda := rfl
@[simp] theorem setLaunch_cursor (s : State) (i : Nat) (x : Launch) : (setLaunch s i x).cursor = s.cursor := rfl
@[simp] theorem setLaunch_now (s : State) (i : Nat) (x : Launch) : (setLaunch s i x).now = s.now := rfl
@[simp] theorem setLaunch_mtime (s : State) (i : Nat) (x : Launch) : (setLaunch s i x).mtime = s.mtime := rfl
@[simp] theorem setLaunch_mtimeAt (s : State) (i : Nat) (x : Launch) : (setLaunch s i x).mtimeAt = s.mtimeAt := rfl
@[simp] theorem setLaunch_boot (s : State) (i : Nat) (x : Launch) : (setLaunch s i x).boot = s.boot := rfl
@[simp] theorem setLaunch_log (s : State) (i : Nat) (x : Launch) : (setLaunch s i x).log = s.log := rfl
@[simp] theorem setLaunch_badLog (s : State) (i : Nat) (x : Launch) : (setLaunch s i x).badLog = s.badLog := rfl
@[simp] theorem setLaunch_fixed (s : State) (i : Nat) (x : Launch) : (setLaunch s i x).fixed = s.fixed := rfl
@[simp] theorem setLaunch_lost (s : State) (i : Nat) (x : Launch) : (setLaunch s i x).lost = s.lost := rfl
@[simp] theorem setLaunch_ctx (s : State) (i : Nat) (x : Launch) : (setLaunch s i x).ctx = s.ctx := rfl
@[simp] theorem setLaunch_cores (s : State) (i : Nat) (x : Launch) : (setLaunch s i x).cores = s.cores := rfl
@[simp] theorem setLaunch_dies (s : State) (i : Nat) (x : Launch) : (setLaunch s i x).dies = s.dies := rfl
@[simp] theorem setLaunch_writers (s : State) (i : Nat) (x : Launch) : (setLaunch s i x).writers = s.writers := rfl
@[simp] theorem setLaunch_stks (s : State) (i : Nat) (x : Launch) : (setLaunch s i x).stks = s.stks := rfl
@[simp] theorem setLaunch_fns (s : State) (i : Nat) (x : Launch) : (setLaunch s i x).fns = s.fns := rfl
@[simp] theorem setLaunch_gangs (s : State) (i : Nat) (x : Launch) : (setLaunch s i x).gangs = s.gangs := rfl
@[simp] theorem setLaunch_spans (s : State) (i : Nat) (x : Launch) : (setLaunch s i x).spans = s.spans := rfl
@[simp] theorem setLaunch_copies (s : State) (i : Nat) (x : Launch) : (setLaunch s i x).copies = s.copies := rfl
@[simp] theorem setLaunch_fillq (s : State) (i : Nat) (x : Launch) : (setLaunch s i x).fillq = s.fillq := rfl
@[simp] theorem setLaunch_rootOps (s : State) (i : Nat) (x : Launch) : (setLaunch s i x).rootOps = s.rootOps := rfl
@[simp] theorem setLaunch_migs (s : State) (i : Nat) (x : Launch) : (setLaunch s i x).migs = s.migs := rfl
@[simp] theorem setLaunch_capture (s : State) (i : Nat) (x : Launch) : (setLaunch s i x).capture = s.capture := rfl
@[simp] theorem setLaunch_fabric (s : State) (i : Nat) (x : Launch) : (setLaunch s i x).fabric = s.fabric := rfl
@[simp] theorem setLaunch_nextId (s : State) (i : Nat) (x : Launch) : (setLaunch s i x).nextId = s.nextId := rfl
@[simp] theorem setLaunch_free (s : State) (i : Nat) (x : Launch) : (setLaunch s i x).free = s.free := rfl
@[simp] theorem launchAt_setLaunch (s : State) (i : Nat) (x : Launch) : launchAt (setLaunch s i x) i = x := by simp [launchAt, setLaunch]
@[simp] theorem launchAt_setLaunch_ne (s : State) (i : Nat) (x : Launch) {j : Nat} (h : i ≠ j) : launchAt (setLaunch s i x) j = launchAt s j := by
  simp [launchAt, setLaunch, h]

@[simp] theorem setCopy_agenda (s : State) (i : Nat) (x : Copy) : (setCopy s i x).agenda = s.agenda := rfl
@[simp] theorem setCopy_cursor (s : State) (i : Nat) (x : Copy) : (setCopy s i x).cursor = s.cursor := rfl
@[simp] theorem setCopy_now (s : State) (i : Nat) (x : Copy) : (setCopy s i x).now = s.now := rfl
@[simp] theorem setCopy_mtime (s : State) (i : Nat) (x : Copy) : (setCopy s i x).mtime = s.mtime := rfl
@[simp] theorem setCopy_mtimeAt (s : State) (i : Nat) (x : Copy) : (setCopy s i x).mtimeAt = s.mtimeAt := rfl
@[simp] theorem setCopy_boot (s : State) (i : Nat) (x : Copy) : (setCopy s i x).boot = s.boot := rfl
@[simp] theorem setCopy_log (s : State) (i : Nat) (x : Copy) : (setCopy s i x).log = s.log := rfl
@[simp] theorem setCopy_badLog (s : State) (i : Nat) (x : Copy) : (setCopy s i x).badLog = s.badLog := rfl
@[simp] theorem setCopy_fixed (s : State) (i : Nat) (x : Copy) : (setCopy s i x).fixed = s.fixed := rfl
@[simp] theorem setCopy_lost (s : State) (i : Nat) (x : Copy) : (setCopy s i x).lost = s.lost := rfl
@[simp] theorem setCopy_ctx (s : State) (i : Nat) (x : Copy) : (setCopy s i x).ctx = s.ctx := rfl
@[simp] theorem setCopy_cores (s : State) (i : Nat) (x : Copy) : (setCopy s i x).cores = s.cores := rfl
@[simp] theorem setCopy_dies (s : State) (i : Nat) (x : Copy) : (setCopy s i x).dies = s.dies := rfl
@[simp] theorem setCopy_writers (s : State) (i : Nat) (x : Copy) : (setCopy s i x).writers = s.writers := rfl
@[simp] theorem setCopy_stks (s : State) (i : Nat) (x : Copy) : (setCopy s i x).stks = s.stks := rfl
@[simp] theorem setCopy_fns (s : State) (i : Nat) (x : Copy) : (setCopy s i x).fns = s.fns := rfl
@[simp] theorem setCopy_launches (s : State) (i : Nat) (x : Copy) : (setCopy s i x).launches = s.launches := rfl
@[simp] theorem setCopy_gangs (s : State) (i : Nat) (x : Copy) : (setCopy s i x).gangs = s.gangs := rfl
@[simp] theorem setCopy_spans (s : State) (i : Nat) (x : Copy) : (setCopy s i x).spans = s.spans := rfl
@[simp] theorem setCopy_fillq (s : State) (i : Nat) (x : Copy) : (setCopy s i x).fillq = s.fillq := rfl
@[simp] theorem setCopy_rootOps (s : State) (i : Nat) (x : Copy) : (setCopy s i x).rootOps = s.rootOps := rfl
@[simp] theorem setCopy_migs (s : State) (i : Nat) (x : Copy) : (setCopy s i x).migs = s.migs := rfl
@[simp] theorem setCopy_capture (s : State) (i : Nat) (x : Copy) : (setCopy s i x).capture = s.capture := rfl
@[simp] theorem setCopy_fabric (s : State) (i : Nat) (x : Copy) : (setCopy s i x).fabric = s.fabric := rfl
@[simp] theorem setCopy_nextId (s : State) (i : Nat) (x : Copy) : (setCopy s i x).nextId = s.nextId := rfl
@[simp] theorem setCopy_free (s : State) (i : Nat) (x : Copy) : (setCopy s i x).free = s.free := rfl

@[simp] theorem setRootOp_agenda (s : State) (i : Nat) (x : RootOp) : (setRootOp s i x).agenda = s.agenda := rfl
@[simp] theorem setRootOp_cursor (s : State) (i : Nat) (x : RootOp) : (setRootOp s i x).cursor = s.cursor := rfl
@[simp] theorem setRootOp_now (s : State) (i : Nat) (x : RootOp) : (setRootOp s i x).now = s.now := rfl
@[simp] theorem setRootOp_mtime (s : State) (i : Nat) (x : RootOp) : (setRootOp s i x).mtime = s.mtime := rfl
@[simp] theorem setRootOp_mtimeAt (s : State) (i : Nat) (x : RootOp) : (setRootOp s i x).mtimeAt = s.mtimeAt := rfl
@[simp] theorem setRootOp_boot (s : State) (i : Nat) (x : RootOp) : (setRootOp s i x).boot = s.boot := rfl
@[simp] theorem setRootOp_log (s : State) (i : Nat) (x : RootOp) : (setRootOp s i x).log = s.log := rfl
@[simp] theorem setRootOp_badLog (s : State) (i : Nat) (x : RootOp) : (setRootOp s i x).badLog = s.badLog := rfl
@[simp] theorem setRootOp_fixed (s : State) (i : Nat) (x : RootOp) : (setRootOp s i x).fixed = s.fixed := rfl
@[simp] theorem setRootOp_lost (s : State) (i : Nat) (x : RootOp) : (setRootOp s i x).lost = s.lost := rfl
@[simp] theorem setRootOp_ctx (s : State) (i : Nat) (x : RootOp) : (setRootOp s i x).ctx = s.ctx := rfl
@[simp] theorem setRootOp_cores (s : State) (i : Nat) (x : RootOp) : (setRootOp s i x).cores = s.cores := rfl
@[simp] theorem setRootOp_dies (s : State) (i : Nat) (x : RootOp) : (setRootOp s i x).dies = s.dies := rfl
@[simp] theorem setRootOp_writers (s : State) (i : Nat) (x : RootOp) : (setRootOp s i x).writers = s.writers := rfl
@[simp] theorem setRootOp_stks (s : State) (i : Nat) (x : RootOp) : (setRootOp s i x).stks = s.stks := rfl
@[simp] theorem setRootOp_fns (s : State) (i : Nat) (x : RootOp) : (setRootOp s i x).fns = s.fns := rfl
@[simp] theorem setRootOp_launches (s : State) (i : Nat) (x : RootOp) : (setRootOp s i x).launches = s.launches := rfl
@[simp] theorem setRootOp_gangs (s : State) (i : Nat) (x : RootOp) : (setRootOp s i x).gangs = s.gangs := rfl
@[simp] theorem setRootOp_spans (s : State) (i : Nat) (x : RootOp) : (setRootOp s i x).spans = s.spans := rfl
@[simp] theorem setRootOp_copies (s : State) (i : Nat) (x : RootOp) : (setRootOp s i x).copies = s.copies := rfl
@[simp] theorem setRootOp_fillq (s : State) (i : Nat) (x : RootOp) : (setRootOp s i x).fillq = s.fillq := rfl
@[simp] theorem setRootOp_migs (s : State) (i : Nat) (x : RootOp) : (setRootOp s i x).migs = s.migs := rfl
@[simp] theorem setRootOp_capture (s : State) (i : Nat) (x : RootOp) : (setRootOp s i x).capture = s.capture := rfl
@[simp] theorem setRootOp_fabric (s : State) (i : Nat) (x : RootOp) : (setRootOp s i x).fabric = s.fabric := rfl
@[simp] theorem setRootOp_nextId (s : State) (i : Nat) (x : RootOp) : (setRootOp s i x).nextId = s.nextId := rfl
@[simp] theorem setRootOp_free (s : State) (i : Nat) (x : RootOp) : (setRootOp s i x).free = s.free := rfl

@[simp] theorem dieAt_setCore_frame (s : State) (c : Nat) (x : Core) (a : Nat) : dieAt (setCore s c x) a = dieAt s a := rfl
@[simp] theorem writerAt_setCore_frame (s : State) (c : Nat) (x : Core) (a : Nat) : writerAt (setCore s c x) a = writerAt s a := rfl
@[simp] theorem stackAt_setCore_frame (s : State) (c : Nat) (x : Core) (a : Nat) : stackAt (setCore s c x) a = stackAt s a := rfl
@[simp] theorem fnAt_setCore_frame (s : State) (c : Nat) (x : Core) (a : Nat) : fnAt (setCore s c x) a = fnAt s a := rfl
@[simp] theorem gangAt_setCore_frame (s : State) (c : Nat) (x : Core) (a : Nat) : gangAt (setCore s c x) a = gangAt s a := rfl
@[simp] theorem groupAt_setCore_frame (s : State) (c : Nat) (x : Core) (a b : Nat) : groupAt (setCore s c x) a b = groupAt s a b := rfl
@[simp] theorem itemAt_setCore_frame (s : State) (c : Nat) (x : Core) (a b e : Nat) : itemAt (setCore s c x) a b e = itemAt s a b e := rfl
@[simp] theorem spanAt_setCore_frame (s : State) (c : Nat) (x : Core) (a : Nat) : spanAt (setCore s c x) a = spanAt s a := rfl
@[simp] theorem launchAt_setCore_frame (s : State) (c : Nat) (x : Core) (a : Nat) : launchAt (setCore s c x) a = launchAt s a := rfl
@[simp] theorem dieAt_setLane_frame (s : State) (c l : Nat) (x : Lane) (a : Nat) : dieAt (setLane s c l x) a = dieAt s a := rfl
@[simp] theorem writerAt_setLane_frame (s : State) (c l : Nat) (x : Lane) (a : Nat) : writerAt (setLane s c l x) a = writerAt s a := rfl
@[simp] theorem stackAt_setLane_frame (s : State) (c l : Nat) (x : Lane) (a : Nat) : stackAt (setLane s c l x) a = stackAt s a := rfl
@[simp] theorem fnAt_setLane_frame (s : State) (c l : Nat) (x : Lane) (a : Nat) : fnAt (setLane s c l x) a = fnAt s a := rfl
@[simp] theorem gangAt_setLane_frame (s : State) (c l : Nat) (x : Lane) (a : Nat) : gangAt (setLane s c l x) a = gangAt s a := rfl
@[simp] theorem groupAt_setLane_frame (s : State) (c l : Nat) (x : Lane) (a b : Nat) : groupAt (setLane s c l x) a b = groupAt s a b := rfl
@[simp] theorem itemAt_setLane_frame (s : State) (c l : Nat) (x : Lane) (a b e : Nat) : itemAt (setLane s c l x) a b e = itemAt s a b e := rfl
@[simp] theorem spanAt_setLane_frame (s : State) (c l : Nat) (x : Lane) (a : Nat) : spanAt (setLane s c l x) a = spanAt s a := rfl
@[simp] theorem launchAt_setLane_frame (s : State) (c l : Nat) (x : Lane) (a : Nat) : launchAt (setLane s c l x) a = launchAt s a := rfl
@[simp] theorem dieAt_count_frame (s : State) (c k n : Nat) (a : Nat) : dieAt (count s c k n) a = dieAt s a := rfl
@[simp] theorem writerAt_count_frame (s : State) (c k n : Nat) (a : Nat) : writerAt (count s c k n) a = writerAt s a := rfl
@[simp] theorem stackAt_count_frame (s : State) (c k n : Nat) (a : Nat) : stackAt (count s c k n) a = stackAt s a := rfl
@[simp] theorem fnAt_count_frame (s : State) (c k n : Nat) (a : Nat) : fnAt (count s c k n) a = fnAt s a := rfl
@[simp] theorem gangAt_count_frame (s : State) (c k n : Nat) (a : Nat) : gangAt (count s c k n) a = gangAt s a := rfl
@[simp] theorem groupAt_count_frame (s : State) (c k n : Nat) (a b : Nat) : groupAt (count s c k n) a b = groupAt s a b := rfl
@[simp] theorem itemAt_count_frame (s : State) (c k n : Nat) (a b e : Nat) : itemAt (count s c k n) a b e = itemAt s a b e := rfl
@[simp] theorem spanAt_count_frame (s : State) (c k n : Nat) (a : Nat) : spanAt (count s c k n) a = spanAt s a := rfl
@[simp] theorem launchAt_count_frame (s : State) (c k n : Nat) (a : Nat) : launchAt (count s c k n) a = launchAt s a := rfl
@[simp] theorem coreAt_setDie_frame (s : State) (d : Nat) (x : Die) (a : Nat) : coreAt (setDie s d x) a = coreAt s a := rfl
@[simp] theorem writerAt_setDie_frame (s : State) (d : Nat) (x : Die) (a : Nat) : writerAt (setDie s d x) a = writerAt s a := rfl
@[simp] theorem stackAt_setDie_frame (s : State) (d : Nat) (x : Die) (a : Nat) : stackAt (setDie s d x) a = stackAt s a := rfl
@[simp] theorem fnAt_setDie_frame (s : State) (d : Nat) (x : Die) (a : Nat) : fnAt (setDie s d x) a = fnAt s a := rfl
@[simp] theorem gangAt_setDie_frame (s : State) (d : Nat) (x : Die) (a : Nat) : gangAt (setDie s d x) a = gangAt s a := rfl
@[simp] theorem groupAt_setDie_frame (s : State) (d : Nat) (x : Die) (a b : Nat) : groupAt (setDie s d x) a b = groupAt s a b := rfl
@[simp] theorem itemAt_setDie_frame (s : State) (d : Nat) (x : Die) (a b e : Nat) : itemAt (setDie s d x) a b e = itemAt s a b e := rfl
@[simp] theorem spanAt_setDie_frame (s : State) (d : Nat) (x : Die) (a : Nat) : spanAt (setDie s d x) a = spanAt s a := rfl
@[simp] theorem laneAt_setDie_frame (s : State) (d : Nat) (x : Die) (a b : Nat) : laneAt (setDie s d x) a b = laneAt s a b := rfl
@[simp] theorem launchAt_setDie_frame (s : State) (d : Nat) (x : Die) (a : Nat) : launchAt (setDie s d x) a = launchAt s a := rfl
@[simp] theorem coreAt_setWriter_frame (s : State) (w : Nat) (x : Writer) (a : Nat) : coreAt (setWriter s w x) a = coreAt s a := rfl
@[simp] theorem dieAt_setWriter_frame (s : State) (w : Nat) (x : Writer) (a : Nat) : dieAt (setWriter s w x) a = dieAt s a := rfl
@[simp] theorem stackAt_setWriter_frame (s : State) (w : Nat) (x : Writer) (a : Nat) : stackAt (setWriter s w x) a = stackAt s a := rfl
@[simp] theorem fnAt_setWriter_frame (s : State) (w : Nat) (x : Writer) (a : Nat) : fnAt (setWriter s w x) a = fnAt s a := rfl
@[simp] theorem gangAt_setWriter_frame (s : State) (w : Nat) (x : Writer) (a : Nat) : gangAt (setWriter s w x) a = gangAt s a := rfl
@[simp] theorem groupAt_setWriter_frame (s : State) (w : Nat) (x : Writer) (a b : Nat) : groupAt (setWriter s w x) a b = groupAt s a b := rfl
@[simp] theorem itemAt_setWriter_frame (s : State) (w : Nat) (x : Writer) (a b e : Nat) : itemAt (setWriter s w x) a b e = itemAt s a b e := rfl
@[simp] theorem spanAt_setWriter_frame (s : State) (w : Nat) (x : Writer) (a : Nat) : spanAt (setWriter s w x) a = spanAt s a := rfl
@[simp] theorem laneAt_setWriter_frame (s : State) (w : Nat) (x : Writer) (a b : Nat) : laneAt (setWriter s w x) a b = laneAt s a b := rfl
@[simp] theorem launchAt_setWriter_frame (s : State) (w : Nat) (x : Writer) (a : Nat) : launchAt (setWriter s w x) a = launchAt s a := rfl
@[simp] theorem coreAt_setStack_frame (s : State) (k : Nat) (x : Stack) (a : Nat) : coreAt (setStack s k x) a = coreAt s a := rfl
@[simp] theorem dieAt_setStack_frame (s : State) (k : Nat) (x : Stack) (a : Nat) : dieAt (setStack s k x) a = dieAt s a := rfl
@[simp] theorem writerAt_setStack_frame (s : State) (k : Nat) (x : Stack) (a : Nat) : writerAt (setStack s k x) a = writerAt s a := rfl
@[simp] theorem fnAt_setStack_frame (s : State) (k : Nat) (x : Stack) (a : Nat) : fnAt (setStack s k x) a = fnAt s a := rfl
@[simp] theorem gangAt_setStack_frame (s : State) (k : Nat) (x : Stack) (a : Nat) : gangAt (setStack s k x) a = gangAt s a := rfl
@[simp] theorem groupAt_setStack_frame (s : State) (k : Nat) (x : Stack) (a b : Nat) : groupAt (setStack s k x) a b = groupAt s a b := rfl
@[simp] theorem itemAt_setStack_frame (s : State) (k : Nat) (x : Stack) (a b e : Nat) : itemAt (setStack s k x) a b e = itemAt s a b e := rfl
@[simp] theorem spanAt_setStack_frame (s : State) (k : Nat) (x : Stack) (a : Nat) : spanAt (setStack s k x) a = spanAt s a := rfl
@[simp] theorem laneAt_setStack_frame (s : State) (k : Nat) (x : Stack) (a b : Nat) : laneAt (setStack s k x) a b = laneAt s a b := rfl
@[simp] theorem launchAt_setStack_frame (s : State) (k : Nat) (x : Stack) (a : Nat) : launchAt (setStack s k x) a = launchAt s a := rfl
@[simp] theorem coreAt_setFn_frame (s : State) (f : Nat) (x : Fn) (a : Nat) : coreAt (setFn s f x) a = coreAt s a := rfl
@[simp] theorem dieAt_setFn_frame (s : State) (f : Nat) (x : Fn) (a : Nat) : dieAt (setFn s f x) a = dieAt s a := rfl
@[simp] theorem writerAt_setFn_frame (s : State) (f : Nat) (x : Fn) (a : Nat) : writerAt (setFn s f x) a = writerAt s a := rfl
@[simp] theorem stackAt_setFn_frame (s : State) (f : Nat) (x : Fn) (a : Nat) : stackAt (setFn s f x) a = stackAt s a := rfl
@[simp] theorem gangAt_setFn_frame (s : State) (f : Nat) (x : Fn) (a : Nat) : gangAt (setFn s f x) a = gangAt s a := rfl
@[simp] theorem groupAt_setFn_frame (s : State) (f : Nat) (x : Fn) (a b : Nat) : groupAt (setFn s f x) a b = groupAt s a b := rfl
@[simp] theorem itemAt_setFn_frame (s : State) (f : Nat) (x : Fn) (a b e : Nat) : itemAt (setFn s f x) a b e = itemAt s a b e := rfl
@[simp] theorem spanAt_setFn_frame (s : State) (f : Nat) (x : Fn) (a : Nat) : spanAt (setFn s f x) a = spanAt s a := rfl
@[simp] theorem laneAt_setFn_frame (s : State) (f : Nat) (x : Fn) (a b : Nat) : laneAt (setFn s f x) a b = laneAt s a b := rfl
@[simp] theorem launchAt_setFn_frame (s : State) (f : Nat) (x : Fn) (a : Nat) : launchAt (setFn s f x) a = launchAt s a := rfl
@[simp] theorem coreAt_setGang_frame (s : State) (g : Nat) (x : Gang) (a : Nat) : coreAt (setGang s g x) a = coreAt s a := rfl
@[simp] theorem dieAt_setGang_frame (s : State) (g : Nat) (x : Gang) (a : Nat) : dieAt (setGang s g x) a = dieAt s a := rfl
@[simp] theorem writerAt_setGang_frame (s : State) (g : Nat) (x : Gang) (a : Nat) : writerAt (setGang s g x) a = writerAt s a := rfl
@[simp] theorem stackAt_setGang_frame (s : State) (g : Nat) (x : Gang) (a : Nat) : stackAt (setGang s g x) a = stackAt s a := rfl
@[simp] theorem fnAt_setGang_frame (s : State) (g : Nat) (x : Gang) (a : Nat) : fnAt (setGang s g x) a = fnAt s a := rfl
@[simp] theorem spanAt_setGang_frame (s : State) (g : Nat) (x : Gang) (a : Nat) : spanAt (setGang s g x) a = spanAt s a := rfl
@[simp] theorem laneAt_setGang_frame (s : State) (g : Nat) (x : Gang) (a b : Nat) : laneAt (setGang s g x) a b = laneAt s a b := rfl
@[simp] theorem launchAt_setGang_frame (s : State) (g : Nat) (x : Gang) (a : Nat) : launchAt (setGang s g x) a = launchAt s a := rfl
@[simp] theorem coreAt_setGroup_frame (s : State) (g i : Nat) (x : Group) (a : Nat) : coreAt (setGroup s g i x) a = coreAt s a := rfl
@[simp] theorem dieAt_setGroup_frame (s : State) (g i : Nat) (x : Group) (a : Nat) : dieAt (setGroup s g i x) a = dieAt s a := rfl
@[simp] theorem writerAt_setGroup_frame (s : State) (g i : Nat) (x : Group) (a : Nat) : writerAt (setGroup s g i x) a = writerAt s a := rfl
@[simp] theorem stackAt_setGroup_frame (s : State) (g i : Nat) (x : Group) (a : Nat) : stackAt (setGroup s g i x) a = stackAt s a := rfl
@[simp] theorem fnAt_setGroup_frame (s : State) (g i : Nat) (x : Group) (a : Nat) : fnAt (setGroup s g i x) a = fnAt s a := rfl
@[simp] theorem spanAt_setGroup_frame (s : State) (g i : Nat) (x : Group) (a : Nat) : spanAt (setGroup s g i x) a = spanAt s a := rfl
@[simp] theorem laneAt_setGroup_frame (s : State) (g i : Nat) (x : Group) (a b : Nat) : laneAt (setGroup s g i x) a b = laneAt s a b := rfl
@[simp] theorem launchAt_setGroup_frame (s : State) (g i : Nat) (x : Group) (a : Nat) : launchAt (setGroup s g i x) a = launchAt s a := rfl
@[simp] theorem coreAt_setItem_frame (s : State) (g i p : Nat) (x : Item) (a : Nat) : coreAt (setItem s g i p x) a = coreAt s a := rfl
@[simp] theorem dieAt_setItem_frame (s : State) (g i p : Nat) (x : Item) (a : Nat) : dieAt (setItem s g i p x) a = dieAt s a := rfl
@[simp] theorem writerAt_setItem_frame (s : State) (g i p : Nat) (x : Item) (a : Nat) : writerAt (setItem s g i p x) a = writerAt s a := rfl
@[simp] theorem stackAt_setItem_frame (s : State) (g i p : Nat) (x : Item) (a : Nat) : stackAt (setItem s g i p x) a = stackAt s a := rfl
@[simp] theorem fnAt_setItem_frame (s : State) (g i p : Nat) (x : Item) (a : Nat) : fnAt (setItem s g i p x) a = fnAt s a := rfl
@[simp] theorem spanAt_setItem_frame (s : State) (g i p : Nat) (x : Item) (a : Nat) : spanAt (setItem s g i p x) a = spanAt s a := rfl
@[simp] theorem laneAt_setItem_frame (s : State) (g i p : Nat) (x : Item) (a b : Nat) : laneAt (setItem s g i p x) a b = laneAt s a b := rfl
@[simp] theorem launchAt_setItem_frame (s : State) (g i p : Nat) (x : Item) (a : Nat) : launchAt (setItem s g i p x) a = launchAt s a := rfl
@[simp] theorem coreAt_setSpan_frame (s : State) (i : Nat) (x : Span) (a : Nat) : coreAt (setSpan s i x) a = coreAt s a := rfl
@[simp] theorem dieAt_setSpan_frame (s : State) (i : Nat) (x : Span) (a : Nat) : dieAt (setSpan s i x) a = dieAt s a := rfl
@[simp] theorem writerAt_setSpan_frame (s : State) (i : Nat) (x : Span) (a : Nat) : writerAt (setSpan s i x) a = writerAt s a := rfl
@[simp] theorem stackAt_setSpan_frame (s : State) (i : Nat) (x : Span) (a : Nat) : stackAt (setSpan s i x) a = stackAt s a := rfl
@[simp] theorem fnAt_setSpan_frame (s : State) (i : Nat) (x : Span) (a : Nat) : fnAt (setSpan s i x) a = fnAt s a := rfl
@[simp] theorem gangAt_setSpan_frame (s : State) (i : Nat) (x : Span) (a : Nat) : gangAt (setSpan s i x) a = gangAt s a := rfl
@[simp] theorem groupAt_setSpan_frame (s : State) (i : Nat) (x : Span) (a b : Nat) : groupAt (setSpan s i x) a b = groupAt s a b := rfl
@[simp] theorem itemAt_setSpan_frame (s : State) (i : Nat) (x : Span) (a b e : Nat) : itemAt (setSpan s i x) a b e = itemAt s a b e := rfl
@[simp] theorem laneAt_setSpan_frame (s : State) (i : Nat) (x : Span) (a b : Nat) : laneAt (setSpan s i x) a b = laneAt s a b := rfl
@[simp] theorem launchAt_setSpan_frame (s : State) (i : Nat) (x : Span) (a : Nat) : launchAt (setSpan s i x) a = launchAt s a := rfl
@[simp] theorem coreAt_setLaunch_frame (s : State) (i : Nat) (x : Launch) (a : Nat) : coreAt (setLaunch s i x) a = coreAt s a := rfl
@[simp] theorem dieAt_setLaunch_frame (s : State) (i : Nat) (x : Launch) (a : Nat) : dieAt (setLaunch s i x) a = dieAt s a := rfl
@[simp] theorem writerAt_setLaunch_frame (s : State) (i : Nat) (x : Launch) (a : Nat) : writerAt (setLaunch s i x) a = writerAt s a := rfl
@[simp] theorem stackAt_setLaunch_frame (s : State) (i : Nat) (x : Launch) (a : Nat) : stackAt (setLaunch s i x) a = stackAt s a := rfl
@[simp] theorem fnAt_setLaunch_frame (s : State) (i : Nat) (x : Launch) (a : Nat) : fnAt (setLaunch s i x) a = fnAt s a := rfl
@[simp] theorem gangAt_setLaunch_frame (s : State) (i : Nat) (x : Launch) (a : Nat) : gangAt (setLaunch s i x) a = gangAt s a := rfl
@[simp] theorem groupAt_setLaunch_frame (s : State) (i : Nat) (x : Launch) (a b : Nat) : groupAt (setLaunch s i x) a b = groupAt s a b := rfl
@[simp] theorem itemAt_setLaunch_frame (s : State) (i : Nat) (x : Launch) (a b e : Nat) : itemAt (setLaunch s i x) a b e = itemAt s a b e := rfl
@[simp] theorem spanAt_setLaunch_frame (s : State) (i : Nat) (x : Launch) (a : Nat) : spanAt (setLaunch s i x) a = spanAt s a := rfl
@[simp] theorem laneAt_setLaunch_frame (s : State) (i : Nat) (x : Launch) (a b : Nat) : laneAt (setLaunch s i x) a b = laneAt s a b := rfl
@[simp] theorem coreAt_setCopy_frame (s : State) (i : Nat) (x : Copy) (a : Nat) : coreAt (setCopy s i x) a = coreAt s a := rfl
@[simp] theorem dieAt_setCopy_frame (s : State) (i : Nat) (x : Copy) (a : Nat) : dieAt (setCopy s i x) a = dieAt s a := rfl
@[simp] theorem writerAt_setCopy_frame (s : State) (i : Nat) (x : Copy) (a : Nat) : writerAt (setCopy s i x) a = writerAt s a := rfl
@[simp] theorem stackAt_setCopy_frame (s : State) (i : Nat) (x : Copy) (a : Nat) : stackAt (setCopy s i x) a = stackAt s a := rfl
@[simp] theorem fnAt_setCopy_frame (s : State) (i : Nat) (x : Copy) (a : Nat) : fnAt (setCopy s i x) a = fnAt s a := rfl
@[simp] theorem gangAt_setCopy_frame (s : State) (i : Nat) (x : Copy) (a : Nat) : gangAt (setCopy s i x) a = gangAt s a := rfl
@[simp] theorem groupAt_setCopy_frame (s : State) (i : Nat) (x : Copy) (a b : Nat) : groupAt (setCopy s i x) a b = groupAt s a b := rfl
@[simp] theorem itemAt_setCopy_frame (s : State) (i : Nat) (x : Copy) (a b e : Nat) : itemAt (setCopy s i x) a b e = itemAt s a b e := rfl
@[simp] theorem spanAt_setCopy_frame (s : State) (i : Nat) (x : Copy) (a : Nat) : spanAt (setCopy s i x) a = spanAt s a := rfl
@[simp] theorem laneAt_setCopy_frame (s : State) (i : Nat) (x : Copy) (a b : Nat) : laneAt (setCopy s i x) a b = laneAt s a b := rfl
@[simp] theorem launchAt_setCopy_frame (s : State) (i : Nat) (x : Copy) (a : Nat) : launchAt (setCopy s i x) a = launchAt s a := rfl
@[simp] theorem coreAt_setRootOp_frame (s : State) (i : Nat) (x : RootOp) (a : Nat) : coreAt (setRootOp s i x) a = coreAt s a := rfl
@[simp] theorem dieAt_setRootOp_frame (s : State) (i : Nat) (x : RootOp) (a : Nat) : dieAt (setRootOp s i x) a = dieAt s a := rfl
@[simp] theorem writerAt_setRootOp_frame (s : State) (i : Nat) (x : RootOp) (a : Nat) : writerAt (setRootOp s i x) a = writerAt s a := rfl
@[simp] theorem stackAt_setRootOp_frame (s : State) (i : Nat) (x : RootOp) (a : Nat) : stackAt (setRootOp s i x) a = stackAt s a := rfl
@[simp] theorem fnAt_setRootOp_frame (s : State) (i : Nat) (x : RootOp) (a : Nat) : fnAt (setRootOp s i x) a = fnAt s a := rfl
@[simp] theorem gangAt_setRootOp_frame (s : State) (i : Nat) (x : RootOp) (a : Nat) : gangAt (setRootOp s i x) a = gangAt s a := rfl
@[simp] theorem groupAt_setRootOp_frame (s : State) (i : Nat) (x : RootOp) (a b : Nat) : groupAt (setRootOp s i x) a b = groupAt s a b := rfl
@[simp] theorem itemAt_setRootOp_frame (s : State) (i : Nat) (x : RootOp) (a b e : Nat) : itemAt (setRootOp s i x) a b e = itemAt s a b e := rfl
@[simp] theorem spanAt_setRootOp_frame (s : State) (i : Nat) (x : RootOp) (a : Nat) : spanAt (setRootOp s i x) a = spanAt s a := rfl
@[simp] theorem laneAt_setRootOp_frame (s : State) (i : Nat) (x : RootOp) (a b : Nat) : laneAt (setRootOp s i x) a b = laneAt s a b := rfl
@[simp] theorem launchAt_setRootOp_frame (s : State) (i : Nat) (x : RootOp) (a : Nat) : launchAt (setRootOp s i x) a = launchAt s a := rfl

end Sys2Proof.Machine
end

