-- ==== Sys2Proof/Laws/Bundles.lean ====
section
/-!
SUPPORT. What the shared operations of an issuing bundle change and what they leave alone (R66, R71, R145, R146): updates of a
group or an item, the advance of program counters, the end of a member.
-/
namespace Sys2Proof.Machine

/-- Only cores, and items and latches of groups, differ. -/
structure SameS (s t : State) : Prop where
  regs : ∀ a b, SameRegs (groupAt s a b) (groupAt t a b)
  gang : ∀ a, { gangAt t a with groups := [] } = { gangAt s a with groups := [] }
  rest : { t with cores := s.cores, gangs := s.gangs } = s

theorem SameS.refl (s : State) : SameS s s := ⟨fun _ _ => .refl _, fun _ => rfl, rfl⟩
theorem SameS.trans {s t u : State} (a : SameS s t) (b : SameS t u) : SameS s u := by
  refine ⟨fun i j => (a.regs i j).trans (b.regs i j), fun i => (b.gang i).trans (a.gang i), ?_⟩
  have ha := a.rest
  have hb := b.rest
  rw [← ha, ← hb]

theorem sameS_setCore (s : State) (c : Nat) (x : Core) : SameS s (setCore s c x) :=
  ⟨fun _ _ => .refl _, fun _ => rfl, rfl⟩
theorem sameS_setLane (s : State) (c l : Nat) (x : Lane) : SameS s (setLane s c l x) := sameS_setCore s c _
theorem sameS_count (s : State) (c k n : Nat) : SameS s (count s c k n) := sameS_setCore s c _

/-- A group after an update of some group of a gang that has it. -/
theorem groupAt_updGroup (s : State) (gang g a b : Nat) (f : Group → Group) :
    groupAt (updGroup s gang g f) a b =
      if gang = a ∧ g = b ∧ ((tfind s.gangs gang).bind (fun k => tfind k.groups g)).isSome = true then f (groupAt s a b)
      else groupAt s a b := by
  unfold updGroup
  cases hk : tfind s.gangs gang with
  | none => simp
  | some k =>
    cases hx : tfind k.groups g with
    | none => simp [hx]
    | some x =>
      simp only [hx, Option.bind_some, Option.isSome_some, and_true]
      by_cases e : gang = a
      · subst e
        by_cases e2 : g = b
        · subst e2; simp [groupAt, gangAt, setGang, tget, hk, hx]
        · simp [groupAt, gangAt, setGang, tget, hk, e2]
      · simp [groupAt, gangAt, setGang, tget, e]

theorem gangAt_updGroup (s : State) (gang g a : Nat) (f : Group → Group) :
    { gangAt (updGroup s gang g f) a with groups := [] } = { gangAt s a with groups := [] } := by
  unfold updGroup
  split
  · rfl
  · rename_i k hk
    split
    · rfl
    · by_cases e : gang = a
      · subst e; simp [gangAt, setGang, tget, hk]
      · simp [gangAt, setGang, tget, e]

theorem updGroup_rest (s : State) (gang g : Nat) (f : Group → Group) :
    { updGroup s gang g f with cores := s.cores, gangs := s.gangs } = s := by
  unfold updGroup
  split
  · rfl
  · split <;> rfl

theorem sameS_updGroup (s : State) (gang g : Nat) (f : Group → Group) (h : ∀ x, SameRegs x (f x)) :
    SameS s (updGroup s gang g f) := by
  refine ⟨fun a b => ?_, fun a => gangAt_updGroup s gang g a f, updGroup_rest s gang g f⟩
  rw [groupAt_updGroup]
  split
  · exact h _
  · exact .refl _

theorem sameS_updItem (s : State) (gang g p : Nat) (f : Item → Item) : SameS s (updItem s gang g p f) :=
  sameS_updGroup s gang g _ (fun x => by
    split
    · exact groupSetItem_same x p _
    · exact .refl x)

theorem sameS_foldl {γ : Type} (f : State → γ → State) (h : ∀ s a, SameS s (f s a)) (l : List γ) (s : State) :
    SameS s (l.foldl f s) := by
  induction l generalizing s with
  | nil => exact .refl s
  | cons a r ih => exact (h s a).trans (ih _)

theorem sameS_updItems (s : State) (gang : Nat) (ms : List (Nat × Nat)) (f : Item → Item) :
    SameS s (updItems s gang ms f) :=
  sameS_foldl (fun s (m : Nat × Nat) => updItem s gang m.1 m.2 f) (fun s m => sameS_updItem s gang m.1 m.2 f) ms s
theorem sameS_dropRings (s : State) (gang : Nat) (ms : List (Nat × Nat)) : SameS s (dropRings s gang ms) :=
  sameS_foldl (fun s (m : Nat × Nat) => updGroup s gang m.1 (fun x => dropRing x m.2))
    (fun s m => sameS_updGroup s gang m.1 _ (fun x => dropRing_same x m.2)) ms s
theorem sameS_updBundle (s : State) (w : Where) (f : Bundle → Bundle) : SameS s (updBundle s w f) := sameS_setLane s _ _ _
theorem sameS_dropBundle (s : State) (w : Where) : SameS s (dropBundle s w) := sameS_setLane s _ _ _
theorem sameS_spend (s : State) (w : Where) (clk : Nat) (sym : Bool) : SameS s (spend s w clk sym) := by
  unfold spend
  simp only
  refine SameS.trans ?_ (sameS_setLane _ _ _ _)
  refine (sameS_count s w.core 0 clk).trans ?_
  split
  · exact sameS_count _ _ _ _
  · exact .refl _
theorem sameS_advance (s : State) (gang : Nat) (ms : List (Nat × Nat)) (len : Nat) : SameS s (advance s gang ms len) :=
  sameS_updItems s gang ms _

/-- The end of a member changes nothing but lanes, counters, items and latches (R71, R145). -/
theorem sameS_endMember (s : State) (w : Where) (all rest : List (Nat × Nat)) (k : Link) (switch : Bool) :
    SameS s (endMember s w all rest k switch) := by
  unfold endMember
  simp only
  split
  · exact sameS_updBundle _ _ _
  · have h2 (u : State) : SameS u (if w.b.pend = 2 then updItems u w.b.gang rest
        (fun t => { t with readyAt := (laneAt u w.core w.lane).busy }) else u) := by
      split
      · exact sameS_updItems _ _ _ _
      · exact .refl _
    have h3 (u : State) (f : Bundle → Bundle) : SameS u (if rest.isEmpty then dropBundle u w
        else if switch || w.b.pend ≠ 0 then dropBundle (dropRings u w.b.gang rest) w else updBundle u w f) := by
      split
      · exact sameS_dropBundle _ _
      · split
        · exact (sameS_dropRings _ _ _).trans (sameS_dropBundle _ _)
        · exact sameS_updBundle _ _ _
    exact (sameS_spend _ _ _ _).trans ((sameS_updItems _ _ _ _).trans ((h2 _).trans (h3 _ _)))

/-- The item at a place of a gang, if one is live there. -/
def itemOf (s : State) (gang g p : Nat) : Option Item := itemIn (groupAt s gang g) p

theorem itemAt_of_itemOf {s : State} {gang g p : Nat} {t : Item} (h : itemOf s gang g p = some t) : itemAt s gang g p = t := by
  unfold itemAt
  exact tget_of_tfind _ h

theorem itemIn_groupSetItem (x : Group) (p q : Nat) (t : Item) :
    itemIn (groupSetItem x p t) q = if p = q then some t else itemIn x q := tfind_tput _ _ _ _

theorem hasGroup_of_itemOf {s : State} {gang g p : Nat} (h : (itemOf s gang g p).isSome = true) :
    ((tfind s.gangs gang).bind (fun k => tfind k.groups g)).isSome = true := by
  unfold itemOf groupAt gangAt at h
  cases hk : tfind s.gangs gang with
  | none => simp [tget, hk, itemIn] at h
  | some k =>
    cases hx : tfind k.groups g with
    | none => simp [tget, hk, hx, itemIn] at h
    | some x => simp [hx]

/-- An item after an update of some item. -/
theorem itemOf_updItem (s : State) (gang g p a b q : Nat) (f : Item → Item) :
    itemOf (updItem s gang g p f) a b q =
      if gang = a ∧ g = b ∧ p = q then (itemOf s a b q).map f else itemOf s a b q := by
  unfold itemOf updItem
  rw [groupAt_updGroup]
  by_cases e : gang = a ∧ g = b
  · obtain ⟨rfl, rfl⟩ := e
    by_cases hg : ((tfind s.gangs gang).bind (fun k => tfind k.groups g)).isSome = true
    · simp only [hg, and_self, if_true, true_and]
      cases ht : itemIn (groupAt s gang g) p with
      | none =>
        by_cases e : p = q
        · subst e; simp [ht]
        · simp [e]
      | some t =>
        simp only [itemIn_groupSetItem]
        by_cases e : p = q
        · subst e; simp [ht]
        · simp [e]
    · have none : ∀ q, itemIn (groupAt s gang g) q = none := by
        intro q
        by_contra c
        exact hg (hasGroup_of_itemOf (p := q) (Option.isSome_iff_ne_none.2 c))
      simp [hg, none]
  · have : ¬(gang = a ∧ g = b ∧ ((tfind s.gangs gang).bind (fun k => tfind k.groups g)).isSome = true) := by tauto
    have h2 : ¬(gang = a ∧ g = b ∧ p = q) := by tauto
    simp only [this, if_false, h2]

theorem itemOf_updItems (s : State) (gang a b q : Nat) (ms : List (Nat × Nat)) (f : Item → Item) (nd : ms.Nodup) :
    itemOf (updItems s gang ms f) a b q =
      if gang = a ∧ (b, q) ∈ ms then (itemOf s a b q).map f else itemOf s a b q := by
  unfold updItems
  induction ms generalizing s with
  | nil => simp
  | cons m r ih =>
    obtain ⟨g, p⟩ := m
    have hn := List.nodup_cons.1 nd
    rw [List.foldl_cons, ih _ hn.2, itemOf_updItem]
    by_cases e : gang = a
    · subst e
      by_cases e2 : (b, q) = (g, p)
      · cases e2; simp [hn.1]
      · have : ¬(g = b ∧ p = q) := by rintro ⟨rfl, rfl⟩; exact e2 rfl
        simp [e2, this]
    · simp [e]

end Sys2Proof.Machine
end

