-- ==== Sys2Proof/Laws/Issuing.lean ====
section
/-!
SUPPORT. What an instruction of an issuing bundle can change at all (R66, R145): the shared operations stay within the
members' groups, the issuing lane and its core's counters.
-/
namespace Sys2Proof.Machine
open Sys2Proof

/-- Two items differ in nothing but program counter, latches and readiness. -/
def SameItem (x y : Item) : Prop :=
  { y with pc := x.pc, ring := x.ring, sym := x.sym, unchained := x.unchained, readyAt := x.readyAt } = x

theorem SameItem.refl (x : Item) : SameItem x x := rfl
theorem SameItem.trans {x y z : Item} (a : SameItem x y) (b : SameItem y z) : SameItem x z := by
  unfold SameItem at *
  cases x; cases y; cases z
  simp only [Item.mk.injEq] at a b ⊢
  simp_all

/-- A change of a group that stays within registers, flags, latches and the items at some positions. -/
structure Within (ps : List Nat) (x y : Group) : Prop where
  fields : { y with v := [], c := [], s := [], status := 0, items := [], badL := [], watch := [] } =
    { x with v := [], c := [], s := [], status := 0, items := [], badL := [], watch := [] }
  items : ∀ p, p ∉ ps → itemIn y p = itemIn x p
  kept : ∀ p a, itemIn x p = some a → ∃ b, itemIn y p = some b ∧ SameItem a b

theorem Within.refl (ps : List Nat) (x : Group) : Within ps x x := ⟨rfl, fun _ _ => rfl, fun _ a h => ⟨a, h, .refl a⟩⟩
theorem Within.trans {ps : List Nat} {x y z : Group} (a : Within ps x y) (b : Within ps y z) : Within ps x z := by
  refine ⟨b.fields.trans a.fields, fun p h => (b.items p h).trans (a.items p h), fun p i h => ?_⟩
  obtain ⟨j, hj, e⟩ := a.kept p i h
  obtain ⟨k, hk, e2⟩ := b.kept p j hj
  exact ⟨k, hk, e.trans e2⟩

theorem Within.of_items {ps : List Nat} {x y : Group} (h : y.items = x.items)
    (f : { y with v := [], c := [], s := [], status := 0, items := [], badL := [], watch := [] } =
      { x with v := [], c := [], s := [], status := 0, items := [], badL := [], watch := [] }) : Within ps x y := by
  have e (p : Nat) : itemIn y p = itemIn x p := by simp [itemIn, h]
  exact ⟨f, fun p _ => e p, fun p a ha => ⟨a, by rw [e, ha], .refl a⟩⟩

theorem within_foldl {γ : Type} {ps : List Nat} (f : Group → γ → Group) (l : List γ)
    (h : ∀ x, ∀ a ∈ l, Within ps x (f x a)) (x : Group) : Within ps x (l.foldl f x) := by
  induction l generalizing x with
  | nil => exact .refl _ _
  | cons a r ih => exact (h x a (by simp)).trans (ih (fun x b hb => h x b (by simp [hb])) _)

theorem within_setItem {ps : List Nat} {x : Group} {p : Nat} {a b : Item} (hp : p ∈ ps) (ha : itemIn x p = some a)
    (h : SameItem a b) : Within ps x (groupSetItem x p b) := by
  refine ⟨rfl, fun q hq => ?_, fun q i hi => ?_⟩
  · rw [itemIn_groupSetItem]
    have : p ≠ q := by rintro rfl; exact hq hp
    simp [this]
  · rw [itemIn_groupSetItem]
    by_cases e : p = q
    · subst e
      rw [ha] at hi; cases hi
      exact ⟨b, by simp, h⟩
    · exact ⟨i, by simp [e, hi], .refl i⟩

theorem within_badL {ps : List Nat} {x y : Group} (l : List (Nat × Nat)) (h : Within ps x y) :
    Within ps x { y with badL := l } :=
  ⟨h.fields, h.items, h.kept⟩

theorem within_pushLatch {ps : List Nat} (x : Group) {p : Nat} (e : LRep) (hp : p ∈ ps) : Within ps x (pushLatch x p e) := by
  unfold pushLatch
  split
  · exact .refl _ _
  · rename_i t ht
    exact within_badL _ (within_setItem hp ht rfl)

theorem within_dropRing {ps : List Nat} (x : Group) {p : Nat} (hp : p ∈ ps) : Within ps x (dropRing x p) := by
  unfold dropRing
  split
  · exact .refl _ _
  · rename_i t ht
    exact within_badL _ (within_setItem hp ht rfl)

theorem within_pushAll {ps : List Nat} (x : Group) (qs : List Nat) (es : Nat → List LRep) (h : ∀ p ∈ qs, p ∈ ps) :
    Within ps x (pushAll x qs es) :=
  within_foldl _ _ (fun x p hp => within_foldl _ _ (fun x e _ => within_pushLatch x e (h p hp)) x) x

theorem within_sameButV {ps : List Nat} {x y : Group} (h : SameButV x y) (b : y.badV = x.badV)
    (r : y.used = x.used ∧ y.board = x.board ∧ y.back = x.back) : Within ps x y := by
  refine .of_items h.items ?_
  obtain ⟨r1, r2, r3⟩ := r
  have := h.ox; have := h.oy; have := h.oz; have := h.lane; have := h.res; have := h.blocks; have := h.badS
  cases x; cases y
  simp_all

/-- Every state the machine reaches from one by updates within the members of a bundle. -/
theorem confined_refl (s : State) (w : Where) : Confined s s w :=
  ⟨rfl, fun _ => rfl, fun _ _ _ => rfl, fun _ _ => rfl, rfl, fun _ _ => rfl, fun _ => rfl, fun _ _ _ => rfl,
    fun _ _ x h => ⟨x, h, rfl⟩⟩

theorem confined_trans {s t u : State} {w : Where} (a : Confined s t w) (b : Confined t u w) : Confined s u w := by
  refine ⟨?_, fun c => (b.core c).trans (a.core c), fun c l h => (b.lane c l h).trans (a.lane c l h),
    fun g h => (b.gangs g h).trans (a.gangs g h), b.gang.trans a.gang, fun g h => (b.group g h).trans (a.group g h),
    fun g => (b.fields g).trans (a.fields g), fun g p h => (b.items g p h).trans (a.items g p h), fun m hm x h => ?_⟩
  · have ha := a.rest
    have hb := b.rest
    rw [← ha, ← hb]
  · obtain ⟨y, hy, e⟩ := a.kept m hm x h
    obtain ⟨z, hz, e2⟩ := b.kept m hm y hy
    exact ⟨z, hz, SameItem.trans e e2⟩

theorem confined_setLane (s : State) (w : Where) (x : Lane) : Confined s (setLane s w.core w.lane x) w := by
  refine ⟨rfl, fun c => ?_, fun c l h => ?_, fun _ _ => rfl, rfl, fun _ _ => rfl, fun _ => rfl, fun _ _ _ => rfl,
    fun _ _ x h => ⟨x, h, rfl⟩⟩
  · by_cases e : w.core = c
    · subst e; simp [setLane]
    · simp [setLane, e]
  · by_cases e : w.core = c
    · subst e
      have : w.lane ≠ l := by rintro rfl; exact h rfl
      simp [laneAt, setLane, this]
    · simp [laneAt, setLane, e]

theorem confined_count (s : State) (w : Where) (k n : Nat) : Confined s (count s w.core k n) w := by
  refine ⟨rfl, fun c => ?_, fun c l h => ?_, fun _ _ => rfl, rfl, fun _ _ => rfl, fun _ => rfl, fun _ _ _ => rfl,
    fun _ _ x h => ⟨x, h, rfl⟩⟩
  · by_cases e : w.core = c
    · subst e; simp [count]
    · simp [count, e]
  · by_cases e : w.core = c
    · subst e; simp [laneAt, count]
    · simp [laneAt, count, e]

theorem mem_inGroup {ms : List (Nat × Nat)} {g p : Nat} : p ∈ inGroup ms g ↔ (g, p) ∈ ms := by
  unfold inGroup
  simp only [List.mem_map, List.mem_filter, decide_eq_true_eq]
  constructor
  · rintro ⟨⟨a, b⟩, ⟨h, rfl⟩, rfl⟩; exact h
  · intro h; exact ⟨(g, p), ⟨h, rfl⟩, rfl⟩

/-- A change of a member's group that stays within its members. -/
theorem confined_updGroup (s : State) (w : Where) (g : Nat) (f : Group → Group) (hg : ∃ p, (g, p) ∈ w.b.members)
    (h : Within (inGroup w.b.members g) (groupAt s w.b.gang g) (f (groupAt s w.b.gang g))) :
    Confined s (updGroup s w.b.gang g f) w := by
  have cores (c : Nat) : coreAt (updGroup s w.b.gang g f) c = coreAt s c := by
    unfold updGroup; split
    · rfl
    · split <;> rfl
  have lanes (c l : Nat) : laneAt (updGroup s w.b.gang g f) c l = laneAt s c l := by simp [laneAt, cores]
  have sameGroup (b : Nat) : Within (inGroup w.b.members b) (groupAt s w.b.gang b)
      (groupAt (updGroup s w.b.gang g f) w.b.gang b) := by
    rw [groupAt_updGroup]
    split
    · rename_i e; obtain ⟨-, rfl, -⟩ := e; exact h
    · exact .refl _ _
  refine ⟨updGroup_rest s w.b.gang g f, fun c => by rw [cores], fun c l _ => lanes c l, fun a ha => ?_,
    gangAt_updGroup s w.b.gang g w.b.gang f, fun b hb => ?_, fun b => (sameGroup b).fields, fun b p hp => ?_, fun m hm x hx => ?_⟩
  · unfold updGroup
    split
    · rfl
    · split
      · rfl
      · simp [gangAt, setGang, tget, Ne.symm ha]
  · rw [groupAt_updGroup]
    obtain ⟨p, hp⟩ := hg
    have : g ≠ b := by rintro rfl; exact hb p hp
    simp [this]
  · exact (sameGroup b).items p (by rw [mem_inGroup]; exact hp)
  · exact (sameGroup m.1).kept m.2 x hx

theorem confined_foldl {γ : Type} {w : Where} (f : State → γ → State) (l : List γ)
    (h : ∀ s, ∀ a ∈ l, Confined s (f s a) w) (s : State) : Confined s (l.foldl f s) w := by
  induction l generalizing s with
  | nil => exact confined_refl _ _
  | cons a r ih => exact confined_trans (h s a (by simp)) (ih (fun s b hb => h s b (by simp [hb])) _)

theorem confined_updItem (s : State) (w : Where) {m : Nat × Nat} (f : Item → Item) (hm : m ∈ w.b.members)
    (h : ∀ x, SameItem x (f x)) : Confined s (updItem s w.b.gang m.1 m.2 f) w := by
  refine confined_updGroup s w m.1 _ ⟨m.2, hm⟩ ?_
  split
  · rename_i t ht; exact within_setItem (mem_inGroup.2 hm) ht (h t)
  · exact .refl _ _

theorem confined_updItems (s : State) (w : Where) (ms : List (Nat × Nat)) (f : Item → Item) (hm : ∀ m ∈ ms, m ∈ w.b.members)
    (h : ∀ x, SameItem x (f x)) : Confined s (updItems s w.b.gang ms f) w :=
  confined_foldl (fun s (m : Nat × Nat) => updItem s w.b.gang m.1 m.2 f) ms
    (fun s m hx => confined_updItem s w f (hm m hx) h) s

theorem confined_dropRings (s : State) (w : Where) (ms : List (Nat × Nat)) (hm : ∀ m ∈ ms, m ∈ w.b.members) :
    Confined s (dropRings s w.b.gang ms) w :=
  confined_foldl (fun s (m : Nat × Nat) => updGroup s w.b.gang m.1 (fun x => dropRing x m.2)) ms
    (fun s m hx => confined_updGroup s w m.1 _ ⟨m.2, hm m hx⟩ (within_dropRing _ (mem_inGroup.2 (hm m hx)))) s

theorem confined_spend (s : State) (w : Where) (clk : Nat) (sym : Bool) : Confined s (spend s w clk sym) w := by
  unfold spend
  simp only
  refine confined_trans ?_ (confined_setLane _ w _)
  refine confined_trans (confined_count s w 0 clk) ?_
  split
  · exact confined_count _ w _ _
  · exact confined_refl _ _

theorem confined_advance (s : State) (w : Where) (ms : List (Nat × Nat)) (len : Nat) (hm : ∀ m ∈ ms, m ∈ w.b.members) :
    Confined s (advance s w.b.gang ms len) w := confined_updItems s w ms _ hm (fun _ => rfl)

theorem confined_endMember (s : State) (w : Where) (all rest : List (Nat × Nat)) (k : Link) (switch : Bool)
    (hm : ∀ m ∈ rest, m ∈ w.b.members) : Confined s (endMember s w all rest k switch) w := by
  unfold endMember
  simp only
  split
  · exact confined_setLane _ w _
  · have h2 (u : State) : Confined u (if w.b.pend = 2 then updItems u w.b.gang rest
        (fun t => { t with readyAt := (laneAt u w.core w.lane).busy }) else u) w := by
      split
      · exact confined_updItems u w rest _ hm (fun _ => rfl)
      · exact confined_refl _ _
    have h3 (u : State) (f : Bundle → Bundle) : Confined u (if rest.isEmpty then dropBundle u w
        else if switch || w.b.pend ≠ 0 then dropBundle (dropRings u w.b.gang rest) w else updBundle u w f) w := by
      split
      · exact confined_setLane _ w _
      · split
        · exact confined_trans (confined_dropRings _ w _ hm) (confined_setLane _ w _)
        · exact confined_setLane _ w _
    have h1 (u : State) (b : Bool) : Confined u (updItems u w.b.gang rest
        (fun t => { t with sym := false, unchained := t.unchained && b })) w :=
      confined_updItems u w rest _ hm (fun _ => rfl)
    exact confined_trans (confined_spend s w _ _) (confined_trans (h1 _ _) (confined_trans (h2 _) (h3 _ _)))

end Sys2Proof.Machine
end

