-- ==== Sys2Proof/Laws/Acting.lean ====
section
/-!
SUPPORT. A register instruction of an issuing bundle whose members are ready (R81, R83, R143, R210): what every group,
every item and every register word is afterwards.
-/
namespace Sys2Proof.Machine
open Sys2Proof

/-- An aspect of every item is the same in two states. -/
def Keeps {α : Type} (π : Item → α) (s t : State) : Prop :=
  ∀ a b q, (itemOf t a b q).map π = (itemOf s a b q).map π

theorem Keeps.refl {α : Type} (π : Item → α) (s : State) : Keeps π s s := fun _ _ _ => rfl
theorem Keeps.trans {α : Type} {π : Item → α} {s t u : State} (a : Keeps π s t) (b : Keeps π t u) : Keeps π s u :=
  fun i j q => (b i j q).trans (a i j q)

theorem keeps_setLane {α : Type} (π : Item → α) (s : State) (c l : Nat) (x : Lane) : Keeps π s (setLane s c l x) :=
  fun _ _ _ => rfl
theorem keeps_spend {α : Type} (π : Item → α) (s : State) (w : Where) (clk : Nat) (sym : Bool) :
    Keeps π s (spend s w clk sym) := by
  unfold spend
  simp only
  split <;> exact fun _ _ _ => rfl

theorem keeps_updGroup {α : Type} (π : Item → α) (s : State) (gang g : Nat) (f : Group → Group)
    (h : ∀ x p, (itemIn (f x) p).map π = (itemIn x p).map π) : Keeps π s (updGroup s gang g f) := by
  intro a b q
  unfold itemOf
  rw [groupAt_updGroup]
  split
  · exact h _ _
  · rfl

theorem keeps_foldl {α γ : Type} {π : Item → α} (f : State → γ → State) (l : List γ)
    (h : ∀ s a, Keeps π s (f s a)) (s : State) : Keeps π s (l.foldl f s) := by
  induction l generalizing s with
  | nil => exact .refl _ _
  | cons a r ih => exact (h s a).trans (ih _)

theorem keeps_updItems {α : Type} (π : Item → α) (s : State) (gang : Nat) (ms : List (Nat × Nat)) (f : Item → Item)
    (h : ∀ x, π (f x) = π x) : Keeps π s (updItems s gang ms f) :=
  keeps_foldl (fun s (m : Nat × Nat) => updItem s gang m.1 m.2 f) ms (fun s m => by
    refine keeps_updGroup π s gang m.1 _ (fun x p => ?_)
    split
    · rename_i t ht
      rw [itemIn_groupSetItem]
      split
      · rename_i e; subst e; simp [ht, h]
      · rfl
    · rfl) s

theorem keeps_dropRings {α : Type} (π : Item → α) (s : State) (gang : Nat) (ms : List (Nat × Nat))
    (h : ∀ x : Item, π { x with ring := [] } = π x) : Keeps π s (dropRings s gang ms) :=
  keeps_foldl (fun s (m : Nat × Nat) => updGroup s gang m.1 (fun x => dropRing x m.2)) ms (fun s m => by
    refine keeps_updGroup π s gang m.1 _ (fun x p => ?_)
    unfold dropRing
    split
    · rfl
    · rename_i t ht
      show Option.map π (itemIn (groupSetItem x m.2 _) p) = _
      rw [itemIn_groupSetItem]
      split
      · rename_i e; subst e; simp [ht, h]
      · rfl) s

/-- An aspect that neither readiness nor the marks of a chain touch, nor the latches unless they are kept, outlives the end
of a member (R71, R145, R146). -/
theorem keeps_endMember {α : Type} (π : Item → α) (s : State) (w : Where) (all rest : List (Nat × Nat)) (k : Link)
    (switch : Bool) (h : ∀ (x : Item) a b c, π { x with sym := a, unchained := b, readyAt := c } = π x)
    (hr : (∀ x : Item, π { x with ring := [] } = π x) ∨ (switch = false ∧ w.b.pend = 0)) :
    Keeps π s (endMember s w all rest k switch) := by
  unfold endMember
  simp only
  split
  · exact keeps_setLane π s _ _ _
  · have h1 (u : State) (b : Bool) : Keeps π u (updItems u w.b.gang rest
        (fun t => { t with sym := false, unchained := t.unchained && b })) :=
      keeps_updItems π u w.b.gang rest _ (fun x => h x _ _ _)
    have h2 (u : State) : Keeps π u (if w.b.pend = 2 then updItems u w.b.gang rest
        (fun t => { t with readyAt := (laneAt u w.core w.lane).busy }) else u) := by
      split
      · exact keeps_updItems π u w.b.gang rest _ (fun x => h x _ _ _)
      · exact .refl _ _
    have h3 (u : State) (f : Bundle → Bundle) : Keeps π u (if rest.isEmpty then dropBundle u w
        else if switch || w.b.pend ≠ 0 then dropBundle (dropRings u w.b.gang rest) w else updBundle u w f) := by
      split
      · exact keeps_setLane π u _ _ _
      · split
        · rename_i c
          rcases hr with hr | ⟨rfl, hp⟩
          · exact (keeps_dropRings π u w.b.gang rest hr).trans (keeps_setLane π _ _ _ _)
          · simp [hp] at c
        · exact keeps_setLane π u _ _ _
    exact (keeps_spend π s w _ _).trans ((h1 _ _).trans ((h2 _).trans (h3 _ _)))

theorem mem_nodup {α : Type} [DecidableEq α] {l : List α} {a : α} : a ∈ nodup l ↔ a ∈ l := by
  induction l with
  | nil => simp [nodup]
  | cons x r ih =>
    simp only [nodup, List.mem_cons, List.mem_filter, ih, ne_eq, decide_not, Bool.not_eq_eq_eq_not, Bool.not_true,
      decide_eq_false_iff_not]
    by_cases e : a = x <;> simp [e]

theorem nodup_nodup {α : Type} [DecidableEq α] (l : List α) : (nodup l).Nodup := by
  induction l with
  | nil => simp [nodup]
  | cons x r ih => simp [nodup, ih.filter]

theorem mem_groupsOf {ms : List (Nat × Nat)} {g : Nat} : g ∈ groupsOf ms ↔ ∃ p, (g, p) ∈ ms := by
  simp [groupsOf, mem_nodup]

/-- Every group of a bundle changed by what its members do. -/
def eachGroup (f : Group → List Nat → Group) (s : State) (gang : Nat) (ms : List (Nat × Nat)) : State :=
  (groupsOf ms).foldl (fun s g => updGroup s gang g (fun x => f x (inGroup ms g))) s

theorem hasGroup_updGroup (s : State) (gang g b : Nat) (f : Group → Group) :
    ((tfind (updGroup s gang g f).gangs gang).bind (fun k => tfind k.groups b)).isSome =
      ((tfind s.gangs gang).bind (fun k => tfind k.groups b)).isSome := by
  unfold updGroup
  cases hk : tfind s.gangs gang with
  | none => simp [hk]
  | some k =>
    cases hx : tfind k.groups g with
    | none => simp [hk, hx]
    | some x =>
      by_cases e : g = b
      · subst e; simp [setGang, hx]
      · simp [setGang, hx, e]

theorem groupAt_eachGroup (f : Group → List Nat → Group) (s : State) (gang b : Nat) (ms : List (Nat × Nat))
    (live : ∀ m ∈ ms, (itemIn (groupAt s gang m.1) m.2).isSome = true) :
    groupAt (eachGroup f s gang ms) gang b =
      if b ∈ groupsOf ms then f (groupAt s gang b) (inGroup ms b) else groupAt s gang b := by
  have has : ∀ g ∈ groupsOf ms, ((tfind s.gangs gang).bind (fun k => tfind k.groups g)).isSome = true := by
    intro g hg
    obtain ⟨p, hp⟩ := mem_groupsOf.1 hg
    exact hasGroup_of_itemOf (live _ hp)
  have nd : (groupsOf ms).Nodup := nodup_nodup (ms.map Prod.fst)
  unfold eachGroup
  clear live
  generalize groupsOf ms = l at has nd
  induction l generalizing s with
  | nil => simp
  | cons g r ih =>
    have nr := (List.nodup_cons.1 nd).1
    have hg := has g (by simp)
    rw [List.foldl_cons, ih _ (fun x hx => by rw [hasGroup_updGroup]; exact has x (by simp [hx])) (List.nodup_cons.1 nd).2,
      groupAt_updGroup]
    by_cases e : g = b
    · subst e; simp [nr, hg]
    · simp [e, Ne.symm e]

/-- What a change of groups of one gang leaves alone. -/
structure Regional (s t : State) (gang : Nat) : Prop where
  rest : { t with cores := s.cores, gangs := s.gangs } = s
  cores : ∀ c, coreAt t c = coreAt s c
  gangs : ∀ a, a ≠ gang → gangAt t a = gangAt s a
  own : { gangAt t gang with groups := [] } = { gangAt s gang with groups := [] }

theorem Regional.trans {s t u : State} {gang : Nat} (a : Regional s t gang) (b : Regional t u gang) : Regional s u gang := by
  refine ⟨?_, fun c => (b.cores c).trans (a.cores c), fun c h => (b.gangs c h).trans (a.gangs c h), b.own.trans a.own⟩
  have ha := a.rest
  have hb := b.rest
  rw [← ha, ← hb]

theorem regional_updGroup (s : State) (gang g : Nat) (f : Group → Group) : Regional s (updGroup s gang g f) gang := by
  refine ⟨updGroup_rest s gang g f, fun c => ?_, fun a ha => ?_, gangAt_updGroup s gang g gang f⟩
  · unfold updGroup; split
    · rfl
    · split <;> rfl
  · unfold updGroup
    split
    · rfl
    · split
      · rfl
      · simp [gangAt, setGang, tget, Ne.symm ha]

theorem regional_eachGroup (f : Group → List Nat → Group) (s : State) (gang : Nat) (ms : List (Nat × Nat)) :
    Regional s (eachGroup f s gang ms) gang := by
  unfold eachGroup
  generalize groupsOf ms = l
  induction l generalizing s with
  | nil => exact ⟨rfl, fun _ => rfl, fun _ _ => rfl, rfl⟩
  | cons g r ih =>
    exact (regional_updGroup s gang g (fun x => f x (inGroup ms g))).trans (ih _)

theorem confined_eachGroup (f : Group → List Nat → Group) (s : State) (w : Where) (i : Issues s w)
    (h : ∀ g ∈ groupsOf w.b.members, Within (inGroup w.b.members g) (groupAt s w.b.gang g)
      (f (groupAt s w.b.gang g) (inGroup w.b.members g))) :
    Confined s (eachGroup f s w.b.gang w.b.members) w := by
  have k := regional_eachGroup f s w.b.gang w.b.members
  have sameGroup (b : Nat) : Within (inGroup w.b.members b) (groupAt s w.b.gang b)
      (groupAt (eachGroup f s w.b.gang w.b.members) w.b.gang b) := by
    rw [groupAt_eachGroup f s w.b.gang b w.b.members i.live]
    split
    · exact h b ‹_›
    · exact .refl _ _
  refine ⟨k.rest, fun c => by rw [k.cores], fun c l _ => by simp [laneAt, k.cores], k.gangs, k.own, fun b hb => ?_,
    fun b => (sameGroup b).fields, fun b p hp => (sameGroup b).items p (by rw [mem_inGroup]; exact hp),
    fun m _ x hx => (sameGroup m.1).kept m.2 x hx⟩
  rw [groupAt_eachGroup f s w.b.gang b w.b.members i.live]
  have : b ∉ groupsOf w.b.members := fun c => by
    obtain ⟨p, hp⟩ := mem_groupsOf.1 c
    exact hb p hp
  simp [this]

theorem keeps_eachGroup {α : Type} (π : Item → α) (f : Group → List Nat → Group) (s : State) (gang : Nat)
    (ms : List (Nat × Nat)) (h : ∀ x ps p, (itemIn (f x ps) p).map π = (itemIn x p).map π) :
    Keeps π s (eachGroup f s gang ms) :=
  keeps_foldl _ _ (fun s g => keeps_updGroup π s gang g _ (fun x p => h x _ p)) s

theorem foldl_id {α γ : Type} (f : α → γ → α) (l : List γ) (s : α) (h : ∀ a ∈ l, f s a = s) : l.foldl f s = s := by
  induction l with
  | nil => rfl
  | cons a r ih => rw [List.foldl_cons, h a (by simp), ih (fun b hb => h b (by simp [hb]))]

/-- No struck word: nothing is corrected, counted or logged (R272). -/
theorem meetErrors_clean {s : State} {w : Where} {u : Uses} (v : ∀ m ∈ w.b.members, (groupAt s w.b.gang m.1).badV = [])
    (c : ∀ m ∈ w.b.members, (groupAt s w.b.gang m.1).badS = []) : meetErrors s w w.b.members u = s := by
  unfold meetErrors
  refine foldl_id _ _ _ (fun g hg => ?_)
  obtain ⟨p, hp⟩ := mem_groupsOf.1 hg
  simp [v _ hp, c _ hp]

theorem sift_none {s : State} {gang : Nat} {check : Nat → Nat → Option Trap} {ms : List (Nat × Nat)}
    (h : ∀ m ∈ ms, check m.1 m.2 = none) : sift s gang check ms = { go := ms, traps := [], zero := [] } := by
  induction ms with
  | nil => rfl
  | cons m r ih =>
    obtain ⟨g, p⟩ := m
    simp only [sift, ih (fun m hm => h m (by simp [hm])), h (g, p) (by simp)]

theorem earlyTrap_none {x : Group} {p : Nat} {u : Uses} (h : useTrap x p u = none) : earlyTrap x p u = none := by
  unfold useTrap at h
  unfold earlyTrap
  split
  · rfl
  · rename_i t ht
    simp only [ht, Option.or_eq_none_iff] at h
    simp [h.1, h.2.1]

theorem missingBanks_nil {s : State} {w : Where} {touch : List (Nat × Nat)} (h : ∀ t ∈ touch, bankPresent s w t.1 t.2) :
    missingBanks s w touch = [] := by
  unfold missingBanks
  simp only [List.filterMap_eq_nil_iff, Prod.forall]
  intro g b hb
  rw [mem_nodup, List.mem_map] at hb
  obtain ⟨⟨g', r⟩, ht, e⟩ := hb
  cases e
  obtain ⟨n, sl, e1, e2⟩ := h _ ht
  simp [e1, e2]

/-- Registers an operation touches are among those it names and reads. -/
theorem OpSpec.touches_sub {o : OpSpec} {oneD : Bool} {x : Group} {ps : List Nat} {r : Nat} (h : r ∈ o.touches oneD x ps) :
    ∃ f ∈ o.uses.named ++ o.uses.read, isV f.1 = true ∧ r ∈ upTo f.1.toNat f.2 ++ brokenHigh x f.1.toNat f.2 := by
  unfold OpSpec.touches OpSpec.bodies at h
  rcases List.mem_append.1 h with h | h
  rotate_left
  · split at h
    · rename_i c
      exact ⟨(o.d, o.words), by simp [OpSpec.uses], c, List.mem_append_right _ h⟩
    · simp at h
  rcases List.mem_append.1 h with h | h
  · unfold bodyRegs at h
    obtain ⟨⟨d, n⟩, hf, hr⟩ := List.mem_flatMap.1 (List.mem_filter.1 h).1
    refine ⟨(d, n), List.mem_append_right _ hf, ?_⟩
    by_cases c : isV d = true
    · simp only [c, if_true] at hr; exact ⟨c, List.mem_append_left _ hr⟩
    · simp [c] at hr
  · split at h
    · rename_i c
      simp only [Bool.and_eq_true] at c
      exact ⟨(o.d, o.words), by simp [OpSpec.uses], c.1, List.mem_append_left _ h⟩
    · simp at h

/-- What the end of an instruction without traps is. -/
theorem conclude_go (s : State) (w : Where) (d : Field7) (n len : Nat) (link : Link) (switch : Bool) :
    conclude s w { go := w.b.members, traps := [], zero := [] } d n len link switch =
      endMember (advance s w.b.gang w.b.members len) w w.b.members w.b.members link switch := by
  simp [conclude, zeroWords, deliverAll, sortBy]

/-- A register instruction whose members are ready acts in every group, and all of them go on. -/
theorem itemOp_ready {o : OpSpec} {s : State} {w : Where} (r : Ready s w o.uses) (nf : o.fault = none)
    (ny : o.y = true → ((o.sources.all (fun x => uniformSrc (gangAt s w.b.gang).oneD
      ((groupsOf w.b.members).map (fun g => (groupAt s w.b.gang g, inGroup w.b.members g))) o.ext x)) &&
      (o.cIn.map (uniformC ((groupsOf w.b.members).map (fun g => (groupAt s w.b.gang g, inGroup w.b.members g))))).getD true) =
        true) :
    ∃ sym touch, itemOp o s w = usedBanks (endMember (advance (eachGroup (o.apply (gangAt s w.b.gang).oneD) s w.b.gang w.b.members) w.b.gang
      w.b.members o.len) w w.b.members w.b.members { chained := o.chained, occ := o.occ, sym } false) w touch := by
  have go := sift_none (s := s) (gang := w.b.gang) (ms := w.b.members) (check := fun g p =>
      (earlyTrap (groupAt s w.b.gang g) p o.uses).or (if o.y && !((o.sources.all (fun x => uniformSrc (gangAt s w.b.gang).oneD
      ((groupsOf w.b.members).map (fun g => (groupAt s w.b.gang g, inGroup w.b.members g))) o.ext x)) &&
      (o.cIn.map (uniformC ((groupsOf w.b.members).map (fun g => (groupAt s w.b.gang g, inGroup w.b.members g))))).getD true)
      then some { code := 0x05 } else (pastTrap w).or ((useTrap (groupAt s w.b.gang g) p o.uses).or o.fault))) (fun m hm => by
    have h := r.held m hm
    have hp : pastTrap w = none := by simp [pastTrap, r.past]
    rw [earlyTrap_none h, h, nf, hp]
    cases hy : o.y
    · simp
    · simp only [ny hy]; rfl)
  have mb : missingBanks s w ((groupsOf w.b.members).flatMap (fun g =>
      (o.touches (gangAt s w.b.gang).oneD (groupAt s w.b.gang g) (inGroup w.b.members g)).map (fun r => (g, r)))) = [] := by
    refine missingBanks_nil (fun t ht => ?_)
    obtain ⟨g, hg, ht⟩ := List.mem_flatMap.1 ht
    obtain ⟨k, hk, rfl⟩ := List.mem_map.1 ht
    obtain ⟨p, hp⟩ := mem_groupsOf.1 hg
    obtain ⟨f, hf, hv, hr⟩ := OpSpec.touches_sub hk
    exact r.banks _ hp f hf hv k hr
  unfold itemOp
  simp only [r.loads, meetErrors_clean r.cleanV r.cleanS, Bool.false_eq_true, if_false]
  rw [go]
  simp only [r.past, mb, List.isEmpty_nil, Bool.not_true, Option.isSome_none, Bool.false_eq_true, if_false]
  exact ⟨_, _, congrArg (usedBanks · w _) (conclude_go _ _ _ _ _ _ _)⟩

theorem itemIn_pushLatch (x : Group) (p q : Nat) (e : LRep) : itemIn (pushLatch x p e) q =
    if p = q then (itemIn x q).map (fun t => { t with ring := pushRing t.ring e }) else itemIn x q := by
  unfold pushLatch
  split
  · rename_i h
    by_cases c : p = q
    · subst c; simp [h]
    · simp [c]
  · rename_i t ht
    show itemIn (groupSetItem x p _) q = _
    rw [itemIn_groupSetItem]
    by_cases c : p = q
    · subst c; simp [ht]
    · simp [c]

theorem itemIn_pushList (x : Group) (p q : Nat) (es : List LRep) : itemIn (es.foldl (fun x e => pushLatch x p e) x) q =
    if p = q then (itemIn x q).map (fun t => { t with ring := es.foldl pushRing t.ring }) else itemIn x q := by
  induction es generalizing x with
  | nil => simp
  | cons e r ih =>
    rw [List.foldl_cons, ih, itemIn_pushLatch]
    by_cases c : p = q
    · subst c; simp [Function.comp_def]
    · simp [c]

/-- The rings after pushes for some positions (R25). -/
theorem itemIn_pushAll (x : Group) (ps : List Nat) (es : Nat → List LRep) (q : Nat) (nd : ps.Nodup) :
    itemIn (pushAll x ps es) q =
      if q ∈ ps then (itemIn x q).map (fun t => { t with ring := (es q).foldl pushRing t.ring }) else itemIn x q := by
  unfold pushAll
  induction ps generalizing x with
  | nil => simp
  | cons p r ih =>
    have hn := List.nodup_cons.1 nd
    rw [List.foldl_cons, ih _ hn.2, itemIn_pushList]
    by_cases c : p = q
    · subst c; simp [hn.1]
    · simp [c, Ne.symm c]

/-- What a change of clean registers leaves alone beside `SameButV`. -/
structure Clean (x y : Group) : Prop where
  same : SameButV x y
  badV : x.badV = [] → y.badV = []
  used : y.used = x.used
  board : y.board = x.board
  back : y.back = x.back

theorem Clean.refl (x : Group) : Clean x x := ⟨.refl x, id, rfl, rfl, rfl⟩
theorem Clean.trans {x y z : Group} (a : Clean x y) (b : Clean y z) : Clean x z :=
  ⟨a.same.trans b.same, fun h => b.badV (a.badV h), b.used.trans a.used, b.board.trans a.board, b.back.trans a.back⟩

theorem clean_breakPair (oneD : Bool) (x : Group) (r : Nat) : Clean x (breakPair oneD x r) := by
  refine ⟨breakPair_same oneD x r, ?_, ?_, ?_, ?_⟩ <;> unfold breakPair <;> split <;> (try split) <;> simp

theorem clean_putV (oneD : Bool) (x : Group) (r : Nat) (v : VRep) : Clean x (putV oneD x r v) := by
  have b := clean_breakPair oneD x r
  exact ⟨putV_same oneD x r v, fun h => by simp [putV, b.badV h], b.used, b.board, b.back⟩

theorem clean_putWords (oneD : Bool) (x : Group) (r : Nat) (ws : List (Nat × Word)) : Clean x (putWords oneD x r ws) := by
  have b := clean_breakPair oneD x r
  exact ⟨putWords_same oneD x r ws, fun h => by simp [putWords, b.badV h], b.used, b.board, b.back⟩

theorem clean_putForm (oneD : Bool) (x : Group) (r : Nat) (l : List VRep) : Clean x (putForm oneD x r l) := by
  unfold putForm
  split
  · rename_i lo hi
    have b := (clean_putV oneD x r lo).trans (clean_putV oneD (putV oneD x r lo) (r + 1) hi)
    exact ⟨putPair_same oneD x r lo hi, b.badV, b.used, b.board, b.back⟩
  · exact clean_putV oneD x r _
  · exact .refl x

theorem clean_putItemWords (oneD : Bool) (x : Group) (r : Nat) (l : List (Nat × List Word)) :
    Clean x (putItemWords oneD x r l) := by
  unfold putItemWords
  simp only
  generalize upTo 0 _ = ks
  induction ks generalizing x with
  | nil => exact .refl x
  | cons k t ih => exact (clean_putWords oneD x _ _).trans (ih _)

theorem Clean.within {ps : List Nat} {x y : Group} (h : Clean x y) (bv : x.badV = []) : Within ps x y :=
  within_sameButV h.same (by rw [h.badV bv, bv]) ⟨h.used, h.board, h.back⟩

theorem within_putS {ps : List Nat} (x : Group) (n : Nat) (v : Word) (bs : x.badS = []) : Within ps x (putS x n v) :=
  .of_items rfl (by simp [putS, bs])

theorem groupFlags_zero (x : Group) : groupFlags x 0 = x := by simp [groupFlags]

/-- The effect on a group is a change of registers followed by pushes and flags. -/
theorem OpSpec.apply_shape (o : OpSpec) (oneD : Bool) (x : Group) (ps : List Nat) : ∃ y es fl,
    o.apply oneD x ps = groupFlags (pushAll y ps es) fl ∧ (x.badV = [] → x.badS = [] → Within ps x y) ∧ y.items = x.items ∧
    (match o.inGroup oneD x ps with
      | some (fm, _) => es = (fun _ => formReps o.wide fm)
      | none => ∀ p ∈ ps, es p = (o.split (o.f (o.vals oneD x p)).1).map Rep.body) := by
  have pw : (ps.map (fun p => (p, o.f (o.vals oneD x p)))).map (fun q => (q.1, o.split q.2.1)) =
      ps.map (fun p => (p, o.split (o.f (o.vals oneD x p)).1)) := by simp
  have scalar (sv : Option Word) : (x.badV = [] → x.badS = [] → Within ps x (if o.d = 124 then (match sv with
      | some v => putS x (extS o.ext) v
      | none => x) else x)) ∧ (if o.d = 124 then (match sv with
      | some v => putS x (extS o.ext) v
      | none => x) else x).items = x.items := by
    split
    · cases sv with
      | none => exact ⟨fun _ _ => .refl _ _, rfl⟩
      | some v => exact ⟨fun _ bs => within_putS x _ v bs, rfl⟩
    · exact ⟨fun _ _ => .refl _ _, rfl⟩
  unfold OpSpec.apply
  simp only [pw]
  cases h : o.inGroup oneD x ps with
  | none =>
    simp only
    refine ⟨_, _, _, rfl, ?_, ?_, ?_⟩
    · split
      · exact fun bv _ => (clean_putItemWords oneD x _ _).within bv
      · exact (scalar _).1
    · split
      · exact (clean_putItemWords oneD x _ _).same.items
      · exact (scalar _).2
    · intro p hp
      rw [find_map_key ps (fun p => o.split (o.f (o.vals oneD x p)).1) hp]
      rfl
  | some e =>
    obtain ⟨fm, fl⟩ := e
    simp only
    have regs : (x.badV = [] → x.badS = [] → Within ps x (if isV o.d = true then
          (if wholeGroup x ps = true then putForm oneD x o.d.toNat (formReps o.wide fm)
            else putItemWords oneD x o.d.toNat (ps.map (fun p => (p, o.split (o.f (o.vals oneD x p)).1))))
        else if o.d = 124 then (match (sWriter x ps).bind (fun p =>
            ((ps.map (fun p => (p, o.f (o.vals oneD x p)))).find? (fun q => q.1 = p)).map (fun q => lowWord q.2.1)) with
          | some v => putS x (extS o.ext) v
          | none => x) else x)) ∧ (if isV o.d = true then
          (if wholeGroup x ps = true then putForm oneD x o.d.toNat (formReps o.wide fm)
            else putItemWords oneD x o.d.toNat (ps.map (fun p => (p, o.split (o.f (o.vals oneD x p)).1))))
        else if o.d = 124 then (match (sWriter x ps).bind (fun p =>
            ((ps.map (fun p => (p, o.f (o.vals oneD x p)))).find? (fun q => q.1 = p)).map (fun q => lowWord q.2.1)) with
          | some v => putS x (extS o.ext) v
          | none => x) else x).items = x.items := by
      constructor
      · split
        · split
          · exact fun bv _ => (clean_putForm oneD x _ _).within bv
          · exact fun bv _ => (clean_putItemWords oneD x _ _).within bv
        · exact (scalar _).1
      · split
        · split
          · exact (clean_putForm oneD x _ _).same.items
          · exact (clean_putItemWords oneD x _ _).same.items
        · exact (scalar _).2
    split
    · exact ⟨_, _, fl, rfl, regs.1, regs.2, rfl⟩
    · exact ⟨_, _, 0, (groupFlags_zero _).symm, regs.1, regs.2, rfl⟩

theorem within_apply {o : OpSpec} (oneD : Bool) {x : Group} (ps : List Nat) (bv : x.badV = []) (bs : x.badS = []) :
    Within ps x (o.apply oneD x ps) := by
  obtain ⟨y, es, fl, e, h, -, -⟩ := o.apply_shape oneD x ps
  rw [e]
  have a := (h bv bs).trans (within_pushAll y ps es (fun _ h => h))
  exact ⟨a.fields, a.items, a.kept⟩

/-- An item after a register instruction of its group: only its ring changes (R25). -/
theorem itemIn_apply (o : OpSpec) {α : Type} (π : Item → α) (h : ∀ (x : Item) l, π { x with ring := l } = π x) (oneD : Bool)
    (x : Group) (ps : List Nat) (p : Nat) : (itemIn (o.apply oneD x ps) p).map π = (itemIn x p).map π := by
  obtain ⟨y, es, fl, e, -, it, -⟩ := o.apply_shape oneD x ps
  rw [e]
  show (itemIn (pushAll y ps es) p).map π = _
  have : itemIn x p = itemIn y p := by simp [itemIn, it]
  rw [this]
  clear e it this
  unfold pushAll
  induction ps generalizing y with
  | nil => rfl
  | cons a r ih =>
    rw [List.foldl_cons, ih, itemIn_pushList]
    split
    · simp only [Option.map_map]
      congr 1
      funext t
      exact h t _
    · rfl

/-- The ring of a real item that acts (R25). -/
theorem ring_apply {o : OpSpec} (hx : o.FormExact) (oneD : Bool) {x : Group} {ps : List Nat} {p : Nat} (nd : ps.Nodup)
    (hp : p ∈ ps) (lt : p < 2 ^ 32) (hr : p ∈ realPos x) {a : Item} (ha : itemIn x p = some a) : ∃ es : List LRep,
    itemIn (o.apply oneD x ps) p = some { a with ring := es.foldl pushRing a.ring } ∧
      es.map (fun e => latchAt e (coordOf oneD x p)) = o.split (o.f (o.vals oneD x p)).1 := by
  obtain ⟨y, es, fl, e, -, it, sp⟩ := o.apply_shape oneD x ps
  have iy : itemIn y p = some a := by rw [← ha]; simp [itemIn, it]
  refine ⟨es p, ?_, ?_⟩
  · rw [e]
    show itemIn (pushAll y ps es) p = _
    rw [itemIn_pushAll y ps es p nd]
    simp [hp, iy]
  · cases h : o.inGroup oneD x ps with
    | none =>
      rw [h] at sp
      rw [sp p hp, List.map_map]
      exact List.map_id _
    | some q =>
      obtain ⟨fm, f⟩ := q
      rw [h] at sp
      simp only at sp
      rw [sp]
      have := formReps_split (fun w : Word => w) o fm (coordOf oneD x p)
      rw [← (OpSpec.inGroup_sound hx h hp lt hr).1, ← this]
      rfl

theorem leastBy_le {γ : Type} {key : γ → Nat} {l : List γ} {a : γ} (h : leastBy key l = some a) : ∀ b ∈ l, key a ≤ key b := by
  induction l generalizing a with
  | nil => simp
  | cons x r ih =>
    unfold leastBy at h
    intro b hb
    split at h
    · rename_i e
      have : r = [] := by
        cases r with
        | nil => rfl
        | cons y q =>
          unfold leastBy at e
          split at e
          · simp at e
          · split at e <;> simp at e
      subst this
      simp only [List.mem_singleton] at hb
      subst hb
      simp only [Option.some.injEq] at h
      rw [h]
    · rename_i y hy
      split at h
      · rename_i c
        simp only [Option.some.injEq] at h; subst h
        rcases List.mem_cons.1 hb with rfl | hb
        · omega
        · exact ih hy b hb
      · rename_i c
        simp only [Option.some.injEq] at h; subst h
        rcases List.mem_cons.1 hb with rfl | hb
        · omega
        · have := ih hy b hb; omega

theorem leastBy_some {γ : Type} {key : γ → Nat} {l : List γ} {a : γ} (h : a ∈ l) : (leastBy key l).isSome = true := by
  cases l with
  | nil => simp at h
  | cons x r =>
    unfold leastBy
    split
    · rfl
    · split <;> rfl

/-- The writer of an s register is the lowest real item that acts (R27). -/
theorem sWriter_least {x : Group} {ps : List Nat} {p : Nat} (hp : p ∈ ps) (hr : isReal x p = true)
    (least : ∀ q ∈ ps, isReal x q = true → p ≤ q) : sWriter x ps = some p := by
  have mem : p ∈ ps.filter (fun p => ((itemIn x p).map (fun t => !t.helper)).getD false) :=
    List.mem_filter.2 ⟨hp, hr⟩
  obtain ⟨a, ha⟩ := Option.isSome_iff_exists.1 (leastBy_some (key := id) mem)
  unfold sWriter
  rw [ha]
  have h1 := leastBy_le ha p mem
  have h2 := List.mem_filter.1 (leastBy_mem ha)
  have h3 := least a h2.1 h2.2
  simp only [id] at h1
  congr 1
  omega

theorem OpSpec.flagsOf_raised (o : OpSpec) (oneD : Bool) (x : Group) (ps : List Nat) :
    o.flagsOf oneD x ps = raised x ps (fun p => (o.f (o.vals oneD x p)).2) := by
  unfold OpSpec.flagsOf raised
  rw [List.filter_map, List.foldl_map]
  rfl

theorem nodup_inGroup {ms : List (Nat × Nat)} (h : ms.Nodup) (g : Nat) : (inGroup ms g).Nodup := by
  unfold inGroup
  refine List.Nodup.map_on ?_ (h.filter _)
  rintro ⟨a, b⟩ ha ⟨c, d⟩ hc e
  have h1 := (List.mem_filter.1 ha).2
  have h2 := (List.mem_filter.1 hc).2
  simp only [decide_eq_true_eq] at h1 h2 e
  rw [h1, h2, e]

/-- A group after a register instruction of a bundle. -/
def actedGroup (o : OpSpec) (s : State) (w : Where) (g : Nat) : Group :=
  if g ∈ groupsOf w.b.members then
    o.apply (gangAt s w.b.gang).oneD (groupAt s w.b.gang g) (inGroup w.b.members g)
  else groupAt s w.b.gang g

/-- Everything a register instruction of a ready bundle does. -/
structure Acted (o : OpSpec) (s t : State) (w : Where) : Prop where
  conf : Confined s t w
  regs : ∀ g, SameRegs (actedGroup o s w g) (groupAt t w.b.gang g)
  moved : MovedOn s t w o.len
  rings : w.b.pend = 0 → ∀ g p, (itemIn (groupAt t w.b.gang g) p).map Item.ring =
    (itemIn (actedGroup o s w g) p).map Item.ring

/-- Every source of an operation is uniform over the bundle (R32). -/
def uniformOp (o : OpSpec) (s : State) (w : Where) : Bool :=
  (o.sources.all (fun x => uniformSrc (gangAt s w.b.gang).oneD
      ((groupsOf w.b.members).map (fun g => (groupAt s w.b.gang g, inGroup w.b.members g))) o.ext x)) &&
    (o.cIn.map (uniformC ((groupsOf w.b.members).map (fun g => (groupAt s w.b.gang g, inGroup w.b.members g))))).getD true

/-- A register instruction of a bundle whose members are ready (R81, R83). -/
theorem itemOp_acted {o : OpSpec} {s : State} {w : Where} (i : Issues s w) (r : Ready s w o.uses) (nf : o.fault = none)
    (ny : o.y = true → uniformOp o s w = true) : Acted o s (itemOp o s w) w := by
  obtain ⟨sym, touch, e⟩ := itemOp_ready r nf ny
  have grp (g : Nat) := groupAt_eachGroup (o.apply (gangAt s w.b.gang).oneD) s w.b.gang g w.b.members i.live
  have within : ∀ g ∈ groupsOf w.b.members, Within (inGroup w.b.members g) (groupAt s w.b.gang g)
      (o.apply (gangAt s w.b.gang).oneD (groupAt s w.b.gang g) (inGroup w.b.members g)) := by
    intro g hg
    obtain ⟨p, hp⟩ := mem_groupsOf.1 hg
    exact within_apply _ _ (r.cleanV _ hp) (r.cleanS _ hp)
  have c1 := confined_eachGroup (o.apply (gangAt s w.b.gang).oneD) s w i within
  have k1 : Keeps Item.pc s (eachGroup (o.apply (gangAt s w.b.gang).oneD) s w.b.gang w.b.members) :=
    keeps_eachGroup _ _ _ _ _ (fun x ps p => itemIn_apply o Item.pc (fun _ _ => rfl) _ x ps p)
  generalize hu : eachGroup (o.apply (gangAt s w.b.gang).oneD) s w.b.gang w.b.members = u at e grp c1 k1
  rw [e]
  refine ⟨confined_trans c1 (confined_trans (confined_advance u w _ o.len (fun _ h => h))
      (confined_trans (confined_endMember _ w _ _ _ _ (fun _ h => h)) (confined_setLane _ w _))), fun g => ?_, ?_,
    fun pend g p => ?_⟩
  · have a : groupAt u w.b.gang g = actedGroup o s w g := grp g
    rw [← a]
    exact ((sameS_advance u w.b.gang w.b.members o.len).trans (sameS_endMember _ w _ _ _ _)).regs w.b.gang g
  · intro m hm
    obtain ⟨a, ha⟩ := Option.isSome_iff_exists.1 (i.live m hm)
    have a1 := k1 w.b.gang m.1 m.2
    have a2 := keeps_endMember Item.pc (advance u w.b.gang w.b.members o.len) w w.b.members w.b.members
      { chained := o.chained, occ := o.occ, sym } false (fun _ _ _ _ => rfl) (.inl (fun _ => rfl)) w.b.gang m.1 m.2
    have hs : itemOf s w.b.gang m.1 m.2 = some a := ha
    rw [hs] at a1
    obtain ⟨b, hb, eb⟩ := Option.map_eq_some_iff.1 a1
    have adv : itemOf (advance u w.b.gang w.b.members o.len) w.b.gang m.1 m.2 = some { b with pc := nextWord b.pc o.len } := by
      unfold advance
      rw [itemOf_updItems _ _ _ _ _ _ _ i.once]
      simp [hm, hb]
    rw [adv] at a2
    obtain ⟨c, hc, ec⟩ := Option.map_eq_some_iff.1 a2
    show (itemAt (endMember (advance u w.b.gang w.b.members o.len) w w.b.members w.b.members
      { chained := o.chained, occ := o.occ, sym } false) w.b.gang m.1 m.2).pc = _
    rw [itemAt_of_itemOf hc, itemAt_of_itemOf hs, ec, eb]
  · have a : groupAt u w.b.gang g = actedGroup o s w g := grp g
    rw [← a]
    have k2 : Keeps Item.ring u (advance u w.b.gang w.b.members o.len) := keeps_updItems Item.ring u w.b.gang w.b.members
      (fun t => { t with pc := nextWord t.pc o.len }) (fun _ => rfl)
    have k3 := keeps_endMember Item.ring (advance u w.b.gang w.b.members o.len) w w.b.members w.b.members
      { chained := o.chained, occ := o.occ, sym } false (fun _ _ _ _ => rfl) (.inr ⟨rfl, pend⟩)
    exact (k2.trans k3) w.b.gang g p

theorem mem_groups {w : Where} {g p : Nat} (h : (g, p) ∈ w.b.members) : g ∈ groupsOf w.b.members := mem_groupsOf.2 ⟨p, h⟩

theorem confined_oneD {s t : State} {w : Where} (c : Confined s t w) :
    (gangAt t w.b.gang).oneD = (gangAt s w.b.gang).oneD := by
  have h := congrArg Gang.oneD c.gang
  exact h

theorem confined_coord {s t : State} {w : Where} (c : Confined s t w) (g p : Nat) :
    coordOf (gangAt t w.b.gang).oneD (groupAt t w.b.gang g) p = coordOf (gangAt s w.b.gang).oneD (groupAt s w.b.gang g) p := by
  have a := c.fields g
  have hx := congrArg Group.ox a
  have hy := congrArg Group.oy a
  have hz := congrArg Group.oz a
  rw [confined_oneD c]
  exact coordOf_congr _ _ _ p hx hy hz

theorem Acted.vOf_eq {o : OpSpec} {s t : State} {w : Where} (a : Acted o s t w) (g k p : Nat) :
    vOf t w.b.gang g k p = vAt (gangAt s w.b.gang).oneD (actedGroup o s w g) k p := by
  unfold vOf
  rw [confined_oneD a.conf, (a.regs g).vAt]

theorem actedGroup_mem {o : OpSpec} {s : State} {w : Where} {g p : Nat} (h : (g, p) ∈ w.b.members) :
    actedGroup o s w g = o.apply (gangAt s w.b.gang).oneD (groupAt s w.b.gang g) (inGroup w.b.members g) :=
  if_pos (mem_groups h)

/-- The result of an operation for an item (R95, R118). -/
def OpSpec.result (o : OpSpec) (s : State) (gang g p : Nat) : DWord × Nat :=
  o.f (o.vals (gangAt s gang).oneD (groupAt s gang g) p)

theorem Acted.rest {o : OpSpec} (hx : o.FormExact) {s t : State} {w : Where} (i : Issues s w) (a : Acted o s t w) (g : Nat) :
    (groupAt t w.b.gang g).c = (groupAt s w.b.gang g).c ∧
    (groupAt t w.b.gang g).s = (if o.d = 124 then (match sWriter (groupAt s w.b.gang g) (inGroup w.b.members g) with
      | some p => tput (groupAt s w.b.gang g).s (extS o.ext) (lowWord (o.result s w.b.gang g p).1)
      | none => (groupAt s w.b.gang g).s) else (groupAt s w.b.gang g).s) ∧
    (groupAt t w.b.gang g).status = (groupAt s w.b.gang g).status |||
      BitVec.ofNat 32 (raised (groupAt s w.b.gang g) (inGroup w.b.members g) (fun p => (o.result s w.b.gang g p).2) % 64) := by
  have h := OpSpec.apply_rest hx (gangAt s w.b.gang).oneD (groupAt s w.b.gang g) (inGroup w.b.members g)
    (fun p hp => by have := i.home _ (mem_inGroup.1 hp); simp only at this; omega)
  rw [(a.regs g).c, (a.regs g).s, (a.regs g).status]
  unfold actedGroup
  split
  · refine ⟨h.1, h.2.1, ?_⟩
    rw [h.2.2, OpSpec.flagsOf_raised]
    rfl
  · rename_i ng
    have e : inGroup w.b.members g = [] := by
      rw [List.eq_nil_iff_forall_not_mem]
      exact fun p hp => ng (mem_groups (mem_inGroup.1 hp))
    simp [e, raised, sWriter, leastBy]

theorem Acted.wrote {o : OpSpec} (hx : o.FormExact) {s t : State} {w : Where} (i : Issues s w) (a : Acted o s t w) :
    Wrote s t w o.d o.ext o.wide (fun g p => (o.result s w.b.gang g p).1) := by
  have vals (g p : Nat) (hm : (g, p) ∈ w.b.members) (hr : isReal (groupAt s w.b.gang g) p = true) (d : isV o.d = true) :=
    OpSpec.apply_value hx (oneD := (gangAt s w.b.gang).oneD) (mem_inGroup.2 hm) (i.home _ hm) (realPos_of_itemIn hr) d
  refine ⟨fun d m hm hr => ?_, fun d hw m hm hr => ?_, fun d g p hm hr least => ?_⟩
  · have h := vals m.1 m.2 hm hr d
    rw [upTo_words] at h
    rw [a.vOf_eq, actedGroup_mem (p := m.2) hm]
    cases hw : o.wide
    · rw [hw, split_narrow hw] at h
      simp only [Bool.false_eq_true, if_false, List.map_cons, List.map_nil, List.cons.injEq, and_true] at h
      exact h
    · rw [hw, split_wide hw] at h
      simp only [if_true, List.map_cons, List.map_nil, List.cons.injEq] at h
      exact h.1
  · have h := vals m.1 m.2 hm hr d
    rw [upTo_words, hw, split_wide hw] at h
    simp only [if_true, List.map_cons, List.map_nil, List.cons.injEq, and_true] at h
    rw [a.vOf_eq, actedGroup_mem (p := m.2) hm]
    exact h.2
  · have hs := sWriter_least (x := groupAt s w.b.gang g) (mem_inGroup.2 hm) hr (fun q hq hq2 => least q (mem_inGroup.1 hq) hq2)
    unfold sOf
    rw [(a.rest hx i g).2.1, if_pos d, hs]
    simp only [tget_tput_same]

theorem Acted.kept {o : OpSpec} (hx : o.FormExact) {s t : State} {w : Where} (i : Issues s w) (a : Acted o s t w) :
    KeptRegs s t w o.d o.ext o.words := by
  refine ⟨fun g k p lt h => ?_, fun g k p lt live nm => ?_, fun g n p => ?_, fun g n h => ?_⟩
  · rw [a.vOf_eq]
    unfold actedGroup
    split
    · refine OpSpec.apply_other o _ _ _ k p lt (fun d => ?_)
      have := h d
      rw [mem_upTo]
      omega
    · rfl
  · rw [a.vOf_eq]
    unfold actedGroup
    split
    · exact OpSpec.apply_idle o _ _ _ k p lt live (by rw [mem_inGroup]; exact nm)
    · rfl
  · simp only [cOf, cAt, (a.rest hx i g).1, confined_coord a.conf g p]
  · unfold sOf
    rw [(a.rest hx i g).2.1]
    split
    · rename_i d
      split
      · exact tget_tput_ne _ _ _ (Ne.symm (h d))
      · rfl
    · rfl

theorem nth_take {α : Type} (l : List α) (n j : Nat) (d : α) (h : j < n) : nth (l.take n) j d = nth l j d := by
  induction l generalizing n j with
  | nil => simp
  | cons x r ih =>
    cases n with
    | zero => omega
    | succ n =>
      cases j with
      | zero => rfl
      | succ j => simpa [nth] using ih n j (by omega)

theorem nth_pushRing_zero (l : List (Option LRep)) (e : LRep) : nth (pushRing l e) 0 none = some e := rfl
theorem nth_pushRing_succ (l : List (Option LRep)) (e : LRep) {j : Nat} (h : j < 7) :
    nth (pushRing l e) (j + 1) none = nth l j none := by
  unfold pushRing
  rw [nth_take _ _ _ _ (by omega)]
  rfl

theorem Acted.pushed {o : OpSpec} (hx : o.FormExact) {s t : State} {w : Where} (i : Issues s w) (a : Acted o s t w)
    (pend : w.b.pend = 0) : Pushed s t w o.wide (fun g p => (o.result s w.b.gang g p).1) := by
  have latch (m : Nat × Nat) (hm : m ∈ w.b.members) (hr : isReal (groupAt s w.b.gang m.1) m.2 = true) :
      ∃ (x : Item) (es : List LRep), itemIn (groupAt s w.b.gang m.1) m.2 = some x ∧ (∀ j, latchOf t w.b.gang m.1 m.2 j =
        (nth (es.foldl pushRing x.ring) j none).map
          (fun e => latchAt e (coordOf (gangAt s w.b.gang).oneD (groupAt s w.b.gang m.1) m.2))) ∧
      es.map (fun e => latchAt e (coordOf (gangAt s w.b.gang).oneD (groupAt s w.b.gang m.1) m.2)) =
        o.split (o.result s w.b.gang m.1 m.2).1 := by
    obtain ⟨x, hs⟩ := Option.isSome_iff_exists.1 (i.live m hm)
    have lt := i.home m hm
    obtain ⟨es, h1, h2⟩ := ring_apply hx (gangAt s w.b.gang).oneD (nodup_inGroup i.once m.1) (mem_inGroup.2 hm) (by omega)
      (realPos_of_itemIn hr) hs
    refine ⟨x, es, hs, fun j => ?_, h2⟩
    have k := a.rings pend m.1 m.2
    rw [actedGroup_mem (p := m.2) hm, h1] at k
    obtain ⟨b, hb, eb⟩ := Option.map_eq_some_iff.1 k
    simp only [latchOf, hb, Option.bind_some, eb, confined_coord a.conf]
  refine ⟨fun hw m hm hr => ?_, fun hw m hm hr => ?_⟩
  · obtain ⟨x, es, hs, h1, h2⟩ := latch m hm hr
    rw [split_narrow hw] at h2
    obtain ⟨e0, rfl⟩ := List.length_eq_one_iff.1 (by simpa using congrArg List.length h2)
    simp only [List.map_cons, List.map_nil, List.cons.injEq, and_true] at h2
    refine ⟨by rw [h1]; simp [nth_pushRing_zero, h2], fun j hj => ?_⟩
    rw [h1]
    simp [nth_pushRing_succ _ _ hj, latchOf, hs]
  · obtain ⟨x, es, hs, h1, h2⟩ := latch m hm hr
    rw [split_wide hw] at h2
    obtain ⟨e0, e1, rfl⟩ := List.length_eq_two.1 (by simpa using congrArg List.length h2)
    simp only [List.map_cons, List.map_nil, List.cons.injEq, and_true] at h2
    refine ⟨by rw [h1]; simp [nth_pushRing_zero, h2.2], ?_, fun j hj => ?_⟩
    · rw [h1]
      simp [nth_pushRing_succ (j := 0), nth_pushRing_zero, h2.1]
    · rw [h1]
      simp [nth_pushRing_succ _ _ (show j + 1 < 7 by omega), nth_pushRing_succ _ _ (show j < 7 by omega), latchOf, hs]

end Sys2Proof.Machine
end

