-- ==== Sys2Proof/Laws/Encode.lean ====
section
/-!
SUPPORT. The fields of a packed word, one lemma per field and layout (R72): what the encoder puts in, the decoder reads, and a
word is the packing of its own fields.
-/
namespace Sys2Proof.Machine

/-- The bits of a packed F-Reg word (R72). -/
theorem pack_bit (c y : Bool) (op d a b : Field7) (k x : Bool) (i : Nat) (h : i < 32) :
    (pack c y op d a b k x)[i] =
      if i = 0 then x else if i = 1 then k else if i < 9 then b.getLsbD (i - 2) else if i < 16 then a.getLsbD (i - 9)
      else if i < 23 then d.getLsbD (i - 16) else if i < 30 then op.getLsbD (i - 23) else if i = 30 then y else c := by
  change (BitVec.ofBool c ++ BitVec.ofBool y ++ op ++ d ++ a ++ b ++ BitVec.ofBool k ++ BitVec.ofBool x :
    BitVec (1 + 1 + 7 + 7 + 7 + 7 + 1 + 1)).getLsbD i = _
  simp only [BitVec.getLsbD_append]
  interval_cases i <;> simp

/-- The bits of a packed F-Imm word (R72). -/
theorem packImm_bit (c y : Bool) (op d a : Field7) (imm : BitVec 8) (k : Bool) (i : Nat) (h : i < 32) :
    (packImm c y op d a imm k)[i] =
      if i = 0 then k else if i < 9 then imm.getLsbD (i - 1) else if i < 16 then a.getLsbD (i - 9)
      else if i < 23 then d.getLsbD (i - 16) else if i < 30 then op.getLsbD (i - 23) else if i = 30 then y else c := by
  change (BitVec.ofBool c ++ BitVec.ofBool y ++ op ++ d ++ a ++ imm ++ BitVec.ofBool k :
    BitVec (1 + 1 + 7 + 7 + 7 + 8 + 1)).getLsbD i = _
  simp only [BitVec.getLsbD_append]
  interval_cases i <;> simp

/-- The bits of a packed F-Br word (R72). -/
theorem packBr_bit (c y : Bool) (op : Field7) (cs : BitVec 3) (neg : Bool) (off : BitVec 19) (i : Nat) (h : i < 32) :
    (packBr c y op cs neg off)[i] =
      if i < 19 then off.getLsbD i else if i = 19 then neg else if i < 23 then cs.getLsbD (i - 20)
      else if i < 30 then op.getLsbD (i - 23) else if i = 30 then y else c := by
  change (BitVec.ofBool c ++ BitVec.ofBool y ++ op ++ cs ++ BitVec.ofBool neg ++ off :
    BitVec (1 + 1 + 7 + 3 + 1 + 19)).getLsbD i = _
  simp only [BitVec.getLsbD_append]
  interval_cases i <;> simp

@[simp] theorem fC_pack (c y : Bool) (op d a b : Field7) (k x : Bool) : fC (pack c y op d a b k x) = c := by
  simp [fC, pack_bit]
@[simp] theorem fY_pack (c y : Bool) (op d a b : Field7) (k x : Bool) : fY (pack c y op d a b k x) = y := by
  simp [fY, pack_bit]
@[simp] theorem fOp_pack (c y : Bool) (op d a b : Field7) (k x : Bool) : fOp (pack c y op d a b k x) = op := by
  apply BitVec.eq_of_getLsbD_eq
  intro i hi
  interval_cases i <;> simp [fOp, pack_bit]
@[simp] theorem fD_pack (c y : Bool) (op d a b : Field7) (k x : Bool) : fD (pack c y op d a b k x) = d := by
  apply BitVec.eq_of_getLsbD_eq
  intro i hi
  interval_cases i <;> simp [fD, pack_bit]
@[simp] theorem fA_pack (c y : Bool) (op d a b : Field7) (k x : Bool) : fA (pack c y op d a b k x) = a := by
  apply BitVec.eq_of_getLsbD_eq
  intro i hi
  interval_cases i <;> simp [fA, pack_bit]
@[simp] theorem fB_pack (c y : Bool) (op d a b : Field7) (k x : Bool) : fB (pack c y op d a b k x) = b := by
  apply BitVec.eq_of_getLsbD_eq
  intro i hi
  interval_cases i <;> simp [fB, pack_bit]
@[simp] theorem fK_pack (c y : Bool) (op d a b : Field7) (k x : Bool) : fK (pack c y op d a b k x) = k := by
  simp [fK, pack_bit]
@[simp] theorem fX_pack (c y : Bool) (op d a b : Field7) (k x : Bool) : fX (pack c y op d a b k x) = x := by
  simp [fX, pack_bit]
@[simp] theorem fC_packImm (c y : Bool) (op d a : Field7) (imm : BitVec 8) (k : Bool) : fC (packImm c y op d a imm k) = c := by
  simp [fC, packImm_bit]
@[simp] theorem fY_packImm (c y : Bool) (op d a : Field7) (imm : BitVec 8) (k : Bool) : fY (packImm c y op d a imm k) = y := by
  simp [fY, packImm_bit]
@[simp] theorem fOp_packImm (c y : Bool) (op d a : Field7) (imm : BitVec 8) (k : Bool) : fOp (packImm c y op d a imm k) = op := by
  apply BitVec.eq_of_getLsbD_eq
  intro i hi
  interval_cases i <;> simp [fOp, packImm_bit]
@[simp] theorem fD_packImm (c y : Bool) (op d a : Field7) (imm : BitVec 8) (k : Bool) : fD (packImm c y op d a imm k) = d := by
  apply BitVec.eq_of_getLsbD_eq
  intro i hi
  interval_cases i <;> simp [fD, packImm_bit]
@[simp] theorem fA_packImm (c y : Bool) (op d a : Field7) (imm : BitVec 8) (k : Bool) : fA (packImm c y op d a imm k) = a := by
  apply BitVec.eq_of_getLsbD_eq
  intro i hi
  interval_cases i <;> simp [fA, packImm_bit]
@[simp] theorem fImm_packImm (c y : Bool) (op d a : Field7) (imm : BitVec 8) (k : Bool) : fImm (packImm c y op d a imm k) = imm := by
  apply BitVec.eq_of_getLsbD_eq
  intro i hi
  interval_cases i <;> simp [fImm, packImm_bit]
@[simp] theorem fX_packImm (c y : Bool) (op d a : Field7) (imm : BitVec 8) (k : Bool) : fX (packImm c y op d a imm k) = k := by
  simp [fX, packImm_bit]
@[simp] theorem fC_packBr (c y : Bool) (op : Field7) (cs : BitVec 3) (neg : Bool) (off : BitVec 19) : fC (packBr c y op cs neg off) = c := by
  simp [fC, packBr_bit]
@[simp] theorem fY_packBr (c y : Bool) (op : Field7) (cs : BitVec 3) (neg : Bool) (off : BitVec 19) : fY (packBr c y op cs neg off) = y := by
  simp [fY, packBr_bit]
@[simp] theorem fOp_packBr (c y : Bool) (op : Field7) (cs : BitVec 3) (neg : Bool) (off : BitVec 19) : fOp (packBr c y op cs neg off) = op := by
  apply BitVec.eq_of_getLsbD_eq
  intro i hi
  interval_cases i <;> simp [fOp, packBr_bit]
@[simp] theorem fOff_packBr (c y : Bool) (op : Field7) (cs : BitVec 3) (neg : Bool) (off : BitVec 19) : fOff (packBr c y op cs neg off) = off := by
  apply BitVec.eq_of_getLsbD_eq
  intro i hi
  interval_cases i <;> simp [fOff, packBr_bit]
@[simp] theorem fOff5_pack (c y : Bool) (op d a : Field7) (off : BitVec 5) (sz : BitVec 2) (k x : Bool) :
    fOff5 (pack c y op d a (off ++ sz) k x) = off := by
  have h : ∀ b : Field7, fOff5 (pack c y op d a b k x) = b.extractLsb' 2 5 := by
    intro b
    apply BitVec.eq_of_getLsbD_eq
    intro i hi
    interval_cases i <;> simp [fOff5, pack_bit]
  rw [h]
  revert off sz
  decide
@[simp] theorem fSz_pack (c y : Bool) (op d a : Field7) (off : BitVec 5) (sz : BitVec 2) (k x : Bool) :
    fSz (pack c y op d a (off ++ sz) k x) = sz := by
  have h : ∀ b : Field7, fSz (pack c y op d a b k x) = b.setWidth 2 := by
    intro b
    apply BitVec.eq_of_getLsbD_eq
    intro i hi
    interval_cases i <;> simp [fSz, pack_bit]
  rw [h]
  revert off sz
  decide
@[simp] theorem hi3_packBr (c y : Bool) (op : Field7) (cs : BitVec 3) (neg : Bool) (off : BitVec 19) :
    hi3 (fD (packBr c y op cs neg off)) = cs := by
  apply BitVec.eq_of_getLsbD_eq
  intro i hi
  interval_cases i <;> simp [hi3, fD, packBr_bit]
@[simp] theorem bit3_packBr (c y : Bool) (op : Field7) (cs : BitVec 3) (neg : Bool) (off : BitVec 19) :
    bit3 (fD (packBr c y op cs neg off)) = neg := by
  simp [bit3, fD, packBr_bit]
@[simp] theorem setWidth23_pack (c y : Bool) (op : Field7) : (pack c y op 0#7 0#7 0#7 false false).setWidth 23 = 0#23 := by
  apply BitVec.eq_of_getLsbD_eq
  intro i hi
  interval_cases i <;> simp [pack_bit]
@[simp] theorem hi3_join3 (a b : BitVec 3) (w : Bool) : hi3 (join3 a b w) = a := by
  revert a b w; decide
@[simp] theorem mid3_join3 (a b : BitVec 3) (w : Bool) : mid3 (join3 a b w) = b := by
  revert a b w; decide
@[simp] theorem low1_join3 (a b : BitVec 3) (w : Bool) : low1 (join3 a b w) = w := by
  revert a b w; decide
@[simp] theorem nib_top3 (n : Bool) (c : BitVec 3) : top3 (nib n c) = 0 := by revert n c; decide
@[simp] theorem nib_bit3 (n : Bool) (c : BitVec 3) : bit3 (nib n c) = n := by revert n c; decide
@[simp] theorem nib_low3 (n : Bool) (c : BitVec 3) : low3 (nib n c) = c := by revert n c; decide
@[simp] theorem top4_low3 (c : BitVec 3) : top4 (0#4 ++ c) = 0 := by revert c; decide
@[simp] theorem low3_low3 (c : BitVec 3) : low3 (0#4 ++ c) = c := by revert c; decide
@[simp] theorem top3_low4 (c : BitVec 4) : top3 (0#3 ++ c) = 0 := by revert c; decide
@[simp] theorem low4_low4 (c : BitVec 4) : low4 (0#3 ++ c) = c := by revert c; decide
@[simp] theorem xq_top4 (bc : Bool) (m : BitVec 2) : top4 (0#4 ++ BitVec.ofBool bc ++ m) = 0 := by revert bc m; decide
@[simp] theorem xq_bit2 (bc : Bool) (m : BitVec 2) : bit2 (0#4 ++ BitVec.ofBool bc ++ m) = bc := by revert bc m; decide
@[simp] theorem xq_low2 (bc : Bool) (m : BitVec 2) : low2 (0#4 ++ BitVec.ofBool bc ++ m) = m := by revert bc m; decide
@[simp] theorem gred_mid2 (s : Bool) (o : BitVec 4) : mid2 (BitVec.ofBool s ++ 0#2 ++ o) = 0 := by revert s o; decide
@[simp] theorem gred_top1 (s : Bool) (o : BitVec 4) : top1 (BitVec.ofBool s ++ 0#2 ++ o) = s := by revert s o; decide
@[simp] theorem gred_low4 (s : Bool) (o : BitVec 4) : low4 (BitVec.ofBool s ++ 0#2 ++ o) = o := by revert s o; decide
@[simp] theorem cv_high4 (v : BitVec 4) : high4 (v ++ 0#3) = v := by revert v; decide
@[simp] theorem cv_low3 (v : BitVec 4) : low3 (v ++ 0#3) = 0 := by revert v; decide
@[simp] theorem acc_mid2 (k : BitVec 3) (a : BitVec 2) : mid2' (k ++ 0#2 ++ a) = 0 := by revert k a; decide
@[simp] theorem acc_top3 (k : BitVec 3) (a : BitVec 2) : top3 (k ++ 0#2 ++ a) = k := by revert k a; decide
@[simp] theorem acc_low2 (k : BitVec 3) (a : BitVec 2) : low2 (k ++ 0#2 ++ a) = a := by revert k a; decide
@[simp] theorem acc0_mid2 (a : BitVec 2) : mid2' (0#5 ++ a) = 0#2 := by revert a; decide
@[simp] theorem acc0_top3 (a : BitVec 2) : top3 (0#5 ++ a) = 0#3 := by revert a; decide
@[simp] theorem acc0_low2 (a : BitVec 2) : low2 (0#5 ++ a) = a := by revert a; decide
@[simp] theorem acc1_mid2 (a : BitVec 2) : mid2' (4#5 ++ a) = 0#2 := by revert a; decide
@[simp] theorem acc1_top3 (a : BitVec 2) : top3 (4#5 ++ a) = 1#3 := by revert a; decide
@[simp] theorem acc1_low2 (a : BitVec 2) : low2 (4#5 ++ a) = a := by revert a; decide
@[simp] theorem acc2_mid2 (a : BitVec 2) : mid2' (8#5 ++ a) = 0#2 := by revert a; decide
@[simp] theorem acc2_top3 (a : BitVec 2) : top3 (8#5 ++ a) = 2#3 := by revert a; decide
@[simp] theorem acc2_low2 (a : BitVec 2) : low2 (8#5 ++ a) = a := by revert a; decide
@[simp] theorem acc3_mid2 (a : BitVec 2) : mid2' (12#5 ++ a) = 0#2 := by revert a; decide
@[simp] theorem acc3_top3 (a : BitVec 2) : top3 (12#5 ++ a) = 3#3 := by revert a; decide
@[simp] theorem acc3_low2 (a : BitVec 2) : low2 (12#5 ++ a) = a := by revert a; decide
@[simp] theorem acc4_mid2 (a : BitVec 2) : mid2' (16#5 ++ a) = 0#2 := by revert a; decide
@[simp] theorem acc4_top3 (a : BitVec 2) : top3 (16#5 ++ a) = 4#3 := by revert a; decide
@[simp] theorem acc4_low2 (a : BitVec 2) : low2 (16#5 ++ a) = a := by revert a; decide
@[simp] theorem xform_high6 (b : BitVec 1) : high6 (0#6 ++ b) = 0 := by revert b; decide
@[simp] theorem xform_low1 (b : BitVec 6) : low1 (b ++ 0#1) = false := by revert b; decide
theorem seven_split (v : Field7) : v.extractLsb' 6 1 ++ v.setWidth 6 = v := by revert v; decide
theorem low_of_six (h : BitVec 6) (q : BitVec 1) : (h ++ q : Field7).extractLsb' 1 6 = h := by revert h q; decide
theorem low_of_zero (q : BitVec 1) : (0#6 ++ q : Field7).setWidth 1 = q := by revert q; decide
theorem low_of_one (h : BitVec 6) (q : BitVec 1) : (h ++ q : Field7).setWidth 1 = q := by revert h q; decide
theorem low_of_eng (v : BitVec 4) (r : BitVec 2) (p : BitVec 1) : (v ++ r ++ p : Field7).setWidth 1 = p := by
  revert v r p; decide
@[simp] theorem xform_dsc (v : Field7) : dscOf (0#6 ++ v.extractLsb' 6 1) (v.setWidth 6 ++ 0#1) = v := by
  rw [dscOf, low_of_zero, low_of_six, seven_split]
@[simp] theorem eng_cv (v : BitVec 4) (r : BitVec 2) (p : BitVec 1) : high4 (v ++ r ++ p) = v := by
  revert v r p; decide
@[simp] theorem eng_arr (v : BitVec 4) (r : BitVec 2) (p : BitVec 1) : (v ++ r ++ p : Field7).extractLsb' 1 2 = r := by
  revert v r p; decide
@[simp] theorem eng_areg (v : BitVec 4) (r : BitVec 2) (g t : Field7) :
    aregOf (v ++ r ++ g.extractLsb' 6 1) (g.setWidth 6 ++ t.extractLsb' 6 1) = g := by
  rw [aregOf, low_of_eng, low_of_six, seven_split]
@[simp] theorem eng_dsc (g t : Field7) (h : Bool) :
    dscOf (g.setWidth 6 ++ t.extractLsb' 6 1) (t.setWidth 6 ++ BitVec.ofBool h) = t := by
  rw [dscOf, low_of_one, low_of_six, seven_split]
@[simp] theorem eng_h (t : BitVec 6) (h : Bool) : low1 (t ++ BitVec.ofBool h) = h := by revert t h; decide
@[simp] theorem eng_x (c y : Bool) (op d a b : Field7) (k : Bool) : fX (pack c y op d a b k false) = false := by simp

/-- A word is the packing of its own fields (R72). -/
theorem pack_fields (w : Word) : pack (fC w) (fY w) (fOp w) (fD w) (fA w) (fB w) (fK w) (fX w) = w := by
  apply BitVec.eq_of_getLsbD_eq
  intro i hi
  interval_cases i <;> simp [pack_bit, fC, fY, fOp, fD, fA, fB, fK, fX]
/-- A word is the packing of its F-Imm fields (R72). -/
theorem packImm_fields (w : Word) : packImm (fC w) (fY w) (fOp w) (fD w) (fA w) (fImm w) (fX w) = w := by
  apply BitVec.eq_of_getLsbD_eq
  intro i hi
  interval_cases i <;> simp [packImm_bit, fC, fY, fOp, fD, fA, fImm, fX]
/-- A word is the packing of its F-Br fields (R72). -/
theorem packBr_fields (w : Word) : packBr (fC w) (fY w) (fOp w) (hi3 (fD w)) (bit3 (fD w)) (fOff w) = w := by
  apply BitVec.eq_of_getLsbD_eq
  intro i hi
  interval_cases i <;> simp [packBr_bit, fC, fY, fOp, fD, hi3, bit3, fOff]

/-- Without an extension word the operand word reads zero (R75). -/
theorem extRole_ext (d : Option Field7) (srcs : List Field7) (ext : Word) (r : ModRule) (ok : Word → Bool)
    (h : extRole d srcs false ext r ok = true) : ext = 0 := by
  unfold extRole at h
  cases r <;> simp at h <;> exact h.2

end Sys2Proof.Machine
end

