-- ==== Sys2Proof/Laws/Decoding.lean ====
section
/-!
SUPPORT. What the decoder makes of a word, one lemma per opcode (R72, R85): later proofs cite these and do not unfold it.
-/
namespace Sys2Proof.Machine

theorem decodeWord_00 (w next : Word) (h : fOp w = 0x00) : decodeWord w next = (
      some (.add (regOp w (if fX w then next else 0)))) := by
  unfold decodeWord
  rw [h]
  rfl
theorem decodeWord_01 (w next : Word) (h : fOp w = 0x01) : decodeWord w next = (
      some (.sub (regOp w (if fX w then next else 0)))) := by
  unfold decodeWord
  rw [h]
  rfl
theorem decodeWord_02 (w next : Word) (h : fOp w = 0x02) : decodeWord w next = (
      some (.mul (regOp w (if fX w then next else 0)))) := by
  unfold decodeWord
  rw [h]
  rfl
theorem decodeWord_03 (w next : Word) (h : fOp w = 0x03) : decodeWord w next = (
      some (.mulhiI (regOp w (if fX w then next else 0)))) := by
  unfold decodeWord
  rw [h]
  rfl
theorem decodeWord_04 (w next : Word) (h : fOp w = 0x04) : decodeWord w next = (
      some (.mulhiN (regOp w (if fX w then next else 0)))) := by
  unfold decodeWord
  rw [h]
  rfl
theorem decodeWord_05 (w next : Word) (h : fOp w = 0x05) : decodeWord w next = (
      some (.mad (regOp w (if fX w then next else 0)))) := by
  unfold decodeWord
  rw [h]
  rfl
theorem decodeWord_06 (w next : Word) (h : fOp w = 0x06) : decodeWord w next = (
      some (.minI (regOp w (if fX w then next else 0)))) := by
  unfold decodeWord
  rw [h]
  rfl
theorem decodeWord_07 (w next : Word) (h : fOp w = 0x07) : decodeWord w next = (
      some (.maxI (regOp w (if fX w then next else 0)))) := by
  unfold decodeWord
  rw [h]
  rfl
theorem decodeWord_08 (w next : Word) (h : fOp w = 0x08) : decodeWord w next = (
      some (.minN (regOp w (if fX w then next else 0)))) := by
  unfold decodeWord
  rw [h]
  rfl
theorem decodeWord_09 (w next : Word) (h : fOp w = 0x09) : decodeWord w next = (
      some (.maxN (regOp w (if fX w then next else 0)))) := by
  unfold decodeWord
  rw [h]
  rfl
theorem decodeWord_0a (w next : Word) (h : fOp w = 0x0a) : decodeWord w next = (
      some (.and (regOp w (if fX w then next else 0)))) := by
  unfold decodeWord
  rw [h]
  rfl
theorem decodeWord_0b (w next : Word) (h : fOp w = 0x0b) : decodeWord w next = (
      some (.or (regOp w (if fX w then next else 0)))) := by
  unfold decodeWord
  rw [h]
  rfl
theorem decodeWord_0c (w next : Word) (h : fOp w = 0x0c) : decodeWord w next = (
      some (.xor (regOp w (if fX w then next else 0)))) := by
  unfold decodeWord
  rw [h]
  rfl
theorem decodeWord_0d (w next : Word) (h : fOp w = 0x0d) : decodeWord w next = (
      some (.andn (regOp w (if fX w then next else 0)))) := by
  unfold decodeWord
  rw [h]
  rfl
theorem decodeWord_0e (w next : Word) (h : fOp w = 0x0e) : decodeWord w next = (
      some (.shl (regOp w (if fX w then next else 0)))) := by
  unfold decodeWord
  rw [h]
  rfl
theorem decodeWord_0f (w next : Word) (h : fOp w = 0x0f) : decodeWord w next = (
      some (.shr (regOp w (if fX w then next else 0)))) := by
  unfold decodeWord
  rw [h]
  rfl
theorem decodeWord_10 (w next : Word) (h : fOp w = 0x10) : decodeWord w next = (
      some (.sar (regOp w (if fX w then next else 0)))) := by
  unfold decodeWord
  rw [h]
  rfl
theorem decodeWord_11 (w next : Word) (h : fOp w = 0x11) : decodeWord w next = (
      some (.rol (regOp w (if fX w then next else 0)))) := by
  unfold decodeWord
  rw [h]
  rfl
theorem decodeWord_12 (w next : Word) (h : fOp w = 0x12) : decodeWord w next = (
      if fB w = 0 then some (.clz (unOp w (if fX w then next else 0))) else none) := by
  unfold decodeWord
  rw [h]
  rfl
theorem decodeWord_13 (w next : Word) (h : fOp w = 0x13) : decodeWord w next = (
      if fB w = 0 then some (.popc (unOp w (if fX w then next else 0))) else none) := by
  unfold decodeWord
  rw [h]
  rfl
theorem decodeWord_14 (w next : Word) (h : fOp w = 0x14) : decodeWord w next = (
      if fB w = 0 then some (.brev (unOp w (if fX w then next else 0))) else none) := by
  unfold decodeWord
  rw [h]
  rfl
theorem decodeWord_15 (w next : Word) (h : fOp w = 0x15) : decodeWord w next = (
      some (.bfx (regOp w (if fX w then next else 0)))) := by
  unfold decodeWord
  rw [h]
  rfl
theorem decodeWord_16 (w next : Word) (h : fOp w = 0x16) : decodeWord w next = (
      some (.bfi (regOp w (if fX w then next else 0)))) := by
  unfold decodeWord
  rw [h]
  rfl
theorem decodeWord_17 (w next : Word) (h : fOp w = 0x17) : decodeWord w next = (
      some (.fsh (regOp w (if fX w then next else 0)))) := by
  unfold decodeWord
  rw [h]
  rfl
theorem decodeWord_18 (w next : Word) (h : fOp w = 0x18) : decodeWord w next = (
      if fX w then some (.sel (modOp w (if fX w then next else 0))) else none) := by
  unfold decodeWord
  rw [h]
  rfl
theorem decodeWord_19 (w next : Word) (h : fOp w = 0x19) : decodeWord w next = (
      if fB w = 0 then some (.abs (unOp w (if fX w then next else 0))) else none) := by
  unfold decodeWord
  rw [h]
  rfl
theorem decodeWord_1a (w next : Word) (h : fOp w = 0x1a) : decodeWord w next = (
      if fB w = 0 then some (.neg (unOp w (if fX w then next else 0))) else none) := by
  unfold decodeWord
  rw [h]
  rfl
theorem decodeWord_1b (w next : Word) (h : fOp w = 0x1b) : decodeWord w next = (
      some (.divN (regOp w (if fX w then next else 0)))) := by
  unfold decodeWord
  rw [h]
  rfl
theorem decodeWord_1c (w next : Word) (h : fOp w = 0x1c) : decodeWord w next = (
      some (.remN (regOp w (if fX w then next else 0)))) := by
  unfold decodeWord
  rw [h]
  rfl
theorem decodeWord_1d (w next : Word) (h : fOp w = 0x1d) : decodeWord w next = (
      some (.divI (regOp w (if fX w then next else 0)))) := by
  unfold decodeWord
  rw [h]
  rfl
theorem decodeWord_1e (w next : Word) (h : fOp w = 0x1e) : decodeWord w next = (
      some (.remI (regOp w (if fX w then next else 0)))) := by
  unfold decodeWord
  rw [h]
  rfl
theorem decodeWord_1f (w next : Word) (h : fOp w = 0x1f) : decodeWord w next = (
      if fB w = 0 then some (.mov (unOp w (if fX w then next else 0))) else none) := by
  unfold decodeWord
  rw [h]
  rfl
theorem decodeWord_20 (w next : Word) (h : fOp w = 0x20) : decodeWord w next = (
      some (.addi (immOp w))) := by
  unfold decodeWord
  rw [h]
  rfl
theorem decodeWord_21 (w next : Word) (h : fOp w = 0x21) : decodeWord w next = (
      some (.andi (immOp w))) := by
  unfold decodeWord
  rw [h]
  rfl
theorem decodeWord_22 (w next : Word) (h : fOp w = 0x22) : decodeWord w next = (
      some (.ori (immOp w))) := by
  unfold decodeWord
  rw [h]
  rfl
theorem decodeWord_23 (w next : Word) (h : fOp w = 0x23) : decodeWord w next = (
      some (.xori (immOp w))) := by
  unfold decodeWord
  rw [h]
  rfl
theorem decodeWord_24 (w next : Word) (h : fOp w = 0x24) : decodeWord w next = (
      some (.shli (immOp w))) := by
  unfold decodeWord
  rw [h]
  rfl
theorem decodeWord_25 (w next : Word) (h : fOp w = 0x25) : decodeWord w next = (
      some (.shri (immOp w))) := by
  unfold decodeWord
  rw [h]
  rfl
theorem decodeWord_26 (w next : Word) (h : fOp w = 0x26) : decodeWord w next = (
      some (.sari (immOp w))) := by
  unfold decodeWord
  rw [h]
  rfl
theorem decodeWord_27 (w next : Word) (h : fOp w = 0x27) : decodeWord w next = (
      if fA w = 0 then some (.movi ⟨fC w, fY w, fX w, fD w, fImm w⟩) else none) := by
  unfold decodeWord
  rw [h]
  rfl
theorem decodeWord_28 (w next : Word) (h : fOp w = 0x28) : decodeWord w next = (
      some (.icmp ⟨fC w, fY w, hi3 (fD w), mid3 (fD w), low1 (fD w), fA w, fB w, fK w, fX w, (if fX w then next else 0)⟩)) := by
  unfold decodeWord
  rw [h]
  rfl
theorem decodeWord_29 (w next : Word) (h : fOp w = 0x29) : decodeWord w next = (
      if low1 (fD w) then none else some (.fcmp ⟨fC w, fY w, hi3 (fD w), mid3 (fD w), fA w, fB w, fK w, fX w, (if fX w then next else 0)⟩)) := by
  unfold decodeWord
  rw [h]
  rfl
theorem decodeWord_2a (w next : Word) (h : fOp w = 0x2a) : decodeWord w next = (
      if low1 (fD w) || top3 (fA w) ≠ 0 || top3 (fB w) ≠ 0 || fX w then none
      else some (.cop ⟨fC w, fY w, hi3 (fD w), mid3 (fD w), bit3 (fA w), low3 (fA w), bit3 (fB w), low3 (fB w), fK w⟩)) := by
  unfold decodeWord
  rw [h]
  rfl
theorem decodeWord_2b (w next : Word) (h : fOp w = 0x2b) : decodeWord w next = (
      if top4 (fD w) ≠ 0 || fK w then none
      else some (.cset ⟨fC w, fY w, low3 (fD w), fA w, fB w, fX w, (if fX w then next else 0)⟩)) := by
  unfold decodeWord
  rw [h]
  rfl
theorem decodeWord_2c (w next : Word) (h : fOp w = 0x2c) : decodeWord w next = (
      some (.add64 (regOp w (if fX w then next else 0)))) := by
  unfold decodeWord
  rw [h]
  rfl
theorem decodeWord_2d (w next : Word) (h : fOp w = 0x2d) : decodeWord w next = (
      some (.sub64 (regOp w (if fX w then next else 0)))) := by
  unfold decodeWord
  rw [h]
  rfl
theorem decodeWord_2e (w next : Word) (h : fOp w = 0x2e) : decodeWord w next = (
      some (.lea (regOp w (if fX w then next else 0)))) := by
  unfold decodeWord
  rw [h]
  rfl
theorem decodeWord_2f (w next : Word) (h : fOp w = 0x2f) : decodeWord w next = (
      some (.cvt64 (regOp w (if fX w then next else 0)))) := by
  unfold decodeWord
  rw [h]
  rfl
theorem decodeWord_30 (w next : Word) (h : fOp w = 0x30) : decodeWord w next = (
      some (.fadd (regOp w (if fX w then next else 0)))) := by
  unfold decodeWord
  rw [h]
  rfl
theorem decodeWord_31 (w next : Word) (h : fOp w = 0x31) : decodeWord w next = (
      some (.fsub (regOp w (if fX w then next else 0)))) := by
  unfold decodeWord
  rw [h]
  rfl
theorem decodeWord_32 (w next : Word) (h : fOp w = 0x32) : decodeWord w next = (
      some (.fmul (regOp w (if fX w then next else 0)))) := by
  unfold decodeWord
  rw [h]
  rfl
theorem decodeWord_33 (w next : Word) (h : fOp w = 0x33) : decodeWord w next = (
      some (.ffma (regOp w (if fX w then next else 0)))) := by
  unfold decodeWord
  rw [h]
  rfl
theorem decodeWord_34 (w next : Word) (h : fOp w = 0x34) : decodeWord w next = (
      some (.fmin (regOp w (if fX w then next else 0)))) := by
  unfold decodeWord
  rw [h]
  rfl
theorem decodeWord_35 (w next : Word) (h : fOp w = 0x35) : decodeWord w next = (
      some (.fmax (regOp w (if fX w then next else 0)))) := by
  unfold decodeWord
  rw [h]
  rfl
theorem decodeWord_36 (w next : Word) (h : fOp w = 0x36) : decodeWord w next = (
      if fB w = 0 then some (.fabs (unOp w (if fX w then next else 0))) else none) := by
  unfold decodeWord
  rw [h]
  rfl
theorem decodeWord_37 (w next : Word) (h : fOp w = 0x37) : decodeWord w next = (
      if fB w = 0 then some (.fneg (unOp w (if fX w then next else 0))) else none) := by
  unfold decodeWord
  rw [h]
  rfl
theorem decodeWord_38 (w next : Word) (h : fOp w = 0x38) : decodeWord w next = (
      if fB w = 0 then some (.fclass (unOp w (if fX w then next else 0))) else none) := by
  unfold decodeWord
  rw [h]
  rfl
theorem decodeWord_39 (w next : Word) (h : fOp w = 0x39) : decodeWord w next = (
      some (.fscale (regOp w (if fX w then next else 0)))) := by
  unfold decodeWord
  rw [h]
  rfl
theorem decodeWord_3a (w next : Word) (h : fOp w = 0x3a) : decodeWord w next = (
      if fB w = 0 then some (.frcp (unOp w (if fX w then next else 0))) else none) := by
  unfold decodeWord
  rw [h]
  rfl
theorem decodeWord_3b (w next : Word) (h : fOp w = 0x3b) : decodeWord w next = (
      if fB w = 0 then some (.frsq (unOp w (if fX w then next else 0))) else none) := by
  unfold decodeWord
  rw [h]
  rfl
theorem decodeWord_3c (w next : Word) (h : fOp w = 0x3c) : decodeWord w next = (
      if fB w = 0 then some (.fsqrt (unOp w (if fX w then next else 0))) else none) := by
  unfold decodeWord
  rw [h]
  rfl
theorem decodeWord_3d (w next : Word) (h : fOp w = 0x3d) : decodeWord w next = (
      if fB w = 0 then some (.fex2 (unOp w (if fX w then next else 0))) else none) := by
  unfold decodeWord
  rw [h]
  rfl
theorem decodeWord_3e (w next : Word) (h : fOp w = 0x3e) : decodeWord w next = (
      if fB w = 0 then some (.flg2 (unOp w (if fX w then next else 0))) else none) := by
  unfold decodeWord
  rw [h]
  rfl
theorem decodeWord_3f (w next : Word) (h : fOp w = 0x3f) : decodeWord w next = (
      if fB w = 0 then some (.fsin (unOp w (if fX w then next else 0))) else none) := by
  unfold decodeWord
  rw [h]
  rfl
theorem decodeWord_40 (w next : Word) (h : fOp w = 0x40) : decodeWord w next = (
      if fB w = 0 then some (.fcos (unOp w (if fX w then next else 0))) else none) := by
  unfold decodeWord
  rw [h]
  rfl
theorem decodeWord_41 (w next : Word) (h : fOp w = 0x41) : decodeWord w next = (
      if fB w = 0 then some (.ftanh (unOp w (if fX w then next else 0))) else none) := by
  unfold decodeWord
  rw [h]
  rfl
theorem decodeWord_42 (w next : Word) (h : fOp w = 0x42) : decodeWord w next = (
      some (.hadd2 (regOp w (if fX w then next else 0)))) := by
  unfold decodeWord
  rw [h]
  rfl
theorem decodeWord_43 (w next : Word) (h : fOp w = 0x43) : decodeWord w next = (
      some (.hmul2 (regOp w (if fX w then next else 0)))) := by
  unfold decodeWord
  rw [h]
  rfl
theorem decodeWord_44 (w next : Word) (h : fOp w = 0x44) : decodeWord w next = (
      some (.hfma2 (regOp w (if fX w then next else 0)))) := by
  unfold decodeWord
  rw [h]
  rfl
theorem decodeWord_45 (w next : Word) (h : fOp w = 0x45) : decodeWord w next = (
      some (.hmin2 (regOp w (if fX w then next else 0)))) := by
  unfold decodeWord
  rw [h]
  rfl
theorem decodeWord_46 (w next : Word) (h : fOp w = 0x46) : decodeWord w next = (
      some (.hmax2 (regOp w (if fX w then next else 0)))) := by
  unfold decodeWord
  rw [h]
  rfl
theorem decodeWord_47 (w next : Word) (h : fOp w = 0x47) : decodeWord w next = (
      some (.hdot2 (regOp w (if fX w then next else 0)))) := by
  unfold decodeWord
  rw [h]
  rfl
theorem decodeWord_48 (w next : Word) (h : fOp w = 0x48) : decodeWord w next = (
      some (.cmul (regOp w (if fX w then next else 0)))) := by
  unfold decodeWord
  rw [h]
  rfl
theorem decodeWord_49 (w next : Word) (h : fOp w = 0x49) : decodeWord w next = (
      some (.cfma (regOp w (if fX w then next else 0)))) := by
  unfold decodeWord
  rw [h]
  rfl
theorem decodeWord_4a (w next : Word) (h : fOp w = 0x4a) : decodeWord w next = (
      if fX w && fB w = 0 then some (.cvt ⟨fC w, fY w, fK w, fD w, fA w, (if fX w then next else 0)⟩) else none) := by
  unfold decodeWord
  rw [h]
  rfl
theorem decodeWord_4b (w next : Word) (h : fOp w = 0x4b) : decodeWord w next = (
      if fX w then some (.pkn (modOp w (if fX w then next else 0))) else none) := by
  unfold decodeWord
  rw [h]
  rfl
theorem decodeWord_4c (w next : Word) (h : fOp w = 0x4c) : decodeWord w next = (
      if fX w then some (.unpk (modOp w (if fX w then next else 0))) else none) := by
  unfold decodeWord
  rw [h]
  rfl
theorem decodeWord_4d (w next : Word) (h : fOp w = 0x4d) : decodeWord w next = (
      if fB w = 0 then some (.frnd (unOp w (if fX w then next else 0))) else none) := by
  unfold decodeWord
  rw [h]
  rfl
theorem decodeWord_4e (w next : Word) (h : fOp w = 0x4e) : decodeWord w next = (
      if fB w = 0 then some (.f2i (unOp w (if fX w then next else 0))) else none) := by
  unfold decodeWord
  rw [h]
  rfl
theorem decodeWord_4f (w next : Word) (h : fOp w = 0x4f) : decodeWord w next = (
      if fB w = 0 then some (.i2f (unOp w (if fX w then next else 0))) else none) := by
  unfold decodeWord
  rw [h]
  rfl
theorem decodeWord_50 (w next : Word) (h : fOp w = 0x50) : decodeWord w next = (
      some (.bra (brOp w))) := by
  unfold decodeWord
  rw [h]
  rfl
theorem decodeWord_51 (w next : Word) (h : fOp w = 0x51) : decodeWord w next = (
      if fOff w = 0 then some (.brl ⟨fC w, fY w, hi3 (fD w), bit3 (fD w), next⟩) else none) := by
  unfold decodeWord
  rw [h]
  rfl
theorem decodeWord_52 (w next : Word) (h : fOp w = 0x52) : decodeWord w next = (
      some (.call (brOp w))) := by
  unfold decodeWord
  rw [h]
  rfl
theorem decodeWord_53 (w next : Word) (h : fOp w = 0x53) : decodeWord w next = (
      if fD w = 0 && fB w = 0 && !fK w then some (.calli ⟨fC w, fY w, fA w, fX w, (if fX w then next else 0)⟩) else none) := by
  unfold decodeWord
  rw [h]
  rfl
theorem decodeWord_54 (w next : Word) (h : fOp w = 0x54) : decodeWord w next = (
      if fOff w = 0 then some (.ret ⟨fC w, fY w, hi3 (fD w), bit3 (fD w)⟩) else none) := by
  unfold decodeWord
  rw [h]
  rfl
theorem decodeWord_55 (w next : Word) (h : fOp w = 0x55) : decodeWord w next = (
      if fD w = 0 && fB w = 0 && !fK w then some (.jmpi ⟨fC w, fY w, fA w, fX w, (if fX w then next else 0)⟩) else none) := by
  unfold decodeWord
  rw [h]
  rfl
theorem decodeWord_56 (w next : Word) (h : fOp w = 0x56) : decodeWord w next = (
      if w.setWidth 23 = 0 && !fY w then some (.join ⟨fC w⟩) else none) := by
  unfold decodeWord
  rw [h]
  rfl
theorem decodeWord_57 (w next : Word) (h : fOp w = 0x57) : decodeWord w next = (
      if fOff w = 0 then some (.exit ⟨fC w, fY w, hi3 (fD w), bit3 (fD w)⟩) else none) := by
  unfold decodeWord
  rw [h]
  rfl
theorem decodeWord_58 (w next : Word) (h : fOp w = 0x58) : decodeWord w next = (
      if w.setWidth 23 = 0 && !fY w then some (.yield ⟨fC w⟩) else none) := by
  unfold decodeWord
  rw [h]
  rfl
theorem decodeWord_59 (w next : Word) (h : fOp w = 0x59) : decodeWord w next = (
      if w.setWidth 23 = 0 && !fY w then some (.nop ⟨fC w⟩) else none) := by
  unfold decodeWord
  rw [h]
  rfl
theorem decodeWord_5a (w next : Word) (h : fOp w = 0x5a) : decodeWord w next = (
      if fD w = 0 && fA w = 0 && !fX w && !fY w then some (.trap ⟨fC w, fImm w⟩) else none) := by
  unfold decodeWord
  rw [h]
  rfl
theorem decodeWord_5b (w next : Word) (h : fOp w = 0x5b) : decodeWord w next = (
      if w.setWidth 23 = 0 && !fY w then some (.pour ⟨fC w⟩) else none) := by
  unfold decodeWord
  rw [h]
  rfl
theorem decodeWord_5c (w next : Word) (h : fOp w = 0x5c) : decodeWord w next = (
      if fB w = 0 && !fX w && !fY w then
        some (.repq ⟨fC w, hi3 (fD w), mid3 (fD w), low1 (fD w), fA w, fK w⟩) else none) := by
  unfold decodeWord
  rw [h]
  rfl
theorem decodeWord_5d (w next : Word) (h : fOp w = 0x5d) : decodeWord w next = (
      if fB w = 0 && fX w && !fY w && !fK w then some (.reord ⟨fC w, fD w, fA w, (if fX w then next else 0)⟩) else none) := by
  unfold decodeWord
  rw [h]
  rfl
theorem decodeWord_60 (w next : Word) (h : fOp w = 0x60) : decodeWord w next = (
      if fY w then none else some (.ldv (memOp w (if fX w then next else 0)))) := by
  unfold decodeWord
  rw [h]
  rfl
theorem decodeWord_61 (w next : Word) (h : fOp w = 0x61) : decodeWord w next = (
      if fY w || fK w then none else some (.stv (storeOp w (if fX w then next else 0)))) := by
  unfold decodeWord
  rw [h]
  rfl
theorem decodeWord_62 (w next : Word) (h : fOp w = 0x62) : decodeWord w next = (
      if fY w then none else some (.ldk (memOp w (if fX w then next else 0)))) := by
  unfold decodeWord
  rw [h]
  rfl
theorem decodeWord_63 (w next : Word) (h : fOp w = 0x63) : decodeWord w next = (
      if fY w || fK w then none else some (.stk (storeOp w (if fX w then next else 0)))) := by
  unfold decodeWord
  rw [h]
  rfl
theorem decodeWord_64 (w next : Word) (h : fOp w = 0x64) : decodeWord w next = (
      if fY w then none else some (.ldd (memOp w (if fX w then next else 0)))) := by
  unfold decodeWord
  rw [h]
  rfl
theorem decodeWord_65 (w next : Word) (h : fOp w = 0x65) : decodeWord w next = (
      if fY w || fK w then none else some (.std (storeOp w (if fX w then next else 0)))) := by
  unfold decodeWord
  rw [h]
  rfl
theorem decodeWord_66 (w next : Word) (h : fOp w = 0x66) : decodeWord w next = (
      if fY w || fSz w ≠ 0 then none else some (.ldf ⟨fC w, fD w, fA w, fOff5 w, fK w, fX w, (if fX w then next else 0)⟩)) := by
  unfold decodeWord
  rw [h]
  rfl
theorem decodeWord_67 (w next : Word) (h : fOp w = 0x67) : decodeWord w next = (
      if fY w || fSz w ≠ 0 || fK w then none else some (.stf ⟨fC w, fD w, fA w, fOff5 w, fX w, (if fX w then next else 0)⟩)) := by
  unfold decodeWord
  rw [h]
  rfl
theorem decodeWord_68 (w next : Word) (h : fOp w = 0x68) : decodeWord w next = (
      if fY w then none else some (.atv (memOp w (if fX w then next else 0)))) := by
  unfold decodeWord
  rw [h]
  rfl
theorem decodeWord_69 (w next : Word) (h : fOp w = 0x69) : decodeWord w next = (
      if fY w then none else some (.atk (memOp w (if fX w then next else 0)))) := by
  unfold decodeWord
  rw [h]
  rfl
theorem decodeWord_6a (w next : Word) (h : fOp w = 0x6a) : decodeWord w next = (
      if fY w then none else some (.atd (memOp w (if fX w then next else 0)))) := by
  unfold decodeWord
  rw [h]
  rfl
theorem decodeWord_6b (w next : Word) (h : fOp w = 0x6b) : decodeWord w next = (
      if fY w || fD w ≠ 0 || fA w ≠ 0 || fB w ≠ 0 || fK w || !fX w then none else some (.fence ⟨fC w, (if fX w then next else 0)⟩)) := by
  unfold decodeWord
  rw [h]
  rfl
theorem decodeWord_6c (w next : Word) (h : fOp w = 0x6c) : decodeWord w next = (
      if fY w || fSz w ≠ 2 || fK w then none else some (.cpy ⟨fC w, fD w, fA w, fOff5 w, fX w, (if fX w then next else 0)⟩)) := by
  unfold decodeWord
  rw [h]
  rfl
theorem decodeWord_6d (w next : Word) (h : fOp w = 0x6d) : decodeWord w next = (
      if fY w || top3 (fD w) ≠ 0 || fA w ≠ 0 || fB w ≠ 0 || fK w || fX w then none
      else some (.cwait ⟨fC w, low4 (fD w)⟩)) := by
  unfold decodeWord
  rw [h]
  rfl
theorem decodeWord_6e (w next : Word) (h : fOp w = 0x6e) : decodeWord w next = (
      if fY w || fK w then none else some (.spill (storeOp w (if fX w then next else 0)))) := by
  unfold decodeWord
  rw [h]
  rfl
theorem decodeWord_6f (w next : Word) (h : fOp w = 0x6f) : decodeWord w next = (
      if fY w then none else some (.fill (memOp w (if fX w then next else 0)))) := by
  unfold decodeWord
  rw [h]
  rfl
theorem decodeWord_70 (w next : Word) (h : fOp w = 0x70) : decodeWord w next = (
      if fY w || top4 (fB w) ≠ 0 then none
      else some (.xq ⟨fC w, fD w, fA w, bit2 (fB w), low2 (fB w), fK w, fX w, (if fX w then next else 0)⟩)) := by
  unfold decodeWord
  rw [h]
  rfl
theorem decodeWord_71 (w next : Word) (h : fOp w = 0x71) : decodeWord w next = (
      if fY w then none else some (.xg ⟨fC w, fD w, fA w, fB w, fK w, fX w, (if fX w then next else 0)⟩)) := by
  unfold decodeWord
  rw [h]
  rfl
theorem decodeWord_72 (w next : Word) (h : fOp w = 0x72) : decodeWord w next = (
      if fY w || !fX w then none else some (.perm ⟨fC w, fD w, fA w, fB w, fK w, (if fX w then next else 0)⟩)) := by
  unfold decodeWord
  rw [h]
  rfl
theorem decodeWord_73 (w next : Word) (h : fOp w = 0x73) : decodeWord w next = (
      if fY w || fX w || top3 (fA w) ≠ 0 then none
      else some (.vote ⟨fC w, fD w, bit3 (fA w), low3 (fA w), fB w, fK w⟩)) := by
  unfold decodeWord
  rw [h]
  rfl
theorem decodeWord_74 (w next : Word) (h : fOp w = 0x74) : decodeWord w next = (
      if fY w || mid2 (fB w) ≠ 0 then none
      else some (.gred ⟨fC w, fD w, fA w, top1 (fB w), low4 (fB w), fK w, fX w, (if fX w then next else 0)⟩)) := by
  unfold decodeWord
  rw [h]
  rfl
theorem decodeWord_75 (w next : Word) (h : fOp w = 0x75) : decodeWord w next = (
      if fY w || fK w then none
      else if fB w = 0 then some (.barr ⟨fC w, fD w, fA w, fX w, (if fX w then next else 0)⟩)
      else if fB w = 1 then some (.barrDrop ⟨fC w, fD w, fA w, fX w, (if fX w then next else 0)⟩) else none) := by
  unfold decodeWord
  rw [h]
  rfl
theorem decodeWord_76 (w next : Word) (h : fOp w = 0x76) : decodeWord w next = (
      if fY w || fD w ≠ 0 || fK w then none else some (.barw ⟨fC w, fA w, fB w, fX w, (if fX w then next else 0)⟩)) := by
  unfold decodeWord
  rw [h]
  rfl
theorem decodeWord_77 (w next : Word) (h : fOp w = 0x77) : decodeWord w next = (
      if fY w || fD w ≠ 0 || fK w || fX w then none
      else if fA w = 0 && fB w = 0 then some (.xacqV ⟨fC w⟩)
      else if fA w = 1 then some (.xacqS ⟨fC w, fB w⟩) else none) := by
  unfold decodeWord
  rw [h]
  rfl
theorem decodeWord_78 (w next : Word) (h : fOp w = 0x78) : decodeWord w next = (
      if fY w || fD w ≠ 0 || fK w || fX w then none
      else if fA w = 0 && fB w = 0 then some (.xrelV ⟨fC w⟩)
      else if fA w = 1 then some (.xrelS ⟨fC w, fB w⟩) else none) := by
  unfold decodeWord
  rw [h]
  rfl
theorem decodeWord_79 (w next : Word) (h : fOp w = 0x79) : decodeWord w next = (
      if fY w || fX w then none else some (.msign (engOp w))) := by
  unfold decodeWord
  rw [h]
  rfl
theorem decodeWord_7a (w next : Word) (h : fOp w = 0x7a) : decodeWord w next = (
      if fY w || fX w then none else some (.mma (engOp w))) := by
  unfold decodeWord
  rw [h]
  rfl
theorem decodeWord_7b (w next : Word) (h : fOp w = 0x7b) : decodeWord w next = (
      if fY w || fX w || fK w || low3 (fD w) ≠ 0 || fA w ≠ 0 || fB w ≠ 0 then none
      else some (.mwait ⟨fC w, high4 (fD w)⟩)) := by
  unfold decodeWord
  rw [h]
  rfl
theorem decodeWord_7c (w next : Word) (h : fOp w = 0x7c) : decodeWord w next = (
      if fY w || mid2' (fB w) ≠ 0 then none
      else match (top3 (fB w)).toNat with
        | 0 => if fD w = 0 && fA w = 0 && !fK w && !fX w then some (.maccZero ⟨fC w, low2 (fB w)⟩) else none
        | 1 => some (.maccRd ⟨fC w, fD w, fA w, low2 (fB w), fK w, fX w, (if fX w then next else 0)⟩)
        | 2 => if fD w = 0 && !fK w then some (.maccSt ⟨fC w, fA w, low2 (fB w), fX w, (if fX w then next else 0)⟩) else none
        | 3 => if fD w = 0 && !fK w then some (.maccLd ⟨fC w, fA w, low2 (fB w), fX w, (if fX w then next else 0)⟩) else none
        | 4 => if fA w = 0 && !fX w then some (.maccStat ⟨fC w, fD w, low2 (fB w), fK w⟩) else none
        | _ => none) := by
  unfold decodeWord
  rw [h]
  rfl
theorem decodeWord_7d (w next : Word) (h : fOp w = 0x7d) : decodeWord w next = (
      if fY w || fX w || fK w || low3 (fD w) ≠ 0 || high6 (fA w) ≠ 0 || low1 (fB w) then none
      else some (.xform ⟨fC w, high4 (fD w), dscOf (fA w) (fB w)⟩)) := by
  unfold decodeWord
  rw [h]
  rfl
theorem decodeWord_7e (w next : Word) (h : fOp w = 0x7e) : decodeWord w next = (
      if fY w || fK w then none
      else match (fB w).toNat with
        | 0x00 => if fA w = 0 && !fX w then some (.getst ⟨fC w, fD w⟩) else none
        | 0x01 => some (.setst ⟨fC w, fD w, fA w, fX w, (if fX w then next else 0)⟩)
        | 0x02 => some (.fmtld ⟨fC w, fD w, fA w, fX w, (if fX w then next else 0)⟩)
        | 0x03 => some (.fmtst ⟨fC w, fD w, fA w, fX w, (if fX w then next else 0)⟩)
        | 0x04 => some (.patld ⟨fC w, fD w, fA w, fX w, (if fX w then next else 0)⟩)
        | 0x08 => some (.evsig ⟨fC w, fD w, fA w, fX w, (if fX w then next else 0)⟩)
        | 0x09 => some (.evwait ⟨fC w, fD w, fA w, fX w, (if fX w then next else 0)⟩)
        | 0x0a => some (.launch ⟨fC w, fD w, fA w, fX w, (if fX w then next else 0)⟩)
        | 0x10 => some (.snap ⟨fC w, fD w, fA w, fX w, (if fX w then next else 0)⟩)
        | 0x11 => some (.snaprel ⟨fC w, fD w, fA w, fX w, (if fX w then next else 0)⟩)
        | 0x12 => some (.rollback ⟨fC w, fD w, fA w, fX w, (if fX w then next else 0)⟩)
        | 0x20 => some (.perfrd ⟨fC w, fD w, fA w, fX w, (if fX w then next else 0)⟩)
        | 0x21 => some (.errlog ⟨fC w, fD w, fA w, fX w, (if fX w then next else 0)⟩)
        | 0x0b => if fD w = 0 then some (.trig ⟨fC w, fA w, fX w, (if fX w then next else 0)⟩) else none
        | 0x19 => if fD w = 0 then some (.ctxsv ⟨fC w, fA w, fX w, (if fX w then next else 0)⟩) else none
        | 0x1a => if fD w = 0 then some (.ctxld ⟨fC w, fA w, fX w, (if fX w then next else 0)⟩) else none
        | 0x1b => if fD w = 0 then some (.halt ⟨fC w, fA w, fX w, (if fX w then next else 0)⟩) else none
        | 0x18 => if fD w = 0 && fA w = 0 && !fX w then some (.rett ⟨fC w⟩) else none
        | 0x22 => if fD w = 0 && fX w then some (.inject ⟨fC w, fA w, (if fX w then next else 0)⟩) else none
        | _ => none) := by
  unfold decodeWord
  rw [h]
  rfl

/-- An opcode without a row decodes to nothing (R82, R85). -/
theorem decodeWord_none (w next : Word) (h : fOp w = 0x5e ∨ fOp w = 0x5f ∨ fOp w = 0x7f) : decodeWord w next = none := by
  rcases h with h | h | h <;> (unfold decodeWord; rw [h]; rfl)

end Sys2Proof.Machine
end

