-- ==== Sys2Proof/Laws/Memory.lean ====
section
/-!
SUPPORT. Memories: every write keeps the canonical form, a read after a write gives the byte written, and a write leaves every
other address alone.
-/
namespace Sys2Proof.Machine

/-- The first address of a memory, if it lists one, is above a bound. -/
def startsAbove (a : Nat) : Memory → Prop
  | [] => True
  | (k, _) :: _ => a < k

@[simp] theorem memory_wf_nil : Memory.wf [] = true := rfl

theorem memory_wf_cons (k : Nat) (b : Byte) (r : Memory) :
    Memory.wf ((k, b) :: r) = true ↔ b ≠ 0 ∧ startsAbove k r ∧ Memory.wf r = true := by
  cases r with
  | nil => simp [Memory.wf, startsAbove]
  | cons e r => simp [Memory.wf, startsAbove, and_assoc]

theorem startsAbove_mput {m : Memory} {k a : Nat} (b : Byte) (h : startsAbove k m) (l : k < a) (w : Memory.wf m = true) :
    startsAbove k (mput m a b) := by
  cases m with
  | nil => unfold mput; split <;> simp [startsAbove, l]
  | cons e r =>
    obtain ⟨k', c⟩ := e
    have hr := (memory_wf_cons k' c r).1 w
    simp only [startsAbove] at h
    unfold mput
    split
    · split
      · cases r with
        | nil => trivial
        | cons e2 r2 => exact lt_trans h hr.2.1
      · exact l
    · split
      · split
        · exact h
        · exact l
      · exact h

/-- A byte written keeps the canonical form. -/
theorem mput_wf {m : Memory} (h : Memory.wf m = true) (a : Nat) (b : Byte) : Memory.wf (mput m a b) = true := by
  induction m with
  | nil =>
    unfold mput
    split
    · rfl
    · rename_i hb; exact (memory_wf_cons _ _ _).2 ⟨hb, trivial, rfl⟩
  | cons e r ih =>
    obtain ⟨k, c⟩ := e
    obtain ⟨hc, hs, hr⟩ := (memory_wf_cons k c r).1 h
    unfold mput
    split
    · rename_i hk
      subst hk
      split
      · exact hr
      · rename_i hb; exact (memory_wf_cons _ _ _).2 ⟨hb, hs, hr⟩
    · split
      · rename_i hk hl
        split
        · exact h
        · rename_i hb; exact (memory_wf_cons _ _ _).2 ⟨hb, hl, h⟩
      · rename_i hk hl
        exact (memory_wf_cons _ _ _).2 ⟨hc, startsAbove_mput b hs (by omega) hr, ih hr⟩

/-- Bytes written keep the canonical form. -/
theorem mwrite_wf {m : Memory} (h : Memory.wf m = true) (a : Nat) (l : List Byte) : Memory.wf (mwrite m a l) = true := by
  induction l generalizing m a with
  | nil => exact h
  | cons b r ih => exact ih (mput_wf h a b) (a + 1)

theorem mget_startsAbove {m : Memory} {a : Nat} (h : startsAbove a m) : mget m a = 0 := by
  cases m with
  | nil => rfl
  | cons e r =>
    obtain ⟨k, c⟩ := e
    simp only [startsAbove] at h
    have : k ≠ a := by omega
    simp [mget, this, h]

/-- A read of a written address gives the byte written. -/
theorem mget_mput_same {m : Memory} (h : Memory.wf m = true) (a : Nat) (b : Byte) : mget (mput m a b) a = b := by
  induction m with
  | nil =>
    unfold mput
    split
    · rename_i hb; subst hb; rfl
    · simp [mget]
  | cons e r ih =>
    obtain ⟨k, c⟩ := e
    obtain ⟨hc, hs, hr⟩ := (memory_wf_cons k c r).1 h
    unfold mput
    split
    · rename_i hk; subst hk
      split
      · rename_i hb; subst hb; exact mget_startsAbove hs
      · simp [mget]
    · split
      · rename_i hk hl
        split
        · rename_i hb; subst hb; simp [mget, hk, hl]
        · simp [mget]
      · rename_i hk hl
        simp [mget, hk, hl, ih hr]

/-- A write leaves every other address alone. -/
theorem mget_mput_ne {m : Memory} (h : Memory.wf m = true) {a a' : Nat} (b : Byte) (n : a ≠ a') :
    mget (mput m a b) a' = mget m a' := by
  induction m with
  | nil =>
    unfold mput
    split
    · rfl
    · simp [mget, n]
  | cons e r ih =>
    obtain ⟨k, c⟩ := e
    obtain ⟨hc, hs, hr⟩ := (memory_wf_cons k c r).1 h
    unfold mput
    split
    · rename_i hk; subst hk
      split
      · by_cases l : a' < k
        · have hx : startsAbove a' r := by
            cases r with
            | nil => trivial
            | cons e2 r2 => exact lt_trans l hs
          simp [mget, n, l, mget_startsAbove hx]
        · simp [mget, n, l]
      · simp [mget, n]
    · split
      · rename_i hk hl
        split
        · rfl
        · by_cases l : a' < a
          · have h1 : k ≠ a' := by omega
            have h2 : a' < k := by omega
            simp [mget, n, l, h1, h2]
          · simp [mget, n, l]
      · simp [mget, ih hr]

/-- A write of several bytes leaves every address outside them alone. -/
theorem mget_mwrite_other {m : Memory} (h : Memory.wf m = true) (a : Nat) (l : List Byte) (a' : Nat)
    (n : a' < a ∨ a + l.length ≤ a') : mget (mwrite m a l) a' = mget m a' := by
  induction l generalizing m a with
  | nil => rfl
  | cons b r ih =>
    simp only [List.length_cons] at n
    rw [mwrite, ih (mput_wf h a b) (a + 1) (by omega), mget_mput_ne h b (by omega)]

/-- A read inside the bytes written gives the byte written. -/
theorem mget_mwrite_inside {m : Memory} (h : Memory.wf m = true) (a : Nat) (l : List Byte) (k : Nat) (n : k < l.length) :
    mget (mwrite m a l) (a + k) = l[k] := by
  induction l generalizing m a k with
  | nil => simp at n
  | cons b r ih =>
    rw [mwrite]
    cases k with
    | zero =>
      rw [mget_mwrite_other (mput_wf h a b) _ _ _ (by omega)]
      exact mget_mput_same h a b
    | succ k =>
      have := ih (mput_wf h a b) (a + 1) k (by simpa using n)
      rw [show a + (k + 1) = a + 1 + k by omega, this]
      rfl

/-- Memory at reset is in canonical form. -/
theorem reset_log_wf : Memory.wf State.reset.log = true := rfl

end Sys2Proof.Machine
end

