-- ==== Sys2Proof/Laws/PerInstr.lean ====
section
/-!
SUPPORT. Statements made for every instruction, one lemma per constructor. Encodes: the decoder gives back a well-formed
instruction from its words, whatever words follow (R67, R72 to R76, R85, R86).
-/
namespace Sys2Proof.Laws.Encodes
open Sys2Proof.Machine

/-- Decoding the words of a well-formed instruction gives it back, and the words that follow. -/
def Statement (i : Instr) : Prop :=
  isInstruction i = true → i.wf = true → ∀ r : List Word, decodeWords (encode i ++ r) = some (i, r)

theorem add (o : RegOp) : Statement (.add o) := by
  intro _ h r
  obtain ⟨c, y, k, x, d, a, b, ext⟩ := o
  change (legalBin _) = true at h
  simp only [legalBin, Bool.and_eq_true] at h
  change decodeWords (encReg 0x0 _ ++ r) = _
  cases x
  · obtain rfl : ext = 0 := by exact extRole_ext _ _ _ _ _ h.2
    simp [encReg, withExt, decodeWords, wordCount, decodeWord_00, regOp]
  · simp [encReg, withExt, decodeWords, wordCount, decodeWord_00, regOp]
theorem sub (o : RegOp) : Statement (.sub o) := by
  intro _ h r
  obtain ⟨c, y, k, x, d, a, b, ext⟩ := o
  change (legalBin _) = true at h
  simp only [legalBin, Bool.and_eq_true] at h
  change decodeWords (encReg 0x1 _ ++ r) = _
  cases x
  · obtain rfl : ext = 0 := by exact extRole_ext _ _ _ _ _ h.2
    simp [encReg, withExt, decodeWords, wordCount, decodeWord_01, regOp]
  · simp [encReg, withExt, decodeWords, wordCount, decodeWord_01, regOp]
theorem mul (o : RegOp) : Statement (.mul o) := by
  intro _ h r
  obtain ⟨c, y, k, x, d, a, b, ext⟩ := o
  change (legalBin _) = true at h
  simp only [legalBin, Bool.and_eq_true] at h
  change decodeWords (encReg 0x2 _ ++ r) = _
  cases x
  · obtain rfl : ext = 0 := by exact extRole_ext _ _ _ _ _ h.2
    simp [encReg, withExt, decodeWords, wordCount, decodeWord_02, regOp]
  · simp [encReg, withExt, decodeWords, wordCount, decodeWord_02, regOp]
theorem mulhiI (o : RegOp) : Statement (.mulhiI o) := by
  intro _ h r
  obtain ⟨c, y, k, x, d, a, b, ext⟩ := o
  change (legalBin _) = true at h
  simp only [legalBin, Bool.and_eq_true] at h
  change decodeWords (encReg 0x3 _ ++ r) = _
  cases x
  · obtain rfl : ext = 0 := by exact extRole_ext _ _ _ _ _ h.2
    simp [encReg, withExt, decodeWords, wordCount, decodeWord_03, regOp]
  · simp [encReg, withExt, decodeWords, wordCount, decodeWord_03, regOp]
theorem mulhiN (o : RegOp) : Statement (.mulhiN o) := by
  intro _ h r
  obtain ⟨c, y, k, x, d, a, b, ext⟩ := o
  change (legalBin _) = true at h
  simp only [legalBin, Bool.and_eq_true] at h
  change decodeWords (encReg 0x4 _ ++ r) = _
  cases x
  · obtain rfl : ext = 0 := by exact extRole_ext _ _ _ _ _ h.2
    simp [encReg, withExt, decodeWords, wordCount, decodeWord_04, regOp]
  · simp [encReg, withExt, decodeWords, wordCount, decodeWord_04, regOp]
theorem mad (o : RegOp) : Statement (.mad o) := by
  intro _ h r
  obtain ⟨c, y, k, x, d, a, b, ext⟩ := o
  change (legalBin _) = true at h
  simp only [legalBin, Bool.and_eq_true] at h
  change decodeWords (encReg 0x5 _ ++ r) = _
  cases x
  · obtain rfl : ext = 0 := by exact extRole_ext _ _ _ _ _ h.2
    simp [encReg, withExt, decodeWords, wordCount, decodeWord_05, regOp]
  · simp [encReg, withExt, decodeWords, wordCount, decodeWord_05, regOp]
theorem minI (o : RegOp) : Statement (.minI o) := by
  intro _ h r
  obtain ⟨c, y, k, x, d, a, b, ext⟩ := o
  change (legalBin _) = true at h
  simp only [legalBin, Bool.and_eq_true] at h
  change decodeWords (encReg 0x6 _ ++ r) = _
  cases x
  · obtain rfl : ext = 0 := by exact extRole_ext _ _ _ _ _ h.2
    simp [encReg, withExt, decodeWords, wordCount, decodeWord_06, regOp]
  · simp [encReg, withExt, decodeWords, wordCount, decodeWord_06, regOp]
theorem maxI (o : RegOp) : Statement (.maxI o) := by
  intro _ h r
  obtain ⟨c, y, k, x, d, a, b, ext⟩ := o
  change (legalBin _) = true at h
  simp only [legalBin, Bool.and_eq_true] at h
  change decodeWords (encReg 0x7 _ ++ r) = _
  cases x
  · obtain rfl : ext = 0 := by exact extRole_ext _ _ _ _ _ h.2
    simp [encReg, withExt, decodeWords, wordCount, decodeWord_07, regOp]
  · simp [encReg, withExt, decodeWords, wordCount, decodeWord_07, regOp]
theorem minN (o : RegOp) : Statement (.minN o) := by
  intro _ h r
  obtain ⟨c, y, k, x, d, a, b, ext⟩ := o
  change (legalBin _) = true at h
  simp only [legalBin, Bool.and_eq_true] at h
  change decodeWords (encReg 0x8 _ ++ r) = _
  cases x
  · obtain rfl : ext = 0 := by exact extRole_ext _ _ _ _ _ h.2
    simp [encReg, withExt, decodeWords, wordCount, decodeWord_08, regOp]
  · simp [encReg, withExt, decodeWords, wordCount, decodeWord_08, regOp]
theorem maxN (o : RegOp) : Statement (.maxN o) := by
  intro _ h r
  obtain ⟨c, y, k, x, d, a, b, ext⟩ := o
  change (legalBin _) = true at h
  simp only [legalBin, Bool.and_eq_true] at h
  change decodeWords (encReg 0x9 _ ++ r) = _
  cases x
  · obtain rfl : ext = 0 := by exact extRole_ext _ _ _ _ _ h.2
    simp [encReg, withExt, decodeWords, wordCount, decodeWord_09, regOp]
  · simp [encReg, withExt, decodeWords, wordCount, decodeWord_09, regOp]
theorem and (o : RegOp) : Statement (.and o) := by
  intro _ h r
  obtain ⟨c, y, k, x, d, a, b, ext⟩ := o
  change (legalBin _) = true at h
  simp only [legalBin, Bool.and_eq_true] at h
  change decodeWords (encReg 0xa _ ++ r) = _
  cases x
  · obtain rfl : ext = 0 := by exact extRole_ext _ _ _ _ _ h.2
    simp [encReg, withExt, decodeWords, wordCount, decodeWord_0a, regOp]
  · simp [encReg, withExt, decodeWords, wordCount, decodeWord_0a, regOp]
theorem or (o : RegOp) : Statement (.or o) := by
  intro _ h r
  obtain ⟨c, y, k, x, d, a, b, ext⟩ := o
  change (legalBin _) = true at h
  simp only [legalBin, Bool.and_eq_true] at h
  change decodeWords (encReg 0xb _ ++ r) = _
  cases x
  · obtain rfl : ext = 0 := by exact extRole_ext _ _ _ _ _ h.2
    simp [encReg, withExt, decodeWords, wordCount, decodeWord_0b, regOp]
  · simp [encReg, withExt, decodeWords, wordCount, decodeWord_0b, regOp]
theorem xor (o : RegOp) : Statement (.xor o) := by
  intro _ h r
  obtain ⟨c, y, k, x, d, a, b, ext⟩ := o
  change (legalBin _) = true at h
  simp only [legalBin, Bool.and_eq_true] at h
  change decodeWords (encReg 0xc _ ++ r) = _
  cases x
  · obtain rfl : ext = 0 := by exact extRole_ext _ _ _ _ _ h.2
    simp [encReg, withExt, decodeWords, wordCount, decodeWord_0c, regOp]
  · simp [encReg, withExt, decodeWords, wordCount, decodeWord_0c, regOp]
theorem andn (o : RegOp) : Statement (.andn o) := by
  intro _ h r
  obtain ⟨c, y, k, x, d, a, b, ext⟩ := o
  change (legalBin _) = true at h
  simp only [legalBin, Bool.and_eq_true] at h
  change decodeWords (encReg 0xd _ ++ r) = _
  cases x
  · obtain rfl : ext = 0 := by exact extRole_ext _ _ _ _ _ h.2
    simp [encReg, withExt, decodeWords, wordCount, decodeWord_0d, regOp]
  · simp [encReg, withExt, decodeWords, wordCount, decodeWord_0d, regOp]
theorem shl (o : RegOp) : Statement (.shl o) := by
  intro _ h r
  obtain ⟨c, y, k, x, d, a, b, ext⟩ := o
  change (legalBin _) = true at h
  simp only [legalBin, Bool.and_eq_true] at h
  change decodeWords (encReg 0xe _ ++ r) = _
  cases x
  · obtain rfl : ext = 0 := by exact extRole_ext _ _ _ _ _ h.2
    simp [encReg, withExt, decodeWords, wordCount, decodeWord_0e, regOp]
  · simp [encReg, withExt, decodeWords, wordCount, decodeWord_0e, regOp]
theorem shr (o : RegOp) : Statement (.shr o) := by
  intro _ h r
  obtain ⟨c, y, k, x, d, a, b, ext⟩ := o
  change (legalBin _) = true at h
  simp only [legalBin, Bool.and_eq_true] at h
  change decodeWords (encReg 0xf _ ++ r) = _
  cases x
  · obtain rfl : ext = 0 := by exact extRole_ext _ _ _ _ _ h.2
    simp [encReg, withExt, decodeWords, wordCount, decodeWord_0f, regOp]
  · simp [encReg, withExt, decodeWords, wordCount, decodeWord_0f, regOp]
theorem sar (o : RegOp) : Statement (.sar o) := by
  intro _ h r
  obtain ⟨c, y, k, x, d, a, b, ext⟩ := o
  change (legalBin _) = true at h
  simp only [legalBin, Bool.and_eq_true] at h
  change decodeWords (encReg 0x10 _ ++ r) = _
  cases x
  · obtain rfl : ext = 0 := by exact extRole_ext _ _ _ _ _ h.2
    simp [encReg, withExt, decodeWords, wordCount, decodeWord_10, regOp]
  · simp [encReg, withExt, decodeWords, wordCount, decodeWord_10, regOp]
theorem rol (o : RegOp) : Statement (.rol o) := by
  intro _ h r
  obtain ⟨c, y, k, x, d, a, b, ext⟩ := o
  change (legalBin _) = true at h
  simp only [legalBin, Bool.and_eq_true] at h
  change decodeWords (encReg 0x11 _ ++ r) = _
  cases x
  · obtain rfl : ext = 0 := by exact extRole_ext _ _ _ _ _ h.2
    simp [encReg, withExt, decodeWords, wordCount, decodeWord_11, regOp]
  · simp [encReg, withExt, decodeWords, wordCount, decodeWord_11, regOp]
theorem clz (o : UnOp) : Statement (.clz o) := by
  intro _ h r
  obtain ⟨c, y, k, x, d, a, ext⟩ := o
  change (legalUn _) = true at h
  simp only [legalUn, Bool.and_eq_true] at h
  change decodeWords (encUn 0x12 _ ++ r) = _
  cases x
  · obtain rfl : ext = 0 := by exact extRole_ext _ _ _ _ _ h.2
    simp [encUn, withExt, decodeWords, wordCount, decodeWord_12, unOp]
  · simp [encUn, withExt, decodeWords, wordCount, decodeWord_12, unOp]
theorem popc (o : UnOp) : Statement (.popc o) := by
  intro _ h r
  obtain ⟨c, y, k, x, d, a, ext⟩ := o
  change (legalUn _) = true at h
  simp only [legalUn, Bool.and_eq_true] at h
  change decodeWords (encUn 0x13 _ ++ r) = _
  cases x
  · obtain rfl : ext = 0 := by exact extRole_ext _ _ _ _ _ h.2
    simp [encUn, withExt, decodeWords, wordCount, decodeWord_13, unOp]
  · simp [encUn, withExt, decodeWords, wordCount, decodeWord_13, unOp]
theorem brev (o : UnOp) : Statement (.brev o) := by
  intro _ h r
  obtain ⟨c, y, k, x, d, a, ext⟩ := o
  change (legalUn _) = true at h
  simp only [legalUn, Bool.and_eq_true] at h
  change decodeWords (encUn 0x14 _ ++ r) = _
  cases x
  · obtain rfl : ext = 0 := by exact extRole_ext _ _ _ _ _ h.2
    simp [encUn, withExt, decodeWords, wordCount, decodeWord_14, unOp]
  · simp [encUn, withExt, decodeWords, wordCount, decodeWord_14, unOp]
theorem bfx (o : RegOp) : Statement (.bfx o) := by
  intro _ h r
  obtain ⟨c, y, k, x, d, a, b, ext⟩ := o
  change (legalBin _) = true at h
  simp only [legalBin, Bool.and_eq_true] at h
  change decodeWords (encReg 0x15 _ ++ r) = _
  cases x
  · obtain rfl : ext = 0 := by exact extRole_ext _ _ _ _ _ h.2
    simp [encReg, withExt, decodeWords, wordCount, decodeWord_15, regOp]
  · simp [encReg, withExt, decodeWords, wordCount, decodeWord_15, regOp]
theorem bfi (o : RegOp) : Statement (.bfi o) := by
  intro _ h r
  obtain ⟨c, y, k, x, d, a, b, ext⟩ := o
  change (legalBin _) = true at h
  simp only [legalBin, Bool.and_eq_true] at h
  change decodeWords (encReg 0x16 _ ++ r) = _
  cases x
  · obtain rfl : ext = 0 := by exact extRole_ext _ _ _ _ _ h.2
    simp [encReg, withExt, decodeWords, wordCount, decodeWord_16, regOp]
  · simp [encReg, withExt, decodeWords, wordCount, decodeWord_16, regOp]
theorem fsh (o : RegOp) : Statement (.fsh o) := by
  intro _ h r
  obtain ⟨c, y, k, x, d, a, b, ext⟩ := o
  change (legalBin _) = true at h
  simp only [legalBin, Bool.and_eq_true] at h
  change decodeWords (encReg 0x17 _ ++ r) = _
  cases x
  · obtain rfl : ext = 0 := by exact extRole_ext _ _ _ _ _ h.2
    simp [encReg, withExt, decodeWords, wordCount, decodeWord_17, regOp]
  · simp [encReg, withExt, decodeWords, wordCount, decodeWord_17, regOp]
theorem sel (o : ModOp) : Statement (.sel o) := by
  intro _ h r
  obtain ⟨c, y, k, d, a, b, ext⟩ := o
  change decodeWords (encMod 0x18 _ ++ r) = _
  simp [encMod, decodeWords, wordCount, decodeWord_18, modOp]
theorem abs (o : UnOp) : Statement (.abs o) := by
  intro _ h r
  obtain ⟨c, y, k, x, d, a, ext⟩ := o
  change (legalUn _) = true at h
  simp only [legalUn, Bool.and_eq_true] at h
  change decodeWords (encUn 0x19 _ ++ r) = _
  cases x
  · obtain rfl : ext = 0 := by exact extRole_ext _ _ _ _ _ h.2
    simp [encUn, withExt, decodeWords, wordCount, decodeWord_19, unOp]
  · simp [encUn, withExt, decodeWords, wordCount, decodeWord_19, unOp]
theorem neg (o : UnOp) : Statement (.neg o) := by
  intro _ h r
  obtain ⟨c, y, k, x, d, a, ext⟩ := o
  change (legalUn _) = true at h
  simp only [legalUn, Bool.and_eq_true] at h
  change decodeWords (encUn 0x1a _ ++ r) = _
  cases x
  · obtain rfl : ext = 0 := by exact extRole_ext _ _ _ _ _ h.2
    simp [encUn, withExt, decodeWords, wordCount, decodeWord_1a, unOp]
  · simp [encUn, withExt, decodeWords, wordCount, decodeWord_1a, unOp]
theorem divN (o : RegOp) : Statement (.divN o) := by
  intro _ h r
  obtain ⟨c, y, k, x, d, a, b, ext⟩ := o
  change (legalBin _) = true at h
  simp only [legalBin, Bool.and_eq_true] at h
  change decodeWords (encReg 0x1b _ ++ r) = _
  cases x
  · obtain rfl : ext = 0 := by exact extRole_ext _ _ _ _ _ h.2
    simp [encReg, withExt, decodeWords, wordCount, decodeWord_1b, regOp]
  · simp [encReg, withExt, decodeWords, wordCount, decodeWord_1b, regOp]
theorem remN (o : RegOp) : Statement (.remN o) := by
  intro _ h r
  obtain ⟨c, y, k, x, d, a, b, ext⟩ := o
  change (legalBin _) = true at h
  simp only [legalBin, Bool.and_eq_true] at h
  change decodeWords (encReg 0x1c _ ++ r) = _
  cases x
  · obtain rfl : ext = 0 := by exact extRole_ext _ _ _ _ _ h.2
    simp [encReg, withExt, decodeWords, wordCount, decodeWord_1c, regOp]
  · simp [encReg, withExt, decodeWords, wordCount, decodeWord_1c, regOp]
theorem divI (o : RegOp) : Statement (.divI o) := by
  intro _ h r
  obtain ⟨c, y, k, x, d, a, b, ext⟩ := o
  change (legalBin _) = true at h
  simp only [legalBin, Bool.and_eq_true] at h
  change decodeWords (encReg 0x1d _ ++ r) = _
  cases x
  · obtain rfl : ext = 0 := by exact extRole_ext _ _ _ _ _ h.2
    simp [encReg, withExt, decodeWords, wordCount, decodeWord_1d, regOp]
  · simp [encReg, withExt, decodeWords, wordCount, decodeWord_1d, regOp]
theorem remI (o : RegOp) : Statement (.remI o) := by
  intro _ h r
  obtain ⟨c, y, k, x, d, a, b, ext⟩ := o
  change (legalBin _) = true at h
  simp only [legalBin, Bool.and_eq_true] at h
  change decodeWords (encReg 0x1e _ ++ r) = _
  cases x
  · obtain rfl : ext = 0 := by exact extRole_ext _ _ _ _ _ h.2
    simp [encReg, withExt, decodeWords, wordCount, decodeWord_1e, regOp]
  · simp [encReg, withExt, decodeWords, wordCount, decodeWord_1e, regOp]
theorem mov (o : UnOp) : Statement (.mov o) := by
  intro _ h r
  obtain ⟨c, y, k, x, d, a, ext⟩ := o
  change (legalUn _) = true at h
  simp only [legalUn, Bool.and_eq_true] at h
  change decodeWords (encUn 0x1f _ ++ r) = _
  cases x
  · obtain rfl : ext = 0 := by exact extRole_ext _ _ _ _ _ h.2
    simp [encUn, withExt, decodeWords, wordCount, decodeWord_1f, unOp]
  · simp [encUn, withExt, decodeWords, wordCount, decodeWord_1f, unOp]
theorem addi (o : ImmOp) : Statement (.addi o) := by
  intro _ h r
  obtain ⟨c, y, k, d, a, imm⟩ := o
  change decodeWords (encImm 0x20 _ ++ r) = _
  simp [encImm, decodeWords, wordCount, decodeWord_20, immOp]
theorem andi (o : ImmOp) : Statement (.andi o) := by
  intro _ h r
  obtain ⟨c, y, k, d, a, imm⟩ := o
  change decodeWords (encImm 0x21 _ ++ r) = _
  simp [encImm, decodeWords, wordCount, decodeWord_21, immOp]
theorem ori (o : ImmOp) : Statement (.ori o) := by
  intro _ h r
  obtain ⟨c, y, k, d, a, imm⟩ := o
  change decodeWords (encImm 0x22 _ ++ r) = _
  simp [encImm, decodeWords, wordCount, decodeWord_22, immOp]
theorem xori (o : ImmOp) : Statement (.xori o) := by
  intro _ h r
  obtain ⟨c, y, k, d, a, imm⟩ := o
  change decodeWords (encImm 0x23 _ ++ r) = _
  simp [encImm, decodeWords, wordCount, decodeWord_23, immOp]
theorem shli (o : ImmOp) : Statement (.shli o) := by
  intro _ h r
  obtain ⟨c, y, k, d, a, imm⟩ := o
  change decodeWords (encImm 0x24 _ ++ r) = _
  simp [encImm, decodeWords, wordCount, decodeWord_24, immOp]
theorem shri (o : ImmOp) : Statement (.shri o) := by
  intro _ h r
  obtain ⟨c, y, k, d, a, imm⟩ := o
  change decodeWords (encImm 0x25 _ ++ r) = _
  simp [encImm, decodeWords, wordCount, decodeWord_25, immOp]
theorem sari (o : ImmOp) : Statement (.sari o) := by
  intro _ h r
  obtain ⟨c, y, k, d, a, imm⟩ := o
  change decodeWords (encImm 0x26 _ ++ r) = _
  simp [encImm, decodeWords, wordCount, decodeWord_26, immOp]
theorem movi (o : MoviOp) : Statement (.movi o) := by
  intro _ h r
  obtain ⟨c, y, k, d, imm⟩ := o
  change decodeWords ([packImm c y 0x27 d 0 imm k] ++ r) = _
  simp [decodeWords, wordCount, decodeWord_27]
theorem icmp (o : CmpOp) : Statement (.icmp o) := by
  intro _ h r
  obtain ⟨c, y, cond, cd, w, a, b, ac, x, ext⟩ := o
  change (legalCmp _) = true at h
  simp only [legalCmp, Bool.and_eq_true] at h
  change decodeWords (withExt (pack c y 0x28 (join3 cond cd w) a b ac x) x ext ++ r) = _
  cases x
  · obtain rfl : ext = 0 := by exact extRole_ext _ _ _ _ _ h.2
    simp [withExt, decodeWords, wordCount, decodeWord_28]
  · simp [withExt, decodeWords, wordCount, decodeWord_28]
theorem fcmp (o : FcmpOp) : Statement (.fcmp o) := by
  intro _ h r
  obtain ⟨c, y, cond, cd, a, b, ac, x, ext⟩ := o
  change (legalFcmp _) = true at h
  simp only [legalFcmp, Bool.and_eq_true] at h
  change decodeWords (withExt (pack c y 0x29 (join3 cond cd false) a b ac x) x ext ++ r) = _
  cases x
  · obtain rfl : ext = 0 := by exact extRole_ext _ _ _ _ _ h.2
    simp [withExt, decodeWords, wordCount, decodeWord_29]
  · simp [withExt, decodeWords, wordCount, decodeWord_29]
theorem cop (o : CopOp) : Statement (.cop o) := by
  intro _ h r
  obtain ⟨c, y, cond, cd, na, ca, nb, cb, ac⟩ := o
  change decodeWords ([pack c y 0x2A (join3 cond cd false) (nib na ca) (nib nb cb) ac false] ++ r) = _
  simp [decodeWords, wordCount, decodeWord_2a]
theorem cset (o : CsetOp) : Statement (.cset o) := by
  intro _ h r
  obtain ⟨c, y, cd, a, b, x, ext⟩ := o
  change (legalCset _) = true at h
  simp only [legalCset, Bool.and_eq_true] at h
  change decodeWords (withExt (pack c y 0x2B (0#4 ++ cd) a b false x) x ext ++ r) = _
  cases x
  · obtain rfl : ext = 0 := by exact extRole_ext _ _ _ _ _ h.2
    simp [withExt, decodeWords, wordCount, decodeWord_2b]
  · simp [withExt, decodeWords, wordCount, decodeWord_2b]
theorem add64 (o : RegOp) : Statement (.add64 o) := by
  intro _ h r
  obtain ⟨c, y, k, x, d, a, b, ext⟩ := o
  change (legalWide _) = true at h
  simp only [legalWide, Bool.and_eq_true] at h
  change decodeWords (encReg 0x2c _ ++ r) = _
  cases x
  · obtain rfl : ext = 0 := by exact extRole_ext _ _ _ _ _ h.2
    simp [encReg, withExt, decodeWords, wordCount, decodeWord_2c, regOp]
  · simp [encReg, withExt, decodeWords, wordCount, decodeWord_2c, regOp]
theorem sub64 (o : RegOp) : Statement (.sub64 o) := by
  intro _ h r
  obtain ⟨c, y, k, x, d, a, b, ext⟩ := o
  change (legalWide _) = true at h
  simp only [legalWide, Bool.and_eq_true] at h
  change decodeWords (encReg 0x2d _ ++ r) = _
  cases x
  · obtain rfl : ext = 0 := by exact extRole_ext _ _ _ _ _ h.2
    simp [encReg, withExt, decodeWords, wordCount, decodeWord_2d, regOp]
  · simp [encReg, withExt, decodeWords, wordCount, decodeWord_2d, regOp]
theorem lea (o : RegOp) : Statement (.lea o) := by
  intro _ h r
  obtain ⟨c, y, k, x, d, a, b, ext⟩ := o
  change (legalLea _) = true at h
  simp only [legalLea, Bool.and_eq_true] at h
  change decodeWords (encReg 0x2e _ ++ r) = _
  cases x
  · obtain rfl : ext = 0 := by exact extRole_ext _ _ _ _ _ h.2
    simp [encReg, withExt, decodeWords, wordCount, decodeWord_2e, regOp]
  · simp [encReg, withExt, decodeWords, wordCount, decodeWord_2e, regOp]
theorem cvt64 (o : RegOp) : Statement (.cvt64 o) := by
  intro _ h r
  obtain ⟨c, y, k, x, d, a, b, ext⟩ := o
  change (legalCvt64 _) = true at h
  simp only [legalCvt64, Bool.and_eq_true] at h
  change decodeWords (encReg 0x2f _ ++ r) = _
  cases x
  · obtain rfl : ext = 0 := by exact extRole_ext _ _ _ _ _ h.2
    simp [encReg, withExt, decodeWords, wordCount, decodeWord_2f, regOp]
  · simp [encReg, withExt, decodeWords, wordCount, decodeWord_2f, regOp]
theorem fadd (o : RegOp) : Statement (.fadd o) := by
  intro _ h r
  obtain ⟨c, y, k, x, d, a, b, ext⟩ := o
  change (legalBin _) = true at h
  simp only [legalBin, Bool.and_eq_true] at h
  change decodeWords (encReg 0x30 _ ++ r) = _
  cases x
  · obtain rfl : ext = 0 := by exact extRole_ext _ _ _ _ _ h.2
    simp [encReg, withExt, decodeWords, wordCount, decodeWord_30, regOp]
  · simp [encReg, withExt, decodeWords, wordCount, decodeWord_30, regOp]
theorem fsub (o : RegOp) : Statement (.fsub o) := by
  intro _ h r
  obtain ⟨c, y, k, x, d, a, b, ext⟩ := o
  change (legalBin _) = true at h
  simp only [legalBin, Bool.and_eq_true] at h
  change decodeWords (encReg 0x31 _ ++ r) = _
  cases x
  · obtain rfl : ext = 0 := by exact extRole_ext _ _ _ _ _ h.2
    simp [encReg, withExt, decodeWords, wordCount, decodeWord_31, regOp]
  · simp [encReg, withExt, decodeWords, wordCount, decodeWord_31, regOp]
theorem fmul (o : RegOp) : Statement (.fmul o) := by
  intro _ h r
  obtain ⟨c, y, k, x, d, a, b, ext⟩ := o
  change (legalBin _) = true at h
  simp only [legalBin, Bool.and_eq_true] at h
  change decodeWords (encReg 0x32 _ ++ r) = _
  cases x
  · obtain rfl : ext = 0 := by exact extRole_ext _ _ _ _ _ h.2
    simp [encReg, withExt, decodeWords, wordCount, decodeWord_32, regOp]
  · simp [encReg, withExt, decodeWords, wordCount, decodeWord_32, regOp]
theorem ffma (o : RegOp) : Statement (.ffma o) := by
  intro _ h r
  obtain ⟨c, y, k, x, d, a, b, ext⟩ := o
  change (legalBin _) = true at h
  simp only [legalBin, Bool.and_eq_true] at h
  change decodeWords (encReg 0x33 _ ++ r) = _
  cases x
  · obtain rfl : ext = 0 := by exact extRole_ext _ _ _ _ _ h.2
    simp [encReg, withExt, decodeWords, wordCount, decodeWord_33, regOp]
  · simp [encReg, withExt, decodeWords, wordCount, decodeWord_33, regOp]
theorem fmin (o : RegOp) : Statement (.fmin o) := by
  intro _ h r
  obtain ⟨c, y, k, x, d, a, b, ext⟩ := o
  change (legalBin _) = true at h
  simp only [legalBin, Bool.and_eq_true] at h
  change decodeWords (encReg 0x34 _ ++ r) = _
  cases x
  · obtain rfl : ext = 0 := by exact extRole_ext _ _ _ _ _ h.2
    simp [encReg, withExt, decodeWords, wordCount, decodeWord_34, regOp]
  · simp [encReg, withExt, decodeWords, wordCount, decodeWord_34, regOp]
theorem fmax (o : RegOp) : Statement (.fmax o) := by
  intro _ h r
  obtain ⟨c, y, k, x, d, a, b, ext⟩ := o
  change (legalBin _) = true at h
  simp only [legalBin, Bool.and_eq_true] at h
  change decodeWords (encReg 0x35 _ ++ r) = _
  cases x
  · obtain rfl : ext = 0 := by exact extRole_ext _ _ _ _ _ h.2
    simp [encReg, withExt, decodeWords, wordCount, decodeWord_35, regOp]
  · simp [encReg, withExt, decodeWords, wordCount, decodeWord_35, regOp]
theorem fabs (o : UnOp) : Statement (.fabs o) := by
  intro _ h r
  obtain ⟨c, y, k, x, d, a, ext⟩ := o
  change (legalUn _) = true at h
  simp only [legalUn, Bool.and_eq_true] at h
  change decodeWords (encUn 0x36 _ ++ r) = _
  cases x
  · obtain rfl : ext = 0 := by exact extRole_ext _ _ _ _ _ h.2
    simp [encUn, withExt, decodeWords, wordCount, decodeWord_36, unOp]
  · simp [encUn, withExt, decodeWords, wordCount, decodeWord_36, unOp]
theorem fneg (o : UnOp) : Statement (.fneg o) := by
  intro _ h r
  obtain ⟨c, y, k, x, d, a, ext⟩ := o
  change (legalUn _) = true at h
  simp only [legalUn, Bool.and_eq_true] at h
  change decodeWords (encUn 0x37 _ ++ r) = _
  cases x
  · obtain rfl : ext = 0 := by exact extRole_ext _ _ _ _ _ h.2
    simp [encUn, withExt, decodeWords, wordCount, decodeWord_37, unOp]
  · simp [encUn, withExt, decodeWords, wordCount, decodeWord_37, unOp]
theorem fclass (o : UnOp) : Statement (.fclass o) := by
  intro _ h r
  obtain ⟨c, y, k, x, d, a, ext⟩ := o
  change (legalUn _) = true at h
  simp only [legalUn, Bool.and_eq_true] at h
  change decodeWords (encUn 0x38 _ ++ r) = _
  cases x
  · obtain rfl : ext = 0 := by exact extRole_ext _ _ _ _ _ h.2
    simp [encUn, withExt, decodeWords, wordCount, decodeWord_38, unOp]
  · simp [encUn, withExt, decodeWords, wordCount, decodeWord_38, unOp]
theorem fscale (o : RegOp) : Statement (.fscale o) := by
  intro _ h r
  obtain ⟨c, y, k, x, d, a, b, ext⟩ := o
  change (legalBin _) = true at h
  simp only [legalBin, Bool.and_eq_true] at h
  change decodeWords (encReg 0x39 _ ++ r) = _
  cases x
  · obtain rfl : ext = 0 := by exact extRole_ext _ _ _ _ _ h.2
    simp [encReg, withExt, decodeWords, wordCount, decodeWord_39, regOp]
  · simp [encReg, withExt, decodeWords, wordCount, decodeWord_39, regOp]
theorem frcp (o : UnOp) : Statement (.frcp o) := by
  intro _ h r
  obtain ⟨c, y, k, x, d, a, ext⟩ := o
  change (legalUn _) = true at h
  simp only [legalUn, Bool.and_eq_true] at h
  change decodeWords (encUn 0x3a _ ++ r) = _
  cases x
  · obtain rfl : ext = 0 := by exact extRole_ext _ _ _ _ _ h.2
    simp [encUn, withExt, decodeWords, wordCount, decodeWord_3a, unOp]
  · simp [encUn, withExt, decodeWords, wordCount, decodeWord_3a, unOp]
theorem frsq (o : UnOp) : Statement (.frsq o) := by
  intro _ h r
  obtain ⟨c, y, k, x, d, a, ext⟩ := o
  change (legalUn _) = true at h
  simp only [legalUn, Bool.and_eq_true] at h
  change decodeWords (encUn 0x3b _ ++ r) = _
  cases x
  · obtain rfl : ext = 0 := by exact extRole_ext _ _ _ _ _ h.2
    simp [encUn, withExt, decodeWords, wordCount, decodeWord_3b, unOp]
  · simp [encUn, withExt, decodeWords, wordCount, decodeWord_3b, unOp]
theorem fsqrt (o : UnOp) : Statement (.fsqrt o) := by
  intro _ h r
  obtain ⟨c, y, k, x, d, a, ext⟩ := o
  change (legalUn _) = true at h
  simp only [legalUn, Bool.and_eq_true] at h
  change decodeWords (encUn 0x3c _ ++ r) = _
  cases x
  · obtain rfl : ext = 0 := by exact extRole_ext _ _ _ _ _ h.2
    simp [encUn, withExt, decodeWords, wordCount, decodeWord_3c, unOp]
  · simp [encUn, withExt, decodeWords, wordCount, decodeWord_3c, unOp]
theorem fex2 (o : UnOp) : Statement (.fex2 o) := by
  intro _ h r
  obtain ⟨c, y, k, x, d, a, ext⟩ := o
  change (legalUn _) = true at h
  simp only [legalUn, Bool.and_eq_true] at h
  change decodeWords (encUn 0x3d _ ++ r) = _
  cases x
  · obtain rfl : ext = 0 := by exact extRole_ext _ _ _ _ _ h.2
    simp [encUn, withExt, decodeWords, wordCount, decodeWord_3d, unOp]
  · simp [encUn, withExt, decodeWords, wordCount, decodeWord_3d, unOp]
theorem flg2 (o : UnOp) : Statement (.flg2 o) := by
  intro _ h r
  obtain ⟨c, y, k, x, d, a, ext⟩ := o
  change (legalUn _) = true at h
  simp only [legalUn, Bool.and_eq_true] at h
  change decodeWords (encUn 0x3e _ ++ r) = _
  cases x
  · obtain rfl : ext = 0 := by exact extRole_ext _ _ _ _ _ h.2
    simp [encUn, withExt, decodeWords, wordCount, decodeWord_3e, unOp]
  · simp [encUn, withExt, decodeWords, wordCount, decodeWord_3e, unOp]
theorem fsin (o : UnOp) : Statement (.fsin o) := by
  intro _ h r
  obtain ⟨c, y, k, x, d, a, ext⟩ := o
  change (legalUn _) = true at h
  simp only [legalUn, Bool.and_eq_true] at h
  change decodeWords (encUn 0x3f _ ++ r) = _
  cases x
  · obtain rfl : ext = 0 := by exact extRole_ext _ _ _ _ _ h.2
    simp [encUn, withExt, decodeWords, wordCount, decodeWord_3f, unOp]
  · simp [encUn, withExt, decodeWords, wordCount, decodeWord_3f, unOp]
theorem fcos (o : UnOp) : Statement (.fcos o) := by
  intro _ h r
  obtain ⟨c, y, k, x, d, a, ext⟩ := o
  change (legalUn _) = true at h
  simp only [legalUn, Bool.and_eq_true] at h
  change decodeWords (encUn 0x40 _ ++ r) = _
  cases x
  · obtain rfl : ext = 0 := by exact extRole_ext _ _ _ _ _ h.2
    simp [encUn, withExt, decodeWords, wordCount, decodeWord_40, unOp]
  · simp [encUn, withExt, decodeWords, wordCount, decodeWord_40, unOp]
theorem ftanh (o : UnOp) : Statement (.ftanh o) := by
  intro _ h r
  obtain ⟨c, y, k, x, d, a, ext⟩ := o
  change (legalUn _) = true at h
  simp only [legalUn, Bool.and_eq_true] at h
  change decodeWords (encUn 0x41 _ ++ r) = _
  cases x
  · obtain rfl : ext = 0 := by exact extRole_ext _ _ _ _ _ h.2
    simp [encUn, withExt, decodeWords, wordCount, decodeWord_41, unOp]
  · simp [encUn, withExt, decodeWords, wordCount, decodeWord_41, unOp]
theorem hadd2 (o : RegOp) : Statement (.hadd2 o) := by
  intro _ h r
  obtain ⟨c, y, k, x, d, a, b, ext⟩ := o
  change (legalBinMod _ (fun m => m.toNat < 2)) = true at h
  simp only [legalBinMod, Bool.and_eq_true] at h
  change decodeWords (encReg 0x42 _ ++ r) = _
  cases x
  · obtain rfl : ext = 0 := by exact extRole_ext _ _ _ _ _ h.2
    simp [encReg, withExt, decodeWords, wordCount, decodeWord_42, regOp]
  · simp [encReg, withExt, decodeWords, wordCount, decodeWord_42, regOp]
theorem hmul2 (o : RegOp) : Statement (.hmul2 o) := by
  intro _ h r
  obtain ⟨c, y, k, x, d, a, b, ext⟩ := o
  change (legalBinMod _ (fun m => m.toNat < 2)) = true at h
  simp only [legalBinMod, Bool.and_eq_true] at h
  change decodeWords (encReg 0x43 _ ++ r) = _
  cases x
  · obtain rfl : ext = 0 := by exact extRole_ext _ _ _ _ _ h.2
    simp [encReg, withExt, decodeWords, wordCount, decodeWord_43, regOp]
  · simp [encReg, withExt, decodeWords, wordCount, decodeWord_43, regOp]
theorem hfma2 (o : RegOp) : Statement (.hfma2 o) := by
  intro _ h r
  obtain ⟨c, y, k, x, d, a, b, ext⟩ := o
  change (legalBinMod _ (fun m => m.toNat < 2)) = true at h
  simp only [legalBinMod, Bool.and_eq_true] at h
  change decodeWords (encReg 0x44 _ ++ r) = _
  cases x
  · obtain rfl : ext = 0 := by exact extRole_ext _ _ _ _ _ h.2
    simp [encReg, withExt, decodeWords, wordCount, decodeWord_44, regOp]
  · simp [encReg, withExt, decodeWords, wordCount, decodeWord_44, regOp]
theorem hmin2 (o : RegOp) : Statement (.hmin2 o) := by
  intro _ h r
  obtain ⟨c, y, k, x, d, a, b, ext⟩ := o
  change (legalBinMod _ (fun m => m.toNat < 2)) = true at h
  simp only [legalBinMod, Bool.and_eq_true] at h
  change decodeWords (encReg 0x45 _ ++ r) = _
  cases x
  · obtain rfl : ext = 0 := by exact extRole_ext _ _ _ _ _ h.2
    simp [encReg, withExt, decodeWords, wordCount, decodeWord_45, regOp]
  · simp [encReg, withExt, decodeWords, wordCount, decodeWord_45, regOp]
theorem hmax2 (o : RegOp) : Statement (.hmax2 o) := by
  intro _ h r
  obtain ⟨c, y, k, x, d, a, b, ext⟩ := o
  change (legalBinMod _ (fun m => m.toNat < 2)) = true at h
  simp only [legalBinMod, Bool.and_eq_true] at h
  change decodeWords (encReg 0x46 _ ++ r) = _
  cases x
  · obtain rfl : ext = 0 := by exact extRole_ext _ _ _ _ _ h.2
    simp [encReg, withExt, decodeWords, wordCount, decodeWord_46, regOp]
  · simp [encReg, withExt, decodeWords, wordCount, decodeWord_46, regOp]
theorem hdot2 (o : RegOp) : Statement (.hdot2 o) := by
  intro _ h r
  obtain ⟨c, y, k, x, d, a, b, ext⟩ := o
  change (legalBinMod _ (fun m => m.toNat < 2)) = true at h
  simp only [legalBinMod, Bool.and_eq_true] at h
  change decodeWords (encReg 0x47 _ ++ r) = _
  cases x
  · obtain rfl : ext = 0 := by exact extRole_ext _ _ _ _ _ h.2
    simp [encReg, withExt, decodeWords, wordCount, decodeWord_47, regOp]
  · simp [encReg, withExt, decodeWords, wordCount, decodeWord_47, regOp]
theorem cmul (o : RegOp) : Statement (.cmul o) := by
  intro _ h r
  obtain ⟨c, y, k, x, d, a, b, ext⟩ := o
  change (legalBinMod _ (fun m => m.toNat < 8)) = true at h
  simp only [legalBinMod, Bool.and_eq_true] at h
  change decodeWords (encReg 0x48 _ ++ r) = _
  cases x
  · obtain rfl : ext = 0 := by exact extRole_ext _ _ _ _ _ h.2
    simp [encReg, withExt, decodeWords, wordCount, decodeWord_48, regOp]
  · simp [encReg, withExt, decodeWords, wordCount, decodeWord_48, regOp]
theorem cfma (o : RegOp) : Statement (.cfma o) := by
  intro _ h r
  obtain ⟨c, y, k, x, d, a, b, ext⟩ := o
  change (legalBinMod _ (fun m => m.toNat < 8)) = true at h
  simp only [legalBinMod, Bool.and_eq_true] at h
  change decodeWords (encReg 0x49 _ ++ r) = _
  cases x
  · obtain rfl : ext = 0 := by exact extRole_ext _ _ _ _ _ h.2
    simp [encReg, withExt, decodeWords, wordCount, decodeWord_49, regOp]
  · simp [encReg, withExt, decodeWords, wordCount, decodeWord_49, regOp]
theorem cvt (o : ModUnOp) : Statement (.cvt o) := by
  intro _ h r
  obtain ⟨c, y, k, d, a, ext⟩ := o
  change decodeWords ([pack c y 0x4A d a 0 k true, ext] ++ r) = _
  simp [decodeWords, wordCount, decodeWord_4a]
theorem pkn (o : ModOp) : Statement (.pkn o) := by
  intro _ h r
  obtain ⟨c, y, k, d, a, b, ext⟩ := o
  change decodeWords (encMod 0x4b _ ++ r) = _
  simp [encMod, decodeWords, wordCount, decodeWord_4b, modOp]
theorem unpk (o : ModOp) : Statement (.unpk o) := by
  intro _ h r
  obtain ⟨c, y, k, d, a, b, ext⟩ := o
  change decodeWords (encMod 0x4c _ ++ r) = _
  simp [encMod, decodeWords, wordCount, decodeWord_4c, modOp]
theorem frnd (o : UnOp) : Statement (.frnd o) := by
  intro _ h r
  obtain ⟨c, y, k, x, d, a, ext⟩ := o
  change (legalUnMod _ (fun m => m.toNat % 4 = 0 && m.toNat < 16)) = true at h
  simp only [legalUnMod, Bool.and_eq_true] at h
  change decodeWords (encUn 0x4d _ ++ r) = _
  cases x
  · obtain rfl : ext = 0 := by exact extRole_ext _ _ _ _ _ h.2
    simp [encUn, withExt, decodeWords, wordCount, decodeWord_4d, unOp]
  · simp [encUn, withExt, decodeWords, wordCount, decodeWord_4d, unOp]
theorem f2i (o : UnOp) : Statement (.f2i o) := by
  intro _ h r
  obtain ⟨c, y, k, x, d, a, ext⟩ := o
  change (legalF2i _) = true at h
  simp only [legalF2i, legalUnMod, Bool.and_eq_true] at h
  change decodeWords (encUn 0x4e _ ++ r) = _
  cases x
  · obtain rfl : ext = 0 := by exact extRole_ext _ _ _ _ _ h.1.2
    simp [encUn, withExt, decodeWords, wordCount, decodeWord_4e, unOp]
  · simp [encUn, withExt, decodeWords, wordCount, decodeWord_4e, unOp]
theorem i2f (o : UnOp) : Statement (.i2f o) := by
  intro _ h r
  obtain ⟨c, y, k, x, d, a, ext⟩ := o
  change (legalI2f _) = true at h
  simp only [legalI2f, legalUnMod, Bool.and_eq_true] at h
  change decodeWords (encUn 0x4f _ ++ r) = _
  cases x
  · obtain rfl : ext = 0 := by exact extRole_ext _ _ _ _ _ h.1.2
    simp [encUn, withExt, decodeWords, wordCount, decodeWord_4f, unOp]
  · simp [encUn, withExt, decodeWords, wordCount, decodeWord_4f, unOp]
theorem bra (o : BrOp) : Statement (.bra o) := by
  intro _ h r
  obtain ⟨c, y, cs, neg, off⟩ := o
  change decodeWords ([packBr c y 0x50 cs neg off] ++ r) = _
  simp [decodeWords, wordCount, decodeWord_50, brOp]
theorem brl (o : BrlOp) : Statement (.brl o) := by
  intro _ h r
  obtain ⟨c, y, cs, neg, off⟩ := o
  change decodeWords ([packBr c y 0x51 cs neg 0, off] ++ r) = _
  simp [decodeWords, wordCount, decodeWord_51]
theorem call (o : BrOp) : Statement (.call o) := by
  intro _ h r
  obtain ⟨c, y, cs, neg, off⟩ := o
  change decodeWords ([packBr c y 0x52 cs neg off] ++ r) = _
  simp [decodeWords, wordCount, decodeWord_52, brOp]
theorem calli (o : JumpOp) : Statement (.calli o) := by
  intro _ h r
  obtain ⟨c, y, a, x, ext⟩ := o
  change (legalJump _) = true at h
  simp only [legalJump, Bool.and_eq_true] at h
  change decodeWords (withExt (pack c y 0x53 0 a 0 false x) x ext ++ r) = _
  cases x
  · obtain rfl : ext = 0 := by exact extRole_ext _ _ _ _ _ h.2
    simp [withExt, decodeWords, wordCount, decodeWord_53]
  · simp [withExt, decodeWords, wordCount, decodeWord_53]
theorem ret (o : CondOp) : Statement (.ret o) := by
  intro _ h r
  obtain ⟨c, y, cs, neg⟩ := o
  change decodeWords ([packBr c y 0x54 cs neg 0] ++ r) = _
  simp [decodeWords, wordCount, decodeWord_54]
theorem jmpi (o : JumpOp) : Statement (.jmpi o) := by
  intro _ h r
  obtain ⟨c, y, a, x, ext⟩ := o
  change (legalJump _) = true at h
  simp only [legalJump, Bool.and_eq_true] at h
  change decodeWords (withExt (pack c y 0x55 0 a 0 false x) x ext ++ r) = _
  cases x
  · obtain rfl : ext = 0 := by exact extRole_ext _ _ _ _ _ h.2
    simp [withExt, decodeWords, wordCount, decodeWord_55]
  · simp [withExt, decodeWords, wordCount, decodeWord_55]
theorem join (o : NullOp) : Statement (.join o) := by
  intro _ h r
  obtain ⟨c⟩ := o
  change decodeWords ([pack c false 0x56 0 0 0 false false] ++ r) = _
  simp [decodeWords, wordCount, decodeWord_56]
theorem exit (o : CondOp) : Statement (.exit o) := by
  intro _ h r
  obtain ⟨c, y, cs, neg⟩ := o
  change decodeWords ([packBr c y 0x57 cs neg 0] ++ r) = _
  simp [decodeWords, wordCount, decodeWord_57]
theorem yield (o : NullOp) : Statement (.yield o) := by
  intro _ h r
  obtain ⟨c⟩ := o
  change decodeWords ([pack c false 0x58 0 0 0 false false] ++ r) = _
  simp [decodeWords, wordCount, decodeWord_58]
theorem nop (o : NullOp) : Statement (.nop o) := by
  intro _ h r
  obtain ⟨c⟩ := o
  change decodeWords ([pack c false 0x59 0 0 0 false false] ++ r) = _
  simp [decodeWords, wordCount, decodeWord_59]
theorem trap (o : TrapOp) : Statement (.trap o) := by
  intro _ h r
  obtain ⟨c, imm⟩ := o
  change decodeWords ([packImm c false 0x5A 0 0 imm false] ++ r) = _
  simp [decodeWords, wordCount, decodeWord_5a]
theorem pour (o : NullOp) : Statement (.pour o) := by
  intro _ h r
  obtain ⟨c⟩ := o
  change decodeWords ([pack c false 0x5b 0 0 0 false false] ++ r) = _
  simp [decodeWords, wordCount, decodeWord_5b]
theorem repq (o : RepqOp) : Statement (.repq o) := by
  intro _ h r
  obtain ⟨c, kind, cd, w, a, ac⟩ := o
  change decodeWords ([pack c false 0x5C (join3 kind cd w) a 0 ac false] ++ r) = _
  simp [decodeWords, wordCount, decodeWord_5c]
theorem reord (o : ReordOp) : Statement (.reord o) := by
  intro _ h r
  obtain ⟨c, d, a, ext⟩ := o
  change decodeWords ([pack c false 0x5D d a 0 false true, ext] ++ r) = _
  simp [decodeWords, wordCount, decodeWord_5d]
theorem ldv (o : MemOp) : Statement (.ldv o) := by
  intro _ h r
  obtain ⟨c, d, a, off, sz, k, x, ext⟩ := o
  change (legalLog d a sz x ext (loadDst k d sz) 1) = true at h
  simp only [legalLog, Bool.and_eq_true] at h
  change decodeWords (encMem 0x60 _ ++ r) = _
  cases x
  · obtain rfl : ext = 0 := by exact extRole_ext _ _ _ _ _ h.1.2
    simp [encMem, withExt, decodeWords, wordCount, decodeWord_60, memOp]
  · simp [encMem, withExt, decodeWords, wordCount, decodeWord_60, memOp]
theorem stv (o : StoreOp) : Statement (.stv o) := by
  intro _ h r
  obtain ⟨c, d, a, off, sz, x, ext⟩ := o
  change (legalLog d a sz x ext (dataOk d sz) 2) = true at h
  simp only [legalLog, Bool.and_eq_true] at h
  change decodeWords (encStore 0x61 _ ++ r) = _
  cases x
  · obtain rfl : ext = 0 := by exact extRole_ext _ _ _ _ _ h.1.2
    simp [encStore, withExt, decodeWords, wordCount, decodeWord_61, storeOp]
  · simp [encStore, withExt, decodeWords, wordCount, decodeWord_61, storeOp]
theorem ldk (o : MemOp) : Statement (.ldk o) := by
  intro _ h r
  obtain ⟨c, d, a, off, sz, k, x, ext⟩ := o
  change (legalOff d a sz x ext (loadDst k d sz) 1) = true at h
  simp only [legalOff, Bool.and_eq_true] at h
  change decodeWords (encMem 0x62 _ ++ r) = _
  cases x
  · obtain rfl : ext = 0 := by exact extRole_ext _ _ _ _ _ h.1.2
    simp [encMem, withExt, decodeWords, wordCount, decodeWord_62, memOp]
  · simp [encMem, withExt, decodeWords, wordCount, decodeWord_62, memOp]
theorem stk (o : StoreOp) : Statement (.stk o) := by
  intro _ h r
  obtain ⟨c, d, a, off, sz, x, ext⟩ := o
  change (legalOff d a sz x ext (dataOk d sz) 2) = true at h
  simp only [legalOff, Bool.and_eq_true] at h
  change decodeWords (encStore 0x63 _ ++ r) = _
  cases x
  · obtain rfl : ext = 0 := by exact extRole_ext _ _ _ _ _ h.1.2
    simp [encStore, withExt, decodeWords, wordCount, decodeWord_63, storeOp]
  · simp [encStore, withExt, decodeWords, wordCount, decodeWord_63, storeOp]
theorem ldd (o : MemOp) : Statement (.ldd o) := by
  intro _ h r
  obtain ⟨c, d, a, off, sz, k, x, ext⟩ := o
  change (legalOff d a sz x ext (loadDst k d sz) 1) = true at h
  simp only [legalOff, Bool.and_eq_true] at h
  change decodeWords (encMem 0x64 _ ++ r) = _
  cases x
  · obtain rfl : ext = 0 := by exact extRole_ext _ _ _ _ _ h.1.2
    simp [encMem, withExt, decodeWords, wordCount, decodeWord_64, memOp]
  · simp [encMem, withExt, decodeWords, wordCount, decodeWord_64, memOp]
theorem std (o : StoreOp) : Statement (.std o) := by
  intro _ h r
  obtain ⟨c, d, a, off, sz, x, ext⟩ := o
  change (legalOff d a sz x ext (dataOk d sz) 2) = true at h
  simp only [legalOff, Bool.and_eq_true] at h
  change decodeWords (encStore 0x65 _ ++ r) = _
  cases x
  · obtain rfl : ext = 0 := by exact extRole_ext _ _ _ _ _ h.1.2
    simp [encStore, withExt, decodeWords, wordCount, decodeWord_65, storeOp]
  · simp [encStore, withExt, decodeWords, wordCount, decodeWord_65, storeOp]
theorem ldf (o : LdfOp) : Statement (.ldf o) := by
  intro _ h r
  obtain ⟨c, d, a, off, k, x, ext⟩ := o
  change (legalLdf _) = true at h
  simp only [legalLdf, Bool.and_eq_true] at h
  change decodeWords (withExt (pack c false 0x66 d a (off ++ 0#2) k x) x ext ++ r) = _
  cases x
  · obtain rfl : ext = 0 := by exact extRole_ext _ _ _ _ _ h.1.2
    simp [withExt, decodeWords, wordCount, decodeWord_66]
  · simp [withExt, decodeWords, wordCount, decodeWord_66]
theorem stf (o : WideOp) : Statement (.stf o) := by
  intro _ h r
  obtain ⟨c, d, a, off, x, ext⟩ := o
  change (legalStf _) = true at h
  simp only [legalStf, Bool.and_eq_true] at h
  change decodeWords (withExt (pack c false 0x67 d a (off ++ 0#2) false x) x ext ++ r) = _
  cases x
  · obtain rfl : ext = 0 := by exact extRole_ext _ _ _ _ _ h.1.2
    simp [withExt, decodeWords, wordCount, decodeWord_67]
  · simp [withExt, decodeWords, wordCount, decodeWord_67]
theorem atv (o : MemOp) : Statement (.atv o) := by
  intro _ h r
  obtain ⟨c, d, a, off, sz, k, x, ext⟩ := o
  change (legalAtomic _ true) = true at h
  simp only [legalAtomic, Bool.and_eq_true] at h
  change decodeWords (encMem 0x68 _ ++ r) = _
  cases x
  · obtain rfl : ext = 0 := by exact extRole_ext _ _ _ _ _ h.1.1.1.2
    simp [encMem, withExt, decodeWords, wordCount, decodeWord_68, memOp]
  · simp [encMem, withExt, decodeWords, wordCount, decodeWord_68, memOp]
theorem atk (o : MemOp) : Statement (.atk o) := by
  intro _ h r
  obtain ⟨c, d, a, off, sz, k, x, ext⟩ := o
  change (legalAtomic _ false) = true at h
  simp only [legalAtomic, Bool.and_eq_true] at h
  change decodeWords (encMem 0x69 _ ++ r) = _
  cases x
  · obtain rfl : ext = 0 := by exact extRole_ext _ _ _ _ _ h.1.1.1.2
    simp [encMem, withExt, decodeWords, wordCount, decodeWord_69, memOp]
  · simp [encMem, withExt, decodeWords, wordCount, decodeWord_69, memOp]
theorem atd (o : MemOp) : Statement (.atd o) := by
  intro _ h r
  obtain ⟨c, d, a, off, sz, k, x, ext⟩ := o
  change (legalAtomic _ false) = true at h
  simp only [legalAtomic, Bool.and_eq_true] at h
  change decodeWords (encMem 0x6a _ ++ r) = _
  cases x
  · obtain rfl : ext = 0 := by exact extRole_ext _ _ _ _ _ h.1.1.1.2
    simp [encMem, withExt, decodeWords, wordCount, decodeWord_6a, memOp]
  · simp [encMem, withExt, decodeWords, wordCount, decodeWord_6a, memOp]
theorem fence (o : FenceOp) : Statement (.fence o) := by
  intro _ h r
  obtain ⟨c, ext⟩ := o
  change decodeWords ([pack c false 0x6B 0 0 0 false true, ext] ++ r) = _
  simp [decodeWords, wordCount, decodeWord_6b]
theorem cpy (o : WideOp) : Statement (.cpy o) := by
  intro _ h r
  obtain ⟨c, d, a, off, x, ext⟩ := o
  change (legalCpy _) = true at h
  simp only [legalCpy, Bool.and_eq_true] at h
  change decodeWords (withExt (pack c false 0x6C d a (off ++ 2#2) false x) x ext ++ r) = _
  cases x
  · obtain rfl : ext = 0 := by exact extRole_ext _ _ _ _ _ h.1.2
    simp [withExt, decodeWords, wordCount, decodeWord_6c]
  · simp [withExt, decodeWords, wordCount, decodeWord_6c]
theorem cwait (o : CwaitOp) : Statement (.cwait o) := by
  intro _ h r
  obtain ⟨c, q⟩ := o
  change decodeWords ([pack c false 0x6D (0#3 ++ q) 0 0 false false] ++ r) = _
  simp [decodeWords, wordCount, decodeWord_6d]
theorem spill (o : StoreOp) : Statement (.spill o) := by
  intro _ h r
  obtain ⟨c, d, a, off, sz, x, ext⟩ := o
  change (legalSpill d a sz x ext (dataOk d sz)) = true at h
  simp only [legalSpill, Bool.and_eq_true] at h
  change decodeWords (encStore 0x6e _ ++ r) = _
  cases x
  · obtain rfl : ext = 0 := by exact extRole_ext _ _ _ _ _ h.1.2
    simp [encStore, withExt, decodeWords, wordCount, decodeWord_6e, storeOp]
  · simp [encStore, withExt, decodeWords, wordCount, decodeWord_6e, storeOp]
theorem fill (o : MemOp) : Statement (.fill o) := by
  intro _ h r
  obtain ⟨c, d, a, off, sz, k, x, ext⟩ := o
  change (legalSpill d a sz x ext (loadDst k d sz)) = true at h
  simp only [legalSpill, Bool.and_eq_true] at h
  change decodeWords (encMem 0x6f _ ++ r) = _
  cases x
  · obtain rfl : ext = 0 := by exact extRole_ext _ _ _ _ _ h.1.2
    simp [encMem, withExt, decodeWords, wordCount, decodeWord_6f, memOp]
  · simp [encMem, withExt, decodeWords, wordCount, decodeWord_6f, memOp]
theorem xq (o : XqOp) : Statement (.xq o) := by
  intro _ h r
  obtain ⟨c, d, a, bc, m, k, x, ext⟩ := o
  change (legalXq _) = true at h
  simp only [legalXq, Bool.and_eq_true] at h
  change decodeWords (withExt (pack c false 0x70 d a (0#4 ++ BitVec.ofBool bc ++ m) k x) x ext ++ r) = _
  cases x
  · obtain rfl : ext = 0 := by exact extRole_ext _ _ _ _ _ h.2
    simp [withExt, decodeWords, wordCount, decodeWord_70]
  · simp [withExt, decodeWords, wordCount, decodeWord_70]
theorem xg (o : XgOp) : Statement (.xg o) := by
  intro _ h r
  obtain ⟨c, d, a, b, k, x, ext⟩ := o
  change (legalXg _) = true at h
  simp only [legalXg, Bool.and_eq_true] at h
  change decodeWords (withExt (pack c false 0x71 d a b k x) x ext ++ r) = _
  cases x
  · obtain rfl : ext = 0 := by exact extRole_ext _ _ _ _ _ h.2
    simp [withExt, decodeWords, wordCount, decodeWord_71]
  · simp [withExt, decodeWords, wordCount, decodeWord_71]
theorem perm (o : PermOp) : Statement (.perm o) := by
  intro _ h r
  obtain ⟨c, d, a, b, k, ext⟩ := o
  change decodeWords ([pack c false 0x72 d a b k true, ext] ++ r) = _
  simp [decodeWords, wordCount, decodeWord_72]
theorem vote (o : VoteOp) : Statement (.vote o) := by
  intro _ h r
  obtain ⟨c, d, na, cn, mode, k⟩ := o
  change decodeWords ([pack c false 0x73 d (nib na cn) mode k false] ++ r) = _
  simp [decodeWords, wordCount, decodeWord_73]
theorem gred (o : GredOp) : Statement (.gred o) := by
  intro _ h r
  obtain ⟨c, d, a, scan, op, k, x, ext⟩ := o
  change (legalGred _) = true at h
  simp only [legalGred, Bool.and_eq_true] at h
  change decodeWords (withExt (pack c false 0x74 d a (BitVec.ofBool scan ++ 0#2 ++ op) k x) x ext ++ r) = _
  cases x
  · obtain rfl : ext = 0 := by exact extRole_ext _ _ _ _ _ h.2
    simp [withExt, decodeWords, wordCount, decodeWord_74]
  · simp [withExt, decodeWords, wordCount, decodeWord_74]
theorem barr (o : DaOp) : Statement (.barr o) := by
  intro _ h r
  obtain ⟨c, d, a, x, ext⟩ := o
  change (legalBarr _) = true at h
  simp only [legalBarr, Bool.and_eq_true] at h
  change decodeWords (withExt (pack c false 0x75 d a 0 false x) x ext ++ r) = _
  cases x
  · obtain rfl : ext = 0 := by exact extRole_ext _ _ _ _ _ h.2
    simp [withExt, decodeWords, wordCount, decodeWord_75]
  · simp [withExt, decodeWords, wordCount, decodeWord_75]
theorem barrDrop (o : DaOp) : Statement (.barrDrop o) := by
  intro _ h r
  obtain ⟨c, d, a, x, ext⟩ := o
  change (legalBarr _) = true at h
  simp only [legalBarr, Bool.and_eq_true] at h
  change decodeWords (withExt (pack c false 0x75 d a 1 false x) x ext ++ r) = _
  cases x
  · obtain rfl : ext = 0 := by exact extRole_ext _ _ _ _ _ h.2
    simp [withExt, decodeWords, wordCount, decodeWord_75]
  · simp [withExt, decodeWords, wordCount, decodeWord_75]
theorem barw (o : BarwOp) : Statement (.barw o) := by
  intro _ h r
  obtain ⟨c, a, b, x, ext⟩ := o
  change (legalBarw _) = true at h
  simp only [legalBarw, Bool.and_eq_true] at h
  change decodeWords (withExt (pack c false 0x76 0 a b false x) x ext ++ r) = _
  cases x
  · obtain rfl : ext = 0 := by exact extRole_ext _ _ _ _ _ h.2
    simp [withExt, decodeWords, wordCount, decodeWord_76]
  · simp [withExt, decodeWords, wordCount, decodeWord_76]
theorem xacqV (o : NullOp) : Statement (.xacqV o) := by
  intro _ h r
  obtain ⟨c⟩ := o
  change decodeWords ([pack c false 0x77 0 0 0 false false] ++ r) = _
  simp [decodeWords, wordCount, decodeWord_77]
theorem xacqS (o : BlkOp) : Statement (.xacqS o) := by
  intro _ h r
  obtain ⟨c, k⟩ := o
  change decodeWords ([pack c false 0x77 0 1 k false false] ++ r) = _
  simp [decodeWords, wordCount, decodeWord_77]
theorem xrelV (o : NullOp) : Statement (.xrelV o) := by
  intro _ h r
  obtain ⟨c⟩ := o
  change decodeWords ([pack c false 0x78 0 0 0 false false] ++ r) = _
  simp [decodeWords, wordCount, decodeWord_78]
theorem xrelS (o : BlkOp) : Statement (.xrelS o) := by
  intro _ h r
  obtain ⟨c, k⟩ := o
  change decodeWords ([pack c false 0x78 0 1 k false false] ++ r) = _
  simp [decodeWords, wordCount, decodeWord_78]
theorem msign (o : EngOp) : Statement (.msign o) := by
  intro _ h r
  obtain ⟨c, cv, arr, areg, dsc, h, sp⟩ := o
  change decodeWords (encEng 0x79 _ ++ r) = _
  simp [encEng, decodeWords, wordCount, decodeWord_79, engOp]
theorem mma (o : EngOp) : Statement (.mma o) := by
  intro _ h r
  obtain ⟨c, cv, arr, areg, dsc, h, sp⟩ := o
  change decodeWords (encEng 0x7a _ ++ r) = _
  simp [encEng, decodeWords, wordCount, decodeWord_7a, engOp]
theorem mwait (o : CvOp) : Statement (.mwait o) := by
  intro _ h r
  obtain ⟨c, cv⟩ := o
  change decodeWords ([pack c false 0x7B (cv ++ 0#3) 0 0 false false] ++ r) = _
  simp [decodeWords, wordCount, decodeWord_7b]
theorem maccZero (o : AccOp) : Statement (.maccZero o) := by
  intro _ h r
  obtain ⟨c, arr⟩ := o
  change decodeWords ([pack c false 0x7C 0 0 (0#3 ++ 0#2 ++ arr) false false] ++ r) = _
  simp [decodeWords, wordCount, decodeWord_7c]
theorem maccRd (o : AccRdOp) : Statement (.maccRd o) := by
  intro _ h r
  obtain ⟨c, d, a, arr, k, x, ext⟩ := o
  change (legalAccRd _) = true at h
  simp only [legalAccRd, Bool.and_eq_true] at h
  change decodeWords (withExt (pack c false 0x7C d a (1#3 ++ 0#2 ++ arr) k x) x ext ++ r) = _
  cases x
  · obtain rfl : ext = 0 := by exact extRole_ext _ _ _ _ _ h.2
    simp [withExt, decodeWords, wordCount, decodeWord_7c]
  · simp [withExt, decodeWords, wordCount, decodeWord_7c]
theorem maccSt (o : AccMemOp) : Statement (.maccSt o) := by
  intro _ h r
  obtain ⟨c, a, arr, x, ext⟩ := o
  change (legalAccMem _) = true at h
  simp only [legalAccMem, Bool.and_eq_true] at h
  change decodeWords (withExt (pack c false 0x7C 0 a (2#3 ++ 0#2 ++ arr) false x) x ext ++ r) = _
  cases x
  · obtain rfl : ext = 0 := by exact extRole_ext _ _ _ _ _ h.2
    simp [withExt, decodeWords, wordCount, decodeWord_7c]
  · simp [withExt, decodeWords, wordCount, decodeWord_7c]
theorem maccLd (o : AccMemOp) : Statement (.maccLd o) := by
  intro _ h r
  obtain ⟨c, a, arr, x, ext⟩ := o
  change (legalAccMem _) = true at h
  simp only [legalAccMem, Bool.and_eq_true] at h
  change decodeWords (withExt (pack c false 0x7C 0 a (3#3 ++ 0#2 ++ arr) false x) x ext ++ r) = _
  cases x
  · obtain rfl : ext = 0 := by exact extRole_ext _ _ _ _ _ h.2
    simp [withExt, decodeWords, wordCount, decodeWord_7c]
  · simp [withExt, decodeWords, wordCount, decodeWord_7c]
theorem maccStat (o : AccStatOp) : Statement (.maccStat o) := by
  intro _ h r
  obtain ⟨c, d, arr, k⟩ := o
  change decodeWords ([pack c false 0x7C d 0 (4#3 ++ 0#2 ++ arr) k false] ++ r) = _
  simp [decodeWords, wordCount, decodeWord_7c]
theorem xform (o : XformOp) : Statement (.xform o) := by
  intro _ h r
  obtain ⟨c, cv, dsc⟩ := o
  change decodeWords ([pack c false 0x7D (cv ++ 0#3) (0#6 ++ dsc.extractLsb' 6 1) (dsc.setWidth 6 ++ 0#1) false false] ++ r) = _
  simp [decodeWords, wordCount, decodeWord_7d]
theorem getst (o : DOp) : Statement (.getst o) := by
  intro _ h r
  obtain ⟨c, d⟩ := o
  change decodeWords ([pack c false 0x7E d 0 0 false false] ++ r) = _
  simp [decodeWords, wordCount, decodeWord_7e]
theorem setst (o : DaOp) : Statement (.setst o) := by
  intro _ h r
  obtain ⟨c, d, a, x, ext⟩ := o
  change (dstOk d && srcOk a && extRole (some d) [a] x ext .optional (fun m => m.toNat < 64)) = true at h
  simp only [Bool.and_eq_true] at h
  change decodeWords (withExt (pack c false 0x7E d a 0x01 false x) x ext ++ r) = _
  cases x
  · obtain rfl : ext = 0 := by exact extRole_ext _ _ _ _ _ h.2
    simp [withExt, decodeWords, wordCount, decodeWord_7e]
  · simp [withExt, decodeWords, wordCount, decodeWord_7e]
theorem fmtld (o : DaOp) : Statement (.fmtld o) := by
  intro _ h r
  obtain ⟨c, d, a, x, ext⟩ := o
  change (legalSysPair none (d.toNat < 32) a x ext) = true at h
  simp only [legalSysPair, Bool.and_eq_true] at h
  change decodeWords (withExt (pack c false 0x7E d a 0x02 false x) x ext ++ r) = _
  cases x
  · obtain rfl : ext = 0 := by exact extRole_ext _ _ _ _ _ h.2
    simp [withExt, decodeWords, wordCount, decodeWord_7e]
  · simp [withExt, decodeWords, wordCount, decodeWord_7e]
theorem fmtst (o : DaOp) : Statement (.fmtst o) := by
  intro _ h r
  obtain ⟨c, d, a, x, ext⟩ := o
  change (legalSysPair none (d.toNat < 32) a x ext) = true at h
  simp only [legalSysPair, Bool.and_eq_true] at h
  change decodeWords (withExt (pack c false 0x7E d a 0x03 false x) x ext ++ r) = _
  cases x
  · obtain rfl : ext = 0 := by exact extRole_ext _ _ _ _ _ h.2
    simp [withExt, decodeWords, wordCount, decodeWord_7e]
  · simp [withExt, decodeWords, wordCount, decodeWord_7e]
theorem patld (o : DaOp) : Statement (.patld o) := by
  intro _ h r
  obtain ⟨c, d, a, x, ext⟩ := o
  change (legalSysPair none (d.toNat < 16) a x ext) = true at h
  simp only [legalSysPair, Bool.and_eq_true] at h
  change decodeWords (withExt (pack c false 0x7E d a 0x04 false x) x ext ++ r) = _
  cases x
  · obtain rfl : ext = 0 := by exact extRole_ext _ _ _ _ _ h.2
    simp [withExt, decodeWords, wordCount, decodeWord_7e]
  · simp [withExt, decodeWords, wordCount, decodeWord_7e]
theorem evsig (o : DaOp) : Statement (.evsig o) := by
  intro _ h r
  obtain ⟨c, d, a, x, ext⟩ := o
  change (legalSysRes _) = true at h
  simp only [legalSysRes, Bool.and_eq_true] at h
  change decodeWords (withExt (pack c false 0x7E d a 0x08 false x) x ext ++ r) = _
  cases x
  · obtain rfl : ext = 0 := by exact extRole_ext _ _ _ _ _ h.2
    simp [withExt, decodeWords, wordCount, decodeWord_7e]
  · simp [withExt, decodeWords, wordCount, decodeWord_7e]
theorem evwait (o : DaOp) : Statement (.evwait o) := by
  intro _ h r
  obtain ⟨c, d, a, x, ext⟩ := o
  change (legalSysPair (some d) (dstOk d) a x ext) = true at h
  simp only [legalSysPair, Bool.and_eq_true] at h
  change decodeWords (withExt (pack c false 0x7E d a 0x09 false x) x ext ++ r) = _
  cases x
  · obtain rfl : ext = 0 := by exact extRole_ext _ _ _ _ _ h.2
    simp [withExt, decodeWords, wordCount, decodeWord_7e]
  · simp [withExt, decodeWords, wordCount, decodeWord_7e]
theorem launch (o : DaOp) : Statement (.launch o) := by
  intro _ h r
  obtain ⟨c, d, a, x, ext⟩ := o
  change (legalSysPair (some d) (dstOk d) a x ext) = true at h
  simp only [legalSysPair, Bool.and_eq_true] at h
  change decodeWords (withExt (pack c false 0x7E d a 0x0a false x) x ext ++ r) = _
  cases x
  · obtain rfl : ext = 0 := by exact extRole_ext _ _ _ _ _ h.2
    simp [withExt, decodeWords, wordCount, decodeWord_7e]
  · simp [withExt, decodeWords, wordCount, decodeWord_7e]
theorem trig (o : AOp) : Statement (.trig o) := by
  intro _ h r
  obtain ⟨c, a, x, ext⟩ := o
  change (srcOk a && extRole none [a] x ext .none noMod) = true at h
  simp only [Bool.and_eq_true] at h
  change decodeWords (withExt (pack c false 0x7E 0 a 0x0b false x) x ext ++ r) = _
  cases x
  · obtain rfl : ext = 0 := by exact extRole_ext _ _ _ _ _ h.2
    simp [withExt, decodeWords, wordCount, decodeWord_7e]
  · simp [withExt, decodeWords, wordCount, decodeWord_7e]
theorem snap (o : DaOp) : Statement (.snap o) := by
  intro _ h r
  obtain ⟨c, d, a, x, ext⟩ := o
  change (evenV d && srcOk a && extRole (some d) [a] x ext .none noMod) = true at h
  simp only [Bool.and_eq_true] at h
  change decodeWords (withExt (pack c false 0x7E d a 0x10 false x) x ext ++ r) = _
  cases x
  · obtain rfl : ext = 0 := by exact extRole_ext _ _ _ _ _ h.2
    simp [withExt, decodeWords, wordCount, decodeWord_7e]
  · simp [withExt, decodeWords, wordCount, decodeWord_7e]
theorem snaprel (o : DaOp) : Statement (.snaprel o) := by
  intro _ h r
  obtain ⟨c, d, a, x, ext⟩ := o
  change (legalSysPair (some d) (dstPlain d) a x ext) = true at h
  simp only [legalSysPair, Bool.and_eq_true] at h
  change decodeWords (withExt (pack c false 0x7E d a 0x11 false x) x ext ++ r) = _
  cases x
  · obtain rfl : ext = 0 := by exact extRole_ext _ _ _ _ _ h.2
    simp [withExt, decodeWords, wordCount, decodeWord_7e]
  · simp [withExt, decodeWords, wordCount, decodeWord_7e]
theorem rollback (o : DaOp) : Statement (.rollback o) := by
  intro _ h r
  obtain ⟨c, d, a, x, ext⟩ := o
  change (legalSysPair (some d) (dstPlain d) a x ext) = true at h
  simp only [legalSysPair, Bool.and_eq_true] at h
  change decodeWords (withExt (pack c false 0x7E d a 0x12 false x) x ext ++ r) = _
  cases x
  · obtain rfl : ext = 0 := by exact extRole_ext _ _ _ _ _ h.2
    simp [withExt, decodeWords, wordCount, decodeWord_7e]
  · simp [withExt, decodeWords, wordCount, decodeWord_7e]
theorem rett (o : NullOp) : Statement (.rett o) := by
  intro _ h r
  obtain ⟨c⟩ := o
  change decodeWords ([pack c false 0x7E 0 0 0x18 false false] ++ r) = _
  simp [decodeWords, wordCount, decodeWord_7e]
theorem ctxsv (o : AOp) : Statement (.ctxsv o) := by
  intro _ h r
  obtain ⟨c, a, x, ext⟩ := o
  change (legalSysPair none true a x ext) = true at h
  simp only [legalSysPair, Bool.and_eq_true] at h
  change decodeWords (withExt (pack c false 0x7E 0 a 0x19 false x) x ext ++ r) = _
  cases x
  · obtain rfl : ext = 0 := by exact extRole_ext _ _ _ _ _ h.2
    simp [withExt, decodeWords, wordCount, decodeWord_7e]
  · simp [withExt, decodeWords, wordCount, decodeWord_7e]
theorem ctxld (o : AOp) : Statement (.ctxld o) := by
  intro _ h r
  obtain ⟨c, a, x, ext⟩ := o
  change (legalSysPair none true a x ext) = true at h
  simp only [legalSysPair, Bool.and_eq_true] at h
  change decodeWords (withExt (pack c false 0x7E 0 a 0x1a false x) x ext ++ r) = _
  cases x
  · obtain rfl : ext = 0 := by exact extRole_ext _ _ _ _ _ h.2
    simp [withExt, decodeWords, wordCount, decodeWord_7e]
  · simp [withExt, decodeWords, wordCount, decodeWord_7e]
theorem halt (o : AOp) : Statement (.halt o) := by
  intro _ h r
  obtain ⟨c, a, x, ext⟩ := o
  change (srcOk a && extRole none [a] x ext .none noMod) = true at h
  simp only [Bool.and_eq_true] at h
  change decodeWords (withExt (pack c false 0x7E 0 a 0x1b false x) x ext ++ r) = _
  cases x
  · obtain rfl : ext = 0 := by exact extRole_ext _ _ _ _ _ h.2
    simp [withExt, decodeWords, wordCount, decodeWord_7e]
  · simp [withExt, decodeWords, wordCount, decodeWord_7e]
theorem perfrd (o : DaOp) : Statement (.perfrd o) := by
  intro _ h r
  obtain ⟨c, d, a, x, ext⟩ := o
  change (evenV d && srcOk a && extRole (some d) [a] x ext .none noMod) = true at h
  simp only [Bool.and_eq_true] at h
  change decodeWords (withExt (pack c false 0x7E d a 0x20 false x) x ext ++ r) = _
  cases x
  · obtain rfl : ext = 0 := by exact extRole_ext _ _ _ _ _ h.2
    simp [withExt, decodeWords, wordCount, decodeWord_7e]
  · simp [withExt, decodeWords, wordCount, decodeWord_7e]
theorem errlog (o : DaOp) : Statement (.errlog o) := by
  intro _ h r
  obtain ⟨c, d, a, x, ext⟩ := o
  change (evenV d && srcOk a && extRole (some d) [a] x ext .none noMod) = true at h
  simp only [Bool.and_eq_true] at h
  change decodeWords (withExt (pack c false 0x7E d a 0x21 false x) x ext ++ r) = _
  cases x
  · obtain rfl : ext = 0 := by exact extRole_ext _ _ _ _ _ h.2
    simp [withExt, decodeWords, wordCount, decodeWord_7e]
  · simp [withExt, decodeWords, wordCount, decodeWord_7e]
theorem inject (o : InjectOp) : Statement (.inject o) := by
  intro _ h r
  obtain ⟨c, a, ext⟩ := o
  change decodeWords ([pack c false 0x7E 0 a 0x22 false true, ext] ++ r) = _
  simp [decodeWords, wordCount, decodeWord_7e]
theorem pourSetupDone (core lane : Nat) : Statement (.pourSetupDone core lane) := by
  intro h
  cases h
theorem workingSetFetchDone (core lane : Nat) : Statement (.workingSetFetchDone core lane) := by
  intro h
  cases h
theorem bankFetchDone (core lane : Nat) : Statement (.bankFetchDone core lane) := by
  intro h
  cases h
theorem loadDataReturn (core lane : Nat) : Statement (.loadDataReturn core lane) := by
  intro h
  cases h
theorem exchangeRelease (gang g quad : Nat) (xg : Bool) : Statement (.exchangeRelease gang g quad xg) := by
  intro h
  cases h
theorem cohortWatchdog (gang g gpos : Nat) : Statement (.cohortWatchdog gang g gpos) := by
  intro h
  cases h
theorem matrixOpComplete (core arr : Nat) : Statement (.matrixOpComplete core arr) := by
  intro h
  cases h
theorem xformComplete (core : Nat) : Statement (.xformComplete core) := by
  intro h
  cases h
theorem copyLineWritten (copy unit : Nat) : Statement (.copyLineWritten copy unit) := by
  intro h
  cases h
theorem copyComplete (copy : Nat) : Statement (.copyComplete copy) := by
  intro h
  cases h
theorem copyTransferFault (copy unit : Nat) : Statement (.copyTransferFault copy unit) := by
  intro h
  cases h
theorem trapDelivery (gang g gpos : Nat) : Statement (.trapDelivery gang g gpos) := by
  intro h
  cases h
theorem preemptRequest (gang : Nat) : Statement (.preemptRequest gang) := by
  intro h
  cases h
theorem gangSave (gang : Nat) : Statement (.gangSave gang) := by
  intro h
  cases h
theorem gangRestore (gang : Nat) : Statement (.gangRestore gang) := by
  intro h
  cases h
theorem coreReport (core : Nat) : Statement (.coreReport core) := by
  intro h
  cases h
theorem gangPlace (die : Nat) : Statement (.gangPlace die) := by
  intro h
  cases h
theorem placementAgeHold (gang : Nat) : Statement (.placementAgeHold gang) := by
  intro h
  cases h
theorem qosVictimSeek (gang : Nat) : Statement (.qosVictimSeek gang) := by
  intro h
  cases h
theorem reordBinTimeout (die : Nat) : Statement (.reordBinTimeout die) := by
  intro h
  cases h
theorem tailAgeAppend (wid : Nat) : Statement (.tailAgeAppend wid) := by
  intro h
  cases h
theorem ownershipRequest (wid asid lpn sub : Nat) : Statement (.ownershipRequest wid asid lpn sub) := by
  intro h
  cases h
theorem ownershipHandover (asid lpn sub : Nat) : Statement (.ownershipHandover asid lpn sub) := by
  intro h
  cases h
theorem pendingAgePublish (wid asid : Nat) : Statement (.pendingAgePublish wid asid) := by
  intro h
  cases h
theorem commitRequest (die asid : Nat) : Statement (.commitRequest die asid) := by
  intro h
  cases h
theorem invalidationMessage (die asid : Nat) : Statement (.invalidationMessage die asid) := by
  intro h
  cases h
theorem invalidationAck (wid asid : Nat) : Statement (.invalidationAck wid asid) := by
  intro h
  cases h
theorem walkStart (die : Nat) : Statement (.walkStart die) := by
  intro h
  cases h
theorem walkComplete (die walker : Nat) : Statement (.walkComplete die walker) := by
  intro h
  cases h
theorem shootdownComplete (fn : Nat) : Statement (.shootdownComplete fn) := by
  intro h
  cases h
theorem atomicPerform (die : Nat) : Statement (.atomicPerform die) := by
  intro h
  cases h
theorem atomicUnitPublish (die asid : Nat) : Statement (.atomicUnitPublish die asid) := by
  intro h
  cases h
theorem stackRead (stack : Nat) : Statement (.stackRead stack) := by
  intro h
  cases h
theorem stackAppend (stack : Nat) : Statement (.stackAppend stack) := by
  intro h
  cases h
theorem stackFread (stack : Nat) : Statement (.stackFread stack) := by
  intro h
  cases h
theorem stackFwrite (stack : Nat) : Statement (.stackFwrite stack) := by
  intro h
  cases h
theorem stackSegopen (stack : Nat) : Statement (.stackSegopen stack) := by
  intro h
  cases h
theorem stackSegseal (stack : Nat) : Statement (.stackSegseal stack) := by
  intro h
  cases h
theorem stackCompletion (stack : Nat) : Statement (.stackCompletion stack) := by
  intro h
  cases h
theorem stackScrub (stack : Nat) : Statement (.stackScrub stack) := by
  intro h
  cases h
theorem logFullTimeout (stack : Nat) : Statement (.logFullTimeout stack) := by
  intro h
  cases h
theorem fettlerScan (stack : Nat) : Statement (.fettlerScan stack) := by
  intro h
  cases h
theorem segmentFree (stack seg : Nat) : Statement (.segmentFree stack seg) := by
  intro h
  cases h
theorem migrationComplete (hostOk : Bool) : Statement (.migrationComplete hostOk) := by
  intro h
  cases h
theorem migrationTimeout : Statement (.migrationTimeout) := by
  intro h
  cases h
theorem launchStart (fn queue : Nat) : Statement (.launchStart fn queue) := by
  intro h
  cases h
theorem launchComplete (launch : Nat) : Statement (.launchComplete launch) := by
  intro h
  cases h
theorem evwaitTimeout (core lane : Nat) : Statement (.evwaitTimeout core lane) := by
  intro h
  cases h
theorem functionResetComplete (fn : Nat) : Statement (.functionResetComplete fn) := by
  intro h
  cases h
theorem capctlArm : Statement (.capctlArm) := by
  intro h
  cases h
theorem capctlFire : Statement (.capctlFire) := by
  intro h
  cases h
theorem captureLatch : Statement (.captureLatch) := by
  intro h
  cases h
theorem clockRecoverStep (die : Nat) : Statement (.clockRecoverStep die) := by
  intro h
  cases h
theorem spdmGetCertificate : Statement (.spdmGetCertificate) := by
  intro h
  cases h
theorem spdmGetMeasurements : Statement (.spdmGetMeasurements) := by
  intro h
  cases h
theorem idleFlitTimer (port : Nat) : Statement (.idleFlitTimer port) := by
  intro h
  cases h
theorem trainTimeout (port : Nat) : Statement (.trainTimeout port) := by
  intro h
  cases h
theorem packetRoute (port : Nat) : Statement (.packetRoute port) := by
  intro h
  cases h
theorem bulkCreditTimeout (idx : Nat) : Statement (.bulkCreditTimeout idx) := by
  intro h
  cases h
theorem resendTimeout (idx : Nat) : Statement (.resendTimeout idx) := by
  intro h
  cases h
theorem pktWrite (p : Packet) : Statement (.pktWrite p) := by
  intro h
  cases h
theorem rdreq (p : Packet) : Statement (.rdreq p) := by
  intro h
  cases h
theorem rddata (p : Packet) : Statement (.rddata p) := by
  intro h
  cases h
theorem spwr (p : Packet) : Statement (.spwr p) := by
  intro h
  cases h
theorem dack (p : Packet) : Statement (.dack p) := by
  intro h
  cases h
theorem cdone (p : Packet) : Statement (.cdone p) := by
  intro h
  cases h
theorem segship (p : Packet) : Statement (.segship p) := by
  intro h
  cases h
theorem segpart (p : Packet) : Statement (.segpart p) := by
  intro h
  cases h
theorem fixwr (p : Packet) : Statement (.fixwr p) := by
  intro h
  cases h
theorem cship (p : Packet) : Statement (.cship p) := by
  intro h
  cases h
theorem repack (p : Packet) : Statement (.repack p) := by
  intro h
  cases h
theorem launchPacket (p : Packet) : Statement (.launchPacket p) := by
  intro h
  cases h
theorem startbar (p : Packet) : Statement (.startbar p) := by
  intro h
  cases h
theorem ldone (p : Packet) : Statement (.ldone p) := by
  intro h
  cases h
theorem trigPacket (p : Packet) : Statement (.trigPacket p) := by
  intro h
  cases h
theorem notice (p : Packet) : Statement (.notice p) := by
  intro h
  cases h
theorem mwr (p : Packet) : Statement (.mwr p) := by
  intro h
  cases h
theorem mrd (p : Packet) : Statement (.mrd p) := by
  intro h
  cases h
theorem mrsp (p : Packet) : Statement (.mrsp p) := by
  intro h
  cases h
theorem retire (p : Packet) : Statement (.retire p) := by
  intro h
  cases h
theorem genmark (p : Packet) : Statement (.genmark p) := by
  intro h
  cases h
theorem genmarkTimer (group : Nat) : Statement (.genmarkTimer group) := by
  intro h
  cases h
theorem copySetTimeout (die idx : Nat) : Statement (.copySetTimeout die idx) := by
  intro h
  cases h
theorem replicaAckTimeout (group member : Nat) : Statement (.replicaAckTimeout group member) := by
  intro h
  cases h
theorem rtswap : Statement (.rtswap) := by
  intro h
  cases h
theorem spareFillComplete (group : Nat) : Statement (.spareFillComplete group) := by
  intro h
  cases h
theorem fillPacket (p : Packet) : Statement (.fillPacket p) := by
  intro h
  cases h
theorem performedTagExpiry (idx : Nat) : Statement (.performedTagExpiry idx) := by
  intro h
  cases h
theorem spdmSessionEstablish : Statement (.spdmSessionEstablish) := by
  intro h
  cases h
theorem migrateToHostCommand (fn : Nat) (ctl : DWord) : Statement (.migrateToHostCommand fn ctl) := by
  intro h
  cases h
theorem migrateToDeviceCommand (fn : Nat) (ctl : DWord) : Statement (.migrateToDeviceCommand fn ctl) := by
  intro h
  cases h
theorem pageRequestAnswer (granted : Bool) (page : List Byte) : Statement (.pageRequestAnswer granted page) := by
  intro h
  cases h
theorem qslotWrite (fn off : Nat) (data : List Byte) : Statement (.qslotWrite fn off data) := by
  intro h
  cases h
theorem evadd (fn : Nat) (val : Word) : Statement (.evadd fn val) := by
  intro h
  cases h
theorem eventSlotWrite (fn slot : Nat) (val : Word) : Statement (.eventSlotWrite fn slot val) := by
  intro h
  cases h
theorem ctrlRst (fn : Nat) (val : DWord) : Statement (.ctrlRst fn val) := by
  intro h
  cases h
theorem flr (fn : Nat) : Statement (.flr fn) := by
  intro h
  cases h
theorem hgptrWrite (fn : Nat) (val : DWord) : Statement (.hgptrWrite fn val) := by
  intro h
  cases h
theorem mtimeWrite (val : DWord) : Statement (.mtimeWrite val) := by
  intro h
  cases h
theorem supplySag (die : Nat) : Statement (.supplySag die) := by
  intro h
  cases h
theorem moduleReset (boot : BootInput) : Statement (.moduleReset boot) := by
  intro h
  cases h
theorem registerWrite (fn off : Nat) (val : DWord) : Statement (.registerWrite fn off val) := by
  intro h
  cases h
theorem flitReceive (port : Nat) (flit : Flit) : Statement (.flitReceive port flit) := by
  intro h
  cases h
theorem laneFault (port lane : Nat) (far : Bool) : Statement (.laneFault port lane far) := by
  intro h
  cases h
theorem trainComplete (port : Nat) (peer : BitVec 16) : Statement (.trainComplete port peer) := by
  intro h
  cases h
theorem pctlUp (port : Nat) : Statement (.pctlUp port) := by
  intro h
  cases h
theorem pctlDis (port : Nat) : Statement (.pctlDis port) := by
  intro h
  cases h
theorem rgtWrite (group : Nat) (val : BitVec 512) : Statement (.rgtWrite group val) := by
  intro h
  cases h
theorem gcmdFail (group member : Nat) : Statement (.gcmdFail group member) := by
  intro h
  cases h
theorem gcmdSpare (group member ep : Nat) : Statement (.gcmdSpare group member ep) := by
  intro h
  cases h
theorem gcmdClear (group : Nat) : Statement (.gcmdClear group) := by
  intro h
  cases h
theorem laneRecovery (port lane : Nat) (far : Bool) : Statement (.laneRecovery port lane far) := by
  intro h
  cases h
theorem softError (target : ErrTarget) (uncorrectable : Bool) : Statement (.softError target uncorrectable) := by
  intro h
  cases h
theorem ideKeyManagement (key : BitVec 256) : Statement (.ideKeyManagement key) := by
  intro h
  cases h
theorem shootdownCommand (fn : Nat) (ctl : DWord) : Statement (.shootdownCommand fn ctl) := by
  intro h
  cases h

end Sys2Proof.Laws.Encodes
end

