-- ==== Sys2Proof/Laws/Stores.lean ====
section
/-!
SUPPORT. What a read of a sector depends on, and what a store into a tail buffer leaves alone (R216, R289, R290).
-/
namespace Sys2Proof.Machine

/-- The parts of a state that locate and hold published sectors agree. -/
structure SameStore (s t : State) : Prop where
  stks : t.stks = s.stks
  log : t.log = s.log
  badLog : t.badLog = s.badLog
  lost : t.lost = s.lost
  fixed : t.fixed = s.fixed
  boot : t.boot = s.boot
  maps : ∀ d, (dieAt t d).maps = (dieAt s d).maps
  nodes : ∀ d, (dieAt t d).nodes = (dieAt s d).nodes

theorem SameStore.refl (s : State) : SameStore s s := ⟨rfl, rfl, rfl, rfl, rfl, rfl, fun _ => rfl, fun _ => rfl⟩
theorem SameStore.trans {s t u : State} (h : SameStore s t) (k : SameStore t u) : SameStore s u :=
  ⟨k.stks.trans h.stks, k.log.trans h.log, k.badLog.trans h.badLog, k.lost.trans h.lost, k.fixed.trans h.fixed,
    k.boot.trans h.boot, fun d => (k.maps d).trans (h.maps d),
    fun d => (k.nodes d).trans (h.nodes d)⟩

section
variable {s t : State} (h : SameStore s t)
include h

theorem sectorBytes_same (n : Nat) : sectorBytes t n = sectorBytes s n := by simp [sectorBytes, stackAt, h.stks, h.log]
theorem sectorsBytes_same (n k : Nat) : sectorsBytes t n k = sectorsBytes s n k := by
  induction k generalizing n with
  | zero => rfl
  | succ k ih => simp [sectorsBytes, ih, sectorBytes_same h]
theorem sectorBad_same (n : Nat) : sectorBad t n = sectorBad s n := by simp [sectorBad, h.badLog, h.lost]
theorem sectorsBad_same (n k : Nat) : sectorsBad t n k = sectorsBad s n k := by
  simp only [sectorsBad]; congr 1; exact funext (sectorBad_same h)
theorem indexRecord_same (p n : Nat) : indexRecord t p n = indexRecord s p n := by
  simp [indexRecord, sectorsBytes_same h, sectorsBad_same h]
theorem readMap_same (p : Nat) : readMap t p = readMap s p := by simp [readMap, indexRecord_same h]
theorem readNode_same (p : Nat) : readNode t p = readNode s p := by simp [readNode, indexRecord_same h]
theorem walkIndex_same (key n pos gen : Nat) : walkIndex t key n pos gen = walkIndex s key n pos gen := by
  induction n generalizing pos gen with
  | zero => simp [walkIndex, readMap_same h]
  | succ n ih => simp [walkIndex, readNode_same h, ih]
theorem underRoot_same (root key : Nat) : underRoot t root key = underRoot s root key := walkIndex_same h ..
theorem rootEntry_same (asid : Nat) : rootEntry t asid = rootEntry s asid := by simp [rootEntry, h.fixed, h.boot]
theorem storedSector_same (ck pos key : Nat) : storedSector t ck pos key = storedSector s ck pos key := by
  simp [storedSector, sectorBytes_same h, sectorBad_same h, sectorsBytes_same h, sectorsBad_same h]
theorem foundSector_same (f : Found) (key : Nat) : foundSector t f key = foundSector s f key := by
  cases f <;> simp [foundSector, storedSector_same h]
theorem indexFind_same (d asid sub : Nat) : indexFind t d asid sub = indexFind s d asid sub := by
  simp only [indexFind, refillStart, nodeAt, h.maps, h.nodes, rootEntry_same h, walkIndex_same h, readMap_same h]
theorem publishedSector_same (asid key : Nat) : publishedSector t asid key = publishedSector s asid key := by
  simp only [publishedSector, rootEntry_same h, underRoot_same h, foundSector_same h]
theorem walkFrom_same (m va tbl n : Nat) : walkFrom t m va tbl n = walkFrom s m va tbl n := by
  induction n generalizing tbl with
  | zero => simp only [walkFrom, fixedWord, h.fixed]; rfl
  | succ n ih => simp only [walkFrom, fixedWord, fixedSize, h.fixed, h.boot, ih]; rfl
theorem walkPage_same (asid va : Nat) : walkPage t asid va = walkPage s asid va := by
  have e : astEntry t asid = astEntry s asid := by simp only [astEntry, h.fixed, h.boot]
  simp only [walkPage, e, walkFrom_same h]
theorem translateNow_same (a : Access) (va n : Nat) : translateNow t a va n = translateNow s a va n := by
  simp only [translateNow, walkPage_same h]
end

/-- What a read of a sector takes from the entries of a tail buffer. -/
def tailView (w : Writer) (asid key : Nat) : List (BitVec 256 × BitVec 32 × Bool × BitVec 256) :=
  (w.tail.filter (fun t => t.asid = asid && t.key = key)).map (fun t => (t.data, t.mask, t.poison, t.thin))

theorem overTail_eq {a b : TailEntry} (h : (a.data, a.mask, a.poison, a.thin) = (b.data, b.mask, b.poison, b.thin)) : overTail a = overTail b := by
  simp only [Prod.mk.injEq] at h
  funext r
  simp [overTail, h.1, h.2.1, h.2.2.1, h.2.2.2]

/-- The sector that a list of tail entries gives over a base. -/
def tailOver (base : SectorRead) : List TailEntry → SectorRead
  | [] => base
  | ts =>
    match ts.reverse with
    | [] => base
    | t :: older => if t.whole then { data := sectorList t.data, bad := false, gen := 0 }
      else overTail t (older.foldr overTail base)

theorem readSector_tailOver (s : State) (wid die asid key : Nat) : readSector s wid die asid key =
    tailOver (baseSector s wid die asid key) ((writerAt s wid).tail.filter (fun t => t.asid = asid && t.key = key)) := by
  unfold readSector
  cases (writerAt s wid).tail.filter (fun t => t.asid = asid && t.key = key) <;> rfl

theorem foldr_overTail_eq (b : SectorRead) : ∀ l m : List TailEntry,
    l.map (fun t => (t.data, t.mask, t.poison, t.thin)) = m.map (fun t => (t.data, t.mask, t.poison, t.thin)) →
    l.foldr overTail b = m.foldr overTail b
  | [], [], _ => rfl
  | [], _ :: _, h => by simp at h
  | _ :: _, [], h => by simp at h
  | x :: l, y :: m, h => by
    simp only [List.map_cons, List.cons.injEq] at h
    simp [foldr_overTail_eq b l m h.2, overTail_eq h.1]

theorem tailOver_eq (b : SectorRead) {l m : List TailEntry}
    (h : l.map (fun t => (t.data, t.mask, t.poison, t.thin)) = m.map (fun t => (t.data, t.mask, t.poison, t.thin))) : tailOver b l = tailOver b m := by
  have r : l.reverse.map (fun t => (t.data, t.mask, t.poison, t.thin)) = m.reverse.map (fun t => (t.data, t.mask, t.poison, t.thin)) := by
    rw [List.map_reverse, List.map_reverse, h]
  have hl : l.length = m.length := by simpa using congrArg List.length h
  have hr : l.reverse.length = m.reverse.length := by simp [hl]
  cases l with
  | nil => cases m with
    | nil => rfl
    | cons => simp at hl
  | cons a l => cases m with
    | nil => simp at hl
    | cons c m =>
      simp only [tailOver]
      generalize (a :: l).reverse = p at r hr
      generalize (c :: m).reverse = q at r hr
      cases p with
      | nil => cases q with
        | nil => rfl
        | cons => simp at hr
      | cons x p => cases q with
        | nil => simp at hr
        | cons y q =>
          simp only [List.map_cons, List.cons.injEq] at r
          have e := r.1
          simp only [Prod.mk.injEq] at e
          simp [TailEntry.whole, e.1, e.2.1, e.2.2.1, e.2.2.2, overTail_eq r.1, foldr_overTail_eq b p q r.2]

/-- A sector reads the same where the store, the positions held and the tail entries of its key agree (R290). -/
theorem readSector_same {s t : State} (h : SameStore s t) {wid asid key : Nat} (die : Nat)
    (hp : (writerAt t wid).pend = (writerAt s wid).pend) (hq : (writerAt t wid).pubs = (writerAt s wid).pubs)
    (hv : tailView (writerAt t wid) asid key = tailView (writerAt s wid) asid key) :
    readSector t wid die asid key = readSector s wid die asid key := by
  have b : baseSector t wid die asid key = baseSector s wid die asid key := by
    simp only [baseSector, heldPos, hp, hq, storedSector_same h, indexFind_same h, foundSector_same h]
  rw [readSector_tailOver, readSector_tailOver, b]
  exact tailOver_eq _ hv

/-- What a write of a sector into a writer's tail leaves: the store, every writer's records, and what reads of other sectors
take from tails. -/
structure StoredTail (s t : State) (wid asid key : Nat) : Prop where
  same : SameStore s t
  pend : ∀ w, (writerAt t w).pend = (writerAt s w).pend
  pubs : ∀ w, (writerAt t w).pubs = (writerAt s w).pubs
  view : ∀ w a k, (w, a, k) ≠ (wid, asid, key) → tailView (writerAt t w) a k = tailView (writerAt s w) a k
  cores : t.cores = s.cores
  gangs : t.gangs = s.gangs
  size : ∀ w, (writerAt t w).tail.length ≤ (writerAt s w).tail.length + 1

theorem setOwn_maps (s : State) (e : OwnEntry) (d : Nat) : (dieAt (setOwn s e) d).maps = (dieAt s d).maps := by
  unfold setOwn
  by_cases h : homeDie e.asid e.lpn = d
  · subst h; simp
  · simp [h]

theorem setOwn_nodes (s : State) (e : OwnEntry) (d : Nat) : (dieAt (setOwn s e) d).nodes = (dieAt s d).nodes := by
  unfold setOwn
  by_cases h : homeDie e.asid e.lpn = d
  · subst h; simp
  · simp [h]
theorem setOwn_same (s : State) (e : OwnEntry) : SameStore s (setOwn s e) :=
  ⟨rfl, rfl, rfl, rfl, rfl, rfl, setOwn_maps s e, setOwn_nodes s e⟩
theorem setWriter_same (s : State) (w : Nat) (x : Writer) : SameStore s (setWriter s w x) :=
  ⟨rfl, rfl, rfl, rfl, rfl, rfl, fun _ => rfl, fun _ => rfl⟩
theorem giveSub_same (s : State) (asid sub wid : Nat) : SameStore s (giveSub s asid sub wid) := setOwn_same _ _

/-- What a change of ownership, of requests and of tail states keeps: the store, the cores and gangs, every writer's records and
what reads take from its tail. -/
structure SameReads (s t : State) : Prop where
  same : SameStore s t
  cores : t.cores = s.cores
  gangs : t.gangs = s.gangs
  pend : ∀ w, (writerAt t w).pend = (writerAt s w).pend
  pubs : ∀ w, (writerAt t w).pubs = (writerAt s w).pubs
  view : ∀ w a k, tailView (writerAt t w) a k = tailView (writerAt s w) a k
  size : ∀ w, (writerAt t w).tail.length = (writerAt s w).tail.length

theorem SameReads.refl (s : State) : SameReads s s :=
  ⟨SameStore.refl s, rfl, rfl, fun _ => rfl, fun _ => rfl, fun _ _ _ => rfl, fun _ => rfl⟩
theorem SameReads.trans {s t u : State} (h : SameReads s t) (k : SameReads t u) : SameReads s u :=
  ⟨h.same.trans k.same, k.cores.trans h.cores, k.gangs.trans h.gangs, fun w => (k.pend w).trans (h.pend w),
    fun w => (k.pubs w).trans (h.pubs w), fun w a b => (k.view w a b).trans (h.view w a b),
    fun w => (k.size w).trans (h.size w)⟩

/-- Entries of a tail changed one by one in fields that reads of a sector do not take. -/
theorem tailView_map (w : Writer) (f : TailEntry → TailEntry) (a k : Nat)
    (hk : ∀ t ∈ w.tail, (f t).asid = t.asid ∧ (f t).key = t.key)
    (hd : ∀ t ∈ w.tail, t.asid = a → t.key = k →
      ((f t).data, (f t).mask, (f t).poison, (f t).thin) = (t.data, t.mask, t.poison, t.thin)) :
    tailView { w with tail := w.tail.map f } a k = tailView w a k := by
  simp only [tailView]
  generalize w.tail = l at hk hd
  induction l with
  | nil => rfl
  | cons x l ih =>
    have hx := hk x List.mem_cons_self
    have hl := ih (fun t ht => hk t (List.mem_cons_of_mem x ht)) (fun t ht => hd t (List.mem_cons_of_mem x ht))
    by_cases h : x.asid = a ∧ x.key = k
    · simp [hx.1, hx.2, h.1, h.2, hd x List.mem_cons_self h.1 h.2, hl, -Prod.mk.injEq]
    · have n : (decide (x.asid = a) && decide (x.key = k)) = false := by
        simpa only [Bool.and_eq_false_iff, decide_eq_false_iff_not, ← not_and_or] using h
      simp [hx.1, hx.2, n, hl]

/-- A writer replaced by one with the same records and the same tail data. -/
theorem setWriter_reads {s : State} {o : Nat} {x : Writer} (hp : x.pend = (writerAt s o).pend) (hq : x.pubs = (writerAt s o).pubs)
    (hv : ∀ a k, tailView x a k = tailView (writerAt s o) a k) (hs : x.tail.length = (writerAt s o).tail.length) :
    SameReads s (setWriter s o x) := by
  refine ⟨setWriter_same _ _ _, rfl, rfl, fun w => ?_, fun w => ?_, fun w a k => ?_, fun w => ?_⟩ <;>
    by_cases h : o = w
  · subst h; simp [hp]
  · simp [h]
  · subst h; simp [hq]
  · simp [h]
  · subst h; simp [hv]
  · simp [h]
  · subst h; simp [hs]
  · simp [h]

theorem setOwn_reads (s : State) (e : OwnEntry) : SameReads s (setOwn s e) :=
  ⟨setOwn_same _ _, rfl, rfl, fun _ => rfl, fun _ => rfl, fun _ _ _ => rfl, fun _ => rfl⟩
theorem giveSub_reads (s : State) (asid sub wid : Nat) : SameReads s (giveSub s asid sub wid) := setOwn_reads _ _
theorem wantFrom_reads (s : State) (wid asid : Nat) : SameReads s (wantFrom s wid asid) := by
  unfold wantFrom
  dsimp only
  split
  · exact SameReads.refl s
  · exact setWriter_reads rfl rfl (fun _ _ => rfl) rfl

/-- A die's queue of ownership requests holds nothing that a read takes. -/
theorem setOwnq_reads (s : State) (d : Nat) (q : List OwnReq) : SameReads s (setDie s d { dieAt s d with ownq := q }) := by
  refine ⟨⟨rfl, rfl, rfl, rfl, rfl, rfl, fun c => ?_, fun c => ?_⟩, rfl, rfl, fun _ => rfl, fun _ => rfl, fun _ _ _ => rfl,
    fun _ => rfl⟩ <;>
    by_cases h : d = c
  · subst h; simp
  · simp [h]
  · subst h; simp
  · simp [h]

theorem reopenRequests_reads (s : State) (asid sub wid : Nat) : SameReads s (reopenRequests s asid sub wid) := by
  unfold reopenRequests
  dsimp only
  split
  · exact (setOwnq_reads _ _ _).trans (wantFrom_reads _ _ _)
  · exact SameReads.refl s

theorem requestSub_reads (s : State) (wid asid sub : Nat) : SameReads s (requestSub s wid asid sub) := by
  unfold requestSub
  split
  · exact SameReads.refl s
  · dsimp only
    split
    · exact setOwnq_reads _ _ _
    · exact (setOwnq_reads _ _ _).trans (wantFrom_reads _ _ _)

/-- A claim changes ownership and requests and, for an atomic unit, whether the old owner's entries wait (R304, R307). -/
theorem claim_reads (s : State) (wid asid sub : Nat) : SameReads s (claim s wid asid sub).2 := by
  unfold claim
  dsimp only
  split
  · exact SameReads.refl s
  split
  · exact setOwn_reads _ _
  split
  · exact giveSub_reads _ _ _ _
  rename_i o _
  split
  · exact SameReads.refl s
  split
  · have h := setWriter_reads (s := s) (o := o)
      (x := { writerAt s o with tail := (writerAt s o).tail.map (fun t =>
        if t.asid = asid && t.key / 128 = sub then { t with st := .wait } else t) }) rfl rfl
      (fun a k => tailView_map _ _ _ _ (fun t _ => by split <;> exact ⟨rfl, rfl⟩)
        (fun t _ _ _ => by split <;> rfl)) (by simp)
    have h2 := h.trans (giveSub_reads _ asid sub wid)
    exact h2.trans (reopenRequests_reads _ asid sub wid)
  · exact SameReads.refl s

theorem tailWrite_spec {s t : State} {wid asid key off ck : Nat} {l bm : List Byte}
    (h : tailWrite s wid asid key off ck l bm = some t) : StoredTail s t wid asid key := by
  unfold tailWrite at h
  set s' : State := { s with migs := s.migs.map (fun j =>
    if j.asid = asid && j.lpn = key / 2048 then { j with dirty := nodup (key % 2048 :: j.dirty) } else j) } with hs'
  have h0 : SameReads s s' :=
    ⟨⟨rfl, rfl, rfl, rfl, rfl, rfl, fun _ => rfl, fun _ => rfl⟩, rfl, rfl, fun _ => rfl, fun _ => rfl, fun _ _ _ => rfl,
      fun _ => rfl⟩
  -- the writer's tail takes the entry in a state that reads as before
  have lay (u : State) (hu : SameReads s u) (x : Writer) (hp : x.pend = (writerAt u wid).pend) (hq : x.pubs = (writerAt u wid).pubs)
      (hv : ∀ a k, (asid, key) ≠ (a, k) → tailView x a k = tailView (writerAt u wid) a k)
      (hs : x.tail.length ≤ (writerAt u wid).tail.length + 1) : StoredTail s (setWriter u wid x) wid asid key := by
    refine ⟨hu.same.trans (setWriter_same _ _ _), fun w => ?_, fun w => ?_, fun w a k hne => ?_, hu.cores, hu.gangs,
      fun w => ?_⟩ <;>
      by_cases c : wid = w
    · subst c; simp [hp, hu.pend]
    · simp [c, hu.pend]
    · subst c; simp [hq, hu.pubs]
    · simp [c, hu.pubs]
    · subst c
      rw [writerAt_setWriter, hv a k (fun q => hne (by rw [q])), hu.view]
    · simp [c, hu.view]
    · subst c; rw [writerAt_setWriter, ← hu.size]; exact hs
    · simp [c, hu.size]
  simp only at h
  split at h
  · rename_i e he
    have hk : e.asid = asid ∧ e.key = key := by
      have := List.find?_some he
      simp only [Bool.and_eq_true, decide_eq_true_eq] at this
      exact ⟨this.1.1, this.1.2⟩
    generalize hc : (if (e.st = TailState.wait && atomicWriter wid) = true then claim s' wid asid (key / 128) else (false, s')) = c at h
    have hu : SameReads s c.2 := by
      rw [← hc]; split
      · exact h0.trans (claim_reads _ _ _ _)
      · exact h0
    simp only [Option.some.injEq] at h
    subst h
    refine lay _ hu _ rfl rfl (fun a k hn => ?_) (by simp)
    refine tailView_map _ _ _ _ (fun t _ => ?_) (fun t _ ha hb => ?_) <;> split
    · rename_i q; rw [q]; exact ⟨rfl, rfl⟩
    · exact ⟨rfl, rfl⟩
    · rename_i q; subst q; exact absurd (by rw [← hk.1, ← hk.2, ha, hb]) hn
    · rfl
  · split at h
    · simp at h
    · generalize hc : claim s' wid asid (key / 128) = c at h
      have hu : SameReads s (if c.1 = true then c.2 else requestSub c.2 wid asid (key / 128)) := by
        have k : SameReads s c.2 := h0.trans (hc ▸ claim_reads _ _ _ _)
        split
        · exact k
        · exact k.trans (requestSub_reads _ _ _ _)
      simp only [Option.some.injEq] at h
      subst h
      refine lay _ hu _ rfl rfl (fun a k hn => ?_) (by simp)
      have q : (decide (asid = a) && decide (key = k)) = false := by
        by_contra q
        simp only [Bool.not_eq_false, Bool.and_eq_true, decide_eq_true_eq] at q
        exact hn (by rw [q.1, q.2])
      simp [tailView, List.filter_append, q]

/-- A write into a tail that is not full is made (R289). -/
theorem tailWrite_room (s : State) (wid asid key off ck : Nat) (l bm : List Byte) (h : (writerAt s wid).tail.length < 65536) :
    ∃ t, tailWrite s wid asid key off ck l bm = some t := by
  unfold tailWrite
  simp only
  split
  · exact ⟨_, rfl⟩
  · split
    · rename_i k; exact absurd h (Nat.not_lt.mpr k)
    · exact ⟨_, rfl⟩

/-- A store into a tail leaves every other sector as it reads, for every writer and die (R289, R290). -/
theorem readSector_tailWrite {s t : State} {wid asid key off ck : Nat} {l bm : List Byte}
    (h : tailWrite s wid asid key off ck l bm = some t) {w a k : Nat} (d : Nat) (hne : (w, a, k) ≠ (wid, asid, key)) :
    readSector t w d a k = readSector s w d a k :=
  let e := tailWrite_spec h
  readSector_same e.same d (e.pend w) (e.pubs w) (e.view w a k hne)

/-- No core holds a line of log memory. -/
def NoLines (s : State) : Prop := ∀ c, (coreAt s c).l1 = []

/-- Keeping a leaf changes no sector (R329). -/
theorem readSector_keepLeaf (s : State) (wid asid vpn : Nat) (l : DWord) (w d a k : Nat) :
    readSector (keepLeaf s wid asid vpn l) w d a k = readSector s w d a k := by
  have e : SameStore s (keepLeaf s wid asid vpn l) := by
    unfold keepLeaf; dsimp only; split
    · exact SameStore.refl s
    · exact setWriter_same _ _ _
  have f : (writerAt (keepLeaf s wid asid vpn l) w).pend = (writerAt s w).pend ∧
      (writerAt (keepLeaf s wid asid vpn l) w).pubs = (writerAt s w).pubs ∧
      (writerAt (keepLeaf s wid asid vpn l) w).tail = (writerAt s w).tail := by
    unfold keepLeaf; dsimp only; split
    · exact ⟨rfl, rfl, rfl⟩
    · by_cases c : wid = w
      · subst c; simp
      · simp [c]
  exact readSector_same e d f.1 f.2.1 (by simp only [tailView, f.2.2])

theorem keepLeaf_cores (s : State) (wid asid vpn : Nat) (l : DWord) : (keepLeaf s wid asid vpn l).cores = s.cores := by
  unfold keepLeaf; dsimp only; split <;> rfl
theorem keepLeaf_same (s : State) (wid asid vpn : Nat) (l : DWord) : SameStore s (keepLeaf s wid asid vpn l) := by
  unfold keepLeaf; dsimp only; split
  · exact SameStore.refl s
  · exact setWriter_same _ _ _

theorem tfind_tmap_l1 (t : Tbl Core) (c : Nat) (f : Nat → Core → Core) (hf : ∀ n k, k.l1 = [] → (f n k).l1 = [])
    (h : (tget t c {}).l1 = []) : (tget (tmap f t) c {}).l1 = [] := by
  unfold tget at *
  rw [tfind_tmap]
  cases e : tfind t c with
  | none => rfl
  | some k => rw [e] at h; exact hf _ _ h

theorem l1Purge_noLines {s : State} (die : Nat) (p : L1Line → Bool) (h : NoLines s) : NoLines (l1Purge s die p) := by
  intro c
  unfold l1Purge coreAt
  exact tfind_tmap_l1 s.cores c (fun c k => if c / 64 = die then { k with l1 := k.l1.filter (fun e => !p e) } else k)
    (fun n k hk => by split <;> simp [hk]) (h c)

/-- Synonyms leave L1s only (R331). -/
theorem dropSynonyms_spec (s : State) (die asid : Nat) (l : DWord) (va : Nat) (h : NoLines s) :
    NoLines (dropSynonyms s die asid l va) ∧ SameStore s (dropSynonyms s die asid l va) ∧
      (dropSynonyms s die asid l va).writers = s.writers := by
  unfold dropSynonyms
  dsimp only
  split
  · split
    · exact ⟨h, SameStore.refl s, rfl⟩
    · refine ⟨fun c => ?_, ⟨rfl, rfl, rfl, rfl, rfl, rfl, fun d => ?_, fun d => ?_⟩, rfl⟩
      · exact l1Purge_noLines die _ h c
      all_goals
        rename_i e _ _ _
        by_cases q : die = d
        · subst q; simp only [dieAt_setDie]; rfl
        · simp only [dieAt_setDie_ne _ _ _ q]; rfl
  · exact ⟨h, SameStore.refl s, rfl⟩

theorem updateL1_noLines (s : State) (core asid va : Nat) (l : List Byte) (h : NoLines s) : updateL1 s core asid va l = s := by
  unfold updateL1
  simp [h core]

/-- A sector stored by `storeBytes`: its step leaves every other sector as it reads. -/
theorem storeBytes_step {s t : State} {core wid asid : Nat} {ls : List (Nat × DWord)} {va : Nat} {l bm : List Byte} (as : List Nat)
    (h : as.foldl (fun acc a =>
      match acc with
      | none => none
      | some s =>
        let leaf := leafIn ls a
        let s := keepLeaf s wid asid (vpnOf a) leaf
        let (off, part) := sectorPart va l a
        match tailWrite s wid asid (keyOf leaf a) off (leafCk leaf) part (sectorPart va bm a).2 with
        | none => none
        | some s =>
          let s := dropSynonyms s (dieOf core) asid leaf a
          some (updateL1 s core asid (a + off) part)) (some s) = some t) (hl : NoLines s) :
    NoLines t ∧ SameStore s t ∧ ∀ w d a k, (∀ x ∈ as, (w, a, k) ≠ (wid, asid, keyOf (leafIn ls x) x)) →
      readSector t w d a k = readSector s w d a k := by
  induction as generalizing s with
  | nil =>
    simp only [List.foldl_nil, Option.some.injEq] at h
    subst h
    exact ⟨hl, SameStore.refl _, fun _ _ _ _ _ => rfl⟩
  | cons x as ih =>
    simp only [List.foldl_cons] at h
    cases e : tailWrite (keepLeaf s wid asid (vpnOf x) (leafIn ls x)) wid asid (keyOf (leafIn ls x) x) (sectorPart va l x).1
        (leafCk (leafIn ls x)) (sectorPart va l x).2 (sectorPart va bm x).2 with
    | none =>
      simp only [e] at h
      have : ∀ as : List Nat, as.foldl (fun acc a =>
          match acc with
          | none => none
          | some s =>
            let leaf := leafIn ls a
            let s := keepLeaf s wid asid (vpnOf a) leaf
            let (off, part) := sectorPart va l a
            match tailWrite s wid asid (keyOf leaf a) off (leafCk leaf) part (sectorPart va bm a).2 with
            | none => none
            | some s =>
              let s := dropSynonyms s (dieOf core) asid leaf a
              some (updateL1 s core asid (a + off) part)) (none : Option State) = none := by
        intro as; induction as with
        | nil => rfl
        | cons y as ih => exact ih
      rw [this] at h
      exact absurd h (by simp)
    | some u =>
      simp only [e] at h
      have sp := tailWrite_spec e
      have ku : NoLines u := fun c => by
        have : coreAt u c = coreAt s c := by simp only [coreAt, sp.cores, keepLeaf_cores]
        rw [this]; exact hl c
      obtain ⟨d1, d2, d3⟩ := dropSynonyms_spec u (dieOf core) asid (leafIn ls x) x ku
      rw [updateL1_noLines _ _ _ _ _ d1] at h
      obtain ⟨a1, a2, a3⟩ := ih h d1
      refine ⟨a1, ((keepLeaf_same _ _ _ _ _).trans sp.same).trans (d2.trans a2), fun w d a k hne => ?_⟩
      have wr : ∀ v, writerAt (dropSynonyms u (dieOf core) asid (leafIn ls x) x) v = writerAt u v := fun v => by
        simp only [writerAt, d3]
      rw [a3 w d a k (fun y hy => hne y (by simp [hy])),
        readSector_same d2 d (by rw [wr]) (by rw [wr]) (by rw [wr]),
        readSector_tailWrite e d (hne x (by simp)), readSector_keepLeaf]

/-- A store of bytes leaves every sector that it does not reach as it reads, while no core holds lines (R289, R290). -/
theorem storeBytes_spec {s t : State} {core wid asid : Nat} {ls : List (Nat × DWord)} {va : Nat} {l bm : List Byte}
    (h : storeBytes s core wid asid ls va l bm = some t) (hl : NoLines s) :
    NoLines t ∧ SameStore s t ∧ ∀ w d a k, (∀ x ∈ sectorsOf va l.length, (w, a, k) ≠ (wid, asid, keyOf (leafIn ls x) x)) →
      readSector t w d a k = readSector s w d a k := storeBytes_step _ h hl

/-- Bytes stored while the tail has room for their sectors: the store is made, and a sector takes one place at most (R289). -/
theorem storeBytes_room {core wid asid : Nat} {ls : List (Nat × DWord)} {va : Nat} {l bm : List Byte} (s : State) (hl : NoLines s)
    (h : (writerAt s wid).tail.length + (sectorsOf va l.length).length ≤ 65536) :
    ∃ t, storeBytes s core wid asid ls va l bm = some t ∧
      (writerAt t wid).tail.length ≤ (writerAt s wid).tail.length + (sectorsOf va l.length).length := by
  unfold storeBytes
  generalize sectorsOf va l.length = as at h
  induction as generalizing s with
  | nil => exact ⟨s, rfl, Nat.le_refl _⟩
  | cons x as ih =>
    have k1 : (writerAt (keepLeaf s wid asid (vpnOf x) (leafIn ls x)) wid).tail.length = (writerAt s wid).tail.length := by
      unfold keepLeaf; dsimp only; split <;> simp
    simp only [List.length_cons] at h
    obtain ⟨u, e⟩ := tailWrite_room (keepLeaf s wid asid (vpnOf x) (leafIn ls x)) wid asid (keyOf (leafIn ls x) x)
      (sectorPart va l x).1 (leafCk (leafIn ls x)) (sectorPart va l x).2 (sectorPart va bm x).2 (by omega)
    have sp := tailWrite_spec e
    have ku : NoLines u := fun c => by
      have : coreAt u c = coreAt s c := by simp only [coreAt, sp.cores, keepLeaf_cores]
      rw [this]; exact hl c
    obtain ⟨d1, -, d3⟩ := dropSynonyms_spec u (dieOf core) asid (leafIn ls x) x ku
    have wr : writerAt (dropSynonyms u (dieOf core) asid (leafIn ls x) x) wid = writerAt u wid := by simp only [writerAt, d3]
    have sz := sp.size wid
    obtain ⟨t, ht, hs⟩ := ih (dropSynonyms u (dieOf core) asid (leafIn ls x) x) d1 (by rw [wr]; omega)
    refine ⟨t, ?_, by rw [wr] at hs; simp only [List.length_cons]; omega⟩
    simp only [List.foldl_cons, e, updateL1_noLines _ _ _ _ _ d1]
    exact ht

/-- A store of the machine's own into log memory succeeds where its pages translate and the tail has room for its sectors; the
tables, the cores' empty L1s and the store stay, and the tail takes a place a sector at most (R264, R289). -/
theorem storeNow_room {s : State} {core asid va : Nat} {l : List Byte} {ls : List (Nat × DWord)} (hl : NoLines s)
    (w : translateNow s { asid, level := .supervisor, write := true } va l.length = .ok ls)
    (h : (writerAt s (clusterOf core)).tail.length + (sectorsOf va l.length).length ≤ 65536) :
    ∃ t, storeNow s core asid va l = .ok (some t) ∧ NoLines t ∧ SameStore s t ∧
      (writerAt t (clusterOf core)).tail.length ≤ (writerAt s (clusterOf core)).tail.length + (sectorsOf va l.length).length := by
  obtain ⟨t, e, hs⟩ := storeBytes_room (core := core) (asid := asid) (ls := ls) (bm := []) s hl h
  obtain ⟨a, b, -⟩ := storeBytes_spec e hl
  exact ⟨t, by unfold storeNow; rw [w]; simp only [e], a, b, hs⟩

/-- A load finds in `t` what it finds in `s` where their sectors read the same and no core holds lines. -/
theorem loadBytes_same {s t : State} {core asid : Nat} {ls : List (Nat × DWord)} {va n : Nat} (hs : NoLines s) (ht : NoLines t)
    (h : ∀ x ∈ sectorsOf va n, readSector t (clusterOf core) (dieOf core) asid (keyOf (leafIn ls x) x) =
      readSector s (clusterOf core) (dieOf core) asid (keyOf (leafIn ls x) x)) :
    loadBytes t core asid ls va n = loadBytes s core asid ls va n := by
  have e : (sectorsOf va n).map (fun a => loadSector t core asid (leafIn ls a) a) =
      (sectorsOf va n).map (fun a => loadSector s core asid (leafIn ls a) a) := by
    refine List.map_congr_left (fun x hx => ?_)
    simp [loadSector, l1Find, hs core, ht core, h x hx]
  simp only [loadBytes, e]

/-- A delivery's read after its store finds what stood there before, where their sectors differ (R264, R266). -/
theorem loadNow_storeNow {s u : State} {core asid va : Nat} {l : List Byte} {ls ls2 : List (Nat × DWord)} {a : Access} {va2 n : Nat}
    (h : storeNow s core asid va l = .ok (some u)) (hl : NoLines s)
    (w : translateNow s { asid, level := .supervisor, write := true } va l.length = .ok ls) (r : translateNow s a va2 n = .ok ls2)
    (k : ∀ x ∈ sectorsOf va2 n, ∀ y ∈ sectorsOf va l.length, keyOf (leafIn ls2 x) x ≠ keyOf (leafIn ls y) y) :
    loadNow u core asid a va2 n = loadNow s core asid a va2 n := by
  unfold storeNow at h
  rw [w] at h
  simp only [Except.ok.injEq] at h
  obtain ⟨c1, c2, c3⟩ := storeBytes_spec h hl
  unfold loadNow
  rw [translateNow_same c2, r]
  simp only
  rw [loadBytes_same hl c1 (fun x hx => c3 _ _ _ _ (fun y hy e => k x hx y hy (by
    simp only [Prod.mk.injEq] at e; exact e.2.2)))]

end Sys2Proof.Machine
end

