-- ==== Sys2Proof/Tests/Slice0.lean ====
section
/-!
SUPPORT. The model's own tests: ill-formed terms that `Instr.wf` refuses, words written out from the encoding tables, single
steps on small states, and for each statement a concrete state and operands that meet its hypotheses together.
-/
namespace Sys2Proof
open Sys2Proof.Machine

-- The witnesses are checked one after another: side by side they need more threads than memory has stacks for.
set_option Elab.async false

/-- Words of the integer rows, laid out by hand from the bit positions of R72 and the opcode map R85, R86. -/
theorem test_words_integer :
  decodeWords [0x00050C1C] = some (.add ⟨false, false, false, false, 5, 6, 7, 0⟩, []) ∧
  decodeWords [0x00850C1C] = some (.sub ⟨false, false, false, false, 5, 6, 7, 0⟩, []) ∧
  decodeWords [0x01050C1C] = some (.mul ⟨false, false, false, false, 5, 6, 7, 0⟩, []) ∧
  decodeWords [0x01850C1C] = some (.mulhiI ⟨false, false, false, false, 5, 6, 7, 0⟩, []) ∧
  decodeWords [0x02050C1C] = some (.mulhiN ⟨false, false, false, false, 5, 6, 7, 0⟩, []) ∧
  decodeWords [0x02850C1C] = some (.mad ⟨false, false, false, false, 5, 6, 7, 0⟩, []) ∧
  decodeWords [0x03050C1C] = some (.minI ⟨false, false, false, false, 5, 6, 7, 0⟩, []) ∧
  decodeWords [0x03850C1C] = some (.maxI ⟨false, false, false, false, 5, 6, 7, 0⟩, []) ∧
  decodeWords [0x04050C1C] = some (.minN ⟨false, false, false, false, 5, 6, 7, 0⟩, []) ∧
  decodeWords [0x04850C1C] = some (.maxN ⟨false, false, false, false, 5, 6, 7, 0⟩, []) ∧
  decodeWords [0x05050C1C] = some (.and ⟨false, false, false, false, 5, 6, 7, 0⟩, []) ∧
  decodeWords [0x05850C1C] = some (.or ⟨false, false, false, false, 5, 6, 7, 0⟩, []) ∧
  decodeWords [0x06050C1C] = some (.xor ⟨false, false, false, false, 5, 6, 7, 0⟩, []) ∧
  decodeWords [0x06850C1C] = some (.andn ⟨false, false, false, false, 5, 6, 7, 0⟩, []) ∧
  decodeWords [0x07050C1C] = some (.shl ⟨false, false, false, false, 5, 6, 7, 0⟩, []) ∧
  decodeWords [0x07850C1C] = some (.shr ⟨false, false, false, false, 5, 6, 7, 0⟩, []) ∧
  decodeWords [0x08050C1C] = some (.sar ⟨false, false, false, false, 5, 6, 7, 0⟩, []) ∧
  decodeWords [0x08850C1C] = some (.rol ⟨false, false, false, false, 5, 6, 7, 0⟩, []) := by and_intros <;> rfl

/-- Words of the bits rows, laid out by hand from the bit positions of R72 and the opcode map R85, R86. -/
theorem test_words_bits :
  decodeWords [0x4978F803, 0x000003FF] = some (.clz ⟨false, true, true, true, 120, 124, 0x3FF⟩, []) ∧
  decodeWords [0x49F8F803, 0x000003FF] = some (.popc ⟨false, true, true, true, 120, 124, 0x3FF⟩, []) ∧
  decodeWords [0x4A78F803, 0x000003FF] = some (.brev ⟨false, true, true, true, 120, 124, 0x3FF⟩, []) ∧
  decodeWords [0x0A850C1C] = some (.bfx ⟨false, false, false, false, 5, 6, 7, 0⟩, []) ∧
  decodeWords [0x0B050C1C] = some (.bfi ⟨false, false, false, false, 5, 6, 7, 0⟩, []) ∧
  decodeWords [0x0B850C1C] = some (.fsh ⟨false, false, false, false, 5, 6, 7, 0⟩, []) ∧
  decodeWords [0x0C050C1D, 0x0000000A] = some (.sel ⟨false, false, false, 5, 6, 7, 0xA⟩, []) ∧
  decodeWords [0x4CF8F803, 0x000003FF] = some (.abs ⟨false, true, true, true, 120, 124, 0x3FF⟩, []) ∧
  decodeWords [0x4D78F803, 0x000003FF] = some (.neg ⟨false, true, true, true, 120, 124, 0x3FF⟩, []) ∧
  decodeWords [0x0D850C1C] = some (.divN ⟨false, false, false, false, 5, 6, 7, 0⟩, []) ∧
  decodeWords [0x0E050C1C] = some (.remN ⟨false, false, false, false, 5, 6, 7, 0⟩, []) ∧
  decodeWords [0x0E850C1C] = some (.divI ⟨false, false, false, false, 5, 6, 7, 0⟩, []) ∧
  decodeWords [0x0F050C1C] = some (.remI ⟨false, false, false, false, 5, 6, 7, 0⟩, []) ∧
  decodeWords [0x4FF8F803, 0x000003FF] = some (.mov ⟨false, true, true, true, 120, 124, 0x3FF⟩, []) := by and_intros <;> rfl

/-- Words of the immediates rows, laid out by hand from the bit positions of R72 and the opcode map R85, R86. -/
theorem test_words_immediates :
  decodeWords [0x906FF73A] = some (.addi ⟨true, false, false, 111, 123, 0x9D⟩, []) ∧
  decodeWords [0x90EFF73A] = some (.andi ⟨true, false, false, 111, 123, 0x9D⟩, []) ∧
  decodeWords [0x916FF73A] = some (.ori ⟨true, false, false, 111, 123, 0x9D⟩, []) ∧
  decodeWords [0x91EFF73A] = some (.xori ⟨true, false, false, 111, 123, 0x9D⟩, []) ∧
  decodeWords [0x926FF73A] = some (.shli ⟨true, false, false, 111, 123, 0x9D⟩, []) ∧
  decodeWords [0x92EFF73A] = some (.shri ⟨true, false, false, 111, 123, 0x9D⟩, []) ∧
  decodeWords [0x936FF73A] = some (.sari ⟨true, false, false, 111, 123, 0x9D⟩, []) ∧
  decodeWords [0x138901FC] = some (.movi ⟨false, false, false, 9, 0xFE⟩, []) := by and_intros <;> rfl

/-- Words of the compares rows, laid out by hand from the bit positions of R72 and the opcode map R85, R86. -/
theorem test_words_compares :
  decodeWords [0x1424FA11, 0x0000000A] = some (.icmp ⟨false, false, 2, 2, false, 125, 4, false, true, 10⟩, []) ∧
  decodeWords [0x14CE1026] = some (.fcmp ⟨false, false, 4, 7, 8, 9, true, false, 0⟩, []) ∧
  decodeWords [0x15180228] = some (.cop ⟨false, false, 1, 4, false, 1, true, 2, false⟩, []) ∧
  decodeWords [0x1583E1F8] = some (.cset ⟨false, false, 3, 112, 126, false, 0⟩, []) ∧
  decodeWords [0x16050C1C] = some (.add64 ⟨false, false, false, false, 5, 6, 7, 0⟩, []) ∧
  decodeWords [0x16850C1C] = some (.sub64 ⟨false, false, false, false, 5, 6, 7, 0⟩, []) ∧
  decodeWords [0x17050C1C] = some (.lea ⟨false, false, false, false, 5, 6, 7, 0⟩, []) ∧
  decodeWords [0x17850C1C] = some (.cvt64 ⟨false, false, false, false, 5, 6, 7, 0⟩, []) ∧
  decodeWords [0x2E150C02] = some (.repq ⟨false, 1, 2, true, 6, true⟩, []) := by and_intros <;> rfl

/-- Words of the floats rows, laid out by hand from the bit positions of R72 and the opcode map R85, R86. -/
theorem test_words_floats :
  decodeWords [0x18050C1C] = some (.fadd ⟨false, false, false, false, 5, 6, 7, 0⟩, []) ∧
  decodeWords [0x18850C1C] = some (.fsub ⟨false, false, false, false, 5, 6, 7, 0⟩, []) ∧
  decodeWords [0x19050C1C] = some (.fmul ⟨false, false, false, false, 5, 6, 7, 0⟩, []) ∧
  decodeWords [0x19850C1C] = some (.ffma ⟨false, false, false, false, 5, 6, 7, 0⟩, []) ∧
  decodeWords [0x1A050C1C] = some (.fmin ⟨false, false, false, false, 5, 6, 7, 0⟩, []) ∧
  decodeWords [0x1A850C1C] = some (.fmax ⟨false, false, false, false, 5, 6, 7, 0⟩, []) ∧
  decodeWords [0x5B78F803, 0x000003FF] = some (.fabs ⟨false, true, true, true, 120, 124, 0x3FF⟩, []) ∧
  decodeWords [0x5BF8F803, 0x000003FF] = some (.fneg ⟨false, true, true, true, 120, 124, 0x3FF⟩, []) ∧
  decodeWords [0x5C78F803, 0x000003FF] = some (.fclass ⟨false, true, true, true, 120, 124, 0x3FF⟩, []) ∧
  decodeWords [0x1C850C1C] = some (.fscale ⟨false, false, false, false, 5, 6, 7, 0⟩, []) := by and_intros <;> rfl

/-- Words of the functions rows, laid out by hand from the bit positions of R72 and the opcode map R85, R86. -/
theorem test_words_functions :
  decodeWords [0x5D78F803, 0x000003FF] = some (.frcp ⟨false, true, true, true, 120, 124, 0x3FF⟩, []) ∧
  decodeWords [0x5DF8F803, 0x000003FF] = some (.frsq ⟨false, true, true, true, 120, 124, 0x3FF⟩, []) ∧
  decodeWords [0x5E78F803, 0x000003FF] = some (.fsqrt ⟨false, true, true, true, 120, 124, 0x3FF⟩, []) ∧
  decodeWords [0x5EF8F803, 0x000003FF] = some (.fex2 ⟨false, true, true, true, 120, 124, 0x3FF⟩, []) ∧
  decodeWords [0x5F78F803, 0x000003FF] = some (.flg2 ⟨false, true, true, true, 120, 124, 0x3FF⟩, []) ∧
  decodeWords [0x5FF8F803, 0x000003FF] = some (.fsin ⟨false, true, true, true, 120, 124, 0x3FF⟩, []) ∧
  decodeWords [0x6078F803, 0x000003FF] = some (.fcos ⟨false, true, true, true, 120, 124, 0x3FF⟩, []) ∧
  decodeWords [0x60F8F803, 0x000003FF] = some (.ftanh ⟨false, true, true, true, 120, 124, 0x3FF⟩, []) := by and_intros <;> rfl

/-- Words of the packed rows, laid out by hand from the bit positions of R72 and the opcode map R85, R86. -/
theorem test_words_packed :
  decodeWords [0x21050C1C] = some (.hadd2 ⟨false, false, false, false, 5, 6, 7, 0⟩, []) ∧
  decodeWords [0x21850C1C] = some (.hmul2 ⟨false, false, false, false, 5, 6, 7, 0⟩, []) ∧
  decodeWords [0x22050C1C] = some (.hfma2 ⟨false, false, false, false, 5, 6, 7, 0⟩, []) ∧
  decodeWords [0x22850C1C] = some (.hmin2 ⟨false, false, false, false, 5, 6, 7, 0⟩, []) ∧
  decodeWords [0x23050C1C] = some (.hmax2 ⟨false, false, false, false, 5, 6, 7, 0⟩, []) ∧
  decodeWords [0x23850C1C] = some (.hdot2 ⟨false, false, false, false, 5, 6, 7, 0⟩, []) ∧
  decodeWords [0x24050C1C] = some (.cmul ⟨false, false, false, false, 5, 6, 7, 0⟩, []) ∧
  decodeWords [0x24850C1C] = some (.cfma ⟨false, false, false, false, 5, 6, 7, 0⟩, []) := by and_intros <;> rfl

/-- Words of the conversions rows, laid out by hand from the bit positions of R72 and the opcode map R85, R86. -/
theorem test_words_conversions :
  decodeWords [0x25031001, 0x00000005] = some (.cvt ⟨false, false, false, 3, 8, 0x5⟩, []) ∧
  decodeWords [0x25850C1D, 0x0000000A] = some (.pkn ⟨false, false, false, 5, 6, 7, 0xA⟩, []) ∧
  decodeWords [0x26050C1D, 0x0000000A] = some (.unpk ⟨false, false, false, 5, 6, 7, 0xA⟩, []) ∧
  decodeWords [0x66F8F803, 0x000003FF] = some (.frnd ⟨false, true, true, true, 120, 124, 0x3FF⟩, []) ∧
  decodeWords [0x6778F803, 0x000003FF] = some (.f2i ⟨false, true, true, true, 120, 124, 0x3FF⟩, []) ∧
  decodeWords [0x67F8F803, 0x000003FF] = some (.i2f ⟨false, true, true, true, 120, 124, 0x3FF⟩, []) := by and_intros <;> rfl

/-- Words of the control rows, laid out by hand from the bit positions of R72 and the opcode map R85, R86. -/
theorem test_words_control :
  decodeWords [0x281FFFFF] = some (.bra ⟨false, false, 1, true, -1⟩, []) ∧
  decodeWords [0x28A00000, 0x80000000] = some (.brl ⟨false, false, 2, false, 0x80000000⟩, []) ∧
  decodeWords [0x291FFFFF] = some (.call ⟨false, false, 1, true, -1⟩, []) ∧
  decodeWords [0x69801400] = some (.calli ⟨false, true, 10, false, 0⟩, []) ∧
  decodeWords [0x2A100000] = some (.ret ⟨false, false, 1, false⟩, []) ∧
  decodeWords [0x6A801400] = some (.jmpi ⟨false, true, 10, false, 0⟩, []) ∧
  decodeWords [0xAB000000] = some (.join ⟨true⟩, []) ∧
  decodeWords [0x2B900000] = some (.exit ⟨false, false, 1, false⟩, []) ∧
  decodeWords [0xAC000000] = some (.yield ⟨true⟩, []) ∧
  decodeWords [0xAC800000] = some (.nop ⟨true⟩, []) ∧
  decodeWords [0x2D00000A] = some (.trap ⟨false, 5⟩, []) ∧
  decodeWords [0xAD800000] = some (.pour ⟨true⟩, []) := by and_intros <;> rfl

/-- Words of the memory rows, laid out by hand from the bit positions of R72 and the opcode map R85, R86. -/
theorem test_words_memory :
  decodeWords [0x30040DF5, 0x00400000] = some (.ldv ⟨false, 4, 6, 0x1F, 1, false, true, 0x400000⟩, []) ∧
  decodeWords [0x3088F0F8] = some (.stv ⟨false, 8, 120, 0xF, 2, false, 0⟩, []) ∧
  decodeWords [0x31040DF5, 0x00400000] = some (.ldk ⟨false, 4, 6, 0x1F, 1, false, true, 0x400000⟩, []) ∧
  decodeWords [0x3188F0F8] = some (.stk ⟨false, 8, 120, 0xF, 2, false, 0⟩, []) ∧
  decodeWords [0x32040DF5, 0x00400000] = some (.ldd ⟨false, 4, 6, 0x1F, 1, false, true, 0x400000⟩, []) ∧
  decodeWords [0x3288F0F8] = some (.std ⟨false, 8, 120, 0xF, 2, false, 0⟩, []) ∧
  decodeWords [0x33050401, 0x00010030] = some (.ldf ⟨false, 5, 2, 0, false, true, 0x10030⟩, []) ∧
  decodeWords [0x33840D00] = some (.stf ⟨false, 4, 6, 0x10, false, 0⟩, []) ∧
  decodeWords [0x3708F0F8] = some (.spill ⟨false, 8, 120, 0xF, 2, false, 0⟩, []) ∧
  decodeWords [0x37840DF5, 0x00400000] = some (.fill ⟨false, 4, 6, 0x1F, 1, false, true, 0x400000⟩, []) := by and_intros <;> rfl

/-- Words of the atomics rows, laid out by hand from the bit positions of R72 and the opcode map R85, R86. -/
theorem test_words_atomics :
  decodeWords [0x34040DF5, 0x00400000] = some (.atv ⟨false, 4, 6, 0x1F, 1, false, true, 0x400000⟩, []) ∧
  decodeWords [0x34840DF5, 0x00400000] = some (.atk ⟨false, 4, 6, 0x1F, 1, false, true, 0x400000⟩, []) ∧
  decodeWords [0x35040DF5, 0x00400000] = some (.atd ⟨false, 4, 6, 0x1F, 1, false, true, 0x400000⟩, []) ∧
  decodeWords [0x35800001, 0x00000062] = some (.fence ⟨false, 0x62⟩, []) ∧
  decodeWords [0x36040D08] = some (.cpy ⟨false, 4, 6, 0x10, false, 0⟩, []) ∧
  decodeWords [0x36830000] = some (.cwait ⟨false, 3⟩, []) := by and_intros <;> rfl

/-- Words of the groups rows, laid out by hand from the bit positions of R72 and the opcode map R85, R86. -/
theorem test_words_groups :
  decodeWords [0x38050804] = some (.xq ⟨false, 5, 4, false, 1, false, false, 0⟩, []) ∧
  decodeWords [0x38860BE1, 0x00000081] = some (.xg ⟨false, 6, 5, 120, false, true, 0x81⟩, []) ∧
  decodeWords [0x390809E1, 0x00000002] = some (.perm ⟨false, 8, 4, 120, false, 2⟩, []) ∧
  decodeWords [0x39871204] = some (.vote ⟨false, 7, true, 1, 1, false⟩, []) ∧
  decodeWords [0x3A07072C] = some (.gred ⟨false, 7, 3, true, 11, false, false, 0⟩, []) ∧
  decodeWords [0x3A850C00] = some (.barr ⟨false, 5, 6, false, 0⟩, []) ∧
  decodeWords [0x3A850C04] = some (.barrDrop ⟨false, 5, 6, false, 0⟩, []) ∧
  decodeWords [0x3B000A18] = some (.barw ⟨false, 5, 6, false, 0⟩, []) ∧
  decodeWords [0xBB800000] = some (.xacqV ⟨true⟩, []) ∧
  decodeWords [0x3B80023C] = some (.xacqS ⟨false, 15⟩, []) ∧
  decodeWords [0xBC000000] = some (.xrelV ⟨true⟩, []) ∧
  decodeWords [0x3C00023C] = some (.xrelS ⟨false, 15⟩, []) ∧
  decodeWords [0x2E841001, 0x00000003] = some (.reord ⟨false, 4, 8, 0x3⟩, []) := by and_intros <;> rfl

/-- Words of the engines rows, laid out by hand from the bit positions of R72 and the opcode map R85, R86. -/
theorem test_words_engines :
  decodeWords [0x3CFF23FE] = some (.msign ⟨false, 15, 3, 72, 127, true, true⟩, []) ∧
  decodeWords [0x3D7F23FE] = some (.mma ⟨false, 15, 3, 72, 127, true, true⟩, []) ∧
  decodeWords [0x3DC80000] = some (.mwait ⟨false, 9⟩, []) ∧
  decodeWords [0x3E000008] = some (.maccZero ⟨false, 2⟩, []) ∧
  decodeWords [0x3E050C44] = some (.maccRd ⟨false, 5, 6, 1, false, false, 0⟩, []) ∧
  decodeWords [0x3E000C8D, 0x00000080] = some (.maccSt ⟨false, 6, 3, true, 0x80⟩, []) ∧
  decodeWords [0x3E000CCD, 0x00000080] = some (.maccLd ⟨false, 6, 3, true, 0x80⟩, []) ∧
  decodeWords [0x3E050108] = some (.maccStat ⟨false, 5, 2, false⟩, []) ∧
  decodeWords [0x3EB80200] = some (.xform ⟨false, 7, 64⟩, []) := by and_intros <;> rfl

/-- Words of the selectors rows, laid out by hand from the bit positions of R72 and the opcode map R85, R86. -/
theorem test_words_selectors :
  decodeWords [0x3F070000] = some (.getst ⟨false, 7⟩, []) ∧
  decodeWords [0x3F050C04] = some (.setst ⟨false, 5, 6, false, 0⟩, []) ∧
  decodeWords [0x3F050C08] = some (.fmtld ⟨false, 5, 6, false, 0⟩, []) ∧
  decodeWords [0x3F050C0C] = some (.fmtst ⟨false, 5, 6, false, 0⟩, []) ∧
  decodeWords [0x3F050C10] = some (.patld ⟨false, 5, 6, false, 0⟩, []) ∧
  decodeWords [0xBF000060] = some (.rett ⟨true⟩, []) ∧
  decodeWords [0x3F00FA65, 0x00000005] = some (.ctxsv ⟨false, 125, true, 5⟩, []) ∧
  decodeWords [0x3F00FA69, 0x00000005] = some (.ctxld ⟨false, 125, true, 5⟩, []) ∧
  decodeWords [0x3F00FA6D, 0x00000005] = some (.halt ⟨false, 125, true, 5⟩, []) ∧
  decodeWords [0x3F050C80] = some (.perfrd ⟨false, 5, 6, false, 0⟩, []) ∧
  decodeWords [0x3F050C84] = some (.errlog ⟨false, 5, 6, false, 0⟩, []) ∧
  decodeWords [0x3F001489, 0x00000012] = some (.inject ⟨false, 10, 0x12⟩, []) := by and_intros <;> rfl

/-- Words of the package rows, laid out by hand from the bit positions of R72 and the opcode map R85, R86. -/
theorem test_words_package :
  decodeWords [0x3F050C20] = some (.evsig ⟨false, 5, 6, false, 0⟩, []) ∧
  decodeWords [0x3F050C24] = some (.evwait ⟨false, 5, 6, false, 0⟩, []) ∧
  decodeWords [0x3F050C28] = some (.launch ⟨false, 5, 6, false, 0⟩, []) ∧
  decodeWords [0x3F00FA2D, 0x00000005] = some (.trig ⟨false, 125, true, 5⟩, []) ∧
  decodeWords [0x3F050C40] = some (.snap ⟨false, 5, 6, false, 0⟩, []) ∧
  decodeWords [0x3F050C44] = some (.snaprel ⟨false, 5, 6, false, 0⟩, []) ∧
  decodeWords [0x3F050C48] = some (.rollback ⟨false, 5, 6, false, 0⟩, []) := by and_intros <;> rfl

/-- Register forms: a destination, a source, a suppress bit, an extension word that no operand takes, an s-register number
with high bits, two operands that want different words (R73 to R75, R92). -/
theorem test_wf_registers :
    Instr.wf (.add ⟨false, false, false, false, 5, 6, 7, 0⟩) = true ∧
    Instr.wf (.add ⟨false, false, false, false, 121, 6, 7, 0⟩) = false ∧
    Instr.wf (.sub ⟨false, false, false, false, 5, 127, 7, 0⟩) = false ∧
    Instr.wf (.mul ⟨false, false, true, false, 5, 6, 7, 0⟩) = false ∧
    Instr.wf (.mul ⟨false, false, true, false, 120, 6, 7, 0⟩) = true ∧
    Instr.wf (.fadd ⟨false, false, false, true, 5, 6, 7, 1⟩) = false ∧
    Instr.wf (.clz ⟨false, false, false, true, 5, 124, 1024⟩) = false ∧
    Instr.wf (.clz ⟨false, false, false, true, 5, 124, 1023⟩) = true ∧
    Instr.wf (.add ⟨false, false, false, true, 124, 125, 7, 9⟩) = false ∧
    Instr.wf (.fabs ⟨false, false, false, false, 5, 125, 0⟩) = false := by decide

/-- Modifier words: `sel`, packed forms, `cvt`, `pkn`, `unpk` and the conversions (R97, R128 to R136). -/
theorem test_wf_modifiers :
    Instr.wf (.sel ⟨false, false, false, 5, 6, 7, 0x10⟩) = false ∧
    Instr.wf (.sel ⟨false, false, false, 5, 124, 7, 0xA⟩) = false ∧
    Instr.wf (.hadd2 ⟨false, false, false, true, 5, 6, 7, 2⟩) = false ∧
    Instr.wf (.cmul ⟨false, false, false, true, 5, 6, 7, 8⟩) = false ∧
    Instr.wf (.cvt ⟨false, false, false, 3, 8, 3⟩) = false ∧
    Instr.wf (.cvt ⟨false, false, false, 3, 8, 0x10⟩) = false ∧
    Instr.wf (.pkn ⟨false, false, false, 3, 8, 9, 0⟩) = false ∧
    Instr.wf (.pkn ⟨false, false, false, 3, 8, 120, 0x1020⟩) = false ∧
    Instr.wf (.unpk ⟨false, false, false, 3, 8, 9, 0x1800⟩) = false ∧
    Instr.wf (.frnd ⟨false, false, false, true, 3, 8, 1⟩) = false ∧
    Instr.wf (.f2i ⟨false, false, false, true, 3, 8, 2⟩) = false ∧
    Instr.wf (.i2f ⟨false, false, false, true, 3, 9, 2⟩) = false := by decide

/-- Immediates, compares, condition logic, pairs and control transfers (R22, R79, R99 to R104, R110, R180). -/
theorem test_wf_compares_and_control :
    Instr.wf (.addi ⟨false, false, false, 124, 6, 1⟩) = false ∧
    Instr.wf (.shli ⟨false, false, false, 5, 6, 32⟩) = false ∧
    Instr.wf (.shli ⟨false, false, false, 5, 6, 31⟩) = true ∧
    Instr.wf (.movi ⟨false, false, true, 5, 1⟩) = false ∧
    Instr.wf (.icmp ⟨false, false, 6, 1, false, 4, 5, false, false, 0⟩) = false ∧
    Instr.wf (.icmp ⟨false, false, 0, 1, true, 4, 5, false, false, 0⟩) = false ∧
    Instr.wf (.fcmp ⟨false, false, 7, 1, 4, 5, false, false, 0⟩) = false ∧
    Instr.wf (.cop ⟨false, false, 3, 1, false, 1, false, 2, false⟩) = false ∧
    Instr.wf (.cset ⟨false, false, 1, 4, 127, false, 0⟩) = false ∧
    Instr.wf (.add64 ⟨false, false, false, false, 5, 6, 8, 0⟩) = false ∧
    Instr.wf (.lea ⟨false, false, false, false, 4, 7, 8, 0⟩) = false ∧
    Instr.wf (.cvt64 ⟨false, false, false, false, 4, 6, 4, 0⟩) = false ∧
    Instr.wf (.calli ⟨false, false, 7, false, 0⟩) = false ∧
    Instr.wf (.jmpi ⟨false, false, 125, true, 0⟩) = false ∧
    Instr.wf (.repq ⟨false, 5, 1, false, 4, false⟩) = false ∧
    Instr.wf (.repq ⟨false, 3, 1, false, 4, false⟩) = false ∧
    Instr.wf (.reord ⟨false, 4, 8, 9⟩) = false := by decide

/-- Memory forms: sizes, addresses, orders, scopes, formats (R74, R76, R77, R207, R219 to R235). -/
theorem test_wf_memory :
    Instr.wf (.ldv ⟨false, 4, 6, 0, 1, false, false, 0⟩) = true ∧
    Instr.wf (.ldv ⟨false, 5, 6, 0, 1, false, false, 0⟩) = false ∧
    Instr.wf (.ldv ⟨false, 4, 7, 0, 0, false, false, 0⟩) = false ∧
    Instr.wf (.ldv ⟨false, 4, 6, 0, 0, false, true, 2⟩) = false ∧
    Instr.wf (.stv ⟨false, 6, 6, 0, 2, false, 0⟩) = false ∧
    Instr.wf (.ldk ⟨false, 4, 5, 0, 3, false, false, 0⟩) = false ∧
    Instr.wf (.stk ⟨false, 4, 125, 0, 0, true, 0⟩) = false ∧
    Instr.wf (.ldf ⟨false, 4, 5, 0, false, true, 0x20⟩) = false ∧
    Instr.wf (.stf ⟨false, 4, 6, 0, true, 0x10000⟩) = false ∧
    Instr.wf (.atv ⟨false, 4, 6, 0, 1, false, true, 0x100000⟩) = false ∧
    Instr.wf (.atk ⟨false, 5, 6, 0, 0, false, true, 0x90000⟩) = false ∧
    Instr.wf (.fence ⟨false, 0x60⟩) = false ∧
    Instr.wf (.fence ⟨false, 0x63⟩) = false ∧
    Instr.wf (.fence ⟨false, 0x53⟩) = true ∧
    Instr.wf (.cpy ⟨false, 6, 6, 0, false, 0⟩) = false ∧
    Instr.wf (.spill ⟨false, 4, 6, 0, 3, false, 0⟩) = false ∧
    Instr.wf (.fill ⟨false, 4, 6, 0, 0, false, true, 1⟩) = false := by decide

/-- Group instructions, engine instructions and selectors (R86, R181 to R202, R241, R256, R275). -/
theorem test_wf_groups_engines_selectors :
    Instr.wf (.xq ⟨false, 5, 4, false, 0, false, false, 0⟩) = false ∧
    Instr.wf (.xg ⟨false, 5, 4, 6, false, true, 5⟩) = false ∧
    Instr.wf (.perm ⟨false, 8, 4, 120, false, 16⟩) = false ∧
    Instr.wf (.perm ⟨false, 8, 112, 120, false, 2⟩) = false ∧
    Instr.wf (.vote ⟨false, 7, false, 1, 5, false⟩) = false ∧
    Instr.wf (.gred ⟨false, 7, 3, false, 12, false, false, 0⟩) = false ∧
    Instr.wf (.barr ⟨false, 5, 124, true, 0⟩) = false ∧
    Instr.wf (.barw ⟨false, 125, 6, true, 0⟩) = false ∧
    Instr.wf (.xacqS ⟨false, 0⟩) = false ∧
    Instr.wf (.xrelS ⟨false, 15⟩) = false ∧
    Instr.wf (.msign ⟨false, 0, 0, 112, 0, false, false⟩) = false ∧
    Instr.wf (.maccSt ⟨false, 6, 0, true, 0x80000⟩) = false ∧
    Instr.wf (.maccRd ⟨false, 125, 6, 0, false, false, 0⟩) = false ∧
    Instr.wf (.maccStat ⟨false, 124, 0, false⟩) = false ∧
    Instr.wf (.getst ⟨false, 113⟩) = false ∧
    Instr.wf (.setst ⟨false, 5, 6, true, 0x40⟩) = false ∧
    Instr.wf (.fmtld ⟨false, 32, 6, false, 0⟩) = false ∧
    Instr.wf (.patld ⟨false, 16, 6, false, 0⟩) = false ∧
    Instr.wf (.evwait ⟨false, 5, 7, false, 0⟩) = false ∧
    Instr.wf (.perfrd ⟨false, 5, 6, false, 0⟩) = false ∧
    Instr.wf (.inject ⟨false, 10, 5⟩) = false := by decide

/-- Words that no row has, or that set a reserved field of their row, decode to nothing (R72, R82, R85, R86). -/
theorem test_words_refused :
    decodeWords [0x2F000000] = none ∧ decodeWords [0x2F800000] = none ∧ decodeWords [0x3F800000] = none ∧
    decodeWords [0x3F00008C] = none ∧ decodeWords [0x09060A04] = none ∧ decodeWords [0x70040C00] = none ∧
    decodeWords [0x30840C02] = none ∧ decodeWords [0x2A000001] = none ∧ decodeWords [0x2B000200] = none ∧
    decodeWords [0x3B010000] = none ∧ decodeWords [0x3C800001] = none := by and_intros <;> rfl

/-- Words of the spec's own examples. -/
theorem test_words_examples :
    decodeWords [0x1424FA11, 0x0000000A] = some (.icmp ⟨false, false, 2, 2, false, 125, 4, false, true, 10⟩, []) ∧
    decodeWords [0x15180228] = some (.cop ⟨false, false, 1, 4, false, 1, true, 2, false⟩, []) ∧
    decodeWords [0x2D00000A] = some (.trap ⟨false, 5⟩, []) ∧ decodeWords [0x2A100000] = some (.ret ⟨false, false, 1, false⟩, []) ∧
    decodeWords [0x0C050C1D, 0x0000000A] = some (.sel ⟨false, false, false, 5, 6, 7, 10⟩, []) ∧
    decodeWords [0x02830208] = some (.mad ⟨false, false, false, false, 3, 1, 2, 0⟩, []) ∧
    decodeWords [0x390809E1, 0x00000002] = some (.perm ⟨false, 8, 4, 120, false, 2⟩, []) ∧
    decodeWords [0x39870200] = some (.vote ⟨false, 7, false, 1, 0, false⟩, []) ∧
    decodeWords [0x39871204] = some (.vote ⟨false, 7, true, 1, 1, false⟩, []) ∧
    decodeWords [0x38050804] = some (.xq ⟨false, 5, 4, false, 1, false, false, 0⟩, []) ∧
    decodeWords [0x38050810] = some (.xq ⟨false, 5, 4, true, 0, false, false, 0⟩, []) ∧
    decodeWords [0x38860BE1, 0x00000081] = some (.xg ⟨false, 6, 5, 120, false, true, 0x81⟩, []) ∧
    decodeWords [0x33050401, 0x00010000] = some (.ldf ⟨false, 5, 2, 0, false, true, 0x10000⟩, []) ∧
    decodeWords [0x34090C01, 0x00100000] = some (.atv ⟨false, 9, 6, 0, 0, false, true, 0x100000⟩, []) ∧
    decodeWords [0x36830000] = some (.cwait ⟨false, 3⟩, []) ∧ decodeWords [0x2D800000] = some (.pour ⟨false⟩, []) ∧
    decodeWords [0x2E8A0601, 0x00000144] = some (.reord ⟨false, 10, 3, 0x144⟩, []) ∧
    decodeWords [0x3F14F040] = some (.snap ⟨false, 20, 120, false, 0⟩, []) ∧
    decodeWords [0x3F052848] = some (.rollback ⟨false, 5, 20, false, 0⟩, []) ∧
    decodeWords [0x3F071424] = some (.evwait ⟨false, 7, 10, false, 0⟩, []) ∧
    decodeWords [0x3F00FA2D, 0x00000005] = some (.trig ⟨false, 125, true, 5⟩, []) := by and_intros <;> rfl

/-! ## A small machine: gang 1 with four items in group 0, on lane 0 of core 0 -/

/-- An item at the first word of line 0. -/
def tItem : Item := { pc := 8 }
/-- Four items of one kind in the home group at the origin. -/
def tGroup (t : Item) : Group := { items := (upTo 0 4).map (fun p => (p, t)), used := 15 }
/-- A resident gang with one group. -/
def tGang (x : Group) : Gang :=
  { launch := 1, asid := 1, phase := .resident, slot := some 0, box := { ex := 4 }, groups := [(0, x)], places := [(0, 0, 0)] }
/-- A bundle of that gang. -/
def tBundle (ms : List (Nat × Nat)) : Bundle := { gang := 1, members := ms, line := some 0, fresh := false }
/-- Its lane, with every bank of the group present. -/
def tLane (b : Bundle) : Lane :=
  { bundle := some b, slots := [{ group := some (1, 0), banks := upTo 0 14 }, {}], gran := 248, res := [(0, 1, 0)] }
/-- The machine at the bundle's turn. -/
def tAt (b : Bundle) (g : Gang) : State :=
  { State.reset with gangs := [(1, g)], cores := [(0, { lanes := [(0, tLane b)] })], cursor := some (0, 0), nextId := 2 }
/-- Where that bundle issues. -/
def tWhere (b : Bundle) : Where := { core := 0, lane := 0, b }

/-- All four items. -/
def tAll : List (Nat × Nat) := [(0, 0), (0, 1), (0, 2), (0, 3)]
/-- The machine with all four items at hand, and with item 0 alone. -/
def tFour : State := tAt (tBundle tAll) (tGang (tGroup tItem))
def tOne : State := tAt (tBundle [(0, 0)]) (tGang (tGroup tItem))
def wFour : Where := tWhere (tBundle tAll)
def wOne : Where := tWhere (tBundle [(0, 0)])

/-- `Issues` as a check. -/
def issuesB (s : State) (w : Where) : Bool :=
  issuing s = some w && w.b.span = none && decide w.b.members.Nodup &&
    w.b.members.all (fun m => (itemIn (groupAt s w.b.gang m.1) m.2).isSome && decide (m.2 < 32))
theorem issues_of (s : State) (w : Where) (h : issuesB s w = true) : Issues s w := by
  simp only [issuesB, Bool.and_eq_true, decide_eq_true_eq, List.all_eq_true] at h
  obtain ⟨⟨⟨a, b⟩, c⟩, d⟩ := h
  exact ⟨a, b, c, fun m k => (d m k).1, fun m k => (d m k).2⟩

/-- `Ready` as a check. -/
def readyB (s : State) (w : Where) (u : Uses) : Bool :=
  !awaitsLoad s w.b.gang w.b.members u && decide (w.b.prog.past = none) &&
    w.b.members.all (fun m => useTrap (groupAt s w.b.gang m.1) m.2 u = none && (groupAt s w.b.gang m.1).badV = [] &&
      (groupAt s w.b.gang m.1).badS = [] &&
      (u.named ++ u.read).all (fun f => !isV f.1 || (upTo f.1.toNat f.2 ++ brokenHigh (groupAt s w.b.gang m.1) f.1.toNat f.2).all (fun r =>
        match slotOf (laneAt s w.core w.lane) w.b.gang m.1 with
        | some p => p.2.banks.contains (r / 8)
        | none => false)))
theorem ready_of (s : State) (w : Where) (u : Uses) (h : readyB s w u = true) : Ready s w u := by
  simp only [readyB, Bool.and_eq_true, Bool.not_eq_true', List.all_eq_true, decide_eq_true_eq, Bool.or_eq_true] at h
  obtain ⟨⟨a, past⟩, h⟩ := h
  refine ⟨a, past, fun m k => (h m k).1.1.1, fun m k => (h m k).1.1.2, fun m k => (h m k).1.2, fun m k f hf v r hr => ?_⟩
  have q := (h m k).2 f hf
  rcases q with q | q
  · rw [v] at q; exact absurd q (by decide)
  · have := q r hr
    split at this
    · rename_i p e
      exact ⟨p.1, p.2, e, by simpa using this⟩
    · exact absurd this (by decide)

/-! ## Witnesses: register instructions -/

theorem test_witness_IntegerResults : ∃ i r s w, integerRow i = some r ∧ i.wf = true ∧ Issues s w ∧ Ready s w r.uses ∧
    r.y = true ∧ r.uniform s w :=
  ⟨.fsh ⟨false, true, false, true, 124, 6, 124, 0x3FF⟩, _, tAt (tBundle tAll) { tGang { tGroup tItem with blocks := 15 } with }, wFour,
    rfl, by decide, issues_of _ _ (by decide), ready_of _ _ _ (by decide), rfl, by unfold Row.uniform; decide⟩

theorem test_witness_FloatResults : ∃ i r s w, floatRow i = some r ∧ i.wf = true ∧ Issues s w ∧ Ready s w r.uses ∧
    (r.y = true → r.uniform s w) :=
  ⟨.ffma ⟨false, false, false, false, 31, 6, 121, 0⟩, _, tFour, wFour, rfl, by decide, issues_of _ _ (by decide),
    ready_of _ _ _ (by decide), fun h => absurd h (by decide)⟩

/-- A die that caches no map and no path node agrees with every index. -/
theorem agrees_of (s : State) (die : Nat) (h : ((dieAt s die).maps.isEmpty && (dieAt s die).nodes.isEmpty) = true) :
    IndexAgrees s die := by
  simp only [Bool.and_eq_true, List.isEmpty_iff] at h
  constructor
  · rw [h.1]; simp
  · rw [h.2]; simp

/-- A machine whose format registers 0 and 31 hold an image. -/
def tFmt : State := tAt (tBundle tAll) { tGang (tGroup tItem) with fmt := [(0, 1), (31, 1)] }

theorem test_witness_NarrowResults : ∃ s w i r, narrowRow (fmtOf (gangAt s w.b.gang) (namedFmt i)) i = some r ∧ i.wf = true ∧
    Issues s w ∧ imageServes (fmtOf (gangAt s w.b.gang) (namedFmt i)) i = true ∧ Ready s w r.uses ∧ (r.y = true → r.uniform s w) :=
  ⟨tFmt, wFour, .pkn ⟨false, false, false, 5, 6, 120, 31⟩, _, rfl, by decide, issues_of _ _ (by decide), by decide,
    ready_of _ _ _ (by decide), fun h => absurd h (by decide)⟩

theorem test_witness_RegisterFrame : ∃ s w i r, registerRow s w.b.gang i = some r ∧ i.wf = true ∧ Issues s w ∧
    served s w.b.gang i ∧ Ready s w r.uses ∧ (r.y = true → r.uniform s w) :=
  ⟨tFour, wFour, .add64 ⟨false, false, false, false, 30, 6, 120, 0⟩, _, rfl, by decide, issues_of _ _ (by decide),
    fun h => absurd h (by decide), ready_of _ _ _ (by decide), fun h => absurd h (by decide)⟩

theorem test_witness_LatchPush : ∃ s w i r, registerRow s w.b.gang i = some r ∧ i.wf = true ∧ Issues s w ∧
    served s w.b.gang i ∧ Ready s w r.uses ∧ (r.y = true → r.uniform s w) ∧ w.b.pend = 0 :=
  ⟨tFmt, wFour, .unpk ⟨false, false, true, 120, 6, 7, 0⟩, _, rfl, by decide, issues_of _ _ (by decide),
    fun _ => by decide, ready_of _ _ _ (by decide), fun h => absurd h (by decide), rfl⟩

theorem test_witness_ConditionResults : ∃ i r s w, condRow i = some r ∧ i.wf = true ∧ Issues s w ∧ Ready s w r.uses ∧
    r.y = true ∧ r.uniform s w ∧ r.ac = true ∧ r.cd = 0 :=
  ⟨.icmp ⟨false, true, 5, 0, true, 4, 6, true, false, 0⟩, _, tFour, wFour, rfl, by decide, issues_of _ _ (by decide),
    ready_of _ _ _ (by decide), rfl, by unfold CondRow.uniform; decide, rfl, rfl⟩

theorem test_witness_RepresentationQuery : ∃ (o : RepqOp) (s : State) (w : Where), (Instr.repq o).wf = true ∧ Issues s w ∧
    Ready s w { named := [(o.a, if o.w then 2 else 1)], read := [(o.a, if o.w then 2 else 1)], ext := 0 } :=
  ⟨⟨false, 1, 7, true, 30, true⟩, tFour, wFour, by decide, issues_of _ _ (by decide), ready_of _ _ _ (by decide)⟩

/-! ## Witnesses: memory -/

/-- A gang of four items with 64 bytes of gang memory, and registers v4 and v6 as given. -/
def tMemGang (a b : Word) : Gang := { tGang { tGroup tItem with v := [(4, .const a), (6, .const b)] } with gmemSize := 64, gmem := [(60, 7)] }
/-- The machine with that gang, a scratchpad of one line for its launch, and one bundle. -/
def tMem (ms : List (Nat × Nat)) (a b : Word) : State :=
  { tAt (tBundle ms) (tMemGang a b) with dies := [(0, { spads := [{ launch := 1, fn := 0, base := 0, lines := 1, mem := [(124, 9)] }] })] }

theorem test_witness_LocalLoads : ∃ i m s w, loadOf i = some m ∧ m.wide = false ∧ m.sz ≠ 3 ∧ i.wf = true ∧ Issues s w ∧
    Ready s w m.uses ∧ w.b.prog.done = false ∧ (m.sp = .spad → isLatch m.a = false) ∧
    (localOf s w.b.gang (m.sp = .spad)).bad = [] ∧
    (∀ x ∈ w.b.members, localInside s w.b.gang (m.sp = .spad) (wordAddr m s w.b.gang x.1 x.2) (4 * m.words) ∧
      (m.mod.ipf = false → domHit (localOf s w.b.gang (m.sp = .spad)) (wordAddr m s w.b.gang x.1 x.2) (4 * m.words) = false) ∧
      (m.sp = .gang → openRuns s w.b.gang (itemAt s w.b.gang x.1 x.2).sb = [])) :=
  ⟨.ldk ⟨false, 8, 6, 3, 2, false, false, 0⟩, _, tMem tAll 0 0, wFour, rfl, by decide, by decide, by decide,
    issues_of _ _ (by decide), ready_of _ _ _ (by decide), rfl, fun h => absurd h (by decide), by decide, by unfold localInside; decide⟩

theorem test_witness_LocalLoads_scratchpad : ∃ i m s w, loadOf i = some m ∧ m.wide = false ∧ m.sz ≠ 3 ∧ i.wf = true ∧ Issues s w ∧
    Ready s w m.uses ∧ w.b.prog.done = false ∧ (m.sp = .spad → isLatch m.a = false) ∧
    (localOf s w.b.gang (m.sp = .spad)).bad = [] ∧ m.sp = .spad ∧
    (∀ x ∈ w.b.members, localInside s w.b.gang (m.sp = .spad) (wordAddr m s w.b.gang x.1 x.2) (4 * m.words) ∧
      (m.mod.ipf = false → domHit (localOf s w.b.gang (m.sp = .spad)) (wordAddr m s w.b.gang x.1 x.2) (4 * m.words) = false) ∧
      (m.sp = .gang → openRuns s w.b.gang (itemAt s w.b.gang x.1 x.2).sb = [])) :=
  ⟨.ldd ⟨false, 8, 6, 1, 0, false, false, 0⟩, _, tMem tAll 0 120, wFour, rfl, by decide, by decide, by decide,
    issues_of _ _ (by decide), ready_of _ _ _ (by decide), rfl, fun _ => by decide, by decide, by decide, by unfold localInside; decide⟩

theorem test_witness_LocalStores : ∃ i m s w, storeOf i = some m ∧ m.wide = false ∧ m.sz ≠ 3 ∧ i.wf = true ∧ Issues s w ∧
    Ready s w m.uses ∧ w.b.prog.done = false ∧ (m.sp = .spad → isLatch m.a = false) ∧
    Memory.wf (localOf s w.b.gang (m.sp = .spad)).mem = true ∧
    (m.mod.ord = 2 → released s (makeRelease s w.core w.b.gang (gangAt s w.b.gang).asid m.mod.scope) = true) ∧
    (∀ x ∈ w.b.members, isReal (groupAt s w.b.gang x.1) x.2 = true →
      localInside s w.b.gang (m.sp = .spad) (wordAddr m s w.b.gang x.1 x.2) (4 * m.words)) :=
  ⟨.stk ⟨false, 4, 6, 0xF, 0, true, 2⟩, _, tMem tAll 5 0, wFour, rfl, by decide, by decide, by decide,
    issues_of _ _ (by decide), ready_of _ _ _ (by decide), rfl, fun h => absurd h (by decide), by decide, by decide, by unfold localInside; decide⟩

theorem test_witness_LocalStores_scratchpad : ∃ i m s w, storeOf i = some m ∧ m.wide = false ∧ m.sz ≠ 3 ∧ i.wf = true ∧ Issues s w ∧
    Ready s w m.uses ∧ w.b.prog.done = false ∧ m.sp = .spad ∧ isLatch m.a = false ∧
    Memory.wf (localOf s w.b.gang (m.sp = .spad)).mem = true ∧ m.mod.ord = 0 ∧
    (∀ x ∈ w.b.members, isReal (groupAt s w.b.gang x.1) x.2 = true →
      localInside s w.b.gang (m.sp = .spad) (wordAddr m s w.b.gang x.1 x.2) (4 * m.words)) :=
  ⟨.std ⟨false, 4, 6, 0, 1, false, 0⟩, _, tMem tAll 5 120, wFour, rfl, by decide, by decide, by decide,
    issues_of _ _ (by decide), ready_of _ _ _ (by decide), rfl, rfl, by decide, by decide, by decide, by unfold localInside; decide⟩

/-- The machine with the leaf of page 0 of ASID 1 cached at its cores' dies, cluster 0 the owner of the page. -/
def tPage (s : State) : State :=
  installLeaf (setOwn s { asid := 1, lpn := 0, owned := 0xFFFF, sown := List.replicate 16 0 }) 0 1 0 7
def tLogBundle (ms : List (Nat × Nat)) : State := tPage (tMem ms 5 0)

theorem test_witness_LogLoads : ∃ (i : Instr) (m : MemSpec) (s : State) (w : Where) (got : Nat → Nat → List Byte),
    loadOf i = some m ∧ m.wide = true ∧ m.sz ≠ 3 ∧ i.wf = true ∧
    Issues s w ∧ Ready s w m.uses ∧ w.b.prog.done = false ∧ loadsGo s w ∧ m.sp = .log ∧
    (∀ x ∈ w.b.members, wordAddr m s w.b.gang x.1 x.2 % (4 * m.words) = 0) ∧
    ∀ x ∈ w.b.members, ∃ gen, gen ≤ seenOf s w.core (gangAt s w.b.gang).asid ∧
      readLog s (whoOf s w x.1 x.2) false (m.sp = .spill) (wordAddr m s w.b.gang x.1 x.2) (4 * m.words) = .ok (got x.1 x.2) gen :=
  ⟨.ldv ⟨false, 8, 120, 0xF, 2, false, false, 0⟩, _, tLogBundle tAll, wFour, fun _ _ => List.replicate 16 0, rfl, by decide, by decide,
    by decide, issues_of _ _ (by decide), ready_of _ _ _ (by decide), rfl, ⟨by decide, by decide, agrees_of _ _ (by decide)⟩, by decide, by decide,
    fun x h => ⟨0, by decide, by revert x; decide⟩⟩

/-- The machine at one item that has spilled its first four bytes. -/
def tSpilled : State :=
  tPage (tAt (tBundle [(0, 0)]) (tGang { tGroup tItem with items := [(0, { tItem with spilled := [0, 1, 2, 3] })], used := 1 }))

theorem test_witness_LogLoads_fill : ∃ (i : Instr) (m : MemSpec) (s : State) (w : Where) (got : Nat → Nat → List Byte),
    loadOf i = some m ∧ m.wide = true ∧ m.sz ≠ 3 ∧ i.wf = true ∧
    Issues s w ∧ Ready s w m.uses ∧ w.b.prog.done = false ∧ loadsGo s w ∧ m.sp = .spill ∧
    (∀ x ∈ w.b.members, wordAddr m s w.b.gang x.1 x.2 % (4 * m.words) = 0 ∧ wordAddr m s w.b.gang x.1 x.2 < 2 ^ 63 ∧
      wordAddr m s w.b.gang x.1 x.2 + 4 * m.words + 8 * (itemAt s w.b.gang x.1 x.2).depth ≤ spillSize (gangAt s w.b.gang) / 32) ∧
    (∀ x ∈ w.b.members, ∃ gen, gen ≤ seenOf s w.core (gangAt s w.b.gang).asid ∧
      readLog s (whoOf s w x.1 x.2) false (m.sp = .spill)
        ((regionBase (gangAt s w.b.gang) x.1 x.2 + wordAddr m s w.b.gang x.1 x.2) % 2 ^ 64) (4 * m.words) = .ok (got x.1 x.2) gen) ∧
    ∀ x ∈ w.b.members, ∀ j < 4 * m.words, wordAddr m s w.b.gang x.1 x.2 + j ∈ (itemAt s w.b.gang x.1 x.2).spilled :=
  ⟨.fill ⟨false, 8, 120, 0, 0, false, false, 0⟩, _, tSpilled, wOne, fun _ _ => List.replicate 4 0, rfl, by decide, by decide, by decide,
    issues_of _ _ (by decide), ready_of _ _ _ (by decide), rfl, ⟨by decide, by decide, agrees_of _ _ (by decide)⟩, by decide, by decide,
    fun x h => ⟨0, by decide, by revert x; decide⟩, by decide⟩

theorem test_witness_LoadView : ∃ s k priv va n l gen ls, whoXlate s k false priv va n = .ok ls ∧
    readLog s k false priv va n = .ok l gen ∧ 0 < n ∧ writerDie (clusterOf k.core) = dieOf k.core ∧ s.copies = [] ∧
    (∀ a ∈ sectorsOf va n, l1Find (coreAt s k.core) k.asid (leafIn ls a) a = none) ∧
    (∀ a ∈ sectorsOf va n, (readSector s (clusterOf k.core) (dieOf k.core) k.asid (keyOf (leafIn ls a) a)).data.length = 32) :=
  ⟨tLogBundle tAll, whoOf (tLogBundle tAll) wFour 0 0, false, 30, 4, List.replicate 4 0, 0, [(0, 7)], by decide, by decide, by decide,
    by decide, rfl, by decide, by decide⟩

theorem test_witness_LogStores : ∃ (i : Instr) (m : MemSpec) (s : State) (w : Where) (leaf : Nat → Nat → DWord), storeOf i = some m ∧
    m.wide = true ∧ m.sz ≠ 3 ∧ i.wf = true ∧ Issues s w ∧ Ready s w m.uses ∧ w.b.prog.done = false ∧ m.sp = .log ∧
    m.mod.ord = 2 ∧ m.mod.scope < 3 ∧ released s (makeRelease s w.core w.b.gang (gangAt s w.b.gang).asid m.mod.scope) = true ∧
    tailPlain s (clusterOf w.core) ∧ (writerAt s (clusterOf w.core)).tail.length + w.b.members.length ≤ 65536 ∧
    ∀ x ∈ w.b.members, isReal (groupAt s w.b.gang x.1) x.2 = true → wordAddr m s w.b.gang x.1 x.2 % (4 * m.words) = 0 ∧
      whoXlate s (whoOf s w x.1 x.2) true (m.sp = .spill) (wordAddr m s w.b.gang x.1 x.2) (4 * m.words) =
        .ok [(vpnOf (wordAddr m s w.b.gang x.1 x.2), leaf x.1 x.2)] :=
  ⟨.stv ⟨false, 4, 6, 0xF, 0, true, 0x22⟩, _, tLogBundle tAll, wFour, fun _ _ => 7, rfl, by decide, by decide, by decide,
    issues_of _ _ (by decide), ready_of _ _ _ (by decide), rfl, by decide, by decide, by decide, by decide,
    by unfold tailPlain; decide, by decide, by decide⟩

theorem test_witness_LogStores_spill : ∃ (i : Instr) (m : MemSpec) (s : State) (w : Where) (leaf : Nat → Nat → DWord), storeOf i = some m ∧
    m.wide = true ∧ m.sz ≠ 3 ∧ i.wf = true ∧ Issues s w ∧ Ready s w m.uses ∧ w.b.prog.done = false ∧ m.sp = .spill ∧ m.mod.ord = 0 ∧
    tailPlain s (clusterOf w.core) ∧ (writerAt s (clusterOf w.core)).tail.length + w.b.members.length ≤ 65536 ∧
    ∀ x ∈ w.b.members, isReal (groupAt s w.b.gang x.1) x.2 = true → wordAddr m s w.b.gang x.1 x.2 % (4 * m.words) = 0 ∧
      let place := (regionBase (gangAt s w.b.gang) x.1 x.2 + wordAddr m s w.b.gang x.1 x.2) % 2 ^ 64
      (wordAddr m s w.b.gang x.1 x.2 < 2 ^ 63 ∧ place % (4 * m.words) = 0 ∧
        regionBase (gangAt s w.b.gang) x.1 x.2 + wordAddr m s w.b.gang x.1 x.2 < 2 ^ 64 ∧
        wordAddr m s w.b.gang x.1 x.2 + 4 * m.words + 8 * (itemAt s w.b.gang x.1 x.2).depth ≤ spillSize (gangAt s w.b.gang) / 32) ∧
      whoXlate s (whoOf s w x.1 x.2) true (m.sp = .spill) place (4 * m.words) = .ok [(vpnOf place, leaf x.1 x.2)] :=
  ⟨.spill ⟨false, 4, 120, 0, 2, false, 0⟩, _, tSpilled, wOne, fun _ _ => 7, rfl, by decide, by decide, by decide,
    issues_of _ _ (by decide), ready_of _ _ _ (by decide), rfl, by decide, by decide, by unfold tailPlain; decide, by decide, by decide⟩

/-! ## Witnesses: control transfers and traps -/

/-- A machine with a code line at address 0, as the tail buffer of its cluster holds it. -/
def tCode (s : State) (ws : List Word) : State :=
  let line := codeLine ws
  tPage (setWriter s 0 { tail := (upTo 0 4).map (fun k =>
    { asid := 1, key := k, data := BitVec.ofNat 256 (ofBytes ((line.drop (32 * k)).take 32)), mask := 0xFFFFFFFF, st := .open
      born := 0, tick := 1, ck := 0 : TailEntry }) })

/-- `lands` as a check. -/
def landsB (s : State) (w : Where) (m : Nat × Nat) (call : Bool) (a : DWord) : Bool :=
  decide (8 ≤ a.toNat % 128) && decide ((a.toNat % 128 - 8) % 12 = 0) && decide (a.toNat < 2 ^ 57) &&
    (!call || decide (a.toNat % 128 = 8)) &&
    match fetchAt s w.core w.b.prog.answers (gangAt s w.b.gang).asid (itemAt s w.b.gang m.1 m.2).level (a.toNat / 128 * 128) 128 with
    | .ok l => (ofBytes (l.take 8)).testBit (if call then 57 else 32 + (a.toNat % 128 - 8) / 12)
    | _ => false
theorem lands_of (s : State) (w : Where) (m : Nat × Nat) (call : Bool) (a : DWord) (h : landsB s w m call a = true) :
    lands s w m call a := by
  simp only [landsB, Bool.and_eq_true, decide_eq_true_eq, Bool.or_eq_true, Bool.not_eq_true'] at h
  obtain ⟨⟨⟨⟨h1, h2⟩, h3⟩, h4⟩, h5⟩ := h
  split at h5
  · rename_i l e
    exact ⟨h1, h2, h3, fun c => by rcases h4 with h4 | h4 <;> simp_all, l, e, h5⟩
  · exact absurd h5 (by decide)

/-- Items 0 and 2 have c1 set, the others clear. -/
def tSplit : State :=
  tCode (tAt (tBundle tAll) (tGang { tGroup tItem with c := [(1, .body [true, false, true, false])] })) []

theorem test_witness_BranchResults : ∃ i j s w, transferOf i = some j ∧ j.call = false ∧ i.wf = true ∧ Issues s w ∧
    Ready s w j.uses ∧ (j.y = true → j.uniform s w) ∧
    ∀ m ∈ w.b.members, (j.taken s w m = true → lands s w m false (j.target s w.b.gang m.1 m.2)) ∧
      (j.taken s w m = false → goesOn s w m j.len) :=
  ⟨.bra ⟨false, false, 1, false, 9⟩, _, tSplit, wFour, rfl, by decide, by decide, issues_of _ _ (by decide),
    ready_of _ _ _ (by decide), fun h => absurd h (by decide),
    fun m h => ⟨fun _ => lands_of _ _ _ _ _ (by revert m; decide), fun _ => by revert m; unfold goesOn; decide⟩⟩

theorem test_witness_BranchResults_jmpi : ∃ i j s w, transferOf i = some j ∧ j.call = false ∧ i.wf = true ∧ Issues s w ∧
    Ready s w j.uses ∧ j.y = true ∧ j.uniform s w ∧
    ∀ m ∈ w.b.members, (j.taken s w m = true → lands s w m false (j.target s w.b.gang m.1 m.2)) ∧
      (j.taken s w m = false → goesOn s w m j.len) :=
  ⟨.jmpi ⟨false, true, 4, false, 0⟩, _, tCode (tAt (tBundle tAll) (tGang { tGroup tItem with v := [(4, .const 116)] })) [], wFour, rfl,
    by decide, by decide, issues_of _ _ (by decide), ready_of _ _ _ (by decide), rfl, by unfold Transfer.uniform; decide,
    fun m h => ⟨fun _ => lands_of _ _ _ _ _ (by revert m; decide), fun k => absurd k (by revert m; decide)⟩⟩

theorem test_witness_Calls : ∃ i j s w, transferOf i = some j ∧ j.call = true ∧ i.wf = true ∧ Issues s w ∧ Ready s w j.uses ∧
    (j.y = true → j.uniform s w) ∧ tailPlain s (clusterOf w.core) ∧
    (writerAt s (clusterOf w.core)).tail.length + 2 * w.b.members.length ≤ 65536 ∧
    ∀ m ∈ w.b.members, (j.taken s w m = true → lands s w m true (j.target s w.b.gang m.1 m.2) ∧
        8 * ((itemAt s w.b.gang m.1 m.2).depth + 1) ≤ spillSize (gangAt s w.b.gang) / 32 ∧
        ∃ ls, regionXlate s w (itemAt s w.b.gang m.1 m.2) true (callSlot s w.b.gang m) 8 = .ok ls) ∧
      (j.taken s w m = false → goesOn s w m j.len) :=
  ⟨.call ⟨false, false, 1, false, 0⟩, _, tSplit, wFour, rfl, rfl, by decide, issues_of _ _ (by decide),
    ready_of _ _ _ (by decide), fun h => absurd h (by decide), by unfold tailPlain; decide, by decide,
    fun m h => ⟨fun _ => ⟨lands_of _ _ _ _ _ (by revert m; decide), by revert m; decide, [(0, 7)], by revert m; decide⟩,
      fun _ => by revert m; unfold goesOn; decide⟩⟩

theorem test_witness_Calls_entry : ∃ i j s w m leaf, transferOf i = some j ∧ j.call = true ∧ i.wf = true ∧ Issues s w ∧
    w.b.members = [m] ∧ Ready s w j.uses ∧ (j.y = true → j.uniform s w) ∧ j.taken s w m = true ∧
    lands s w m true (j.target s w.b.gang m.1 m.2) ∧
    8 * ((itemAt s w.b.gang m.1 m.2).depth + 1) ≤ spillSize (gangAt s w.b.gang) / 32 ∧ callSlot s w.b.gang m % 8 = 0 ∧
    regionXlate s w (itemAt s w.b.gang m.1 m.2) true (callSlot s w.b.gang m) 8 = .ok [(vpnOf (callSlot s w.b.gang m), leaf)] ∧
    tailPlain s (clusterOf w.core) ∧ (writerAt s (clusterOf w.core)).tail.length < 65536 :=
  ⟨.calli ⟨false, false, 4, false, 0⟩, _, tCode (tAt (tBundle [(0, 0)]) (tGang { tGroup { tItem with depth := 255 } with
      v := [(4, .const 8)] })) [], wOne, (0, 0), 7, rfl, rfl, by decide, issues_of _ _ (by decide), rfl, ready_of _ _ _ (by decide),
    fun h => absurd h (by decide), by decide, lands_of _ _ _ _ _ (by decide), by decide, by decide, by decide,
    by unfold tailPlain; decide, by decide⟩

theorem test_witness_ReturnResults : ∃ (o : CondOp) (s : State) (w : Where) (m : Nat × Nat) (ls : List (Nat × DWord)) (e : Nat),
    (Instr.ret o).wf = true ∧ Issues s w ∧ o.y = false ∧ w.b.members = [m] ∧ (cOf s w.b.gang m.1 o.cs.toNat m.2 != o.neg) = true ∧
    0 < (itemAt s w.b.gang m.1 m.2).depth ∧
    regionXlate s w (itemAt s w.b.gang m.1 m.2) false (regionTop (gangAt s w.b.gang) m.1 m.2 - 8 * (itemAt s w.b.gang m.1 m.2).depth) 8 = .ok ls ∧
    (loadBytes s w.core (gangAt s w.b.gang).asid ls (regionTop (gangAt s w.b.gang) m.1 m.2 - 8 * (itemAt s w.b.gang m.1 m.2).depth) 8).bad = false ∧
    e = ofBytes (loadBytes s w.core (gangAt s w.b.gang).asid ls
      (regionTop (gangAt s w.b.gang) m.1 m.2 - 8 * (itemAt s w.b.gang m.1 m.2).depth) 8).data ∧
    8 ≤ e % 128 ∧ (e % 128 - 8) % 12 = 0 ∧ e < 2 ^ 57 :=
  ⟨⟨false, false, 0, false⟩, setWriter (tPage (tAt (tBundle [(0, 0)]) (tGang (tGroup { tItem with depth := 1 })))) 0
      { tail := [{ asid := 1, key := 63, data := BitVec.ofNat 256 (20 * 2 ^ 192), mask := 0xFF000000, st := .open, born := 0, tick := 1
                   ck := 0 }] },
    wOne, (0, 0), [(0, 7)], 20, by decide, issues_of _ _ (by decide), rfl, rfl, by decide, by decide, by decide, by decide, by decide,
    by decide, by decide, by decide⟩

theorem test_witness_ExitResults : ∃ (o : CondOp) (s : State) (w : Where), (Instr.exit o).wf = true ∧ Issues s w ∧ o.y = false ∧
    (∀ m ∈ w.b.members, canIssue (itemAt s w.b.gang m.1 m.2).wait = true ∧
      ((cOf s w.b.gang m.1 o.cs.toNat m.2 != o.neg) = false → goesOn s w m 1)) ∧
    ((cOf s w.b.gang 0 o.cs.toNat 0 != o.neg) = true) ∧ (cOf s w.b.gang 0 o.cs.toNat 1 != o.neg) = false :=
  ⟨⟨false, false, 1, false⟩, tSplit, wFour, by decide, issues_of _ _ (by decide), rfl,
    fun m h => ⟨by revert m; decide, fun _ => by revert m; unfold goesOn; decide⟩, by decide, by decide⟩

theorem test_witness_PlainResults : ∃ (o : NullOp) (i : Instr) (s : State) (w : Where), i ∈ [Instr.join o, .yield o, .nop o, .pour o] ∧
    i.wf = true ∧ Issues s w :=
  ⟨⟨false⟩, .pour ⟨false⟩, tFour, wFour, by simp, by decide, issues_of _ _ (by decide)⟩

/-- Page tables of ASID 1 in the fixed region: virtual page 0 maps to logical page 0 for reads, writes and fetches. -/
def tTables : Memory :=
  [(16, 1), (17, 0x10), (21, 15), (0x1000, 1), (0x1001, 0x20), (0x2000, 1), (0x2001, 0x30), (0x3000, 1), (0x3001, 0x40),
    (0x4000, 1), (0x4001, 0x50), (0x5000, 7)]
/-- A machine whose trap vectors, at 0x8000, name the code line at 0 for one cause. -/
def tTraps (s : State) (code : Nat) : State :=
  let s := tCode { s with fixed := tTables, ctx := [(1, BitVec.ofNat 128 (2 ^ 64 + 0x8000))] } []
  let w := writerAt s 0
  setWriter s 0 { w with tail := w.tail ++ [{ asid := 1, key := 0x400 + code / 4
                                              data := BitVec.ofNat 256 (8 * 2 ^ (64 * (code % 4))), mask := 0xFFFFFFFF, st := .open
                                              born := 0, tick := 1, ck := 0 }] }

theorem noLines_of {s : State} {k : Core} (h : s.cores = [(0, k)]) (l : k.l1 = []) : NoLines s := by
  intro c
  simp only [coreAt, h, tget, tfind]
  split
  · exact l
  · split <;> rfl

theorem noLines_traps (code : Nat) : NoLines (tTraps tOne code) :=
  noLines_of (k := { lanes := [(0, tLane (tBundle [(0, 0)]))] }) rfl rfl

set_option maxRecDepth 8000 in
/-- A delivery of either cause to item 0 of that machine. -/
theorem deliverable_of (code : Nat) (hc : code = 0x16 ∨ code = 0x07) : Deliverable (tTraps tOne code) 1 (0, 0) code 7 8 := by
  rcases hc with rfl | rfl <;>
  refine ⟨by decide, by decide, by decide, by unfold tailPlain; decide, by decide, by decide, fun l u h e => ?_,
    fun l u h e => ⟨codeLine [], ?_⟩, by decide⟩ <;>
  rw [loadNow_storeNow e (noLines_traps _) (ls := [(0, 7)]) (ls2 := [(0, 7)]) (by rw [h]; decide) (by decide) (by rw [h]; decide)] <;>
  decide

theorem test_witness_Traps : ∃ (o : TrapOp) (s : State) (w : Where) (m : Nat × Nat) (leaf : DWord) (entry : Nat), (Instr.trap o).wf = true ∧ Issues s w ∧ w.b.members = [m] ∧
    Deliverable s w.b.gang m 0x16 leaf entry :=
  ⟨⟨false, 255⟩, tTraps tOne 0x16, wOne, (0, 0), 7, 8, by decide, issues_of _ _ (by decide), rfl, deliverable_of _ (.inl rfl)⟩

theorem test_witness_Traps_contained : ∃ (o : TrapOp) (s : State) (w : Where) (m : Nat × Nat), (Instr.trap o).wf = true ∧ Issues s w ∧ w.b.members = [m] ∧
    isReal (groupAt s w.b.gang m.1) m.2 = true ∧ (itemAt s w.b.gang m.1 m.2).frame = true ∧
    (gangAt s w.b.gang).phase ≠ .contained ∧ s.rootOps = [] ∧
    ((fnAt s (gangAt s w.b.gang).fn).tail + 128 - (fnAt s (gangAt s w.b.gang).fn).head) % 128 < 64 ∧ (gangAt s w.b.gang).asid < 4096 ∧
    (gangAt s w.b.gang).queue < 8 :=
  ⟨⟨false, 0⟩, { tAt (tBundle [(0, 0)]) (tGang (tGroup { tItem with frame := true })) with fns := [(0, { tail := 63 })] }, wOne, (0, 0),
    by decide, issues_of _ _ (by decide), rfl, by decide, by decide, by decide, rfl, by decide, by decide, by decide⟩

theorem test_witness_PrivilegeTraps : ∃ i sel u may s w m leaf entry, privilegeOf i = some (sel, u, may) ∧ i.wf = true ∧
    Issues s w ∧ w.b.members = [m] ∧ awaitsLoad s w.b.gang w.b.members u = false ∧ (groupAt s w.b.gang m.1).badV = [] ∧
    (groupAt s w.b.gang m.1).badS = [] ∧ w.b.prog.results = [] ∧ may s w m = false ∧ Deliverable s w.b.gang m 0x07 leaf entry :=
  ⟨.rett ⟨false⟩, _, _, _, tTraps tOne 0x07, wOne, (0, 0), 7, 8, rfl, by decide, issues_of _ _ (by decide), rfl, by decide, by decide,
    by decide, rfl, by decide, deliverable_of _ (.inr rfl)⟩

theorem test_witness_PrivilegeTraps_inject : ∃ i sel u may s w m leaf entry, privilegeOf i = some (sel, u, may) ∧ i.wf = true ∧
    Issues s w ∧ w.b.members = [m] ∧ awaitsLoad s w.b.gang w.b.members u = false ∧ (groupAt s w.b.gang m.1).badV = [] ∧
    (groupAt s w.b.gang m.1).badS = [] ∧ w.b.prog.results = [] ∧ may s w m = false ∧ Deliverable s w.b.gang m 0x07 leaf entry :=
  ⟨.inject ⟨false, 10, 2⟩, _, _, _, tTraps tOne 0x07, wOne, (0, 0), 7, 8, rfl, by decide, issues_of _ _ (by decide), rfl, by decide,
    by decide, by decide, rfl, by decide, deliverable_of _ (.inr rfl)⟩

/-! ## Witnesses: narrow elements, full words, atomics and fences -/

/-- A gang whose format 0 is a four-bit float (S 1, EW 2, MW 1, BIAS 1), with a code in the first byte of its memory. -/
def tElem (ms : List (Nat × Nat)) (a : Word) : State :=
  tPage { tAt (tBundle ms) { tMemGang 0x3F800000 a with fmt := [(0, 0x115)], gmem := [(0, 0x20)] } with
    dies := [(0, { spads := [{ launch := 1, fn := 0, base := 0, lines := 1 }] })] }

theorem test_witness_ElementLoads : ∃ (i : Instr) (m : MemSpec) (s : State) (w : Where) (val : Nat → Nat → Word × Nat × Nat),
    loadOf i = some m ∧ m.sz = 3 ∧ i.wf = true ∧ Issues s w ∧ Ready s w m.uses ∧ w.b.prog.done = false ∧ m.wide = false ∧
    (m.drops s w = true → isLatch m.a = false) ∧ (localOf s w.b.gang false).bad = [] ∧ (localOf s w.b.gang true).bad = [] ∧
    ∀ x ∈ w.b.members, m.fmtNo s (whoOf s w x.1 x.2) (m.base s w.b.gang x.1 x.2) = .ok 0 ∧
      fmtUsable (fmtOf (gangAt s w.b.gang) 0) m.sp = true ∧
      (elemPlace (fmtOf (gangAt s w.b.gang) 0) (m.base s w.b.gang x.1 x.2)).isSome = true ∧
      decodeElem s (whoOf s w x.1 x.2) m.sp false (fmtOf (gangAt s w.b.gang) 0)
        (effAddr m.wide (m.base s w.b.gang x.1 x.2) m.off m.mod.xoff (elemBits (fmtOf (gangAt s w.b.gang) 0))) = .ok (val x.1 x.2) :=
  ⟨.ldk ⟨false, 8, 6, 1, 3, false, true, 0x8000⟩, _, tElem tAll 0, wFour, fun _ _ => (0x3F800000, 0, 0), rfl, rfl, by decide,
    issues_of _ _ (by decide), ready_of _ _ _ (by decide), rfl, by decide, by decide, by decide, by decide,
    fun x h => by
      simp only [wFour, tWhere, tBundle, tAll, List.mem_cons, List.mem_nil_iff, or_false] at h
      rcases h with rfl | rfl | rfl | rfl <;> exact ⟨rfl, rfl, rfl, rfl⟩⟩

theorem test_witness_ElementStores : ∃ i m s w x f ea c fl, storeOf i = some m ∧ m.sz = 3 ∧ m.wide = false ∧ i.wf = true ∧
    ElementStore m s w x f ea c fl ∧ Memory.wf (localOf s w.b.gang (m.sp = .spad)).mem = true :=
  ⟨.stk ⟨false, 4, 6, 0x1F, 3, true, 0x8002⟩, _, tElem [(0, 0)] 8, wOne, (0, 0), 0x115, 4, 2, 0, rfl, rfl, rfl, by decide,
    ⟨issues_of _ _ (by decide), rfl, by decide, ready_of _ _ _ (by decide), rfl, fun h => absurd h (by decide), by decide, ⟨0, rfl, rfl⟩,
      by decide, by decide, rfl, fun _ => by decide⟩, by decide⟩

theorem test_witness_LogElementStores : ∃ (o : StoreOp) (s : State) (w : Where) (x : Nat × Nat) (f : BitVec 256) (ea c fl : Nat)
    (ls : List (Nat × DWord)), o.sz = 3 ∧ (Instr.stv o).wf = true ∧ ElementStore (storeSpec .log o) s w x f ea c fl ∧
    writerDie (clusterOf w.core) = dieOf w.core ∧ tailPlain s (clusterOf w.core) ∧
    (writerAt s (clusterOf w.core)).tail.length + 2 ≤ 65536 ∧
    whoXlate s (whoOf s w x.1 x.2) true false (ea / 8) ((ea + (elemBits f - 1)) / 8 - ea / 8 + 1) = .ok ls ∧
    ∀ a ∈ sectorsOf (ea / 8) ((ea + (elemBits f - 1)) / 8 - ea / 8 + 1),
      (readSector s (clusterOf w.core) (writerDie (clusterOf w.core)) (gangAt s w.b.gang).asid (keyOf (leafIn ls a) a)).data.length = 32 :=
  ⟨⟨false, 4, 120, 3, 3, true, 0x8000⟩, tElem [(0, 0)] 8, wOne, (0, 0), 0x115, 12, 2, 0, [(0, 7)], rfl, by decide,
    ⟨issues_of _ _ (by decide), rfl, by decide, ready_of _ _ _ (by decide), rfl, fun h => absurd h (by decide), by decide, ⟨0, rfl, rfl⟩,
      by decide, by decide, rfl, fun h => absurd h (by decide)⟩, by decide, by unfold tailPlain; decide, by decide, by decide, by decide⟩

/-- The machine at item 0 with its last word of gang memory, and of the scratchpad, full. -/
def tFull (f : List Nat) : State :=
  { tMem [(0, 0)] 4 60 with
    gangs := [(1, { tMemGang 4 60 with full := f })]
    dies := [(0, { spads := [{ launch := 1, fn := 0, base := 0, lines := 1, full := f }] })] }

/-- `LocalClean` as a check. -/
theorem clean_of (s : State) (gang : Nat) (x : Nat × Nat) (spad : Bool) (off n : Nat)
    (h : (decide (off % n = 0) && decide (off + n ≤ (localOf s gang spad).size) && decide (absentIn (localOf s gang spad) off n = none) &&
      decide ((localOf s gang spad).bad = []) && !domHit (localOf s gang spad) off n &&
      (spad || decide (openRuns s gang (itemAt s gang x.1 x.2).sb = []))) = true) : LocalClean s gang x spad off n := by
  simp only [Bool.and_eq_true, decide_eq_true_eq, Bool.not_eq_true', Bool.or_eq_true] at h
  obtain ⟨⟨⟨⟨⟨a, b⟩, c⟩, d⟩, e⟩, f⟩ := h
  exact ⟨⟨a, b, c⟩, d, e, fun k => f.resolve_left (by simp [k])⟩

/-- A full word, and an empty one at the end of the scratchpad. -/
theorem test_witness_FullLoads : ∀ f ∈ [[15, 31], []], ∃ (o : LdfOp) (s : State) (w : Where) (x : Nat × Nat), (Instr.ldf o).wf = true ∧ Issues s w ∧
    w.b.members = [x] ∧ isReal (groupAt s w.b.gang x.1) x.2 = true ∧
    Ready s w { named := [(o.d, 1), (o.a, 1)], read := [(o.a, 1)], ext := o.ext } ∧ w.b.prog.done = false ∧
    (itemAt s w.b.gang x.1 x.2).wait = .ready ∧ isLatch o.a = false ∧ (localOf s w.b.gang false).full = f ∧
    LocalClean s w.b.gang x ((ldfMod o).scope = 3)
      (effAddr false (operandOf s w.b.gang x.1 x.2 o.ext { f := o.a }).toNat o.off (ldfMod o).xoff 4) 4 := by
  intro f h
  fin_cases h
  · exact ⟨⟨false, 8, 6, 0, false, true, 0x10000⟩, tFull [15, 31], wOne, (0, 0), by decide, issues_of _ _ (by decide), rfl, by decide,
      ready_of _ _ _ (by decide), rfl, rfl, rfl, rfl, clean_of _ _ _ _ _ _ (by decide)⟩
  · exact ⟨⟨false, 8, 6, 0x1F, false, true, 0x04000030⟩, tFull [], wOne, (0, 0), by decide, issues_of _ _ (by decide), rfl, by decide,
      ready_of _ _ _ (by decide), rfl, rfl, rfl, rfl, clean_of _ _ _ _ _ _ (by decide)⟩

/-- The last word of the item's own memory, and of the scratchpad by its fill address. -/
theorem test_witness_FullStores : ∀ k ∈ [(60, 0, .gang 1), (124, 0x80000000, .spad 0 1)], ∃ (o : WideOp) (s : State) (w : Where) (x : Nat × Nat),
    (Instr.stf o).wf = true ∧ Issues s w ∧ w.b.members = [x] ∧ isReal (groupAt s w.b.gang x.1) x.2 = true ∧
    Ready s w { named := [(o.d, 1), (o.a, 2)], read := [(o.a, 2), (o.d, 1)], ext := o.ext } ∧
    k.1 % 4 = 0 ∧ k.1 < 2 ^ 32 ∧
    fillPlace s w (effAddr true (operandOf s w.b.gang x.1 x.2 o.ext { f := o.a, wide := true }).toNat o.off
      (memMod (modOf (some o.d) [o.a] o.x o.ext)).xoff 4) k.1 k.2.2 ∧
    k.1 + 4 ≤ (targetLocal s k.2.2).size ∧ absentIn (targetLocal s k.2.2) k.1 4 = none ∧ Memory.wf (targetLocal s k.2.2).mem = true ∧
    s.fillq = [] ∧ s.fabric.sent = [] ∧ fullWaiters s k.2.2 k.1 = [] := by
  intro k h
  fin_cases h
  · exact ⟨⟨false, 6, 120, 0xF, false, 0⟩, tMem [(0, 0)] 5 60, wOne, (0, 0), by decide, issues_of _ _ (by decide), rfl, by decide,
      ready_of _ _ _ (by decide), by decide, by decide, .inl (by decide), by decide, by decide, by decide, rfl, rfl, by decide⟩
  · exact ⟨⟨false, 6, 8, 0xF, false, 0⟩, { tMem [(0, 0)] 5 64 with
        gangs := [(1, tGang { tGroup tItem with v := [(8, .const 64), (9, .const 0x80000000)] })] },
      wOne, (0, 0), by decide, issues_of _ _ (by decide), rfl, by decide,
      ready_of _ _ _ (by decide), by decide, by decide, ⟨by decide, by decide, by decide, by decide⟩, by decide, by decide, by decide, rfl,
      rfl, by decide⟩

theorem test_witness_LocalAtomics : ∃ (o : MemOp) (s : State) (w : Where) (x : Nat × Nat), (Instr.atk o).wf = true ∧ Issues s w ∧ w.b.members = [x] ∧
    isReal (groupAt s w.b.gang x.1) x.2 = true ∧ Ready s w ({ sp := .gang, o } : AtomSpec).uses ∧ w.b.prog.done = false ∧
    w.b.prog.results = [] ∧ 2 ≤ ({ sp := .gang, o } : AtomSpec).mod.ord ∧
    released s (makeRelease s w.core w.b.gang (gangAt s w.b.gang).asid ({ sp := .gang, o } : AtomSpec).mod.scope) = true ∧
    LocalClean s w.b.gang x false (effAddr false (operandOf s w.b.gang x.1 x.2 o.ext { f := o.a }).toNat o.off
      ({ sp := .gang, o } : AtomSpec).mod.xoff (4 * ({ sp := .gang, o } : AtomSpec).words)) (4 * ({ sp := .gang, o } : AtomSpec).words) ∧
    Memory.wf (localOf s w.b.gang false).mem = true :=
  ⟨⟨false, 4, 6, 0, 1, false, true, 0x00090013⟩, tMem [(0, 0)] 5 56, wOne, (0, 0), by decide, issues_of _ _ (by decide), rfl, by decide,
    ready_of _ _ _ (by decide), rfl, rfl, by decide, by decide, clean_of _ _ _ _ _ _ (by decide), by decide⟩

theorem test_witness_LocalAtomics_scratchpad : ∃ (o : MemOp) (s : State) (w : Where) (x : Nat × Nat), (Instr.atd o).wf = true ∧ Issues s w ∧
    w.b.members = [x] ∧ isReal (groupAt s w.b.gang x.1) x.2 = true ∧ Ready s w ({ sp := .spad, o } : AtomSpec).uses ∧
    w.b.prog.done = false ∧ w.b.prog.results = [] ∧ isLatch o.a = false ∧ isLatch o.d = false ∧
    LocalClean s w.b.gang x true (effAddr false (operandOf s w.b.gang x.1 x.2 o.ext { f := o.a }).toNat o.off
      ({ sp := .spad, o } : AtomSpec).mod.xoff (4 * ({ sp := .spad, o } : AtomSpec).words)) (4 * ({ sp := .spad, o } : AtomSpec).words) ∧
    Memory.wf (localOf s w.b.gang true).mem = true :=
  ⟨⟨false, 4, 6, 0, 0, false, true, 0x00120000⟩, tMem [(0, 0)] 5 124, wOne, (0, 0), by decide, issues_of _ _ (by decide), rfl, by decide,
    ready_of _ _ _ (by decide), rfl, rfl, rfl, rfl, clean_of _ _ _ _ _ _ (by decide), by decide⟩

theorem test_witness_LogAtomics : ∃ (o : MemOp) (s : State) (w : Where) (x : Nat × Nat) (leaf : DWord), (Instr.atv o).wf = true ∧ Issues s w ∧
    w.b.members = [x] ∧ isReal (groupAt s w.b.gang x.1) x.2 = true ∧ Ready s w ({ sp := .log, o } : AtomSpec).uses ∧
    w.b.prog.done = false ∧ ({ sp := .log, o } : AtomSpec).mod.ord = 0 ∧ w.b.prog.results = [] ∧
    let m : AtomSpec := { sp := .log, o }
    let ea := effAddr true (operandOf s w.b.gang x.1 x.2 o.ext { f := o.a, wide := true }).toNat o.off m.mod.xoff (4 * m.words)
    ea % (4 * m.words) = 0 ∧ ∀ n ≤ 4 * m.words, whoXlate s (whoOf s w x.1 x.2) true false ea n = .ok [(vpnOf ea, leaf)] :=
  ⟨⟨false, 4, 6, 3, 1, false, true, 0x00080000⟩, tLogBundle [(0, 0)], wOne, (0, 0), 7, by decide, issues_of _ _ (by decide), rfl,
    by decide, ready_of _ _ _ (by decide), rfl, by decide, rfl, by decide, by decide⟩

/-- The turn in which the atomic unit's answer has come. -/
theorem test_witness_LogAtomics_answered : ∃ (o : MemOp) (s : State) (w : Where) (x : Nat × Nat) (ws : List Word), (Instr.atv o).wf = true ∧
    Issues s w ∧ w.b.members = [x] ∧ isReal (groupAt s w.b.gang x.1) x.2 = true ∧ Ready s w ({ sp := .log, o } : AtomSpec).uses ∧
    w.b.prog.done = false ∧ ws.length = ({ sp := .log, o } : AtomSpec).words ∧ w.b.prog.results = [(x.1, x.2, 0 :: ws)] ∧
    ({ sp := .log, o } : AtomSpec).mod.ord = 2 ∧
    released s (makeRelease s w.core w.b.gang (gangAt s w.b.gang).asid ({ sp := .log, o } : AtomSpec).mod.scope) = true :=
  ⟨⟨false, 4, 6, 0, 1, false, true, 0x00080012⟩,
    tPage (tAt { tBundle [(0, 0)] with prog := { results := [(0, 0, [0, 7, 8])] } } (tMemGang 5 0)),
    tWhere { tBundle [(0, 0)] with prog := { results := [(0, 0, [0, 7, 8])] } }, (0, 0), [7, 8], by decide, issues_of _ _ (by decide), rfl,
    by decide, ready_of _ _ _ (by decide), rfl, by decide, rfl, by decide, by decide⟩

theorem test_witness_Fences : ∃ (o : FenceOp) (s : State) (w : Where) (x : Nat × Nat), (Instr.fence o).wf = true ∧ Issues s w ∧ x ∈ w.b.members ∧
    isReal (groupAt s w.b.gang x.1) x.2 = true ∧ (memMod o.ext.toNat).ord = 3 ∧ (memMod o.ext.toNat).scope = 5 ∧
    released s (makeRelease s w.core w.b.gang (gangAt s w.b.gang).asid 5) = true ∧ w.b.prog.acquired = false ∧
    (makeAcquire s w.core 5).2 = [] :=
  ⟨⟨false, 0x53⟩, tFour, wFour, (0, 3), by decide, issues_of _ _ (by decide), by decide, by decide, by decide, by decide, by decide, rfl,
    by decide⟩

/-- A release that is not met: the cluster's tail holds an unpublished store. -/
theorem test_witness_Fences_stalls : ∃ (o : FenceOp) (s : State) (w : Where) (x : Nat × Nat), (Instr.fence o).wf = true ∧ Issues s w ∧
    x ∈ w.b.members ∧ isReal (groupAt s w.b.gang x.1) x.2 = true ∧ (memMod o.ext.toNat).ord = 2 ∧ w.b.prog.released = false ∧
    released s (makeRelease s w.core w.b.gang (gangAt s w.b.gang).asid (memMod o.ext.toNat).scope) = false :=
  ⟨⟨false, 0x32⟩, setWriter tSplit 0 { writerAt tSplit 0 with tick := 2 }, wFour, (0, 3), by decide, issues_of _ _ (by decide), by decide, by decide, by decide, rfl, by decide⟩

/-! ## Witnesses: groups, exchanges, barriers and register blocks -/

theorem test_witness_Permutes : ∃ (o : PermOp) (s : State) (w : Where), (Instr.perm o).wf = true ∧ Issues s w ∧ w.b.prog.done = false ∧
    Ready s w { named := [(o.d, 1), (o.a, 1), (o.b, 1)], read := [(o.a, 1), (o.b, 1)], ext := 0 } :=
  ⟨⟨false, 31, 6, 4, false, 15⟩, tFour, wFour, by decide, issues_of _ _ (by decide), rfl, ready_of _ _ _ (by decide)⟩

theorem test_witness_Votes : ∃ (o : VoteOp) (s : State) (w : Where), (Instr.vote o).wf = true ∧ Issues s w ∧ w.b.prog.done = false ∧
    Ready s w { named := [(o.d, 1)], read := [], ext := 0 } :=
  ⟨⟨false, 31, true, 7, 4, false⟩, tFour, wFour, by decide, issues_of _ _ (by decide), rfl, ready_of _ _ _ (by decide)⟩
/-- Mode 5 is the first that no instruction has. -/
theorem test_witness_Votes_modes : ∃ o : VoteOp, 5 ≤ o.mode.toNat := ⟨⟨false, 31, true, 7, 5, false⟩, by decide⟩

theorem test_witness_Reductions : ∃ (o : GredOp) (s : State) (w : Where), (Instr.gred o).wf = true ∧ Issues s w ∧ w.b.prog.done = false ∧
    Ready s w { named := [(o.d, 1), (o.a, 1)], read := [(o.a, 1)], ext := o.ext } :=
  ⟨⟨false, 31, 121, true, 8, false, false, 0⟩, tFour, wFour, by decide, issues_of _ _ (by decide), rfl, ready_of _ _ _ (by decide)⟩

theorem test_witness_Exchanges_arrive : ∃ i e s w, exchangeOf i = some e ∧ i.wf = true ∧ Issues s w ∧ w.b.members ≠ [] ∧
    ∀ m ∈ w.b.members, ∀ n, (itemAt s w.b.gang m.1 m.2).wait ≠ .released n :=
  ⟨.xq ⟨false, 4, 6, true, 3, false, false, 0⟩, _, tFour, wFour, rfl, by decide, issues_of _ _ (by decide), by decide,
    fun m h n => by revert m; intro m h; rw [show (itemAt tFour wFour.b.gang m.1 m.2).wait = .ready from by revert m; decide]; nofun⟩

/-- A machine whose four items are released together. -/
def tReleased : State := tAt (tBundle tAll) (tGang (tGroup { tItem with wait := .released 3 }))

theorem test_witness_Exchanges_released : ∃ i e s w n, exchangeOf i = some e ∧ i.wf = true ∧ Issues s w ∧ w.b.members ≠ [] ∧
    (∀ m ∈ w.b.members, (itemAt s w.b.gang m.1 m.2).wait = .released n) ∧ Ready s w e.uses ∧
    ∀ f ∈ e.uses.read, isLatch f.1 = false :=
  ⟨.xg ⟨false, 4, 6, 7, false, true, 0x0000000C⟩, _, tReleased, wFour, 3, rfl, by decide, issues_of _ _ (by decide), by decide, by decide,
    ready_of _ _ _ (by decide), by decide⟩

/-- Both exchanges stand in one home group: `xq` at two addresses, `xg` at one. -/
def tArrived : Group :=
  { items := [(0, { tItem with wait := .exchange false }), (1, { tItem with wait := .exchange false, pc := 20 }),
      (3, { tItem with wait := .exchange true })], used := 11 }

theorem test_witness_Exchanges_releases : ∃ (s : State) (gang g quad : Nat) (xg : Bool), let x := groupAt s gang g
    (x.items.map Prod.fst).Pairwise (· < ·) ∧ quad < 8 ∧ complete x xg quad ∧
    ∃ p t, p < 32 ∧ (xg = true ∨ p / 4 = quad) ∧ itemIn x p = some t ∧ t.wait = .exchange xg :=
  ⟨tAt (tBundle []) (tGang tArrived), 1, 0, 0, false, by decide, by decide, fun p t h q k => by
      have : p < 4 := by simp at q; omega
      interval_cases p <;> simp [tArrived, groupAt, gangAt, tAt, tget, tfind, tGang, itemIn] at k <;> simp [← k],
    0, { tItem with wait := .exchange false }, by decide, by decide, by decide, rfl⟩

/-- A gang with a barrier object of two arrivals, one pending, in the last eight bytes of its memory. -/
def tBarrier (a b : Word) : State :=
  tAt (tBundle [(0, 0)]) { tMemGang a b with gmem := [(56, 1), (58, 9), (60, 2)] }

theorem test_witness_Barriers : ∃ (o : DaOp) (s : State) (w : Where) (x : Nat × Nat), (Instr.barr o).wf = true ∧ (Instr.barrDrop o).wf = true ∧
    Issues s w ∧ w.b.members = [x] ∧ isReal (groupAt s w.b.gang x.1) x.2 = true ∧ w.b.prog.done = false ∧
    (itemAt s w.b.gang x.1 x.2).wait = .ready ∧ Ready s w { named := [(o.d, 1), (o.a, 1)], read := [(o.a, 1)], ext := o.ext } ∧
    released s (makeRelease s w.core w.b.gang (gangAt s w.b.gang).asid 1) = true ∧
    LocalClean s w.b.gang x false ((operandOf s w.b.gang x.1 x.2 o.ext { f := o.a }).setWidth 32 : Word).toNat 8 ∧
    Memory.wf (gangAt s w.b.gang).gmem = true ∧
    (wordOf (gangByte s w.b.gang) ((operandOf s w.b.gang x.1 x.2 o.ext { f := o.a }).setWidth 32 : Word).toNat).toNat % 65536 = 1 :=
  ⟨⟨false, 8, 6, false, 0⟩, tBarrier 0 56, wOne, (0, 0), by decide, by decide, issues_of _ _ (by decide), rfl, by decide, rfl, rfl,
    ready_of _ _ _ (by decide), by decide, clean_of _ _ _ _ _ _ (by decide), by decide, by decide⟩

/-- The object is in phase 9: an item that waits for 9 stays, one that waits for 8 goes on. -/
theorem test_witness_Barriers_wait : ∀ n ∈ [(9 : Word), 8], ∃ (o : BarwOp) (s : State) (w : Where) (x : Nat × Nat), (Instr.barw o).wf = true ∧
    Issues s w ∧ w.b.members = [x] ∧ isReal (groupAt s w.b.gang x.1) x.2 = true ∧ w.b.prog.done = false ∧
    (itemAt s w.b.gang x.1 x.2).wait = .ready ∧ Ready s w { named := [(o.a, 1), (o.b, 1)], read := [(o.a, 1), (o.b, 1)], ext := o.ext } ∧
    isLatch o.a = false ∧ isLatch o.b = false ∧
    LocalClean s w.b.gang x false ((operandOf s w.b.gang x.1 x.2 o.ext { f := o.a }).setWidth 32 : Word).toNat 8 ∧
    ((wordOf (gangByte s w.b.gang) ((operandOf s w.b.gang x.1 x.2 o.ext { f := o.a }).setWidth 32 : Word).toNat).toNat / 65536 =
      (operandOf s w.b.gang x.1 x.2 o.ext { f := o.b }).toNat % 65536 ↔ n = 9) := by
  intro n h
  fin_cases h
  · exact ⟨⟨false, 6, 4, false, 0⟩, tBarrier 9 56, wOne, (0, 0), by decide, issues_of _ _ (by decide), rfl, by decide, rfl, rfl,
      ready_of _ _ _ (by decide), rfl, rfl, clean_of _ _ _ _ _ _ (by decide), by decide⟩
  · exact ⟨⟨false, 6, 4, false, 0⟩, tBarrier 8 56, wOne, (0, 0), by decide, issues_of _ _ (by decide), rfl, by decide, rfl, rfl,
      ready_of _ _ _ (by decide), rfl, rfl, clean_of _ _ _ _ _ _ (by decide), by decide⟩

/-- Five granules are left for one item, and one block of the pool for a group. -/
theorem test_witness_RegisterBlocks : ∃ s w, Issues s w ∧ w.b.prog.done = false ∧ Ready s w noUses ∧
    (Instr.xacqV ⟨false⟩).wf = true ∧ (laneAt s w.core w.lane).queue = [] ∧
    5 * (w.b.members.filter (fun m => !(itemAt s w.b.gang m.1 m.2).ext)).length = availGranules (laneAt s w.core w.lane) w.b.gang ∧
    (Instr.xacqS ⟨false, 15⟩).wf = true ∧ w.b.members ≠ [] ∧ (∀ m ∈ w.b.members, m.1 = 0) ∧ (coreAt s w.core).queueS = [] ∧
    ((groupAt s w.b.gang 0).s.map Prod.fst).Pairwise (· < ·) ∧
    (15 - (gangAt s w.b.gang).sblk) - ((groupAt s w.b.gang 0).blocks - (gangAt s w.b.gang).sblk) = (coreAt s w.core).pool :=
  ⟨{ tOne with cores := [(0, { lanes := [(0, { tLane (tBundle [(0, 0)]) with gran := 5 })], pool := 15 })] }, wOne,
    issues_of _ _ (by decide), rfl, ready_of _ _ _ (by decide), by decide, by decide, by decide, by decide, by decide, by decide,
    by decide, by decide, by decide⟩

theorem test_witness_RegisterBlocks_returned : ∃ s w, Issues s w ∧ w.b.prog.done = false ∧ Ready s w noUses ∧
    (laneAt s w.core w.lane).queue = [] ∧ (coreAt s w.core).queueS = [] ∧ (gangAt s w.b.gang).core = w.core ∧
    (∀ m ∈ w.b.members, (groupAt s w.b.gang m.1).lane = w.lane) ∧ (Instr.xrelV ⟨false⟩).wf = true ∧
    (Instr.xrelS ⟨false, 1⟩).wf = true ∧ w.b.members ≠ [] ∧ (∀ m ∈ w.b.members, m.1 = 0) ∧
    ((groupAt s w.b.gang 0).s.map Prod.fst).Pairwise (· < ·) ∧ (itemAt s w.b.gang 0 0).ext = true ∧ (groupAt s w.b.gang 0).blocks = 3 :=
  ⟨tAt (tBundle tAll) { tGang { tGroup { tItem with ext := true } with blocks := 3, s := [(64, 1), (130, 2)] } with sblk := 2 }, wFour,
    issues_of _ _ (by decide), rfl, ready_of _ _ _ (by decide), by decide, by decide, by decide, by decide, by decide, by decide,
    by decide, by decide, by decide, by decide, by decide⟩

/-! ## Witnesses: copies -/

/-- A machine whose item holds a descriptor in v8 to v11: 64 bytes between log memory and its gang's memory. -/
def tDesc (w3 : Word) : State :=
  tAt (tBundle [(0, 0)]) { tGang { tGroup tItem with v := [(8, .const 0), (9, .const 0), (10, .const 64), (11, .const w3)] } with gmemSize := 64 }

theorem test_witness_CopyStarts : ∃ (o : WideOp) (s : State) (w : Where) (x : Nat × Nat) (a b : Side), (Instr.cpy o).wf = true ∧ Issues s w ∧
    w.b.members = [x] ∧ isReal (groupAt s w.b.gang x.1) x.2 = true ∧
    Ready s w { named := [(o.d, 4), (o.a, 2)], read := [(o.a, 2), (o.d, 4)], ext := o.ext } ∧
    let m := memMod (modOf none [o.a] o.x o.ext)
    let dw (i : Nat) : Nat := ((dataWords s w.b.gang x.1 x.2 o.d 0 4).getD i 0).toNat
    let la := effAddr true (operandOf s w.b.gang x.1 x.2 o.ext { f := o.a, wide := true }).toNat o.off m.xoff 16
    let osp := dw 3 / 16 % 8
    m.ipf = false ∧ m.fov = 0 ∧
    (m.ord = 2 → released s (makeRelease s w.core w.b.gang (gangAt s w.b.gang).asid m.scope) = true) ∧
    dw 3 < 2 ^ 22 ∧ dw 3 / 2 % 8 = 0 ∧ dw 3 / 128 % 8 = 0 ∧ dw 2 % 4 = 0 ∧ 0 < dw 2 ∧ (osp = 5 → o.a = 120) ∧ (osp < 2 → dw 1 = 0) ∧
    plainSides osp la (dw 0) (dw 1) = some (a, b) ∧
    ∀ y ∈ [a, b], y.at % 4 = 0 ∧ (match y with
      | .gang k => k + dw 2 ≤ (gangAt s w.b.gang).gmemSize
      | .spad k => k + dw 2 ≤ (localOf s w.b.gang true).size
      | _ => True) :=
  ⟨⟨false, 8, 120, 2, false, 0⟩, tDesc (15 * 1024 + 1), wOne, (0, 0), .log 32, .gang 0, by decide, issues_of _ _ (by decide), rfl, by decide,
    ready_of _ _ _ (by decide), by decide, by decide, by decide, by decide, by decide, by decide, by decide, by decide, by decide,
    by decide, by decide, fun y h => by
      simp only [List.mem_cons, List.mem_nil_iff, or_false] at h
      rcases h with rfl | rfl <;> exact ⟨by decide, by decide⟩⟩

/-- A copy of queue 3 between the scratchpad and a gang's memory. -/
def tCopy (a b n : Nat) : Copy :=
  { gang := 1, launch := 1, core := 0, die := 0, asid := 1, level := .user, queue := 3, pc := 8, desc := 0, logAddr := 0, src := .spad a
    dst := .gang b, len := n, slen := n, dlen := n, mode := 0, fmt := 0 }
/-- A machine with that copy, its item waiting for it or not. -/
def tCopies (c : Copy) (t : Item) : State :=
  { tMem [(0, 0)] 0 0 with gangs := [(1, { tGang (tGroup t) with gmemSize := 64 })], copies := [(5, c)] }

/-- The second and last unit of a copy that ends with its scratchpad and with gang memory. -/
theorem test_witness_CopyUnits : ∃ (s : State) (i u : Nat) (c : Copy) (b : Nat) (bs : List Byte) (gen : Nat), tfind s.copies i = some c ∧ c.dst = .gang b ∧
    c.src.isPeer = false ∧ c.src.isTile = false ∧ c.mode = 0 ∧ c.stopped = false ∧ c.cleared = [] ∧ u ∉ c.wrote ∧
    (tfind s.gangs c.gang).isSome = true ∧ Memory.wf (gangAt s c.gang).gmem = true ∧ 0 < c.len ∧
    u = (c.src.at + (c.len - 1)) / 32 - c.src.at / 32 ∧
    let lo := max c.src.at ((c.src.at / 32 + u) * 32)
    let hi := min (c.src.at + c.len) ((c.src.at / 32 + u + 1) * 32)
    copyRead s c c.src.space lo (hi - lo) = .ok bs gen ∧ bs.length = hi - lo ∧ bs.getD 28 0 = 9 :=
  ⟨tCopies { tCopy 92 28 36 with wrote := [0] } tItem, 5, 1, { tCopy 92 28 36 with wrote := [0] }, 28,
    List.replicate 28 0 ++ [9, 0, 0, 0], 0, rfl, rfl, rfl, rfl, rfl, rfl, rfl, by decide, by decide, by decide, by decide, by decide,
    by decide, by decide, by decide⟩

/-- The unit just beyond the scratchpad. -/
theorem test_witness_CopyEnds_faults : ∃ (s : State) (i u : Nat) (c : Copy) (b : Nat) (tr : Trap), tfind s.copies i = some c ∧ c.dst = .gang b ∧
    c.src.isPeer = false ∧ c.src.isTile = false ∧ c.mode = 0 ∧ c.stopped = false ∧ c.cleared = [] ∧ u ∉ c.wrote ∧ 0 < c.len ∧
    u ≤ (c.src.at + (c.len - 1)) / 32 - c.src.at / 32 ∧ copyWaiters s c.gang = [] ∧
    let lo := max c.src.at ((c.src.at / 32 + u) * 32)
    copyRead s c c.src.space lo (min (c.src.at + c.len) ((c.src.at / 32 + u + 1) * 32) - lo) = .trap tr :=
  ⟨tCopies (tCopy 96 0 36) tItem, 5, 1, tCopy 96 0 36, 0, { code := 0x0C }, rfl, rfl, rfl, rfl, rfl, rfl, rfl, by decide, by decide,
    by decide, by decide, by decide⟩

/-- A copy that has moved everything, and one that a fault stopped of which nobody has been told. -/
theorem test_witness_CopyEnds : ∀ f ∈ [none, some (0x0C, 32)], ∃ (s : State) (i : Nat) (c : Copy), tfind s.copies i = some c ∧ c.stopped = true ∧
    c.finished = false ∧ c.relScope = none ∧ c.release = none ∧
    (∀ y ∈ s.copies, y.1 < i → ¬(y.2.gang = c.gang ∧ y.2.queue = c.queue ∧ y.2.finished = false)) ∧
    (gangAt s c.gang).phase ≠ .ended ∧ c.fault = f ∧ c.reported = false ∧
    ∃ y, itemIn (groupAt s c.gang 0) 0 = some y ∧ y.wait = .copies 3 [i] :=
  fun f _ => ⟨tCopies { tCopy 96 0 36 with stopped := true, fault := f } { tItem with wait := .copies 3 [5] }, 5,
    { tCopy 96 0 36 with stopped := true, fault := f }, rfl, rfl, rfl, rfl, rfl, by
      simp only [tCopies, List.mem_cons, List.mem_nil_iff, or_false]
      rintro y rfl h
      exact absurd h (Nat.lt_irrefl 5), by simp [tCopies, tCopy, gangAt, tget, tfind, tGang], rfl, rfl,
    { tItem with wait := .copies 3 [5] }, rfl, rfl⟩

/-- With the copy open, and with it gone. -/
theorem test_witness_CopyWaits : ∀ s ∈ [tCopies (tCopy 0 0 64) tItem, tFour], ∃ (o : CwaitOp) (w : Where), (Instr.cwait o).wf = true ∧ Issues s w ∧
    (∀ m ∈ w.b.members, (itemAt s w.b.gang m.1 m.2).wait = .ready) ∧
    ∀ c ∈ s.copies.filter (fun c => c.2.gang = w.b.gang && c.2.queue = o.q.toNat), c.2.fault = none := by
  intro s h
  fin_cases h
  · exact ⟨⟨false, 3⟩, wOne, by decide, issues_of _ _ (by decide), by decide, by decide⟩
  · exact ⟨⟨false, 15⟩, wFour, by decide, issues_of _ _ (by decide), by decide, by decide⟩

/-! ## Witnesses: matrix arrays and the transform unit -/

/-- Four items with extended slices and a gang with 128 bytes of memory that names its group in a descriptor in s0 to s5. -/
def tEngGang (sb : BitVec 16) (v : Cv) : Gang :=
  { tGang { tGroup { tItem with ext := true, sb } with s := [(4, 1)] } with gmemSize := 128, cv := [(15, v)] }
/-- That gang with four operations queued on array 3 of its core, which it holds when `own`, and on the transform unit. -/
def tEng (ms : List (Nat × Nat)) (sb : BitVec 16) (v : Cv) (own : Option Nat) (q : List MatOp) : State :=
  { tAt (tBundle ms) (tEngGang sb v) with
    cores := [(0, { lanes := [(0, tLane (tBundle ms))], arrays := [(3, { owner := own, queue := q, aexp := -128 })], xforms := q })] }
/-- Four operations of another gang. -/
def tOps : List MatOp := (upTo 0 4).map (fun i => { id := i, gang := 9, cv := 0, due := 9 })

theorem engine_of (s : State) (w : Where) (o : EngOp) (fr : Nat)
    (h : (!awaitsLoad s w.b.gang w.b.members { engUses o 0 with read := [(o.areg, 96)] } && decide (w.b.prog.past = none) && decide (o.areg.toNat + fr ≤ 112) &&
      w.b.members.all (fun m => decide (useTrap (groupAt s w.b.gang m.1) m.2 (engUses o fr) = none) &&
        decide ((groupAt s w.b.gang m.1).badV = []) && decide ((groupAt s w.b.gang m.1).badS = []))) = true) : EngineReady s w o fr := by
  simp only [Bool.and_eq_true, decide_eq_true_eq, Bool.not_eq_true', List.all_eq_true] at h
  obtain ⟨⟨⟨a, past⟩, b⟩, c⟩ := h
  exact ⟨a, past, fun m k => (c m k).1.1, fun m k => (c m k).1.2, fun m k => (c m k).2, b⟩

theorem test_witness_MatrixSigning_signs : ∃ (o : EngOp) (s : State) (w : Where) (x : Nat × Nat), (Instr.msign o).wf = true ∧ Issues s w ∧
    w.b.members = [x] ∧ isReal (groupAt s w.b.gang x.1) x.2 = true ∧ (cvAt s w.b.gang o.cv.toNat).st = .free ∧
    (gangAt s w.b.gang).core = w.core ∧
    let d := scalars s w.b.gang x.1 o.dsc.toNat 6
    let fr := fragRegs s w.b.gang (BitVec.ofNat 192 d) (maskGroups (BitVec.ofNat 32 (signMask d))).length
    EngineReady s w o fr ∧ (signMask d).testBit x.1 = true ∧ arrayTaken s w.core o.arr.toNat w.b.gang = false ∧
    (arrayAt s w.core o.arr.toNat).queue.length = 4 ∧
    ∃ g p y, (signMask d).testBit g = true ∧ (g, p) ≠ x ∧ itemIn (groupAt s w.b.gang g) p = some y ∧ y.helper = false ∧
      y.sb.getLsbD o.cv.toNat = false :=
  ⟨⟨false, 15, 3, 16, 0, false, false⟩, tEng [(0, 0)] 0 {} none tOps, wOne, (0, 0), by decide, issues_of _ _ (by decide), rfl, by decide,
    by decide, by decide, engine_of _ _ _ _ (by decide), by decide, by decide, by decide,
    0, 1, { tItem with ext := true, sb := 0 }, by decide, by decide, rfl, rfl, by decide⟩

theorem test_witness_MatrixSigning_issues : ∃ (o : EngOp) (s : State) (w : Where), (Instr.mma o).wf = true ∧ Issues s w ∧
    (∃ m ∈ w.b.members, isReal (groupAt s w.b.gang m.1) m.2 = true) ∧
    (∀ m ∈ w.b.members, ∀ p ∈ livePos (groupAt s w.b.gang m.1), (m.1, p) ∈ w.b.members) ∧
    (cvAt s w.b.gang o.cv.toNat).st = .free ∧ (gangAt s w.b.gang).core = w.core ∧
    EngineReady s w o (fragRegs s w.b.gang (BitVec.ofNat 192 (scalars s w.b.gang ((groupsOf w.b.members).headD 0) o.dsc.toNat 6))
      (groupsOf w.b.members).length) ∧
    arrayTaken s w.core o.arr.toNat w.b.gang = false ∧ (arrayAt s w.core o.arr.toNat).queue.length = 4 :=
  ⟨⟨false, 15, 3, 16, 0, false, false⟩, tEng tAll 0 {} (some 1) tOps, wFour, by decide, issues_of _ _ (by decide),
    ⟨(0, 0), by decide, by decide⟩, by decide, by decide, by decide, engine_of _ _ _ _ (by decide), by decide, by decide⟩

/-- An item that has signed: its operation is issued, or done. -/
theorem test_witness_MatrixSigning_waits : ∀ st ∈ [CvState.issued, .done], ∃ (o : CvOp) (s : State) (w : Where) (x : Nat × Nat),
    (Instr.mwait o).wf = true ∧ Issues s w ∧ w.b.members = [x] ∧ isReal (groupAt s w.b.gang x.1) x.2 = true ∧ w.b.prog.done = false ∧
    Ready s w noUses ∧ (gangAt s w.b.gang).core = w.core ∧ (itemAt s w.b.gang x.1 x.2).sb.getLsbD o.cv.toNat = true ∧
    (cvAt s w.b.gang o.cv.toNat).fault = none ∧ (cvAt s w.b.gang o.cv.toNat).st = st := by
  intro st h
  fin_cases h
  · exact ⟨⟨false, 15⟩, tEng [(0, 0)] 0x8000 { st := .issued } none [], wOne, (0, 0), by decide, issues_of _ _ (by decide), rfl, by decide, rfl,
      ready_of _ _ _ (by decide), by decide, by decide, by decide, by decide⟩
  · exact ⟨⟨false, 15⟩, tEng [(0, 0)] 0x8000 { st := .done } none [], wOne, (0, 0), by decide, issues_of _ _ (by decide), rfl, by decide, rfl,
      ready_of _ _ _ (by decide), by decide, by decide, by decide, by decide⟩

theorem test_witness_AccumulatorReads : ∃ (s : State) (w : Where) (n : BitVec 2), Issues s w ∧ w.b.prog.done = false ∧
    (∃ m ∈ w.b.members, isReal (groupAt s w.b.gang m.1) m.2 = true) ∧ AccReady s w n.toNat ∧ (Instr.maccZero ⟨false, n⟩).wf = true ∧
    Ready s w noUses ∧ (Instr.maccRd ⟨false, 31, 120, n, false, false, 0⟩).wf = true ∧
    Ready s w { named := [(31, 1), (120, 1)], read := [(120, 1)], ext := 0 } ∧ (Instr.maccStat ⟨false, 31, n, false⟩).wf = true ∧
    Ready s w { named := [(31, 1)], read := [], ext := 0 } ∧ (arrayAt s w.core n.toNat).owner = some w.b.gang :=
  ⟨tEng tAll 0 {} (some 1) tOps, wFour, 3, issues_of _ _ (by decide), rfl, ⟨(0, 3), by decide, by decide⟩,
    ⟨by decide, by decide, by decide, by decide⟩, by decide, ready_of _ _ _ (by decide), by decide, ready_of _ _ _ (by decide), by decide,
    ready_of _ _ _ (by decide), by decide⟩

/-- A header at 0 of an f32 tile of 1 × 2 elements that ends with its gang's memory, EXP −1. -/
def tTile : State :=
  { tEng [(0, 0)] 0 {} (some 1) tOps with
    gangs := [(1, { tEngGang 0 {} with gmemSize := 40, gmem := [(0, 32), (4, 1), (6, 2), (10, 0xFE), (11, 1)] })] }

theorem test_witness_AccumulatorTiles : ∃ (o : AccMemOp) (s : State) (w : Where) (x : Nat × Nat) (h : Nat), Issues s w ∧ w.b.members = [x] ∧
    isReal (groupAt s w.b.gang x.1) x.2 = true ∧ w.b.prog.done = false ∧ AccReady s w o.arr.toNat ∧
    Ready s w { named := [(o.a, 1)], read := [(o.a, 1)], ext := o.ext } ∧ (gangAt s w.b.gang).badGmem = [] ∧
    Memory.wf (gangAt s w.b.gang).gmem = true ∧ (Instr.maccSt o).wf = true ∧ (Instr.maccLd o).wf = true ∧
    let off := ((operandOf s w.b.gang x.1 x.2 o.ext { f := o.a }).setWidth 32 : Word).toNat
    let m := modOf none [o.a] o.x o.ext
    headerNow s w.b.gang off = some h ∧ m % 512 = 254 ∧ accMemTrap s w.b.gang off (m % 512) (m / 512 % 1024) true = none ∧
    accMemTrap s w.b.gang off (m % 512) (m / 512 % 1024) false = none ∧ aexpOf s w.core o.arr.toNat w.b.gang = -128 ∧
    off + 16 ≤ (tileOf h).base ∧ openRuns s w.b.gang 0 = [] :=
  ⟨⟨false, 120, 3, true, 254⟩, tTile, wOne, (0, 0), 32 + 2 ^ 32 + 2 * 2 ^ 48 + 255 * 2 ^ 81, issues_of _ _ (by decide), rfl, by decide, rfl,
    ⟨by decide, by decide, by decide, by decide⟩, ready_of _ _ _ (by decide), by decide, by decide, by decide, by decide, by decide,
    by decide, by decide, by decide, by decide, by decide, by decide⟩

/-- An operation on an array and one on the transform unit, whose register is issued and held. -/
theorem test_witness_EngineCompletes : ∀ u ∈ [3, 4], ∃ (s : State) (core : Nat) (q : MatOp) (rest : List MatOp), unitQueue s core u = q :: rest ∧
    u ≤ 4 ∧ (gangAt s q.gang).phase ≠ .ended ∧ (gangAt s q.gang).core = core ∧ cvHeld (gangAt s q.gang) q.cv = true ∧
    (tfind s.gangs q.gang).isSome = true ∧ ∀ e ∈ (gangAt s q.gang).cv, e.2.st = .collecting → e.1 = q.cv := by
  intro u h
  fin_cases h <;>
  exact ⟨tEng tAll 0x8000 { st := .issued, arr := 3 } (some 1) [{ id := 5, gang := 1, cv := 15, due := 0 }], 0,
    { id := 5, gang := 1, cv := 15, due := 0 }, [], by decide, by decide, by decide, by decide, by decide, by decide, by decide⟩

/-- An A tile of 2 × 2 and a B tile of 2 × 16 f16 elements that ends with gang memory. -/
def tDense : State :=
  tEng tAll 0x8000 { st := .issued, arr := 3, desc := BitVec.ofNat 192 (16 * 2 ^ 64 + 240 * 2 ^ 75 + 2 ^ 128), groups := [0]
                     hdrs := [some (64 + 2 * 2 ^ 32 + 16 * 2 ^ 48 + 2 ^ 64 + 2 ^ 74), some (2 * 2 ^ 32 + 2 * 2 ^ 48 + 2 ^ 64)] }
    (some 1) [{ id := 5, gang := 1, cv := 15, due := 0 }]

theorem test_witness_DenseProducts : ∃ (s : State) (core arr : Nat) (q : MatOp) (rest : List MatOp) (hb ha : Nat) (c : MatClass), arr < 4 ∧
    (arrayAt s core arr).queue = q :: rest ∧ (arrayAt s core arr).owner = some q.gang ∧
    let v := cvAt s q.gang q.cv
    v.hdrs = [some hb, some ha] ∧ tileClass (tileOf ha) (tileFmt v.fmts (tileOf ha)) = some c ∧ c.complex = false ∧
    matCheck (gangAt s q.gang).gmemSize v (some (arrayAt s core arr).aexp) = none ∧ (matDesc v.desc).mode = 0 ∧
    (matDesc v.desc).acc = false ∧ v.sp = false ∧ (arrayAt s core arr).latch = none ∧ (arrayAt s core arr).badCol = [] ∧
    (gangAt s q.gang).badGmem = [] ∧ openRuns s q.gang 0 = [] ∧ (gangAt s q.gang).phase ≠ .ended ∧
    ∃ fw : Nat → Word, ∀ i < 3072, fragWord s q.gang q.cv v i = (fw i, false, false) :=
  ⟨tDense, 0, 3, { id := 5, gang := 1, cv := 15, due := 0 }, [], 64 + 2 * 2 ^ 32 + 16 * 2 ^ 48 + 2 ^ 64 + 2 ^ 74,
    2 * 2 ^ 32 + 2 * 2 ^ 48 + 2 ^ 64, .c16, by decide, rfl, by decide, rfl, by decide, by decide, by decide, by decide, by decide, rfl,
    by decide, by decide, by decide, by decide, by decide, fun _ => 0, fun _ _ => rfl⟩

theorem test_witness_EngineIssues_transform : ∃ (o : XformOp) (s : State) (w : Where) (x : Nat × Nat), (Instr.xform o).wf = true ∧ Issues s w ∧
    w.b.members.find? (fun m => isReal (groupAt s w.b.gang m.1) m.2) = some x ∧
    Ready s w { named := [(124, 3)], read := [(124, 3)], ext := BitVec.ofNat 32 o.dsc.toNat } ∧
    (cvAt s w.b.gang o.cv.toNat).st = .free ∧ (gangAt s w.b.gang).core = w.core ∧ (coreAt s w.core).xforms.length = 4 :=
  ⟨⟨false, 15, 61⟩, tEng tAll 0 {} none tOps, wFour, (0, 0), by decide, issues_of _ _ (by decide), by decide, ready_of _ _ _ (by decide),
    by decide, by decide, by decide⟩

/-! ## Witnesses: system selectors -/

/-- Item 0 at a level, with registers v4 to v7 as given. -/
def tSys (l : Level) (a b : Word) : State :=
  tMem [(0, 0)] 0 0 |> fun s => { s with gangs := [(1, { tMemGang a 0 with groups :=
    [(0, { tGroup { tItem with level := l } with v := [(4, .const a), (5, .const b), (6, .const a), (7, .const b)] })] })] }

theorem single_of (s : State) (w : Where) (x : Nat × Nat) (h : (issuesB s w && decide (w.b.members = [x]) &&
    isReal (groupAt s w.b.gang x.1) x.2 && !w.b.prog.done && decide (w.b.prog.results = [])) = true) : Single s w x := by
  simp only [Bool.and_eq_true, decide_eq_true_eq, Bool.not_eq_true'] at h
  obtain ⟨⟨⟨⟨a, b⟩, c⟩, d⟩, e⟩ := h
  exact ⟨issues_of _ _ a, b, c, d, e⟩

theorem test_witness_SystemResults_getst : ∃ (o : DOp) (s : State) (w : Where), (Instr.getst o).wf = true ∧ Issues s w ∧ w.b.prog.done = false ∧
    Ready s w { named := [(o.d, 1)], read := [], ext := 0 } :=
  ⟨⟨false, 31⟩, tFour, wFour, by decide, issues_of _ _ (by decide), rfl, ready_of _ _ _ (by decide)⟩

theorem test_witness_SystemResults_setst : ∃ (o : DaOp) (s : State) (w : Where) (x : Nat × Nat), (Instr.setst o).wf = true ∧ Single s w x ∧
    Ready s w (daUses o 1 1) :=
  ⟨⟨false, 8, 4, true, 0x3E⟩, tSys .user 1 0, wOne, (0, 0), by decide, single_of _ _ _ (by decide), ready_of _ _ _ (by decide)⟩

/-- Code 8, the last of the first range of counts, and word 4 of the storage log. -/
theorem test_witness_SystemResults_counters : ∀ a ∈ [(8 : Word), 0x14, 0x114], ∃ (o : DaOp) (s : State) (w : Where) (x : Nat × Nat),
    Single s w x ∧ Ready s w (daUses o 2 1) ∧ (Instr.perfrd o).wf = true ∧ (Instr.errlog o).wf = true ∧
    (itemAt s w.b.gang x.1 x.2).level = .supervisor ∧
    (operandOf s w.b.gang x.1 x.2 o.ext { f := o.a }).setWidth 32 = a := by
  intro a h
  fin_cases h
  · exact ⟨⟨false, 8, 4, false, 0⟩, tSys .supervisor 8 0, wOne, (0, 0), single_of _ _ _ (by decide), ready_of _ _ _ (by decide), by decide,
      by decide, by decide, by decide⟩
  · exact ⟨⟨false, 8, 4, false, 0⟩, tSys .supervisor 0x14 0, wOne, (0, 0), single_of _ _ _ (by decide), ready_of _ _ _ (by decide), by decide,
      by decide, by decide, by decide⟩
  · exact ⟨⟨false, 8, 4, false, 0⟩, tSys .supervisor 0x114 0, wOne, (0, 0), single_of _ _ _ (by decide), ready_of _ _ _ (by decide), by decide,
      by decide, by decide, by decide⟩

theorem test_witness_SystemResults_halt : ∃ (o : AOp) (s : State) (w : Where) (x : Nat × Nat), (Instr.halt o).wf = true ∧ Single s w x ∧
    Ready s w (aUses o 1) ∧ (itemAt s w.b.gang x.1 x.2).level = .supervisor ∧ (gangAt s w.b.gang).phase ≠ .contained ∧ s.rootOps = [] ∧
    ((fnAt s (gangAt s w.b.gang).fn).tail + 128 - (fnAt s (gangAt s w.b.gang).fn).head) % 128 = 63 ∧
    (gangAt s w.b.gang).asid < 4096 ∧ (gangAt s w.b.gang).queue < 8 :=
  ⟨⟨false, 4, false, 0⟩, { tSys .supervisor 0xFFFF 0 with fns := [(0, { head := 65, tail := 0 })] }, wOne, (0, 0), by decide,
    single_of _ _ _ (by decide), ready_of _ _ _ (by decide), by decide, by decide, rfl, by decide, by decide, by decide⟩

/-- A machine of an ASID whose items may inject errors, with array 3 held. -/
def tInject (a : Word) : State :=
  { tSys .user a 0 with
    ctx := [(1, 1#128 <<< 66)]
    cores := [(0, { lanes := [(0, tLane (tBundle [(0, 0)]))], arrays := [(3, { owner := some 1 })] })] }

/-- The last words of gang memory, of the scratchpad and of an accumulator, and the item's last base register. -/
theorem test_witness_SystemResults_inject : ∀ k ∈ [(0, 63), (1, 127), (3, 16383), (4, 31)], ∃ (o : InjectOp) (s : State) (w : Where) (x : Nat × Nat),
    (Instr.inject o).wf = true ∧ Single s w x ∧ (tget s.ctx (gangAt s w.b.gang).asid 0).getLsbD 66 = true ∧ o.ext.toNat % 16 = k.1 ∧
    Ready s w { named := [(o.a, 1)], read := [(o.a, 1)], ext := 0 } ∧
    let a := ((operandOf s w.b.gang x.1 x.2 0 { f := o.a }).setWidth 32 : Word).toNat
    let arr := o.ext.toNat / 32 % 4
    a = k.2 ∧ a < 16384 ∧ (k.1 = 0 → a < (gangAt s w.b.gang).gmemSize ∧ (gangAt s w.b.gang).badGmem = []) ∧
    (k.1 = 1 → a < (localOf s w.b.gang true).size ∧ (localOf s w.b.gang true).bad = []) ∧
    (k.1 = 3 → (arrayAt s w.core arr).owner = some w.b.gang ∧ (arrayAt s w.core arr).badAcc = []) ∧ (k.1 = 4 → a < 32) := by
  intro k h
  fin_cases h
  · exact ⟨⟨false, 4, 0⟩, tInject 63, wOne, (0, 0), by decide, single_of _ _ _ (by decide), by decide, by decide,
      ready_of _ _ _ (by decide), by decide, by decide, by decide, by decide, by decide, by decide⟩
  · exact ⟨⟨false, 4, 17⟩, tInject 127, wOne, (0, 0), by decide, single_of _ _ _ (by decide), by decide, by decide,
      ready_of _ _ _ (by decide), by decide, by decide, by decide, by decide, by decide, by decide⟩
  · exact ⟨⟨false, 4, 99⟩, tInject 16383, wOne, (0, 0), by decide, single_of _ _ _ (by decide), by decide, by decide,
      ready_of _ _ _ (by decide), by decide, by decide, by decide, by decide, by decide, by decide⟩
  · exact ⟨⟨false, 4, 4⟩, tInject 31, wOne, (0, 0), by decide, single_of _ _ _ (by decide), by decide, by decide,
      ready_of _ _ _ (by decide), by decide, by decide, by decide, by decide, by decide, by decide⟩

/-- A pending position of the first sector of page 0 of ASID 1. -/
def tStored : State :=
  setWriter (tPage (tInject 0)) 0 { pend := [{ asid := 1, sub := 0, pos := [(0, 32768)], born := 0, tick := 0, ck := 0 }] }

theorem test_witness_SystemResults_inject_log : ∃ (o : InjectOp) (s : State) (w : Where) (x : Nat × Nat) (leaf : DWord), (Instr.inject o).wf = true ∧
    Single s w x ∧ (tget s.ctx (gangAt s w.b.gang).asid 0).getLsbD 66 = true ∧ o.ext.toNat % 16 = 2 ∧
    Ready s w { named := [(o.a, 2)], read := [(o.a, 2)], ext := 0 } ∧ s.badLog = [] ∧
    let va := (operandOf s w.b.gang x.1 x.2 0 { f := o.a, wide := true }).toNat
    whoXlate s (whoOf s w x.1 x.2) false false va 1 = .ok [(vpnOf va, leaf)] ∧
    (baseStored s (clusterOf w.core) (dieOf w.core) (gangAt s w.b.gang).asid (keyOf leaf va)).isSome = true :=
  ⟨⟨false, 4, 18⟩, tStored, wOne, (0, 0), 7, by decide, single_of _ _ _ (by decide), by decide, by decide, ready_of _ _ _ (by decide), rfl,
    by decide, by decide⟩

/-- A record at its slot whose resume point is the word at 20 of the code line at 0. -/
def tFrame : State :=
  let s := tCode (tAt (tBundle [(0, 0)]) (tGang (tGroup { tItem with frame := true, level := .supervisor }))) []
  let w := writerAt s 0
  setWriter s 0 { w with tail := w.tail ++ [{ asid := 1, key := 0x80, data := BitVec.ofNat 256 (20 * 2 ^ 64), mask := 0xFFFFFFFF, st := .open
                                              born := 0, tick := 1, ck := 0 }] }

set_option maxRecDepth 4000 in
theorem test_witness_SystemResults_rett : ∃ (o : NullOp) (s : State) (w : Where) (x : Nat × Nat) (l : List Byte) (gen : Nat), (Instr.rett o).wf = true ∧
    Single s w x ∧ x.2 < 32 ∧ (itemAt s w.b.gang x.1 x.2).frame = true ∧ (itemAt s w.b.gang x.1 x.2).held = [] ∧ loadsGo s w ∧
    l.length = 192 ∧ gen ≤ seenOf s w.core (gangAt s w.b.gang).asid ∧
    readLog s { whoOf s w x.1 x.2 with level := .supervisor } false false (recordSlot s w.b.gang x) 192 = .ok l gen ∧
    rettTarget s w (gangAt s w.b.gang).asid (ofBytes ((l.drop 8).take 8)) = .ok :=
  ⟨⟨false⟩, tFrame, wOne, (0, 0), List.replicate 8 0 ++ [20] ++ List.replicate 183 0, 0, by decide, single_of _ _ _ (by decide), by decide,
    by decide, by decide, ⟨by decide, by decide, agrees_of _ _ (by decide)⟩, by decide, by decide, by decide, by decide⟩

/-- A format's image in the first sector of page 0. -/
def tImage (l : Level) (a : Word) : State :=
  setWriter (tPage (tSys l a 0)) 0 { tail := [{ asid := 1, key := 0, data := 0x115, mask := 0xFFFFFFFF, st := .open, born := 0, tick := 1, ck := 0 }] }

theorem test_witness_Images_fmtld : ∃ (o : DaOp) (s : State) (w : Where) (x : Nat × Nat) (l : List Byte) (gen : Nat), Single s w x ∧ loadsGo s w ∧
    gen ≤ seenOf s w.core (gangAt s w.b.gang).asid ∧ (Instr.fmtld o).wf = true ∧ Ready s w (daUses o 0 2) ∧
    let a := (operandOf s w.b.gang x.1 x.2 o.ext { f := o.a, wide := true }).toNat
    a % 32 = 0 ∧ l.length = 32 ∧ readLog s (whoOf s w x.1 x.2) false false a 32 = .ok l gen ∧
    fmtOk (BitVec.ofNat 256 (ofBytes l)) = true :=
  ⟨⟨false, 31, 4, false, 0⟩, tImage .user 0, wOne, (0, 0), [0x15, 1] ++ List.replicate 30 0, 0, single_of _ _ _ (by decide),
    ⟨by decide, by decide, agrees_of _ _ (by decide)⟩, by decide, by decide, ready_of _ _ _ (by decide), by decide, by decide, by decide, by decide⟩

set_option maxRecDepth 8000 in
theorem test_witness_Images_patld : ∃ (o : DaOp) (s : State) (w : Where) (x : Nat × Nat) (l : List Byte) (gen : Nat), Single s w x ∧ loadsGo s w ∧
    gen ≤ seenOf s w.core (gangAt s w.b.gang).asid ∧ (Instr.patld o).wf = true ∧ Ready s w (daUses o 0 2) ∧
    let a := (operandOf s w.b.gang x.1 x.2 o.ext { f := o.a, wide := true }).toNat
    a % 256 = 0 ∧ l.length = 256 ∧ readLog s (whoOf s w x.1 x.2) false false a 256 = .ok l gen ∧ ∀ b ∈ l.drop 144, b = 0 :=
  ⟨⟨false, 15, 4, false, 0⟩, tImage .user 0, wOne, (0, 0), [0x15, 1] ++ List.replicate 254 0, 0, single_of _ _ _ (by decide),
    ⟨by decide, by decide, agrees_of _ _ (by decide)⟩, by decide, by decide, ready_of _ _ _ (by decide), by decide, by decide, by decide,
    by decide⟩

theorem test_witness_Images_ctxld : ∃ (o : AOp) (s : State) (w : Where) (x : Nat × Nat) (l : List Byte) (gen : Nat), Single s w x ∧ loadsGo s w ∧
    gen ≤ seenOf s w.core (gangAt s w.b.gang).asid ∧ (Instr.ctxld o).wf = true ∧ Ready s w (aUses o 2) ∧
    (itemAt s w.b.gang x.1 x.2).level = .supervisor ∧
    let a := (operandOf s w.b.gang x.1 x.2 o.ext { f := o.a, wide := true }).toNat
    a % 16 = 0 ∧ l.length = 16 ∧ readLog s (whoOf s w x.1 x.2) false false a 16 = .ok l gen ∧
    ctxRefused s (gangAt s w.b.gang).asid (ofBytes l) = false :=
  ⟨⟨false, 4, false, 0⟩, tImage .supervisor 16, wOne, (0, 0), List.replicate 16 0, 0, single_of _ _ _ (by decide),
    ⟨by decide, by decide, agrees_of _ _ (by decide)⟩, by decide, by decide, ready_of _ _ _ (by decide), by decide, by decide, by decide, by decide, by decide⟩

theorem test_witness_Images_stores : ∃ (o : DaOp) (q : AOp) (s : State) (w : Where) (x : Nat × Nat) (leaf : DWord), Single s w x ∧
    tailPlain s (clusterOf w.core) ∧ (writerAt s (clusterOf w.core)).tail.length < 65536 ∧ (Instr.fmtst o).wf = true ∧
    Ready s w (daUses o 0 2) ∧ (Instr.ctxsv q).wf = true ∧ Ready s w (aUses q 2) ∧ (itemAt s w.b.gang x.1 x.2).level = .supervisor ∧
    let a := (operandOf s w.b.gang x.1 x.2 o.ext { f := o.a, wide := true }).toNat
    let b := (operandOf s w.b.gang x.1 x.2 q.ext { f := q.a, wide := true }).toNat
    a % 32 = 0 ∧ whoXlate s (whoOf s w x.1 x.2) true false a 32 = .ok [(vpnOf a, leaf)] ∧
    b % 16 = 0 ∧ whoXlate s (whoOf s w x.1 x.2) true false b 16 = .ok [(vpnOf b, leaf)] :=
  ⟨⟨false, 31, 4, false, 0⟩, ⟨false, 4, false, 0⟩, tImage .supervisor 0xFFE0, wOne, (0, 0), 7, single_of _ _ _ (by decide),
    by unfold tailPlain; decide, by decide, by decide, ready_of _ _ _ (by decide), by decide, ready_of _ _ _ (by decide), by decide,
    by decide, by decide, by decide, by decide⟩

/-! ## Witnesses: events, launches, retained roots and reordering -/

theorem test_witness_SignalResults_evsig : ∃ (o : DaOp) (s : State) (w : Where) (x : Nat × Nat), Single s w x ∧ (Instr.evsig o).wf = true ∧
    Ready s w (daUses o 1 1) ∧ released s (makeRelease s w.core w.b.gang (gangAt s w.b.gang).asid 5) = true ∧
    ((operandOf s w.b.gang x.1 x.2 o.ext { f := o.a }).setWidth 32 : Word).toNat % 256 = 255 :=
  ⟨⟨false, 8, 4, false, 0⟩, tSys .user 0x1FF 0, wOne, (0, 0), single_of _ _ _ (by decide), by decide, ready_of _ _ _ (by decide), by decide,
    by decide⟩

/-- The counter of slot 255 holds 7, of ASID 1 owned by function 0: 7 is reached, 8 is not. -/
def tEvents (mark : Word) : State := { tSys .user 0xFF mark with fns := [(0, { ev := [(255, 7)] })] }

theorem test_witness_SignalResults_evwait : ∀ n ∈ [(7 : Word), 8], ∃ (o : DaOp) (s : State) (w : Where) (x : Nat × Nat), Single s w x ∧
    (Instr.evwait o).wf = true ∧ Ready s w (daUses o 1 2) ∧ w.b.prog.waited = false ∧ w.b.prog.began = none ∧
    let a := (operandOf s w.b.gang x.1 x.2 o.ext { f := o.a, wide := true }).toNat
    (tget (fnAt s (astEntry s (gangAt s w.b.gang).asid).fn).ev (a % 256) 0 - BitVec.ofNat 32 (a / 2 ^ 32)).toNat < 2 ^ 31 ↔ n = 7 := by
  intro n h
  fin_cases h
  · exact ⟨⟨false, 8, 4, false, 0⟩, tEvents 7, wOne, (0, 0), single_of _ _ _ (by decide), by decide, ready_of _ _ _ (by decide), rfl, rfl,
      by decide⟩
  · exact ⟨⟨false, 8, 4, false, 0⟩, tEvents 8, wOne, (0, 0), single_of _ _ _ (by decide), by decide, ready_of _ _ _ (by decide), rfl, rfl,
      by decide⟩

/-- A wait that began 2,048 clk ago. -/
theorem test_witness_SignalResults_timeout : ∃ s core lane b since fn marks, (laneAt s core lane).bundle = some b ∧
    b.stall = some (.evwait since fn marks) ∧ since + 2048 = s.now :=
  ⟨{ tAt { tBundle tAll with stall := some (.evwait 2 0 [(255, 8)]) } (tGang (tGroup tItem)) with now := 2050 }, 0, 0,
    { tBundle tAll with stall := some (.evwait 2 0 [(255, 8)]) }, 2, 0, [(255, 8)], rfl, rfl, rfl⟩

/-- A launch of four items by ASID 1. -/
def tPacket : BitVec 512 := BitVec.ofNat 512 (3 + 32 * 2 ^ 96 + 2 ^ 112 + 2 ^ 128 + 2 ^ 144 + 2 ^ 191 + 8 * 2 ^ 220)
/-- That packet in the first two sectors of page 0, ASID 1 enabled, `n` launches queued. -/
def tLaunch (n : Nat) : State :=
  setWriter (tPage { tSys .user 7 0 with fixed := tTables, launches := (upTo 2 n).map (fun i => (i, { fn := 0, queue := 7, lseq := 0, pkt := 0 })) }) 0
    { tail := [{ asid := 1, key := 0, data := tPacket.setWidth 256, mask := 0xFFFFFFFF, st := .open, born := 0, tick := 1, ck := 0 }] }

/-- With 63 launches in the queue, the last place is free. -/
theorem test_witness_SignalResults_launch : ∃ (o : DaOp) (s : State) (w : Where) (x : Nat × Nat) (l : List Byte) (gen : Nat),
    (Instr.launch o).wf = true ∧ Single s w x ∧ Ready s w (daUses o 1 2) ∧ loadsGo s w ∧
    released s (makeRelease s w.core w.b.gang (gangAt s w.b.gang).asid 5) = true ∧ (s.launches.map Prod.fst).Pairwise (· < ·) ∧
    let asid := (gangAt s w.b.gang).asid
    let fn := (astEntry s asid).fn
    let a := (operandOf s w.b.gang x.1 x.2 o.ext { f := o.a, wide := true }).toNat
    a / 8 % 8 = 0 ∧ l.length = 64 ∧ gen ≤ seenOf s w.core asid ∧
    readLog s (whoOf s w x.1 x.2) false false (a / 64 * 64) 64 = .ok l gen ∧ (fnAt s fn).spstat.getLsbD 14 = false ∧
    packetReason s fn (BitVec.ofNat 512 (ofBytes l)) (decide ((itemAt s w.b.gang x.1 x.2).level = .user)) (some asid)
      (some (gangAt s w.b.gang).fn) = 0 ∧ (queueOf s fn (a % 8)).length = 63 :=
  ⟨⟨false, 8, 4, false, 0⟩, tLaunch 63, wOne, (0, 0),
    [3, 0, 0, 0, 0, 0, 0, 0, 0, 0, 0, 0, 32, 0, 1, 0, 1, 0, 1, 0, 0, 0, 0, 0x80, 0, 0, 0, 0x80] ++ List.replicate 36 0, 0,
    by decide, single_of _ _ _ (by decide), ready_of _ _ _ (by decide), ⟨by decide, by decide, agrees_of _ _ (by decide)⟩, by decide, by decide +kernel, by decide, by decide,
    by decide, by decide +kernel, by decide, by decide +kernel, by decide +kernel⟩

theorem test_witness_SignalResults_trig : ∃ (o : AOp) (s : State) (w : Where) (x : Nat × Nat), (Instr.trig o).wf = true ∧ Single s w x ∧
    Ready s w (aUses o 1) ∧ (fnAt s (astEntry s (gangAt s w.b.gang).asid).fn).utrig = true ∧ s.capture.fired = false :=
  ⟨⟨false, 4, false, 0⟩, { tSys .user 0xFFFF 0 with fns := [(0, { utrig := true })] }, wOne, (0, 0), by decide, single_of _ _ _ (by decide),
    ready_of _ _ _ (by decide), by decide, by decide⟩

theorem test_witness_RetainedRoots : ∃ i o kind an n ck s w x, rootCommand i = some (o, kind, an, n, ck) ∧ i.wf = true ∧ Issues s w ∧
    w.b.members = [x] ∧ isReal (groupAt s w.b.gang x.1) x.2 = true ∧ w.b.prog.done = false ∧ Ready s w (daUses o n an) ∧
    w.b.prog.results = [] ∧ (kind = 2 → (itemAt s w.b.gang x.1 x.2).level = .supervisor) ∧
    rootCheck s (gangAt s w.b.gang).asid (0x10 + kind) (itemAt s w.b.gang x.1 x.2).level (rootName s w.b.gang x.1 x.2 o kind).1
      (rootName s w.b.gang x.1 x.2 o kind).2.1 = none :=
  ⟨.rollback ⟨false, 8, 4, false, 0⟩, _, _, _, _, _, tSys .supervisor 5 0x00010000, wOne, (0, 0), rfl, by decide, issues_of _ _ (by decide), rfl,
    by decide, rfl, ready_of _ _ _ (by decide), rfl, fun _ => by decide, by decide⟩

theorem test_witness_RetainedRoots_ended : ∃ i o kind an n ck s w x lo hi, rootCommand i = some (o, kind, an, n, ck) ∧ i.wf = true ∧ Issues s w ∧
    w.b.members = [x] ∧ isReal (groupAt s w.b.gang x.1) x.2 = true ∧ w.b.prog.done = false ∧ Ready s w (daUses o n an) ∧
    w.b.prog.results = [(0, 0, [lo, hi])] :=
  ⟨.snap ⟨false, 8, 120, false, 0⟩, _, _, _, _, _, tAt { tBundle [(0, 0)] with prog := { results := [(0, 0, [9, 0x20001000])] } }
      (tGang (tGroup tItem)), tWhere { tBundle [(0, 0)] with prog := { results := [(0, 0, [9, 0x20001000])] } }, (0, 0), 9, 0x20001000, rfl,
    by decide, issues_of _ _ (by decide), rfl, by decide, rfl, ready_of _ _ _ (by decide), rfl⟩

/-- A bin one record short of its flush. -/
theorem test_witness_ReorderDeposits : ∃ (o : ReordOp) (s : State) (w : Where) (x : Nat × Nat), (Instr.reord o).wf = true ∧ Single s w x ∧
    Ready s w (reordUses o) ∧
    let g := gangAt s w.b.gang
    let cont : DWord := (sOf s w.b.gang x.1 (reordS o + 1) ++ sOf s w.b.gang x.1 (reordS o) : DWord)
    let key := (operandOf s w.b.gang x.1 x.2 0 { f := o.a }).toNat % 65536
    released s (makeRelease s w.core w.b.gang g.asid 3) = true ∧
    checkTarget s w.core w.b.prog.answers g.asid (itemAt s w.b.gang x.1 x.2).level true cont = .ok ∧
    reorderCount s g.die + 1 < 98304 ∧
    (∀ b ∈ (dieAt s g.die).bins, b.launch = g.launch → b.cont = cont → b.key = key → b.recs.length < 31) ∧
    ∃ b ∈ (dieAt s g.die).bins, b.launch = g.launch ∧ b.cont = cont ∧ b.key = key ∧ b.recs.length = 30 :=
  ⟨⟨false, 8, 4, 0xA2⟩, tCode { tAt (tBundle [(0, 0)]) (tGang { tGroup tItem with v := [(4, .const 7)], s := [(10, 8)] }) with
      dies := [(0, { bins := [{ launch := 1, cont := 8, key := 7, recs := (upTo 0 30).map (fun i => (i, [1, 2])) }] })] } [], wOne, (0, 0),
    by decide, single_of _ _ _ (by decide), ready_of _ _ _ (by decide), by decide, by decide, by decide, by decide,
    { launch := 1, cont := 8, key := 7, recs := (upTo 0 30).map (fun i => (i, [1, 2])) }, by decide, by decide, by decide, by decide,
    by decide⟩

/-! ## Witnesses: a lane's own events -/

/-- A fetch of bank 13 that ends now, and a stall for it that does. -/
theorem test_witness_LaneEvents_banks : ∃ s core lane due gang g bank res, (laneAt s core lane).fetch = some (due, [(gang, g, bank)]) ∧ due ≤ s.now ∧
    (res, gang, g) ∈ (laneAt s core lane).res ∧ (laneAt s core lane).slots.length = 2 :=
  ⟨{ tFour with now := 5, cores := [(0, { lanes := [(0, { tLane (tBundle tAll) with fetch := some (5, [(1, 0, 13)]) })] })] }, 0, 0, 5, 1, 0, 13, 0,
    rfl, by decide, by decide, rfl⟩

theorem test_witness_LaneEvents_stall : ∃ s core lane b till gang g bank res, (laneAt s core lane).bundle = some b ∧
    b.stall = some (.bank till [(gang, g, bank)]) ∧ till ≤ s.now ∧ (res, gang, g) ∈ (laneAt s core lane).res ∧
    (laneAt s core lane).slots.length = 2 :=
  ⟨tAt { tBundle tAll with stall := some (.bank 0 [(1, 0, 13)]) } (tGang (tGroup tItem)), 0, 0, _, 0, 1, 0, 13, 0, rfl, rfl, by decide,
    by decide, rfl⟩

theorem test_witness_LaneEvents_loads : ∃ s core lane tag gang g, (tag, gang, g) ∈ openLoads s core lane ∧
    ∀ y ∈ openLoads s core lane, tag < y.1 ∨ y.1 = tag ∧ y.2.1 = gang :=
  ⟨tAt (tBundle tAll) (tGang { tGroup tItem with board := [{ gpos := 0, reg := 8, tag := 4 }, { gpos := 1, reg := 8, tag := 3 }] }), 0, 0, 3, 1, 0,
    by decide, by decide⟩

/-- Item 0 has waited a whole interval for a line of its launch's scratchpad; a machine whose watchdog code is handled at 8. -/
def tLate : State :=
  tTraps { tAt (tBundle []) (tGang (tGroup { tItem with wait := .line 0 10 })) with
    now := 1410, launches := [(1, { fn := 0, queue := 0, lseq := 0, pkt := BitVec.ofNat 512 (2 ^ 187) })] } 0x15

set_option maxRecDepth 8000 in
theorem test_witness_LaneEvents_watchdog : ∃ s gang m leaf entry off since T, (itemAt s gang m.1 m.2).wait = .line off since ∧
    pktWatchdog (launchAt s (gangAt s gang).launch).pkt = some T ∧ since + usec T = s.now ∧
    Deliverable (updItem s gang m.1 m.2 (fun t => { t with wait := .ready, readyAt := s.now })) gang m 0x15 leaf entry := by
  refine ⟨tLate, 1, (0, 0), 7, 8, 0, 10, 2, by decide, by decide +kernel, by decide, by decide, by decide, by decide, by unfold tailPlain; decide,
    by decide, by decide, fun l u h e => ?_, fun l u h e => ⟨codeLine [], ?_⟩, by decide⟩ <;>
  rw [loadNow_storeNow e (noLines_of (k := { lanes := [(0, tLane (tBundle []))] }) rfl rfl) (ls := [(0, 7)]) (ls2 := [(0, 7)])
    (by rw [h]; decide) (by decide) (by rw [h]; decide)] <;>
  decide

/-- Item 0 is parked with STACK. -/
def tParked : State :=
  tTraps (tAt (tBundle []) (tGang (tGroup { tItem with wait := .parked { code := 0x0D, pc := 8 } 0 false }))) 0x0D

set_option maxRecDepth 8000 in
theorem test_witness_LaneEvents_parked : ∃ s gang m leaf entry c, (itemAt s gang m.1 m.2).wait = .parked c 0 false ∧ c.code < 32 ∧
    (gangAt s gang).phase ≠ .contained ∧ (gangAt s gang).phase ≠ .saved ∧ Deliverable s gang m c.code leaf entry := by
  refine ⟨tParked, 1, (0, 0), 7, 8, { code := 0x0D, pc := 8 }, by decide, by decide, by decide, by decide, by decide, by decide, by decide,
    by unfold tailPlain; decide, by decide, by decide, fun l u h e => ?_,
    fun l u h e => ⟨codeLine [], ?_⟩, by decide⟩ <;>
  rw [loadNow_storeNow e (noLines_of (k := { lanes := [(0, tLane (tBundle []))] }) rfl rfl) (ls := [(0, 7)]) (ls2 := [(0, 7)])
    (by rw [h]; decide) (by decide) (by rw [h]; decide)] <;>
  decide

/-! ## Witnesses: words, steps and reset -/

theorem test_witness_RoundTrip : ∃ i : Instr, isInstruction i = true ∧ i.wf = true :=
  ⟨.ldv ⟨false, 4, 6, 0x1F, 3, false, true, 0xFFC00000⟩, by decide, by decide⟩
theorem test_witness_DecodeExact : ∃ ws i r, decodeWords ws = some (i, r) ∧ r ≠ [] :=
  ⟨[0x30040C05, 0x00400000, 0xFFFFFFFF], _, _, rfl, by decide⟩
theorem test_witness_DecodeExact_reserved : ∃ w : Word, fOp w = 0x5E ∨ fOp w = 0x5F ∨ fOp w = 0x7F := ⟨0x3F800000, .inr (.inr (by decide))⟩


/-- A lane whose bundle stands at the first packet of a line that holds `ws`. -/
def tStep (ws : List Word) : State :=
  { tCode (tAt { tBundle tAll with line := some 0, fresh := true } (tGang { tGroup tItem with v := [(2, .const 0xFFFFFFF9), (3, .const 2)] })) ws with
    agenda := [.lane 0 0], cursor := none }

/-- The words of the line are an `addi` and 29 words of zeros. -/
theorem test_witness_StepRuns : ∃ s c l i, s.boot.held = false ∧
    let t : State := { sendMsix s with agenda := s.agenda.drop 1, cursor := none }
    s.agenda.head? = some (.lane c l) ∧ (laneAt t c l).busy ≤ t.now ∧
    ∃ b v, b.stall = none ∧ (gangAt t b.gang).phase = .resident ∧ Fetches t c l b i v :=
  ⟨tStep [0x1001041E], 0, 0, .addi ⟨false, false, false, 1, 2, 15⟩, rfl, rfl, by decide,
    { tBundle tAll with line := some 0, fresh := true }, _, rfl, by decide,
    ⟨by decide, .inr (by decide), codeLine [0x1001041E], [], (0x1001041E : Word) :: List.replicate 29 0, List.replicate 29 0,
      by decide +kernel, fun h => absurd h (by decide), .inl rfl, fun _ => rfl, by decide +kernel, by decide +kernel, by decide,
      fun _ => by decide +kernel, fun _ => by decide +kernel, fun k h => absurd h nofun, rfl⟩⟩

theorem test_witness_Reset_held : ∃ s : State, s.boot.held = true ∧ ∀ b r, s.agenda ≠ .event (.moduleReset b) :: r :=
  ⟨{ State.reset with boot := { State.reset.boot with held := true }, agenda := [.lane 0 0] }, rfl, nofun⟩
theorem test_witness_OnlyResetStops : ∃ s : State, s.boot.held = true := ⟨{ State.reset with boot := { State.reset.boot with held := true } }, rfl⟩

/-! ## Single steps on words of the spec's examples -/

/-- Register r of item p of gang 1 after one step at those words. -/
def tStepV (ws : List Word) (r p : Nat) : Option Word :=
  match Machine.step (tStep ws) with
  | .next t => some (vOf t 1 0 r p)
  | _ => none

/-- The `addi` of the encoding tables: −7 + 15. -/
theorem test_step_addi : tStepV [0x1001041E] 1 3 = some 8 := by decide +kernel
/-- −7 / 2 = −3 with remainder −1 (R98). -/
theorem test_step_div : tStepV (encode (.divI ⟨false, false, false, false, 4, 2, 3, 0⟩)) 4 0 = some 0xFFFFFFFD := by decide +kernel
theorem test_step_rem : tStepV (encode (.remI ⟨false, false, false, false, 4, 2, 3, 0⟩)) 4 0 = some 0xFFFFFFFF := by decide +kernel
/-- A 12-bit field at bit 4, sign-extended (R96). -/
theorem test_bfx : bitExtract 0x00ABCDE0 0x00010C04 = 0xFFFFFCDE := by decide
/-- ASID 0x07A and page 0x1235: die 3, slice 19 (R322). -/
theorem test_home : homeDie 0x07A 0x1235 = 3 ∧ homeSlice 0x07A 0x1235 = 19 := by decide
/-- Terms of the bytes 0x11, 0x22, 0x33 of three data chips at holder Q: 0x99 together (R449). -/
theorem test_parity : gfMul 0x11 1 ^^^ gfMul 0x22 2 ^^^ gfMul 0x33 4 = 0x99 := by decide
/-- The launch packet of the example: CHECK 7 makes the nibble XOR zero (R392). -/
theorem test_packet_check : pktCheck (BitVec.ofNat 512 (0x3F + 0xF * 2 ^ 32 + 0x80020 * 2 ^ 96 + 0x7A0001 * 2 ^ 128 + 0x80208200 * 2 ^ 160 +
    0x72088000 * 2 ^ 192 + 0x203 * 2 ^ 224 + 0x1000 * 2 ^ 256)) = true := by decide +kernel

/-! ## Witnesses: gangs, launches and the distributor -/

theorem exists_ok {α : Type} (x : Except Trap (Option α)) (h : (match x with | .ok (some _) => true | _ => false) = true) :
    ∃ u, x = .ok (some u) := by
  split at h
  · exact ⟨_, rfl⟩
  · exact absurd h (by decide)

theorem test_witness_Scheduling_report : ∃ s core, (coreAt s core).dirty = true :=
  ⟨{ tFour with cores := [(0, { lanes := [(0, tLane (tBundle tAll))], dirty := true })] }, 0, rfl⟩

/-- A gang of four items that waits, or was saved, with `m` bytes of memory, on a module whose only core is core 0. -/
def tWaits (ph : GangPhase) (m : Nat) : Gang :=
  { launch := 1, asid := 1, phase := ph, slot := if ph = .waiting then none else some 0, box := { ex := 4 }, since := 10, queue := 2, gmemSize := m
    holding := true }
/-- The machine in which it waits, one save slot given to its function. -/
def tQueue (g : Gang) : State :=
  { State.reset with
    boot := { State.reset.boot with fencedCores := [0xFFFFFFFFFFFFFFFE, 0, 0, 0] }
    gangs := [(2, g)], nextId := 3, now := 20000, fns := [(0, { nslot := 1, qosw := 1 })], fixed := tTables ++ [(0x5080, 7), (0x50A8, 7), (0x50E8, 7)]
    launches := [(1, { fn := 0, queue := 2, lseq := 0, pkt := BitVec.ofNat 512 (2 ^ 192) })] }

theorem test_witness_Scheduling_order : ∃ s die e h core l, nextPlaced s die = some e ∧ oldestHold s die = some h ∧
    coreFor s die e.1 = some (core, l) :=
  ⟨tQueue (tWaits .waiting 64), 0, (2, tWaits .waiting 64), (2, tWaits .waiting 64), 0, [{ lane := 0, take := 8, left := none }],
    by decide +kernel, by decide +kernel, by decide +kernel⟩

theorem test_witness_Scheduling_place : ∃ s die n g u core l, nextPlaced s die = some (n, g) ∧ tfind s.gangs n = some g ∧ g.phase = .waiting ∧
    allocSpad s die g.launch = some u ∧ coreFor s die n = some (core, l) :=
  ⟨tQueue (tWaits .waiting 64), 0, 2, tWaits .waiting 64, _, 0, [{ lane := 0, take := 8, left := none }], by decide +kernel, rfl, rfl,
    (Option.some_get (by decide +kernel : (allocSpad (tQueue (tWaits .waiting 64)) 0 1).isSome = true)).symm, by decide +kernel⟩

/-- The function may pin one unit of scratchpad less than the launch asks for. -/
theorem test_witness_Scheduling_blocked : ∃ s die n g, nextPlaced s die = some (n, g) ∧ tfind s.gangs n = some g ∧ g.phase = .waiting ∧
    allocSpad s die g.launch = none :=
  ⟨{ tQueue (tWaits .waiting 64) with
      fns := [(0, { nslot := 1, qosw := 1, spmax := 1 })]
      launches := [(1, { fn := 0, queue := 2, lseq := 0, pkt := BitVec.ofNat 512 (2 ^ 193) })] }, 0, 2, tWaits .waiting 64,
    by decide +kernel, rfl, rfl, by decide +kernel⟩

/-- A gang that has waited exactly 100 µs. -/
theorem test_witness_Scheduling_age : ∃ (s : State) (gang : Nat) (g : Gang), tfind s.gangs gang = some g ∧ g.phase = .saved ∧ g.holding = false ∧ g.since + usec 100 = s.now :=
  ⟨{ tQueue { tWaits .saved 64 with holding := false } with now := 70010 }, 2, { tWaits .saved 64 with holding := false }, rfl, rfl, rfl, by decide +kernel⟩

/-- Gang 1 stands on the only core and leaves no gang memory for gang 2 of a higher priority, which has waited 20 µs and a clk. -/
def tVictim (ph : GangPhase) (seek : Option (Nat × Nat × List Nat)) : State :=
  let s := tQueue (tWaits .waiting 64)
  { s with
    now := 14011
    gangs := [(1, { tGang {} with phase := ph, groups := [], gmemSize := 64, gmem := [(3, 1)] }), (2, tWaits .waiting 64)]
    cores := [(0, { lanes := [(0, { tLane (tBundle []) with bundle := none })], gmemFree := 0 })]
    fns := [(0, { nslot := 2, slots := [0], qosw := 1 })], dies := [(0, { seek })] }

theorem test_witness_Scheduling_seek : ∃ s gang core l, seekDue s gang = true ∧
    chooseVictims s (gangAt s gang).die (gang, gangAt s gang) = some (core, l) :=
  ⟨tVictim .resident none, 2, 0, [1], by decide +kernel, by decide +kernel⟩

theorem test_witness_Scheduling_stop : ∃ s gang, isVictim s gang = true ∧ (gangAt s gang).phase = .resident :=
  ⟨tVictim .resident (some (2, 0, [1])), 1, by decide, by decide⟩

theorem writeSections_room {core asid base : Nat} : ∀ (l : List (Nat × List Byte)) (s : State), NoLines s →
    (∀ x ∈ l, ∃ ls, translateNow s { asid, level := .supervisor, write := true } (base + x.1) x.2.length = .ok ls) →
    (writerAt s (clusterOf core)).tail.length + (l.map (fun x => (sectorsOf (base + x.1) x.2.length).length)).sum ≤ 65536 →
    ∃ u, writeSections s core asid base l = .ok (some u)
  | [], s, _, _, _ => ⟨s, rfl⟩
  | (off, b) :: r, s, hl, ht, hn => by
    simp only [List.map_cons, List.sum_cons] at hn
    obtain ⟨ls, e⟩ := ht (off, b) (by simp)
    dsimp only at e
    obtain ⟨t, h, a, c, d⟩ := storeNow_room (core := core) hl e (by omega)
    obtain ⟨u, k⟩ := writeSections_room (core := core) r t a (fun x hx => by
      obtain ⟨ls, q⟩ := ht x (by simp [hx]); exact ⟨ls, (translateNow_same c _ _ _).trans q⟩) (by omega)
    exact ⟨u, by unfold writeSections; rw [h]; exact k⟩

/-- Whether a translation succeeds. -/
def xlateOk : Xlate → Bool
  | .ok _ => true
  | _ => false

theorem test_witness_Scheduling_save : ∃ s gang u, saveDue s gang = true ∧ (gangAt s gang).saving = none ∧
    writeSections s (gangAt s gang).core (gangAt s gang).asid (saveBase s (gangAt s gang)) (saveSections s gang) = .ok (some u) := by
  let s := tVictim .stopping (some (2, 0, [1]))
  obtain ⟨u, h⟩ := writeSections_room (core := 0) (asid := 1) (base := saveBase s (gangAt s 1)) (saveSections s 1) s
    (noLines_of (k := { lanes := [(0, { tLane (tBundle []) with bundle := none })], gmemFree := 0 }) rfl rfl)
    (fun x hx => by
      have : (saveSections s 1).all (fun x => xlateOk (translateNow s { asid := 1, level := .supervisor, write := true }
        (saveBase s (gangAt s 1) + x.1) x.2.length)) = true := by decide +kernel
      have k := List.all_eq_true.mp this x hx
      cases e : translateNow s { asid := 1, level := .supervisor, write := true } (saveBase s (gangAt s 1) + x.1) x.2.length with
      | ok ls => exact ⟨ls, rfl⟩
      | _ => simp [e, xlateOk] at k) (by decide +kernel)
  exact ⟨s, 1, u, by decide, by decide, h⟩

/-- A save whose release is met and whose transfer has just ended. -/
theorem test_witness_Scheduling_saved : ∃ s gang r, saveDue s gang = true ∧ (gangAt s gang).saving = some r ∧ released s r = true ∧
    (gangAt s gang).due = s.now :=
  let r : Release := { scope := 4, asid := 1, wid := 0, mark := 1, atomics := [], gang := 1 }
  let s := tVictim .stopping (some (2, 0, [1]))
  ⟨{ s with gangs := [(1, { gangAt s 1 with saving := some r, due := 14011 })] }, 1, r, by decide, rfl, by decide, by decide⟩

/-- A bin whose record is exactly 20 µs old. -/
theorem test_witness_Scheduling_flush : ∃ s die b, (dieAt s die).bins = [b] ∧ b.recs.length ≤ 32 ∧ ∃ r ∈ b.recs, r.1 + usec 20 = s.now :=
  ⟨{ State.reset with now := 14003, dies := [(0, { bins := [{ launch := 1, cont := 8, key := 65535, recs := [(3, [1]), (9, [2])] }] })] }, 0, _, rfl,
    by decide, (3, [1]), by decide, by decide⟩


theorem test_witness_Scheduling_restore : ∃ s gang g core l tb, nextPlaced s g.die = some (gang, g) ∧ tfind s.gangs gang = some g ∧ g.phase = .saved ∧
    coreFor s g.die gang = some (core, l) ∧
    readSections (reserve s gang core l) core g.asid (saveBase s g) ((saveSections s gang).map (fun x => (x.1, x.2.length))) = .ok (some tb) := by
  obtain ⟨tb, h⟩ := exists_ok (readSections (reserve (tQueue (tWaits .saved 64)) 2 0 [{ lane := 0, take := 8, left := none }]) 0 1 0
    ((saveSections (tQueue (tWaits .saved 64)) 2).map (fun x => (x.1, x.2.length)))) (by decide +kernel)
  exact ⟨tQueue (tWaits .saved 64), 2, tWaits .saved 64, 0, [{ lane := 0, take := 8, left := none }], tb, by decide +kernel, rfl, rfl,
    by decide +kernel, h⟩


/-- A launch of four items whose entry is the code line at 0. -/
def tStart (ph : LaunchPhase) : State :=
  let s := tCode { State.reset with
    boot := { State.reset.boot with fencedCores := [0xFFFFFFFFFFFFFFFE, 0, 0, 0] }
    fixed := tTables, nextId := 3, launches := [(1, { fn := 0, queue := 7, lseq := 0, pkt := tPacket, phase := ph, sat0 := true, sat1 := true })] } []
  s

theorem entry_of (x : Except Trap (Option Unit)) (h : (match x with | .ok (some ()) => true | _ => false) = true) : x = .ok (some ()) := by
  split at h
  · rfl
  · exact absurd h (by decide)

theorem test_witness_Scheduling_start : ∃ s id x, queueHead s x.fn x.queue = some (id, x) ∧ x.phase = .queued ∧ nextStart s = some (id, x) ∧
    pktRep x.pkt = false ∧ diesOf s x ≠ [] ∧ entryCheck s x = .ok (some ()) ∧
    ∀ d ∈ diesOf s x, (coreAt s (leadCore s d.1)).spansFree ≠ 0 :=
  ⟨tStart .queued, 1, { fn := 0, queue := 7, lseq := 0, pkt := tPacket, phase := .queued, sat0 := true, sat1 := true }, by decide +kernel, rfl,
    by decide +kernel, by decide +kernel, by decide +kernel, entry_of _ (by decide +kernel), by decide +kernel⟩

/-- A replicated launch of one chip whose barrier is met. -/
theorem test_witness_Scheduling_barrier : ∃ s id x, queueHead s x.fn x.queue = some (id, x) ∧ x.phase = .barrier ∧ barrierMet s x = true ∧
    resetting s x.fn = false ∧ diesOf s x ≠ [] ∧ entryCheck s x = .ok (some ()) ∧
    ∀ d ∈ diesOf s x, (coreAt s (leadCore s d.1)).spansFree ≠ 0 :=
  ⟨{ tStart .barrier with fabric := { barriers := [(0, 0, 0)] } }, 1, { fn := 0, queue := 7, lseq := 0, pkt := tPacket, phase := .barrier, sat0 := true, sat1 := true }, by decide +kernel, rfl,
    by decide +kernel, by decide +kernel, by decide +kernel, entry_of _ (by decide +kernel), by decide +kernel⟩

theorem test_witness_Scheduling_complete : ∃ s id x, tfind s.launches id = some x ∧ x.phase = .running ∧ launchBusy s id = false ∧
    resetting s x.fn = false :=
  ⟨tStart .running, 1, _, rfl, rfl, by decide +kernel, by decide⟩
theorem test_witness_Scheduling_completed : ∃ (s : State) (id : Nat) (x : Launch), tfind s.launches id = some x ∧ x.phase = .releasing ∧ x.release.all (released s) = true ∧
    x.taker = none ∧ x.chips = 1 :=
  ⟨tStart .releasing, 1, _, rfl, rfl, by decide, rfl, rfl⟩

/-! ## Witnesses: log space in motion -/

theorem some_of {α : Type} (x : Option α) (h : x.isSome = true) : ∃ u, x = some u := Option.isSome_iff_exists.mp h

/-- A full sector of block 0 of page 0 of ASID 1, written at the beginning. -/
def tSector (key : Nat) (st : TailState) : TailEntry := { asid := 1, key, data := 5, mask := 0xFFFFFFFF, st, born := 0, tick := 0, ck := 0 }
/-- The module at a time, with a writer as given that owns page 0 of ASID 1. -/
def tOwner (wid now : Nat) (w : Writer) : State :=
  setWriter (setOwn { State.reset with fixed := tTables, now, nextId := 9 } { asid := 1, lpn := 0, owned := 0xFFFF, sown := List.replicate 16 wid }) wid w
/-- Open segments in every stack. -/
def tSegs : Tbl OpenSeg := (upTo 0 8).map (fun k => (k, { seg := 1, off := segData, count := 0, chain := 0 }))

/-- A sector of exactly 20 µs. -/
theorem test_witness_LogSpace_append : ∃ s wid asid t es ps u,
    (dueBlocks s wid).find? (fun b => pendRoom (writerAt s wid) wid b.1 (((b.2.head?.map TailEntry.key).getD 0) / 128)) = some (asid, t :: es) ∧
    ownerOf s asid (t.key / 128) = some wid ∧ appendBlock s wid asid t.ck (tailSectors s wid asid (t :: es)) = some (ps, u) := by
  let s := tOwner 0 14000 { tail := [tSector 0 .open], segs := tSegs }
  obtain ⟨⟨ps, u⟩, h⟩ := some_of (appendBlock s 0 1 0 (tailSectors s 0 1 [tSector 0 .open])) (by decide +kernel)
  exact ⟨s, 0, 1, tSector 0 .open, [], ps, u, by decide +kernel, by decide +kernel, h⟩

/-- The last sub-page of a page, which cluster 0 owns and cluster 1 waits for. -/
theorem test_witness_LogSpace_request : ∃ s wid asid lpn sub o, sub = 15 ∧ (asid, lpn * 16 + sub) ∈ wantedSubs s wid ∧
    requested s wid asid (lpn * 16 + sub) = false ∧ ownerOf s asid (lpn * 16 + sub) = some o :=
  ⟨setWriter (tOwner 0 0 {}) 1 { tail := [tSector 2047 .wait] }, 1, 1, 0, 15, 0, rfl, by decide +kernel, by decide +kernel, by decide +kernel⟩

/-- The owner's publication that the request waited for has gone; it still holds an entry. -/
theorem test_witness_LogSpace_handover : ∃ s asid lpn sub r, sub < 16 ∧
    (dieAt s (homeDie asid lpn)).ownq.find? (fun r => r.asid = asid && r.lpn = lpn && r.sub = sub) = some r ∧
    (∃ o, ownerOf s asid (lpn * 16 + sub) = some o ∧ o ≠ r.wid ∧ ∃ e ∈ (writerAt s o).tail, e.key / 128 = lpn * 16 + sub ∧ e.st = .open) ∧
    ∀ o, ownerOf s asid (lpn * 16 + sub) = some o → o = r.wid ∨ mayYield s r o = true := by
  let s0 := tOwner 0 0 { tail := [tSector 2047 .open] }
  let r : OwnReq := { asid := 1, lpn := 0, sub := 15, wid := 1, pub := some 5 }
  refine ⟨setDie s0 (homeDie 1 0) { dieAt s0 (homeDie 1 0) with ownq := [r] }, 1, 0, 15, r, by decide, by decide +kernel,
    ⟨0, by decide +kernel, by decide, tSector 2047 .open, by decide +kernel, by decide, rfl⟩, fun o h => .inr ?_⟩
  rw [show ownerOf (setDie s0 (homeDie 1 0) { dieAt s0 (homeDie 1 0) with ownq := [r] }) 1 (0 * 16 + 15) = some 0 by decide +kernel] at h
  cases h
  decide +kernel

theorem ok_of {ε α : Type} (x : Except ε α) (h : x.toBool = true) : ∃ u, x = .ok u := by
  cases x with
  | ok a => exact ⟨a, rfl⟩
  | error _ => exact absurd h (by simp [Except.toBool])

theorem test_witness_LogSpace_begin : ∃ s wid asid recs s1 id u,
    appendCut s wid asid (blocksOf (cutOf s wid asid)) (pendList (pendOf s wid asid)) = .ok (recs, s1) ∧ recs ≠ [] ∧
    publishRecs (setWriter s1 wid { writerAt s1 wid with
        pend := (writerAt s1 wid).pend.filter (fun p => !(pendOf s wid asid).contains p)
        wanted := (writerAt s1 wid).wanted.filter (fun x => x.1 ≠ asid) }) wid asid recs (pendOf s wid asid).length false none
      (cutTick (cutOf s wid asid) (pendOf s wid asid)) = some (id, u) := by
  let s := tOwner 0 0 { tail := [tSector 0 .open], segs := tSegs }
  let r := appendCut s 0 1 (blocksOf (cutOf s 0 1)) (pendList (pendOf s 0 1))
  obtain ⟨⟨recs, s1⟩, h⟩ := ok_of r (by decide +kernel)
  have ne : recs ≠ [] := by
    have : (r.toOption.map (fun x => x.1.isEmpty)) = some false := by decide +kernel
    rw [h] at this
    intro e; subst e; simp [Except.toOption] at this
  have p : (r.toOption.bind (fun x => publishRecs (setWriter x.2 0 { writerAt x.2 0 with
        pend := (writerAt x.2 0).pend.filter (fun p => !(pendOf s 0 1).contains p)
        wanted := (writerAt x.2 0).wanted.filter (fun x => x.1 ≠ 1) }) 0 1 x.1 (pendOf s 0 1).length false none
      (cutTick (cutOf s 0 1) (pendOf s 0 1)))).isSome = true := by decide +kernel
  rw [h] at p
  obtain ⟨⟨id, u⟩, k⟩ := some_of _ p
  exact ⟨s, 0, 1, recs, s1, id, u, h, ne, k⟩

/-- A stack without a segment left. -/
theorem test_witness_LogSpace_starves : ∃ s wid asid stk, (appendCut s wid asid (blocksOf (cutOf s wid asid)) (pendList (pendOf s wid asid)) =
    .error stk) ∧ (cutOf s wid asid).length = 1 := by
  let s0 := tOwner 0 0 { tail := [tSector 0 .open] }
  let s : State := { s0 with boot := { s0.boot with fixsz := 512 } }
  have e : (match appendCut s 0 1 (blocksOf (cutOf s 0 1)) (pendList (pendOf s 0 1)) with | .ok _ => none | .error k => some k) = some 0 := by
    decide +kernel
  refine ⟨s, 0, 1, 0, ?_, by decide +kernel⟩
  split at e
  · exact absurd e (by decide)
  · rename_i k h
    rw [h, Option.some.inj e]

/-- A writer that another asks, and one that has nothing. -/
theorem test_witness_LogSpace_publishes : ∃ s wid asid, publishDue s wid asid = true ∧ canPublish s wid asid = true :=
  ⟨tOwner 0 0 { tail := [tSector 0 .open], wanted := [(1, 0)] }, 0, 1, by decide +kernel, by decide +kernel⟩
theorem test_witness_LogSpace_nothing : ∃ s wid asid, publishDue s wid asid = true ∧ hasCut s wid asid (writerAt s wid).tick = false :=
  ⟨tOwner 0 0 { wanted := [(1, 0)] }, 0, 1, by decide +kernel, by decide +kernel⟩
/-- An atomic result of exactly 1 µs. -/
theorem test_witness_LogSpace_atomics : ∃ s die asid born, canPublish s (32 + die) asid = true ∧ oldestBorn (writerAt s (32 + die)) asid = some born ∧
    born + usec 1 = s.now :=
  ⟨tOwner 35 700 { tail := [tSector 0 .open] }, 3, 1, 0, by decide +kernel, by decide +kernel, by decide⟩

/-- A publication of one sector that is written and not committed. -/
def tPub : Pub := { id := 5, asid := 1, recs := [(0, 0, [(0, 0, 2 ^ 20 + 8 * 16385)])] }
/-- The module at that commit: the commit unit of the ASID's die has segments. -/
def tCommit : State :=
  let s := setWriter (tOwner 0 0 { pubs := [tPub] }) 41 { segs := (upTo 0 8).map (fun k => (k, { seg := 2, off := segData, count := 0, chain := 0 })) }
  setDie s 1 { dieAt s 1 with commits := [{ asid := 1, wid := 0, kind := .publication 5 }] }

theorem test_witness_LogSpace_commit : ∃ s die asid r rest id p u, (dieAt s die).commits.filter (fun r => r.asid = asid) = r :: rest ∧
    r.kind = .publication id ∧ openAppends s (writerDie r.wid) = false ∧ (writerAt s r.wid).pubs.find? (fun q => q.id = id) = some p ∧
    p.asid = asid ∧ p.rel = false ∧ commitPub s r.wid id = some u := by
  obtain ⟨u, h⟩ := some_of (commitPub tCommit 0 5) (by decide +kernel)
  exact ⟨tCommit, 1, 1, { asid := 1, wid := 0, kind := .publication 5 }, [], 5, tPub, u, by decide +kernel, rfl, by decide +kernel,
    by decide +kernel, rfl, rfl, h⟩

theorem test_witness_LogSpace_invalidation : ∃ s die asid m, leastBy InvMsg.seq ((dieAt s die).inbox.filter (fun m => m.asid = asid)) = some m ∧
    ∃ e ∈ (dieAt s die).maps, e.asid = asid ∧ (e.lpn, e.sub) ∈ m.keys :=
  ⟨{ State.reset with dies := [(3, { inbox := [{ asid := 1, seq := 8, keys := [] }, { asid := 1, seq := 7, keys := [(0, 15)] }]
                                     maps := [{ asid := 1, lpn := 0, sub := 15, pos := 8, gen := 1, poisoned := false }] })] }, 3, 1, { asid := 1, seq := 7, keys := [(0, 15)] },
    by decide +kernel, { asid := 1, lpn := 0, sub := 15, pos := 8, gen := 1, poisoned := false }, by decide +kernel, rfl, by decide⟩

/-- Die 0 has applied a commit. -/
theorem test_witness_LogSpace_acks : ∃ s wid asid, ∃ p ∈ (writerAt s wid).pubs, p.asid = asid ∧ newAcks s p ≠ [] :=
  ⟨{ setWriter State.reset 0 { pubs := [{ tPub with stage := .committed 7 }] } with dies := [(0, { applied := [(1, 7)] })] }, 0, 1,
    { tPub with stage := .committed 7 }, by decide +kernel, rfl, by decide +kernel⟩

/-- A lane of which the bundle waits for a page. -/
def tMiss (vpn : Nat) (stale : Bool) : State :=
  { tAt { tBundle tAll with stall := some (.walk [(1, vpn)]) } (tGang (tGroup tItem)) with
    fixed := tTables, dies := [(0, { missq := [(1, vpn, .lane 0 0)], walkers := [(127, { asid := 1, vpn, start := 0, queue := [.lane 0 0], stale })] })] }

theorem test_witness_LogSpace_walk : ∃ s die m rest, (dieAt s die).missq = m :: rest ∧
    (∀ k ∈ (dieAt s die).walkers, ¬(k.2.asid = m.1 ∧ k.2.vpn = m.2.1)) ∧ ∃ i < 128, tfind (dieAt s die).walkers i = none :=
  ⟨{ State.reset with dies := [(0, { missq := [(1, 0, .lane 0 0)], walkers := (upTo 0 127).map (fun i => (i, { asid := 2, vpn := i, start := 0, queue := [] })) })] }, 0,
    (1, 0, .lane 0 0), [], rfl, by decide +kernel, 127, by decide, by decide +kernel⟩

/-- A page with a leaf, and one without. -/
theorem test_witness_LogSpace_leaf : ∃ s die i k core lane b l, tfind (dieAt s die).walkers i = some k ∧ k.stale = false ∧
    k.queue = [.lane core lane] ∧ waitsWalk s core lane k.asid k.vpn b ∧ walkCached s die k.asid (k.vpn * 65536) = .leaf l ∧ leafHost l = false :=
  ⟨tMiss 0 false, 0, 127, { asid := 1, vpn := 0, start := 0, queue := [.lane 0 0] }, 0, 0, _, 7, rfl, rfl, rfl, ⟨rfl, rfl⟩, by decide +kernel,
    by decide⟩
theorem test_witness_LogSpace_fault : ∃ s die i k core lane b code va, tfind (dieAt s die).walkers i = some k ∧ k.stale = false ∧
    k.queue = [.lane core lane] ∧ waitsWalk s core lane k.asid k.vpn b ∧ walkCached s die k.asid (k.vpn * 65536) = .cause code va :=
  ⟨tMiss 1 false, 0, 127, { asid := 1, vpn := 1, start := 0, queue := [.lane 0 0] }, 0, 0, _, 0x0B, 65536, rfl, rfl, rfl, ⟨rfl, rfl⟩, by decide +kernel⟩

/-- Fifteen commands queued, and a sixteenth; ALL set, and no page named. -/
def tShots (n : Nat) : State :=
  { State.reset with fixed := tTables, fns := [(0, { sdq := List.replicate n (0, 1, [(0, 0)]) })] }
theorem test_witness_LogSpace_shot : ∀ ctl ∈ [(1 : DWord), 0x2001], ∃ s fn, (fnAt s fn).sdq.length = 15 ∧ (astEntry s (bits ctl.toNat 11 0)).fn = fn := by
  intro ctl h
  fin_cases h <;> exact ⟨tShots 15, 0, by decide +kernel, by decide +kernel⟩
theorem test_witness_LogSpace_refused : ∃ s fn, (fnAt s fn).sdq.length = 16 := ⟨tShots 16, 0, by decide +kernel⟩
theorem test_witness_LogSpace_shotDone : ∃ s fn a ctl mark rest, (fnAt s fn).sdq = (a, ctl, [mark]) :: rest ∧
    shotDone s (bits ctl.toNat 11 0) mark.1 = true := ⟨tShots 1, 0, 0, 1, (0, 0), [], rfl, by decide +kernel⟩

/-- An atomic add on the last word of a sector. -/
def tAdd : AtomicReq := { id := 4, asid := 1, core := 0, lane := 0, aop := 0, wide := false, ops := [(0, 3, 28, 5, 0)], ck := 0 }
theorem test_witness_LogSpace_atomic : ∃ s die r rest g p a v n b, die < 4 ∧ (dieAt s die).atomq = r :: rest ∧ r.ops = [(g, p, a, v, n)] ∧
    r.wide = false ∧ a % 4 = 0 ∧ (s.dies.map Prod.fst).Nodup ∧ (∀ d ∈ s.dies, d.1 ≠ die → ∀ q ∈ d.2.atomq, q.id ≠ r.id) ∧
    (∀ q ∈ rest, q.id ≠ r.id) ∧ (laneAt s r.core r.lane).bundle = some b ∧ b.stall = some (.atomic r.id) ∧ tailPlain s (32 + die) ∧
    (writerAt s (32 + die)).tail.length < 65536 ∧ (readSector s (32 + die) die r.asid (a / 32)).bad = false ∧
    (readSector s (32 + die) die r.asid (a / 32)).data.length = 32 :=
  ⟨{ tAt { tBundle tAll with stall := some (.atomic 4) } (tGang (tGroup tItem)) with dies := [(0, { atomq := [tAdd] })] }, 0, tAdd, [], 0, 3, 28, 5, 0, _,
    by decide, rfl, rfl, rfl, by decide, by decide, by decide, by decide, rfl, rfl, by unfold tailPlain; decide +kernel, by decide +kernel,
    by decide +kernel, by decide +kernel⟩

/-- A stack with one request. -/
def tStack (r : StackReq) : State := { State.reset with stks := [(7, { reqs := [r] })] }
theorem test_witness_LogSpace_reads : ∃ s stk die tag pos n rest, (stackAt s stk).reqs = .read die tag pos n :: rest :=
  ⟨tStack (.read 0 1 (mkPos 7 16383 131071 0) 1), 7, 0, 1, _, 1, [], rfl⟩
theorem test_witness_LogSpace_appends : ∃ s stk die tag pos data rest, (stackAt s stk).reqs = .append die tag pos data :: rest ∧ data.length = 32 ∧
    segIndex (posStk pos) (posSix pos) ∉ s.lost ∧ Memory.wf s.log = true :=
  ⟨tStack (.append 0 1 (mkPos 7 16383 131071 0) (List.replicate 32 1)), 7, 0, 1, _, _, [], rfl, rfl, by decide, by decide⟩
theorem test_witness_LogSpace_fixed : ∃ s stk die tag off len rest, (stackAt s stk).reqs = .fread die tag off len :: rest :=
  ⟨tStack (.fread 0 1 8 8), 7, 0, 1, 8, 8, [], rfl⟩
theorem test_witness_LogSpace_fixedWrite : ∃ s stk die tag off data rest, (stackAt s stk).reqs = .fwrite die tag off data :: rest ∧
    Memory.wf s.fixed = true := ⟨tStack (.fwrite 0 1 8 [0, 5]), 7, 0, 1, 8, [0, 5], [], rfl, by decide⟩
theorem test_witness_LogSpace_segopen : ∃ s stk die tag wid rest six, (stackAt s stk).reqs = .segopen die tag wid :: rest ∧
    tfind (writerAt s wid).segs stk = none ∧ segOpen s stk wid = some six :=
  ⟨tStack (.segopen 0 1 3), 7, 0, 1, 3, [], 0, rfl, rfl, by decide +kernel⟩
theorem test_witness_LogSpace_none : ∃ s stk die tag wid rest, (stackAt s stk).reqs = .segopen die tag wid :: rest ∧
    tfind (writerAt s wid).segs stk = none ∧ segOpen s stk wid = none :=
  ⟨{ tStack (.segopen 0 1 3) with boot := { State.reset.boot with fixsz := 512 } }, 7, 0, 1, 3, [], rfl, rfl, by decide +kernel⟩
theorem test_witness_LogSpace_seals : ∃ s stk die tag six wid count rest, (stackAt s stk).reqs = .segseal die tag six wid count :: rest ∧
    (segAt s stk six).st = .open :=
  ⟨{ State.reset with stks := [(7, { reqs := [.segseal 0 1 9 3 32767], segs := [(9, { st := .open })] })] }, 7, 0, 1, 9, 3, 32767, [], rfl, rfl⟩
theorem test_witness_LogSpace_answers : ∃ s stk d rest, (stackAt s stk).done = d :: rest :=
  ⟨{ State.reset with stks := [(7, { done := [{ die := 0, tag := 1, data := [], poison := 0, seg := none }] })] }, 7, _, [], rfl⟩

theorem test_witness_LogSpace_scrub : ∃ s : State, ∃ b ∈ s.badLog, b.2 = false :=
  ⟨{ State.reset with badLog := [(5, false), (6, true)] }, (5, false), by decide, rfl⟩
/-- A writer has waited exactly 1 ms. -/
theorem test_witness_LogSpace_full : ∃ s stk, (stackAt s stk).starved ≠ [] ∧ (stackAt s stk).fullRaised = false ∧
    max (stackAt s stk).lastFree (stackAt s stk).starvedAt + usec 1000 = s.now :=
  ⟨{ State.reset with now := 700003, stks := [(2, { starved := [4], starvedAt := 3 })] }, 2, by decide, rfl, by decide +kernel⟩

/-- A sealed segment with a data extent of one sector that no root names, of so many sectors in all. -/
def tSealed (data : Nat) : State :=
  { State.reset with
    now := 7000000
    log := mwrite [] (segIndex 3 5 * segSectors * 32 + 32) (summaryEntry 1 1 0 segData 0 0 false 0 ++ summaryEntry 6 0 0 0 1 0 false 0)
    stks := [(3, { segs := [(5, { st := .sealed, sup := data, data })] })] }
theorem test_witness_LogSpace_fettler : ∀ n ∈ [3, 2], ∃ s stk six m, fettlerRuns s stk = true ∧ nextClean s stk = some (six, m) ∧
    let u := setStack s stk { stackAt s stk with lastScan := s.now }
    let xs := (extentsFrom u stk six 32768 0).filter (fun x => x.kind ≤ 5)
    let dead := ((xs.filter (fun x => !extentLive u x)).map Extent.n).foldl (· + ·) 0
    m.data = n ∧ dead = 1 ∧ ∀ x ∈ xs, extentLive u x = false := by
  intro n h
  fin_cases h
  · exact ⟨tSealed 3, 3, 5, { st := .sealed, sup := 3, data := 3 }, by decide +kernel, by decide +kernel, rfl, by decide +kernel, by decide +kernel⟩
  · exact ⟨tSealed 2, 3, 5, { st := .sealed, sup := 2, data := 2 }, by decide +kernel, by decide +kernel, rfl, by decide +kernel, by decide +kernel⟩
theorem test_witness_LogSpace_freed : ∃ s stk six, (segAt s stk six).st = .cleaning ∧ movesDone s (segAt s stk six) = true ∧
    readsOpen s stk six = false ∧ (stackAt s stk).starved ≠ [] :=
  ⟨{ State.reset with stks := [(3, { segs := [(5, { st := .cleaning, moves := [(51, 2)] })], starved := [7] })] }, 3, 5, rfl, by decide +kernel,
    by decide +kernel, by decide⟩


/-! ## Witnesses: the host's side -/

/-- Migration commands of function 0 for page 1 of ASID 1, which is with the host: leaf 23, at 0x5008. -/
def tJob (id stage : Nat) (fn : Option Nat) (toDevice : Bool) : MigJob := { id, fn, asid := 1, vpn := 1, lpn := 0, toDevice, stage, since := 3 }
def tMigs (js : List MigJob) : State := { State.reset with fixed := tTables ++ [(0x5008, 23)], migs := js, now := 7000003 }

theorem test_witness_Host_migration : ∃ (s : State) (fn : Nat) (ctl : DWord), (s.migs.filter (fun j => j.fn = some fn)).length = 15 ∧
    (astEntry s (bits ctl.toNat 11 0)).fn = fn := ⟨tMigs ((upTo 0 15).map (fun i => tJob i 0 (some 0) true)), 0, 1, by decide +kernel, by decide +kernel⟩
theorem test_witness_Host_migrationFull : ∃ (s : State) (fn : Nat), (s.migs.filter (fun j => j.fn = some fn)).length = 16 :=
  ⟨tMigs ((upTo 0 16).map (fun i => tJob i 0 (some 0) true)), 0, by decide +kernel⟩
/-- An ASID of another function. -/
theorem test_witness_Host_migrationOther : ∃ (s : State) (fn : Nat) (ctl : DWord), (astEntry s (bits ctl.toNat 11 0)).fn ≠ fn :=
  ⟨tMigs [], 32, 1, by decide +kernel⟩

theorem test_witness_Host_migrated : ∃ (s : State) (j : MigJob) (fn : Nat), s.migs = [j] ∧ j.toDevice = false ∧ j.stage = 4 ∧ j.fn = some fn :=
  ⟨tMigs [tJob 8 4 (some 0) false], _, 0, rfl, rfl, rfl, rfl⟩
/-- The page has come, and a walk for it is parked. -/
theorem test_witness_Host_arrived : ∃ (s : State) (j : MigJob) (a : Nat), s.migs = [j] ∧ j.toDevice = true ∧ j.stage = 2 ∧ awaitPubs s j.asid j.pubs = none ∧
    leafPlace s (j.vpn * 65536) (astEntry s j.asid).top 4 = some a ∧ Memory.wf s.fixed = true ∧ bit (fixedWord s a) 4 = true ∧
    ∃ d, ∃ k ∈ (dieAt s d).walkers, k.2.asid = j.asid ∧ k.2.vpn = j.vpn ∧ k.2.queue ≠ [] :=
  ⟨{ tMigs [tJob 8 2 none true] with dies := [(3, { walkers := [(5, { asid := 1, vpn := 1, start := 0, queue := [.lane 0 0], parked := true })] })] },
    _, 0x5008, rfl, rfl, rfl, rfl, by decide +kernel, by decide, by decide +kernel, 3,
    (5, { asid := 1, vpn := 1, start := 0, queue := [.lane 0 0], parked := true }), by decide +kernel, rfl, rfl, by decide⟩

theorem test_witness_Host_awaiting : ∃ s j, awaiting s = some j := ⟨tMigs [tJob 8 0 none true], tJob 8 0 none true, by decide +kernel⟩
/-- Exactly 10 ms. -/
theorem test_witness_Host_timeout : ∃ (s : State) (j : MigJob), s.migs = [j] ∧ j.toDevice = true ∧ j.stage = 0 ∧ j.fn = none ∧ j.since + usec 10000 = s.now :=
  ⟨tMigs [tJob 8 0 none true], tJob 8 0 none true, rfl, rfl, rfl, rfl, by decide +kernel⟩

/-- Armed, waiting for the instant, and at it. -/
theorem test_witness_Host_capture : ∃ s : State, s.capture.fired = false := ⟨State.reset, rfl⟩
theorem test_witness_Host_fired : ∃ s : State, s.capture.latched = true :=
  ⟨{ State.reset with capture := { fired := true, latched := true } }, rfl⟩
theorem test_witness_Host_latch : ∃ s : State, s.capture.fired = true ∧ s.capture.latched = false ∧ moduleTime s = s.capture.instant :=
  ⟨{ State.reset with capture := { fired := true, instant := 2000 }, mtime := 2000 }, rfl, rfl, by decide +kernel⟩

theorem test_witness_Host_sag : ∃ s, ∃ die < 4, (dieAt s die).period = 24 :=
  ⟨{ State.reset with dies := [(3, { period := 24 })] }, 3, by decide, rfl⟩
theorem test_witness_Host_recovers : ∃ s die, (dieAt s die).period = 17 ∧ (dieAt s die).sagAt + 64 = s.now :=
  ⟨{ State.reset with dies := [(3, { period := 17, sagAt := 6 })], now := 70 }, 3, rfl, rfl⟩

theorem test_witness_Host_session : ∀ b, ∃ s : State, s.boot.spdm = b := fun b => ⟨{ State.reset with boot := { spdm := b } }, rfl⟩

/-- Function 0's queue 7 with 63 launches, and a packet that passes every check. -/
def tPackets : State := { tMigs [] with launches := (upTo 2 63).map (fun i => (i, { fn := 0, queue := 7, lseq := 0, pkt := 0 })) }
def tPktBytes : List Byte := toBytes 64 (3 + 32 * 2 ^ 96 + 2 ^ 112 + 2 ^ 128 + 2 ^ 144 + 2 ^ 191 + 8 * 2 ^ 220)
theorem test_witness_Host_packet : ∃ (s : State) (fn q : Nat) (data : List Byte), fn < 33 ∧ q = 7 ∧ data.length = 64 ∧ resetting s fn = false ∧
    packetReason s fn (BitVec.ofNat 512 (ofBytes data)) false none none = 0 ∧ queueFull s fn q = false :=
  ⟨tPackets, 0, 7, tPktBytes, by decide, rfl, by decide, rfl, by decide +kernel, by decide +kernel⟩
theorem test_witness_Host_refused : ∃ (s : State) (fn : Nat) (data : List Byte), fn < 33 ∧ data.length = 64 ∧ resetting s fn = false ∧
    packetReason s fn (BitVec.ofNat 512 (ofBytes data)) false none none ≠ 0 :=
  ⟨tPackets, 32, List.replicate 64 0, by decide, by decide, rfl, by decide +kernel⟩
theorem test_witness_Host_short : ∃ (off : Nat) (data : List Byte), off < 512 ∧ data ≠ [] ∧ ¬(data.length = 64 ∧ off % 64 = 0) :=
  ⟨511, List.replicate 64 0, by decide, by decide, by decide⟩

/-- HEAD at TAIL, and a step past it; the function idle, and with a gang. -/
theorem test_witness_Host_hgptr : ∃ (s : State) (fn : Nat), fn < 33 ∧
    (∃ v : DWord, (bits v.toNat 6 0 + 128 - (fnAt s fn).head) % 128 = ((fnAt s fn).tail + 128 - (fnAt s fn).head) % 128) ∧
    ∃ v : DWord, ((fnAt s fn).tail + 128 - (fnAt s fn).head) % 128 < (bits v.toNat 6 0 + 128 - (fnAt s fn).head) % 128 :=
  ⟨{ State.reset with fns := [(32, { head := 127, tail := 2 })] }, 32, by decide, ⟨2, by decide⟩, 3, by decide⟩
theorem test_witness_Host_idle : ∀ b, ∃ s : State, fnIdle s 0 = b := by
  intro b
  cases b
  · exact ⟨tOne, by decide⟩
  · exact ⟨State.reset, by decide⟩

theorem test_witness_Host_resets : ∃ (s : State) (n : Nat) (g : Gang), tfind s.gangs n = some g ∧ g.fn = 0 ∧ g.phase = .resident := ⟨tOne, 1, _, rfl, rfl, rfl⟩
/-- The physical function is reset, the only one; an ASID of it has an unpublished sector. -/
theorem test_witness_Host_resetDone : ∃ s, resetting s 0 = true ∧ (∀ f, 1 ≤ f → f < 33 → resetting s f = false) ∧ fnGangs s 0 = [] ∧
    allCommitted s (asidsOf s 0) = true ∧ asidsOf s 0 ≠ [] := by
  refine ⟨{ tMigs [] with
      fns := [(0, { spstat := 0x4000 })], writers := [(0, { tail := [{ asid := 1, key := 0, data := 5, mask := 1, st := .open, born := 0, tick := 0, ck := 0 }] })] },
    by decide, fun f h _ => ?_, rfl, by decide +kernel, by decide +kernel⟩
  have k : ¬0 = f := by omega
  simp [resetting, fnAt, tget, tfind, k]

theorem test_witness_Host_boots : ∃ b : BootInput, b.failStage = 0 ∧ bootRefused b = false ∧ b.fixsz = 8 :=
  ⟨{ fixsz := 8, lcap := 2 ^ 38, astOff := 0, rootOff := 0, retOff := 0, fencedDies := 0, fencedCores := [0, 0, 0, 0], measures := [], failStage := 0, failCode := 0 }, rfl, by decide +kernel, rfl⟩
theorem test_witness_Host_held : ∃ b : BootInput, b.failStage ≠ 0 :=
  ⟨{ fixsz := 8, lcap := 0, astOff := 0, rootOff := 0, retOff := 0, fencedDies := 0, fencedCores := [0, 0, 0, 0], measures := [], failStage := 3, failCode := 1 }, by decide⟩

theorem test_witness_Host_gmem : ∃ s gang off, standing s gang = true ∧ off + 1 = (gangAt s gang).gmemSize :=
  ⟨tAt (tBundle tAll) { tGang (tGroup tItem) with gmemSize := 64 }, 1, 63, by decide, rfl⟩
theorem test_witness_Host_sector : ∃ (s : State) (stk six off : Nat), stk < 8 ∧ six < 16384 ∧ off + 1 = segSectors ∧ s.badLog ≠ [] ∧
    ∀ x ∈ s.badLog, x.1 = sectorNo stk six off → x.2 = false :=
  ⟨{ State.reset with badLog := [(sectorNo 7 16383 131071, false), (3, true)] }, 7, 16383, 131071, by decide, by decide, by decide, by decide,
    by decide +kernel⟩
theorem test_witness_Host_trans : ∃ (s : State) (die i : Nat) (x : TcEntry), (dieAt s die).tcache[i]? = some x := ⟨{ State.reset with dies := [(3, { tcache := [{ asid := 1, vpn := 0, leaf := 7 }] })] }, 3, 0, _, rfl⟩

/-! ## Witnesses: links and the router -/

/-- A module whose runner port 11 is as given. -/
def tPort (x : Port) : State := { State.reset with fabric := { ports := [(11, x)] }, now := 2100 }
/-- A data flit and a packet as a peer may send them. -/
def tFlit (seq : Nat) : Flit :=
  { seq := BitVec.ofNat 12 seq, ackseq := 0, av := false, nak := false, kind := 1, cls := 0, sop := true, eop := true, cro := 0, crb := 0, crm := 0
    lw := 2, resv := 0, area := List.replicate 64 0, crcOk := true }
def tPkt (op cls aux : Nat) : Packet :=
  { addr := 0, tag := 65535, asid := 1, pkey := 9, op := BitVec.ofNat 6 op, cls := BitVec.ofNat 2 cls, src := 5, dest := 16383, hop := 1
    aux := BitVec.ofNat 64 aux, resv := false, payload := [] }

/-- Quiet for exactly 100 ns. -/
theorem test_witness_Links_talk : ∃ s i, portRuns (portAt s i) = true ∧ (portAt s i).lastSent + 70 = s.now :=
  ⟨tPort { st := .x4, first := 12, lastSent := 2030 }, 11, rfl, rfl⟩
/-- The last lane of a ×4 link, and the one below it. -/
theorem test_witness_Links_lanes : ∃ s i, i < 12 ∧ laneActive (portAt s i) 15 = true ∧ laneActive (portAt s i) 11 = false :=
  ⟨tPort { st := .x4, first := 12 }, 11, by decide, by decide, by decide⟩
/-- Exactly 3 µs in TRAIN: the last four lanes are healthy, or none. -/
theorem test_witness_Links_train : ∃ s i peer, (portAt s i).st = .train ∧ s.now = (portAt s i).since + usec 3 ∧
    bestSet (portAt s i).lanes peer = some (2, 12) ∧ (portAt s i).replay ≠ [] :=
  ⟨tPort { st := .train, replay := [tFlit 4095] }, 11, 0xF77E, rfl, by decide +kernel, by decide, by decide⟩
theorem test_witness_Links_down : ∃ s i peer, (portAt s i).st = .train ∧ s.now = (portAt s i).since + usec 3 ∧
    bestSet (portAt s i).lanes peer = none := ⟨tPort { st := .train }, 11, 0x7777, rfl, by decide +kernel, by decide⟩
theorem test_witness_Links_up : ∃ s i, i < 12 ∧ (portAt s i).st = .down := ⟨tPort {}, 11, by decide, rfl⟩
theorem test_witness_Links_wider : ∃ s i, i < 12 ∧ (portAt s i).st = .x8 ∧
    ∃ b, bestSet (portAt s i).lanes (portAt s i).peer = some b ∧ b.1 < portWidth (portAt s i) :=
  ⟨tPort { st := .x8 }, 11, by decide, rfl, (0, 0), by decide, by decide⟩

/-- A bad flit, the next flit after a wrap, a duplicate and gaps at their ends. -/
theorem test_witness_Links_bad : ∃ s i f, i < 12 ∧ portRuns (portAt s i) = true ∧ flitBad f = true :=
  ⟨tPort { st := .x16 }, 11, { tFlit 0 with lw := 3 }, by decide, rfl, by decide⟩
theorem test_witness_Links_next : ∃ s i f, i < 12 ∧ portRuns (portAt s i) = true ∧ flitBad f = false ∧ f.kind = 1 ∧
    f.seq = (portAt s i).ackSeq + 1 ∧ f.sop = true ∧ f.eop = true :=
  ⟨tPort { st := .x16 }, 11, tFlit 0, by decide, rfl, by decide, rfl, by decide, rfl, rfl⟩
theorem test_witness_Links_again : ∃ s i f, i < 12 ∧ portRuns (portAt s i) = true ∧ flitBad f = false ∧ f.kind = 1 ∧
    seqAhead f.seq ((portAt s i).ackSeq + 1) = 2048 := ⟨tPort { st := .x16 }, 11, tFlit 2048, by decide, rfl, by decide, rfl, by decide⟩
theorem test_witness_Links_gap : ∀ n ∈ [1, 2047], ∃ s i f, i < 12 ∧ portRuns (portAt s i) = true ∧ flitBad f = false ∧
    seqAhead f.seq ((portAt s i).ackSeq + 1) = n ∧ s.fabric.waiting = [] := by
  intro n h
  fin_cases h
  · exact ⟨tPort { st := .x16 }, 11, tFlit 1, by decide, rfl, by decide, by decide, rfl⟩
  · exact ⟨tPort { st := .x16 }, 11, { tFlit 2047 with kind := 0 }, by decide, rfl, by decide, by decide, rfl⟩

/-- A module with a packet of its own, and a route of its destination. -/
def tSends (p : Packet) (e : Nat) (x : Port) : State :=
  { State.reset with fabric := { inq := [p], active := { dest := [(16383, BitVec.ofNat 32 e)] }, ports := [(11, x)] } }
theorem test_witness_Links_noRoute : ∃ (s : State) (p : Packet) (r : List Packet), s.fabric.inq = p :: r ∧ entryBad (destEntry s.fabric.active p.dest.toNat) = true :=
  ⟨tSends (tPkt 6 0 0) (2 ^ 31 + 12) {}, tPkt 6 0 0, [], rfl, by decide⟩
theorem test_witness_Links_here : ∀ resv, ∃ (s : State) (p : Packet) (r : List Packet) (i : Instr), s.fabric.inq = p :: r ∧ entryBad (destEntry s.fabric.active p.dest.toNat) = false ∧
    bit (destEntry s.fabric.active p.dest.toNat) 30 = true ∧ packetBad p = resv ∧ p.op ≠ 0x11 ∧ packetEvent p = some i := by
  intro resv
  cases resv
  · exact ⟨tSends (tPkt 6 0 0) (2 ^ 31 + 2 ^ 30) {}, tPkt 6 0 0, [], _, rfl, by decide, by decide, by decide, by decide, rfl⟩
  · exact ⟨tSends (tPkt 6 1 0) (2 ^ 31 + 2 ^ 30) {}, tPkt 6 1 0, [], _, rfl, by decide, by decide, by decide, by decide, rfl⟩
/-- With the last credit, and with none. -/
theorem test_witness_Links_onward : ∀ go, ∃ s p r, s.fabric.inq = p :: r ∧ entryBad (destEntry s.fabric.active p.dest.toNat) = false ∧
    bit (destEntry s.fabric.active p.dest.toNat) 30 = false ∧ p.hop ≠ 0 ∧ p.cls ≠ 1 ∧ s.fabric.waiting = [] ∧
    canSend (portAt s (bits (destEntry s.fabric.active p.dest.toNat) 3 0)) p = go := by
  intro go
  cases go
  · exact ⟨tSends (tPkt 6 0 0) (2 ^ 31 + 11) { st := .x16 }, tPkt 6 0 0, [], rfl, by decide, by decide, by decide, by decide, rfl, by decide⟩
  · exact ⟨tSends (tPkt 6 0 0) (2 ^ 31 + 11) { st := .x16, credO := 1 }, tPkt 6 0 0, [], rfl, by decide, by decide, by decide, by decide, rfl, by decide⟩
/-- A packet that arrived at port 11, whose last key slot lists its key or not. -/
def tArrives (hop : Nat) (key : Nat) : State :=
  { State.reset with fabric :=
      { ports := [(11, { st := .x16, rx := [({ tPkt 6 0 0 with hop := BitVec.ofNat 8 hop }, none)] })]
        active := { dest := [(16383, BitVec.ofNat 32 (2 ^ 31))], keys := [(64 * 11 + 63, BitVec.ofNat 32 (2 ^ 31 + key))] } } }
theorem test_witness_Links_noKey : ∃ s i p r, i < 12 ∧ (portAt s i).rx = (p, none) :: r ∧ keyListed s.fabric.active i p.pkey.toNat = false :=
  ⟨tArrives 1 8, 11, _, [], by decide, rfl, by decide +kernel⟩
theorem test_witness_Links_noHop : ∃ s i p r, i < 12 ∧ (portAt s i).rx = (p, none) :: r ∧ keyListed s.fabric.active i p.pkey.toNat = true ∧
    entryBad (destEntry s.fabric.active p.dest.toNat) = false ∧ bit (destEntry s.fabric.active p.dest.toNat) 30 = false ∧ p.hop = 0 :=
  ⟨tArrives 0 9, 11, _, [], by decide, rfl, by decide +kernel, by decide, by decide, rfl⟩

/-- Exactly 2 µs without a credit. -/
theorem test_witness_Links_waits : ∃ s w, s.fabric.waiting = [w] ∧ w.pkt.cls = 1 ∧ w.since + usec 2 = s.now ∧ canSend (portAt s w.port) w.pkt = false :=
  ⟨{ State.reset with fabric := { waiting := [{ pkt := tPkt 1 1 0, port := 3, ports := [3, 4], since := 0 }] }, now := 1400 },
    { pkt := tPkt 1 1 0, port := 3, ports := [3, 4], since := 0 }, rfl, rfl, by decide +kernel, by decide⟩
/-- Exactly 100 µs unacknowledged, twice tried, and three times as the fill of item 3. -/
def tSent (tries : Nat) : SentPkt := { pkt := tPkt 4 0 0, sentAt := 5, tries, who := .fill 1 0 3 }
theorem test_witness_Links_resend : ∃ (s : State) (n : Nat) (p : SentPkt), s.fabric.sent[n]? = some p ∧ p.sentAt + usec 100 = s.now ∧ p.tries < 3 :=
  ⟨{ State.reset with fabric := { sent := [tSent 2] }, now := 70005 }, 0, tSent 2, rfl, by decide +kernel, by decide⟩
theorem test_witness_Links_fails : ∃ (s : State) (n : Nat) (p : SentPkt) (gang : Nat) (g : Nat) (q : Nat) (x : Item), s.fabric.sent[n]? = some p ∧ p.sentAt + usec 100 = s.now ∧ p.tries = 3 ∧ p.pkt.op ≠ 0x11 ∧
    p.who = .fill gang g q ∧ itemIn (groupAt s gang g) q = some x :=
  ⟨{ tOne with fabric := { sent := [tSent 3] }, now := 70005 }, 0, tSent 3, 1, 0, 3, tItem, rfl, by decide +kernel, rfl, by decide, rfl, by decide⟩
theorem test_witness_Links_expires : ∃ (s : State) (n : Nat) (a : Nat × Nat × Nat × Nat), s.fabric.performed[n]? = some a ∧ a.2.2.1 + usec 1000 = s.now :=
  ⟨{ State.reset with fabric := { performed := [(5, 7, 3, 0)] }, now := 700003 }, 0, (5, 7, 3, 0), rfl, by decide +kernel⟩

/-! ## Witnesses: packets between chips -/

/-- `Accepted` as a check. -/
def acceptedB (s : State) (op : Nat) (p : Packet) : Bool :=
  p.op.toNat = op && !packetBad p && (p.cls ≠ 2 || p.pkey.toNat = mpkey s) && performedStatus s p = none
theorem accepted_of (s : State) (op : Nat) (p : Packet) (h : acceptedB s op p = true) : Accepted s op p := by
  simp only [acceptedB, Bool.and_eq_true, Bool.or_eq_true, Bool.not_eq_true', decide_eq_true_eq] at h
  obtain ⟨⟨⟨a, b⟩, c⟩, d⟩ := h
  exact ⟨a, b, fun k => c.resolve_left (fun n => n k), d⟩

theorem test_witness_Packets_bad : ∃ p i, packetEvent p = some i ∧ packetBad p = true := ⟨tPkt 6 1 0, _, rfl, by decide⟩
theorem test_witness_Packets_key : ∃ s p i, packetEvent p = some i ∧ packetBad p = false ∧ p.cls = 2 ∧ p.pkey.toNat ≠ mpkey s :=
  ⟨State.reset, tPkt 0x10 2 0, _, rfl, by decide, rfl, by decide⟩
theorem test_witness_Packets_again : ∃ s p i st, packetEvent p = some i ∧ packetBad p = false ∧ performedStatus s p = some st :=
  ⟨{ State.reset with fabric := { performed := [(5, 65535, 0, 11)] } }, tPkt 7 0 0, _, 11, rfl, by decide, by decide⟩

/-- An address without a leaf. -/
theorem test_witness_Packets_writeFault : ∃ (s : State) (p : Packet) (code a : Nat), Accepted s 0x01 p ∧
    translateNow s { asid := p.asid.toNat, level := peerLevel s (auxRgrp p), write := true } p.addr.toNat p.payload.length = .fault code a :=
  ⟨State.reset, { tPkt 1 1 0 with addr := 8, payload := [5] }, 0x0B, 8, accepted_of _ _ _ (by decide), by decide +kernel⟩
/-- Two sectors and parts of two more, in pages of which the ingress writer owns all. -/
def tWrite : Packet := { tPkt 1 1 7 with addr := 24, payload := List.replicate 100 3 }
theorem test_witness_Packets_write : ∃ (s : State) (p : Packet) (ls : List (Nat × DWord)) (s1 u : State) (ps : List (Nat × Nat × Nat)), Accepted s 0x01 p ∧
    translateNow s { asid := p.asid.toNat, level := peerLevel s (auxRgrp p), write := true } p.addr.toNat p.payload.length = .ok ls ∧
    (writerAt s (36 + auxDie p)).sets.find? (fun c => c.src = p.src.toNat && c.cid = auxCid p && c.asid = p.asid.toNat) = none ∧
    (writerAt s (36 + auxDie p)).sets.length < 32 ∧
    let secs := writeSectors s (36 + auxDie p) p.asid.toNat p.addr.toNat ls p.payload
    let keys := secs.map (fun x => x.2.1)
    (nodup (keys.map (· / 128))).length ≤ 257 ∧
      claimAll s (36 + auxDie p) p.asid.toNat (nodup (keys.map (· / 128))) = (true, s1) ∧
      appendSectors s1 (36 + auxDie p) p.asid.toNat ((nodup (keys.map (· / 8))).map (fun b =>
        ((((secs.filter (fun x => x.2.1 / 8 = b)).head?).map Prod.fst).getD 0,
          (secs.filter (fun x => x.2.1 / 8 = b)).map Prod.snd))) = .ok (ps, u) := by
  let s := tOwner 36 0 { segs := tSegs }
  let secs := writeSectors s 36 1 24 [(0, 7)] tWrite.payload
  let c := claimAll s 36 1 (nodup ((secs.map (fun x => x.2.1)).map (· / 128)))
  have h1 : c.1 = true := by decide +kernel
  obtain ⟨⟨ps, u⟩, h⟩ := ok_of (appendSectors c.2 36 1 ((nodup ((secs.map (fun x => x.2.1)).map (· / 8))).map (fun b =>
        ((((secs.filter (fun x => x.2.1 / 8 = b)).head?).map Prod.fst).getD 0,
          (secs.filter (fun x => x.2.1 / 8 = b)).map Prod.snd)))) (by decide +kernel)
  exact ⟨s, tWrite, [(0, 7)], c.2, u, ps, accepted_of _ _ _ (by decide), by decide +kernel, rfl, by decide, by decide +kernel,
    Prod.ext h1 rfl, h⟩

theorem test_witness_Packets_read : ∃ (s : State) (p : Packet) (ls : List (Nat × DWord)), Accepted s 0x02 p ∧
    translateNow s { asid := p.asid.toNat, level := peerLevel s (auxRgrp p) } p.addr.toNat (auxLen p) = .ok ls ∧
    ((sectorsOf p.addr.toNat (auxLen p)).map (fun a => publishedSector s p.asid.toNat (keyOf (leafIn ls a) a))).any SectorRead.bad = false :=
  ⟨{ State.reset with fixed := tTables }, { tPkt 2 0 (64 * 2 ^ 32) with addr := 24 }, [(0, 7)], accepted_of _ _ _ (by decide), by decide +kernel,
    by decide +kernel⟩
/-- A remote read of two units, the second of which arrives. -/
def tRemote : Copy :=
  { gang := 1, launch := 1, core := 0, die := 0, asid := 1, level := .user, queue := 0, pc := 8, desc := 0, logAddr := 0, src := .peerLog 0, dst := .gang 0
    len := 4096, slen := 4096, dlen := 4096, mode := 0, fmt := 0, tags := [(1, 0), (2, 1)], cid := 7 }
theorem test_witness_Packets_data : ∃ (s : State) (p : Packet) (i : Nat) (c : Copy) (u : Nat), Accepted s 0x03 p ∧
    s.copies.find? (fun c => c.2.src.isPeer && c.2.cid = auxCid p && !c.2.stopped) = some (i, c) ∧ tfind s.copies i = some c ∧
    (upTo 0 (copyUnits c)).find? (fun u => c.src.at + (unitAt c u).1 = p.addr.toNat) = some u ∧ (unitAt c u).2 ≤ p.payload.length ∧
    ∃ x ∈ c.tags, x.2 ≠ u :=
  ⟨{ State.reset with copies := [(4, tRemote)] }, { tPkt 3 1 7 with addr := 2048, payload := List.replicate 2048 1 }, 4, tRemote, 1,
    accepted_of _ _ _ (by decide), by decide, rfl, by decide +kernel, by decide +kernel, (1, 0), by decide, by decide⟩

/-- A replicated launch that runs on die 3, with a scratchpad of one line there. -/
def tShared : Launch := { fn := 0, queue := 0, lseq := 0, pkt := BitVec.ofNat 512 (2 ^ 206), phase := .running }
def tCohort : State :=
  { State.reset with
    launches := [(1, tShared)]
    dies := [(3, { spads := [{ launch := 1, fn := 0, base := 0, lines := 1 }] })] }
/-- The line's last word. -/
theorem test_witness_Packets_fill : ∃ (s : State) (p : Packet) (id : Nat) (x : Launch) (sp : Spad), Accepted s 0x04 p ∧ s.fillq = [] ∧ s.gangs = [] ∧
    s.launches.find? (fun e => pktRep e.2.pkt && pktRgrp e.2.pkt = bits p.aux.toNat 15 8 &&
      pktSgen e.2.pkt = bits p.aux.toNat 23 16 && e.2.phase ≠ .queued) = some (id, x) ∧
    spadOf s (bits p.addr.toNat 54 53) id = some sp ∧ Memory.wf sp.mem = true ∧ bits p.addr.toNat 52 0 + 4 = 128 * sp.lines ∧
    absentIn (dieLocal s (bits p.addr.toNat 54 53) id) (bits p.addr.toNat 52 0) 4 = none :=
  ⟨tCohort, { tPkt 4 0 0 with addr := BitVec.ofNat 64 (3 * 2 ^ 53 + 124) }, 1, tShared, { launch := 1, fn := 0, base := 0, lines := 1 },
    accepted_of _ _ _ (by decide), rfl, rfl, by decide +kernel, by decide, by decide, by decide, by decide⟩
theorem test_witness_Packets_spwr : ∃ (s : State) (p : Packet) (id : Nat) (x : Launch) (sp : Spad), Accepted s 0x05 p ∧
    domainLaunch s (auxRgrp p) = some (id, x) ∧ spadOf s (auxDie p) id = some sp ∧ Memory.wf sp.mem = true ∧ auxRead p = false ∧
    p.addr.toNat + p.payload.length = 128 * sp.lines :=
  ⟨tCohort, { tPkt 5 1 (3 * 2 ^ 16) with addr := 64, payload := List.replicate 64 1 }, 1, tShared, { launch := 1, fn := 0, base := 0, lines := 1 },
    accepted_of _ _ _ (by decide), by decide +kernel, by decide, by decide, by decide, by decide⟩

/-- The chip's own packet, which a DACK from endpoint 5 names. -/
def tOpen (op : Nat) (who : Sender) : SentPkt := { pkt := { tPkt op 0 0 with dest := 5, src := 0 }, sentAt := 0, tries := 1, who }
def tAcked (op : Nat) (who : Sender) : State := { tOne with fabric := { sent := [tOpen op who] }, copies := [(4, tRemote)] }
theorem test_witness_Packets_dack : ∀ x ∈ [(4, Sender.other), (7, .copy 4), (4, .fill 1 0 3)], ∃ (s : State) (p : Packet) (q : SentPkt), Accepted s 0x06 p ∧
    s.fabric.sent.find? (fun q => q.pkt.tag = p.tag && q.pkt.dest = p.src && opAcked q.pkt.op.toNat) = some q ∧ q.who = x.2 ∧
    q.pkt.op.toNat = x.1 ∧ s.fillq = [] := by
  intro x h
  fin_cases h
  · exact ⟨tAcked 4 .other, tPkt 6 0 0, tOpen 4 .other, accepted_of _ _ _ (by decide), by decide, rfl, rfl, rfl⟩
  · exact ⟨tAcked 7 (.copy 4), tPkt 6 0 0, tOpen 7 (.copy 4), accepted_of _ _ _ (by decide), by decide, rfl, rfl, rfl⟩
  · exact ⟨tAcked 4 (.fill 1 0 3), tPkt 6 0 0, tOpen 4 (.fill 1 0 3), accepted_of _ _ _ (by decide), by decide, rfl, rfl, rfl⟩
theorem test_witness_Packets_dackCopy : ∃ (s : State) (i : Nat) (c : Copy) (p : Packet), tfind s.copies i = some c ∧ bits p.aux.toNat 7 0 = 0 :=
  ⟨tAcked 7 (.copy 4), 4, tRemote, tPkt 6 0 0, rfl, by decide⟩
theorem test_witness_Packets_dackFill : ∃ (s : State) (gang g x : Nat) (y : Item) (p : Packet), itemIn (groupAt s gang g) x = some y ∧
    bits p.aux.toNat 7 0 ≠ 0 := ⟨tAcked 4 (.fill 1 0 3), 1, 0, 3, tItem, tPkt 6 0 5, by decide, by decide⟩

/-- The ingress writer of die 0 with one copy set of one sector. -/
def tSet (n : Nat) : State :=
  tOwner 36 700003 { sets := List.replicate n { src := 5, cid := 7, asid := 1, recs := [{ asid := 1, sub := 0, ck := 0, pos := [(0, 2 ^ 20 + 8 * 16385)], born := 0, tick := 0 }], last := 3 }
                     segs := tSegs }
theorem test_witness_Packets_cdone : ∃ (s : State) (p : Packet) (c : CopySet) (u : State), Accepted s 0x07 p ∧
    (writerAt s (36 + auxDie p)).sets.find? (fun c => c.src = p.src.toNat && c.cid = auxCid p && c.asid = p.asid.toNat) = some c ∧
    publishSet s (36 + auxDie p) c = some u ∧ isPending u p = false := by
  obtain ⟨u, h⟩ := some_of (publishSet (tSet 1) 36 ((writerAt (tSet 1) 36).sets.headD { src := 0, cid := 0, asid := 0, recs := [], last := 0 })) (by decide +kernel)
  have e : ((publishSet (tSet 1) 36 ((writerAt (tSet 1) 36).sets.headD { src := 0, cid := 0, asid := 0, recs := [], last := 0 })).map
      (fun u => isPending u (tPkt 7 0 7))) = some false := by decide +kernel
  rw [h] at e
  exact ⟨tSet 1, tPkt 7 0 7, _, u, accepted_of _ _ _ (by decide), by decide +kernel, h, Option.some.inj e⟩
theorem test_witness_Packets_cdoneAgain : ∃ (s : State) (p : Packet), Accepted s 0x07 p ∧
    (writerAt s (36 + auxDie p)).sets.find? (fun c => c.src = p.src.toNat && c.cid = auxCid p && c.asid = p.asid.toNat) = none ∧
    ∀ q ∈ (writerAt s (36 + auxDie p)).pubs, q.copy = some (p.src.toNat, auxCid p) → pubDone s (36 + auxDie p) q 4 = true :=
  ⟨tSet 0, tPkt 7 0 7, accepted_of _ _ _ (by decide), by decide +kernel, by decide +kernel⟩
theorem test_witness_Packets_setTimeout : ∃ (s : State) (die n : Nat) (c : CopySet), (writerAt s (36 + die)).sets[n]? = some c ∧ c.last + usec 1000 = s.now :=
  ⟨tSet 1, 0, 0, { src := 5, cid := 7, asid := 1, recs := [{ asid := 1, sub := 0, ck := 0, pos := [(0, 2 ^ 20 + 8 * 16385)], born := 0, tick := 0 }], last := 3 },
    by decide +kernel, by decide +kernel⟩

/-- A launch domain 0 of two members, this chip (endpoint 0) and endpoint 5, and its replicated packet. -/
def tDomain : State :=
  { tPackets with
    fabric := { ldt := [(0, BitVec.ofNat 1024 (1 + 2 ^ 100 + 5 * 2 ^ 142))] } }
def tReplica : Nat := 3 + 32 * 2 ^ 96 + 2 ^ 112 + 2 ^ 128 + 2 ^ 144 + 2 ^ 191 + 2 ^ 206 + 12 * 2 ^ 220
theorem test_witness_Packets_launch : ∃ (s : State) (p : Packet), Accepted s 0x0D p ∧
    let pk := BitVec.ofNat 512 (ofBytes p.payload)
    let fn := bits (ldtEntry s (pktRgrp pk)) 111 106
    p.aux.toNat % 8 = 7 ∧ resetting s fn = false ∧ packetReason s fn pk false none none = 0 ∧ queueFull s fn (p.aux.toNat % 8) = false ∧
    ∀ j, barrierGen s (pktRgrp pk) j ≠ some (pktSgen pk + 256) :=
  ⟨tDomain, { tPkt 0x0D 0 7 with payload := toBytes 64 tReplica }, accepted_of _ _ _ (by decide), by decide, by decide +kernel, by decide +kernel,
    by decide +kernel, fun _ h => nomatch h⟩
theorem test_witness_Packets_bar : ∃ (s : State) (p : Packet) (j : Nat), Accepted s 0x0E p ∧ memberOf s (bits p.aux.toNat 15 8) p.src.toNat = some j ∧
    bit p.aux.toNat 0 = false := ⟨tDomain, tPkt 0x0E 0 0, 1, accepted_of _ _ _ (by decide), by decide +kernel, by decide⟩
theorem test_witness_Packets_ldone : ∃ (s : State) (p : Packet) (j id : Nat) (x : Launch), Accepted s 0x0F p ∧
    memberOf s (bits p.aux.toNat 15 8) p.src.toNat = some j ∧
    s.launches.find? (fun e => pktRep e.2.pkt && e.2.taker.isNone && pktRgrp e.2.pkt = bits p.aux.toNat 15 8 &&
      pktSgen e.2.pkt = bits p.aux.toNat 23 16 && e.2.phase ≠ .queued && !e.2.dones.contains j) = some (id, x) :=
  ⟨{ tDomain with launches := [(1, { tShared with dones := [0] })] }, tPkt 0x0F 0 0, 1, 1, { tShared with dones := [0] },
    accepted_of _ _ _ (by decide), by decide +kernel, by decide +kernel⟩

/-- A module with management key 9. -/
def tManaged : State := { State.reset with fabric := { fabid := BitVec.ofNat 64 (9 * 2 ^ 32) } }
theorem test_witness_Packets_trigger : ∃ (s : State) (p : Packet), Accepted s 0x10 p ∧ s.capture.fired = false :=
  ⟨tManaged, tPkt 0x10 2 77, accepted_of _ _ _ (by decide), rfl⟩
theorem test_witness_Packets_notice : ∀ op ∈ [0x11, 0x14], ∃ (s : State) (p : Packet), Accepted s op p := by
  intro op h
  fin_cases h
  · exact ⟨tManaged, tPkt 0x11 2 0, accepted_of _ _ _ (by decide)⟩
  · exact ⟨tManaged, tPkt 0x14 2 0, accepted_of _ _ _ (by decide)⟩
theorem test_witness_Packets_mwr : ∀ a ∈ [(0x4018 : DWord), 0x4410], ∃ (s : State) (p : Packet), Accepted s 0x12 p ∧ p.payload.length = 8 ∧ p.addr = a ∧
    bit (ofBytes p.payload) 0 = true := by
  intro a h
  fin_cases h
  · exact ⟨tManaged, { tPkt 0x12 2 8 with addr := 0x4018, payload := toBytes 8 1 }, accepted_of _ _ _ (by decide), by decide, rfl, by decide⟩
  · exact ⟨tManaged, { tPkt 0x12 2 8 with addr := 0x4410, payload := toBytes 8 1 }, accepted_of _ _ _ (by decide), by decide, rfl, by decide⟩
theorem test_witness_Packets_mrd : ∃ (s : State) (p : Packet), Accepted s 0x13 p ∧ bits p.aux.toNat 11 0 = 8 :=
  ⟨tManaged, tPkt 0x13 2 8, accepted_of _ _ _ (by decide), by decide⟩

/-- Replica group 15, key 9: data chip 0 at endpoint 5, holder 8 at endpoint 6, this chip as SELF. -/
def tRgt (mode self : Nat) : Nat :=
  1 + mode * 2 ^ 5 + 2 ^ 7 + 2 ^ 11 + 2 ^ 15 + self * 2 ^ 18 + (2 ^ 31 + 5 * 2 ^ 16) * 2 ^ 32 + (2 ^ 31 + 6 * 2 ^ 16 + 1) * 2 ^ 288 + 9 * 2 ^ 496
def tRep (mode self : Nat) (r : RepState) : State :=
  { State.reset with
    fabric := { rgt := [(15, BitVec.ofNat 512 (tRgt mode self))], reps := [(15, r)], fabid := 6 }, now := 700003 }
theorem test_witness_Packets_ship : ∀ x ∈ [(8, 1), (9, 1), (8, 2), (9, 2)], let op := x.1; let mode := x.2; ∃ (s : State) (p : Packet), Accepted s op p ∧ Memory.wf s.log = true ∧
    Holds s p 15 0 mode ∧ (0, posSector p.addr.toNat) ∉ (repOf s 15).terms ∧ p.payload.length = 2048 ∧ bit p.aux.toNat 63 = true := by
  intro x h
  fin_cases h
  · exact ⟨tRep 1 8 {}, { tPkt 8 1 (2 ^ 63) with addr := 2 ^ 39, payload := List.replicate 2048 3 }, accepted_of _ _ _ (by decide), by decide,
      ⟨by decide +kernel, by decide +kernel, by decide +kernel⟩, by decide +kernel, by decide +kernel, by decide +kernel⟩
  · exact ⟨tRep 1 8 {}, { tPkt 9 1 (2 ^ 63) with addr := 2 ^ 39, payload := List.replicate 2048 3 }, accepted_of _ _ _ (by decide), by decide,
      ⟨by decide +kernel, by decide +kernel, by decide +kernel⟩, by decide +kernel, by decide +kernel, by decide +kernel⟩
  · exact ⟨tRep 2 8 {}, { tPkt 8 1 (2 ^ 63) with addr := 2 ^ 39, payload := List.replicate 2048 3 }, accepted_of _ _ _ (by decide), by decide,
      ⟨by decide +kernel, by decide +kernel, by decide +kernel⟩, by decide +kernel, by decide +kernel, by decide +kernel⟩
  · exact ⟨tRep 2 8 {}, { tPkt 9 1 (2 ^ 63) with addr := 2 ^ 39, payload := List.replicate 2048 3 }, accepted_of _ _ _ (by decide), by decide,
      ⟨by decide +kernel, by decide +kernel, by decide +kernel⟩, by decide +kernel, by decide +kernel, by decide +kernel⟩
theorem test_witness_Packets_retire : ∃ (s : State) (p : Packet), Accepted s 0x15 p ∧ Memory.wf s.log = true ∧ Holds s p 15 0 2 ∧
    (0, posSector p.addr.toNat) ∈ (repOf s 15).terms :=
  ⟨tRep 2 8 { terms := [(0, 0)] }, { tPkt 0x15 1 0 with payload := List.replicate 32 3 }, accepted_of _ _ _ (by decide), by decide,
    ⟨by decide +kernel, by decide +kernel, by decide +kernel⟩, by decide +kernel⟩
theorem test_witness_Packets_fixwr : ∃ (s : State) (p : Packet), Accepted s 0x0A p ∧ Memory.wf s.fixed = true ∧ Holds s p 15 0 1 :=
  ⟨tRep 1 8 {}, { tPkt 0x0A 1 0 with addr := 64, payload := List.replicate 64 3 }, accepted_of _ _ _ (by decide), by decide,
    ⟨by decide +kernel, by decide +kernel, by decide +kernel⟩⟩
/-- The first commit record of ASID 1. -/
theorem test_witness_Packets_cship : ∃ (s : State) (p : Packet), Accepted s 0x0B p ∧ Memory.wf s.fixed = true ∧ Holds s p 15 0 1 ∧
    (repOf s 15).records = [] ∧ p.addr.toNat < 2 ^ 40 ∧
    let rec' := BitVec.ofNat 512 (ofBytes p.payload)
    recordSeq rec' = heldSeq s 15 0 (recordAsid rec') + 1 :=
  ⟨tRep 1 8 {}, { tPkt 0x0B 0 0 with addr := 64, payload := toBytes 64 (2 ^ 432 + 2 ^ 340) }, accepted_of _ _ _ (by decide), by decide,
    ⟨by decide +kernel, by decide +kernel, by decide +kernel⟩, by decide +kernel, by decide, by decide +kernel⟩
theorem test_witness_Packets_repack : ∃ (s : State) (p : Packet), Accepted s 0x0C p ∧ groupOf s p = some (15, 0) ∧ bit p.aux.toNat 32 = false :=
  ⟨tRep 1 8 {}, tPkt 0x0C 0 0, accepted_of _ _ _ (by decide), by decide +kernel, by decide⟩

/-- Exactly 1 ms since the last mark. -/
theorem test_witness_Packets_marks : ∃ (s : State), let e := rgtEntry s 15
    rgtLive e = true ∧ rgtMode e = 2 ∧ rgtSelf e = 8 ∧ (repOf s 15).lastMark + usec 1000 = s.now ∧ rgtFailed e 0 = false :=
  ⟨tRep 2 8 { lastMark := 3 }, by decide +kernel, by decide +kernel, by decide +kernel, by decide +kernel, by decide +kernel⟩
theorem test_witness_Packets_genmark : ∃ (s : State) (p : Packet), Accepted s 0x16 p ∧ groupOf s p = some (15, 0) :=
  ⟨tRep 2 0 {}, tPkt 0x16 0 5, accepted_of _ _ _ (by decide), by decide +kernel⟩
/-- A packet to holder 8 has gone unacknowledged for exactly 1 ms. -/
def tSilent : State :=
  let s := tRep 1 0 {}
  { s with fabric := { s.fabric with sent := [{ pkt := tPkt 8 1 0, sentAt := 140003, tries := 3, who := .replica 15 8 }] } }
theorem test_witness_Packets_silent : ∃ (s : State) (t0 : Nat),
    leastBy id ((s.fabric.sent.filter (fun q => q.who = .replica 15 8)).map (fun q => q.sentAt - usec (100 * (min q.tries 3 - 1)))) = some t0 ∧
    max t0 (tget (repOf s 15).lastAck 8 0) + usec 1000 = s.now ∧ rgtValid (rgtEntry s 15) = true ∧ 8 ∈ rgtMembers (rgtEntry s 15) ∧
    rgtFailed (rgtEntry s 15) 8 = false :=
  ⟨tSilent, 3, by decide +kernel, by decide +kernel, by decide +kernel, by decide +kernel, by decide +kernel⟩
theorem test_witness_Packets_spare : ∃ (s : State) (m ep : Nat), m < 10 ∧ (repOf s 15).spare = some (m, ep) ∧ rgtState (rgtEntry s 15) = 2 ∧
    ∀ q ∈ s.fabric.sent, q.who ≠ .replica 15 m :=
  ⟨{ tRep 1 0 {} with fabric := { rgt := [(15, BitVec.ofNat 512 (2 ^ 15 + tRgt 1 0))], reps := [(15, { spare := some (8, 16383) })] } }, 8, 16383,
    by decide, rfl, by decide +kernel, fun _ h => nomatch h⟩
theorem test_witness_Packets_lost : ∃ (s : State), rgtState (rgtEntry s 15) = 3 :=
  ⟨{ State.reset with fabric := { rgt := [(15, BitVec.ofNat 512 (3 * 2 ^ 15))] } }, by decide +kernel⟩
/-- An entry that names this chip as holder 8, and one whose members share a tag. -/
theorem test_witness_Packets_table : ∃ (s : State) (v : BitVec 512), v.getLsbD 0 = true ∧ rgtConsistent s v.toNat = true ∧ sharedTags v.toNat = false :=
  ⟨tRep 1 0 {}, BitVec.ofNat 512 (tRgt 1 0), by decide +kernel, by decide +kernel, by decide +kernel⟩
theorem test_witness_Packets_tableBad : ∃ (s : State) (v : BitVec 512), v.getLsbD 0 = true ∧ rgtConsistent s v.toNat = true ∧
    sharedTags v.toNat = true ∧ bit v.toNat 13 = false :=
  ⟨tRep 1 0 {}, BitVec.ofNat 512 (tRgt 1 0 - 2 ^ 288), by decide +kernel, by decide +kernel, by decide +kernel, by decide +kernel⟩

end Sys2Proof
end

section
/-!
The order of f32 codes (R79, R101): the code of a number that is not a NaN, read as sign and magnitude, orders as its exact
value does, −0 beside +0.
-/
namespace Sys2Proof.Machine
open Sys2Proof

/-- The magnitude of a finite f32 code in units of the least subnormal, 2^−149 (R42). -/
def ulps (m : Nat) : Nat := if m / 2 ^ 23 = 0 then m else (m % 2 ^ 23 + 2 ^ 23) * 2 ^ (m / 2 ^ 23 - 1)

theorem ulps_lt_succ (m : Nat) : ulps m < ulps (m + 1) := by
  by_cases same : (m + 1) / 2 ^ 23 = m / 2 ^ 23
  · have frac : (m + 1) % 2 ^ 23 = m % 2 ^ 23 + 1 := by omega
    unfold ulps
    rw [same, frac]
    split
    · omega
    · exact Nat.mul_lt_mul_of_pos_right (by omega) (by positivity)
  · have next : (m + 1) / 2 ^ 23 = m / 2 ^ 23 + 1 := by omega
    have frac : (m + 1) % 2 ^ 23 = 0 := by omega
    unfold ulps
    rw [next, frac]
    simp only [Nat.add_one_ne_zero, if_false, Nat.zero_add, Nat.add_sub_cancel]
    split
    · rename_i sub
      rw [sub]
      omega
    · rename_i normal
      obtain ⟨e, he⟩ := Nat.exists_eq_succ_of_ne_zero normal
      rw [he, Nat.succ_sub_one, pow_succ' 2 e, ← mul_assoc]
      exact Nat.mul_lt_mul_of_pos_right (by omega) (by positivity)

theorem ulps_strictMono : StrictMono ulps := strictMono_nat_of_lt_succ ulps_lt_succ

theorem ulps_zero : ulps 0 = 0 := rfl

/-- A magnitude with its sign. -/
def withSign (neg : Bool) (m : Nat) : Int := if neg then -(m : Int) else m

/-- A rising map of magnitudes that keeps zero keeps the order of signed magnitudes, −0 beside +0. -/
theorem withSign_lt_iff {f : Nat → Nat} (mono : StrictMono f) (zero : f 0 = 0) (s t : Bool) (a b : Nat) :
    withSign s (f a) < withSign t (f b) ↔ withSign s a < withSign t b := by
  have pos (k : Nat) : 0 < f k ↔ 0 < k := by
    have h := mono.lt_iff_lt (a := 0) (b := k)
    rwa [zero] at h
  have ab := mono.lt_iff_lt (a := a) (b := b)
  have ba := mono.lt_iff_lt (a := b) (b := a)
  have pa := pos a
  have pb := pos b
  cases s <;> cases t <;> simp only [withSign, if_true, Bool.false_eq_true, if_false] <;> omega

/-- The magnitude of an f32 code: its exponent and fraction fields. -/
def magnitude (a : Word) : Nat := bits a.toNat 30 0

theorem ord32_eq (a : Word) : ord32 a = withSign (bit a.toNat 31) (magnitude a) := rfl

theorem magnitude_eq (a : Word) : magnitude a = a.toNat % 2 ^ 31 := rfl

/-- A code is a NaN when its magnitude exceeds that of the infinities (R42). -/
theorem isNaN32_iff (a : Word) : isNaN32 a = true ↔ 255 * 2 ^ 23 < magnitude a := by
  rw [magnitude_eq]
  simp only [isNaN32, bits, Nat.shiftRight_eq_div_pow, Bool.and_eq_true, decide_eq_true_eq]
  omega

/-- The exact value of an f32 code by its fields (R42, R43). -/
theorem unpack_f32 (w : Nat) : unpack f32 w =
    if w / 2 ^ 23 % 2 ^ 8 = 255 then
      if w % 2 ^ 23 = 0 then .inf (bit w 31) else .nan (decide (w % 2 ^ 23 < 2 ^ 22))
    else if w / 2 ^ 23 % 2 ^ 8 = 0 then .fin (bit w 31) (w % 2 ^ 23) 1 (-149)
    else .fin (bit w 31) (w % 2 ^ 23 + 2 ^ 23) 1 ((w / 2 ^ 23 % 2 ^ 8 : Nat) - 127 - 23) := by
  rw [← Nat.shiftRight_eq_div_pow]
  rfl

/-- The exact value of a NaN code carries whether it signals (R41, R42). -/
theorem unpack_of_nan {a : Word} (h : isNaN32 a = true) : unpack f32 a.toNat = .nan (isSNaN32 a) := by
  have large := (isNaN32_iff a).1 h
  rw [magnitude_eq] at large
  rw [unpack_f32, if_pos (by omega), if_neg (by omega), isSNaN32, h, Bool.true_and, bit, Nat.shiftRight_eq_div_pow,
    ← decide_not]
  congr 2
  rw [eq_iff_iff]
  omega

/-- The exact value of a code that is no NaN: an infinity, or its magnitude in units of 2^−149 (R42, R43). -/
theorem unpack_of_number {a : Word} (h : isNaN32 a = false) :
    (magnitude a = 255 * 2 ^ 23 ∧ unpack f32 a.toNat = .inf (bit a.toNat 31)) ∨
    (magnitude a < 255 * 2 ^ 23 ∧ ∃ n e, unpack f32 a.toNat = .fin (bit a.toNat 31) n 1 e ∧ -149 ≤ e ∧
      n * 2 ^ (e + 149).toNat = ulps (magnitude a)) := by
  have small : ¬255 * 2 ^ 23 < magnitude a := fun c => by simp [(isNaN32_iff a).2 c] at h
  have frac : a.toNat % 2 ^ 23 = magnitude a % 2 ^ 23 := by rw [magnitude_eq]; omega
  have expo : a.toNat / 2 ^ 23 % 2 ^ 8 = magnitude a / 2 ^ 23 := by rw [magnitude_eq]; omega
  rw [unpack_f32, frac, expo]
  by_cases top : magnitude a = 255 * 2 ^ 23
  · left
    rw [if_pos (by omega), if_pos (by omega)]
    exact ⟨top, rfl⟩
  · right
    refine ⟨by omega, ?_⟩
    rw [if_neg (by omega)]
    by_cases sub : magnitude a / 2 ^ 23 = 0
    · rw [if_pos sub]
      refine ⟨_, _, rfl, by decide, ?_⟩
      rw [ulps, if_pos sub]
      exact (Nat.mul_one _).trans (Nat.mod_eq_of_lt (by omega))
    · rw [if_neg sub]
      refine ⟨_, _, rfl, by omega, ?_⟩
      rw [ulps, if_neg sub]
      congr 2
      omega

/-- Scaled to a lower unit, a dyadic value multiplies (R45). -/
theorem signedAt_scale (neg : Bool) (n : Nat) {e lo : Int} (unit : -149 ≤ lo) (le : lo ≤ e) :
    signedAt neg n e lo * 2 ^ (lo + 149).toNat = withSign neg (n * 2 ^ (e + 149).toNat) := by
  have exponents : (e + 149).toNat = (e - lo).toNat + (lo + 149).toNat := by omega
  rw [exponents, pow_add]
  cases neg <;> simp [signedAt, withSign, mul_assoc]

/-- The comparison of finite values in a common unit is that of their multiples of 2^−149. -/
theorem signedAt_lt_iff (s t : Bool) (n k : Nat) {e g : Int} (he : -149 ≤ e) (hg : -149 ≤ g) :
    signedAt s n e (min e g) < signedAt t k g (min e g) ↔
      withSign s (n * 2 ^ (e + 149).toNat) < withSign t (k * 2 ^ (g + 149).toNat) := by
  rw [← signedAt_scale s n (le_min he hg) (min_le_left e g), ← signedAt_scale t k (le_min he hg) (min_le_right e g)]
  exact (mul_lt_mul_iff_left₀ (by positivity)).symm

/-- Two numbers compare by value as their codes do by sign and magnitude; −0 is not less than +0 (R79, R101). -/
theorem below_eq_ord32_lt {a b : Word} (ha : isNaN32 a = false) (hb : isNaN32 b = false) :
    ((unpack f32 a.toNat).below (unpack f32 b.toNat) &&
      !((unpack f32 a.toNat).isZero && (unpack f32 b.toNat).isZero)) = decide (ord32 a < ord32 b) := by
  rw [Bool.eq_iff_iff, decide_eq_true_iff, ord32_eq, ord32_eq]
  rcases unpack_of_number ha with ⟨ma, ua⟩ | ⟨ma, n, e, ua, he, na⟩ <;>
    rcases unpack_of_number hb with ⟨mb, ub⟩ | ⟨mb, k, g, ub, hg, kb⟩ <;>
    rw [ua, ub]
  case inr.inr =>
    rw [← withSign_lt_iff ulps_strictMono ulps_zero, ← na, ← kb]
    by_cases zero : n = 0 ∧ k = 0
    · obtain ⟨rfl, rfl⟩ := zero
      simp [Val.isZero, withSign]
    · have notBoth : ¬((decide (n = 0) && decide (k = 0)) = true) := by simpa using zero
      simp only [Val.below, Val.isZero, Nat.mul_one, notBoth, Bool.false_eq_true, if_false, signedAt_lt_iff _ _ n k he hg,
        Bool.not_false, Bool.and_true, decide_eq_true_iff]
  -- an infinity lies beyond every finite magnitude
  all_goals
    cases bit a.toNat 31 <;> cases bit b.toNat 31 <;> simp [Val.below, Val.isZero, withSign] <;> omega

/-- The exact value of a code is a NaN when the code is one. -/
theorem isNan_unpack (a : Word) : (unpack f32 a.toNat).isNan = isNaN32 a := by
  cases h : isNaN32 a
  · rcases unpack_of_number h with ⟨-, u⟩ | ⟨-, n, e, u, -⟩ <;> rw [u] <;> rfl
  · rw [unpack_of_nan h]
    rfl

/-- The exact value of a code signals when the code does. -/
theorem isSig_unpack (a : Word) : (unpack f32 a.toNat).isSig = isSNaN32 a := by
  cases h : isNaN32 a
  · rw [isSNaN32, h]
    rcases unpack_of_number h with ⟨-, u⟩ | ⟨-, n, e, u, -⟩ <;> rw [u] <;> rfl
  · rw [unpack_of_nan h]
    rfl

/-- The order of codes decides every float condition on their exact values (R79, R101). -/
theorem fcond_fst (cond : Nat) (a b : Word) :
    (fcond cond a b).1 = floatCond cond (unpack f32 a.toNat) (unpack f32 b.toNat) := by
  unfold fcond floatCond
  simp only [isNan_unpack]
  cases un : isNaN32 a || isNaN32 b
  · obtain ⟨ha, hb⟩ := Bool.or_eq_false_iff.1 un
    have more := below_eq_ord32_lt hb ha
    rw [Bool.and_comm (unpack f32 b.toNat).isZero] at more
    rw [below_eq_ord32_lt ha hb, more]
    split
    all_goals rw [Bool.eq_iff_iff]
    case h_1 =>
      simp only [Bool.not_false, Bool.true_and, Bool.and_eq_true, Bool.not_eq_true', decide_eq_true_eq, decide_eq_false_iff_not]
      omega
    all_goals simp
  -- beside a NaN only the unordered conditions hold
  · split <;> simp

/-- The flags of a float comparison: NV for a signalling NaN, or for any NaN where it orders (R101). -/
theorem fcond_snd (cond : Nat) (a b : Word) : (fcond cond a b).2 =
    flagIf ((unpack f32 a.toNat).isSig || (unpack f32 b.toNat).isSig ||
      ((cond = 2 || cond = 3) && ((unpack f32 a.toNat).isNan || (unpack f32 b.toNat).isNan))) flagNV := by
  simp only [isNan_unpack, isSig_unpack]
  rfl

end Sys2Proof.Machine
end

section
/-!
Condition registers of a home group (R24, R31, R33): what a write gives and what it leaves alone, bit by bit.
-/
namespace Sys2Proof.Machine
open Sys2Proof

/-- The bit of a representation of a condition register at a home position with its coordinates (R33). -/
def condAt (c : Nat × Nat × Nat) (p : Nat) : CRep → Bool
  | .const b => b
  | .pred f => predAt f c
  | .body l => nth l p false

theorem cAt_eq (oneD : Bool) (x : Group) (n p : Nat) : cAt oneD x n p = condAt (coordOf oneD x p) p (cRep x.c n) := by
  unfold cAt
  cases cRep x.c n <;> rfl

/-- c0 reads 1 (R24). -/
theorem cAt_zero (oneD : Bool) (x : Group) (p : Nat) : cAt oneD x 0 p = true := rfl

/-- Only condition registers and the status word of a group differ. -/
def CondOnly (x y : Group) : Prop := y = { x with c := y.c, status := y.status }

theorem CondOnly.vAt {x y : Group} (h : CondOnly x y) (oneD : Bool) (r p : Nat) :
    vAt oneD y r p = Machine.vAt oneD x r p := by rw [h]; rfl
theorem CondOnly.items {x y : Group} (h : CondOnly x y) : y.items = x.items := by rw [h]
theorem CondOnly.scalars {x y : Group} (h : CondOnly x y) : y.s = x.s := by rw [h]
theorem CondOnly.within {x y : Group} (h : CondOnly x y) (ps : List Nat) : Within ps x y :=
  .of_items h.items (by rw [h])

theorem condOnly_putC (x : Group) (n : Nat) (r : CRep) : CondOnly x (putC x n r) := by
  unfold putC
  split <;> rfl
theorem condOnly_putBits (oneD : Bool) (x : Group) (n : Nat) (bs : List (Nat × Bool)) :
    CondOnly x (putBits oneD x n bs) := by
  unfold putBits
  split <;> rfl
theorem CondOnly.groupFlags {x y : Group} (h : CondOnly x y) (fl : Nat) : CondOnly x (groupFlags y fl) := by
  unfold CondOnly at h
  rw [h]
  rfl

theorem putC_status (x : Group) (n : Nat) (r : CRep) : (putC x n r).status = x.status := by
  unfold putC
  split <;> rfl
theorem putBits_status (oneD : Bool) (x : Group) (n : Nat) (bs : List (Nat × Bool)) :
    (putBits oneD x n bs).status = x.status := by
  unfold putBits
  split <;> rfl

theorem cRep_tput (t : Tbl CRep) {n : Nat} (k : Nat) (r : CRep) (h : n ≠ 0) :
    cRep (tput t n r) k = if n = k then r else cRep t k := by
  unfold cRep
  rw [tget_tput]
  by_cases e : n = k
  · subst e
    simp [h]
  · simp [e]

/-- A condition register of a whole group written (R33). -/
theorem cAt_putC (oneD : Bool) (x : Group) {n : Nat} (k p : Nat) (r : CRep) (h : n ≠ 0) :
    cAt oneD (putC x n r) k p = if n = k then condAt (coordOf oneD x p) p r else cAt oneD x k p := by
  rw [cAt_eq, cAt_eq, putC, if_neg h, cRep_tput _ _ _ h]
  split <;> rfl

/-- Elements written at some places of a list: those places hold them, every other keeps its own. -/
theorem nth_foldl_setNth_map {α : Type} (f : Nat → α) (d : α) (ps : List Nat) (l : List α) (q : Nat) :
    nth ((ps.map (fun p => (p, f p))).foldl (fun l (e : Nat × α) => setNth l e.1 d e.2) l) q d =
      if q ∈ ps then f q else nth l q d := by
  induction ps generalizing l with
  | nil => rfl
  | cons p r ih =>
    rw [List.map_cons, List.foldl_cons, ih, nth_setNth]
    by_cases hr : q ∈ r
    · simp [hr]
    · by_cases e : p = q
      · subst e
        simp
      · simp [hr, e, Ne.symm e]

/-- Bits written for some home positions: those get them, every other keeps its bit (R31, R33). -/
theorem cAt_putBits (oneD : Bool) (x : Group) {n : Nat} (k : Nat) {q : Nat} (ps : List Nat) (f : Nat → Bool) (h : n ≠ 0)
    (hq : q < 32) : cAt oneD (putBits oneD x n (ps.map (fun p => (p, f p)))) k q =
      if n = k ∧ q ∈ ps then f q else cAt oneD x k q := by
  rw [cAt_eq, putBits, if_neg h]
  simp only
  rw [cRep_tput _ _ _ h]
  by_cases e : n = k
  · subst e
    rw [if_pos rfl, condAt, nth_foldl_setNth_map f false, nth_upTo_map _ _ _ _ _ hq, Nat.zero_add]
    simp
  · simp only [e, if_false, false_and]
    exact (cAt_eq oneD x k q).symm

/-- Bits written to c0 are discarded (R24). -/
theorem putBits_zero (oneD : Bool) (x : Group) (bs : List (Nat × Bool)) : putBits oneD x 0 bs = x := rfl

theorem constBits_map {t : Tbl CRep} {ns : List Nat} {bs : List Bool} (h : constBits (ns.map (cRep t)) = some bs)
    (c : Nat × Nat × Nat) (p : Nat) : ns.map (fun n => condAt c p (cRep t n)) = bs := by
  induction ns generalizing bs with
  | nil => simpa [constBits] using h
  | cons n r ih =>
    rw [List.map_cons] at h ⊢
    cases e : cRep t n with
    | const b =>
      rw [e, constBits] at h
      obtain ⟨bs', hr, rfl⟩ := Option.map_eq_some_iff.1 h
      rw [ih hr]
      rfl
    | pred f => simp [e, constBits] at h
    | body l => simp [e, constBits] at h

end Sys2Proof.Machine
end

section
/-!
What a condition instruction does to one home group (R24, R31, R33, R121): its bit at every item that acts, and every other
bit left alone.
-/
namespace Sys2Proof.Machine
open Sys2Proof

/-- What a condition instruction's predicate record must be for its value function (R33): exact at every point. -/
def CondSpec.FormExact (o : CondSpec) : Prop :=
  ∀ fs f bs c, o.form fs = some f → (o.f (fs.map (fun g => formAt g c)) bs).1 = predAt f c

/-- The closed form of a condition result is exact at every item that issues (R30, R33). -/
theorem CondSpec.inGroup_sound {o : CondSpec} (hx : o.FormExact) {oneD : Bool} {x : Group} {ps : List Nat} {p : Nat}
    {r : CRep} {fl : Nat} (h : o.inGroup oneD x ps = some (r, fl)) (hp : p ∈ ps) (lt : p < 2 ^ 32) :
    condAt (coordOf oneD x p) p r = (o.item oneD x p).1 := by
  unfold CondSpec.inGroup CondSpec.closed at h
  split at h
  case h_2 => simp at h
  case h_1 fs bs hfs hbs =>
    have srcs := allForms_map hfs (coordOf oneD x p) (srcAt oneD x p o.ext) (fun a _ f e => groupForm_sound e hp lt)
    have conds : o.cregs.map (fun n => cAt oneD x n p) = bs := by
      simp only [cAt_eq]
      exact constBits_map hbs _ p
    unfold CondSpec.item
    rw [conds, ← srcs, cAt_eq]
    cases hvs : constVals fs with
    | some vs =>
      rw [constVals_map hvs]
      simp only [hvs] at h
      split at h
      case isTrue nac =>
        have ac : o.ac = false := by simpa using nac
        simp only [Option.some.injEq, Prod.mk.injEq] at h
        simp [← h.1, condAt, ac]
      case isFalse yac =>
        have ac : o.ac = true := by simpa using yac
        split at h
        case h_1 b cd =>
          simp only [Option.some.injEq, Prod.mk.injEq] at h
          rw [cd, ← h.1]
          simp [condAt, ac]
        case h_2 => simp at h
    | none =>
      simp only [hvs] at h
      split at h
      case isTrue => simp at h
      case isFalse nac =>
        have ac : o.ac = false := by simpa using nac
        obtain ⟨f, hf, e⟩ := Option.map_eq_some_iff.1 h
        simp only [Prod.mk.injEq] at e
        simp [← e.1, condAt, ac, hx fs f bs _ hf]

/-- The effect of a condition instruction on a group: a closed form for a whole group or bits item by item, then the flags
of the real items that act (R31, R33, R121). -/
theorem CondSpec.apply_shape (o : CondSpec) (oneD : Bool) (x : Group) (ps : List Nat) : ∃ y,
    o.apply oneD x ps = groupFlags y (raised x ps (fun p => (o.item oneD x p).2)) ∧
    (y = putBits oneD x o.cd (ps.map (fun p => (p, (o.item oneD x p).1))) ∨
      wholeGroup x ps = true ∧ ∃ r fl, o.inGroup oneD x ps = some (r, fl) ∧ y = putC x o.cd r) := by
  have results : (ps.map (fun p => (p, o.item oneD x p))).map (fun q => (q.1, q.2.1)) =
      ps.map (fun p => (p, (o.item oneD x p).1)) := by simp
  have flags : ((ps.map (fun p => (p, o.item oneD x p))).filter
      (fun q => ((itemIn x q.1).map (fun t => !t.helper)).getD false)).foldl (fun a q => a ||| q.2.2) 0 =
      raised x ps (fun p => (o.item oneD x p).2) := by
    rw [List.filter_map, List.foldl_map]
    rfl
  unfold CondSpec.apply
  simp only [results, flags]
  refine ⟨_, rfl, ?_⟩
  split
  case h_1 r fl closed =>
    split
    case isTrue whole => exact .inr ⟨whole, r, fl, closed, rfl⟩
    case isFalse => exact .inl rfl
  case h_2 => exact .inl rfl

theorem CondSpec.apply_condOnly (o : CondSpec) (oneD : Bool) (x : Group) (ps : List Nat) :
    CondOnly x (o.apply oneD x ps) := by
  obtain ⟨y, e, rfl | ⟨-, r, fl, -, rfl⟩⟩ := o.apply_shape oneD x ps <;> rw [e]
  · exact (condOnly_putBits oneD x _ _).groupFlags _
  · exact (condOnly_putC x _ _).groupFlags _

/-- The flags of the real items that act join the status word (R26, R121). -/
theorem CondSpec.apply_status (o : CondSpec) (oneD : Bool) (x : Group) (ps : List Nat) :
    (o.apply oneD x ps).status =
      x.status ||| BitVec.ofNat 32 (raised x ps (fun p => (o.item oneD x p).2) % 64) := by
  obtain ⟨y, e, rfl | ⟨-, r, fl, -, rfl⟩⟩ := o.apply_shape oneD x ps <;> rw [e, groupFlags]
  · rw [putBits_status]
  · rw [putC_status]

theorem cAt_groupFlags (oneD : Bool) (x : Group) (fl n p : Nat) : cAt oneD (groupFlags x fl) n p = cAt oneD x n p := rfl

/-- The result's bit at every item that acts (R31, R33). -/
theorem CondSpec.apply_value {o : CondSpec} (hx : o.FormExact) {oneD : Bool} {x : Group} {ps : List Nat} {p : Nat}
    (nz : o.cd ≠ 0) (hp : p ∈ ps) (lt : p < 32) : cAt oneD (o.apply oneD x ps) o.cd p = (o.item oneD x p).1 := by
  obtain ⟨y, e, rfl | ⟨-, r, fl, closed, rfl⟩⟩ := o.apply_shape oneD x ps <;> rw [e, cAt_groupFlags]
  · rw [cAt_putBits _ _ _ _ _ nz lt, if_pos ⟨rfl, hp⟩]
  · rw [cAt_putC _ _ _ _ _ nz, if_pos rfl, CondSpec.inGroup_sound hx closed hp (by omega)]

/-- Other condition registers keep their bits, and c0 discards the result (R24, R31). -/
theorem CondSpec.apply_other (o : CondSpec) (oneD : Bool) (x : Group) (ps : List Nat) {n p : Nat} (lt : p < 32)
    (h : n ≠ o.cd ∨ o.cd = 0) : cAt oneD (o.apply oneD x ps) n p = cAt oneD x n p := by
  obtain ⟨y, e, hy⟩ := o.apply_shape oneD x ps
  rw [e, cAt_groupFlags]
  by_cases nz : o.cd = 0
  · rw [nz, putBits_zero] at hy
    obtain rfl | ⟨-, r, fl, -, rfl⟩ := hy <;> rfl
  · have ne : o.cd ≠ n := (h.resolve_right nz).symm
    obtain rfl | ⟨-, r, fl, -, rfl⟩ := hy
    · rw [cAt_putBits _ _ _ _ _ nz lt, if_neg (fun c => ne c.1)]
    · rw [cAt_putC _ _ _ _ _ nz, if_neg ne]

/-- A live item that does not act keeps its bits (R31). -/
theorem CondSpec.apply_idle (o : CondSpec) (oneD : Bool) (x : Group) (ps : List Nat) {n p : Nat} (lt : p < 32)
    (live : p ∈ livePos x) (idle : p ∉ ps) : cAt oneD (o.apply oneD x ps) n p = cAt oneD x n p := by
  by_cases nz : o.cd = 0
  · exact o.apply_other oneD x ps lt (.inr nz)
  · obtain ⟨y, e, rfl | ⟨whole, -⟩⟩ := o.apply_shape oneD x ps
    · rw [e, cAt_groupFlags, cAt_putBits _ _ _ _ _ nz lt, if_neg (fun c => idle c.2)]
    · simp only [wholeGroup, List.all_eq_true, List.contains_iff_mem] at whole
      exact absurd (whole p live) idle

end Sys2Proof.Machine
end

section
/-!
A condition instruction of an issuing bundle whose members are ready (R66, R81, R83, R143, R210): what every group and every
item is afterwards. The first part holds for any instruction that changes condition registers and flags alone.
-/
namespace Sys2Proof.Machine
open Sys2Proof

/-- A group after an effect on the groups of a bundle. -/
def changedGroup (f : Group → List Nat → Group) (s : State) (w : Where) (g : Nat) : Group :=
  if g ∈ groupsOf w.b.members then f (groupAt s w.b.gang g) (inGroup w.b.members g) else groupAt s w.b.gang g

/-- A bundle after an effect on its groups: every member at the word `len` words on, and the chain or the lane goes on. -/
def finished (f : Group → List Nat → Group) (s : State) (w : Where) (len : Nat) (link : Link) : State :=
  endMember (advance (eachGroup f s w.b.gang w.b.members) w.b.gang w.b.members len) w w.b.members w.b.members link false

/-- Everything that an effect on condition registers and flags does to a bundle. -/
structure Decided (f : Group → List Nat → Group) (s t : State) (w : Where) (len : Nat) : Prop where
  conf : Confined s t w
  regs : ∀ g, SameRegs (changedGroup f s w g) (groupAt t w.b.gang g)
  moved : MovedOn s t w len
  rings : w.b.pend = 0 → Keeps Item.ring s t

/-- Members that kept their program counters up to the end of an instruction stand at the word after it (R66). -/
theorem movedOn_endMember {s u : State} {w : Where} (i : Issues s w) (k : Keeps Item.pc s u) (len : Nat) (link : Link)
    (switch : Bool) :
    MovedOn s (endMember (advance u w.b.gang w.b.members len) w w.b.members w.b.members link switch) w len := by
  intro m hm
  obtain ⟨a, ha⟩ := Option.isSome_iff_exists.1 (i.live m hm)
  have before : itemOf s w.b.gang m.1 m.2 = some a := ha
  obtain ⟨b, hb, pcb⟩ := Option.map_eq_some_iff.1 ((k w.b.gang m.1 m.2).trans (by rw [before]; rfl))
  have adv : itemOf (advance u w.b.gang w.b.members len) w.b.gang m.1 m.2 = some { b with pc := nextWord b.pc len } := by
    unfold advance
    rw [itemOf_updItems _ _ _ _ _ _ _ i.once, hb]
    exact if_pos ⟨rfl, hm⟩
  have pc := keeps_endMember Item.pc (advance u w.b.gang w.b.members len) w w.b.members w.b.members link switch
    (fun _ _ _ _ => rfl) (.inl (fun _ => rfl)) w.b.gang m.1 m.2
  rw [adv] at pc
  obtain ⟨c, hc, pcc⟩ := Option.map_eq_some_iff.1 pc
  rw [itemAt_of_itemOf hc, itemAt_of_itemOf before, pcc, pcb]

theorem keeps_advance {α : Type} (π : Item → α) (s : State) (gang : Nat) (ms : List (Nat × Nat)) (len : Nat)
    (h : ∀ (x : Item) pc, π { x with pc := pc } = π x) : Keeps π s (advance s gang ms len) :=
  keeps_updItems π s gang ms _ (fun x => h x _)

/-- An effect on condition registers and flags of a bundle that issues. -/
theorem decided_finished {f : Group → List Nat → Group} (only : ∀ x ps, CondOnly x (f x ps)) {s : State} {w : Where}
    (i : Issues s w) (len : Nat) (link : Link) : Decided f s (finished f s w len link) w len := by
  have items {α : Type} (π : Item → α) : Keeps π s (eachGroup f s w.b.gang w.b.members) :=
    keeps_eachGroup π f s _ _ (fun x ps p => by rw [itemIn, (only x ps).items, itemIn])
  constructor
  case conf =>
    exact confined_trans (confined_eachGroup f s w i (fun g _ => (only _ _).within _))
      (confined_trans (confined_advance _ w _ len (fun _ h => h)) (confined_endMember _ w _ _ _ _ (fun _ h => h)))
  case regs =>
    intro g
    have group : groupAt (eachGroup f s w.b.gang w.b.members) w.b.gang g = changedGroup f s w g :=
      groupAt_eachGroup f s w.b.gang g w.b.members i.live
    rw [← group]
    exact ((sameS_advance _ w.b.gang w.b.members len).trans (sameS_endMember _ w _ _ _ _)).regs w.b.gang g
  case moved => exact movedOn_endMember i (items Item.pc) len link false
  case rings =>
    intro pend
    exact (items Item.ring).trans ((keeps_advance Item.ring _ _ _ len (fun _ _ => rfl)).trans
      (keeps_endMember Item.ring _ w _ _ link false (fun _ _ _ _ => rfl) (.inr ⟨rfl, pend⟩)))

/-- The order of the banks in the fast file is no part of an effect (R143). -/
theorem Decided.usedBanks {f : Group → List Nat → Group} {s t : State} {w : Where} {len : Nat} (d : Decided f s t w len)
    (touch : List (Nat × Nat)) : Decided f s (usedBanks t w touch) w len :=
  ⟨confined_trans d.conf (confined_setLane _ w _), d.regs, d.moved, d.rings⟩

section
variable {f : Group → List Nat → Group} {s t : State} {w : Where} {len : Nat} (d : Decided f s t w len)
include d

theorem Decided.cOf_eq (g n p : Nat) :
    cOf t w.b.gang g n p = cAt (gangAt s w.b.gang).oneD (changedGroup f s w g) n p := by
  unfold cOf
  rw [confined_oneD d.conf, (d.regs g).cAt]

theorem Decided.vOf_eq (only : ∀ x ps, CondOnly x (f x ps)) (g r p : Nat) :
    vOf t w.b.gang g r p = vOf s w.b.gang g r p := by
  unfold vOf
  rw [confined_oneD d.conf, (d.regs g).vAt]
  unfold changedGroup
  split
  · exact (only _ _).vAt _ r p
  · rfl

theorem Decided.sOf_eq (only : ∀ x ps, CondOnly x (f x ps)) (g n : Nat) : sOf t w.b.gang g n = sOf s w.b.gang g n := by
  unfold sOf
  rw [(d.regs g).s]
  unfold changedGroup
  split
  · rw [(only _ _).scalars]
  · rfl

/-- Nothing is pushed (R25). -/
theorem Decided.latchOf_eq (pend : w.b.pend = 0) (g p j : Nat) : latchOf t w.b.gang g p j = latchOf s w.b.gang g p j := by
  have ring (x : Option Item) : x.bind (fun t => nth t.ring j none) = (x.map Item.ring).bind (fun r => nth r j none) := by
    cases x <;> rfl
  unfold latchOf
  simp only [ring, confined_coord d.conf]
  rw [show (itemIn (groupAt t w.b.gang g) p).map Item.ring = (itemIn (groupAt s w.b.gang g) p).map Item.ring from
    d.rings pend w.b.gang g p]

end

theorem inGroup_of_not_mem {w : Where} {g : Nat} (h : g ∉ groupsOf w.b.members) : inGroup w.b.members g = [] := by
  rw [List.eq_nil_iff_forall_not_mem]
  exact fun p hp => h (mem_groups (mem_inGroup.1 hp))

/-- Every operand of a condition instruction is uniform over the bundle (R32). -/
def uniformCond (o : CondSpec) (s : State) (w : Where) : Bool :=
  let gs := (groupsOf w.b.members).map (fun g => (groupAt s w.b.gang g, inGroup w.b.members g))
  o.srcs.all (fun x => uniformSrc (gangAt s w.b.gang).oneD gs o.ext x) && o.cregs.all (uniformC gs) &&
    (!o.ac || uniformC gs o.cd)

/-- BODY registers that an instruction reads are among the registers it names (R143). -/
theorem mem_bodyRegs {x : Group} {l : List (Field7 × Nat)} {r : Nat} (h : r ∈ bodyRegs x l) :
    ∃ f ∈ l, isV f.1 = true ∧ r ∈ upTo f.1.toNat f.2 := by
  obtain ⟨⟨d, n⟩, hf, hr⟩ := List.mem_flatMap.1 (List.mem_filter.1 h).1
  refine ⟨(d, n), hf, ?_⟩
  dsimp only at hr
  split at hr
  case isTrue v => exact ⟨v, hr⟩
  case isFalse => simp at hr

/-- The banks of the BODY registers that a ready bundle reads are present (R143). -/
theorem missingBanks_reads {s : State} {w : Where} {u : Uses} (r : Ready s w u) :
    missingBanks s w ((groupsOf w.b.members).flatMap (fun g =>
      (bodyRegs (groupAt s w.b.gang g) u.read).map (fun r => (g, r)))) = [] := by
  refine missingBanks_nil (fun t ht => ?_)
  obtain ⟨g, hg, ht⟩ := List.mem_flatMap.1 ht
  obtain ⟨k, hk, rfl⟩ := List.mem_map.1 ht
  obtain ⟨p, hp⟩ := mem_groupsOf.1 hg
  obtain ⟨f, hf, hv, hr⟩ := mem_bodyRegs hk
  exact r.banks _ hp f (List.mem_append_right _ hf) hv k (List.mem_append_left _ hr)

/-- A condition instruction whose members are ready acts in every group, and all of them go on (R81, R83). -/
theorem itemCond_ready {o : CondSpec} {s : State} {w : Where} (r : Ready s w o.uses)
    (uni : o.y = true → uniformCond o s w = true) : ∃ link touch,
    itemCond o s w = usedBanks (finished (o.apply (gangAt s w.b.gang).oneD) s w o.len link) w touch := by
  have go := sift_none (s := s) (gang := w.b.gang) (ms := w.b.members) (check := fun g p =>
      (earlyTrap (groupAt s w.b.gang g) p o.uses).or (if o.y && !uniformCond o s w then some { code := 0x05 } else
        (pastTrap w).or (useTrap (groupAt s w.b.gang g) p o.uses))) (fun m hm => by
    have held := r.held m hm
    have past : pastTrap w = none := by simp [pastTrap, r.past]
    have asserted : (o.y && !uniformCond o s w) = false := by
      cases hy : o.y
      · rfl
      · rw [uni hy]; rfl
    rw [earlyTrap_none held, held, past, asserted]
    rfl)
  unfold uniformCond at go
  unfold itemCond
  simp only [r.loads, meetErrors_clean r.cleanV r.cleanS, Bool.false_eq_true, if_false]
  rw [go]
  simp only [r.past, missingBanks_reads r, List.isEmpty_nil, Bool.not_true, Option.isSome_none, Bool.false_eq_true, if_false]
  exact ⟨_, _, congrArg (usedBanks · w _) (conclude_go _ _ _ _ _ _ _)⟩

/-- A condition instruction of a bundle whose members are ready (R81, R83). -/
theorem runCond_decided {o : CondSpec} {s : State} {w : Where} (i : Issues s w) (r : Ready s w o.uses)
    (uni : o.y = true → uniformCond o s w = true) :
    Decided (o.apply (gangAt s w.b.gang).oneD) s (runCond o s) w o.len := by
  have run : runCond o s = itemCond o s w := by
    unfold runCond
    simp only [i.cursor, i.items]
  obtain ⟨link, touch, e⟩ := itemCond_ready r uni
  rw [run, e]
  exact (decided_finished (o.apply_condOnly _) i o.len link).usedBanks touch

end Sys2Proof.Machine
end

section
/-!
The compares and the condition logic meet their rows (R79, R100 to R103): the value function of each against the integer
order, the order of exact float values and the logic that the spec gives.
-/
namespace Sys2Proof.Machine
open Sys2Proof

theorem signed_mod (w n : Nat) : signed w (n % 2 ^ w) = signed w n := by
  unfold signed
  rw [Nat.mod_mod]

theorem signed_toNat {w : Nat} (a : BitVec w) : signed w a.toNat = a.toInt := by
  unfold signed
  rw [Nat.mod_eq_of_lt a.isLt, BitVec.toInt_eq_msb_cond, BitVec.msb_eq_decide]
  by_cases h : a.toNat < 2 ^ (w - 1)
  · simp [h, Nat.not_le.2 h]
  · simp [h, Nat.not_lt.1 h]

/-- An integer condition looks at the low bits alone. -/
theorem icond_mod (cond w a b : Nat) : icond cond w (a % 2 ^ w) (b % 2 ^ w) = icond cond w a b := by
  unfold icond
  simp only [Nat.mod_mod, signed_mod]

/-- The integer conditions of R79 on words. -/
theorem icond_toNat (cond : Nat) {w : Nat} (a b : BitVec w) : icond cond w a.toNat b.toNat = intCond cond w a b := by
  match cond with
  | 0 | 1 | 2 | 3 | 4 | _ + 5 =>
    simp only [icond, intCond, signed_toNat, Nat.mod_eq_of_lt a.isLt, Nat.mod_eq_of_lt b.isLt, ← BitVec.toNat_inj, ne_eq]

theorem icond_lowWord (cond : Nat) (a b : DWord) :
    icond cond 32 a.toNat b.toNat = icond cond 32 (lowWord a).toNat (lowWord b).toNat := by
  rw [← icond_mod cond 32 a.toNat, lowWord, lowWord, BitVec.toNat_setWidth, BitVec.toNat_setWidth]

/-- A condition instruction of the machine is the one that a row describes, and its predicate records are exact. -/
structure CondSpec.Meets (o : CondSpec) (r : CondRow) : Prop where
  y : o.y = r.y
  cd : o.cd = r.cd
  ac : o.ac = r.ac
  ext : o.ext = r.ext
  srcs : o.srcs = r.srcs
  cregs : o.cregs = r.cregs
  len : o.len = r.len
  result : ∀ vs bs, vs.length = o.srcs.length → bs.length = o.cregs.length → o.f vs bs = (r.value vs bs, r.flags vs)
  form : o.FormExact

theorem CondSpec.formExact_of_none {o : CondSpec} (h : o.form = fun _ => none) : o.FormExact := by
  intro fs f bs c e
  simp [h] at e

/-- The predicate record of `icmp` on one AFFINE and one CONST source is exact (R33). -/
theorem specIcmp_exact (o : CmpOp) : (specIcmp o).FormExact := by
  intro fs f bs c h
  simp only [specIcmp] at h ⊢
  split at h
  case isTrue => simp at h
  case isFalse narrow =>
    unfold predOf at h
    split at h
    case h_1 g k =>
      simp only [Option.some.injEq] at h
      simp only [← h, List.map_cons, List.map_nil, formAt, predAt, narrow, Bool.false_eq_true, if_false, if_true,
        icond_lowWord, lowWord_setWidth]
    case h_2 k g =>
      simp only [Option.some.injEq] at h
      simp only [← h, List.map_cons, List.map_nil, formAt, predAt, narrow, Bool.false_eq_true, if_false,
        icond_lowWord, lowWord_setWidth]
    case h_3 => simp at h

/-- `icmp` (R100). -/
theorem specIcmp_meets (o : CmpOp) {r : CondRow} (h : condRow (.icmp o) = some r) : (specIcmp o).Meets r := by
  obtain rfl := Option.some.inj h
  refine ⟨rfl, rfl, rfl, rfl, rfl, rfl, rfl, fun vs bs two _ => ?_, specIcmp_exact o⟩
  obtain ⟨a, b, rfl⟩ := List.length_eq_two.1 two
  simp only [specIcmp, ← icond_toNat]
  cases o.w
  · simp only [Bool.false_eq_true, if_false, icond_lowWord _ a b]
    rfl
  · rfl

/-- `fcmp` (R101). -/
theorem specFcmp_meets (o : FcmpOp) {r : CondRow} (h : condRow (.fcmp o) = some r) : (specFcmp o).Meets r := by
  obtain rfl := Option.some.inj h
  refine ⟨rfl, rfl, rfl, rfl, rfl, rfl, rfl, fun vs bs two _ => ?_, CondSpec.formExact_of_none rfl⟩
  obtain ⟨a, b, rfl⟩ := List.length_eq_two.1 two
  have ordered (k : BitVec 3) : decide (o.cond.toNat = k.toNat) = decide (o.cond = k) := by
    rw [decide_eq_decide, BitVec.toNat_inj]
  refine Prod.ext (fcond_fst _ _ _) ((fcond_snd _ _ _).trans ?_)
  rw [show decide (o.cond.toNat = 2) = _ from ordered 2, show decide (o.cond.toNat = 3) = _ from ordered 3]
  rfl

/-- `cop` (R102). -/
theorem specCop_meets (o : CopOp) {r : CondRow} (h : condRow (.cop o) = some r) : (specCop o).Meets r := by
  obtain rfl := Option.some.inj h
  refine ⟨rfl, rfl, rfl, rfl, rfl, rfl, rfl, fun vs bs _ two => ?_, CondSpec.formExact_of_none rfl⟩
  obtain ⟨a, b, rfl⟩ := List.length_eq_two.1 two
  rfl

/-- `cset` (R103). -/
theorem specCset_meets (o : CsetOp) {r : CondRow} (h : condRow (.cset o) = some r) : (specCset o).Meets r := by
  obtain rfl := Option.some.inj h
  refine ⟨rfl, rfl, rfl, rfl, rfl, rfl, rfl, fun vs bs two _ => ?_, CondSpec.formExact_of_none rfl⟩
  obtain ⟨a, b, rfl⟩ := List.length_eq_two.1 two
  rfl

/-- Every row of a condition instruction is met by what the machine runs (R100 to R103). -/
theorem exec_of_condRow {i : Instr} {r : CondRow} (h : condRow i = some r) :
    ∃ o : CondSpec, o.Meets r ∧ ∀ s, exec i s = .next (runCond o s) := by
  unfold condRow at h
  split at h
  case h_1 o => exact ⟨specIcmp o, specIcmp_meets o h, fun _ => rfl⟩
  case h_2 o => exact ⟨specFcmp o, specFcmp_meets o h, fun _ => rfl⟩
  case h_3 o => exact ⟨specCop o, specCop_meets o h, fun _ => rfl⟩
  case h_4 o => exact ⟨specCset o, specCset_meets o h, fun _ => rfl⟩
  case h_5 => simp at h

section
variable {o : CondSpec} {r : CondRow} (m : o.Meets r)
include m

/-- A condition instruction's bit for an item is that of its row, ANDed into the old one with AC (R100). -/
theorem CondSpec.Meets.item_fst (s : State) (gang g p : Nat) :
    (o.item (gangAt s gang).oneD (groupAt s gang g) p).1 =
      (r.value (r.srcs.map (operandOf s gang g p r.ext)) (r.cregs.map (fun n => cOf s gang g n p)) &&
        (!r.ac || cOf s gang g r.cd p)) := by
  unfold CondSpec.item
  rw [m.result _ _ (List.length_map _) (List.length_map _), m.srcs, m.cregs, m.ext, m.ac, m.cd]
  cases r.ac
  · simp only [Bool.not_false, Bool.true_or, Bool.and_true]
    rfl
  · rfl

/-- The flags that a condition instruction raises for an item are those of its row. -/
theorem CondSpec.Meets.item_snd (s : State) (gang g p : Nat) :
    (o.item (gangAt s gang).oneD (groupAt s gang g) p).2 = r.flags (r.srcs.map (operandOf s gang g p r.ext)) := by
  unfold CondSpec.item
  rw [m.result _ _ (List.length_map _) (List.length_map _), m.srcs, m.ext]
  rfl

theorem CondSpec.Meets.uses_eq : o.uses = r.uses := by
  unfold CondSpec.uses CondRow.uses
  rw [m.srcs, m.ext]

theorem CondSpec.Meets.uniform {s : State} {w : Where} (uni : r.y = true → r.uniform s w) (y : o.y = true) :
    uniformCond o s w = true := by
  obtain ⟨srcs, cregs, cd⟩ := uni (m.y ▸ y)
  simp only [uniformCond, m.srcs, m.cregs, m.ac, m.cd, m.ext, Bool.and_eq_true, Bool.or_eq_true, Bool.not_eq_true',
    List.all_eq_true]
  refine ⟨⟨srcs, cregs⟩, ?_⟩
  cases ac : r.ac
  · exact .inl rfl
  · exact .inr (cd ac)

end

section
variable {o : CondSpec} {s t : State} {w : Where} (d : Decided (o.apply (gangAt s w.b.gang).oneD) s t w o.len)
include d

/-- A condition instruction changes no other register, and none of an item that does not act (R24, R31). -/
theorem Decided.keptConds : KeptConds s t w o.cd := by
  constructor
  case v => exact d.vOf_eq (o.apply_condOnly _)
  case c =>
    intro g n p lt h
    rw [d.cOf_eq, changedGroup]
    split
    · exact o.apply_other _ _ _ lt h
    · rfl
  case idle =>
    intro g p lt live idle
    rw [d.cOf_eq, changedGroup]
    split
    · exact o.apply_idle _ _ _ lt live (fun c => idle (mem_inGroup.1 c))
    · rfl
  case scalars => exact d.sOf_eq (o.apply_condOnly _)

/-- The bit of every member (R24, R100). -/
theorem Decided.cOf_member (hx : o.FormExact) (nz : o.cd ≠ 0) {g p : Nat} (hm : (g, p) ∈ w.b.members) (lt : p < 32) :
    cOf t w.b.gang g o.cd p = (o.item (gangAt s w.b.gang).oneD (groupAt s w.b.gang g) p).1 := by
  rw [d.cOf_eq, changedGroup, if_pos (mem_groups hm)]
  exact CondSpec.apply_value hx nz (mem_inGroup.2 hm) lt

/-- The status word of every group (R26, R121). -/
theorem Decided.status (g : Nat) : (groupAt t w.b.gang g).status = (groupAt s w.b.gang g).status |||
    BitVec.ofNat 32 (raised (groupAt s w.b.gang g) (inGroup w.b.members g)
      (fun p => (o.item (gangAt s w.b.gang).oneD (groupAt s w.b.gang g) p).2) % 64) := by
  rw [(d.regs g).status, changedGroup]
  split
  case isTrue => exact o.apply_status _ _ _
  case isFalse absent =>
    rw [inGroup_of_not_mem absent]
    simp [raised]

end

/-- Settles O6: a ready bundle decides (`runCond_decided`), each group by `CondSpec.apply` and each item by its row
(`exec_of_condRow`). -/
theorem conditionResults : Obligations.ConditionResults := by
  unfold Obligations.ConditionResults
  refine ⟨fun s gang g p => cAt_zero _ _ p, fun i r row _ s w issues ready uni => ?_⟩
  obtain ⟨o, meets, runs⟩ := exec_of_condRow row
  have d := runCond_decided issues (meets.uses_eq ▸ ready) (meets.uniform uni)
  refine ⟨_, runs s, d.conf, meets.cd ▸ d.keptConds, meets.len ▸ d.moved, fun nz m hm _ => ?_, fun g => ?_,
    fun pend m _ j => d.latchOf_eq pend m.1 m.2 j⟩
  · rw [← meets.item_fst, ← meets.cd]
    exact d.cOf_member meets.form (meets.cd ▸ nz) hm (issues.home m hm)
  · simp only [← meets.item_snd]
    exact d.status g

end Sys2Proof.Machine
end

section
/-!
The value functions of the integer instructions against the exact integers of the spec (R12, R95 to R99, R104).
-/
namespace Sys2Proof.Machine
open Sys2Proof

theorem add_eq_ofInt {w : Nat} (a b : BitVec w) : a + b = BitVec.ofInt w (a.toInt + b.toInt) := by
  rw [BitVec.ofInt_add, BitVec.ofInt_toInt, BitVec.ofInt_toInt]

theorem sub_eq_ofInt {w : Nat} (a b : BitVec w) : a - b = BitVec.ofInt w (a.toInt - b.toInt) := by
  rw [Int.sub_eq_add_neg, BitVec.ofInt_add, BitVec.ofInt_neg, BitVec.ofInt_toInt, BitVec.ofInt_toInt, sub_eq_add_neg]

theorem mul_eq_ofInt (a b : Word) : a * b = BitVec.ofInt 32 (a.toInt * b.toInt) := by
  rw [BitVec.ofInt_mul, word_ofInt, word_ofInt]

theorem mad_eq_ofInt (a b d : Word) : a * b + d = BitVec.ofInt 32 (a.toInt * b.toInt + d.toInt) := by
  rw [BitVec.ofInt_add, ← mul_eq_ofInt, word_ofInt]

theorem add_sx8_eq_ofInt (a : Word) (i : BitVec 8) : a + sx8 i = BitVec.ofInt 32 (a.toInt + i.toInt) := by
  rw [BitVec.ofInt_add, word_ofInt]
  rfl

theorem zx8_eq_ofNat (i : BitVec 8) : zx8 i = BitVec.ofNat 32 i.toNat := (BitVec.ofNat_toNat 32 i).symm

/-- The high half of an exact value narrowed to 64 bits (R95). -/
theorem highWord_wrap64 (n : Int) : highWord (wrap64 n) = BitVec.ofInt 32 (n / 2 ^ 32) := by
  apply BitVec.eq_of_toNat_eq
  simp only [highWord, wrap64, BitVec.toNat_setWidth, BitVec.toNat_ushiftRight, BitVec.toNat_ofInt, Nat.shiftRight_eq_div_pow]
  omega

theorem highWord_ofNat (n : Nat) : highWord (BitVec.ofNat 64 n) = BitVec.ofNat 32 (n / 2 ^ 32) := by
  apply BitVec.eq_of_toNat_eq
  simp only [highWord, BitVec.toNat_setWidth, BitVec.toNat_ushiftRight, BitVec.toNat_ofNat, Nat.shiftRight_eq_div_pow]
  omega

theorem shiftLeft_eq_ofNat (a : Word) (k : Nat) : a <<< k = BitVec.ofNat 32 (a.toNat * 2 ^ k) := by
  apply BitVec.eq_of_toNat_eq
  rw [BitVec.toNat_shiftLeft, BitVec.toNat_ofNat, Nat.shiftLeft_eq]

theorem shiftRight_eq_ofNat (a : Word) (k : Nat) : a >>> k = BitVec.ofNat 32 (a.toNat / 2 ^ k) := by
  apply BitVec.eq_of_toNat_eq
  rw [BitVec.toNat_ushiftRight, BitVec.toNat_ofNat, Nat.shiftRight_eq_div_pow,
    Nat.mod_eq_of_lt (Nat.div_lt_of_lt a.isLt)]

theorem sshiftRight_eq_ofInt (a : Word) (k : Nat) : a.sshiftRight k = BitVec.ofInt 32 (a.toInt / 2 ^ k) := by
  rw [← word_ofInt (a.sshiftRight k), BitVec.toInt_sshiftRight, Int.shiftRight_eq_div_pow]
  norm_cast

theorem rotateLeft_eq_ofNat (a : Word) {k : Nat} (h : k < 32) :
    a.rotateLeft k = BitVec.ofNat 32 (a.toNat * 2 ^ k + a.toNat / 2 ^ (32 - k)) := by
  have apart : a <<< k &&& a >>> (32 - k) = 0#32 := by
    ext i hi
    simp only [BitVec.getElem_and, BitVec.getElem_shiftLeft, BitVec.getElem_ushiftRight, BitVec.getElem_zero]
    by_cases low : i < k
    · simp [low]
    · rw [BitVec.getLsbD_of_ge a _ (by omega), Bool.and_false]
  rw [BitVec.rotateLeft_def, Nat.mod_eq_of_lt h, ← BitVec.add_eq_or_of_and_eq_zero _ _ apart, BitVec.ofNat_add,
    ← shiftLeft_eq_ofNat, ← shiftRight_eq_ofNat]

theorem minI_eq_ofInt (a b : Word) : (if a.toInt ≤ b.toInt then a else b) = BitVec.ofInt 32 (min a.toInt b.toInt) := by
  rw [min_def]
  split <;> exact (word_ofInt _).symm
theorem maxI_eq_ofInt (a b : Word) : (if a.toInt ≤ b.toInt then b else a) = BitVec.ofInt 32 (max a.toInt b.toInt) := by
  rw [max_def]
  split <;> exact (word_ofInt _).symm
theorem minN_eq_ofNat (a b : Word) : (if a.toNat ≤ b.toNat then a else b) = BitVec.ofNat 32 (min a.toNat b.toNat) := by
  rw [min_def]
  split <;> simp
theorem maxN_eq_ofNat (a b : Word) : (if a.toNat ≤ b.toNat then b else a) = BitVec.ofNat 32 (max a.toNat b.toNat) := by
  rw [max_def]
  split <;> simp

theorem abs_eq_ofNat (a : Word) : (if a.toInt < 0 then 0 - a else a) = BitVec.ofNat 32 a.toInt.natAbs := by
  rw [← BitVec.ofInt_natCast, Int.natCast_natAbs]
  split
  · rw [abs_of_neg ‹_›, BitVec.ofInt_neg, word_ofInt, zero_sub]
  · rw [abs_of_nonneg (by omega), word_ofInt]

theorem neg_eq_ofInt (a : Word) : 0 - a = BitVec.ofInt 32 (-a.toInt) := by
  rw [BitVec.ofInt_neg, word_ofInt, zero_sub]

/-- The quotient of `div.n`: all ones for a zero divisor (R95). -/
theorem divUnsigned_eq (a b : Word) :
    (if b = 0 then 0xFFFFFFFF#32 else a / b) = if b = 0 then BitVec.allOnes 32 else BitVec.ofNat 32 (a.toNat / b.toNat) := by
  rw [← BitVec.toNat_udiv, BitVec.ofNat_toNat, BitVec.setWidth_eq]
  rfl

theorem remUnsigned_eq (a b : Word) :
    (if b = 0 then a else a % b) = if b = 0 then a else BitVec.ofNat 32 (a.toNat % b.toNat) := by
  rw [← BitVec.toNat_umod, BitVec.ofNat_toNat, BitVec.setWidth_eq]

/-- The remainder of `div.i` (R95). -/
theorem remSigned_eq (a b : Word) : remSigned a b = if b = 0 then a else BitVec.ofInt 32 (a.toInt.tmod b.toInt) := by
  rw [remSigned, Int.tmod_def, wrap32]

theorem lowWord_pair_shiftRight (a b : Word) (k : Nat) :
    lowWord (pair b a >>> k) = BitVec.ofNat 32 ((b.toNat * 2 ^ 32 + a.toNat) / 2 ^ k) := by
  apply BitVec.eq_of_toNat_eq
  rw [lowWord, BitVec.toNat_setWidth, BitVec.toNat_ushiftRight, pair_toNat, BitVec.toNat_ofNat, Nat.shiftRight_eq_div_pow]

theorem bit_toNat {w : Nat} (a : BitVec w) (i : Nat) : bit a.toNat i = a.getLsbD i := by
  rw [bit, BitVec.getLsbD, Nat.testBit_eq_decide_div_mod_eq, Nat.shiftRight_eq_div_pow]

theorem bits_toNat (a : Word) (hi lo : Nat) : bits a.toNat hi lo = (a.extractLsb' lo (hi + 1 - lo)).toNat := by
  rw [bits, BitVec.extractLsb'_toNat]

/-- A value below 2^32 is its low word zero-extended (R104). -/
theorem eq_ofNat_lowWord {a : DWord} (h : a.toNat < 2 ^ 32) : a = BitVec.ofNat 64 (lowWord a).toNat := by
  rw [lowWord, BitVec.toNat_setWidth, Nat.mod_eq_of_lt h, BitVec.ofNat_toNat, BitVec.setWidth_eq]

/-- An unsigned value held to 32 bits (R104). -/
theorem ofNat_min_eq_word (n : Nat) : BitVec.ofNat 64 (min n (2 ^ 32 - 1)) = word (BitVec.ofNat 32 (min n (2 ^ 32 - 1))) := by
  apply BitVec.eq_of_toNat_eq
  rw [word, BitVec.toNat_setWidth, BitVec.toNat_ofNat, BitVec.toNat_ofNat]
  omega

theorem upTo_eq_range' (a n : Nat) : upTo a n = List.range' a n := by
  induction n generalizing a with
  | zero => rfl
  | succ n ih => rw [upTo, ih, List.range'_succ]

theorem upTo_zero (n : Nat) : upTo 0 n = List.range n := by
  rw [upTo_eq_range', List.range_eq_range']

theorem countP_range_le (l n : Nat) : (List.range n).countP (fun k => l ≤ k) = n - l := by
  induction n with
  | zero => simp
  | succ n ih =>
    rw [List.range_succ, List.countP_append, ih, List.countP_singleton]
    by_cases h : l ≤ n <;> simp [h] <;> omega

/-- A number is below a power of two when its length in bits allows it. -/
theorem bitLen_le_iff (n k : Nat) : bitLen n ≤ k ↔ n < 2 ^ k := by
  by_cases h : n = 0
  · simp [bitLen, h]
  · rw [bitLen, if_neg h, Nat.succ_le_iff, Nat.log2_lt h]

theorem leadingZeros_eq (a : Word) :
    leadingZeros a = BitVec.ofNat 32 ((List.range 32).countP (fun k => a.toNat < 2 ^ k)) := by
  simp only [leadingZeros, ← bitLen_le_iff, countP_range_le]

theorem popCount_eq (a : Word) : popCount a = BitVec.ofNat 32 ((List.range 32).countP (fun k => a.getLsbD k)) := by
  rw [popCount, onesIn, upTo_zero, ← List.countP_eq_length_filter]
  simp only [bit_toNat]

/-- Bits put one after another from the most significant one on. -/
theorem testBit_foldl_bits (f : Nat → Bool) (n i : Nat) :
    ((List.range n).foldl (fun m j => 2 * m + ofBool (f j)) 0).testBit i = (decide (i < n) && f (n - 1 - i)) := by
  induction n generalizing i with
  | zero => simp
  | succ n ih =>
    have step (m : Nat) : 2 * m + ofBool (f n) = Nat.bit (f n) m := by
      rw [Nat.bit_val]
      cases f n <;> rfl
    rw [List.range_succ, List.foldl_append, List.foldl_cons, List.foldl_nil, step]
    cases i with
    | zero => simp
    | succ i => simp [Nat.testBit_bit_succ, ih, Nat.sub_sub, Nat.add_comm 1 i]

/-- The bits of `brev` (R95). -/
theorem bitReverse_eq (a : Word) : bitReverse a = a.reverse := by
  ext i hi
  rw [BitVec.getElem_reverse, bitReverse, upTo_zero, ← BitVec.getLsbD_eq_getElem, BitVec.getLsbD_ofNat, testBit_foldl_bits,
    bit_toNat, BitVec.getMsbD, decide_eq_true hi, Bool.true_and]

/-- A field of `w` bits read as signed (R96). -/
theorem toInt_field {w : Nat} (f : BitVec w) :
    (if 1 ≤ w ∧ 2 ^ (w - 1) ≤ f.toNat then (f.toNat : Int) - 2 ^ w else f.toNat) = f.toInt := by
  obtain rfl | pos := Nat.eq_zero_or_pos w
  · simp [BitVec.eq_nil f]
  · rw [BitVec.toInt_eq_msb_cond, BitVec.msb_eq_decide]
    simp [show 1 ≤ w from pos]

/-- The field that `bfx` reads: bits above bit 31 are zero (R96). -/
def bitField (a b : Word) : BitVec (min (b.extractLsb' 8 6).toNat 32) :=
  (a >>> (b.extractLsb' 0 5).toNat).setWidth (min (b.extractLsb' 8 6).toNat 32)

theorem bitExtract_eq (a b : Word) :
    bitExtract a b = if b.getLsbD 16 then (bitField a b).signExtend 32 else (bitField a b).setWidth 32 := by
  have field : (a.toNat >>> (b.extractLsb' 0 5).toNat) % 2 ^ min (b.extractLsb' 8 6).toNat 32 = (bitField a b).toNat := by
    rw [bitField, BitVec.toNat_setWidth, BitVec.toNat_ushiftRight]
  simp only [bitExtract, bit_toNat, bits_toNat, field]
  cases b.getLsbD 16
  · simp only [Bool.false_and, Bool.false_eq_true, if_false]
    rw [wrap32, BitVec.ofInt_natCast, BitVec.ofNat_toNat]
  · simp only [Bool.true_and, Bool.and_eq_true, decide_eq_true_eq, toInt_field, if_true]
    rfl

/-- The mask of `bfi`: bits above bit 31 are dropped (R96). -/
theorem fieldMask_eq (w p : Nat) : BitVec.ofNat 32 ((2 ^ w - 1) * 2 ^ p) = (1#32 <<< w - 1) <<< p := by
  have ones : BitVec.ofNat 32 (2 ^ w - 1) = 1#32 <<< w - 1 := by
    rw [← BitVec.ofNat_sub_ofNat_of_le _ _ (by decide) Nat.one_le_two_pow, shiftLeft_mul, BitVec.one_mul]
    rfl
  rw [BitVec.ofNat_mul, ones, ← shiftLeft_mul]

theorem bitInsert_eq (a b d : Word) : bitInsert a b d =
    let p := (b.extractLsb' 0 5).toNat
    let m := (1#32 <<< min (b.extractLsb' 8 6).toNat 32 - 1) <<< p
    (d &&& ~~~m) ||| ((a <<< p) &&& m) := by
  simp only [bitInsert, fieldMask_eq, bits_toNat, ← shiftLeft_eq_ofNat]

end Sys2Proof.Machine
end

section
/-!
A register instruction of the machine against the row that the spec gives it (R73, R92, R118): what its bundle computes, and
what a ready bundle is after it.
-/
namespace Sys2Proof.Machine
open Sys2Proof

/-- Operand values as an item reads them (R73): a 32-bit source gives a value below 2^32. -/
def Operands (srcs : List Src) (vs : List DWord) : Prop :=
  List.Forall₂ (fun x v => x.wide = false → v.toNat < 2 ^ 32) srcs vs

theorem Operands.one {x : Src} {vs : List DWord} (h : Operands [x] vs) :
    ∃ a, vs = [a] ∧ (x.wide = false → a.toNat < 2 ^ 32) := by
  obtain ⟨a, l, ha, hl, rfl⟩ := List.forall₂_cons_left_iff.1 h
  obtain rfl := List.forall₂_nil_left_iff.1 hl
  exact ⟨a, rfl, ha⟩
theorem Operands.two {x y : Src} {vs : List DWord} (h : Operands [x, y] vs) : ∃ a b, vs = [a, b] :=
  List.length_eq_two.1 h.length_eq.symm
theorem Operands.three {x y z : Src} {vs : List DWord} (h : Operands [x, y, z] vs) : ∃ a b d, vs = [a, b, d] :=
  List.length_eq_three.1 h.length_eq.symm

theorem toNat_setWidth_lt (w : Word) : (w.setWidth 64).toNat < 2 ^ 32 := by
  rw [BitVec.toNat_setWidth_of_le (by decide)]
  exact w.isLt

/-- A 32-bit source is read zero-extended (R73, R104). -/
theorem srcAt_lt (oneD : Bool) (x : Group) {p : Nat} (ext : Word) {src : Src} (narrow : src.wide = false)
    (lt : p < 2 ^ 32) : (srcAt oneD x p ext src).toNat < 2 ^ 32 := by
  have small (n : Nat) (h : n < 2 ^ 32) : (BitVec.ofNat 64 n).toNat < 2 ^ 32 := by
    rw [BitVec.toNat_ofNat]
    omega
  unfold srcAt
  simp only [narrow, Bool.false_eq_true, if_false]
  split
  case isTrue => exact toNat_setWidth_lt _
  split
  case isTrue =>
    split
    case h_1 => exact toNat_setWidth_lt _
    case h_2 => decide
  split
  case isTrue => exact toNat_setWidth_lt _
  split
  case h_1 | h_2 | h_3 => exact small _ (Nat.mod_lt _ (by decide))
  case h_4 => exact toNat_setWidth_lt _
  case h_5 => exact small p lt
  case h_6 => decide

theorem operands_map (oneD : Bool) (x : Group) {p : Nat} (ext : Word) (srcs : List Src) (lt : p < 2 ^ 32) :
    Operands srcs (srcs.map (srcAt oneD x p ext)) := by
  rw [Operands, List.forall₂_map_right_iff, List.forall₂_same]
  exact fun _ _ narrow => srcAt_lt oneD x ext narrow lt

/-- A register instruction of the machine is the one that a row describes, and its closed forms are exact. -/
structure OpSpec.Meets (o : OpSpec) (r : Row) : Prop where
  y : o.y = r.y
  d : o.d = r.d
  ext : o.ext = r.ext
  wide : o.wide = r.wide
  srcs : o.srcs = r.srcs
  dIn : o.dIn = r.readsD
  cIn : o.cIn = r.cond
  len : o.len = r.len
  fault : o.fault = none
  result : ∀ vs bs, Operands o.sources vs → bs.length = o.cIn.toList.length →
    o.f (vs ++ bs) = (r.value (vs ++ bs), r.flags (vs ++ bs))
  form : o.FormExact

section
variable {o : OpSpec} {r : Row} (m : o.Meets r)
include m

theorem OpSpec.Meets.sources_eq : o.sources = r.sources := by
  rw [OpSpec.sources, Row.sources, m.dIn, m.srcs, m.d]

theorem OpSpec.Meets.uses_eq : o.uses = r.uses := by
  rw [OpSpec.uses, Row.uses, OpSpec.words, m.sources_eq, m.wide, m.srcs, m.d, m.ext]

theorem OpSpec.Meets.uniform {s : State} {w : Where} (uni : r.y = true → r.uniform s w) (y : o.y = true) :
    uniformOp o s w = true := by
  obtain ⟨srcs, cond⟩ := uni (m.y ▸ y)
  simp only [uniformOp, m.sources_eq, m.cIn, m.ext, Bool.and_eq_true, List.all_eq_true]
  refine ⟨srcs, ?_⟩
  cases h : r.cond
  case none => rfl
  case some n => exact cond n h

/-- The operand values of an item are those of the row. -/
theorem OpSpec.Meets.vals_eq (s : State) (gang g p : Nat) :
    o.vals (gangAt s gang).oneD (groupAt s gang g) p = r.operands s gang g p := by
  rw [OpSpec.vals, Row.operands, m.sources_eq, m.cIn, m.ext]
  rfl

/-- An item's result and flags are those of the row. -/
theorem OpSpec.Meets.result_eq (s : State) (gang g : Nat) {p : Nat} (lt : p < 32) :
    o.result s gang g p = (r.value (r.operands s gang g p), r.flags (r.operands s gang g p)) := by
  rw [OpSpec.result, ← m.vals_eq]
  refine m.result _ _ (operands_map _ _ _ _ (lt.trans (by decide))) ?_
  cases o.cIn <;> rfl

end

theorem wrote_congr {s t : State} {w : Where} {d : Field7} {ext : Word} {wide : Bool} {f g : Nat → Nat → DWord}
    (h : Wrote s t w d ext wide f) (e : ∀ m ∈ w.b.members, f m.1 m.2 = g m.1 m.2) : Wrote s t w d ext wide g where
  low hd m hm hr := e m hm ▸ h.low hd m hm hr
  high hd hw m hm hr := e m hm ▸ h.high hd hw m hm hr
  scalar hd x p hm hr least := e (x, p) hm ▸ h.scalar hd x p hm hr least

theorem raised_congr (x : Group) {ps : List Nat} {f g : Nat → Nat} (h : ∀ p ∈ ps, f p = g p) :
    raised x ps f = raised x ps g := by
  unfold raised
  exact List.foldl_ext _ _ _ (fun n p hp => by rw [h p (List.mem_of_mem_filter hp)])

/-- Items that raise nothing raise no flag (R26). -/
theorem raised_zero (x : Group) (ps : List Nat) : raised x ps (fun _ => 0) = 0 :=
  foldl_id _ _ _ (fun _ _ => Nat.or_zero 0)

/-- A register instruction of a ready bundle completes with the results and the flags of its row. -/
theorem OpSpec.Meets.rowResult {o : OpSpec} {r : Row} (m : o.Meets r) {s : State} {w : Where} (issues : Issues s w)
    (ready : Ready s w r.uses) (uni : r.y = true → r.uniform s w) : rowResult r s (runOp o s) w := by
  have run : runOp o s = itemOp o s w := by
    unfold runOp
    simp only [issues.cursor, issues.items]
  have acted := itemOp_acted issues (m.uses_eq ▸ ready) m.fault (m.uniform uni)
  rw [run]
  refine ⟨?wrote, m.len ▸ acted.moved, fun g => ?status⟩
  case wrote =>
    have wrote := acted.wrote m.form issues
    rw [m.d, m.ext, m.wide] at wrote
    exact wrote_congr wrote (fun x hx => congrArg Prod.fst (m.result_eq s w.b.gang x.1 (issues.home x hx)))
  case status =>
    rw [(acted.rest m.form issues g).2.2, raised_congr]
    exact fun p hp => congrArg Prod.snd (m.result_eq s w.b.gang g (issues.home (g, p) (mem_inGroup.1 hp)))

end Sys2Proof.Machine
end

section
/-!
The integer, immediate and 64-bit instructions meet their rows (R95 to R99, R104).
-/
namespace Sys2Proof.Machine
open Sys2Proof

/-- A two-source instruction, whatever its closed form and occupancy. -/
theorem binSpec_meets {o : RegOp} {f g : Word → Word → Word} {occ : Nat} {form : Box → List Form → Option Form}
    (same : ∀ a b, f a b = g a b) (exact : OpSpec.FormExact { binSpec o f with occ, form }) :
    OpSpec.Meets { binSpec o f with occ, form } (rowBin o g) := by
  refine ⟨rfl, rfl, rfl, rfl, rfl, rfl, rfl, rfl, rfl, fun vs bs hvs hbs => ?_, exact⟩
  obtain ⟨a, b, rfl⟩ := hvs.two
  obtain rfl := List.length_eq_zero_iff.1 hbs
  exact congrArg (fun v => (word v, 0)) (same _ _)

/-- A one-source instruction. -/
theorem unSpec_meets {o : UnOp} {f g : Word → Word} {form : Box → List Form → Option Form}
    (same : ∀ a, f a = g a) (exact : OpSpec.FormExact { unSpec o f with form }) :
    OpSpec.Meets { unSpec o f with form } (rowUn o g) := by
  refine ⟨rfl, rfl, rfl, rfl, rfl, rfl, rfl, rfl, rfl, fun vs bs hvs hbs => ?_, exact⟩
  obtain ⟨a, rfl, -⟩ := hvs.one
  obtain rfl := List.length_eq_zero_iff.1 hbs
  exact congrArg (fun v => (word v, 0)) (same _)

/-- An instruction that also reads d. -/
theorem triSpec_meets {o : RegOp} {f g : Word → Word → Word → Word} (same : ∀ a b d, f a b d = g a b d) :
    (triSpec o f).Meets (rowTri o g) := by
  refine ⟨rfl, rfl, rfl, rfl, rfl, rfl, rfl, rfl, rfl, fun vs bs hvs hbs => ?_, formExact_of_none rfl⟩
  obtain ⟨a, b, d, rfl⟩ := hvs.three
  obtain rfl := List.length_eq_zero_iff.1 hbs
  exact congrArg (fun v => (word v, 0)) (same _ _ _)

/-- An immediate instruction (R99). -/
theorem immSpec_meets {o : ImmOp} {f g : Word → Word} {form : Box → List Form → Option Form}
    (same : ∀ a, f a = g a) (exact : OpSpec.FormExact { immSpec o f with form }) :
    OpSpec.Meets { immSpec o f with form } (rowImm o g) := by
  refine ⟨rfl, rfl, rfl, rfl, rfl, rfl, rfl, rfl, rfl, fun vs bs hvs hbs => ?_, exact⟩
  obtain ⟨a, rfl, -⟩ := hvs.one
  obtain rfl := List.length_eq_zero_iff.1 hbs
  exact congrArg (fun v => (word v, 0)) (same _)

/-- A 64-bit sum, its second source of either width (R104). -/
theorem wideSpec_meets {o : RegOp} {b : Src} {f g : DWord → DWord → DWord} (same : ∀ a b, f a b = g a b)
    (exact : OpSpec.FormExact { wideSpec o f with srcs := [{ f := o.a, wide := true }, b] }) :
    OpSpec.Meets { wideSpec o f with srcs := [{ f := o.a, wide := true }, b] } (rowWide o b g) := by
  refine ⟨rfl, rfl, rfl, rfl, rfl, rfl, rfl, rfl, rfl, fun vs bs hvs hbs => ?_, exact⟩
  obtain ⟨a, b, rfl⟩ := hvs.two
  obtain rfl := List.length_eq_zero_iff.1 hbs
  exact congrArg (fun v => (v, 0)) (same _ _)

/-- A legal immediate shift amount (R99). -/
theorem shiftImm_lt {o : ImmOp} (wf : (Instr.shli o).wf = true) : o.imm.toNat < 32 :=
  of_decide_eq_true (Bool.and_eq_true_iff.1 wf).2

/-- `sel` (R97). -/
theorem specSel_meets (o : ModOp) {r : Row} (h : integerRow (.sel o) = some r) : (specSel o).Meets r := by
  obtain rfl := Option.some.inj h
  refine ⟨rfl, rfl, rfl, rfl, rfl, rfl, ?cond, rfl, rfl, fun vs bs hvs hbs => ?_, formExact_of_none rfl⟩
  case cond => rw [specSel, bits_toNat]
  obtain ⟨a, b, rfl⟩ := hvs.two
  obtain ⟨c, rfl⟩ := List.length_eq_one_iff.1 hbs
  simp only [specSel, bit_toNat, List.cons_append, List.nil_append]
  cases o.ext.getLsbD 3 <;> simp

/-- `movi` (R99). -/
theorem specMovi_meets (o : MoviOp) {r : Row} (h : integerRow (.movi o) = some r) : (specMovi o).Meets r := by
  obtain rfl := Option.some.inj h
  exact ⟨rfl, rfl, rfl, rfl, rfl, rfl, rfl, rfl, rfl, fun _ _ _ _ => rfl, formExact_of_none rfl⟩

/-- `cvt64` by its kind (R104, R105). -/
theorem specCvt64_meets (o : RegOp) {r : Row} (h : integerRow (.cvt64 o) = some r) : (specCvt64 o).Meets r := by
  obtain rfl := Option.some.inj h
  refine ⟨rfl, rfl, rfl, rfl, rfl, rfl, rfl, rfl, rfl, fun vs bs hvs hbs => ?_, specCvt64_exact o⟩
  obtain ⟨a, rfl, lt⟩ := hvs.one
  obtain rfl := List.length_eq_zero_iff.1 hbs
  refine Prod.ext ?_ rfl
  simp only [specCvt64, List.append_nil]
  generalize o.b.toNat = kind at lt
  match kind with
  | 0 => exact eq_ofNat_lowWord (lt rfl)
  | 1 => rfl
  | 2 => rfl
  | _ + 3 => exact ofNat_min_eq_word _

/-- The machine performs an instruction as a row describes it. -/
def Performs (i : Instr) (r : Row) : Prop := ∃ o : OpSpec, o.Meets r ∧ ∀ s, exec i s = .next (runOp o s)

/-- Every row of an integer, immediate or 64-bit instruction is performed (R95 to R99, R104). -/
theorem performs_of_integerRow {i : Instr} {r : Row} (h : integerRow i = some r) (wf : i.wf = true) : Performs i r := by
  unfold integerRow at h
  split at h <;> simp only [Option.some.injEq, reduceCtorEq] at h <;> subst h
  -- add, sub, mul, mulhi.i, mulhi.n, mad
  case h_1 o => exact ⟨_, binSpec_meets add_eq_ofInt (specAdd_exact o), fun _ => rfl⟩
  case h_2 o => exact ⟨_, binSpec_meets sub_eq_ofInt (specSub_exact o), fun _ => rfl⟩
  case h_3 o => exact ⟨_, binSpec_meets mul_eq_ofInt (specMul_exact o), fun _ => rfl⟩
  case h_4 => exact ⟨_, binSpec_meets (fun _ _ => highWord_wrap64 _) (formExact_of_none rfl), fun _ => rfl⟩
  case h_5 => exact ⟨_, binSpec_meets (fun _ _ => highWord_ofNat _) (formExact_of_none rfl), fun _ => rfl⟩
  case h_6 => exact ⟨_, triSpec_meets mad_eq_ofInt, fun _ => rfl⟩
  -- min.i, max.i, min.n, max.n
  case h_7 => exact ⟨_, binSpec_meets minI_eq_ofInt (formExact_of_none rfl), fun _ => rfl⟩
  case h_8 => exact ⟨_, binSpec_meets maxI_eq_ofInt (formExact_of_none rfl), fun _ => rfl⟩
  case h_9 => exact ⟨_, binSpec_meets minN_eq_ofNat (formExact_of_none rfl), fun _ => rfl⟩
  case h_10 => exact ⟨_, binSpec_meets maxN_eq_ofNat (formExact_of_none rfl), fun _ => rfl⟩
  -- and, or, xor, andn
  case h_11 | h_12 | h_13 | h_14 => exact ⟨_, binSpec_meets (fun _ _ => rfl) (formExact_of_none rfl), fun _ => rfl⟩
  -- shl, shr, sar, rol
  case h_15 o => exact ⟨_, binSpec_meets (fun _ _ => shiftLeft_eq_ofNat _ _) (specShl_exact o), fun _ => rfl⟩
  case h_16 => exact ⟨_, binSpec_meets (fun _ _ => shiftRight_eq_ofNat _ _) (formExact_of_none rfl), fun _ => rfl⟩
  case h_17 => exact ⟨_, binSpec_meets (fun _ _ => sshiftRight_eq_ofInt _ _) (formExact_of_none rfl), fun _ => rfl⟩
  case h_18 =>
    have amount (b : Word) : b.toNat % 32 < 32 := Nat.mod_lt _ (by decide)
    exact ⟨_, binSpec_meets (fun _ b => rotateLeft_eq_ofNat _ (amount b)) (formExact_of_none rfl), fun _ => rfl⟩
  -- clz, popc, brev
  case h_19 => exact ⟨_, unSpec_meets leadingZeros_eq (formExact_of_none rfl), fun _ => rfl⟩
  case h_20 => exact ⟨_, unSpec_meets popCount_eq (formExact_of_none rfl), fun _ => rfl⟩
  case h_21 => exact ⟨_, unSpec_meets bitReverse_eq (formExact_of_none rfl), fun _ => rfl⟩
  -- bfx, bfi, fsh, sel (R96, R97)
  case h_22 => exact ⟨_, binSpec_meets bitExtract_eq (formExact_of_none rfl), fun _ => rfl⟩
  case h_23 => exact ⟨_, triSpec_meets bitInsert_eq, fun _ => rfl⟩
  case h_24 => exact ⟨_, triSpec_meets (fun _ _ _ => lowWord_pair_shiftRight _ _ _), fun _ => rfl⟩
  case h_25 o => exact ⟨_, specSel_meets o rfl, fun _ => rfl⟩
  -- abs, neg
  case h_26 => exact ⟨_, unSpec_meets abs_eq_ofNat (formExact_of_none rfl), fun _ => rfl⟩
  case h_27 => exact ⟨_, unSpec_meets neg_eq_ofInt (formExact_of_none rfl), fun _ => rfl⟩
  -- div.n, rem.n, div.i, rem.i (R94)
  case h_28 => exact ⟨_, binSpec_meets divUnsigned_eq (formExact_of_none rfl), fun _ => rfl⟩
  case h_29 => exact ⟨_, binSpec_meets remUnsigned_eq (formExact_of_none rfl), fun _ => rfl⟩
  case h_30 => exact ⟨_, binSpec_meets (fun _ _ => rfl) (formExact_of_none rfl), fun _ => rfl⟩
  case h_31 => exact ⟨_, binSpec_meets remSigned_eq (formExact_of_none rfl), fun _ => rfl⟩
  -- mov
  case h_32 o => exact ⟨_, unSpec_meets (fun _ => rfl) (specMov_exact o), fun _ => rfl⟩
  -- addi, andi, ori, xori, shli, shri, sari, movi (R99)
  case h_33 o => exact ⟨_, immSpec_meets (fun _ => add_sx8_eq_ofInt _ _) (specAddi_exact o), fun _ => rfl⟩
  case h_34 => exact ⟨_, immSpec_meets (fun _ => rfl) (formExact_of_none rfl), fun _ => rfl⟩
  case h_35 | h_36 =>
    exact ⟨_, immSpec_meets (fun _ => congrArg _ (zx8_eq_ofNat _)) (formExact_of_none rfl), fun _ => rfl⟩
  case h_37 o =>
    exact ⟨_, immSpec_meets (fun _ => shiftLeft_eq_ofNat _ _) (specShli_exact o (shiftImm_lt wf)), fun _ => rfl⟩
  case h_38 => exact ⟨_, immSpec_meets (fun _ => shiftRight_eq_ofNat _ _) (formExact_of_none rfl), fun _ => rfl⟩
  case h_39 => exact ⟨_, immSpec_meets (fun _ => sshiftRight_eq_ofInt _ _) (formExact_of_none rfl), fun _ => rfl⟩
  case h_40 o => exact ⟨_, specMovi_meets o rfl, fun _ => rfl⟩
  -- add64, sub64, lea, cvt64 (R104, R105)
  case h_41 o => exact ⟨_, wideSpec_meets add_eq_ofInt (specAdd64_exact o), fun _ => rfl⟩
  case h_42 o => exact ⟨_, wideSpec_meets sub_eq_ofInt (specSub64_exact o), fun _ => rfl⟩
  case h_43 o => exact ⟨_, wideSpec_meets add_eq_ofInt (specLea_exact o), fun _ => rfl⟩
  case h_44 o => exact ⟨_, specCvt64_meets o rfl, fun _ => rfl⟩

/-- Integer rows raise no flag (R95). -/
theorem integerRow_flags {i : Instr} {r : Row} (h : integerRow i = some r) : r.flags = fun _ => 0 := by
  unfold integerRow at h
  split at h <;> simp only [Option.some.injEq, reduceCtorEq] at h <;> subst h <;> rfl

/-- Settles O1: the machine performs every row (`performs_of_integerRow`), a ready bundle completes with the row's results
(`OpSpec.Meets.rowResult`), and the row's flags are none. -/
theorem integerResults : Obligations.IntegerResults := by
  unfold Obligations.IntegerResults
  intro i r row wf s w issues ready uni
  obtain ⟨o, meets, runs⟩ := performs_of_integerRow row wf
  have result := meets.rowResult issues ready uni
  have ⟨_, _, status⟩ := result
  refine ⟨_, runs s, result, fun g => ?_⟩
  rw [status g, integerRow_flags row, raised_zero]
  exact BitVec.or_zero

end Sys2Proof.Machine
end

section
/-!
Results of one word each, given to the members of a bundle (R25, R27, R31, R181): what a group holds after them.
-/
namespace Sys2Proof.Machine
open Sys2Proof

/-- A group after an update of a gang's groups one by one. -/
theorem groupAt_foldl_updGroup {γ : Type} (key : γ → Nat) (f : γ → Group → Group) (l : List γ) (s : State) (gang g : Nat)
    (has : ∀ a ∈ l, ((tfind s.gangs gang).bind (fun k => tfind k.groups (key a))).isSome = true) :
    groupAt (l.foldl (fun s a => updGroup s gang (key a) (f a)) s) gang g =
      (l.filter (fun a => key a = g)).foldl (fun x a => f a x) (groupAt s gang g) := by
  induction l generalizing s with
  | nil => rfl
  | cons a r ih =>
    rw [List.foldl_cons, ih _ (fun b hb => by rw [hasGroup_updGroup]; exact has b (List.mem_cons_of_mem _ hb)),
      groupAt_updGroup]
    by_cases e : key a = g
    · simp [e, e ▸ has a List.mem_cons_self]
    · simp [e]

theorem regional_foldl_updGroup {γ : Type} (key : γ → Nat) (f : γ → Group → Group) (l : List γ) (s : State) (gang : Nat) :
    Regional s (l.foldl (fun s a => updGroup s gang (key a) (f a)) s) gang := by
  induction l generalizing s with
  | nil => exact ⟨rfl, fun _ => rfl, fun _ _ => rfl, rfl⟩
  | cons a r ih => exact (regional_updGroup s gang (key a) (f a)).trans (ih _)

/-- A change of a gang's groups that stays within the members of a bundle. -/
theorem confined_of_regional {s t : State} {w : Where} (r : Regional s t w.b.gang)
    (within : ∀ g, Within (inGroup w.b.members g) (groupAt s w.b.gang g) (groupAt t w.b.gang g))
    (idle : ∀ g, g ∉ groupsOf w.b.members → groupAt t w.b.gang g = groupAt s w.b.gang g) : Confined s t w where
  rest := r.rest
  core c := by rw [r.cores]
  lane c l _ := by rw [laneAt, r.cores, laneAt]
  gangs := r.gangs
  gang := r.own
  group g h := idle g (fun hg => (mem_groupsOf.1 hg).elim h)
  fields g := (within g).fields
  items g p h := (within g).items p (fun hp => h (mem_inGroup.1 hp))
  kept m _ := (within m.1).kept m.2

/-- One word given to an item: its register takes it, and its ring (R25, R31). -/
theorem giveWords_one (oneD : Bool) (x : Group) (p : Nat) (d : Field7) (v : Word) : giveWords oneD x p d [v] =
    pushLatch (if isV d then putWords oneD x d.toNat [(p, v)] else x) p (.body v) := rfl

/-- Nothing but v registers with their marks, and latches, differs. -/
def GivesOnly (x y : Group) : Prop :=
  y = { x with v := y.v, items := y.items, badV := y.badV, badL := y.badL, watch := y.watch }

theorem GivesOnly.refl (x : Group) : GivesOnly x x := rfl
theorem GivesOnly.trans {x y z : Group} (a : GivesOnly x y) (b : GivesOnly y z) : GivesOnly x z := by
  unfold GivesOnly at *
  exact b.trans (by rw [a])

theorem givesOnly_breakPair (oneD : Bool) (x : Group) (r : Nat) : GivesOnly x (breakPair oneD x r) := by
  unfold breakPair
  split
  · rfl
  · split <;> rfl
  · rfl

theorem givesOnly_putWords (oneD : Bool) (x : Group) (r : Nat) (ws : List (Nat × Word)) : GivesOnly x (putWords oneD x r ws) :=
  (givesOnly_breakPair oneD x r).trans rfl

theorem givesOnly_pushLatch (x : Group) (p : Nat) (e : LRep) : GivesOnly x (pushLatch x p e) := by
  unfold pushLatch
  split <;> rfl

theorem givesOnly_giveWords (oneD : Bool) (x : Group) (p : Nat) (d : Field7) (v : Word) :
    GivesOnly x (giveWords oneD x p d [v]) := by
  rw [giveWords_one]
  refine GivesOnly.trans ?_ (givesOnly_pushLatch _ _ _)
  split
  · exact givesOnly_putWords _ _ _ _
  · exact .refl x

theorem vAt_giveWords (oneD : Bool) (x : Group) (p : Nat) (d : Field7) (v : Word) (r : Nat) {q : Nat} (lt : q < 32) :
    vAt oneD (giveWords oneD x p d [v]) r q = if isV d = true ∧ r = d.toNat ∧ p = q then v else vAt oneD x r q := by
  rw [giveWords_one, (pushLatch_same _ _ _).vAt]
  by_cases isReg : isV d = true
  · rw [if_pos isReg]
    by_cases e : d.toNat = r
    · subst e
      rw [vAt_putWords _ _ _ _ _ lt]
      simp [lastAt, isReg]
    · rw [vAt_putWords_ne _ _ _ _ e lt, if_neg (fun c => e c.2.1.symm)]
  · rw [if_neg isReg, if_neg (fun c => isReg c.1)]

theorem itemIn_giveWords (oneD : Bool) (x : Group) (p : Nat) (d : Field7) (v : Word) (q : Nat) :
    itemIn (giveWords oneD x p d [v]) q =
      if p = q then (itemIn x q).map (fun t => { t with ring := pushRing t.ring (.body v) }) else itemIn x q := by
  rw [giveWords_one, itemIn_pushLatch]
  have same : itemIn (if isV d = true then putWords oneD x d.toNat [(p, v)] else x) q = itemIn x q := by
    split
    · rw [itemIn, (putWords_same _ _ _ _).items, itemIn]
    · rfl
  rw [same]

theorem badV_giveWords (oneD : Bool) {x : Group} (p : Nat) (d : Field7) (v : Word) (bv : x.badV = []) :
    (giveWords oneD x p d [v]).badV = [] := by
  rw [giveWords_one, (pushLatch_same _ _ _).badV]
  split
  · exact (clean_putWords _ _ _ _).badV bv
  · exact bv

/-- A group after each of some positions has received a word. -/
def givenGroup (oneD : Bool) (d : Field7) (f : Nat → Word) (x : Group) (ps : List Nat) : Group :=
  ps.foldl (fun x p => giveWords oneD x p d [f p]) x

theorem givenGroup_cons (oneD : Bool) (d : Field7) (f : Nat → Word) (x : Group) (p : Nat) (ps : List Nat) :
    givenGroup oneD d f x (p :: ps) = givenGroup oneD d f (giveWords oneD x p d [f p]) ps := rfl

theorem givesOnly_givenGroup (oneD : Bool) (d : Field7) (f : Nat → Word) (x : Group) (ps : List Nat) :
    GivesOnly x (givenGroup oneD d f x ps) := by
  induction ps generalizing x with
  | nil => exact .refl x
  | cons p r ih => exact (givesOnly_giveWords oneD x p d (f p)).trans (ih _)

theorem badV_givenGroup (oneD : Bool) (d : Field7) (f : Nat → Word) {x : Group} (ps : List Nat) (bv : x.badV = []) :
    (givenGroup oneD d f x ps).badV = [] := by
  induction ps generalizing x with
  | nil => exact bv
  | cons p r ih => exact ih (badV_giveWords oneD p d (f p) bv)

/-- The word of every register at every position (R31). -/
theorem vAt_givenGroup (oneD : Bool) (d : Field7) (f : Nat → Word) (x : Group) (ps : List Nat) (r : Nat) {q : Nat}
    (lt : q < 32) : vAt oneD (givenGroup oneD d f x ps) r q =
      if isV d = true ∧ r = d.toNat ∧ q ∈ ps then f q else vAt oneD x r q := by
  induction ps generalizing x with
  | nil => simp [givenGroup]
  | cons p l ih =>
    rw [givenGroup_cons, ih, vAt_giveWords _ _ _ _ _ _ lt]
    by_cases dest : isV d = true ∧ r = d.toNat
    · by_cases e : p = q
      · subst e
        simp [dest.1, dest.2]
      · simp [dest.1, dest.2, e, Ne.symm e]
    · rw [if_neg (fun c => dest ⟨c.1, c.2.1⟩), if_neg (fun c => dest ⟨c.1, c.2.1⟩), if_neg (fun c => dest ⟨c.1, c.2.1⟩)]

/-- Each item that receives a word has it pushed, and every other item stands (R25). -/
theorem itemIn_givenGroup (oneD : Bool) (d : Field7) (f : Nat → Word) (x : Group) {ps : List Nat} (nd : ps.Nodup) (q : Nat) :
    itemIn (givenGroup oneD d f x ps) q =
      if q ∈ ps then (itemIn x q).map (fun t => { t with ring := pushRing t.ring (.body (f q)) }) else itemIn x q := by
  induction ps generalizing x with
  | nil => rfl
  | cons p l ih =>
    obtain ⟨fresh, nd⟩ := List.nodup_cons.1 nd
    rw [givenGroup_cons, ih _ nd, itemIn_giveWords]
    by_cases e : p = q
    · subst e
      simp [fresh]
    · simp [e, Ne.symm e]

theorem within_givenGroup (oneD : Bool) (d : Field7) (f : Nat → Word) {x : Group} {ps qs : List Nat} (sub : ∀ p ∈ ps, p ∈ qs)
    (nd : ps.Nodup) (bv : x.badV = []) : Within qs x (givenGroup oneD d f x ps) := by
  constructor
  case fields =>
    rw [givesOnly_givenGroup oneD d f x ps, badV_givenGroup oneD d f ps bv, ← bv]
  case items =>
    intro q idle
    rw [itemIn_givenGroup _ _ _ _ nd, if_neg (fun c => idle (sub q c))]
  case kept =>
    intro q a ha
    rw [itemIn_givenGroup _ _ _ _ nd, ha]
    split
    · exact ⟨_, rfl, rfl⟩
    · exact ⟨a, rfl, .refl a⟩

/-- An s register after results: it takes the word of its writer, if one acts (R27). -/
def putScalar (ext : Word) (f : Nat → Word) (x : Group) : Option Nat → Group
  | some p => putS x (extS ext) (f p)
  | none => x

/-- A group after its members have received their results: also its s register, from the lowest real item (R27). -/
def resultGroup (oneD : Bool) (d : Field7) (ext : Word) (f : Nat → Word) (x : Group) (ps : List Nat) : Group :=
  if d = 124 then putScalar ext f (givenGroup oneD d f x ps) (sWriter x ps) else givenGroup oneD d f x ps

section
variable (oneD : Bool) (d : Field7) (ext : Word) (f : Nat → Word) (x : Group) (ps : List Nat)

/-- A result group is a given group with, at most, an s register written. -/
theorem resultGroup_shape : resultGroup oneD d ext f x ps = givenGroup oneD d f x ps ∨
    ∃ p, d = 124 ∧ resultGroup oneD d ext f x ps = putS (givenGroup oneD d f x ps) (extS ext) (f p) := by
  unfold resultGroup
  split
  · cases sWriter x ps with
    | some p => exact .inr ⟨p, ‹_›, rfl⟩
    | none => exact .inl rfl
  · exact .inl rfl

theorem vAt_resultGroup (r : Nat) {q : Nat} (lt : q < 32) : vAt oneD (resultGroup oneD d ext f x ps) r q =
    if isV d = true ∧ r = d.toNat ∧ q ∈ ps then f q else vAt oneD x r q := by
  rw [← vAt_givenGroup oneD d f x ps r lt]
  obtain e | ⟨p, -, e⟩ := resultGroup_shape oneD d ext f x ps <;> rw [e]
  rfl

theorem itemIn_resultGroup (nd : ps.Nodup) (q : Nat) : itemIn (resultGroup oneD d ext f x ps) q =
    if q ∈ ps then (itemIn x q).map (fun t => { t with ring := pushRing t.ring (.body (f q)) }) else itemIn x q := by
  rw [← itemIn_givenGroup oneD d f x nd q]
  obtain e | ⟨p, -, e⟩ := resultGroup_shape oneD d ext f x ps <;> rw [e]
  rfl

theorem resultGroup_c : (resultGroup oneD d ext f x ps).c = x.c := by
  have given := congrArg Group.c (givesOnly_givenGroup oneD d f x ps)
  obtain e | ⟨p, -, e⟩ := resultGroup_shape oneD d ext f x ps <;> rw [e] <;> exact given

theorem resultGroup_status : (resultGroup oneD d ext f x ps).status = x.status := by
  have given := congrArg Group.status (givesOnly_givenGroup oneD d f x ps)
  obtain e | ⟨p, -, e⟩ := resultGroup_shape oneD d ext f x ps <;> rw [e] <;> exact given

theorem resultGroup_s_other {n : Nat} (h : d = 124 → n ≠ extS ext) :
    tget (resultGroup oneD d ext f x ps).s n 0 = tget x.s n 0 := by
  have given := congrArg Group.s (givesOnly_givenGroup oneD d f x ps)
  obtain e | ⟨p, hd, e⟩ := resultGroup_shape oneD d ext f x ps <;> rw [e]
  · rw [given]
  · rw [putS, given]
    exact tget_tput_ne _ _ _ (Ne.symm (h hd))

theorem resultGroup_s_written (h : d = 124) {p : Nat} (writer : sWriter x ps = some p) :
    tget (resultGroup oneD d ext f x ps).s (extS ext) 0 = f p := by
  rw [resultGroup, if_pos h, writer, putScalar, putS, tget_tput_same]

theorem within_resultGroup {qs : List Nat} (sub : ∀ p ∈ ps, p ∈ qs) (nd : ps.Nodup) (bv : x.badV = []) (bs : x.badS = []) :
    Within qs x (resultGroup oneD d ext f x ps) := by
  have given := within_givenGroup oneD d f sub nd bv
  obtain e | ⟨p, -, e⟩ := resultGroup_shape oneD d ext f x ps <;> rw [e]
  · exact given
  · exact given.trans (within_putS _ _ _ ((congrArg Group.badS (givesOnly_givenGroup oneD d f x ps)).trans bs))

end

end Sys2Proof.Machine
end

section
/-!
An instruction that gives every member of a bundle one word (R25, R27, R31, R66, R181): what the state is after it.
-/
namespace Sys2Proof.Machine
open Sys2Proof

/-- Members with the word that each of them receives. -/
def oneWord (ms : List (Nat × Nat)) (f : Nat → Nat → Word) : List (Nat × Nat × List Word) :=
  ms.map (fun m => (m.1, m.2, [f m.1 m.2]))

/-- A group after the members of a bundle have received their results. -/
def receivedGroup (d : Field7) (ext : Word) (f : Nat → Nat → Word) (u : State) (w : Where) (g : Nat) : Group :=
  if g ∈ groupsOf w.b.members then
    resultGroup (gangAt u w.b.gang).oneD d ext (f g) (groupAt u w.b.gang g) (inGroup w.b.members g)
  else groupAt u w.b.gang g

theorem filter_groupsOf (ms : List (Nat × Nat)) (g : Nat) :
    (groupsOf ms).filter (fun a => a = g) = if g ∈ groupsOf ms then [g] else [] := by
  have once : (groupsOf ms).Nodup := nodup_nodup _
  rw [List.filter_eq, once.count]
  split <;> rfl

/-- Words given to members reach each group as the words given to its positions. -/
theorem foldl_members_eq (oneD : Bool) (d : Field7) (f : Nat → Nat → Word) (x : Group) (ms : List (Nat × Nat)) (g : Nat) :
    (ms.filter (fun m => m.1 = g)).foldl (fun x m => giveWords oneD x m.2 d [f m.1 m.2]) x =
      givenGroup oneD d (f g) x (inGroup ms g) := by
  rw [givenGroup, inGroup, List.foldl_map]
  refine List.foldl_ext _ _ _ (fun y m hm => ?_)
  rw [of_decide_eq_true (List.mem_filter.1 hm).2]

/-- The writer of an s register is found by the kinds of items alone (R27). -/
theorem sWriter_congr {x y : Group} (h : ∀ p, (itemIn y p).map Item.helper = (itemIn x p).map Item.helper) (ps : List Nat) :
    sWriter y ps = sWriter x ps := by
  have real (p : Nat) : ((itemIn y p).map (fun t => !t.helper)).getD false = ((itemIn x p).map (fun t => !t.helper)).getD false := by
    have k := congrArg (fun o => (o.map (fun b => !b)).getD false) (h p)
    simpa [Function.comp_def] using k
  unfold sWriter
  simp only [real]

theorem helper_givenGroup (oneD : Bool) (d : Field7) (f : Nat → Word) (x : Group) {ps : List Nat} (nd : ps.Nodup) (q : Nat) :
    (itemIn (givenGroup oneD d f x ps) q).map Item.helper = (itemIn x q).map Item.helper := by
  rw [itemIn_givenGroup _ _ _ _ nd]
  split
  · rw [Option.map_map]; rfl
  · rfl

/-- What a group's s register receives (R27). -/
def scalarGroup (ext : Word) (rs : List (Nat × Nat × List Word)) (g : Nat) (x : Group) : Group :=
  match sWriter x ((rs.filter (fun r => r.1 = g)).map (fun r => r.2.1)) with
  | none => x
  | some p => match rs.find? (fun r => r.1 = g && r.2.1 = p) with
    | some (_, _, v :: _) => putS x (extS ext) v
    | _ => x

/-- Every member's v register and ring after results. -/
def deliverEach (s : State) (gang : Nat) (d : Field7) (rs : List (Nat × Nat × List Word)) : State :=
  rs.foldl (fun u r => updGroup u gang r.1 (fun x => giveWords (gangAt s gang).oneD x r.2.1 d r.2.2)) s

theorem deliverWords_eq (s : State) (gang : Nat) (d : Field7) (ext : Word) (rs : List (Nat × Nat × List Word)) :
    deliverWords s gang d ext rs = if d ≠ 124 then deliverEach s gang d rs else
      (nodup (rs.map Prod.fst)).foldl (fun u g => updGroup u gang g (scalarGroup ext rs g)) (deliverEach s gang d rs) := rfl

theorem oneWord_groups (ms : List (Nat × Nat)) (f : Nat → Nat → Word) : nodup ((oneWord ms f).map Prod.fst) = groupsOf ms := by
  rw [oneWord, List.map_map]
  rfl

theorem oneWord_positions (ms : List (Nat × Nat)) (f : Nat → Nat → Word) (g : Nat) :
    ((oneWord ms f).filter (fun r => r.1 = g)).map (fun r => r.2.1) = inGroup ms g := by
  rw [oneWord, List.filter_map, List.map_map]
  rfl

theorem find_oneWord {ms : List (Nat × Nat)} (f : Nat → Nat → Word) {g p : Nat} (h : (g, p) ∈ ms) :
    (oneWord ms f).find? (fun r => r.1 = g && r.2.1 = p) = some (g, p, [f g p]) := by
  have found : ms.find? (fun m => m.1 = g && m.2 = p) = some (g, p) := by
    cases e : ms.find? (fun m => m.1 = g && m.2 = p) with
    | none => exact absurd (List.find?_eq_none.1 e _ h) (by simp)
    | some m =>
      have here := List.find?_some e
      obtain ⟨hg, hp⟩ := Bool.and_eq_true_iff.1 here
      exact congrArg some (Prod.ext (of_decide_eq_true hg) (of_decide_eq_true hp))
  rw [oneWord, List.find?_map]
  exact congrArg (Option.map (fun m : Nat × Nat => (m.1, m.2, [f m.1 m.2]))) found

theorem scalarGroup_oneWord (ext : Word) (f : Nat → Nat → Word) (ms : List (Nat × Nat)) (g : Nat) (x : Group) :
    scalarGroup ext (oneWord ms f) g x = putScalar ext (f g) x (sWriter x (inGroup ms g)) := by
  unfold scalarGroup
  rw [oneWord_positions]
  cases writer : sWriter x (inGroup ms g) with
  | none => rfl
  | some p =>
    simp only [find_oneWord f (mem_inGroup.1 (sWriter_mem writer))]
    rfl

section
variable {s : State} {w : Where} (i : Issues s w)
include i

theorem hasGroup_of_member {m : Nat × Nat} (hm : m ∈ w.b.members) :
    ((tfind s.gangs w.b.gang).bind (fun k => tfind k.groups m.1)).isSome = true :=
  hasGroup_of_itemOf (i.live m hm)

theorem groupAt_deliverEach (d : Field7) (f : Nat → Nat → Word) (g : Nat) :
    groupAt (deliverEach s w.b.gang d (oneWord w.b.members f)) w.b.gang g =
      givenGroup (gangAt s w.b.gang).oneD d (f g) (groupAt s w.b.gang g) (inGroup w.b.members g) := by
  rw [deliverEach, oneWord, List.foldl_map, ← foldl_members_eq]
  exact groupAt_foldl_updGroup Prod.fst (fun m x => giveWords (gangAt s w.b.gang).oneD x m.2 d [f m.1 m.2]) _ s _ g
    (fun m hm => hasGroup_of_member i hm)

/-- Every group after its members have received one word each (R25, R27, R31). -/
theorem groupAt_deliverWords (d : Field7) (ext : Word) (f : Nat → Nat → Word) (g : Nat) :
    groupAt (deliverWords s w.b.gang d ext (oneWord w.b.members f)) w.b.gang g = receivedGroup d ext f s w g := by
  have each := groupAt_deliverEach i d f g
  have idle (h : g ∉ groupsOf w.b.members) : groupAt (deliverEach s w.b.gang d (oneWord w.b.members f)) w.b.gang g =
      groupAt s w.b.gang g := by
    rw [each, inGroup_of_not_mem h]
    rfl
  rw [deliverWords_eq, receivedGroup]
  by_cases scalar : d = 124
  · rw [if_neg (not_not_intro scalar), oneWord_groups, groupAt_foldl_updGroup (fun g => g) (scalarGroup ext _)]
    case has =>
      intro b hb
      obtain ⟨p, hp⟩ := mem_groupsOf.1 hb
      refine hasGroup_of_itemOf (p := p) ?_
      rw [itemOf, groupAt_deliverEach i, itemIn_givenGroup _ _ _ _ (nodup_inGroup i.once b), if_pos (mem_inGroup.2 hp),
        Option.isSome_map]
      exact i.live _ hp
    rw [filter_groupsOf]
    split
    · rw [List.foldl_cons, List.foldl_nil, scalarGroup_oneWord, each,
        sWriter_congr (fun p => helper_givenGroup _ d (f g) _ (nodup_inGroup i.once g) p), resultGroup, if_pos scalar]
    · exact idle ‹_›
  · rw [if_pos scalar]
    split
    · rw [each, resultGroup, if_neg scalar]
    · exact idle ‹_›

end

theorem regional_deliverWords (s : State) (gang : Nat) (d : Field7) (ext : Word) (rs : List (Nat × Nat × List Word)) :
    Regional s (deliverWords s gang d ext rs) gang := by
  have each : Regional s (deliverEach s gang d rs) gang := regional_foldl_updGroup Prod.fst _ rs s gang
  rw [deliverWords_eq]
  split
  · exact each
  · exact each.trans (regional_foldl_updGroup (fun g => g) _ _ _ gang)

/-- Each member has its word pushed, and every other item stands (R25). -/
theorem itemIn_receivedGroup {s : State} {w : Where} (i : Issues s w) (d : Field7) (ext : Word) (f : Nat → Nat → Word) (g q : Nat) :
    itemIn (receivedGroup d ext f s w g) q = if (g, q) ∈ w.b.members
      then (itemIn (groupAt s w.b.gang g) q).map (fun t => { t with ring := pushRing t.ring (.body (f g q)) })
      else itemIn (groupAt s w.b.gang g) q := by
  unfold receivedGroup
  split
  · simp only [itemIn_resultGroup _ _ _ _ _ _ (nodup_inGroup i.once g), mem_inGroup]
  · rw [if_neg (fun h => ‹g ∉ _› (mem_groups h))]

theorem confined_deliverWords {s : State} {w : Where} (i : Issues s w)
    (cleanV : ∀ m ∈ w.b.members, (groupAt s w.b.gang m.1).badV = []) (cleanS : ∀ m ∈ w.b.members, (groupAt s w.b.gang m.1).badS = [])
    (d : Field7) (ext : Word) (f : Nat → Nat → Word) :
    Confined s (deliverWords s w.b.gang d ext (oneWord w.b.members f)) w := by
  refine confined_of_regional (regional_deliverWords _ _ _ _ _) (fun g => ?within) (fun g h => ?idle)
  case within =>
    rw [groupAt_deliverWords i, receivedGroup]
    split
    · obtain ⟨p, hp⟩ := mem_groupsOf.1 ‹_›
      exact within_resultGroup _ _ _ _ _ _ (fun _ h => h) (nodup_inGroup i.once g) (cleanV _ hp) (cleanS _ hp)
    · exact .refl _ _
  case idle => rw [groupAt_deliverWords i, receivedGroup, if_neg h]

/-- The members that act when none of them traps. -/
def everyone (w : Where) : Sifted := { go := w.b.members, traps := [], zero := [] }

/-- The end of an instruction none of whose members traps or waits: results, then the next word (R66, R181). -/
theorem resultsEnd_everyone (s : State) (w : Where) (d : Field7) (ext : Word) (len : Nat) (chained : Bool) (f : Nat → Nat → Word) :
    resultsEnd s w (everyone w) d ext len chained (w.b.members.map (fun m => (m.1, m.2, f m.1 m.2))) [] =
      endMember (advance (deliverWords s w.b.gang d ext (oneWord w.b.members f)) w.b.gang w.b.members len) w w.b.members w.b.members
        { chained } false := by
  have words : (w.b.members.map (fun m => (m.1, m.2, f m.1 m.2))).map (fun (g, p, v) => (g, p, [v])) = oneWord w.b.members f := by
    rw [List.map_map]
    rfl
  have acting : ((w.b.members.map (fun m => (m.1, m.2, f m.1 m.2))).map
      (fun (g, p, v) => (g, p, ({ addr := 0, ws := [v] } : Hit)))).map (fun h => (h.1, h.2.1)) = w.b.members := by
    rw [List.map_map, List.map_map]
    exact List.map_id _
  have stays : w.b.members.filter (fun m => !([] : List (Nat × Nat)).contains m) = w.b.members := by simp
  have here : w.b.members.filter (fun m => !([] : List (Nat × Nat × Nat)).any (fun a => (a.1, a.2.1) = m)) = w.b.members := by simp
  unfold resultsEnd waitEnd memEnd
  simp only [words, stays, here, acting, everyone, List.append_nil, List.foldl_nil]
  exact conclude_go _ w d 1 len { chained } false

/-- What members have received: registers, program counters and rings are those of the words given, and all else stands. -/
structure Received (d : Field7) (ext : Word) (f : Nat → Nat → Word) (len : Nat) (s t : State) (w : Where) : Prop where
  conf : Confined s t w
  regs : ∀ g, SameRegs (receivedGroup d ext f s w g) (groupAt t w.b.gang g)
  moved : MovedOn s t w len
  rings : w.b.pend = 0 → ∀ g p, (itemIn (groupAt t w.b.gang g) p).map Item.ring =
    (itemIn (receivedGroup d ext f s w g) p).map Item.ring

theorem resultsEnd_received {s : State} {w : Where} (i : Issues s w)
    (cleanV : ∀ m ∈ w.b.members, (groupAt s w.b.gang m.1).badV = []) (cleanS : ∀ m ∈ w.b.members, (groupAt s w.b.gang m.1).badS = [])
    (d : Field7) (ext : Word) (len : Nat) (chained : Bool) (f : Nat → Nat → Word) :
    Received d ext f len s
      (resultsEnd s w (everyone w) d ext len chained (w.b.members.map (fun m => (m.1, m.2, f m.1 m.2))) []) w := by
  have conf := confined_deliverWords i cleanV cleanS d ext f
  have group := groupAt_deliverWords i d ext f
  have pcs : Keeps Item.pc s (deliverWords s w.b.gang d ext (oneWord w.b.members f)) := by
    intro a b q
    unfold itemOf
    by_cases own : a = w.b.gang
    · rw [own, group, itemIn_receivedGroup i]
      split
      · rw [Option.map_map]; rfl
      · rfl
    · rw [groupAt, conf.gangs a own, groupAt]
  rw [resultsEnd_everyone]
  generalize deliverWords s w.b.gang d ext (oneWord w.b.members f) = u at conf group pcs
  constructor
  case conf =>
    exact confined_trans conf
      (confined_trans (confined_advance _ w _ len (fun _ h => h)) (confined_endMember _ w _ _ _ _ (fun _ h => h)))
  case regs =>
    intro g
    rw [← group]
    exact ((sameS_advance _ w.b.gang w.b.members len).trans (sameS_endMember _ w _ _ _ _)).regs w.b.gang g
  case moved => exact movedOn_endMember i pcs len _ false
  case rings =>
    intro pend g p
    rw [← group]
    exact ((keeps_advance Item.ring _ _ _ len (fun _ _ => rfl)).trans
      (keeps_endMember Item.ring _ w _ _ _ false (fun _ _ _ _ => rfl) (.inr ⟨rfl, pend⟩))) w.b.gang g p

end Sys2Proof.Machine
end

section
/-!
What stands between the issue of a group instruction and its results (R83, R143, R146, R184), and what the results are then.
-/
namespace Sys2Proof.Machine
open Sys2Proof

/-- The steps before results: registers, program counters and kinds of items stand, and the same bundle issues. -/
structure Staged (s u : State) (w : Where) : Prop where
  apart : Apart s u w
  regs : ∀ a g, SameRegs (groupAt s a g) (groupAt u a g)
  cursor : issuing u = issuing s
  pc : Keeps Item.pc s u
  helper : Keeps Item.helper s u

theorem apart_trans {s t u : State} {w : Where} (a : Apart s t w) (b : Apart t u w) : Apart s u w where
  rest := by
    have ha := a.rest
    have hb := b.rest
    rw [← ha, ← hb]
  gangs g h := (b.gangs g h).trans (a.gangs g h)
  gang := b.gang.trans a.gang
  lane c l h := (b.lane c l h).trans (a.lane c l h)

theorem Regional.apart {s t : State} {w : Where} (r : Regional s t w.b.gang) : Apart s t w :=
  ⟨r.rest, r.gangs, r.own, fun c l _ => by rw [laneAt, r.cores, laneAt]⟩

theorem confined_apart {s t : State} {w : Where} (c : Confined s t w) : Apart s t w := ⟨c.rest, c.gangs, c.gang, c.lane⟩

theorem Regional.issuing_eq {s t : State} {gang : Nat} (r : Regional s t gang) : issuing t = issuing s := by
  have cursor := congrArg State.cursor r.rest
  have lanes (c l : Nat) : laneAt t c l = laneAt s c l := by rw [laneAt, r.cores, laneAt]
  unfold issuing
  simp only [lanes]
  rw [show t.cursor = s.cursor from cursor]

theorem Staged.trans {s t u : State} {w : Where} (a : Staged s t w) (b : Staged t u w) : Staged s u w :=
  ⟨apart_trans a.apart b.apart, fun x g => (a.regs x g).trans (b.regs x g), b.cursor.trans a.cursor, a.pc.trans b.pc,
    a.helper.trans b.helper⟩

theorem regional_updItems (s : State) (gang : Nat) (ms : List (Nat × Nat)) (f : Item → Item) :
    Regional s (updItems s gang ms f) gang := regional_foldl_updGroup Prod.fst _ ms s gang

theorem regional_dropRings (s : State) (gang : Nat) (ms : List (Nat × Nat)) : Regional s (dropRings s gang ms) gang :=
  regional_foldl_updGroup Prod.fst _ ms s gang

theorem staged_dropRings (s : State) (w : Where) (ms : List (Nat × Nat)) : Staged s (dropRings s w.b.gang ms) w :=
  have r := regional_dropRings s w.b.gang ms
  ⟨r.apart, (sameS_dropRings s _ ms).regs, r.issuing_eq, keeps_dropRings _ s _ ms (fun _ => rfl), keeps_dropRings _ s _ ms (fun _ => rfl)⟩

/-- A new wait for some items changes nothing else of them (R183, R184). -/
theorem staged_updWait (s : State) (w : Where) (ms : List (Nat × Nat)) (x : Wait) :
    Staged s (updItems s w.b.gang ms (fun t => { t with wait := x })) w :=
  have r := regional_updItems s w.b.gang ms (fun t => { t with wait := x })
  ⟨r.apart, (sameS_updItems s _ ms _).regs, r.issuing_eq, keeps_updItems _ s _ ms _ (fun _ => rfl), keeps_updItems _ s _ ms _ (fun _ => rfl)⟩

theorem laneAt_setLane_same (s : State) (c l : Nat) (x : Lane) : laneAt (setLane s c l x) c l = x := by
  simp [laneAt, setLane]

/-- The order of the banks in the fast file changes nothing of the bundle that issues (R143). -/
theorem staged_usedBanks {s : State} {w : Where} (cursor : issuing s = some w) (touch : List (Nat × Nat)) :
    Staged s (usedBanks s w touch) w := by
  refine ⟨confined_apart (confined_setLane s w _), fun _ _ => .refl _, ?_, fun _ _ _ => rfl, fun _ _ _ => rfl⟩
  unfold issuing at cursor ⊢
  rw [show (usedBanks s w touch).cursor = s.cursor from rfl]
  split at cursor
  · simp at cursor
  · obtain ⟨b, hb, rfl⟩ := Option.map_eq_some_iff.1 cursor
    simp only [usedBanks, laneAt_setLane_same, useBanks, hb, Option.map_some]

/-- Registers and status words stand where every group keeps them. -/
theorem sameRegisters_of_regs {s u : State} {gang : Nat} (oneD : (gangAt u gang).oneD = (gangAt s gang).oneD)
    (regs : ∀ g, SameRegs (groupAt s gang g) (groupAt u gang g)) : SameRegisters s u gang where
  v g r p _ := by rw [vOf, vOf, oneD, (regs g).vAt]
  c g n p _ := by rw [cOf, cOf, oneD, (regs g).cAt]
  status g := (regs g).status
  scalar g n := by rw [sOf, sOf, (regs g).s]

section
variable {s u : State} {w : Where} (st : Staged s u w)
include st

theorem Staged.issues (i : Issues s w) : Issues u w where
  cursor := st.cursor.trans i.cursor
  items := i.items
  once := i.once
  live m hm := by
    have k := congrArg Option.isSome (st.pc w.b.gang m.1 m.2)
    rw [Option.isSome_map, Option.isSome_map] at k
    exact k.trans (i.live m hm)
  home := i.home

theorem Staged.oneD : (gangAt u w.b.gang).oneD = (gangAt s w.b.gang).oneD := by
  have own := congrArg Gang.oneD st.apart.gang
  exact own

theorem Staged.sameRegisters : SameRegisters s u w.b.gang := sameRegisters_of_regs st.oneD (st.regs _)

theorem Staged.isReal_eq (g p : Nat) : isReal (groupAt u w.b.gang g) p = isReal (groupAt s w.b.gang g) p := by
  have k := congrArg (fun o => (o.map (fun b => !b)).getD false) (st.helper w.b.gang g p)
  simpa [Function.comp_def, itemOf, isReal] using k

theorem Staged.movedOn {t : State} {len : Nat} (i : Issues s w) (m : MovedOn u t w len) : MovedOn s t w len := by
  intro x hx
  obtain ⟨a, ha⟩ := Option.isSome_iff_exists.1 (i.live x hx)
  obtain ⟨b, hb, e⟩ := Option.map_eq_some_iff.1 ((st.pc w.b.gang x.1 x.2).trans (by rw [itemOf, ha]; rfl))
  rw [m x hx, itemAt_of_itemOf hb, e, itemAt_of_itemOf ha]

end

section
variable {d : Field7} {ext : Word} {f : Nat → Nat → Word} {len : Nat} {s t : State} {w : Where} (i : Issues s w)
  (r : Received d ext f len s t w)
include r

theorem Received.vOf_eq (g k : Nat) {p : Nat} (lt : p < 32) : vOf t w.b.gang g k p =
    if isV d = true ∧ k = d.toNat ∧ (g, p) ∈ w.b.members then f g p else vOf s w.b.gang g k p := by
  rw [vOf, confined_oneD r.conf, (r.regs g).vAt, receivedGroup]
  split
  · simp only [vAt_resultGroup _ _ _ _ _ _ _ lt, mem_inGroup, vOf]
  · rw [if_neg (fun h => ‹g ∉ _› (mem_groups h.2.2)), vOf]

theorem Received.cOf_eq (g n p : Nat) : cOf t w.b.gang g n p = cOf s w.b.gang g n p := by
  have same : (groupAt t w.b.gang g).c = (groupAt s w.b.gang g).c := by
    rw [(r.regs g).c, receivedGroup]
    split
    · exact resultGroup_c _ _ _ _ _ _
    · rfl
  simp only [cOf, cAt, same, confined_coord r.conf]

theorem Received.status (g : Nat) : (groupAt t w.b.gang g).status = (groupAt s w.b.gang g).status := by
  rw [(r.regs g).status, receivedGroup]
  split
  · exact resultGroup_status _ _ _ _ _ _
  · rfl

theorem Received.sOf_other (g : Nat) {n : Nat} (h : d = 124 → n ≠ extS ext) : sOf t w.b.gang g n = sOf s w.b.gang g n := by
  rw [sOf, (r.regs g).s, receivedGroup]
  split
  · exact resultGroup_s_other _ _ _ _ _ _ h
  · rfl

theorem Received.sOf_written (h : d = 124) {g p : Nat} (hm : (g, p) ∈ w.b.members)
    (writer : sWriter (groupAt s w.b.gang g) (inGroup w.b.members g) = some p) : sOf t w.b.gang g (extS ext) = f g p := by
  rw [sOf, (r.regs g).s, receivedGroup, if_pos (mem_groups hm)]
  exact resultGroup_s_written _ _ _ _ _ _ h writer

theorem Received.vOf_other (g : Nat) {k p : Nat} (lt : p < 32) (h : isV d = true → k < d.toNat ∨ d.toNat + 1 ≤ k) :
    vOf t w.b.gang g k p = vOf s w.b.gang g k p := by
  rw [r.vOf_eq g k lt, if_neg]
  rintro ⟨reg, e, -⟩
  have := h reg
  omega

include i

theorem Received.wrote : Wrote s t w d ext false (fun g p => word (f g p)) where
  low reg m hm _ := by
    rw [r.vOf_eq m.1 _ (i.home m hm), if_pos ⟨reg, rfl, hm⟩, word, lowWord_setWidth]
  high _ wide := by simp at wide
  scalar hd g p hm real least := by
    rw [r.sOf_written hd hm (sWriter_least (mem_inGroup.2 hm) real (fun q hq => least q (mem_inGroup.1 hq))), word, lowWord_setWidth]

theorem Received.pushed (pend : w.b.pend = 0) : Pushed s t w false (fun g p => word (f g p)) where
  narrow _ m hm _ := by
    obtain ⟨a, ha⟩ := Option.isSome_iff_exists.1 (i.live m hm)
    obtain ⟨b, hb, ring⟩ := Option.map_eq_some_iff.1 ((r.rings pend m.1 m.2).trans (by
      rw [itemIn_receivedGroup i, if_pos hm, ha]; rfl))
    have latch (j : Nat) : latchOf t w.b.gang m.1 m.2 j = (nth (pushRing a.ring (.body (f m.1 m.2))) j none).map
        (fun e => latchAt e (coordOf (gangAt s w.b.gang).oneD (groupAt s w.b.gang m.1) m.2)) := by
      simp only [latchOf, hb, Option.bind_some, ring, confined_coord r.conf]
    refine ⟨?_, fun j hj => ?_⟩
    · rw [latch, nth_pushRing_zero, word, lowWord_setWidth]
      rfl
    · rw [latch, nth_pushRing_succ _ _ hj]
      simp only [latchOf, ha, Option.bind_some]
  pair wide := by simp at wide

end

section
variable {d : Field7} {ext : Word} {f : Nat → Nat → Word} {len : Nat} {s u t : State} {w : Where} (st : Staged s u w)
  (r : Received d ext f len u t w)
include st r

/-- The registers that results leave alone, from the issue on (R31). -/
theorem Received.keptRegs_staged : KeptRegs s t w d ext 1 where
  v g k p lt h := (r.vOf_other g lt h).trans (st.sameRegisters.v g k p lt)
  idle g k p lt _ idle := by rw [r.vOf_eq g k lt, if_neg (fun c => idle c.2.2), st.sameRegisters.v g k p lt]
  c g n p := (r.cOf_eq g n p).trans (by rw [cOf, cOf, st.oneD, (st.regs _ g).cAt])
  s g n h := (r.sOf_other g h).trans (st.sameRegisters.scalar g n)

/-- Results in their destinations, from the issue on (R22, R27). -/
theorem Received.wrote_staged (i : Issues s w) : Wrote s t w d ext false (fun g p => word (f g p)) :=
  have wrote := r.wrote (st.issues i)
  { low := fun reg m hm real => wrote.low reg m hm ((st.isReal_eq _ _).trans real)
    high := fun _ wide => by simp at wide
    scalar := fun hd g p hm real least => wrote.scalar hd g p hm ((st.isReal_eq _ _).trans real)
      (fun q hq real => least q hq ((st.isReal_eq _ _).symm.trans real)) }

end

end Sys2Proof.Machine
end

section
/-!
The checks of a group instruction whose members are ready, and the participants of `vote` (R83, R143, R192, R193).
-/
namespace Sys2Proof.Machine
open Sys2Proof

/-- A bundle whose members are ready passes the checks, and all its members act (R83, R143, R210). -/
theorem memSift_ready {s : State} {w : Where} {u : Uses} {d : Field7} (r : Ready s w u) (named : (d, 1) ∈ u.named) :
    ∃ touch, memSift s w u (dstRegs d) = (usedBanks s w touch, some (everyone w)) := by
  have go := sift_none (s := s) (gang := w.b.gang) (ms := w.b.members) (check := fun g p =>
      Option.or none ((earlyTrap (groupAt s w.b.gang g) p u).or ((pastTrap w).or (useTrap (groupAt s w.b.gang g) p u)))) (fun m hm => by
    have held := r.held m hm
    rw [earlyTrap_none held, held, pastTrap, r.past]
    rfl)
  unfold memSift siftFor
  simp only [r.loads, meetErrors_clean r.cleanV r.cleanS, Bool.false_eq_true, if_false]
  rw [go]
  simp only [r.past, Option.isSome_none, Bool.false_eq_true, if_false]
  refine ⟨_, (if_pos (List.isEmpty_iff.2 (missingBanks_nil (fun t ht => ?present)))).trans rfl⟩
  case present =>
    obtain ⟨g, hg, ht⟩ := List.mem_flatMap.1 ht
    obtain ⟨k, hk, rfl⟩ := List.mem_map.1 ht
    obtain ⟨p, hp⟩ := mem_groupsOf.1 hg
    rw [List.append_assoc] at hk
    obtain hk | hk := List.mem_append.1 hk
    · obtain ⟨f, hf, reg, hr⟩ := mem_bodyRegs hk
      exact r.banks _ hp f (List.mem_append_right _ hf) reg k (List.mem_append_left _ hr)
    · by_cases reg : isV d = true
      · rw [dstRegs, if_pos reg] at hk
        exact r.banks _ hp (d, 1) (List.mem_append_left _ named) reg k hk
      · simp [dstRegs, reg] at hk

theorem sortBy_put_perm {α : Type} (key : α → Nat) (x : α) (l : List α) : (sortBy.put key x l).Perm (x :: l) := by
  induction l with
  | nil => exact .refl _
  | cons y r ih =>
    unfold sortBy.put
    split
    · exact (ih.cons y).trans (.swap _ _ _)
    · exact .refl _

theorem sortBy_perm {α : Type} (key : α → Nat) (l : List α) : (sortBy key l).Perm l := by
  induction l with
  | nil => exact .refl _
  | cons x r ih => exact (sortBy_put_perm key x _).trans (ih.cons x)

theorem sortBy_put_rises {α : Type} (key : α → Nat) (x : α) {l : List α} (h : l.Pairwise (fun a b => key a ≤ key b)) :
    (sortBy.put key x l).Pairwise (fun a b => key a ≤ key b) := by
  induction l with
  | nil => simp [sortBy.put]
  | cons y r ih =>
    obtain ⟨least, rest⟩ := List.pairwise_cons.1 h
    unfold sortBy.put
    split
    · refine List.pairwise_cons.2 ⟨fun a ha => ?_, ih rest⟩
      obtain rfl | ha := List.mem_cons.1 ((sortBy_put_perm key x r).mem_iff.1 ha)
      · omega
      · exact least a ha
    · refine List.pairwise_cons.2 ⟨fun a ha => ?_, h⟩
      obtain rfl | ha := List.mem_cons.1 ha
      · omega
      · have := least a ha
        omega

theorem sortBy_rises {α : Type} (key : α → Nat) (l : List α) : (sortBy key l).Pairwise (fun a b => key a ≤ key b) := by
  induction l with
  | nil => exact .nil
  | cons x r ih => exact sortBy_put_rises key x ih

/-- Positions below 32 in rising order are those that a filter of them leaves. -/
theorem sortBy_eq_filter {l : List Nat} (nd : l.Nodup) (lt : ∀ q ∈ l, q < 32) {b : Nat → Bool}
    (h : ∀ q < 32, q ∈ l ↔ b q = true) : sortBy id l = (List.range 32).filter b := by
  have perm : (sortBy id l).Perm ((List.range 32).filter b) := by
    refine (sortBy_perm id l).trans ((List.perm_ext_iff_of_nodup nd (List.nodup_range.filter _)).2 (fun q => ?_))
    rw [List.mem_filter, List.mem_range]
    exact ⟨fun hq => ⟨lt q hq, (h q (lt q hq)).1 hq⟩, fun hq => (h q hq.1).2 hq.2⟩
  exact perm.eq_of_pairwise (fun _ _ _ _ => Nat.le_antisymm) (sortBy_rises id l)
    ((List.pairwise_lt_range.imp Nat.le_of_lt).filter _)

/-- The items that a group instruction counts are the participants of its group (R192). -/
theorem sorted_eq_participants {s : State} {w : Where} (i : Issues s w) (g : Nat) :
    sortBy id ((inGroup w.b.members g).filter (fun q => !(itemAt s w.b.gang g q).helper)) = participants s w g := by
  refine sortBy_eq_filter ((nodup_inGroup i.once g).filter _) (fun q hq => i.home (g, q) (mem_inGroup.1 (List.mem_of_mem_filter hq)))
    (fun q _ => ?_)
  rw [List.mem_filter, mem_inGroup, Bool.and_eq_true, List.contains_iff_mem]
  refine and_congr_right (fun hm => ?_)
  obtain ⟨a, ha⟩ := Option.isSome_iff_exists.1 (i.live _ hm)
  rw [itemAt_of_itemOf ha, isReal, ha]
  rfl

/-- The value of `vote` in a mode, from those of the participants whose condition holds (R193). -/
def voteOf (mode : Nat) (yes ps : List Nat) : Nat :=
  match mode with
  | 0 => yes.foldl (fun n q => n + 2 ^ q) 0
  | 1 => ofBool (!yes.isEmpty)
  | 2 => ofBool (yes.length = ps.length)
  | 3 => yes.length
  | _ => ofBool (yes.isEmpty || yes.length = ps.length)

theorem length_filter_eq_length_iff (b : Nat → Bool) (ps : List Nat) : (ps.filter b).length = ps.length ↔ ps.filter b = ps :=
  List.filter_sublist.length_eq

theorem foldl_mask (l : List Nat) : l.foldl (fun n q => n + 2 ^ q) 0 = (l.map (fun q => 2 ^ q)).sum := by
  rw [List.sum_eq_foldl, List.foldl_map]

theorem voteOf_participants (o : VoteOp) (s : State) (w : Where) (g : Nat) :
    voteOf o.mode.toNat ((participants s w g).filter (fun q => cOf s w.b.gang g o.cn.toNat q != o.na)) (participants s w g) =
      voteValue o s w g := by
  unfold voteValue
  dsimp only
  generalize o.mode.toNat = mode
  have all := length_filter_eq_length_iff (fun q => cOf s w.b.gang g o.cn.toNat q != o.na) (participants s w g)
  match mode with
  | 0 => exact foldl_mask _
  | 1 =>
    by_cases none : (participants s w g).filter (fun q => cOf s w.b.gang g o.cn.toNat q != o.na) = []
    · simp only [voteOf, none]; rfl
    · simp only [voteOf, none, List.isEmpty_eq_false_iff.2 none]; rfl
  | 2 => simp only [voteOf, ofBool, decide_eq_true_eq, all]
  | 3 => rfl
  | _ + 4 => simp only [voteOf, ofBool, Bool.or_eq_true, List.isEmpty_iff, decide_eq_true_eq, all]

/-- `vote` in items: the checks, then its group's value for each member (R181, R192, R193). -/
theorem voteStep_eq (o : VoteOp) (s : State) : voteStep o s =
    groupStep { named := [(o.d, 1)], read := [], ext := 0 } (dstRegs o.d) false (fun s w k =>
      resultsEnd s w k o.d 0 1 o.c (perGroup s w.b.gang k.go (fun g ps _ => BitVec.ofNat 32
        (voteOf o.mode.toNat (ps.filter (fun q => cOf s w.b.gang g o.cn.toNat q != o.na)) ps))) []) s := rfl

theorem perGroup_eq (s : State) (gang : Nat) (go : List (Nat × Nat)) (f : Nat → List Nat → Nat → Word) :
    perGroup s gang go f = go.map (fun m => (m.1, m.2,
      f m.1 (sortBy id ((inGroup go m.1).filter (fun q => !(itemAt s gang m.1 q).helper))) m.2)) := rfl

/-- A group instruction whose members are ready has its effect, with every member acting (R81, R83, R181). -/
theorem groupStep_ready {s : State} {w : Where} {u : Uses} {d : Field7} (i : Issues s w) (done : w.b.prog.done = false)
    (r : Ready s w u) (named : (d, 1) ∈ u.named) (body : State → Where → Sifted → State) :
    ∃ touch, groupStep u (dstRegs d) false body s = body (usedBanks s w touch) w (everyone w) := by
  obtain ⟨touch, sifted⟩ := memSift_ready r named
  refine ⟨touch, ?_⟩
  unfold groupStep
  simp only [i.cursor, i.items, done, Bool.false_eq_true, if_false, sifted]

/-- `vote` of a ready bundle gives each member its group's value (R193). -/
theorem voteStep_ready {o : VoteOp} {s : State} {w : Where} (i : Issues s w) (done : w.b.prog.done = false)
    (r : Ready s w { named := [(o.d, 1)], read := [], ext := 0 }) : ∃ touch,
    voteStep o s = resultsEnd (usedBanks s w touch) w (everyone w) o.d 0 1 o.c
      (w.b.members.map (fun m => (m.1, m.2, BitVec.ofNat 32 (voteValue o s w m.1)))) [] := by
  obtain ⟨touch, acts⟩ := groupStep_ready (d := o.d) i done r List.mem_cons_self (fun s w k =>
      resultsEnd s w k o.d 0 1 o.c (perGroup s w.b.gang k.go (fun g ps _ => BitVec.ofNat 32
        (voteOf o.mode.toNat (ps.filter (fun q => cOf s w.b.gang g o.cn.toNat q != o.na)) ps))) [])
  refine ⟨touch, ?_⟩
  have count (g : Nat) : sortBy id ((inGroup (everyone w).go g).filter (fun q =>
      !(itemAt (usedBanks s w touch) w.b.gang g q).helper)) = participants s w g := sorted_eq_participants i g
  have conds (g q : Nat) : cOf (usedBanks s w touch) w.b.gang g o.cn.toNat q = cOf s w.b.gang g o.cn.toNat q := rfl
  rw [voteStep_eq, acts]
  simp only [perGroup_eq, count, conds, voteOf_participants]
  rfl

/-- Settles O29: a ready `vote` gives every member its group's value (`voteStep_ready`), and results reach registers and rings
and nothing else (`resultsEnd_received`). -/
theorem votes : Obligations.Votes := by
  unfold Obligations.Votes
  refine ⟨fun o mode => ?_, fun o _ s w issues done ready => ?_⟩
  · have illegal : decide (o.mode.toNat ≤ 4) = false := decide_eq_false (by omega)
    rw [show (Instr.vote o).wf = legalVote o from rfl, legalVote, illegal, Bool.and_false]
  · obtain ⟨touch, run⟩ := voteStep_ready issues done ready
    have staged := staged_usedBanks issues.cursor touch
    have here := staged.issues issues
    have received := resultsEnd_received here ready.cleanV ready.cleanS o.d 0 1 o.c (fun g _ => BitVec.ofNat 32 (voteValue o s w g))
    rw [← run] at received
    refine ⟨voteStep o s, rfl, received.status, confined_trans (confined_setLane s w _) received.conf,
      received.keptRegs_staged staged, staged.movedOn issues received.moved, received.wrote_staged staged issues, fun pend => ?_⟩
    exact ⟨(received.pushed here pend).narrow, fun wide => by simp at wide⟩

end Sys2Proof.Machine
end

section
/-!
Exchanges of items that are released together (R83, R146, R183 to R187).
-/
namespace Sys2Proof.Machine
open Sys2Proof

/-- A 32-bit source that names no latch reads the registers of its group alone (R73). -/
theorem srcAt_congr {x y : Group} (same : SameRegs x y) (oneD : Bool) (p : Nat) (ext : Word) {src : Src}
    (plain : isLatch src.f = false) : srcAt oneD y p ext src = srcAt oneD x p ext src := by
  have coord := coordOf_congr oneD x y p same.ox same.oy same.oz
  have notLatch : ¬(112 ≤ src.f.toNat ∧ src.f.toNat < 120) := by simpa [isLatch] using plain
  unfold srcAt
  simp only [same.vAt, same.s, coord]
  by_cases v : src.f.toNat < 112
  · rw [if_pos v, if_pos v]
  · have scalar : ¬src.f.toNat < 120 := fun h => notLatch ⟨by omega, h⟩
    rw [if_neg v, if_neg v, if_neg scalar, if_neg scalar]

/-- The word that an item supplies (R184). -/
theorem operand_eq {s u : State} {w : Where} (st : Staged s u w) (g p : Nat) (ext : Word) {f : Field7} (plain : isLatch f = false) :
    operand u w.b.gang g p ext f = (operandOf s w.b.gang g p ext { f }).setWidth 32 := by
  rw [operand, st.oneD, srcAt_congr (st.regs _ g) _ _ _ plain]
  rfl

theorem firstOf_congr {α β : Type} {f h : α → Option β} {l : List α} (e : ∀ a ∈ l, f a = h a) : firstOf f l = firstOf h l := by
  induction l with
  | nil => rfl
  | cons a r ih => rw [firstOf, firstOf, e a List.mem_cons_self, ih (fun b hb => e b (List.mem_cons_of_mem _ hb))]

/-- What an instruction that reads no latch meets does not depend on the rings (R83, R272). -/
theorem useTrap_congr {x y : Group} (same : SameRegs x y) {p : Nat}
    (ext : (itemIn y p).map Item.ext = (itemIn x p).map Item.ext) {u : Uses} (plain : ∀ f ∈ u.read, isLatch f.1 = false) :
    useTrap y p u = useTrap x p u := by
  have poison : ∀ f ∈ u.read, poisonTrap y p u.ext f = poisonTrap x p u.ext f := fun f hf => by
    have notLatch : ¬(112 ≤ f.1.toNat ∧ f.1.toNat < 120) := by simpa [isLatch] using plain f hf
    unfold poisonTrap
    simp only [same.badV, same.badS]
    by_cases v : f.1.toNat < 112
    · rw [if_pos v, if_pos v]
    · have scalar : ¬f.1.toNat < 120 := fun h => notLatch ⟨by omega, h⟩
      rw [if_neg v, if_neg v, if_neg scalar, if_neg scalar]
  unfold useTrap
  cases hx : itemIn x p with
  | none =>
    rw [hx, Option.map_none, Option.map_eq_none_iff] at ext
    rw [ext]
  | some a =>
    rw [hx] at ext
    obtain ⟨b, hb, e⟩ := Option.map_eq_some_iff.1 ext
    have block : blockTrap y b u.ext = blockTrap x a u.ext := by
      funext f
      simp only [blockTrap, same.blocks, e]
    have latch : ∀ f ∈ u.read, latchTrap b f = latchTrap a f := fun f hf => by simp [latchTrap, plain f hf]
    simp only [hb, block, firstOf_congr latch, firstOf_congr poison]

/-- Members that read no latch are as ready once their rings are invalid (R83, R146). -/
theorem ready_dropRings {s : State} {w : Where} {u : Uses} (r : Ready s w u) (plain : ∀ f ∈ u.read, isLatch f.1 = false) :
    Ready (dropRings s w.b.gang w.b.members) w u := by
  have regs := (sameS_dropRings s w.b.gang w.b.members).regs w.b.gang
  have conf := confined_dropRings s w w.b.members (fun _ h => h)
  have lanes (l : Nat) : laneAt (dropRings s w.b.gang w.b.members) w.core l = laneAt s w.core l := by
    rw [laneAt, (regional_dropRings s _ _).cores, laneAt]
  constructor
  case loads =>
    have board (g : Nat) : (groupAt (dropRings s w.b.gang w.b.members) w.b.gang g).board = (groupAt s w.b.gang g).board := by
      have fields := congrArg Group.board (conf.fields g)
      exact fields
    have loads := r.loads
    unfold awaitsLoad at loads ⊢
    simp only [board]
    exact loads
  case past => exact r.past
  case held =>
    intro m hm
    have ext := keeps_dropRings Item.ext s w.b.gang w.b.members (fun _ => rfl) w.b.gang m.1 m.2
    rw [useTrap_congr (regs m.1) ext plain]
    exact r.held m hm
  case cleanV => exact fun m hm => (regs m.1).badV.trans (r.cleanV m hm)
  case cleanS => exact fun m hm => (regs m.1).badS.trans (r.cleanS m hm)
  case banks =>
    intro m hm f hf reg k hk
    have high : brokenHigh (groupAt (dropRings s w.b.gang w.b.members) w.b.gang m.1) = brokenHigh (groupAt s w.b.gang m.1) := by
      funext r n
      simp only [brokenHigh, vRep, (regs m.1).v]
    rw [high] at hk
    unfold bankPresent
    rw [lanes]
    exact r.banks m hm f hf reg k hk

/-- The position that an item of `xq` reads in the machine (R186). -/
def xqFrom (o : XqOp) : State → Nat → Nat → Nat → Option Nat := fun _ _ _ p =>
  if o.bc then some (4 * (p / 4) + o.m.toNat) else some (p ^^^ o.m.toNat)

/-- The position that a mode of `xg` reads from another one (R187). -/
def xgPlace (mode p k : Nat) : Option Nat :=
  match mode with
  | 0 => some k
  | 1 => some (p ^^^ k)
  | 2 => if k ≤ p then some (p - k) else none
  | 3 => if p + k < 32 then some (p + k) else none
  | _ => some ((p + k) % 32)

/-- The position that an item of `xg` reads in the machine (R187). -/
def xgFrom (o : XgOp) : State → Nat → Nat → Nat → Option Nat := fun s gang g p =>
  let m := modOf (some o.d) [o.a, o.b] o.x o.ext
  xgPlace (m % 8) p (((operand s gang g p o.ext o.b).toNat + bits m 7 3) % 32)

theorem exec_xq (o : XqOp) (s : State) : exec (.xq o) s = .next (exchangeStep false
    { named := [(o.d, 1), (o.a, 1)], read := [(o.a, 1)], ext := o.ext } o.d o.a o.ext (if o.x then 2 else 1) o.c (xqFrom o) s) := rfl

theorem exec_xg (o : XgOp) (s : State) : exec (.xg o) s = .next (exchangeStep true
    { named := [(o.d, 1), (o.a, 1), (o.b, 1)], read := [(o.a, 1), (o.b, 1)], ext := o.ext } o.d o.a o.ext (if o.x then 2 else 1) o.c
    (xgFrom o) s) := rfl

/-- The exchanges of the machine, each with the position that an item reads (R186, R187). -/
theorem exec_of_exchangeOf {i : Instr} {e : Exchange} (h : exchangeOf i = some e) : ∃ chained pos,
    (∀ s, exec i s = .next (exchangeStep e.xg e.uses e.d e.a e.ext e.len chained pos s)) ∧
    ∀ s u w, Staged s u w → (∀ f ∈ e.uses.read, isLatch f.1 = false) → ∀ g p, pos u w.b.gang g p = e.from' s w.b.gang g p := by
  unfold exchangeOf at h
  split at h
  case h_1 o =>
    obtain rfl := Option.some.inj h
    refine ⟨o.c, xqFrom o, exec_xq o, fun s u w _ _ g p => ?_⟩
    exact (apply_ite some _ _ _).symm
  case h_2 o =>
    obtain rfl := Option.some.inj h
    refine ⟨o.c, xgFrom o, exec_xg o, fun s u w st plain g p => ?_⟩
    have turn : ((operand u w.b.gang g p o.ext o.b).toNat + bits (modOf (some o.d) [o.a, o.b] o.x o.ext) 7 3) % 32 =
        ((operandOf s w.b.gang g p o.ext { f := o.b }).toNat + modOf (some o.d) [o.a, o.b] o.x o.ext / 8 % 32) % 32 := by
      have plainB : isLatch o.b = false := plain (o.b, 1) (by simp [Exchange.uses])
      rw [operand_eq st g p o.ext plainB, BitVec.toNat_setWidth, bits, Nat.shiftRight_eq_div_pow]
      omega
    unfold xgFrom
    dsimp only
    rw [turn]
    rfl
  case h_3 => simp at h

/-- The release set that an item waits in, if one covers it (R184). -/
def coverOf (s : State) (gang : Nat) (m : Nat × Nat) : Option Nat :=
  match (itemAt s gang m.1 m.2).wait with
  | .released n => some n
  | _ => none

/-- Members that no release covers: they arrive (R183). -/
def comers (s : State) (w : Where) : List (Nat × Nat) := w.b.members.filter (fun m => (coverOf s w.b.gang m).isNone)
/-- Members that a release covers: they exchange (R184). -/
def goers (s : State) (w : Where) : List (Nat × Nat) := w.b.members.filter (fun m => (coverOf s w.b.gang m).isSome)

/-- What an item of a release set receives in `u`, the sets being those of `s` (R184 to R187). -/
def exchangeWord (pos : State → Nat → Nat → Nat → Option Nat) (a : Field7) (ext : Word) (s u : State) (w : Where) (g p : Nat) : Word :=
  match pos u w.b.gang g p with
  | some q =>
    if (goers s w).any (fun m => m = (g, q) && coverOf s w.b.gang m = coverOf s w.b.gang (g, p)) then operand u w.b.gang g q ext a
    else operand u w.b.gang g p ext a
  | none => operand u w.b.gang g p ext a

/-- The bundle after its release sets have exchanged, from the outcome of the checks (R184). -/
def exchanged (xg : Bool) (d a : Field7) (ext : Word) (len : Nat) (chained : Bool) (pos : State → Nat → Nat → Nat → Option Nat)
    (s : State) (w : Where) (r : State × Option Sifted) : State :=
  match r with
  | (u, none) => u
  | (u, some k) =>
    let v := updItems u w.b.gang (comers s w) (fun t => { t with wait := .exchange xg })
    resultsEnd (updItems v w.b.gang (goers s w) (fun t => { t with wait := .ready })) w k d ext len chained
      (k.go.map (fun m => (m.1, m.2, exchangeWord pos a ext s v w m.1 m.2))) (comers s w)

section
variable {xg chained : Bool} {u : Uses} {d a : Field7} {ext : Word} {len : Nat} {pos : State → Nat → Nat → Nat → Option Nat}
  {s : State} {w : Where} (i : Issues s w)
include i

theorem exchangeStep_eq : exchangeStep xg u d a ext len chained pos s =
    if (goers s w).isEmpty then
      waitEnd (updItems (dropRings s w.b.gang w.b.members) w.b.gang (comers s w) (fun t => { t with wait := .exchange xg })) w
        { go := [], traps := [], zero := [] } { left := comers s w } d 0 len chained none
    else exchanged xg d a ext len chained pos s w
      (memSift (dropRings s w.b.gang w.b.members) { w with b := { w.b with members := goers s w } } u (dstRegs d)) := by
  unfold exchangeStep
  simp only [i.cursor, i.items]
  rfl

/-- Members that no release covers wait at the exchange (R183). -/
theorem exchangeStep_waits (waits : ∀ m ∈ w.b.members, coverOf s w.b.gang m = none) :
    exchangeStep xg u d a ext len chained pos s =
      waitEnd (updItems (dropRings s w.b.gang w.b.members) w.b.gang w.b.members (fun t => { t with wait := .exchange xg })) w
        { go := [], traps := [], zero := [] } { left := w.b.members } d 0 len chained none := by
  have nobody : goers s w = [] := List.filter_eq_nil_iff.2 (fun m hm => by simp [waits m hm])
  have all : comers s w = w.b.members := List.filter_eq_self.2 (fun m hm => by simp [waits m hm])
  rw [exchangeStep_eq i, nobody, all]
  rfl

/-- Ready members of one release set exchange, none of them trapping (R184, R185). -/
theorem exchangeStep_ready {n : Nat} (some' : w.b.members ≠ []) (covered : ∀ m ∈ w.b.members, coverOf s w.b.gang m = some n)
    (ready : Ready s w u) (named : (d, 1) ∈ u.named) (plain : ∀ f ∈ u.read, isLatch f.1 = false) : ∃ touch,
    let v := usedBanks (dropRings s w.b.gang w.b.members) w touch
    exchangeStep xg u d a ext len chained pos s =
      resultsEnd (updItems v w.b.gang w.b.members (fun t => { t with wait := .ready })) w (everyone w) d ext len chained
        (w.b.members.map (fun m => (m.1, m.2, exchangeWord pos a ext s v w m.1 m.2))) [] := by
  have all : goers s w = w.b.members := List.filter_eq_self.2 (fun m hm => by simp [covered m hm])
  have nobody : comers s w = [] := List.filter_eq_nil_iff.2 (fun m hm => by simp [covered m hm])
  obtain ⟨touch, sifted⟩ := memSift_ready (ready_dropRings ready plain) named
  refine ⟨touch, ?_⟩
  rw [exchangeStep_eq i, all, if_neg (by simpa using some'), sifted, exchanged, all, nobody]
  rfl

end

/-- What a member of a release set receives (R184, R186, R187). -/
theorem exchangeWord_covered (pos : State → Nat → Nat → Nat → Option Nat) (a : Field7) (ext : Word) {s : State} {w : Where} {n : Nat}
    (covered : ∀ m ∈ w.b.members, coverOf s w.b.gang m = some n) (v : State) {g p : Nat}
    (hm : (g, p) ∈ w.b.members) : exchangeWord pos a ext s v w g p =
      operand v w.b.gang g (if (g, (pos v w.b.gang g p).getD p) ∈ w.b.members then (pos v w.b.gang g p).getD p else p) ext a := by
  have all : goers s w = w.b.members := List.filter_eq_self.2 (fun m hm => by simp [covered m hm])
  unfold exchangeWord
  rw [all]
  cases pos v w.b.gang g p with
  | none => simp
  | some q =>
    have together : w.b.members.any (fun m => m = (g, q) && coverOf s w.b.gang m = coverOf s w.b.gang (g, p)) = true ↔
        (g, q) ∈ w.b.members := by
      rw [List.any_eq_true]
      constructor
      · rintro ⟨m, mem, same⟩
        rwa [← of_decide_eq_true (Bool.and_eq_true_iff.1 same).1]
      · exact fun mem => ⟨_, mem, by simp [covered _ mem, covered _ hm]⟩
    simp only [together, Option.getD_some]
    split <;> rfl

/-- When every member waits, the lane gives the bundle up (R146, R183). -/
theorem waitEnd_left (s : State) (w : Where) (d : Field7) (len : Nat) (chained : Bool) :
    waitEnd s w { go := [], traps := [], zero := [] } { left := w.b.members } d 0 len chained none =
      endMember s { w with b := { w.b with members := [] } } [] [] { chained } false := by
  have left : w.b.members.filter (fun m => !w.b.members.contains m) = [] :=
    List.filter_eq_nil_iff.2 (fun m hm => by simp [hm])
  unfold waitEnd memEnd
  simp only [left]
  exact conclude_go _ { w with b := { w.b with members := [] } } d 0 len { chained } false

theorem coverOf_eq_none {s : State} {gang : Nat} {m : Nat × Nat} (h : ∀ n, (itemAt s gang m.1 m.2).wait ≠ .released n) :
    coverOf s gang m = none := by
  unfold coverOf
  split
  · exact absurd ‹_› (h _)
  · rfl

theorem coverOf_eq_some {s : State} {gang : Nat} {m : Nat × Nat} {n : Nat} (h : (itemAt s gang m.1 m.2).wait = .released n) :
    coverOf s gang m = some n := by
  unfold coverOf
  rw [h]

/-- The waits of items after they have been set. -/
theorem wait_updWait {s u : State} {w : Where} (i : Issues s w) (k : Keeps Item.pc s u) (x : Wait) {m : Nat × Nat}
    (hm : m ∈ w.b.members) : ∃ y, itemOf (updItems u w.b.gang w.b.members (fun t => { t with wait := x })) w.b.gang m.1 m.2 = some y ∧
      y.wait = x ∧ y.pc = (itemAt s w.b.gang m.1 m.2).pc := by
  obtain ⟨a, ha⟩ := Option.isSome_iff_exists.1 (i.live m hm)
  obtain ⟨b, hb, pc⟩ := Option.map_eq_some_iff.1 ((k w.b.gang m.1 m.2).trans (by rw [itemOf, ha]; rfl))
  refine ⟨{ b with wait := x }, ?_, rfl, ?_⟩
  · rw [itemOf_updItems _ _ _ _ _ _ _ i.once, if_pos ⟨rfl, hm⟩, hb]
    rfl
  · rw [itemAt_of_itemOf ha]
    exact pc

section
variable {xg chained : Bool} {u : Uses} {d a : Field7} {ext : Word} {len : Nat} {pos : State → Nat → Nat → Nat → Option Nat}
  {s : State} {w : Where} (i : Issues s w)
include i

/-- Items that no release covers arrive at an exchange, and nothing else changes (R183). -/
theorem exchangeStep_arrives (waits : ∀ m ∈ w.b.members, coverOf s w.b.gang m = none) :
    let t := exchangeStep xg u d a ext len chained pos s
    Apart s t w ∧ SameRegisters s t w.b.gang ∧ ∀ m ∈ w.b.members, (itemAt t w.b.gang m.1 m.2).wait = .exchange xg ∧
      (itemAt t w.b.gang m.1 m.2).pc = (itemAt s w.b.gang m.1 m.2).pc := by
  have staged := (staged_dropRings s w w.b.members).trans (staged_updWait _ w w.b.members (.exchange xg))
  have waiting (m) := wait_updWait (m := m) i (staged_dropRings s w w.b.members).pc (.exchange xg)
  rw [exchangeStep_waits i waits, waitEnd_left]
  generalize updItems (dropRings s w.b.gang w.b.members) w.b.gang w.b.members _ = v at staged waiting ⊢
  have conf := confined_endMember v { w with b := { w.b with members := [] } } [] [] { chained } false (fun _ h => h)
  generalize endMember v _ [] [] _ false = t at conf ⊢
  have group (g : Nat) : groupAt t w.b.gang g = groupAt v w.b.gang g := conf.group g (fun _ => List.not_mem_nil)
  have onward : Apart v t w := ⟨conf.rest, conf.gangs, conf.gang, conf.lane⟩
  refine ⟨apart_trans staged.apart onward, sameRegisters_of_regs ((confined_oneD conf).trans staged.oneD) (fun g => ?_),
    fun m hm => ?_⟩
  · rw [group]
    exact staged.regs _ g
  · obtain ⟨y, hy, wait, pc⟩ := waiting m hm
    have here : itemAt t w.b.gang m.1 m.2 = y := by
      rw [itemAt, group]
      exact itemAt_of_itemOf hy
    rw [here]
    exact ⟨wait, pc⟩

/-- Ready items of one release set exchange: each receives its word and goes on (R184). -/
theorem exchangeStep_exchanges {n : Nat} (nonempty : w.b.members ≠ []) (covered : ∀ m ∈ w.b.members, coverOf s w.b.gang m = some n)
    (ready : Ready s w u) (named : (d, 1) ∈ u.named) (plain : ∀ f ∈ u.read, isLatch f.1 = false) : ∃ v x, Staged s v w ∧
    Staged s x w ∧ (∀ m ∈ w.b.members, ∃ y, itemOf x w.b.gang m.1 m.2 = some y ∧ y.wait = .ready) ∧
    Received d ext (exchangeWord pos a ext s v w) len x (exchangeStep xg u d a ext len chained pos s) w := by
  obtain ⟨touch, run⟩ := exchangeStep_ready (xg := xg) (chained := chained) (a := a) (ext := ext) (len := len) (pos := pos)
    i nonempty covered ready named plain
  have dropped := staged_dropRings s w w.b.members
  have checked := dropped.trans (staged_usedBanks (dropped.cursor.trans i.cursor) touch)
  have released := checked.trans (staged_updWait _ w w.b.members .ready)
  refine ⟨_, _, checked, released, fun m hm => ?_, ?_⟩
  · obtain ⟨y, hy, wait, -⟩ := wait_updWait i checked.pc .ready hm
    exact ⟨y, hy, wait⟩
  · rw [run]
    exact resultsEnd_received (released.issues i) (fun m hm => (released.regs _ _).badV.trans (ready.cleanV m hm))
      (fun m hm => (released.regs _ _).badS.trans (ready.cleanS m hm)) d ext len chained _

end

/-- What items do that arrive at an exchange, and what items receive that are released together (R183 to R187). -/
theorem exchangeArrives_proved : exchangeArrives := by
  intro ins e exchange _ s w issues
  obtain ⟨chained, pos, run, reads⟩ := exec_of_exchangeOf exchange
  rw [run s]
  refine ⟨fun waits => ⟨_, rfl, exchangeStep_arrives issues (fun m hm => coverOf_eq_none (waits m hm))⟩,
    fun n nonempty covers ready plain => ⟨_, rfl, ?_⟩⟩
  have covered : ∀ m ∈ w.b.members, coverOf s w.b.gang m = some n := fun m hm => coverOf_eq_some (covers m hm)
  obtain ⟨v, x, checked, released, waits, received⟩ := exchangeStep_exchanges (xg := e.xg) (chained := chained) (d := e.d) (a := e.a)
    (ext := e.ext) (len := e.len) (pos := pos) issues nonempty covered ready List.mem_cons_self plain
  refine ⟨apart_trans released.apart (confined_apart received.conf), received.keptRegs_staged released,
    released.movedOn issues received.moved, fun m hm => ?ready, wrote_congr (received.wrote_staged released issues) (fun m hm => ?word)⟩
  case ready =>
    obtain ⟨y, hy, wait⟩ := waits m hm
    obtain ⟨z, hz, same⟩ := received.conf.kept m hm y hy
    rw [itemAt_of_itemOf hz, ← wait, ← same]
  case word =>
    have plainA : isLatch e.a = false := plain (e.a, 1) List.mem_cons_self
    rw [exchangeWord_covered pos e.a e.ext covered v hm, reads s v w checked plain, operand_eq checked _ _ _ plainA]

end Sys2Proof.Machine
end

section
/-!
EXCHANGE_RELEASE (R183, R184): the items that it frees, and the release sets that they form.
-/
namespace Sys2Proof.Machine
open Sys2Proof

/-- Items of a home group released together under a new name (R184). -/
def releaseOne (s : State) (gang g : Nat) (es : List (Nat × Item)) : State :=
  updItems { s with nextId := s.nextId + 1 } gang (es.map (fun t => (g, t.1)))
    (fun t => { t with wait := .released s.nextId, readyAt := s.now })

/-- Release sets given their names one after another. -/
def releaseEach {κ : Type} (set : κ → List (Nat × Item)) (gang g : Nat) (keys : List κ) (s : State) : State :=
  keys.foldl (fun u k => releaseOne u gang g (set k)) s

theorem sameS_releaseOne (s : State) (gang g : Nat) (es : List (Nat × Item)) :
    SameS { s with nextId := s.nextId + 1 } (releaseOne s gang g es) := sameS_updItems _ _ _ _

theorem releaseOne_nextId (s : State) (gang g : Nat) (es : List (Nat × Item)) : (releaseOne s gang g es).nextId = s.nextId + 1 := by
  have next := congrArg State.nextId (sameS_releaseOne s gang g es).rest
  exact next

theorem releaseOne_now (s : State) (gang g : Nat) (es : List (Nat × Item)) : (releaseOne s gang g es).now = s.now := by
  have now := congrArg State.now (sameS_releaseOne s gang g es).rest
  exact now

theorem itemOf_releaseOne (s : State) (gang g : Nat) {es : List (Nat × Item)} (nd : (es.map Prod.fst).Nodup) (p : Nat) :
    itemOf (releaseOne s gang g es) gang g p = if p ∈ es.map Prod.fst
      then (itemOf s gang g p).map (fun t => { t with wait := .released s.nextId, readyAt := s.now })
      else itemOf s gang g p := by
  have places : es.map (fun t => (g, t.1)) = (es.map Prod.fst).map (Prod.mk g) := by rw [List.map_map]; rfl
  have here : (g, p) ∈ es.map (fun t => (g, t.1)) ↔ p ∈ es.map Prod.fst := by simp
  rw [releaseOne, itemOf_updItems _ _ _ _ _ _ _ (places ▸ nd.map (Prod.mk_right_injective g))]
  simp only [true_and, here]
  rfl

/-- Names for states: releases change a new name and what an update of items changes. -/
theorem sameS_named {s u : State} (h : SameS s u) (n : Nat) : SameS { s with nextId := n } { u with nextId := n } := by
  refine ⟨h.regs, h.gang, ?_⟩
  have rest := congrArg (fun x : State => { x with nextId := n }) h.rest
  exact rest

section
variable {κ : Type} (set : κ → List (Nat × Item)) (gang g : Nat)

theorem sameS_releaseEach (keys : List κ) (s : State) :
    SameS { s with nextId := s.nextId + keys.length } (releaseEach set gang g keys s) := by
  induction keys generalizing s with
  | nil => exact .refl s
  | cons k r ih =>
    have rest := ih (releaseOne s gang g (set k))
    rw [releaseOne_nextId, Nat.add_assoc, Nat.add_comm 1] at rest
    exact (sameS_named (sameS_releaseOne s gang g (set k)) _).trans rest

theorem itemOf_releaseEach_other {keys : List κ} (s : State) (nd : ∀ k, ((set k).map Prod.fst).Nodup) {p : Nat}
    (h : ∀ k ∈ keys, p ∉ (set k).map Prod.fst) : itemOf (releaseEach set gang g keys s) gang g p = itemOf s gang g p := by
  induction keys generalizing s with
  | nil => rfl
  | cons k r ih =>
    refine (ih (releaseOne s gang g (set k)) (fun j hj => h j (List.mem_cons_of_mem _ hj))).trans ?_
    rw [itemOf_releaseOne _ _ _ (nd k), if_neg (h k List.mem_cons_self)]

/-- An item of one release set takes the name that its set received (R184). -/
theorem itemOf_releaseEach [BEq κ] [LawfulBEq κ] {keys : List κ} (s : State) (nd : ∀ k, ((set k).map Prod.fst).Nodup) (once : keys.Nodup)
    {k : κ} (hk : k ∈ keys) {p : Nat} (hp : p ∈ (set k).map Prod.fst) (only : ∀ j ∈ keys, p ∈ (set j).map Prod.fst → j = k) :
    itemOf (releaseEach set gang g keys s) gang g p =
      (itemOf s gang g p).map (fun t => { t with wait := .released (s.nextId + keys.idxOf k), readyAt := s.now }) := by
  induction keys generalizing s with
  | nil => simp at hk
  | cons j r ih =>
    obtain ⟨fresh, once⟩ := List.nodup_cons.1 once
    by_cases e : j = k
    · subst e
      refine (itemOf_releaseEach_other set gang g (keys := r) _ nd (fun i hi c => ?_)).trans ?_
      · exact fresh (only i (List.mem_cons_of_mem _ hi) c ▸ hi)
      · rw [itemOf_releaseOne _ _ _ (nd j), if_pos hp, List.idxOf_cons_self]
        rfl
    · have later : k ∈ r := (List.mem_cons.1 hk).resolve_left (Ne.symm e)
      refine (ih (releaseOne s gang g (set j)) once later (fun i hi => only i (List.mem_cons_of_mem _ hi))).trans ?_
      rw [itemOf_releaseOne _ _ _ (nd j), if_neg (fun c => e (only j List.mem_cons_self c)), releaseOne_nextId, releaseOne_now,
        List.idxOf_cons_ne _ e, Nat.succ_eq_add_one, Nat.add_assoc, Nat.add_comm 1]

end

/-- Memories stand where the store, the tails, the scratchpads and every gang's memory do (R290). -/
theorem sameMemory_of {s u : State} (store : SameStore s u) (writers : u.writers = s.writers) (dies : u.dies = s.dies)
    (gmem : ∀ a, (gangAt u a).gmem = (gangAt s a).gmem) : SameMemory s u where
  log wid asid key i := by
    have writer : writerAt u wid = writerAt s wid := by rw [writerAt, writers, writerAt]
    rw [logByte, readSector_same store _ (by rw [writer]) (by rw [writer]) (by rw [writer]), logByte]
  gang a b := by rw [gangByte, gmem, gangByte]
  spad d l a := by simp only [spadByte, dieLocal, spadOf, dieAt, dies]
  fixed := store.fixed

/-- Updates of items, and names used, leave every memory alone. -/
theorem sameMemory_of_sameS {s u : State} {n : Nat} (h : SameS { s with nextId := n } u) : SameMemory s u := by
  have stks := congrArg State.stks h.rest
  have log := congrArg State.log h.rest
  have badLog := congrArg State.badLog h.rest
  have lost := congrArg State.lost h.rest
  have fixed := congrArg State.fixed h.rest
  have boot := congrArg State.boot h.rest
  have dies := congrArg State.dies h.rest
  have writers := congrArg State.writers h.rest
  have die (d : Nat) : dieAt u d = dieAt s d := by rw [dieAt, show u.dies = s.dies from dies, dieAt]
  refine sameMemory_of ⟨stks, log, badLog, lost, fixed, boot, fun d => by rw [die], fun d => by rw [die]⟩ writers dies (fun a => ?_)
  have gmem := congrArg Gang.gmem (h.gang a)
  exact gmem

/-- What a table with rising keys lists, it answers. -/
theorem tfind_of_mem {α : Type} {t : Tbl α} (rising : (t.map Prod.fst).Pairwise (· < ·)) {i : Nat} {x : α} (h : (i, x) ∈ t) :
    tfind t i = some x := by
  induction t with
  | nil => simp at h
  | cons a r ih =>
    obtain ⟨k, y⟩ := a
    obtain ⟨least, rest⟩ := List.pairwise_cons.1 rising
    obtain e | h := List.mem_cons.1 h
    · cases e
      simp [tfind]
    · have : k < i := least i (List.mem_map_of_mem h)
      rw [tfind, if_neg (by omega), if_neg (by omega), ih rest h]

end Sys2Proof.Machine
end

section
/-!
The partner sets of a home group (R183), and the release of those whose conditions hold.
-/
namespace Sys2Proof.Machine
open Sys2Proof

/-- The partner sets of a home group: its eight quads for `xq`, and the group for `xg` (R183). -/
def partnerSets : List (Nat × Bool) := (upTo 0 8).map (fun q => (q, false)) ++ [(0, true)]

theorem mem_partnerSets {c : Nat × Bool} : c ∈ partnerSets ↔ c.1 < 8 ∧ (c.2 = true → c.1 = 0) := by
  obtain ⟨q, b⟩ := c
  cases b <;> simp [partnerSets, mem_upTo]
  omega

theorem nodup_partnerSets : partnerSets.Nodup := by decide

/-- The positions of a partner set (R183). -/
theorem mem_partners {quad p : Nat} {xg : Bool} (h : quad < 8) : p ∈ partners quad xg ↔ p < 32 ∧ (xg = true ∨ p / 4 = quad) := by
  cases xg <;> simp [partners, mem_upTo]
  omega

/-- A release set: the partner set, and the word address at which its members stand (R184). -/
abbrev ReleaseKey := (Nat × Bool) × DWord

/-- The members of a release set (R184). -/
def releaseMembers (x : Group) (k : ReleaseKey) : List (Nat × Item) :=
  (arrived x k.1.1 k.1.2).filter (fun t => t.2.pc = k.2)

/-- The release sets of a partner set: one for each word address (R184). -/
def keysOf (x : Group) (c : Nat × Bool) : List ReleaseKey :=
  (nodup ((arrived x c.1 c.2).map (fun t => t.2.pc))).map (fun pc => (c, pc))

/-- The release sets of a home group's partner sets whose conditions hold (R183, R184). -/
def releaseKeys (s : State) (gang g : Nat) : List ReleaseKey :=
  (partnerSets.filter (fun c => exchangeReady s gang g c.1 c.2)).flatMap (keysOf (groupAt s gang g))

theorem releaseSet_eq (s : State) (gang g : Nat) (x : Group) (c : Nat × Bool) :
    releaseSet s gang g (arrived x c.1 c.2) = releaseEach (releaseMembers x) gang g (keysOf x c) s := by
  rw [releaseEach, keysOf, List.foldl_map]
  rfl

/-- The event releases these sets, one after another (R184). -/
theorem exchangeEvent_eq {s : State} {gang g quad : Nat} {xg : Bool} (h : exchangeReady s gang g quad xg = true) :
    exchangeEvent s gang g quad xg = releaseEach (releaseMembers (groupAt s gang g)) gang g (releaseKeys s gang g) s := by
  have sets : readySets s gang g = (partnerSets.filter (fun c => exchangeReady s gang g c.1 c.2)).map (fun c =>
      arrived (groupAt s gang g) c.1 c.2) := by
    rw [← List.filterMap_eq_map, List.filterMap_filter]
    rfl
  rw [exchangeEvent, h, sets, List.foldl_map, releaseEach, releaseKeys, List.foldl_flatMap]
  simp only [releaseSet_eq]
  rfl

/-- The release set that an arrived item belongs to: its partner set and its word address (R183, R184). -/
def releaseKeyOf (p : Nat) (t : Item) : ReleaseKey := ((if t.wait = .exchange true then 0 else p / 4, t.wait = .exchange true), t.pc)

theorem releaseKeyOf_of_wait {p : Nat} {t : Item} {b : Bool} (h : t.wait = .exchange b) :
    releaseKeyOf p t = ((if b then 0 else p / 4, b), t.pc) := by
  cases b <;> simp [releaseKeyOf, h]

/-- Two arrived items belong to one release set when they stand at one exchange, at one word address and, for `xq`, in one
quad (R183, R184). -/
theorem releaseKeyOf_eq_iff {p q : Nat} {t y : Item} {b c : Bool} (ht : t.wait = .exchange b) (hy : y.wait = .exchange c) :
    releaseKeyOf p t = releaseKeyOf q y ↔ t.wait = y.wait ∧ t.pc = y.pc ∧ (t.wait = .exchange true ∨ p / 4 = q / 4) := by
  rw [releaseKeyOf_of_wait ht, releaseKeyOf_of_wait hy, ht, hy]
  cases b <;> cases c <;> simp [and_comm]

theorem releaseKeyOf_mem_partnerSets {p : Nat} {t : Item} {b : Bool} (lt : p < 32) (h : t.wait = .exchange b) :
    (releaseKeyOf p t).1 ∈ partnerSets := by
  rw [releaseKeyOf_of_wait h, mem_partnerSets]
  cases b <;> simp
  omega

/-- An arrived item's partner set, named by its quad or by its release set (R183). -/
theorem complete_releaseKeyOf {x : Group} {p : Nat} {t : Item} {b : Bool} (h : t.wait = .exchange b) :
    complete x b (releaseKeyOf p t).1.1 ↔ complete x b (p / 4) := by
  rw [releaseKeyOf_of_wait h]
  cases b <;> simp [complete]

theorem mem_keysOf {x : Group} {c : Nat × Bool} {k : ReleaseKey} :
    k ∈ keysOf x c ↔ k.1 = c ∧ ∃ p t, (p, t) ∈ releaseMembers x k := by
  obtain ⟨d, pc⟩ := k
  simp only [keysOf, List.mem_map, mem_nodup, releaseMembers, List.mem_filter, Prod.exists, Prod.mk.injEq, decide_eq_true_eq]
  constructor
  · rintro ⟨_, ⟨p, t, here, rfl⟩, rfl, rfl⟩
    exact ⟨rfl, p, t, here, rfl⟩
  · rintro ⟨rfl, p, t, here, rfl⟩
    exact ⟨_, ⟨p, t, here, rfl⟩, rfl, rfl⟩

theorem mem_releaseKeys {s : State} {gang g : Nat} {k : ReleaseKey} : k ∈ releaseKeys s gang g ↔
    k.1 ∈ partnerSets ∧ exchangeReady s gang g k.1.1 k.1.2 = true ∧ ∃ p t, (p, t) ∈ releaseMembers (groupAt s gang g) k := by
  simp only [releaseKeys, List.mem_flatMap, List.mem_filter, mem_keysOf]
  constructor
  · rintro ⟨_, ⟨set, ready⟩, rfl, inhabited⟩
    exact ⟨set, ready, inhabited⟩
  · rintro ⟨set, ready, inhabited⟩
    exact ⟨k.1, ⟨set, ready⟩, rfl, inhabited⟩

theorem nodup_releaseKeys (s : State) (gang g : Nat) : (releaseKeys s gang g).Nodup := by
  refine List.nodup_flatMap.2 ⟨fun c _ => (nodup_nodup _).map (Prod.mk_right_injective c), ?_⟩
  refine (nodup_partnerSets.filter _).imp (fun differ k first second => differ ?_)
  exact (mem_keysOf.1 first).1.symm.trans (mem_keysOf.1 second).1

/-- The items that a release of exchanges frees: those that stand at an exchange whose partner set is complete (R183, R184). -/
def Freed (x : Group) (p : Nat) (t : Item) : Prop :=
  p < 32 ∧ itemIn x p = some t ∧ ∃ b, t.wait = .exchange b ∧ complete x b (p / 4)

section
variable {s : State} {gang g : Nat} (rising : ((groupAt s gang g).items.map Prod.fst).Pairwise (· < ·))
include rising

theorem mem_items_iff {p : Nat} {t : Item} : (p, t) ∈ (groupAt s gang g).items ↔ itemIn (groupAt s gang g) p = some t :=
  ⟨tfind_of_mem rising, mem_of_tfind⟩

/-- The condition of a partner set: it is complete, and a member stands at its opcode (R183). -/
theorem exchangeReady_iff {quad : Nat} {xg : Bool} (lt : quad < 8) : exchangeReady s gang g quad xg = true ↔
    complete (groupAt s gang g) xg quad ∧ ∃ p t, p < 32 ∧ (xg = true ∨ p / 4 = quad) ∧
      itemIn (groupAt s gang g) p = some t ∧ t.wait = .exchange xg := by
  have mem (p : Nat) (t : Item) : (p, t) ∈ (groupAt s gang g).items.filter (fun t => (partners quad xg).contains t.1) ↔
      itemIn (groupAt s gang g) p = some t ∧ p < 32 ∧ (xg = true ∨ p / 4 = quad) := by
    rw [List.mem_filter, mem_items_iff rising, List.contains_iff_mem, mem_partners lt]
  unfold exchangeReady complete
  simp only [Bool.and_eq_true, List.all_eq_true, List.any_eq_true, Prod.forall, Prod.exists, mem, Bool.or_eq_true, decide_eq_true_eq]
  constructor
  · rintro ⟨all, p, t, ⟨here, lt, inSet⟩, wait⟩
    exact ⟨fun p t lt inSet here => all p t ⟨here, lt, inSet⟩, p, t, lt, inSet, here, wait⟩
  · rintro ⟨all, p, t, lt, inSet, here, wait⟩
    exact ⟨fun p t ⟨here, lt, inSet⟩ => all p t lt inSet here, p, t, ⟨here, lt, inSet⟩, wait⟩

/-- The members of a release set are the arrived items that belong to it. -/
theorem mem_releaseMembers {k : ReleaseKey} (hk : k.1 ∈ partnerSets) {p : Nat} {t : Item} :
    (p, t) ∈ releaseMembers (groupAt s gang g) k ↔
      p < 32 ∧ itemIn (groupAt s gang g) p = some t ∧ t.wait = .exchange k.1.2 ∧ releaseKeyOf p t = k := by
  obtain ⟨⟨quad, b⟩, pc⟩ := k
  obtain ⟨lt, group⟩ := mem_partnerSets.1 hk
  dsimp only at lt group
  simp only [releaseMembers, arrived, List.mem_filter, mem_items_iff rising, Bool.and_eq_true, List.contains_iff_mem,
    mem_partners lt, decide_eq_true_eq]
  constructor
  · rintro ⟨⟨here, ⟨lt, inSet⟩, wait⟩, rfl⟩
    refine ⟨lt, here, wait, ?_⟩
    rw [releaseKeyOf_of_wait wait]
    cases b with
    | true => rw [group rfl]; rfl
    | false => rw [← inSet.resolve_left (by simp)]; rfl
  · rintro ⟨home, here, wait, key⟩
    rw [releaseKeyOf_of_wait wait] at key
    obtain ⟨⟨rfl, -⟩, rfl⟩ := by simpa using key
    exact ⟨⟨here, ⟨home, by cases b <;> simp⟩, wait⟩, rfl⟩

theorem nodup_releaseMembers (k : ReleaseKey) : ((releaseMembers (groupAt s gang g) k).map Prod.fst).Nodup := by
  have part : List.Sublist (releaseMembers (groupAt s gang g) k) (groupAt s gang g).items :=
    List.filter_sublist.trans List.filter_sublist
  exact (rising.imp (fun lt => Nat.ne_of_lt lt)).sublist (part.map Prod.fst)

/-- The items that the event frees are the members of its release sets. -/
theorem freed_iff {p : Nat} {t : Item} : Freed (groupAt s gang g) p t ↔
    ∃ k ∈ releaseKeys s gang g, (p, t) ∈ releaseMembers (groupAt s gang g) k := by
  constructor
  · rintro ⟨lt, here, b, wait, all⟩
    have set := releaseKeyOf_mem_partnerSets lt wait
    have kind : (releaseKeyOf p t).1.2 = b := by rw [releaseKeyOf_of_wait wait]
    have member := (mem_releaseMembers rising set).2 ⟨lt, here, kind.symm ▸ wait, rfl⟩
    have inSet : b = true ∨ p / 4 = (releaseKeyOf p t).1.1 := by rw [releaseKeyOf_of_wait wait]; cases b <;> simp
    refine ⟨_, mem_releaseKeys.2 ⟨set, ?_, p, t, member⟩, member⟩
    rw [kind, exchangeReady_iff rising (mem_partnerSets.1 set).1]
    exact ⟨(complete_releaseKeyOf wait).2 all, p, t, lt, inSet, here, wait⟩
  · rintro ⟨k, hk, member⟩
    obtain ⟨set, ready, -⟩ := mem_releaseKeys.1 hk
    obtain ⟨lt, here, wait, key⟩ := (mem_releaseMembers rising set).1 member
    have all := ((exchangeReady_iff rising (mem_partnerSets.1 set).1).1 ready).1
    exact ⟨lt, here, k.1.2, wait, (complete_releaseKeyOf wait).1 (key.symm ▸ all)⟩

/-- A member of a release set of the event: the set is the one that the item belongs to. -/
theorem releaseKeyOf_of_member {k : ReleaseKey} (hk : k ∈ releaseKeys s gang g) {p : Nat} {t : Item}
    (here : itemIn (groupAt s gang g) p = some t) (h : p ∈ (releaseMembers (groupAt s gang g) k).map Prod.fst) :
    (p, t) ∈ releaseMembers (groupAt s gang g) k ∧ releaseKeyOf p t = k := by
  obtain ⟨⟨_, y⟩, member, rfl⟩ := List.mem_map.1 h
  obtain ⟨-, found, -, key⟩ := (mem_releaseMembers rising (mem_releaseKeys.1 hk).1).1 member
  obtain rfl : t = y := Option.some.inj (here.symm.trans found)
  exact ⟨member, key⟩

/-- A freed item's release set is one of the event's, and the item is a member of it. -/
theorem Freed.member {p : Nat} {t : Item} (h : Freed (groupAt s gang g) p t) :
    releaseKeyOf p t ∈ releaseKeys s gang g ∧ (p, t) ∈ releaseMembers (groupAt s gang g) (releaseKeyOf p t) := by
  obtain ⟨k, hk, member⟩ := (freed_iff rising).1 h
  obtain rfl := (releaseKeyOf_of_member rising hk h.2.1 (List.mem_map_of_mem member)).2
  exact ⟨hk, member⟩

/-- What the event leaves of a freed item: it waits no more, under the name of its release set (R184). -/
theorem Freed.itemOf {p : Nat} {t : Item} (h : Freed (groupAt s gang g) p t) :
    itemOf (releaseEach (releaseMembers (groupAt s gang g)) gang g (releaseKeys s gang g) s) gang g p =
      some { t with wait := .released (s.nextId + (releaseKeys s gang g).idxOf (releaseKeyOf p t)), readyAt := s.now } := by
  obtain ⟨hk, member⟩ := h.member rising
  obtain ⟨-, here, -⟩ := h
  have own : Sys2Proof.Machine.itemOf s gang g p = some t := here
  rw [itemOf_releaseEach _ _ _ s (nodup_releaseMembers rising) (nodup_releaseKeys s gang g) hk (List.mem_map_of_mem member)
    (fun j hj hp => (releaseKeyOf_of_member rising hj here hp).2.symm), own]
  rfl

/-- The event leaves every other item of the group as it stands (R184). -/
theorem itemOf_of_not_freed {p : Nat} {t : Item} (here : itemIn (groupAt s gang g) p = some t)
    (h : ¬ Freed (groupAt s gang g) p t) :
    itemOf (releaseEach (releaseMembers (groupAt s gang g)) gang g (releaseKeys s gang g) s) gang g p = some t := by
  refine (itemOf_releaseEach_other _ _ _ s (nodup_releaseMembers rising) (fun k hk hp => h ?_)).trans here
  exact (freed_iff rising).2 ⟨k, hk, (releaseKeyOf_of_member rising hk here hp).1⟩

end

/-- The release frees the complete partner sets' arrived items, a name for each release set, and nothing else changes (R183, R184). -/
theorem exchangeReleases_proved : exchangeReleases := by
  intro s gang g quad xg x rising lt all someone freed
  have ready : exchangeReady s gang g quad xg = true := (exchangeReady_iff rising lt).2 ⟨all, someone⟩
  have same := sameS_releaseEach (releaseMembers x) gang g (releaseKeys s gang g) s
  refine ⟨_, congrArg Host.Outcome.next (exchangeEvent_eq ready),
    fun p => s.nextId + (releaseKeys s gang g).idxOf (releaseKeyOf p ((itemIn x p).getD {})), ?_, ?_, ?_,
    sameMemory_of_sameS same,
    sameRegisters_of_regs ?_ (same.regs gang)⟩
  · intro p t q y hp hq
    obtain ⟨hk, -⟩ := Freed.member rising hp
    obtain ⟨-, hereP, _, waitP, -⟩ := hp
    obtain ⟨-, hereQ, _, waitQ, -⟩ := hq
    simp only [hereP, hereQ, Option.getD_some]
    rw [Nat.add_left_cancel_iff, List.idxOf_inj hk, releaseKeyOf_eq_iff waitP waitQ]
  · intro p t hp
    have here : itemIn x p = some t := hp.2.1
    simp only [here, Option.getD_some]
    exact Freed.itemOf rising hp
  · exact fun p t here kept => itemOf_of_not_freed rising here kept
  · have oneD := congrArg Gang.oneD (same.gang gang)
    exact oneD

/-- Settles O31: an exchange waits until it is released, items released together exchange, and the release frees the complete
partner sets' arrived items. -/
theorem exchanges : Obligations.Exchanges := ⟨exchangeArrives_proved, exchangeReleases_proved⟩

end Sys2Proof.Machine
end
